-- ==== Sys2Proof/Word.lean ====
section
/-! DEFINITION. The word types of the VF-9400 (R3, R130): the 64-bit register word, the byte, the 32-bit instruction word and
the 64-bit lane mask (bit L is lane L). -/

namespace Sys2Proof

/-- A 64-bit register word (R130). -/
abbrev Word := BitVec 64

/-- A byte of memory (R249: a location is one byte). -/
abbrev Byte := BitVec 8

/-- An instruction word (R17). -/
abbrev IWord := BitVec 32

/-- A set of lanes of a gang: bit L is lane L (R134). -/
abbrev Mask := BitVec 64

end Sys2Proof
end

