-- ==== Sys2Proof/Syntax.lean ====
section
/-! DEFINITION. The instructions and steps of the VF-9400: one constructor for each row of the spec's table of
operations and events. An instruction row carries the fields of its word under the table's names (R17, R36); a step of
another agent (95_what_each_step_holds) carries the numbers of the objects that it acts on. -/

namespace Sys2Proof

/-- One constructor per row of the table of operations and events. -/
inductive Instr where
  /-- R355. Always faults with ILLEGAL, whatever its bits 24:0. -/
  | ill (n : BitVec 25)
  /-- R286. Unconditional branch of the issuing fragment as a whole. -/
  | br (d : BitVec 18)
  /-- R280. Per-lane branch that splits the fragment by slices and defers the lanes of mixed slices. -/
  | brLanes (k : BitVec 3) (d : BitVec 18)
  /-- R279. The fragment branches as a whole when some active lane has its tested mask bit set. -/
  | brAny (k : BitVec 3) (d : BitVec 18)
  /-- R279. The fragment branches as a whole when every active lane has its tested mask bit set. -/
  | brAll (k : BitVec 3) (d : BitVec 18)
  /-- R279. The fragment branches as a whole when no active lane has its tested mask bit set. -/
  | brNone (k : BitVec 3) (d : BitVec 18)
  /-- R286. Branches when the scalar register is zero. -/
  | brsZ (a : BitVec 5) (d : BitVec 17)
  /-- R286. Branches when the scalar register is nonzero. -/
  | brsNz (a : BitVec 5) (d : BitVec 17)
  /-- R286. Branches when the scalar register is negative as a signed value. -/
  | brsNeg (a : BitVec 5) (d : BitVec 17)
  /-- R286. Branches when the scalar register is not negative. -/
  | brsNneg (a : BitVec 5) (d : BitVec 17)
  /-- R287. Writes the address after the unit to s31 and branches to the target. -/
  | call (d : BitVec 18)
  /-- R287. Jumps to the address in a scalar register. -/
  | jr (a : BitVec 5) (c : BitVec 1)
  /-- R287. Jumps to the address in a scalar register and writes the link to s31. -/
  | jrl (a : BitVec 5) (c : BitVec 1)
  /-- R287. Jumps to the address in s31. -/
  | ret (c : BitVec 1)
  /-- R282. Creates or reuses a join record with the target as the join address. -/
  | joinat (d : BitVec 18)
  /-- R294. Acts on an expired deadline, resets the watchdog budget and count, returns dlrem and lets another gang issue. -/
  | yield (d : BitVec 5) (n : BitVec 14) (c : BitVec 1)
  /-- R284. Ends every lane of the fragment, frees its entry and records its lanes as exited in open joins. -/
  | exit
  /-- R291. Arrives at a named barrier with an expected count and returns the phase. -/
  | barArrive (d : BitVec 5) (a : BitVec 5) (b : BitVec 5) (c : BitVec 1)
  /-- R292. Waits while the barrier's phase equals the token. -/
  | barWait (a : BitVec 5) (b : BitVec 5) (c : BitVec 1)
  /-- R291. Arrives at a barrier and then waits for that phase to complete. -/
  | barSync (a : BitVec 5) (b : BitVec 5) (c : BitVec 1)
  /-- R290. Returns the barrier's state word. -/
  | barQuery (d : BitVec 5) (b : BitVec 5) (c : BitVec 1)
  /-- R353. Enters the context handler with class 0 and its code in FBYTE. -/
  | trap (n : BitVec 6)
  /-- R354. Leaves handler mode, restores banked registers and resumes the trapped lanes at RESUME. -/
  | rte
  /-- R296. Reads a system register into a scalar register. -/
  | sget (d : BitVec 5) (n : BitVec 6) (c : BitVec 1)
  /-- R296. Writes a scalar register into a system register. -/
  | sset (a : BitVec 5) (n : BitVec 6) (c : BitVec 1)
  /-- R317. Reads a task record and enters the task into the die's Arbor table, returning its handle. -/
  | spawn (d : BitVec 5) (a : BitVec 5) (c : BitVec 1)
  /-- R317. Reads a launch record and submits a grid, returning its identifier or 0 when refused. -/
  | launch (d : BitVec 5) (a : BitVec 5) (c : BitVec 1)
  /-- R318. Discards a running or suspended task and enters it again as ready. -/
  | tabortRetry (a : BitVec 5) (c : BitVec 1)
  /-- R318. Removes or discards a task with status code 6. -/
  | tabortDrop (a : BitVec 5) (c : BitVec 1)
  /-- R319. Sets a dependence counter's COUNT and clears UF. -/
  | depset (a : BitVec 5) (b : BitVec 5) (c : BitVec 1)
  /-- R319. Decrements a dependence counter and returns its previous word. -/
  | depdec (d : BitVec 5) (a : BitVec 5) (b : BitVec 5) (c : BitVec 1)
  /-- R319. Returns a dependence counter word. -/
  | depread (d : BitVec 5) (a : BitVec 5) (c : BitVec 1)
  /-- R320. Empties a Chamber queue and sets its ring from a descriptor. -/
  | qinit (a : BitVec 5) (q : BitVec 5) (c : BitVec 1)
  /-- R321. Waits for allowance and appends an entry to a queue or the gate queue. -/
  | qpush (a : BitVec 5) (q : BitVec 5) (c : BitVec 1)
  /-- R321. Waits while the queue is empty, then removes and returns the oldest entry. -/
  | qpop (d : BitVec 5) (q : BitVec 5) (c : BitVec 1)
  /-- R321. Removes the oldest entry if any and writes a success flag to the next register. -/
  | qtry (d : BitVec 5) (q : BitVec 5) (c : BitVec 1)
  /-- R168. Scalar add modulo 2^64. -/
  | sadd (d : BitVec 5) (a : BitVec 5) (b : BitVec 5) (c : BitVec 1)
  /-- R168. Scalar subtract. -/
  | ssub (d : BitVec 5) (a : BitVec 5) (b : BitVec 5) (c : BitVec 1)
  /-- R168. Scalar bitwise and. -/
  | sand (d : BitVec 5) (a : BitVec 5) (b : BitVec 5) (c : BitVec 1)
  /-- R168. Scalar bitwise or. -/
  | sor (d : BitVec 5) (a : BitVec 5) (b : BitVec 5) (c : BitVec 1)
  /-- R168. Scalar bitwise xor. -/
  | sxor (d : BitVec 5) (a : BitVec 5) (b : BitVec 5) (c : BitVec 1)
  /-- R168. Scalar shift left by b[5:0]. -/
  | sshl (d : BitVec 5) (a : BitVec 5) (b : BitVec 5) (c : BitVec 1)
  /-- R168. Scalar logical shift right. -/
  | sshr (d : BitVec 5) (a : BitVec 5) (b : BitVec 5) (c : BitVec 1)
  /-- R168. Scalar arithmetic shift right. -/
  | ssra (d : BitVec 5) (a : BitVec 5) (b : BitVec 5) (c : BitVec 1)
  /-- R168. Scalar multiply, low 64 bits. -/
  | smul (d : BitVec 5) (a : BitVec 5) (b : BitVec 5) (c : BitVec 1)
  /-- R168. Scalar signed multiply, high 64 bits. -/
  | smulh (d : BitVec 5) (a : BitVec 5) (b : BitVec 5) (c : BitVec 1)
  /-- R168. Scalar unsigned multiply, high 64 bits. -/
  | smulhn (d : BitVec 5) (a : BitVec 5) (b : BitVec 5) (c : BitVec 1)
  /-- R169. Scalar signed division that never faults. -/
  | sdiv (d : BitVec 5) (a : BitVec 5) (b : BitVec 5) (c : BitVec 1)
  /-- R169. Scalar unsigned division that never faults. -/
  | sdivn (d : BitVec 5) (a : BitVec 5) (b : BitVec 5) (c : BitVec 1)
  /-- R169. Scalar signed remainder. -/
  | srem (d : BitVec 5) (a : BitVec 5) (b : BitVec 5) (c : BitVec 1)
  /-- R169. Scalar unsigned remainder. -/
  | sremn (d : BitVec 5) (a : BitVec 5) (b : BitVec 5) (c : BitVec 1)
  /-- R168. Scalar compare by the condition in fn, writing 1 or 0. -/
  | scmp (o : BitVec 3) (d : BitVec 5) (a : BitVec 5) (b : BitVec 5) (c : BitVec 1)
  /-- R168. Scalar signed minimum. -/
  | smin (d : BitVec 5) (a : BitVec 5) (b : BitVec 5) (c : BitVec 1)
  /-- R168. Scalar signed maximum. -/
  | smax (d : BitVec 5) (a : BitVec 5) (b : BitVec 5) (c : BitVec 1)
  /-- R168. Scalar unsigned minimum. -/
  | sminn (d : BitVec 5) (a : BitVec 5) (b : BitVec 5) (c : BitVec 1)
  /-- R168. Scalar unsigned maximum. -/
  | smaxn (d : BitVec 5) (a : BitVec 5) (b : BitVec 5) (c : BitVec 1)
  /-- R168. Counts leading zeros of a scalar. -/
  | sclz (d : BitVec 5) (a : BitVec 5) (c : BitVec 1)
  /-- R168. Counts trailing zeros of a scalar. -/
  | sctz (d : BitVec 5) (a : BitVec 5) (c : BitVec 1)
  /-- R168. Counts set bits of a scalar. -/
  | spopc (d : BitVec 5) (a : BitVec 5) (c : BitVec 1)
  /-- R170. Adds a sign-extended immediate to a scalar. -/
  | saddi (d : BitVec 5) (a : BitVec 5) (i : BitVec 14) (c : BitVec 1)
  /-- R170. Ands a scalar with an immediate. -/
  | sandi (d : BitVec 5) (a : BitVec 5) (i : BitVec 14) (c : BitVec 1)
  /-- R170. Ors a scalar with an immediate. -/
  | sori (d : BitVec 5) (a : BitVec 5) (i : BitVec 14) (c : BitVec 1)
  /-- R170. Xors a scalar with an immediate. -/
  | sxori (d : BitVec 5) (a : BitVec 5) (i : BitVec 14) (c : BitVec 1)
  /-- R171. Shifts a scalar left by a constant. -/
  | sshli (d : BitVec 5) (a : BitVec 5) (n : BitVec 6) (c : BitVec 1)
  /-- R171. Shifts a scalar right logically by a constant. -/
  | sshri (d : BitVec 5) (a : BitVec 5) (n : BitVec 6) (c : BitVec 1)
  /-- R171. Shifts a scalar right arithmetically by a constant. -/
  | ssrai (d : BitVec 5) (a : BitVec 5) (n : BitVec 6) (c : BitVec 1)
  /-- R172. Loads 8 bytes of global memory into a scalar register. -/
  | sld (d : BitVec 5) (a : BitVec 5) (i : BitVec 14) (c : BitVec 1)
  /-- R172. Stores a scalar register to 8 bytes of global memory. -/
  | sst (d : BitVec 5) (a : BitVec 5) (i : BitVec 14) (c : BitVec 1)
  /-- R173. Loads 8 bytes and sets a mask register's bits of the active lanes from it. -/
  | sldk (k : BitVec 3) (a : BitVec 5) (i : BitVec 14) (c : BitVec 1)
  /-- R178. Wrapping vector integer add. -/
  | vadd (k : BitVec 3) (d : BitVec 6) (a : BitVec 6) (b : BitVec 6) (t : BitVec 2) (c : BitVec 1)
  /-- R178. Saturating vector integer add of 8- or 16-bit elements. -/
  | vaddSat (k : BitVec 3) (d : BitVec 6) (a : BitVec 6) (b : BitVec 6) (t : BitVec 2) (c : BitVec 1)
  /-- R178. Wrapping vector integer subtract. -/
  | vsub (k : BitVec 3) (d : BitVec 6) (a : BitVec 6) (b : BitVec 6) (t : BitVec 2) (c : BitVec 1)
  /-- R178. Saturating vector integer subtract. -/
  | vsubSat (k : BitVec 3) (d : BitVec 6) (a : BitVec 6) (b : BitVec 6) (t : BitVec 2) (c : BitVec 1)
  /-- R178. Vector integer multiply, low bits. -/
  | vmul (k : BitVec 3) (d : BitVec 6) (a : BitVec 6) (b : BitVec 6) (t : BitVec 2) (c : BitVec 1)
  /-- R178. Vector integer multiply, high bits, signed or unsigned. -/
  | vmulh (k : BitVec 3) (d : BitVec 6) (a : BitVec 6) (b : BitVec 6) (t : BitVec 3) (c : BitVec 1)
  /-- R178. Vector integer minimum of 16- or 32-bit elements. -/
  | vmin (k : BitVec 3) (d : BitVec 6) (a : BitVec 6) (b : BitVec 6) (t : BitVec 2) (c : BitVec 1)
  /-- R178. Vector integer maximum of 16- or 32-bit elements. -/
  | vmax (k : BitVec 3) (d : BitVec 6) (a : BitVec 6) (b : BitVec 6) (t : BitVec 2) (c : BitVec 1)
  /-- R179. Bitwise and of whole words. -/
  | vand (k : BitVec 3) (d : BitVec 6) (a : BitVec 6) (b : BitVec 6) (c : BitVec 1)
  /-- R179. Bitwise or of whole words. -/
  | vor (k : BitVec 3) (d : BitVec 6) (a : BitVec 6) (b : BitVec 6) (c : BitVec 1)
  /-- R179. Bitwise xor of whole words. -/
  | vxor (k : BitVec 3) (d : BitVec 6) (a : BitVec 6) (b : BitVec 6) (c : BitVec 1)
  /-- R179. va and not vb. -/
  | vandn (k : BitVec 3) (d : BitVec 6) (a : BitVec 6) (b : BitVec 6) (c : BitVec 1)
  /-- R179. Copies a vector register. -/
  | vmov (k : BitVec 3) (d : BitVec 6) (a : BitVec 6) (c : BitVec 1)
  /-- R180. Vector shift left by per-element amounts. -/
  | vshl (k : BitVec 3) (d : BitVec 6) (a : BitVec 6) (b : BitVec 6) (t : BitVec 1) (c : BitVec 1)
  /-- R180. Vector logical shift right by per-element amounts. -/
  | vshr (k : BitVec 3) (d : BitVec 6) (a : BitVec 6) (b : BitVec 6) (t : BitVec 1) (c : BitVec 1)
  /-- R180. Vector arithmetic shift right by per-element amounts. -/
  | vsra (k : BitVec 3) (d : BitVec 6) (a : BitVec 6) (b : BitVec 6) (t : BitVec 1) (c : BitVec 1)
  /-- R182. Writes an immediate to every sub-element. -/
  | vmovi (k : BitVec 3) (d : BitVec 6) (t : BitVec 2) (i : BitVec 9) (c : BitVec 1)
  /-- R183. Adds an immediate to every 32- or 64-bit sub-element. -/
  | vaddi (k : BitVec 3) (d : BitVec 6) (a : BitVec 6) (i : BitVec 9) (c : BitVec 1)
  /-- R181. Shifts every sub-element left by a constant. -/
  | vshiL (k : BitVec 3) (d : BitVec 6) (a : BitVec 6) (n : BitVec 7) (c : BitVec 1)
  /-- R181. Shifts every sub-element right logically by a constant. -/
  | vshiR (k : BitVec 3) (d : BitVec 6) (a : BitVec 6) (n : BitVec 7) (c : BitVec 1)
  /-- R181. Shifts every sub-element right arithmetically by a constant. -/
  | vshiRa (k : BitVec 3) (d : BitVec 6) (a : BitVec 6) (n : BitVec 7) (c : BitVec 1)
  /-- R184. Compares 32-bit sub-elements 0 into a mask. -/
  | vcmp (k : BitVec 3) (d : BitVec 3) (a : BitVec 6) (b : BitVec 6) (o : BitVec 3) (c : BitVec 1)
  /-- R184. Compares whole 64-bit words into a mask. -/
  | vcmp64 (k : BitVec 3) (d : BitVec 3) (a : BitVec 6) (b : BitVec 6) (o : BitVec 3) (c : BitVec 1)
  /-- R185. Selects per lane between two registers by a mask. -/
  | vsel (s : BitVec 3) (d : BitVec 6) (a : BitVec 6) (b : BitVec 6) (c : BitVec 1)
  /-- R185. Broadcasts a scalar into every sub-element. -/
  | vbcast (k : BitVec 3) (d : BitVec 6) (a : BitVec 5) (t : BitVec 2) (c : BitVec 1)
  /-- R185. Writes each lane's number. -/
  | vlane (k : BitVec 3) (d : BitVec 6) (c : BitVec 1)
  /-- R185. Reads one lane's word into a scalar register. -/
  | vsget (d : BitVec 5) (a : BitVec 6) (b : BitVec 5) (c : BitVec 1)
  /-- R185. Writes a scalar into one lane's word. -/
  | vsput (k : BitVec 3) (d : BitVec 6) (a : BitVec 5) (b : BitVec 5) (c : BitVec 1)
  /-- R186. Interleaves the low halves of two registers by bytes. -/
  | vzipI8 (k : BitVec 3) (d : BitVec 6) (a : BitVec 6) (b : BitVec 6) (c : BitVec 1)
  /-- R186. Interleaves the low halves by 16-bit elements. -/
  | vzipI16 (k : BitVec 3) (d : BitVec 6) (a : BitVec 6) (b : BitVec 6) (c : BitVec 1)
  /-- R186. Interleaves the low halves by 32-bit elements. -/
  | vzipI32 (k : BitVec 3) (d : BitVec 6) (a : BitVec 6) (b : BitVec 6) (c : BitVec 1)
  /-- R186. Gathers the even bytes of two registers. -/
  | vunzipI8 (k : BitVec 3) (d : BitVec 6) (a : BitVec 6) (b : BitVec 6) (c : BitVec 1)
  /-- R186. Gathers the even 16-bit elements. -/
  | vunzipI16 (k : BitVec 3) (d : BitVec 6) (a : BitVec 6) (b : BitVec 6) (c : BitVec 1)
  /-- R186. Gathers the even 32-bit elements. -/
  | vunzipI32 (k : BitVec 3) (d : BitVec 6) (a : BitVec 6) (b : BitVec 6) (c : BitVec 1)
  /-- R187. Sign- or zero-extends half the sub-elements to double width. -/
  | vwiden (k : BitVec 3) (d : BitVec 6) (a : BitVec 6) (w : BitVec 4) (c : BitVec 1)
  /-- R187. Truncates or clamps sub-elements to half width. -/
  | vnarrow (k : BitVec 3) (d : BitVec 6) (a : BitVec 6) (w : BitVec 5) (c : BitVec 1)
  /-- R188. Counts leading zeros of each sub-element. -/
  | vclz (k : BitVec 3) (d : BitVec 6) (a : BitVec 6) (t : BitVec 2) (c : BitVec 1)
  /-- R188. Counts set bits of each sub-element. -/
  | vpopc (k : BitVec 3) (d : BitVec 6) (a : BitVec 6) (t : BitVec 2) (c : BitVec 1)
  /-- R188. Reverses the bits of each sub-element. -/
  | vbrev (k : BitVec 3) (d : BitVec 6) (a : BitVec 6) (t : BitVec 2) (c : BitVec 1)
  /-- R189. Encodes 32-bit integers as RN25 words. -/
  | vrnenc (k : BitVec 3) (d : BitVec 6) (a : BitVec 6) (c : BitVec 1)
  /-- R189. Decodes RN25 words to 32-bit integers. -/
  | vrndec (k : BitVec 3) (d : BitVec 6) (a : BitVec 6) (c : BitVec 1)
  /-- R190. Floating-point add rounded once under fpm. -/
  | vfadd (k : BitVec 3) (d : BitVec 6) (a : BitVec 6) (b : BitVec 6) (t : BitVec 2) (c : BitVec 1)
  /-- R190. Floating-point subtract. -/
  | vfsub (k : BitVec 3) (d : BitVec 6) (a : BitVec 6) (b : BitVec 6) (t : BitVec 2) (c : BitVec 1)
  /-- R190. Floating-point multiply. -/
  | vfmul (k : BitVec 3) (d : BitVec 6) (a : BitVec 6) (b : BitVec 6) (t : BitVec 2) (c : BitVec 1)
  /-- R191. Fused multiply-add rounded once. -/
  | vfma (k : BitVec 3) (d : BitVec 6) (a : BitVec 6) (b : BitVec 6) (t : BitVec 2) (c : BitVec 1)
  /-- R192. Minimum by totalOrder of f32 or 16-bit values. -/
  | vfmin (k : BitVec 3) (d : BitVec 6) (a : BitVec 6) (b : BitVec 6) (t : BitVec 1) (c : BitVec 1)
  /-- R192. Maximum by totalOrder. -/
  | vfmax (k : BitVec 3) (d : BitVec 6) (a : BitVec 6) (b : BitVec 6) (t : BitVec 1) (c : BitVec 1)
  /-- R192. Minimum with NaNs set aside. -/
  | vfminnum (k : BitVec 3) (d : BitVec 6) (a : BitVec 6) (b : BitVec 6) (t : BitVec 1) (c : BitVec 1)
  /-- R192. Maximum with NaNs set aside. -/
  | vfmaxnum (k : BitVec 3) (d : BitVec 6) (a : BitVec 6) (b : BitVec 6) (t : BitVec 1) (c : BitVec 1)
  /-- R193. IEEE compare of f32 sub-elements 0 into a mask. -/
  | vfcmp (k : BitVec 3) (d : BitVec 3) (a : BitVec 6) (b : BitVec 6) (o : BitVec 3) (c : BitVec 1)
  /-- R194. totalOrder compare into a mask. -/
  | vfcmpt (k : BitVec 3) (d : BitVec 3) (a : BitVec 6) (b : BitVec 6) (t : BitVec 1) (o : BitVec 2) (c : BitVec 1)
  /-- R195. Converts between float formats and integers by a conversion code. -/
  | vfcvt (k : BitVec 3) (d : BitVec 6) (a : BitVec 6) (w : BitVec 6) (c : BitVec 1)
  /-- R196. Applies one special function to both f32 sub-elements. -/
  | vsfu (k : BitVec 3) (d : BitVec 6) (a : BitVec 6) (f : BitVec 3) (c : BitVec 1)
  /-- R197. Clears the sign bit of each sub-element. -/
  | vfabs (k : BitVec 3) (d : BitVec 6) (a : BitVec 6) (t : BitVec 2) (c : BitVec 1)
  /-- R197. Inverts the sign bit of each sub-element. -/
  | vfneg (k : BitVec 3) (d : BitVec 6) (a : BitVec 6) (t : BitVec 2) (c : BitVec 1)
  /-- R197. Rounds each sub-element to an integral value. -/
  | vfround (k : BitVec 3) (d : BitVec 6) (a : BitVec 6) (t : BitVec 2) (c : BitVec 1)
  /-- R198. Mask and. -/
  | kand (k : BitVec 3) (d : BitVec 3) (a : BitVec 3) (b : BitVec 3) (c : BitVec 1)
  /-- R198. Mask or. -/
  | kor (k : BitVec 3) (d : BitVec 3) (a : BitVec 3) (b : BitVec 3) (c : BitVec 1)
  /-- R198. Mask xor. -/
  | kxor (k : BitVec 3) (d : BitVec 3) (a : BitVec 3) (b : BitVec 3) (c : BitVec 1)
  /-- R198. Mask and-not. -/
  | kandn (k : BitVec 3) (d : BitVec 3) (a : BitVec 3) (b : BitVec 3) (c : BitVec 1)
  /-- R198. Copies a mask register. -/
  | kmovMask (k : BitVec 3) (d : BitVec 3) (a : BitVec 3) (c : BitVec 1)
  /-- R198. Sets mask bits from a scalar register. -/
  | kmovFromScalar (k : BitVec 3) (d : BitVec 3) (a : BitVec 5) (c : BitVec 1)
  /-- R198. Writes all W bits of a mask to a scalar. -/
  | kmovToScalar (d : BitVec 5) (a : BitVec 3) (c : BitVec 1)
  /-- R198. Counts active lanes with a mask bit set. -/
  | kpop (d : BitVec 5) (a : BitVec 3) (c : BitVec 1)
  /-- R204. Shuffles sub-elements across lanes of the fragment by per-lane fields, writing presence to k7. -/
  | vshfl (k : BitVec 3) (d : BitVec 6) (a : BitVec 6) (b : BitVec 6) (m : BitVec 2) (z : BitVec 1) (c : BitVec 1)
  /-- R205. Shuffles across lanes by immediate fields. -/
  | vshfli (k : BitVec 3) (d : BitVec 6) (a : BitVec 6) (i : BitVec 9) (c : BitVec 1)
  /-- R206. 1 when some participant has its mask bit set. -/
  | voteAny (k : BitVec 3) (d : BitVec 5) (a : BitVec 3) (c : BitVec 1)
  /-- R206. 1 when every participant has its mask bit set. -/
  | voteAll (k : BitVec 3) (d : BitVec 5) (a : BitVec 3) (c : BitVec 1)
  /-- R206. 1 when every participant holds the same word. -/
  | voteEq (k : BitVec 3) (d : BitVec 5) (a : BitVec 6) (c : BitVec 1)
  /-- R206. Returns the ballot of participants' mask bits. -/
  | voteBallot (k : BitVec 3) (d : BitVec 5) (a : BitVec 3) (c : BitVec 1)
  /-- R208. Reduces the fragment's elements in a fixed tree into a scalar. -/
  | xred (k : BitVec 3) (d : BitVec 5) (a : BitVec 6) (o : BitVec 3) (t : BitVec 3) (c : BitVec 1)
  /-- R209. Inclusive or exclusive scan over the fragment's elements. -/
  | xscan (k : BitVec 3) (d : BitVec 6) (a : BitVec 6) (e : BitVec 1) (o : BitVec 3) (t : BitVec 3) (c : BitVec 1)
  /-- R211. Finds the maximum element and its lane and sub-element. -/
  | xmaxi (k : BitVec 3) (d : BitVec 5) (a : BitVec 6) (t : BitVec 3) (c : BitVec 1)
  /-- R201. Returns the declared width. -/
  | gwidthW (d : BitVec 5) (c : BitVec 1)
  /-- R201. Returns the fragment's slice mask. -/
  | gwidthSm (d : BitVec 5) (c : BitVec 1)
  /-- R201. Returns the fragment's active-lane mask. -/
  | gwidthAm (d : BitVec 5) (c : BitVec 1)
  /-- R201. Returns the number of active lanes. -/
  | gwidthNa (d : BitVec 5) (c : BitVec 1)
  /-- R214. Adds the gang's contribution to an open merge slot. -/
  | cmrgPut (a : BitVec 5) (x : BitVec 6) (c : BitVec 1)
  /-- R214. Waits for N contributions and returns the merged result. -/
  | cmrgGet (d : BitVec 5) (a : BitVec 5) (x : BitVec 6) (c : BitVec 1)
  /-- R214. Discards a slot's contributions and opens it with an expected count. -/
  | cmrgReset (a : BitVec 5) (b : BitVec 5) (c : BitVec 1)
  /-- R227. Accumulates a tile product into a bound accumulator. -/
  | mma (p : BitVec 3) (q : BitVec 3) (a : BitVec 3) (v : BitVec 6) (w : BitVec 6) (c : BitVec 1)
  /-- R227. Rebinds the accumulator to fresh units and computes a tile product as a chain start. -/
  | mmaZ (p : BitVec 3) (q : BitVec 3) (a : BitVec 3) (v : BitVec 6) (w : BitVec 6) (c : BitVec 1)
  /-- R227. Segment-masked tile product into a bound accumulator. -/
  | mmas (p : BitVec 3) (q : BitVec 3) (a : BitVec 3) (v : BitVec 6) (w : BitVec 6) (c : BitVec 1)
  /-- R227. Segment-masked tile product into fresh units, as a chain start. -/
  | mmasZ (p : BitVec 3) (q : BitVec 3) (a : BitVec 3) (v : BitVec 6) (w : BitVec 6) (c : BitVec 1)
  /-- R229. Binds an accumulator name to fresh units in float or residue mode. -/
  | accZero (a : BitVec 3) (r : BitVec 1) (c : BitVec 1)
  /-- R229. Unbinds an accumulator name. -/
  | accRel (a : BitVec 3) (c : BitVec 1)
  /-- R229. Moves the units of one name to another. -/
  | accMov (a : BitVec 3) (s : BitVec 3) (c : BitVec 1)
  /-- R230. Converts a residue accumulator to i32 values in registers. -/
  | accoutI32 (a : BitVec 3) (d : BitVec 6) (c : BitVec 1)
  /-- R230. Writes an accumulator as f32, applying slot and column scales. -/
  | accoutF32 (p : BitVec 3) (q : BitVec 3) (a : BitVec 3) (d : BitVec 6) (w : BitVec 6) (s : BitVec 1) (c : BitVec 1)
  /-- R231. Writes a tile from registers into an accumulator name. -/
  | accin (a : BitVec 3) (s : BitVec 6) (f : BitVec 1) (c : BitVec 1)
  /-- R233. Stores the image of an accumulator name to Chamber or Gallery. -/
  | accst (a : BitVec 3) (b : BitVec 5) (g : BitVec 1) (c : BitVec 1)
  /-- R233. Loads an accumulator image and binds or unbinds the name. -/
  | accld (a : BitVec 3) (b : BitVec 5) (g : BitVec 1) (c : BitVec 1)
  /-- R124. Loads from a lane slice, Chamber, Gallery or Grotto. -/
  | ldl (k : BitVec 3) (t : BitVec 6) (b : BitVec 5) (o : BitVec 6) (p : BitVec 2) (l : BitVec 1) (n : BitVec 1) (c : BitVec 1)
  /-- R124. Stores to a lane slice, Chamber, Gallery or Grotto. -/
  | stl (k : BitVec 3) (t : BitVec 6) (b : BitVec 5) (o : BitVec 6) (p : BitVec 2) (l : BitVec 1) (n : BitVec 1) (c : BitVec 1)
  /-- R126. Loads a matrix A or B fragment from Chamber or Gallery. -/
  | ldfrag (k : BitVec 3) (t : BitVec 6) (b : BitVec 5) (p : BitVec 2) (r : BitVec 1) (h : BitVec 1) (c : BitVec 1)
  /-- R127. Stores an accumulator output layout to Chamber, optionally narrowing. -/
  | stfrag (k : BitVec 3) (t : BitVec 6) (b : BitVec 5) (v : BitVec 1) (s : BitVec 3) (c : BitVec 1)
  /-- R128. Chamber atomic arithmetic, min, max or bitwise operation per lane. -/
  | catom (o : BitVec 3) (t : BitVec 6) (b : BitVec 5) (v : BitVec 6) (z : BitVec 1) (s : BitVec 3)
  /-- R128. Chamber atomic exchange. -/
  | catomExch (t : BitVec 6) (b : BitVec 5) (v : BitVec 6) (z : BitVec 1) (s : BitVec 3)
  /-- R128. Chamber atomic compare-and-swap. -/
  | catomCas (t : BitVec 6) (b : BitVec 5) (v : BitVec 6) (z : BitVec 1) (s : BitVec 3)
  /-- R236. Loads global memory into a vector register per lane. -/
  | gld (k : BitVec 3) (t : BitVec 6) (b : BitVec 5) (o : BitVec 6) (f : BitVec 4) (c : BitVec 1)
  /-- R239. Loads 8 planar F6 elements per lane into byte containers. -/
  | gldF6p (k : BitVec 3) (t : BitVec 6) (b : BitVec 5) (o : BitVec 6) (c : BitVec 1)
  /-- R237. Stores the low bytes of each lane word to global memory. -/
  | gst (k : BitVec 3) (t : BitVec 6) (b : BitVec 5) (o : BitVec 6) (z : BitVec 2) (c : BitVec 1)
  /-- R239. Stores 8 F6 containers per lane as two planes. -/
  | gstF6p (k : BitVec 3) (t : BitVec 6) (b : BitVec 5) (o : BitVec 6) (c : BitVec 1)
  /-- R237. Narrows both f32 sub-elements through a format slot and stores them. -/
  | gstFs (k : BitVec 3) (t : BitVec 6) (b : BitVec 5) (o : BitVec 6) (s : BitVec 3) (c : BitVec 1)
  /-- R243. Global atomic at the home slice, returning the old value unless no-return. -/
  | gatom (o : BitVec 3) (t : BitVec 6) (b : BitVec 5) (v : BitVec 6) (n : BitVec 1) (z : BitVec 1) (s : BitVec 3)
  /-- R244. Global atomic exchange. -/
  | gexch (t : BitVec 6) (b : BitVec 5) (v : BitVec 6) (z : BitVec 1) (s : BitVec 3)
  /-- R244. Global atomic compare-and-swap. -/
  | gcas (t : BitVec 6) (b : BitVec 5) (v : BitVec 6) (z : BitVec 1) (s : BitVec 3)
  /-- R245. Float reduction at the home slice with its own control field. -/
  | gredF (f : BitVec 1) (q : BitVec 1) (u : BitVec 1) (t : BitVec 6) (b : BitVec 5) (v : BitVec 6) (o : BitVec 2) (p : BitVec 3)
  /-- R247. Residue-word reduction by rnadd at the home slice. -/
  | gredRn (t : BitVec 6) (b : BitVec 5) (v : BitVec 6) (x : BitVec 1) (p : BitVec 3)
  /-- R248. Requests a line fill into a cache level without changing any value. -/
  | gpf (k : BitVec 3) (b : BitVec 5) (o : BitVec 6) (g : BitVec 2) (c : BitVec 1)
  /-- R114. Reads a shape record, checks it and starts a tensor copy. -/
  | tcopy (d : BitVec 5) (a : BitVec 5) (c : BitVec 1)
  /-- R115. Starts an indexed row gather copy. -/
  | tgath (d : BitVec 5) (a : BitVec 5) (b : BitVec 5) (x : BitVec 6) (c : BitVec 1)
  /-- R116. Reads a segment list and starts a ragged packing copy with side ids. -/
  | trag (d : BitVec 5) (a : BitVec 5) (c : BitVec 1)
  /-- R117. Returns owner states of 32 Chamber frames. -/
  | tstat (d : BitVec 5) (a : BitVec 5) (c : BitVec 1)
  /-- R117. Returns owner states of 32 Gallery frames of a core. -/
  | tstatGal (d : BitVec 5) (a : BitVec 5) (b : BitVec 5) (c : BitVec 1)
  /-- R87. Creates an empty elastic array and returns its handle. -/
  | enew (d : BitVec 5) (a : BitVec 5) (c : BitVec 1)
  /-- R88. Frees an elastic array, killing its anchors and returning its slabs. -/
  | efree (a : BitVec 5) (c : BitVec 1)
  /-- R89. Inserts n elements at a rank. -/
  | eins (u : BitVec 1) (v : BitVec 1) (s : BitVec 5) (a : BitVec 5) (b : BitVec 5) (x : BitVec 6) (c : BitVec 1)
  /-- R89. Inserts n elements immediately before an anchor. -/
  | eapp (u : BitVec 1) (v : BitVec 1) (s : BitVec 5) (a : BitVec 5) (b : BitVec 5) (x : BitVec 6) (c : BitVec 1)
  /-- R90. Deletes n elements at a rank and returns the new length. -/
  | edel (s : BitVec 5) (a : BitVec 5) (b : BitVec 5) (c : BitVec 1)
  /-- R91. Moves elements and anchors from a rank onward into a new array. -/
  | esplit (d : BitVec 5) (a : BitVec 5) (b : BitVec 5) (c : BitVec 1)
  /-- R91. Appends one array to another. -/
  | ecat (d : BitVec 5) (a : BitVec 5) (b : BitVec 5) (c : BitVec 1)
  /-- R92. Places a run of n anchors at a rank. -/
  | emark (s : BitVec 5) (a : BitVec 5) (b : BitVec 5) (c : BitVec 1)
  /-- R73. Places one anchor at a rank. -/
  | eanch (d : BitVec 5) (a : BitVec 5) (b : BitVec 5) (c : BitVec 1)
  /-- R92. Returns an anchor's current rank. -/
  | erank (d : BitVec 5) (a : BitVec 5) (c : BitVec 1)
  /-- R92. Returns the handle of the array holding an anchor. -/
  | erankH (d : BitVec 5) (a : BitVec 5) (c : BitVec 1)
  /-- R92. Releases an anchor's ID. -/
  | edrop (a : BitVec 5) (c : BitVec 1)
  /-- R93. Returns an array's length. -/
  | elen (d : BitVec 5) (a : BitVec 5) (c : BitVec 1)
  /-- R93. Returns a selected item of array information. -/
  | einfo (d : BitVec 5) (a : BitVec 5) (b : BitVec 5) (c : BitVec 1)
  /-- R94. Loads elements by rank against one version of the array. -/
  | eld (k : BitVec 3) (t : BitVec 6) (b : BitVec 5) (o : BitVec 6) (x : BitVec 1) (c : BitVec 1)
  /-- R94. Stores elements by rank against one version of the array. -/
  | est (k : BitVec 3) (t : BitVec 6) (b : BitVec 5) (o : BitVec 6) (c : BitVec 1)
  /-- R271. Acquire at the named scope's level. -/
  | fenceAcq (s : BitVec 3) (c : BitVec 1)
  /-- R271. Release at the named scope's level. -/
  | fenceRel (s : BitVec 3) (c : BitVec 1)
  /-- R271. Release then acquire at the named scope's level. -/
  | fenceAcqrel (s : BitVec 3) (c : BitVec 1)
  /-- R272. Records a scope entry's current generation in the gang. -/
  | sbind (d : BitVec 5) (s : BitVec 3) (c : BitVec 1)
  /-- R272. Clears the gang's binding of a scope entry. -/
  | sbindClr (s : BitVec 3) (c : BitVec 1)
  /-- R273. Rewrites a scope entry from a memory image, advancing its generation, and waits for old-generation operations. -/
  | swr (d : BitVec 5) (a : BitVec 5) (b : BitVec 5) (c : BitVec 1)
  /-- R274. Reads one word of a scope entry. -/
  | srd (d : BitVec 5) (a : BitVec 5) (b : BitVec 5) (c : BitVec 1)
  /-- R275. Releases and invalidates instruction caches and loop buffers of member cores. -/
  | icinv (s : BitVec 3) (c : BitVec 1)
  /-- R31. Supplies high bits of the target's immediate or displacement. -/
  | hintImm (p : BitVec 22)
  /-- R32. Supplies a third vector source, segment registers and a rounding override. -/
  | hintVc (f : BitVec 1) (v : BitVec 6) (r : BitVec 6) (g : BitVec 6) (n : BitVec 3)
  /-- R33. Adds acquire, release or both to an atomic. -/
  | hintOrd (o : BitVec 2)
  /-- R34. Asks the quadrant to issue another ready gang first. -/
  | hintSched (s : BitVec 1)
  /-- R35. Adds a signed byte offset to each lane address. -/
  | hintOff (o : BitVec 22)
  /-- R104. Once every covered frame is free the copy moves them to EW and ER in one step and is in flight. Operands: the fragment that waits at copy issue. -/
  | copyFrameTake (team gang frag : Nat)
  /-- R98. The engine moves one element of a copy, converting if asked. Operands: the copy, by its core and number. -/
  | copyElementMove (core id : Nat)
  /-- R106. A frame returns to T after every copy write or read of it is performed. Operands: the copy and the frame. -/
  | frameReturn (core id frame : Nat)
  /-- R109. After all global and Grotto writes the copy releases them at its scope and invalidates written L1 sectors. Operands: the copy. -/
  | copyCompletionRelease (core id : Nat)
  /-- R107. The engine writes the copy's token to its scalar register after every frame has returned. Operands: the copy. -/
  | tokenWrite (core id : Nat)
  /-- R107. A failed walk, error response or soft error stops a copy with a status code. Operands: the copy and its status code. -/
  | copyStop (core id code : Nat)
  /-- R59. A walker walks the page tables for a missing translation, sets A and D bits and checks access. Operands: the requesting core, the context, the address, fetch 0, load 1, store 2, atomic 3. -/
  | pageWalk (core vf : Nat) (va : BitVec 64) (kind : BitVec 2) (priv : Bool)
  /-- R63. The die posts one fault-queue entry per failing page, waiting while the ring is full. Operands: the context whose oldest waiting entry is posted. -/
  | faultQueuePost (vf : Nat)
  /-- R64. A RETRY replays the whole instruction with new walks and checks. Operands: the suspended gang. -/
  | instructionReplay (team gang : Nat)
  /-- R43. A requested sector arrives and is merged under the byte mask. Operands: the core, the line (PA div 256) and the sector of the oldest such request. -/
  | sectorFill (core line sector : Nat)
  /-- R44. An evicted or drained line writes only its masked bytes to the level below. Operands: level 0 L1 of core owner, 1 remote partition, 2 home L2, 3 Cavern, of die owner. -/
  | lineEviction (level owner line : Nat)
  /-- R261. A release completes once earlier writes have reached the meeting level. Operands: the gang whose oldest pending release completes. -/
  | releaseCompletion (team gang : Nat)
  /-- R267. The home slice acknowledges a class T store or reduction and the gang's count drops. Operands: the gang. -/
  | classTStoreAck (team gang : Nat)
  /-- R240. An atomic or reduction lane is performed indivisibly at its address's home slice. Operands: one lane; op 0 to 7 as gatom, 8 exchange, 9 compare and swap, 10 residue add, 16 + o + 4F + 8Q + 16S a float reduction. -/
  | homeSliceAtomic (pa size op : Nat) (v cmp : BitVec 64)
  /-- R140. Drained accumulator units return to the free list. Operands: the quadrant. -/
  | accUnitsReturn (core quad : Nat)
  /-- R224. At each 32-cycle window the arbiter issues up to 16 grants round-robin. Operands: the die whose arbiter opens a window. -/
  | surgeWindow (die : Nat)
  /-- R225. A request waiting 128 cycles proceeds in ramp mode. Operands: the fragment whose request has waited 128 cycles. -/
  | surgeRamp (team gang frag : Nat)
  /-- R79. An RLB miss is filled by a walk of the counted tree at the RTU. Operands: the core and the missed rank. -/
  | rlbMissWalk (core vf : Nat) (handle rank : BitVec 64)
  /-- R71. The home die's RTU performs an array operation in arrival order. Operands: the die whose oldest queued operation is performed. -/
  | rtuOperation (die : Nat)
  /-- R138. The compactor moves a live register or Chamber range to join free blocks. Operands: the range (gang 32 means the Chamber range) and its new base. -/
  | compactorMove (team gang base : Nat)
  /-- R53. At each epoch end group counts move to RCGCNT and pinning is re-evaluated. Operands: the die. -/
  | rcgEpochEnd (die : Nat)
  /-- R295. A unit that would raise the count above the budget faults with WATCHDOG. Operands: the fragment. -/
  | watchdog (team gang frag : Nat)
  /-- R312. A team or task budget counts down to zero. Operands: the team. -/
  | deadlineExpiry (team : Nat)
  /-- R348. After a fault or trap other fragments stop, the record is written and a handler fragment starts. Operands: the fragment, the class and the first faulting byte. -/
  | handlerEntry (team gang frag cls : Nat) (fbyte : BitVec 64)
  /-- R352. Stops every gang, lets copies complete and discards or ends the team with code 5. Operands: the team and the class. -/
  | teamEndForFault (team cls : Nat)
  /-- R304. A waiting team is placed on a core once R136 holds, as an acquire at entry 7. Operands: the grid whose next team is placed, and the core. -/
  | teamDispatch (grid core : Nat)
  /-- R308. Arbor dispatches the head of the highest-priority ready queue. Operands: the die whose Arbor dispatches, and the core. -/
  | taskDispatch (die core : Nat)
  /-- R310. A staged team commits, folds its digest, decrements and writes its status. Operands: the team. -/
  | teamRetirement (team : Nat)
  /-- R311. A staged team is stopped, its copies complete and its staging area is dropped. Operands: the team and its status code. -/
  | teamDiscard (team code : Nat)
  /-- R316. When every team has finished the grid status is written and DONEC decremented. Operands: the grid. -/
  | gridEnd (grid : Nat)
  /-- R356. A tenant's gangs halt at unit boundaries, in-flight work completes and teams are saved. Operands: the team. -/
  | preempt (team : Nat)
  /-- R358. A saved team is restored and resumes where each fragment stood. Operands: the saved team and the core. -/
  | teamRestore (team core : Nat)
  /-- R314. An overloaded die sends a waiting team to another die with its remaining budget. Operands: the die, the task slot (65536 + g for the next team of grid g) and the receiving die. -/
  | teamMigrate (die slot dest : Nat)
  /-- R378. Teams holding quadrants for SLICE micros are pre-empted for a waiting virtual function. Operands: the waiting function and the core. -/
  | sliceEnd (vf core : Nat)
  /-- R374. A TAIL write makes the device read and process submission-ring entries in order. Operands: the function and the value written. -/
  | doorbellTailWrite (vf tail : Nat)
  /-- R375. A RETRY response to a fault-queue tag resumes the waiting instruction. Operands: the function and the tag. -/
  | respRetry (vf tag : Nat)
  /-- R64. A FAIL response writes a PAGE or PROT fault record and takes the trap. Operands: the function and the tag. -/
  | respFail (vf tag : Nat)
  /-- R375. The host frees fault-queue slots. Operands: the function and the value written. -/
  | fqheadWrite (vf head : Nat)
  /-- R65. Starts a translation invalidation of a VA range of a context. Operands: the die and the value written to TLBICTL. -/
  | tlbictlGo (die : Nat) (value : BitVec 32)
  /-- R65. DONE rises once no TLB holds the range and earlier accesses are performed. Operands: the die. -/
  | tlbiDone (die : Nat)
  /-- R52. Writes back and invalidates the die's L2 and then applies the new partition. Operands: the die and the value written. -/
  | l2partWrite (die : Nat) (value : BitVec 32)
  /-- R378. Pre-empts every team on the core and applies new quadrant ownership. Operands: the register and the value written. -/
  | qownWrite (die core : Nat) (value : BitVec 64)
  /-- R377. Writes a VF configuration field; a forbidden write while locked sets STATE to ERROR. Operands: the block, the byte offset, the size in bytes and the value. -/
  | configBlockWrite (vf off size value : Nat)
  /-- R381. Writes back every dirty byte of the context held in any L1 or remote partition. Operands: the context. -/
  | migctlFlush (vf : Nat)
  /-- R384. Clears FROZEN and LOST of the Flowstone record. Operands: a write of FSCTL with CLR set. -/
  | fsctlClr
  /-- R373. Write to a package register without behaviour of its own. Operands: agent 0 host PF, 1 board firmware, 2 Kiosk, 16 + d the Belvedere core of die d, 32 + v function v. -/
  | registerWrite (agent pa size : Nat) (value : BitVec 64)
  /-- R269. A host read of device memory over the link. Operands: the function whose window is used, or 16 + a for agent a of REGISTER_WRITE and a register address. -/
  | hostLoad (vf : Nat) (va : BitVec 64) (size : Nat)
  /-- R269. A host write performed when its home slice acknowledges it. Operands: the function whose window is used, or 16 + a for agent a of REGISTER_WRITE and a register address. -/
  | hostStore (vf : Nat) (va : BitVec 64) (size : Nat) (value : BitVec 64)
  /-- R242. A host atomic performed at the home slice when SYSAT = 1. Operands: op 0 to 7 as gatom, 8 exchange, 9 compare and swap. -/
  | hostAtomic (vf : Nat) (va : BitVec 64) (size op : Nat) (v cmp : BitVec 64)
  /-- R379. An access from another package over the fabric is performed at its home slice. Operands: the issuing package; kind 0 load, 1 store, 2 + op atomic. -/
  | remoteAccess (pkg pa size kind : Nat) (v cmp : BitVec 64)
  /-- R379. A fabric rail goes down and its in-flight flits are resent on others. Operands: the rail, 0 to 15. -/
  | railDown (rail : Nat)
  /-- R380. A failed package is declared failed, logged and the host interrupted. Operands: the package. -/
  | packageDeclaredFailed (pkg : Nat)
  /-- R327. A read of the gpop CSR pops the oldest gate-queue entry. Operands: the die. -/
  | gpop (die : Nat)
  /-- R404. A write of the spawn CSR spawns a task with the session's attribute set. Operands: the die and the scratchpad address written. -/
  | belvedereSpawn (die addr : Nat)
  /-- R327. A write of dset performs depset of counter depn. Operands: the die and the value written. -/
  | dset (die : Nat) (value : BitVec 64)
  /-- R327. A write of ddec performs depdec of counter depn. Operands: the die and the value written. -/
  | ddec (die : Nat) (value : BitVec 64)
  /-- R327. A Belvedere load or store to device virtual memory or G-space. Operands: kind 0 load, 1 store, 2 read and 3 write of the CSR with number addr. -/
  | belvedereAccess (die : Nat) (addr : BitVec 64) (size kind : Nat) (v : BitVec 64)
  /-- R330. An open entry reads the session record, sets COMBC to 2^30 and opens the session. Operands: the die whose firmware handles the popped entry. -/
  | gateOpenEntry (die : Nat)
  /-- R333. A route entry selects and weighs K experts and writes routing records. Operands: the die whose firmware handles the popped entry. -/
  | gateRouteEntry (die : Nat)
  /-- R331. A flush spawns partial tiles, pins experts, decrements COMBC, writes STAT and closes the session. Operands: the die whose firmware handles the popped entry. -/
  | gateFlushEntry (die : Nat)
  /-- R338. A cell arrives; one with a bad CRC is discarded. Operands: the receiving die and the 256 bytes. -/
  | cellReceive (die : Nat) (cell : List (BitVec 8))
  /-- R338. Once a row's cells and all lower SEQ have arrived the row is written and its record entered. Operands: the receiving die and the flow. -/
  | rowDelivery (die flow : Nat)
  /-- R338. The sender resends a cell reported lost. Operands: the sending die and the cell. -/
  | cellResend (die dest flow seq cidx : Nat)
  /-- R382. The root of trust verifies the signed images and versions before release from reset. Operands: the four images of R382 in order, each with its signature and version. -/
  | powerOn (images : List (List (BitVec 8) × List (BitVec 8) × Nat))
  /-- R383. The identity key pair is derived again from the PUF. Operands: every reset but power loss. -/
  | packageReset
  /-- R383. Returns signed SHA3-256 measurements. Operands: the measurement asked for. -/
  | spdmGetMeasurements (index : Nat)
  /-- R385. The Kiosk requests a package reset. Operands: the request. -/
  | kioskResetRequest
  /-- R385. The Kiosk sets a power cap and island frequencies are lowered. Operands: the cap. -/
  | kioskPowerCap (watts : Nat)
  /-- R385. The Kiosk reports temperatures, power, frequencies, boot result and Flowstone contents. Operands: the request. -/
  | kioskReport
  /-- R384. Loss of power erases the Flowstone events and the FSCTL fields, which survive every reset but this. Operands: loss of power. -/
  | powerLoss
  /-- R384. An uncorrectable soft error found in memory logs an event of type 13 and sets FROZEN. Operands: the die and the address. -/
  | uncorrectableSoftError (die pa : Nat)
  /-- R384. A fatal internal error logs an event of type 12 and freezes the Flowstone record. Operands: the die and the detail. -/
  | fatalInternalError (die detail : Nat)
  /-- R338. An acknowledgement of a sent cell arrives, and the sender stops keeping that cell. Operands: the sending die and the cell. -/
  | cellAcknowledged (die dest flow seq cidx : Nat)
  /-- R275. The instruction-cache invalidation of an icinv reaches a member core, which then refetches, looping gangs included. Operands: the icinv and the core. -/
  | invalidationReachesCore (id core : Nat)
deriving DecidableEq, Repr

end Sys2Proof
end

