-- ==== Sys2Proof/Machine/Fields.lean ====
section
/-! DEFINITION. The field values that an instruction may hold (R19 to R22, R32 and the chapters' encodings): a word with any
other value is UNDEF (R37). What depends on hint words or on the machine is checked when the unit is performed. -/

namespace Sys2Proof.Machine

/-- A vector destination: 63 is UNDEF, 62 is `_` (R21). -/
def dstOk (d : BitVec 6) : Bool := d.toNat != 63

/-- A register of a group, or one read and written: 62 and 63 are UNDEF (R21, R22). -/
def regOk (d : BitVec 6) : Bool := decide (d.toNat < 62)

/-- A mask destination: k0 is UNDEF (R21). -/
def kdOk (d : BitVec 3) : Bool := d.toNat != 0

/-- The operations that `xred` and `xscan` allow for a type (R207). -/
def xopOk (t o : BitVec 3) : Bool :=
  if t.toNat = 7 then false
  else if t.toNat < 4 then decide (o.toNat < 6)
  else decide (o.toNat < 3) || decide (6 ≤ o.toNat)

/-- The conversion codes of `vfcvt` (R195). -/
def cvtOk (w : BitVec 6) : Bool := decide (w.toNat < 6) || (decide (8 ≤ w.toNat) && decide (w.toNat < 12))

/-- The base pair of a planar access: an sb of 0 or 31 is UNDEF (R239). -/
def pairOk (b : BitVec 5) : Bool := decide (b.toNat ≠ 0) && decide (b.toNat ≠ 31)

/-- The queue codes: bits above 3:0 are reserved (R19, R321). -/
def queueOk (q : BitVec 5) : Bool := decide (q.toNat < 16)

/-- The prefixes of a `vshi` amount (R181). -/
def vshiOk (n : BitVec 7) : Bool := decide (8 ≤ n.toNat)

/-- Every field value is one that the instruction defines. -/
def fieldsOk : Instr → Bool
  | .sget _ n _ => decide (n.toNat < 15)
  | .sset _ n _ => n.toNat == 6 || n.toNat == 7 || n.toNat == 13 || n.toNat == 14
  | .qinit _ q _ | .qpush _ q _ | .qpop _ q _ => queueOk q
  | .qtry d q _ => queueOk q && decide (d.toNat % 2 = 0) && decide (d.toNat ≠ 0) && decide (d.toNat ≠ 30)
  | .scmp o _ _ _ _ => decide (o.toNat < 6)
  | .sldk k _ _ _ => kdOk k
  | .vadd _ d _ _ _ _ | .vaddSat _ d _ _ _ _ | .vsub _ d _ _ _ _ | .vsubSat _ d _ _ _ _ | .vmul _ d _ _ _ _
  | .vmulh _ d _ _ _ _ | .vmin _ d _ _ _ _ | .vmax _ d _ _ _ _ => dstOk d
  | .vand _ d _ _ _ | .vor _ d _ _ _ | .vxor _ d _ _ _ | .vandn _ d _ _ _ => dstOk d
  | .vmov _ d _ _ => dstOk d
  | .vshl _ d _ _ _ _ | .vshr _ d _ _ _ _ | .vsra _ d _ _ _ _ => dstOk d
  | .vmovi _ d _ _ _ => dstOk d
  | .vaddi _ d _ _ _ => dstOk d
  | .vshiL _ d _ n _ | .vshiR _ d _ n _ | .vshiRa _ d _ n _ => dstOk d && vshiOk n
  | .vcmp _ d _ _ o _ | .vcmp64 _ d _ _ o _ => kdOk d && decide (o.toNat < 6)
  | .vsel _ d _ _ _ => dstOk d
  | .vbcast _ d _ _ _ => dstOk d
  | .vlane _ d _ => dstOk d
  | .vsput _ d _ _ _ => dstOk d
  | .vzipI8 _ d _ _ _ | .vzipI16 _ d _ _ _ | .vzipI32 _ d _ _ _ | .vunzipI8 _ d _ _ _ | .vunzipI16 _ d _ _ _
  | .vunzipI32 _ d _ _ _ => dstOk d
  | .vwiden _ d _ w _ => dstOk d && decide (w.toNat % 4 ≠ 3)
  | .vnarrow _ d _ w _ => dstOk d && decide (w.toNat % 4 ≠ 3) && (decide (w.toNat < 16) || regOk d)
  | .vclz _ d _ _ _ | .vpopc _ d _ _ _ | .vbrev _ d _ _ _ => dstOk d
  | .vrnenc _ d _ _ | .vrndec _ d _ _ => dstOk d
  | .vfadd _ d _ _ t _ | .vfsub _ d _ _ t _ | .vfmul _ d _ _ t _ => dstOk d && decide (t.toNat < 3)
  | .vfma _ d _ _ t _ => regOk d && decide (t.toNat < 3)
  | .vfmin _ d _ _ _ _ | .vfmax _ d _ _ _ _ | .vfminnum _ d _ _ _ _ | .vfmaxnum _ d _ _ _ _ => dstOk d
  | .vfcmp _ d _ _ o _ => kdOk d && decide (o.toNat < 5)
  | .vfcmpt _ d _ _ _ o _ => kdOk d && decide (o.toNat < 3)
  | .vfcvt _ d _ w _ => dstOk d && cvtOk w
  | .vsfu _ d _ f _ => dstOk d && decide (f.toNat < 7)
  | .vfabs _ d _ t _ | .vfneg _ d _ t _ | .vfround _ d _ t _ => dstOk d && decide (t.toNat < 3)
  | .kand _ d _ _ _ | .kor _ d _ _ _ | .kxor _ d _ _ _ | .kandn _ d _ _ _ => kdOk d
  | .kmovMask _ d _ _ => kdOk d
  | .kmovFromScalar _ d _ _ => kdOk d
  | .vshfl _ d _ _ _ _ _ => dstOk d
  | .vshfli _ d _ _ _ => dstOk d
  | .xred _ _ _ o t _ => xopOk t o
  | .xscan _ d _ _ o t _ => dstOk d && xopOk t o
  | .xmaxi _ _ _ t _ => decide (t.toNat < 7)
  | .cmrgPut _ x _ => regOk x
  | .cmrgGet _ _ x _ => regOk x
  | .mma _ _ _ v w _ | .mmaZ _ _ _ v w _ | .mmas _ _ _ v w _ | .mmasZ _ _ _ v w _ => regOk v && regOk w
  | .accMov a s _ => decide (a ≠ s)
  | .accoutI32 _ d _ => regOk d
  | .accoutF32 _ _ _ d w s _ => regOk d && (s == 1 || w == 0)
  | .accin _ s _ _ => regOk s
  | .ldl _ t _ o p l _ _ => dstOk t && (l == 0 || (o == 0 && p != 0))
  | .stl _ _ _ o p l _ _ => l == 0 || (o == 0 && p != 0)
  | .ldfrag _ t _ p _ _ _ => regOk t && (p == 1 || p == 2)
  | .stfrag _ t _ v s _ => regOk t && (v == 1 || s == 0)
  | .catom _ t _ _ _ _ => regOk t
  | .catomExch t _ _ _ _ | .catomCas t _ _ _ _ => regOk t
  | .gld _ t _ _ f _ => dstOk t && decide (f.toNat < 7)
  | .gldF6p _ t b _ _ => dstOk t && pairOk b
  | .gstF6p _ _ b _ _ => pairOk b
  | .gatom _ t _ _ n _ _ => n == 1 || regOk t
  | .gexch t _ _ _ _ | .gcas t _ _ _ _ => regOk t
  | .gpf _ _ _ g _ => decide (g.toNat < 3)
  | .eins _ v _ _ _ x _ | .eapp _ v _ _ _ x _ => v == 1 || x == 0
  | .eld _ t _ _ _ _ => dstOk t
  | .hintVc f v r g n => (f == 1 || v == 0) && regOk r && regOk g && decide (n.toNat < 5)
  | .hintOrd o => o != 0
  | _ => true

end Sys2Proof.Machine
end

