-- ==== Sys2Proof/WellFormed.lean ====
section
/-! DEFINITION. Well-formed instructions: those whose every field value the spec defines (R19 to R22, R32). An ill-formed
one is UNDEF: the decoder refuses it, and performing it raises UNDEF. -/

namespace Sys2Proof

/-- The instruction holds no reserved and no UNDEF value. -/
def Instr.wf (i : Instr) : Bool := Machine.fieldsOk i

end Sys2Proof
end

