-- ==== Sys2Proof/Decode.lean ====
section
/-! DEFINITION. The decoder and the encoder of instruction words (R17, R19, R36). Every word decodes to an instruction or is
refused by name; a decoded instruction is well formed. The encoder is written from the same encoding tables. -/

namespace Sys2Proof

/-- Why a word is no instruction (R37): each makes the unit UNDEF. -/
inductive DecodeError where
  /-- The major opcode is absent from the map (R36). -/
  | absentMajor
  /-- The function code is undefined, or a reserved field is nonzero (R19). -/
  | noSuchForm
  /-- A field holds a value marked UNDEF (R20, R21, R22, R32 and the chapters). -/
  | undefinedValue
  /-- A hint word of kind 101 to 111 (R30). -/
  | undefinedHintKind
deriving DecidableEq, Repr

/-- Bits hi:lo of a word, as an unsigned integer. -/
def fld (w : IWord) (hi lo : Nat) : Nat := w.toNat / 2 ^ lo % 2 ^ (hi + 1 - lo)

/-- Bits hi:lo of a word as an operand field of n bits. -/
def fbv (n : Nat) (w : IWord) (hi lo : Nat) : BitVec n := BitVec.ofNat n (fld w hi lo)

/-- The forms of major opcode 0x00. -/
def decode00 (w : IWord) : Except DecodeError Instr :=
  .ok (.ill (fbv 25 w 24 0))

/-- The forms of major opcode 0x01. -/
def decode01 (w : IWord) : Except DecodeError Instr :=
  if fld w 24 19 = 0 ∧ fld w 0 0 = 0 then .ok (.br (fbv 18 w 18 1)) else
  if fld w 21 19 = 1 ∧ fld w 0 0 = 0 then .ok (.brLanes (fbv 3 w 24 22) (fbv 18 w 18 1)) else
  if fld w 21 19 = 2 ∧ fld w 0 0 = 0 then .ok (.brAny (fbv 3 w 24 22) (fbv 18 w 18 1)) else
  if fld w 21 19 = 3 ∧ fld w 0 0 = 0 then .ok (.brAll (fbv 3 w 24 22) (fbv 18 w 18 1)) else
  if fld w 21 19 = 4 ∧ fld w 0 0 = 0 then .ok (.brNone (fbv 3 w 24 22) (fbv 18 w 18 1)) else
  .error .noSuchForm

/-- The forms of major opcode 0x02. -/
def decode02 (w : IWord) : Except DecodeError Instr :=
  if fld w 19 18 = 0 ∧ fld w 0 0 = 0 then .ok (.brsZ (fbv 5 w 24 20) (fbv 17 w 17 1)) else
  if fld w 19 18 = 1 ∧ fld w 0 0 = 0 then .ok (.brsNz (fbv 5 w 24 20) (fbv 17 w 17 1)) else
  if fld w 19 18 = 2 ∧ fld w 0 0 = 0 then .ok (.brsNeg (fbv 5 w 24 20) (fbv 17 w 17 1)) else
  if fld w 19 18 = 3 ∧ fld w 0 0 = 0 then .ok (.brsNneg (fbv 5 w 24 20) (fbv 17 w 17 1)) else
  .error .noSuchForm

/-- The forms of major opcode 0x03. -/
def decode03 (w : IWord) : Except DecodeError Instr :=
  if fld w 24 19 = 0 ∧ fld w 0 0 = 0 then .ok (.call (fbv 18 w 18 1)) else
  .error .noSuchForm

/-- The forms of major opcode 0x04. -/
def decode04 (w : IWord) : Except DecodeError Instr :=
  if fld w 24 1 = 4194304 then .ok (.ret (fbv 1 w 0 0)) else
  if fld w 24 17 = 0 ∧ fld w 11 1 = 0 then .ok (.jr (fbv 5 w 16 12) (fbv 1 w 0 0)) else
  if fld w 24 17 = 32 ∧ fld w 11 1 = 0 then .ok (.jrl (fbv 5 w 16 12) (fbv 1 w 0 0)) else
  .error .noSuchForm

/-- The forms of major opcode 0x05. -/
def decode05 (w : IWord) : Except DecodeError Instr :=
  if fld w 24 19 = 0 ∧ fld w 0 0 = 0 then .ok (.joinat (fbv 18 w 18 1)) else
  .error .noSuchForm

/-- The forms of major opcode 0x06. -/
def decode06 (w : IWord) : Except DecodeError Instr :=
  if fld w 19 15 = 0 then .ok (.yield (fbv 5 w 24 20) (fbv 14 w 14 1) (fbv 1 w 0 0)) else
  .error .noSuchForm

/-- The forms of major opcode 0x07. -/
def decode07 (w : IWord) : Except DecodeError Instr :=
  if fld w 24 0 = 0 then .ok .exit else
  .error .noSuchForm

/-- The forms of major opcode 0x08. -/
def decode08 (w : IWord) : Except DecodeError Instr :=
  if fld w 24 17 = 32 ∧ fld w 11 6 = 0 then .ok (.barWait (fbv 5 w 16 12) (fbv 5 w 5 1) (fbv 1 w 0 0)) else
  if fld w 24 17 = 64 ∧ fld w 11 6 = 0 then .ok (.barSync (fbv 5 w 16 12) (fbv 5 w 5 1) (fbv 1 w 0 0)) else
  if fld w 24 22 = 3 ∧ fld w 16 6 = 0 then .ok (.barQuery (fbv 5 w 21 17) (fbv 5 w 5 1) (fbv 1 w 0 0)) else
  if fld w 24 22 = 0 ∧ fld w 11 6 = 0 then .ok (.barArrive (fbv 5 w 21 17) (fbv 5 w 16 12) (fbv 5 w 5 1) (fbv 1 w 0 0)) else
  .error .noSuchForm

/-- The forms of major opcode 0x09. -/
def decode09 (w : IWord) : Except DecodeError Instr :=
  if fld w 24 0 = 4194304 then .ok .rte else
  if fld w 24 7 = 0 ∧ fld w 0 0 = 0 then .ok (.trap (fbv 6 w 6 1)) else
  .error .noSuchForm

/-- The forms of major opcode 0x0A. -/
def decode0A (w : IWord) : Except DecodeError Instr :=
  if fld w 24 22 = 0 ∧ fld w 16 7 = 0 then .ok (.sget (fbv 5 w 21 17) (fbv 6 w 6 1) (fbv 1 w 0 0)) else
  if fld w 24 17 = 32 ∧ fld w 11 7 = 0 then .ok (.sset (fbv 5 w 16 12) (fbv 6 w 6 1) (fbv 1 w 0 0)) else
  .error .noSuchForm

/-- The forms of major opcode 0x0C. -/
def decode0C (w : IWord) : Except DecodeError Instr :=
  if fld w 24 17 = 64 ∧ fld w 11 1 = 0 then .ok (.tabortRetry (fbv 5 w 16 12) (fbv 1 w 0 0)) else
  if fld w 24 17 = 96 ∧ fld w 11 1 = 0 then .ok (.tabortDrop (fbv 5 w 16 12) (fbv 1 w 0 0)) else
  if fld w 24 22 = 0 ∧ fld w 11 1 = 0 then .ok (.spawn (fbv 5 w 21 17) (fbv 5 w 16 12) (fbv 1 w 0 0)) else
  if fld w 24 22 = 1 ∧ fld w 11 1 = 0 then .ok (.launch (fbv 5 w 21 17) (fbv 5 w 16 12) (fbv 1 w 0 0)) else
  .error .noSuchForm

/-- The forms of major opcode 0x0D. -/
def decode0D (w : IWord) : Except DecodeError Instr :=
  if fld w 24 17 = 0 ∧ fld w 6 1 = 0 then .ok (.depset (fbv 5 w 16 12) (fbv 5 w 11 7) (fbv 1 w 0 0)) else
  if fld w 24 22 = 2 ∧ fld w 11 1 = 0 then .ok (.depread (fbv 5 w 21 17) (fbv 5 w 16 12) (fbv 1 w 0 0)) else
  if fld w 24 22 = 1 ∧ fld w 6 1 = 0 then .ok (.depdec (fbv 5 w 21 17) (fbv 5 w 16 12) (fbv 5 w 11 7) (fbv 1 w 0 0)) else
  .error .noSuchForm

/-- The forms of major opcode 0x0E. -/
def decode0E (w : IWord) : Except DecodeError Instr :=
  if fld w 24 17 = 0 ∧ fld w 6 1 = 0 then .ok (.qinit (fbv 5 w 16 12) (fbv 5 w 11 7) (fbv 1 w 0 0)) else
  if fld w 24 17 = 32 ∧ fld w 6 1 = 0 then .ok (.qpush (fbv 5 w 16 12) (fbv 5 w 11 7) (fbv 1 w 0 0)) else
  if fld w 24 22 = 2 ∧ fld w 16 12 = 0 ∧ fld w 6 1 = 0 then .ok (.qpop (fbv 5 w 21 17) (fbv 5 w 11 7) (fbv 1 w 0 0)) else
  if fld w 24 22 = 3 ∧ fld w 16 12 = 0 ∧ fld w 6 1 = 0 then .ok (.qtry (fbv 5 w 21 17) (fbv 5 w 11 7) (fbv 1 w 0 0)) else
  .error .noSuchForm

/-- The forms of major opcode 0x10. -/
def decode10 (w : IWord) : Except DecodeError Instr :=
  if fld w 24 22 = 0 ∧ fld w 6 1 = 0 then .ok (.sadd (fbv 5 w 21 17) (fbv 5 w 16 12) (fbv 5 w 11 7) (fbv 1 w 0 0)) else
  if fld w 24 22 = 1 ∧ fld w 6 1 = 0 then .ok (.ssub (fbv 5 w 21 17) (fbv 5 w 16 12) (fbv 5 w 11 7) (fbv 1 w 0 0)) else
  if fld w 24 22 = 2 ∧ fld w 6 1 = 0 then .ok (.sand (fbv 5 w 21 17) (fbv 5 w 16 12) (fbv 5 w 11 7) (fbv 1 w 0 0)) else
  if fld w 24 22 = 3 ∧ fld w 6 1 = 0 then .ok (.sor (fbv 5 w 21 17) (fbv 5 w 16 12) (fbv 5 w 11 7) (fbv 1 w 0 0)) else
  if fld w 24 22 = 4 ∧ fld w 6 1 = 0 then .ok (.sxor (fbv 5 w 21 17) (fbv 5 w 16 12) (fbv 5 w 11 7) (fbv 1 w 0 0)) else
  if fld w 24 22 = 5 ∧ fld w 6 1 = 0 then .ok (.sshl (fbv 5 w 21 17) (fbv 5 w 16 12) (fbv 5 w 11 7) (fbv 1 w 0 0)) else
  if fld w 24 22 = 6 ∧ fld w 6 1 = 0 then .ok (.sshr (fbv 5 w 21 17) (fbv 5 w 16 12) (fbv 5 w 11 7) (fbv 1 w 0 0)) else
  if fld w 24 22 = 7 ∧ fld w 6 1 = 0 then .ok (.ssra (fbv 5 w 21 17) (fbv 5 w 16 12) (fbv 5 w 11 7) (fbv 1 w 0 0)) else
  .error .noSuchForm

/-- The forms of major opcode 0x11. -/
def decode11 (w : IWord) : Except DecodeError Instr :=
  if fld w 24 22 = 0 ∧ fld w 6 1 = 0 then .ok (.smul (fbv 5 w 21 17) (fbv 5 w 16 12) (fbv 5 w 11 7) (fbv 1 w 0 0)) else
  if fld w 24 22 = 1 ∧ fld w 6 1 = 0 then .ok (.smulh (fbv 5 w 21 17) (fbv 5 w 16 12) (fbv 5 w 11 7) (fbv 1 w 0 0)) else
  if fld w 24 22 = 2 ∧ fld w 6 1 = 0 then .ok (.smulhn (fbv 5 w 21 17) (fbv 5 w 16 12) (fbv 5 w 11 7) (fbv 1 w 0 0)) else
  if fld w 24 22 = 3 ∧ fld w 6 1 = 0 then .ok (.sdiv (fbv 5 w 21 17) (fbv 5 w 16 12) (fbv 5 w 11 7) (fbv 1 w 0 0)) else
  if fld w 24 22 = 4 ∧ fld w 6 1 = 0 then .ok (.sdivn (fbv 5 w 21 17) (fbv 5 w 16 12) (fbv 5 w 11 7) (fbv 1 w 0 0)) else
  if fld w 24 22 = 5 ∧ fld w 6 1 = 0 then .ok (.srem (fbv 5 w 21 17) (fbv 5 w 16 12) (fbv 5 w 11 7) (fbv 1 w 0 0)) else
  if fld w 24 22 = 6 ∧ fld w 6 1 = 0 then .ok (.sremn (fbv 5 w 21 17) (fbv 5 w 16 12) (fbv 5 w 11 7) (fbv 1 w 0 0)) else
  .error .noSuchForm

/-- The forms of major opcode 0x12. -/
def decode12 (w : IWord) : Except DecodeError Instr :=
  if fld w 6 1 = 0 then .ok (.scmp (fbv 3 w 24 22) (fbv 5 w 21 17) (fbv 5 w 16 12) (fbv 5 w 11 7) (fbv 1 w 0 0)) else
  .error .noSuchForm

/-- The forms of major opcode 0x13. -/
def decode13 (w : IWord) : Except DecodeError Instr :=
  if fld w 24 22 = 4 ∧ fld w 11 1 = 0 then .ok (.sclz (fbv 5 w 21 17) (fbv 5 w 16 12) (fbv 1 w 0 0)) else
  if fld w 24 22 = 5 ∧ fld w 11 1 = 0 then .ok (.sctz (fbv 5 w 21 17) (fbv 5 w 16 12) (fbv 1 w 0 0)) else
  if fld w 24 22 = 6 ∧ fld w 11 1 = 0 then .ok (.spopc (fbv 5 w 21 17) (fbv 5 w 16 12) (fbv 1 w 0 0)) else
  if fld w 24 22 = 0 ∧ fld w 6 1 = 0 then .ok (.smin (fbv 5 w 21 17) (fbv 5 w 16 12) (fbv 5 w 11 7) (fbv 1 w 0 0)) else
  if fld w 24 22 = 1 ∧ fld w 6 1 = 0 then .ok (.smax (fbv 5 w 21 17) (fbv 5 w 16 12) (fbv 5 w 11 7) (fbv 1 w 0 0)) else
  if fld w 24 22 = 2 ∧ fld w 6 1 = 0 then .ok (.sminn (fbv 5 w 21 17) (fbv 5 w 16 12) (fbv 5 w 11 7) (fbv 1 w 0 0)) else
  if fld w 24 22 = 3 ∧ fld w 6 1 = 0 then .ok (.smaxn (fbv 5 w 21 17) (fbv 5 w 16 12) (fbv 5 w 11 7) (fbv 1 w 0 0)) else
  .error .noSuchForm

/-- The forms of major opcode 0x14. -/
def decode14 (w : IWord) : Except DecodeError Instr :=
  .ok (.saddi (fbv 5 w 24 20) (fbv 5 w 19 15) (fbv 14 w 14 1) (fbv 1 w 0 0))

/-- The forms of major opcode 0x15. -/
def decode15 (w : IWord) : Except DecodeError Instr :=
  .ok (.sandi (fbv 5 w 24 20) (fbv 5 w 19 15) (fbv 14 w 14 1) (fbv 1 w 0 0))

/-- The forms of major opcode 0x16. -/
def decode16 (w : IWord) : Except DecodeError Instr :=
  .ok (.sori (fbv 5 w 24 20) (fbv 5 w 19 15) (fbv 14 w 14 1) (fbv 1 w 0 0))

/-- The forms of major opcode 0x17. -/
def decode17 (w : IWord) : Except DecodeError Instr :=
  .ok (.sxori (fbv 5 w 24 20) (fbv 5 w 19 15) (fbv 14 w 14 1) (fbv 1 w 0 0))

/-- The forms of major opcode 0x18. -/
def decode18 (w : IWord) : Except DecodeError Instr :=
  if fld w 14 7 = 0 then .ok (.sshli (fbv 5 w 24 20) (fbv 5 w 19 15) (fbv 6 w 6 1) (fbv 1 w 0 0)) else
  if fld w 14 7 = 1 then .ok (.sshri (fbv 5 w 24 20) (fbv 5 w 19 15) (fbv 6 w 6 1) (fbv 1 w 0 0)) else
  if fld w 14 7 = 2 then .ok (.ssrai (fbv 5 w 24 20) (fbv 5 w 19 15) (fbv 6 w 6 1) (fbv 1 w 0 0)) else
  .error .noSuchForm

/-- The forms of major opcode 0x19. -/
def decode19 (w : IWord) : Except DecodeError Instr :=
  .ok (.sld (fbv 5 w 24 20) (fbv 5 w 19 15) (fbv 14 w 14 1) (fbv 1 w 0 0))

/-- The forms of major opcode 0x1A. -/
def decode1A (w : IWord) : Except DecodeError Instr :=
  .ok (.sst (fbv 5 w 24 20) (fbv 5 w 19 15) (fbv 14 w 14 1) (fbv 1 w 0 0))

/-- The forms of major opcode 0x1B. -/
def decode1B (w : IWord) : Except DecodeError Instr :=
  if fld w 24 23 = 0 then .ok (.sldk (fbv 3 w 22 20) (fbv 5 w 19 15) (fbv 14 w 14 1) (fbv 1 w 0 0)) else
  .error .noSuchForm

/-- The forms of major opcode 0x20. -/
def decode20 (w : IWord) : Except DecodeError Instr :=
  if fld w 3 3 = 0 then .ok (.vadd (fbv 3 w 24 22) (fbv 6 w 21 16) (fbv 6 w 15 10) (fbv 6 w 9 4) (fbv 2 w 2 1) (fbv 1 w 0 0)) else
  if fld w 3 3 = 1 then .ok (.vaddSat (fbv 3 w 24 22) (fbv 6 w 21 16) (fbv 6 w 15 10) (fbv 6 w 9 4) (fbv 2 w 2 1) (fbv 1 w 0 0)) else
  .error .noSuchForm

/-- The forms of major opcode 0x21. -/
def decode21 (w : IWord) : Except DecodeError Instr :=
  if fld w 3 3 = 0 then .ok (.vsub (fbv 3 w 24 22) (fbv 6 w 21 16) (fbv 6 w 15 10) (fbv 6 w 9 4) (fbv 2 w 2 1) (fbv 1 w 0 0)) else
  if fld w 3 3 = 1 then .ok (.vsubSat (fbv 3 w 24 22) (fbv 6 w 21 16) (fbv 6 w 15 10) (fbv 6 w 9 4) (fbv 2 w 2 1) (fbv 1 w 0 0)) else
  .error .noSuchForm

/-- The forms of major opcode 0x22. -/
def decode22 (w : IWord) : Except DecodeError Instr :=
  if fld w 3 3 = 0 then .ok (.vmul (fbv 3 w 24 22) (fbv 6 w 21 16) (fbv 6 w 15 10) (fbv 6 w 9 4) (fbv 2 w 2 1) (fbv 1 w 0 0)) else
  .error .noSuchForm

/-- The forms of major opcode 0x23. -/
def decode23 (w : IWord) : Except DecodeError Instr :=
  .ok (.vmulh (fbv 3 w 24 22) (fbv 6 w 21 16) (fbv 6 w 15 10) (fbv 6 w 9 4) (fbv 3 w 3 1) (fbv 1 w 0 0))

/-- The forms of major opcode 0x24. -/
def decode24 (w : IWord) : Except DecodeError Instr :=
  if fld w 1 1 = 0 then .ok (.vmin (fbv 3 w 24 22) (fbv 6 w 21 16) (fbv 6 w 15 10) (fbv 6 w 9 4) (fbv 2 w 3 2) (fbv 1 w 0 0)) else
  if fld w 1 1 = 1 then .ok (.vmax (fbv 3 w 24 22) (fbv 6 w 21 16) (fbv 6 w 15 10) (fbv 6 w 9 4) (fbv 2 w 3 2) (fbv 1 w 0 0)) else
  .error .noSuchForm

/-- The forms of major opcode 0x25. -/
def decode25 (w : IWord) : Except DecodeError Instr :=
  if fld w 9 1 = 4 then .ok (.vmov (fbv 3 w 24 22) (fbv 6 w 21 16) (fbv 6 w 15 10) (fbv 1 w 0 0)) else
  if fld w 3 1 = 0 then .ok (.vand (fbv 3 w 24 22) (fbv 6 w 21 16) (fbv 6 w 15 10) (fbv 6 w 9 4) (fbv 1 w 0 0)) else
  if fld w 3 1 = 1 then .ok (.vor (fbv 3 w 24 22) (fbv 6 w 21 16) (fbv 6 w 15 10) (fbv 6 w 9 4) (fbv 1 w 0 0)) else
  if fld w 3 1 = 2 then .ok (.vxor (fbv 3 w 24 22) (fbv 6 w 21 16) (fbv 6 w 15 10) (fbv 6 w 9 4) (fbv 1 w 0 0)) else
  if fld w 3 1 = 3 then .ok (.vandn (fbv 3 w 24 22) (fbv 6 w 21 16) (fbv 6 w 15 10) (fbv 6 w 9 4) (fbv 1 w 0 0)) else
  .error .noSuchForm

/-- The forms of major opcode 0x26. -/
def decode26 (w : IWord) : Except DecodeError Instr :=
  if fld w 3 2 = 0 then .ok (.vshl (fbv 3 w 24 22) (fbv 6 w 21 16) (fbv 6 w 15 10) (fbv 6 w 9 4) (fbv 1 w 1 1) (fbv 1 w 0 0)) else
  if fld w 3 2 = 1 then .ok (.vshr (fbv 3 w 24 22) (fbv 6 w 21 16) (fbv 6 w 15 10) (fbv 6 w 9 4) (fbv 1 w 1 1) (fbv 1 w 0 0)) else
  if fld w 3 2 = 2 then .ok (.vsra (fbv 3 w 24 22) (fbv 6 w 21 16) (fbv 6 w 15 10) (fbv 6 w 9 4) (fbv 1 w 1 1) (fbv 1 w 0 0)) else
  .error .noSuchForm

/-- The forms of major opcode 0x27. -/
def decode27 (w : IWord) : Except DecodeError Instr :=
  if fld w 15 12 = 0 then .ok (.vmovi (fbv 3 w 24 22) (fbv 6 w 21 16) (fbv 2 w 11 10) (fbv 9 w 9 1) (fbv 1 w 0 0)) else
  .error .noSuchForm

/-- The forms of major opcode 0x28. -/
def decode28 (w : IWord) : Except DecodeError Instr :=
  .ok (.vaddi (fbv 3 w 24 22) (fbv 6 w 21 16) (fbv 6 w 15 10) (fbv 9 w 9 1) (fbv 1 w 0 0))

/-- The forms of major opcode 0x29. -/
def decode29 (w : IWord) : Except DecodeError Instr :=
  if fld w 9 8 = 0 then .ok (.vshiL (fbv 3 w 24 22) (fbv 6 w 21 16) (fbv 6 w 15 10) (fbv 7 w 7 1) (fbv 1 w 0 0)) else
  if fld w 9 8 = 1 then .ok (.vshiR (fbv 3 w 24 22) (fbv 6 w 21 16) (fbv 6 w 15 10) (fbv 7 w 7 1) (fbv 1 w 0 0)) else
  if fld w 9 8 = 2 then .ok (.vshiRa (fbv 3 w 24 22) (fbv 6 w 21 16) (fbv 6 w 15 10) (fbv 7 w 7 1) (fbv 1 w 0 0)) else
  .error .noSuchForm

/-- The forms of major opcode 0x2A. -/
def decode2A (w : IWord) : Except DecodeError Instr :=
  if fld w 21 19 = 0 then .ok (.vcmp (fbv 3 w 24 22) (fbv 3 w 18 16) (fbv 6 w 15 10) (fbv 6 w 9 4) (fbv 3 w 3 1) (fbv 1 w 0 0)) else
  .error .noSuchForm

/-- The forms of major opcode 0x2B. -/
def decode2B (w : IWord) : Except DecodeError Instr :=
  if fld w 21 19 = 0 then .ok (.vcmp64 (fbv 3 w 24 22) (fbv 3 w 18 16) (fbv 6 w 15 10) (fbv 6 w 9 4) (fbv 3 w 3 1) (fbv 1 w 0 0)) else
  .error .noSuchForm

/-- The forms of major opcode 0x2C. -/
def decode2C (w : IWord) : Except DecodeError Instr :=
  if fld w 15 1 = 2 then .ok (.vlane (fbv 3 w 24 22) (fbv 6 w 21 16) (fbv 1 w 0 0)) else
  if fld w 15 15 = 0 ∧ fld w 9 6 = 0 ∧ fld w 3 1 = 1 then .ok (.vbcast (fbv 3 w 24 22) (fbv 6 w 21 16) (fbv 5 w 14 10) (fbv 2 w 5 4) (fbv 1 w 0 0)) else
  if fld w 24 21 = 0 ∧ fld w 9 9 = 0 ∧ fld w 3 1 = 3 then .ok (.vsget (fbv 5 w 20 16) (fbv 6 w 15 10) (fbv 5 w 8 4) (fbv 1 w 0 0)) else
  if fld w 15 15 = 0 ∧ fld w 9 9 = 0 ∧ fld w 3 1 = 4 then .ok (.vsput (fbv 3 w 24 22) (fbv 6 w 21 16) (fbv 5 w 14 10) (fbv 5 w 8 4) (fbv 1 w 0 0)) else
  if fld w 3 1 = 0 then .ok (.vsel (fbv 3 w 24 22) (fbv 6 w 21 16) (fbv 6 w 15 10) (fbv 6 w 9 4) (fbv 1 w 0 0)) else
  .error .noSuchForm

/-- The forms of major opcode 0x2D. -/
def decode2D (w : IWord) : Except DecodeError Instr :=
  if fld w 9 8 = 0 ∧ fld w 3 1 = 6 then .ok (.vwiden (fbv 3 w 24 22) (fbv 6 w 21 16) (fbv 6 w 15 10) (fbv 4 w 7 4) (fbv 1 w 0 0)) else
  if fld w 9 9 = 0 ∧ fld w 3 1 = 7 then .ok (.vnarrow (fbv 3 w 24 22) (fbv 6 w 21 16) (fbv 6 w 15 10) (fbv 5 w 8 4) (fbv 1 w 0 0)) else
  if fld w 3 1 = 0 then .ok (.vzipI8 (fbv 3 w 24 22) (fbv 6 w 21 16) (fbv 6 w 15 10) (fbv 6 w 9 4) (fbv 1 w 0 0)) else
  if fld w 3 1 = 1 then .ok (.vzipI16 (fbv 3 w 24 22) (fbv 6 w 21 16) (fbv 6 w 15 10) (fbv 6 w 9 4) (fbv 1 w 0 0)) else
  if fld w 3 1 = 2 then .ok (.vzipI32 (fbv 3 w 24 22) (fbv 6 w 21 16) (fbv 6 w 15 10) (fbv 6 w 9 4) (fbv 1 w 0 0)) else
  if fld w 3 1 = 3 then .ok (.vunzipI8 (fbv 3 w 24 22) (fbv 6 w 21 16) (fbv 6 w 15 10) (fbv 6 w 9 4) (fbv 1 w 0 0)) else
  if fld w 3 1 = 4 then .ok (.vunzipI16 (fbv 3 w 24 22) (fbv 6 w 21 16) (fbv 6 w 15 10) (fbv 6 w 9 4) (fbv 1 w 0 0)) else
  if fld w 3 1 = 5 then .ok (.vunzipI32 (fbv 3 w 24 22) (fbv 6 w 21 16) (fbv 6 w 15 10) (fbv 6 w 9 4) (fbv 1 w 0 0)) else
  .error .noSuchForm

/-- The forms of major opcode 0x2E. -/
def decode2E (w : IWord) : Except DecodeError Instr :=
  if fld w 9 6 = 0 ∧ fld w 3 1 = 0 then .ok (.vclz (fbv 3 w 24 22) (fbv 6 w 21 16) (fbv 6 w 15 10) (fbv 2 w 5 4) (fbv 1 w 0 0)) else
  if fld w 9 6 = 0 ∧ fld w 3 1 = 1 then .ok (.vpopc (fbv 3 w 24 22) (fbv 6 w 21 16) (fbv 6 w 15 10) (fbv 2 w 5 4) (fbv 1 w 0 0)) else
  if fld w 9 6 = 0 ∧ fld w 3 1 = 2 then .ok (.vbrev (fbv 3 w 24 22) (fbv 6 w 21 16) (fbv 6 w 15 10) (fbv 2 w 5 4) (fbv 1 w 0 0)) else
  .error .noSuchForm

/-- The forms of major opcode 0x2F. -/
def decode2F (w : IWord) : Except DecodeError Instr :=
  if fld w 9 1 = 0 then .ok (.vrnenc (fbv 3 w 24 22) (fbv 6 w 21 16) (fbv 6 w 15 10) (fbv 1 w 0 0)) else
  if fld w 9 1 = 1 then .ok (.vrndec (fbv 3 w 24 22) (fbv 6 w 21 16) (fbv 6 w 15 10) (fbv 1 w 0 0)) else
  .error .noSuchForm

/-- The forms of major opcode 0x30. -/
def decode30 (w : IWord) : Except DecodeError Instr :=
  if fld w 3 3 = 0 then .ok (.vfadd (fbv 3 w 24 22) (fbv 6 w 21 16) (fbv 6 w 15 10) (fbv 6 w 9 4) (fbv 2 w 2 1) (fbv 1 w 0 0)) else
  .error .noSuchForm

/-- The forms of major opcode 0x31. -/
def decode31 (w : IWord) : Except DecodeError Instr :=
  if fld w 3 3 = 0 then .ok (.vfsub (fbv 3 w 24 22) (fbv 6 w 21 16) (fbv 6 w 15 10) (fbv 6 w 9 4) (fbv 2 w 2 1) (fbv 1 w 0 0)) else
  .error .noSuchForm

/-- The forms of major opcode 0x32. -/
def decode32 (w : IWord) : Except DecodeError Instr :=
  if fld w 3 3 = 0 then .ok (.vfmul (fbv 3 w 24 22) (fbv 6 w 21 16) (fbv 6 w 15 10) (fbv 6 w 9 4) (fbv 2 w 2 1) (fbv 1 w 0 0)) else
  .error .noSuchForm

/-- The forms of major opcode 0x33. -/
def decode33 (w : IWord) : Except DecodeError Instr :=
  if fld w 3 3 = 0 then .ok (.vfma (fbv 3 w 24 22) (fbv 6 w 21 16) (fbv 6 w 15 10) (fbv 6 w 9 4) (fbv 2 w 2 1) (fbv 1 w 0 0)) else
  .error .noSuchForm

/-- The forms of major opcode 0x34. -/
def decode34 (w : IWord) : Except DecodeError Instr :=
  if fld w 2 1 = 0 then .ok (.vfmin (fbv 3 w 24 22) (fbv 6 w 21 16) (fbv 6 w 15 10) (fbv 6 w 9 4) (fbv 1 w 3 3) (fbv 1 w 0 0)) else
  if fld w 2 1 = 1 then .ok (.vfmax (fbv 3 w 24 22) (fbv 6 w 21 16) (fbv 6 w 15 10) (fbv 6 w 9 4) (fbv 1 w 3 3) (fbv 1 w 0 0)) else
  if fld w 2 1 = 2 then .ok (.vfminnum (fbv 3 w 24 22) (fbv 6 w 21 16) (fbv 6 w 15 10) (fbv 6 w 9 4) (fbv 1 w 3 3) (fbv 1 w 0 0)) else
  if fld w 2 1 = 3 then .ok (.vfmaxnum (fbv 3 w 24 22) (fbv 6 w 21 16) (fbv 6 w 15 10) (fbv 6 w 9 4) (fbv 1 w 3 3) (fbv 1 w 0 0)) else
  .error .noSuchForm

/-- The forms of major opcode 0x35. -/
def decode35 (w : IWord) : Except DecodeError Instr :=
  if fld w 21 19 = 0 then .ok (.vfcmp (fbv 3 w 24 22) (fbv 3 w 18 16) (fbv 6 w 15 10) (fbv 6 w 9 4) (fbv 3 w 3 1) (fbv 1 w 0 0)) else
  .error .noSuchForm

/-- The forms of major opcode 0x36. -/
def decode36 (w : IWord) : Except DecodeError Instr :=
  if fld w 21 19 = 0 then .ok (.vfcmpt (fbv 3 w 24 22) (fbv 3 w 18 16) (fbv 6 w 15 10) (fbv 6 w 9 4) (fbv 1 w 3 3) (fbv 2 w 2 1) (fbv 1 w 0 0)) else
  .error .noSuchForm

/-- The forms of major opcode 0x37. -/
def decode37 (w : IWord) : Except DecodeError Instr :=
  if fld w 3 1 = 0 then .ok (.vfcvt (fbv 3 w 24 22) (fbv 6 w 21 16) (fbv 6 w 15 10) (fbv 6 w 9 4) (fbv 1 w 0 0)) else
  .error .noSuchForm

/-- The forms of major opcode 0x38. -/
def decode38 (w : IWord) : Except DecodeError Instr :=
  if fld w 9 4 = 0 then .ok (.vsfu (fbv 3 w 24 22) (fbv 6 w 21 16) (fbv 6 w 15 10) (fbv 3 w 3 1) (fbv 1 w 0 0)) else
  .error .noSuchForm

/-- The forms of major opcode 0x39. -/
def decode39 (w : IWord) : Except DecodeError Instr :=
  if fld w 9 6 = 0 ∧ fld w 3 1 = 0 then .ok (.vfabs (fbv 3 w 24 22) (fbv 6 w 21 16) (fbv 6 w 15 10) (fbv 2 w 5 4) (fbv 1 w 0 0)) else
  if fld w 9 6 = 0 ∧ fld w 3 1 = 1 then .ok (.vfneg (fbv 3 w 24 22) (fbv 6 w 21 16) (fbv 6 w 15 10) (fbv 2 w 5 4) (fbv 1 w 0 0)) else
  if fld w 9 6 = 0 ∧ fld w 3 1 = 2 then .ok (.vfround (fbv 3 w 24 22) (fbv 6 w 21 16) (fbv 6 w 15 10) (fbv 2 w 5 4) (fbv 1 w 0 0)) else
  .error .noSuchForm

/-- The forms of major opcode 0x3A. -/
def decode3A (w : IWord) : Except DecodeError Instr :=
  if fld w 24 21 = 0 ∧ fld w 15 13 = 0 ∧ fld w 9 1 = 6 then .ok (.kmovToScalar (fbv 5 w 20 16) (fbv 3 w 12 10) (fbv 1 w 0 0)) else
  if fld w 24 21 = 0 ∧ fld w 15 13 = 0 ∧ fld w 9 1 = 7 then .ok (.kpop (fbv 5 w 20 16) (fbv 3 w 12 10) (fbv 1 w 0 0)) else
  if fld w 21 19 = 0 ∧ fld w 15 13 = 0 ∧ fld w 9 1 = 4 then .ok (.kmovMask (fbv 3 w 24 22) (fbv 3 w 18 16) (fbv 3 w 12 10) (fbv 1 w 0 0)) else
  if fld w 21 19 = 0 ∧ fld w 15 15 = 0 ∧ fld w 9 1 = 5 then .ok (.kmovFromScalar (fbv 3 w 24 22) (fbv 3 w 18 16) (fbv 5 w 14 10) (fbv 1 w 0 0)) else
  if fld w 21 19 = 0 ∧ fld w 15 13 = 0 ∧ fld w 9 7 = 0 ∧ fld w 3 1 = 0 then .ok (.kand (fbv 3 w 24 22) (fbv 3 w 18 16) (fbv 3 w 12 10) (fbv 3 w 6 4) (fbv 1 w 0 0)) else
  if fld w 21 19 = 0 ∧ fld w 15 13 = 0 ∧ fld w 9 7 = 0 ∧ fld w 3 1 = 1 then .ok (.kor (fbv 3 w 24 22) (fbv 3 w 18 16) (fbv 3 w 12 10) (fbv 3 w 6 4) (fbv 1 w 0 0)) else
  if fld w 21 19 = 0 ∧ fld w 15 13 = 0 ∧ fld w 9 7 = 0 ∧ fld w 3 1 = 2 then .ok (.kxor (fbv 3 w 24 22) (fbv 3 w 18 16) (fbv 3 w 12 10) (fbv 3 w 6 4) (fbv 1 w 0 0)) else
  if fld w 21 19 = 0 ∧ fld w 15 13 = 0 ∧ fld w 9 7 = 0 ∧ fld w 3 1 = 3 then .ok (.kandn (fbv 3 w 24 22) (fbv 3 w 18 16) (fbv 3 w 12 10) (fbv 3 w 6 4) (fbv 1 w 0 0)) else
  .error .noSuchForm

/-- The forms of major opcode 0x40. -/
def decode40 (w : IWord) : Except DecodeError Instr :=
  .ok (.vshfl (fbv 3 w 24 22) (fbv 6 w 21 16) (fbv 6 w 15 10) (fbv 6 w 9 4) (fbv 2 w 3 2) (fbv 1 w 1 1) (fbv 1 w 0 0))

/-- The forms of major opcode 0x41. -/
def decode41 (w : IWord) : Except DecodeError Instr :=
  .ok (.vshfli (fbv 3 w 24 22) (fbv 6 w 21 16) (fbv 6 w 15 10) (fbv 9 w 9 1) (fbv 1 w 0 0))

/-- The forms of major opcode 0x42. -/
def decode42 (w : IWord) : Except DecodeError Instr :=
  if fld w 21 21 = 0 ∧ fld w 15 13 = 0 ∧ fld w 9 1 = 0 then .ok (.voteAny (fbv 3 w 24 22) (fbv 5 w 20 16) (fbv 3 w 12 10) (fbv 1 w 0 0)) else
  if fld w 21 21 = 0 ∧ fld w 15 13 = 0 ∧ fld w 9 1 = 1 then .ok (.voteAll (fbv 3 w 24 22) (fbv 5 w 20 16) (fbv 3 w 12 10) (fbv 1 w 0 0)) else
  if fld w 21 21 = 0 ∧ fld w 15 13 = 0 ∧ fld w 9 1 = 3 then .ok (.voteBallot (fbv 3 w 24 22) (fbv 5 w 20 16) (fbv 3 w 12 10) (fbv 1 w 0 0)) else
  if fld w 21 21 = 0 ∧ fld w 9 1 = 2 then .ok (.voteEq (fbv 3 w 24 22) (fbv 5 w 20 16) (fbv 6 w 15 10) (fbv 1 w 0 0)) else
  .error .noSuchForm

/-- The forms of major opcode 0x43. -/
def decode43 (w : IWord) : Except DecodeError Instr :=
  if fld w 21 21 = 0 ∧ fld w 9 7 = 0 then .ok (.xred (fbv 3 w 24 22) (fbv 5 w 20 16) (fbv 6 w 15 10) (fbv 3 w 6 4) (fbv 3 w 3 1) (fbv 1 w 0 0)) else
  .error .noSuchForm

/-- The forms of major opcode 0x44. -/
def decode44 (w : IWord) : Except DecodeError Instr :=
  if fld w 9 8 = 0 then .ok (.xscan (fbv 3 w 24 22) (fbv 6 w 21 16) (fbv 6 w 15 10) (fbv 1 w 7 7) (fbv 3 w 6 4) (fbv 3 w 3 1) (fbv 1 w 0 0)) else
  .error .noSuchForm

/-- The forms of major opcode 0x45. -/
def decode45 (w : IWord) : Except DecodeError Instr :=
  if fld w 21 21 = 0 ∧ fld w 9 4 = 0 then .ok (.xmaxi (fbv 3 w 24 22) (fbv 5 w 20 16) (fbv 6 w 15 10) (fbv 3 w 3 1) (fbv 1 w 0 0)) else
  .error .noSuchForm

/-- The forms of major opcode 0x46. -/
def decode46 (w : IWord) : Except DecodeError Instr :=
  if fld w 24 22 = 0 ∧ fld w 16 1 = 0 then .ok (.gwidthW (fbv 5 w 21 17) (fbv 1 w 0 0)) else
  if fld w 24 22 = 1 ∧ fld w 16 1 = 0 then .ok (.gwidthSm (fbv 5 w 21 17) (fbv 1 w 0 0)) else
  if fld w 24 22 = 2 ∧ fld w 16 1 = 0 then .ok (.gwidthAm (fbv 5 w 21 17) (fbv 1 w 0 0)) else
  if fld w 24 22 = 3 ∧ fld w 16 1 = 0 then .ok (.gwidthNa (fbv 5 w 21 17) (fbv 1 w 0 0)) else
  .error .noSuchForm

/-- The forms of major opcode 0x47. -/
def decode47 (w : IWord) : Except DecodeError Instr :=
  if fld w 24 17 = 64 ∧ fld w 6 1 = 0 then .ok (.cmrgReset (fbv 5 w 16 12) (fbv 5 w 11 7) (fbv 1 w 0 0)) else
  if fld w 24 17 = 0 ∧ fld w 11 7 = 0 then .ok (.cmrgPut (fbv 5 w 16 12) (fbv 6 w 6 1) (fbv 1 w 0 0)) else
  if fld w 24 22 = 1 ∧ fld w 11 7 = 0 then .ok (.cmrgGet (fbv 5 w 21 17) (fbv 5 w 16 12) (fbv 6 w 6 1) (fbv 1 w 0 0)) else
  .error .noSuchForm

/-- The forms of major opcode 0x48. -/
def decode48 (w : IWord) : Except DecodeError Instr :=
  if fld w 3 1 = 0 then .ok (.mma (fbv 3 w 24 22) (fbv 3 w 21 19) (fbv 3 w 18 16) (fbv 6 w 15 10) (fbv 6 w 9 4) (fbv 1 w 0 0)) else
  if fld w 3 1 = 1 then .ok (.mmaZ (fbv 3 w 24 22) (fbv 3 w 21 19) (fbv 3 w 18 16) (fbv 6 w 15 10) (fbv 6 w 9 4) (fbv 1 w 0 0)) else
  .error .noSuchForm

/-- The forms of major opcode 0x49. -/
def decode49 (w : IWord) : Except DecodeError Instr :=
  if fld w 3 1 = 0 then .ok (.mmas (fbv 3 w 24 22) (fbv 3 w 21 19) (fbv 3 w 18 16) (fbv 6 w 15 10) (fbv 6 w 9 4) (fbv 1 w 0 0)) else
  if fld w 3 1 = 1 then .ok (.mmasZ (fbv 3 w 24 22) (fbv 3 w 21 19) (fbv 3 w 18 16) (fbv 6 w 15 10) (fbv 6 w 9 4) (fbv 1 w 0 0)) else
  .error .noSuchForm

/-- The forms of major opcode 0x4A. -/
def decode4A (w : IWord) : Except DecodeError Instr :=
  if fld w 24 19 = 0 ∧ fld w 15 1 = 1 then .ok (.accRel (fbv 3 w 18 16) (fbv 1 w 0 0)) else
  if fld w 24 19 = 0 ∧ fld w 15 4 = 0 ∧ fld w 2 1 = 0 then .ok (.accZero (fbv 3 w 18 16) (fbv 1 w 3 3) (fbv 1 w 0 0)) else
  if fld w 24 19 = 0 ∧ fld w 15 13 = 0 ∧ fld w 9 1 = 2 then .ok (.accMov (fbv 3 w 18 16) (fbv 3 w 12 10) (fbv 1 w 0 0)) else
  .error .noSuchForm

/-- The forms of major opcode 0x4B. -/
def decode4B (w : IWord) : Except DecodeError Instr :=
  if fld w 24 19 = 0 ∧ fld w 9 1 = 0 then .ok (.accoutI32 (fbv 3 w 18 16) (fbv 6 w 15 10) (fbv 1 w 0 0)) else
  if fld w 3 3 = 0 ∧ fld w 1 1 = 1 then .ok (.accoutF32 (fbv 3 w 24 22) (fbv 3 w 21 19) (fbv 3 w 18 16) (fbv 6 w 15 10) (fbv 6 w 9 4) (fbv 1 w 2 2) (fbv 1 w 0 0)) else
  .error .noSuchForm

/-- The forms of major opcode 0x4C. -/
def decode4C (w : IWord) : Except DecodeError Instr :=
  if fld w 24 19 = 0 ∧ fld w 9 2 = 0 then .ok (.accin (fbv 3 w 18 16) (fbv 6 w 15 10) (fbv 1 w 1 1) (fbv 1 w 0 0)) else
  .error .noSuchForm

/-- The forms of major opcode 0x4D. -/
def decode4D (w : IWord) : Except DecodeError Instr :=
  if fld w 24 19 = 0 ∧ fld w 10 3 = 0 ∧ fld w 1 1 = 0 then .ok (.accst (fbv 3 w 18 16) (fbv 5 w 15 11) (fbv 1 w 2 2) (fbv 1 w 0 0)) else
  if fld w 24 19 = 0 ∧ fld w 10 3 = 0 ∧ fld w 1 1 = 1 then .ok (.accld (fbv 3 w 18 16) (fbv 5 w 15 11) (fbv 1 w 2 2) (fbv 1 w 0 0)) else
  .error .noSuchForm

/-- The forms of major opcode 0x50. -/
def decode50 (w : IWord) : Except DecodeError Instr :=
  .ok (.ldl (fbv 3 w 24 22) (fbv 6 w 21 16) (fbv 5 w 15 11) (fbv 6 w 10 5) (fbv 2 w 4 3) (fbv 1 w 2 2) (fbv 1 w 1 1) (fbv 1 w 0 0))

/-- The forms of major opcode 0x51. -/
def decode51 (w : IWord) : Except DecodeError Instr :=
  .ok (.stl (fbv 3 w 24 22) (fbv 6 w 21 16) (fbv 5 w 15 11) (fbv 6 w 10 5) (fbv 2 w 4 3) (fbv 1 w 2 2) (fbv 1 w 1 1) (fbv 1 w 0 0))

/-- The forms of major opcode 0x52. -/
def decode52 (w : IWord) : Except DecodeError Instr :=
  if fld w 10 5 = 0 then .ok (.ldfrag (fbv 3 w 24 22) (fbv 6 w 21 16) (fbv 5 w 15 11) (fbv 2 w 4 3) (fbv 1 w 2 2) (fbv 1 w 1 1) (fbv 1 w 0 0)) else
  .error .noSuchForm

/-- The forms of major opcode 0x53. -/
def decode53 (w : IWord) : Except DecodeError Instr :=
  if fld w 10 5 = 0 then .ok (.stfrag (fbv 3 w 24 22) (fbv 6 w 21 16) (fbv 5 w 15 11) (fbv 1 w 4 4) (fbv 3 w 3 1) (fbv 1 w 0 0)) else
  .error .noSuchForm

/-- The forms of major opcode 0x54. -/
def decode54 (w : IWord) : Except DecodeError Instr :=
  if fld w 24 22 = 0 ∧ fld w 3 3 = 1 then .ok (.catomExch (fbv 6 w 21 16) (fbv 5 w 15 11) (fbv 6 w 10 5) (fbv 1 w 4 4) (fbv 3 w 2 0)) else
  if fld w 24 22 = 1 ∧ fld w 3 3 = 1 then .ok (.catomCas (fbv 6 w 21 16) (fbv 5 w 15 11) (fbv 6 w 10 5) (fbv 1 w 4 4) (fbv 3 w 2 0)) else
  if fld w 3 3 = 0 then .ok (.catom (fbv 3 w 24 22) (fbv 6 w 21 16) (fbv 5 w 15 11) (fbv 6 w 10 5) (fbv 1 w 4 4) (fbv 3 w 2 0)) else
  .error .noSuchForm

/-- The forms of major opcode 0x58. -/
def decode58 (w : IWord) : Except DecodeError Instr :=
  if fld w 4 1 = 7 then .ok (.gldF6p (fbv 3 w 24 22) (fbv 6 w 21 16) (fbv 5 w 15 11) (fbv 6 w 10 5) (fbv 1 w 0 0)) else
  .ok (.gld (fbv 3 w 24 22) (fbv 6 w 21 16) (fbv 5 w 15 11) (fbv 6 w 10 5) (fbv 4 w 4 1) (fbv 1 w 0 0))

/-- The forms of major opcode 0x59. -/
def decode59 (w : IWord) : Except DecodeError Instr :=
  if fld w 4 1 = 4 then .ok (.gstF6p (fbv 3 w 24 22) (fbv 6 w 21 16) (fbv 5 w 15 11) (fbv 6 w 10 5) (fbv 1 w 0 0)) else
  if fld w 4 3 = 0 then .ok (.gst (fbv 3 w 24 22) (fbv 6 w 21 16) (fbv 5 w 15 11) (fbv 6 w 10 5) (fbv 2 w 2 1) (fbv 1 w 0 0)) else
  if fld w 4 4 = 1 then .ok (.gstFs (fbv 3 w 24 22) (fbv 6 w 21 16) (fbv 5 w 15 11) (fbv 6 w 10 5) (fbv 3 w 3 1) (fbv 1 w 0 0)) else
  .error .noSuchForm

/-- The forms of major opcode 0x5A. -/
def decode5A (w : IWord) : Except DecodeError Instr :=
  .ok (.gatom (fbv 3 w 24 22) (fbv 6 w 21 16) (fbv 5 w 15 11) (fbv 6 w 10 5) (fbv 1 w 4 4) (fbv 1 w 3 3) (fbv 3 w 2 0))

/-- The forms of major opcode 0x5B. -/
def decode5B (w : IWord) : Except DecodeError Instr :=
  if fld w 24 22 = 0 ∧ fld w 4 4 = 0 then .ok (.gexch (fbv 6 w 21 16) (fbv 5 w 15 11) (fbv 6 w 10 5) (fbv 1 w 3 3) (fbv 3 w 2 0)) else
  if fld w 24 22 = 1 ∧ fld w 4 4 = 0 then .ok (.gcas (fbv 6 w 21 16) (fbv 5 w 15 11) (fbv 6 w 10 5) (fbv 1 w 3 3) (fbv 3 w 2 0)) else
  .error .noSuchForm

/-- The forms of major opcode 0x5C. -/
def decode5C (w : IWord) : Except DecodeError Instr :=
  .ok (.gredF (fbv 1 w 24 24) (fbv 1 w 23 23) (fbv 1 w 22 22) (fbv 6 w 21 16) (fbv 5 w 15 11) (fbv 6 w 10 5) (fbv 2 w 4 3) (fbv 3 w 2 0))

/-- The forms of major opcode 0x5D. -/
def decode5D (w : IWord) : Except DecodeError Instr :=
  if fld w 24 22 = 0 ∧ fld w 4 4 = 0 then .ok (.gredRn (fbv 6 w 21 16) (fbv 5 w 15 11) (fbv 6 w 10 5) (fbv 1 w 3 3) (fbv 3 w 2 0)) else
  .error .noSuchForm

/-- The forms of major opcode 0x5E. -/
def decode5E (w : IWord) : Except DecodeError Instr :=
  if fld w 21 16 = 0 ∧ fld w 4 3 = 0 then .ok (.gpf (fbv 3 w 24 22) (fbv 5 w 15 11) (fbv 6 w 10 5) (fbv 2 w 2 1) (fbv 1 w 0 0)) else
  .error .noSuchForm

/-- The forms of major opcode 0x60. -/
def decode60 (w : IWord) : Except DecodeError Instr :=
  if fld w 24 22 = 0 ∧ fld w 11 1 = 0 then .ok (.tcopy (fbv 5 w 21 17) (fbv 5 w 16 12) (fbv 1 w 0 0)) else
  .error .noSuchForm

/-- The forms of major opcode 0x61. -/
def decode61 (w : IWord) : Except DecodeError Instr :=
  if fld w 24 22 = 0 then .ok (.tgath (fbv 5 w 21 17) (fbv 5 w 16 12) (fbv 5 w 11 7) (fbv 6 w 6 1) (fbv 1 w 0 0)) else
  .error .noSuchForm

/-- The forms of major opcode 0x62. -/
def decode62 (w : IWord) : Except DecodeError Instr :=
  if fld w 24 22 = 0 ∧ fld w 11 1 = 0 then .ok (.trag (fbv 5 w 21 17) (fbv 5 w 16 12) (fbv 1 w 0 0)) else
  .error .noSuchForm

/-- The forms of major opcode 0x63. -/
def decode63 (w : IWord) : Except DecodeError Instr :=
  if fld w 24 22 = 0 ∧ fld w 11 1 = 0 then .ok (.tstat (fbv 5 w 21 17) (fbv 5 w 16 12) (fbv 1 w 0 0)) else
  if fld w 24 22 = 1 ∧ fld w 6 1 = 0 then .ok (.tstatGal (fbv 5 w 21 17) (fbv 5 w 16 12) (fbv 5 w 11 7) (fbv 1 w 0 0)) else
  .error .noSuchForm

/-- The forms of major opcode 0x64. -/
def decode64 (w : IWord) : Except DecodeError Instr :=
  if fld w 24 17 = 32 ∧ fld w 11 1 = 0 then .ok (.efree (fbv 5 w 16 12) (fbv 1 w 0 0)) else
  if fld w 24 22 = 0 ∧ fld w 11 1 = 0 then .ok (.enew (fbv 5 w 21 17) (fbv 5 w 16 12) (fbv 1 w 0 0)) else
  .error .noSuchForm

/-- The forms of major opcode 0x65. -/
def decode65 (w : IWord) : Except DecodeError Instr :=
  if fld w 22 22 = 0 then .ok (.eins (fbv 1 w 24 24) (fbv 1 w 23 23) (fbv 5 w 21 17) (fbv 5 w 16 12) (fbv 5 w 11 7) (fbv 6 w 6 1) (fbv 1 w 0 0)) else
  if fld w 22 22 = 1 then .ok (.eapp (fbv 1 w 24 24) (fbv 1 w 23 23) (fbv 5 w 21 17) (fbv 5 w 16 12) (fbv 5 w 11 7) (fbv 6 w 6 1) (fbv 1 w 0 0)) else
  .error .noSuchForm

/-- The forms of major opcode 0x66. -/
def decode66 (w : IWord) : Except DecodeError Instr :=
  if fld w 24 22 = 0 ∧ fld w 6 1 = 0 then .ok (.edel (fbv 5 w 21 17) (fbv 5 w 16 12) (fbv 5 w 11 7) (fbv 1 w 0 0)) else
  .error .noSuchForm

/-- The forms of major opcode 0x67. -/
def decode67 (w : IWord) : Except DecodeError Instr :=
  if fld w 24 22 = 0 ∧ fld w 6 1 = 0 then .ok (.esplit (fbv 5 w 21 17) (fbv 5 w 16 12) (fbv 5 w 11 7) (fbv 1 w 0 0)) else
  if fld w 24 22 = 1 ∧ fld w 6 1 = 0 then .ok (.ecat (fbv 5 w 21 17) (fbv 5 w 16 12) (fbv 5 w 11 7) (fbv 1 w 0 0)) else
  .error .noSuchForm

/-- The forms of major opcode 0x68. -/
def decode68 (w : IWord) : Except DecodeError Instr :=
  if fld w 24 17 = 128 ∧ fld w 11 1 = 0 then .ok (.edrop (fbv 5 w 16 12) (fbv 1 w 0 0)) else
  if fld w 24 22 = 2 ∧ fld w 11 1 = 0 then .ok (.erank (fbv 5 w 21 17) (fbv 5 w 16 12) (fbv 1 w 0 0)) else
  if fld w 24 22 = 3 ∧ fld w 11 1 = 0 then .ok (.erankH (fbv 5 w 21 17) (fbv 5 w 16 12) (fbv 1 w 0 0)) else
  if fld w 24 22 = 0 ∧ fld w 6 1 = 0 then .ok (.emark (fbv 5 w 21 17) (fbv 5 w 16 12) (fbv 5 w 11 7) (fbv 1 w 0 0)) else
  if fld w 24 22 = 1 ∧ fld w 6 1 = 0 then .ok (.eanch (fbv 5 w 21 17) (fbv 5 w 16 12) (fbv 5 w 11 7) (fbv 1 w 0 0)) else
  .error .noSuchForm

/-- The forms of major opcode 0x69. -/
def decode69 (w : IWord) : Except DecodeError Instr :=
  if fld w 24 22 = 0 ∧ fld w 11 1 = 0 then .ok (.elen (fbv 5 w 21 17) (fbv 5 w 16 12) (fbv 1 w 0 0)) else
  if fld w 24 22 = 1 ∧ fld w 6 1 = 0 then .ok (.einfo (fbv 5 w 21 17) (fbv 5 w 16 12) (fbv 5 w 11 7) (fbv 1 w 0 0)) else
  .error .noSuchForm

/-- The forms of major opcode 0x6A. -/
def decode6A (w : IWord) : Except DecodeError Instr :=
  if fld w 4 2 = 0 then .ok (.eld (fbv 3 w 24 22) (fbv 6 w 21 16) (fbv 5 w 15 11) (fbv 6 w 10 5) (fbv 1 w 1 1) (fbv 1 w 0 0)) else
  .error .noSuchForm

/-- The forms of major opcode 0x6B. -/
def decode6B (w : IWord) : Except DecodeError Instr :=
  if fld w 4 1 = 0 then .ok (.est (fbv 3 w 24 22) (fbv 6 w 21 16) (fbv 5 w 15 11) (fbv 6 w 10 5) (fbv 1 w 0 0)) else
  .error .noSuchForm

/-- The forms of major opcode 0x70. -/
def decode70 (w : IWord) : Except DecodeError Instr :=
  if fld w 24 4 = 262144 then .ok (.fenceAcq (fbv 3 w 3 1) (fbv 1 w 0 0)) else
  if fld w 24 4 = 524288 then .ok (.fenceRel (fbv 3 w 3 1) (fbv 1 w 0 0)) else
  if fld w 24 4 = 786432 then .ok (.fenceAcqrel (fbv 3 w 3 1) (fbv 1 w 0 0)) else
  .error .noSuchForm

/-- The forms of major opcode 0x71. -/
def decode71 (w : IWord) : Except DecodeError Instr :=
  if fld w 24 4 = 262144 then .ok (.sbindClr (fbv 3 w 3 1) (fbv 1 w 0 0)) else
  if fld w 24 22 = 0 ∧ fld w 16 4 = 0 then .ok (.sbind (fbv 5 w 21 17) (fbv 3 w 3 1) (fbv 1 w 0 0)) else
  .error .noSuchForm

/-- The forms of major opcode 0x72. -/
def decode72 (w : IWord) : Except DecodeError Instr :=
  if fld w 24 22 = 0 ∧ fld w 6 1 = 0 then .ok (.swr (fbv 5 w 21 17) (fbv 5 w 16 12) (fbv 5 w 11 7) (fbv 1 w 0 0)) else
  if fld w 24 22 = 1 ∧ fld w 6 1 = 0 then .ok (.srd (fbv 5 w 21 17) (fbv 5 w 16 12) (fbv 5 w 11 7) (fbv 1 w 0 0)) else
  .error .noSuchForm

/-- The forms of major opcode 0x73. -/
def decode73 (w : IWord) : Except DecodeError Instr :=
  if fld w 24 4 = 0 then .ok (.icinv (fbv 3 w 3 1) (fbv 1 w 0 0)) else
  .error .noSuchForm

/-- The forms of major opcode 0x7F. -/
def decode7F (w : IWord) : Except DecodeError Instr :=
  if fld w 24 1 = 6291456 then .ok (.hintSched (fbv 1 w 0 0)) else
  if fld w 24 2 = 2097152 then .ok (.hintOrd (fbv 2 w 1 0)) else
  if fld w 24 22 = 0 then .ok (.hintImm (fbv 22 w 21 0)) else
  if fld w 24 22 = 1 then .ok (.hintVc (fbv 1 w 21 21) (fbv 6 w 20 15) (fbv 6 w 14 9) (fbv 6 w 8 3) (fbv 3 w 2 0)) else
  if fld w 24 22 = 4 then .ok (.hintOff (fbv 22 w 21 0)) else
  if fld w 24 22 ≥ 5 then .error .undefinedHintKind else .error .noSuchForm

/-- The form that the word's bits name, before the check of its field values. -/
def decodeForm (w : IWord) : Except DecodeError Instr :=
  match fld w 31 25 with
  | 0x00 => decode00 w
  | 0x01 => decode01 w
  | 0x02 => decode02 w
  | 0x03 => decode03 w
  | 0x04 => decode04 w
  | 0x05 => decode05 w
  | 0x06 => decode06 w
  | 0x07 => decode07 w
  | 0x08 => decode08 w
  | 0x09 => decode09 w
  | 0x0A => decode0A w
  | 0x0C => decode0C w
  | 0x0D => decode0D w
  | 0x0E => decode0E w
  | 0x10 => decode10 w
  | 0x11 => decode11 w
  | 0x12 => decode12 w
  | 0x13 => decode13 w
  | 0x14 => decode14 w
  | 0x15 => decode15 w
  | 0x16 => decode16 w
  | 0x17 => decode17 w
  | 0x18 => decode18 w
  | 0x19 => decode19 w
  | 0x1A => decode1A w
  | 0x1B => decode1B w
  | 0x20 => decode20 w
  | 0x21 => decode21 w
  | 0x22 => decode22 w
  | 0x23 => decode23 w
  | 0x24 => decode24 w
  | 0x25 => decode25 w
  | 0x26 => decode26 w
  | 0x27 => decode27 w
  | 0x28 => decode28 w
  | 0x29 => decode29 w
  | 0x2A => decode2A w
  | 0x2B => decode2B w
  | 0x2C => decode2C w
  | 0x2D => decode2D w
  | 0x2E => decode2E w
  | 0x2F => decode2F w
  | 0x30 => decode30 w
  | 0x31 => decode31 w
  | 0x32 => decode32 w
  | 0x33 => decode33 w
  | 0x34 => decode34 w
  | 0x35 => decode35 w
  | 0x36 => decode36 w
  | 0x37 => decode37 w
  | 0x38 => decode38 w
  | 0x39 => decode39 w
  | 0x3A => decode3A w
  | 0x40 => decode40 w
  | 0x41 => decode41 w
  | 0x42 => decode42 w
  | 0x43 => decode43 w
  | 0x44 => decode44 w
  | 0x45 => decode45 w
  | 0x46 => decode46 w
  | 0x47 => decode47 w
  | 0x48 => decode48 w
  | 0x49 => decode49 w
  | 0x4A => decode4A w
  | 0x4B => decode4B w
  | 0x4C => decode4C w
  | 0x4D => decode4D w
  | 0x50 => decode50 w
  | 0x51 => decode51 w
  | 0x52 => decode52 w
  | 0x53 => decode53 w
  | 0x54 => decode54 w
  | 0x58 => decode58 w
  | 0x59 => decode59 w
  | 0x5A => decode5A w
  | 0x5B => decode5B w
  | 0x5C => decode5C w
  | 0x5D => decode5D w
  | 0x5E => decode5E w
  | 0x60 => decode60 w
  | 0x61 => decode61 w
  | 0x62 => decode62 w
  | 0x63 => decode63 w
  | 0x64 => decode64 w
  | 0x65 => decode65 w
  | 0x66 => decode66 w
  | 0x67 => decode67 w
  | 0x68 => decode68 w
  | 0x69 => decode69 w
  | 0x6A => decode6A w
  | 0x6B => decode6B w
  | 0x70 => decode70 w
  | 0x71 => decode71 w
  | 0x72 => decode72 w
  | 0x73 => decode73 w
  | 0x7F => decode7F w
  | _ => .error .absentMajor

/-- Decoding (R37): total, and refusing by name. -/
def decode (w : IWord) : Except DecodeError Instr :=
  match decodeForm w with
  | .ok i => if i.wf then .ok i else .error .undefinedValue
  | .error e => .error e

/-- A field placed at bit `lo` of a word. -/
def plus {n : Nat} (w : Nat) (x : BitVec n) (lo : Nat) : Nat := w + x.toNat * 2 ^ lo

/-- The number of the word that encodes an instruction; a step of another agent has no word. -/
def encodeNat : Instr → Option Nat
  | .ill n => some (plus 0x00000000 n 0)
  | .br d => some (plus 0x02000000 d 1)
  | .brLanes k d => some (plus (plus 0x02080000 k 22) d 1)
  | .brAny k d => some (plus (plus 0x02100000 k 22) d 1)
  | .brAll k d => some (plus (plus 0x02180000 k 22) d 1)
  | .brNone k d => some (plus (plus 0x02200000 k 22) d 1)
  | .brsZ a d => some (plus (plus 0x04000000 a 20) d 1)
  | .brsNz a d => some (plus (plus 0x04040000 a 20) d 1)
  | .brsNeg a d => some (plus (plus 0x04080000 a 20) d 1)
  | .brsNneg a d => some (plus (plus 0x040C0000 a 20) d 1)
  | .call d => some (plus 0x06000000 d 1)
  | .jr a c => some (plus (plus 0x08000000 a 12) c 0)
  | .jrl a c => some (plus (plus 0x08400000 a 12) c 0)
  | .ret c => some (plus 0x08800000 c 0)
  | .joinat d => some (plus 0x0A000000 d 1)
  | .yield d n c => some (plus (plus (plus 0x0C000000 d 20) n 1) c 0)
  | .exit => some 0x0E000000
  | .barArrive d a b c => some (plus (plus (plus (plus 0x10000000 d 17) a 12) b 1) c 0)
  | .barWait a b c => some (plus (plus (plus 0x10400000 a 12) b 1) c 0)
  | .barSync a b c => some (plus (plus (plus 0x10800000 a 12) b 1) c 0)
  | .barQuery d b c => some (plus (plus (plus 0x10C00000 d 17) b 1) c 0)
  | .trap n => some (plus 0x12000000 n 1)
  | .rte => some 0x12400000
  | .sget d n c => some (plus (plus (plus 0x14000000 d 17) n 1) c 0)
  | .sset a n c => some (plus (plus (plus 0x14400000 a 12) n 1) c 0)
  | .spawn d a c => some (plus (plus (plus 0x18000000 d 17) a 12) c 0)
  | .launch d a c => some (plus (plus (plus 0x18400000 d 17) a 12) c 0)
  | .tabortRetry a c => some (plus (plus 0x18800000 a 12) c 0)
  | .tabortDrop a c => some (plus (plus 0x18C00000 a 12) c 0)
  | .depset a b c => some (plus (plus (plus 0x1A000000 a 12) b 7) c 0)
  | .depdec d a b c => some (plus (plus (plus (plus 0x1A400000 d 17) a 12) b 7) c 0)
  | .depread d a c => some (plus (plus (plus 0x1A800000 d 17) a 12) c 0)
  | .qinit a q c => some (plus (plus (plus 0x1C000000 a 12) q 7) c 0)
  | .qpush a q c => some (plus (plus (plus 0x1C400000 a 12) q 7) c 0)
  | .qpop d q c => some (plus (plus (plus 0x1C800000 d 17) q 7) c 0)
  | .qtry d q c => some (plus (plus (plus 0x1CC00000 d 17) q 7) c 0)
  | .sadd d a b c => some (plus (plus (plus (plus 0x20000000 d 17) a 12) b 7) c 0)
  | .ssub d a b c => some (plus (plus (plus (plus 0x20400000 d 17) a 12) b 7) c 0)
  | .sand d a b c => some (plus (plus (plus (plus 0x20800000 d 17) a 12) b 7) c 0)
  | .sor d a b c => some (plus (plus (plus (plus 0x20C00000 d 17) a 12) b 7) c 0)
  | .sxor d a b c => some (plus (plus (plus (plus 0x21000000 d 17) a 12) b 7) c 0)
  | .sshl d a b c => some (plus (plus (plus (plus 0x21400000 d 17) a 12) b 7) c 0)
  | .sshr d a b c => some (plus (plus (plus (plus 0x21800000 d 17) a 12) b 7) c 0)
  | .ssra d a b c => some (plus (plus (plus (plus 0x21C00000 d 17) a 12) b 7) c 0)
  | .smul d a b c => some (plus (plus (plus (plus 0x22000000 d 17) a 12) b 7) c 0)
  | .smulh d a b c => some (plus (plus (plus (plus 0x22400000 d 17) a 12) b 7) c 0)
  | .smulhn d a b c => some (plus (plus (plus (plus 0x22800000 d 17) a 12) b 7) c 0)
  | .sdiv d a b c => some (plus (plus (plus (plus 0x22C00000 d 17) a 12) b 7) c 0)
  | .sdivn d a b c => some (plus (plus (plus (plus 0x23000000 d 17) a 12) b 7) c 0)
  | .srem d a b c => some (plus (plus (plus (plus 0x23400000 d 17) a 12) b 7) c 0)
  | .sremn d a b c => some (plus (plus (plus (plus 0x23800000 d 17) a 12) b 7) c 0)
  | .scmp o d a b c => some (plus (plus (plus (plus (plus 0x24000000 o 22) d 17) a 12) b 7) c 0)
  | .smin d a b c => some (plus (plus (plus (plus 0x26000000 d 17) a 12) b 7) c 0)
  | .smax d a b c => some (plus (plus (plus (plus 0x26400000 d 17) a 12) b 7) c 0)
  | .sminn d a b c => some (plus (plus (plus (plus 0x26800000 d 17) a 12) b 7) c 0)
  | .smaxn d a b c => some (plus (plus (plus (plus 0x26C00000 d 17) a 12) b 7) c 0)
  | .sclz d a c => some (plus (plus (plus 0x27000000 d 17) a 12) c 0)
  | .sctz d a c => some (plus (plus (plus 0x27400000 d 17) a 12) c 0)
  | .spopc d a c => some (plus (plus (plus 0x27800000 d 17) a 12) c 0)
  | .saddi d a i c => some (plus (plus (plus (plus 0x28000000 d 20) a 15) i 1) c 0)
  | .sandi d a i c => some (plus (plus (plus (plus 0x2A000000 d 20) a 15) i 1) c 0)
  | .sori d a i c => some (plus (plus (plus (plus 0x2C000000 d 20) a 15) i 1) c 0)
  | .sxori d a i c => some (plus (plus (plus (plus 0x2E000000 d 20) a 15) i 1) c 0)
  | .sshli d a n c => some (plus (plus (plus (plus 0x30000000 d 20) a 15) n 1) c 0)
  | .sshri d a n c => some (plus (plus (plus (plus 0x30000080 d 20) a 15) n 1) c 0)
  | .ssrai d a n c => some (plus (plus (plus (plus 0x30000100 d 20) a 15) n 1) c 0)
  | .sld d a i c => some (plus (plus (plus (plus 0x32000000 d 20) a 15) i 1) c 0)
  | .sst d a i c => some (plus (plus (plus (plus 0x34000000 d 20) a 15) i 1) c 0)
  | .sldk k a i c => some (plus (plus (plus (plus 0x36000000 k 20) a 15) i 1) c 0)
  | .vadd k d a b t c => some (plus (plus (plus (plus (plus (plus 0x40000000 k 22) d 16) a 10) b 4) t 1) c 0)
  | .vaddSat k d a b t c => some (plus (plus (plus (plus (plus (plus 0x40000008 k 22) d 16) a 10) b 4) t 1) c 0)
  | .vsub k d a b t c => some (plus (plus (plus (plus (plus (plus 0x42000000 k 22) d 16) a 10) b 4) t 1) c 0)
  | .vsubSat k d a b t c => some (plus (plus (plus (plus (plus (plus 0x42000008 k 22) d 16) a 10) b 4) t 1) c 0)
  | .vmul k d a b t c => some (plus (plus (plus (plus (plus (plus 0x44000000 k 22) d 16) a 10) b 4) t 1) c 0)
  | .vmulh k d a b t c => some (plus (plus (plus (plus (plus (plus 0x46000000 k 22) d 16) a 10) b 4) t 1) c 0)
  | .vmin k d a b t c => some (plus (plus (plus (plus (plus (plus 0x48000000 k 22) d 16) a 10) b 4) t 2) c 0)
  | .vmax k d a b t c => some (plus (plus (plus (plus (plus (plus 0x48000002 k 22) d 16) a 10) b 4) t 2) c 0)
  | .vand k d a b c => some (plus (plus (plus (plus (plus 0x4A000000 k 22) d 16) a 10) b 4) c 0)
  | .vor k d a b c => some (plus (plus (plus (plus (plus 0x4A000002 k 22) d 16) a 10) b 4) c 0)
  | .vxor k d a b c => some (plus (plus (plus (plus (plus 0x4A000004 k 22) d 16) a 10) b 4) c 0)
  | .vandn k d a b c => some (plus (plus (plus (plus (plus 0x4A000006 k 22) d 16) a 10) b 4) c 0)
  | .vmov k d a c => some (plus (plus (plus (plus 0x4A000008 k 22) d 16) a 10) c 0)
  | .vshl k d a b t c => some (plus (plus (plus (plus (plus (plus 0x4C000000 k 22) d 16) a 10) b 4) t 1) c 0)
  | .vshr k d a b t c => some (plus (plus (plus (plus (plus (plus 0x4C000004 k 22) d 16) a 10) b 4) t 1) c 0)
  | .vsra k d a b t c => some (plus (plus (plus (plus (plus (plus 0x4C000008 k 22) d 16) a 10) b 4) t 1) c 0)
  | .vmovi k d t i c => some (plus (plus (plus (plus (plus 0x4E000000 k 22) d 16) t 10) i 1) c 0)
  | .vaddi k d a i c => some (plus (plus (plus (plus (plus 0x50000000 k 22) d 16) a 10) i 1) c 0)
  | .vshiL k d a n c => some (plus (plus (plus (plus (plus 0x52000000 k 22) d 16) a 10) n 1) c 0)
  | .vshiR k d a n c => some (plus (plus (plus (plus (plus 0x52000100 k 22) d 16) a 10) n 1) c 0)
  | .vshiRa k d a n c => some (plus (plus (plus (plus (plus 0x52000200 k 22) d 16) a 10) n 1) c 0)
  | .vcmp k d a b o c => some (plus (plus (plus (plus (plus (plus 0x54000000 k 22) d 16) a 10) b 4) o 1) c 0)
  | .vcmp64 k d a b o c => some (plus (plus (plus (plus (plus (plus 0x56000000 k 22) d 16) a 10) b 4) o 1) c 0)
  | .vsel s d a b c => some (plus (plus (plus (plus (plus 0x58000000 s 22) d 16) a 10) b 4) c 0)
  | .vbcast k d a t c => some (plus (plus (plus (plus (plus 0x58000002 k 22) d 16) a 10) t 4) c 0)
  | .vlane k d c => some (plus (plus (plus 0x58000004 k 22) d 16) c 0)
  | .vsget d a b c => some (plus (plus (plus (plus 0x58000006 d 16) a 10) b 4) c 0)
  | .vsput k d a b c => some (plus (plus (plus (plus (plus 0x58000008 k 22) d 16) a 10) b 4) c 0)
  | .vzipI8 k d a b c => some (plus (plus (plus (plus (plus 0x5A000000 k 22) d 16) a 10) b 4) c 0)
  | .vzipI16 k d a b c => some (plus (plus (plus (plus (plus 0x5A000002 k 22) d 16) a 10) b 4) c 0)
  | .vzipI32 k d a b c => some (plus (plus (plus (plus (plus 0x5A000004 k 22) d 16) a 10) b 4) c 0)
  | .vunzipI8 k d a b c => some (plus (plus (plus (plus (plus 0x5A000006 k 22) d 16) a 10) b 4) c 0)
  | .vunzipI16 k d a b c => some (plus (plus (plus (plus (plus 0x5A000008 k 22) d 16) a 10) b 4) c 0)
  | .vunzipI32 k d a b c => some (plus (plus (plus (plus (plus 0x5A00000A k 22) d 16) a 10) b 4) c 0)
  | .vwiden k d a w c => some (plus (plus (plus (plus (plus 0x5A00000C k 22) d 16) a 10) w 4) c 0)
  | .vnarrow k d a w c => some (plus (plus (plus (plus (plus 0x5A00000E k 22) d 16) a 10) w 4) c 0)
  | .vclz k d a t c => some (plus (plus (plus (plus (plus 0x5C000000 k 22) d 16) a 10) t 4) c 0)
  | .vpopc k d a t c => some (plus (plus (plus (plus (plus 0x5C000002 k 22) d 16) a 10) t 4) c 0)
  | .vbrev k d a t c => some (plus (plus (plus (plus (plus 0x5C000004 k 22) d 16) a 10) t 4) c 0)
  | .vrnenc k d a c => some (plus (plus (plus (plus 0x5E000000 k 22) d 16) a 10) c 0)
  | .vrndec k d a c => some (plus (plus (plus (plus 0x5E000002 k 22) d 16) a 10) c 0)
  | .vfadd k d a b t c => some (plus (plus (plus (plus (plus (plus 0x60000000 k 22) d 16) a 10) b 4) t 1) c 0)
  | .vfsub k d a b t c => some (plus (plus (plus (plus (plus (plus 0x62000000 k 22) d 16) a 10) b 4) t 1) c 0)
  | .vfmul k d a b t c => some (plus (plus (plus (plus (plus (plus 0x64000000 k 22) d 16) a 10) b 4) t 1) c 0)
  | .vfma k d a b t c => some (plus (plus (plus (plus (plus (plus 0x66000000 k 22) d 16) a 10) b 4) t 1) c 0)
  | .vfmin k d a b t c => some (plus (plus (plus (plus (plus (plus 0x68000000 k 22) d 16) a 10) b 4) t 3) c 0)
  | .vfmax k d a b t c => some (plus (plus (plus (plus (plus (plus 0x68000002 k 22) d 16) a 10) b 4) t 3) c 0)
  | .vfminnum k d a b t c => some (plus (plus (plus (plus (plus (plus 0x68000004 k 22) d 16) a 10) b 4) t 3) c 0)
  | .vfmaxnum k d a b t c => some (plus (plus (plus (plus (plus (plus 0x68000006 k 22) d 16) a 10) b 4) t 3) c 0)
  | .vfcmp k d a b o c => some (plus (plus (plus (plus (plus (plus 0x6A000000 k 22) d 16) a 10) b 4) o 1) c 0)
  | .vfcmpt k d a b t o c => some (plus (plus (plus (plus (plus (plus (plus 0x6C000000 k 22) d 16) a 10) b 4) t 3) o 1) c 0)
  | .vfcvt k d a w c => some (plus (plus (plus (plus (plus 0x6E000000 k 22) d 16) a 10) w 4) c 0)
  | .vsfu k d a f c => some (plus (plus (plus (plus (plus 0x70000000 k 22) d 16) a 10) f 1) c 0)
  | .vfabs k d a t c => some (plus (plus (plus (plus (plus 0x72000000 k 22) d 16) a 10) t 4) c 0)
  | .vfneg k d a t c => some (plus (plus (plus (plus (plus 0x72000002 k 22) d 16) a 10) t 4) c 0)
  | .vfround k d a t c => some (plus (plus (plus (plus (plus 0x72000004 k 22) d 16) a 10) t 4) c 0)
  | .kand k d a b c => some (plus (plus (plus (plus (plus 0x74000000 k 22) d 16) a 10) b 4) c 0)
  | .kor k d a b c => some (plus (plus (plus (plus (plus 0x74000002 k 22) d 16) a 10) b 4) c 0)
  | .kxor k d a b c => some (plus (plus (plus (plus (plus 0x74000004 k 22) d 16) a 10) b 4) c 0)
  | .kandn k d a b c => some (plus (plus (plus (plus (plus 0x74000006 k 22) d 16) a 10) b 4) c 0)
  | .kmovMask k d a c => some (plus (plus (plus (plus 0x74000008 k 22) d 16) a 10) c 0)
  | .kmovFromScalar k d a c => some (plus (plus (plus (plus 0x7400000A k 22) d 16) a 10) c 0)
  | .kmovToScalar d a c => some (plus (plus (plus 0x7400000C d 16) a 10) c 0)
  | .kpop d a c => some (plus (plus (plus 0x7400000E d 16) a 10) c 0)
  | .vshfl k d a b m z c => some (plus (plus (plus (plus (plus (plus (plus 0x80000000 k 22) d 16) a 10) b 4) m 2) z 1) c 0)
  | .vshfli k d a i c => some (plus (plus (plus (plus (plus 0x82000000 k 22) d 16) a 10) i 1) c 0)
  | .voteAny k d a c => some (plus (plus (plus (plus 0x84000000 k 22) d 16) a 10) c 0)
  | .voteAll k d a c => some (plus (plus (plus (plus 0x84000002 k 22) d 16) a 10) c 0)
  | .voteEq k d a c => some (plus (plus (plus (plus 0x84000004 k 22) d 16) a 10) c 0)
  | .voteBallot k d a c => some (plus (plus (plus (plus 0x84000006 k 22) d 16) a 10) c 0)
  | .xred k d a o t c => some (plus (plus (plus (plus (plus (plus 0x86000000 k 22) d 16) a 10) o 4) t 1) c 0)
  | .xscan k d a e o t c => some (plus (plus (plus (plus (plus (plus (plus 0x88000000 k 22) d 16) a 10) e 7) o 4) t 1) c 0)
  | .xmaxi k d a t c => some (plus (plus (plus (plus (plus 0x8A000000 k 22) d 16) a 10) t 1) c 0)
  | .gwidthW d c => some (plus (plus 0x8C000000 d 17) c 0)
  | .gwidthSm d c => some (plus (plus 0x8C400000 d 17) c 0)
  | .gwidthAm d c => some (plus (plus 0x8C800000 d 17) c 0)
  | .gwidthNa d c => some (plus (plus 0x8CC00000 d 17) c 0)
  | .cmrgPut a x c => some (plus (plus (plus 0x8E000000 a 12) x 1) c 0)
  | .cmrgGet d a x c => some (plus (plus (plus (plus 0x8E400000 d 17) a 12) x 1) c 0)
  | .cmrgReset a b c => some (plus (plus (plus 0x8E800000 a 12) b 7) c 0)
  | .mma p q a v w c => some (plus (plus (plus (plus (plus (plus 0x90000000 p 22) q 19) a 16) v 10) w 4) c 0)
  | .mmaZ p q a v w c => some (plus (plus (plus (plus (plus (plus 0x90000002 p 22) q 19) a 16) v 10) w 4) c 0)
  | .mmas p q a v w c => some (plus (plus (plus (plus (plus (plus 0x92000000 p 22) q 19) a 16) v 10) w 4) c 0)
  | .mmasZ p q a v w c => some (plus (plus (plus (plus (plus (plus 0x92000002 p 22) q 19) a 16) v 10) w 4) c 0)
  | .accZero a r c => some (plus (plus (plus 0x94000000 a 16) r 3) c 0)
  | .accRel a c => some (plus (plus 0x94000002 a 16) c 0)
  | .accMov a s c => some (plus (plus (plus 0x94000004 a 16) s 10) c 0)
  | .accoutI32 a d c => some (plus (plus (plus 0x96000000 a 16) d 10) c 0)
  | .accoutF32 p q a d w s c => some (plus (plus (plus (plus (plus (plus (plus 0x96000002 p 22) q 19) a 16) d 10) w 4) s 2) c 0)
  | .accin a s f c => some (plus (plus (plus (plus 0x98000000 a 16) s 10) f 1) c 0)
  | .accst a b g c => some (plus (plus (plus (plus 0x9A000000 a 16) b 11) g 2) c 0)
  | .accld a b g c => some (plus (plus (plus (plus 0x9A000002 a 16) b 11) g 2) c 0)
  | .ldl k t b o p l n c => some (plus (plus (plus (plus (plus (plus (plus (plus 0xA0000000 k 22) t 16) b 11) o 5) p 3) l 2) n 1) c 0)
  | .stl k t b o p l n c => some (plus (plus (plus (plus (plus (plus (plus (plus 0xA2000000 k 22) t 16) b 11) o 5) p 3) l 2) n 1) c 0)
  | .ldfrag k t b p r h c => some (plus (plus (plus (plus (plus (plus (plus 0xA4000000 k 22) t 16) b 11) p 3) r 2) h 1) c 0)
  | .stfrag k t b v s c => some (plus (plus (plus (plus (plus (plus 0xA6000000 k 22) t 16) b 11) v 4) s 1) c 0)
  | .catom o t b v z s => some (plus (plus (plus (plus (plus (plus 0xA8000000 o 22) t 16) b 11) v 5) z 4) s 0)
  | .catomExch t b v z s => some (plus (plus (plus (plus (plus 0xA8000008 t 16) b 11) v 5) z 4) s 0)
  | .catomCas t b v z s => some (plus (plus (plus (plus (plus 0xA8400008 t 16) b 11) v 5) z 4) s 0)
  | .gld k t b o f c => some (plus (plus (plus (plus (plus (plus 0xB0000000 k 22) t 16) b 11) o 5) f 1) c 0)
  | .gldF6p k t b o c => some (plus (plus (plus (plus (plus 0xB000000E k 22) t 16) b 11) o 5) c 0)
  | .gst k t b o z c => some (plus (plus (plus (plus (plus (plus 0xB2000000 k 22) t 16) b 11) o 5) z 1) c 0)
  | .gstF6p k t b o c => some (plus (plus (plus (plus (plus 0xB2000008 k 22) t 16) b 11) o 5) c 0)
  | .gstFs k t b o s c => some (plus (plus (plus (plus (plus (plus 0xB2000010 k 22) t 16) b 11) o 5) s 1) c 0)
  | .gatom o t b v n z s => some (plus (plus (plus (plus (plus (plus (plus 0xB4000000 o 22) t 16) b 11) v 5) n 4) z 3) s 0)
  | .gexch t b v z s => some (plus (plus (plus (plus (plus 0xB6000000 t 16) b 11) v 5) z 3) s 0)
  | .gcas t b v z s => some (plus (plus (plus (plus (plus 0xB6400000 t 16) b 11) v 5) z 3) s 0)
  | .gredF f q u t b v o p => some (plus (plus (plus (plus (plus (plus (plus (plus 0xB8000000 f 24) q 23) u 22) t 16) b 11) v 5) o 3) p 0)
  | .gredRn t b v x p => some (plus (plus (plus (plus (plus 0xBA000000 t 16) b 11) v 5) x 3) p 0)
  | .gpf k b o g c => some (plus (plus (plus (plus (plus 0xBC000000 k 22) b 11) o 5) g 1) c 0)
  | .tcopy d a c => some (plus (plus (plus 0xC0000000 d 17) a 12) c 0)
  | .tgath d a b x c => some (plus (plus (plus (plus (plus 0xC2000000 d 17) a 12) b 7) x 1) c 0)
  | .trag d a c => some (plus (plus (plus 0xC4000000 d 17) a 12) c 0)
  | .tstat d a c => some (plus (plus (plus 0xC6000000 d 17) a 12) c 0)
  | .tstatGal d a b c => some (plus (plus (plus (plus 0xC6400000 d 17) a 12) b 7) c 0)
  | .enew d a c => some (plus (plus (plus 0xC8000000 d 17) a 12) c 0)
  | .efree a c => some (plus (plus 0xC8400000 a 12) c 0)
  | .eins u v s a b x c => some (plus (plus (plus (plus (plus (plus (plus 0xCA000000 u 24) v 23) s 17) a 12) b 7) x 1) c 0)
  | .eapp u v s a b x c => some (plus (plus (plus (plus (plus (plus (plus 0xCA400000 u 24) v 23) s 17) a 12) b 7) x 1) c 0)
  | .edel s a b c => some (plus (plus (plus (plus 0xCC000000 s 17) a 12) b 7) c 0)
  | .esplit d a b c => some (plus (plus (plus (plus 0xCE000000 d 17) a 12) b 7) c 0)
  | .ecat d a b c => some (plus (plus (plus (plus 0xCE400000 d 17) a 12) b 7) c 0)
  | .emark s a b c => some (plus (plus (plus (plus 0xD0000000 s 17) a 12) b 7) c 0)
  | .eanch d a b c => some (plus (plus (plus (plus 0xD0400000 d 17) a 12) b 7) c 0)
  | .erank d a c => some (plus (plus (plus 0xD0800000 d 17) a 12) c 0)
  | .erankH d a c => some (plus (plus (plus 0xD0C00000 d 17) a 12) c 0)
  | .edrop a c => some (plus (plus 0xD1000000 a 12) c 0)
  | .elen d a c => some (plus (plus (plus 0xD2000000 d 17) a 12) c 0)
  | .einfo d a b c => some (plus (plus (plus (plus 0xD2400000 d 17) a 12) b 7) c 0)
  | .eld k t b o x c => some (plus (plus (plus (plus (plus (plus 0xD4000000 k 22) t 16) b 11) o 5) x 1) c 0)
  | .est k t b o c => some (plus (plus (plus (plus (plus 0xD6000000 k 22) t 16) b 11) o 5) c 0)
  | .fenceAcq s c => some (plus (plus 0xE0400000 s 1) c 0)
  | .fenceRel s c => some (plus (plus 0xE0800000 s 1) c 0)
  | .fenceAcqrel s c => some (plus (plus 0xE0C00000 s 1) c 0)
  | .sbind d s c => some (plus (plus (plus 0xE2000000 d 17) s 1) c 0)
  | .sbindClr s c => some (plus (plus 0xE2400000 s 1) c 0)
  | .swr d a b c => some (plus (plus (plus (plus 0xE4000000 d 17) a 12) b 7) c 0)
  | .srd d a b c => some (plus (plus (plus (plus 0xE4400000 d 17) a 12) b 7) c 0)
  | .icinv s c => some (plus (plus 0xE6000000 s 1) c 0)
  | .hintImm p => some (plus 0xFE000000 p 0)
  | .hintVc f v r g n => some (plus (plus (plus (plus (plus 0xFE400000 f 21) v 15) r 9) g 3) n 0)
  | .hintOrd o => some (plus 0xFE800000 o 0)
  | .hintSched s => some (plus 0xFEC00000 s 0)
  | .hintOff o => some (plus 0xFF000000 o 0)
  | .copyFrameTake _ _ _ => none
  | .copyElementMove _ _ => none
  | .frameReturn _ _ _ => none
  | .copyCompletionRelease _ _ => none
  | .tokenWrite _ _ => none
  | .copyStop _ _ _ => none
  | .pageWalk _ _ _ _ _ => none
  | .faultQueuePost _ => none
  | .instructionReplay _ _ => none
  | .sectorFill _ _ _ => none
  | .lineEviction _ _ _ => none
  | .releaseCompletion _ _ => none
  | .classTStoreAck _ _ => none
  | .homeSliceAtomic _ _ _ _ _ => none
  | .accUnitsReturn _ _ => none
  | .surgeWindow _ => none
  | .surgeRamp _ _ _ => none
  | .rlbMissWalk _ _ _ _ => none
  | .rtuOperation _ => none
  | .compactorMove _ _ _ => none
  | .rcgEpochEnd _ => none
  | .watchdog _ _ _ => none
  | .deadlineExpiry _ => none
  | .handlerEntry _ _ _ _ _ => none
  | .teamEndForFault _ _ => none
  | .teamDispatch _ _ => none
  | .taskDispatch _ _ => none
  | .teamRetirement _ => none
  | .teamDiscard _ _ => none
  | .gridEnd _ => none
  | .preempt _ => none
  | .teamRestore _ _ => none
  | .teamMigrate _ _ _ => none
  | .sliceEnd _ _ => none
  | .doorbellTailWrite _ _ => none
  | .respRetry _ _ => none
  | .respFail _ _ => none
  | .fqheadWrite _ _ => none
  | .tlbictlGo _ _ => none
  | .tlbiDone _ => none
  | .l2partWrite _ _ => none
  | .qownWrite _ _ _ => none
  | .configBlockWrite _ _ _ _ => none
  | .migctlFlush _ => none
  | .fsctlClr => none
  | .registerWrite _ _ _ _ => none
  | .hostLoad _ _ _ => none
  | .hostStore _ _ _ _ => none
  | .hostAtomic _ _ _ _ _ _ => none
  | .remoteAccess _ _ _ _ _ _ => none
  | .railDown _ => none
  | .packageDeclaredFailed _ => none
  | .gpop _ => none
  | .belvedereSpawn _ _ => none
  | .dset _ _ => none
  | .ddec _ _ => none
  | .belvedereAccess _ _ _ _ _ => none
  | .gateOpenEntry _ => none
  | .gateRouteEntry _ => none
  | .gateFlushEntry _ => none
  | .cellReceive _ _ => none
  | .rowDelivery _ _ => none
  | .cellResend _ _ _ _ _ => none
  | .powerOn _ => none
  | .packageReset => none
  | .spdmGetMeasurements _ => none
  | .kioskResetRequest => none
  | .kioskPowerCap _ => none
  | .kioskReport => none
  | .powerLoss => none
  | .uncorrectableSoftError _ _ => none
  | .fatalInternalError _ _ => none
  | .cellAcknowledged _ _ _ _ _ => none
  | .invalidationReachesCore _ _ => none

/-- The word of an instruction (R17). -/
def encode (i : Instr) : Option IWord := (encodeNat i).map (BitVec.ofNat 32)

/-- The instruction read from the `nbits` bits of `w`, numbered as the opcode table numbers them; bits above are zero. -/
def decodeTableWord (nbits w : Nat) : Option Instr :=
  match decode (BitVec.ofNat 32 (w % 2 ^ nbits)) with
  | .ok i => some i
  | .error _ => none

end Sys2Proof
end

