-- ==== Sys2Proof/Config.lean ====
section
/-! DEFINITION. What an implementation fixes and the values that the spec leaves free. A free value is an opaque constant: no
proof can see what it is. Values that a state consumes in turn are applied to the state's step counter. -/

namespace Sys2Proof.Config

/-- Which of the moves that are possible comes next (R27, R71, R297, R304 leave it open within their bounds). -/
opaque pick : Nat → Nat

/-- Further cycles that pass on a die during a step (R14: the rates of steps are not defined). -/
opaque stepCycles : Nat → Nat → Nat

/-- Nanoseconds of a die's reference counter that pass during a step (R14, R145). -/
opaque stepNs : Nat → Nat → Nat

/-- The choice of a free name: array index, anchor ID, grid identifier, task slot, fault-area block, fault-queue tag
(R69, R70, R144, R317, R345, R63: the device chooses and no program may rely on the choice). -/
opaque fresh : Nat → Nat

/-- SHA3-256 (R382, R383 name the function; the spec does not give it). -/
opaque sha3 : List Byte → BitVec 256

/-- ML-DSA-44 verification of a signature over a digest (R382). -/
opaque verify : List Byte → BitVec 256 → Bool

/-- ML-DSA-44 signature by the identity key of a digest (R383). -/
opaque sign : BitVec 256 → BitVec 256 → List Byte

/-- The identity key that the physically unclonable function yields at a reset (R383). -/
opaque identityKey : Nat → BitVec 256

/-- What a configuration blob or a firmware image holds, whose format the spec does not give (R39, R366, R368, R382): 0 package number,
1 domain membership, 2 entry of the resident routine, 3 address of the first capability entry, 4 and 5 the marked major opcodes, 6 the
physical address at which the capability list stands. -/
opaque imageField : List Byte → Nat → Word

/-- Whether a unit of the resident routine, by its word and the step, stands for the emulated instruction, so that its fault is one
that the emulated instruction raises (R368; the routine is not in the spec). -/
opaque emulates : BitVec 32 → Nat → Bool

/-- Whether a Belvedere image is the vendor's firmware, whose behaviour the spec gives, or replacement firmware (R326). -/
opaque vendorFirmware : List Byte → Bool

/-- Temperatures, power and island frequencies as the Kiosk measures them (R385). -/
opaque reading : Nat → Nat → Word

/-- Bytes of the save image of a team, by step (R357: its format is not visible to programs). -/
opaque imageSize : Nat → Nat

/-- A value that the spec does not state, by site and step. Site 0: the grid identifier that a task reads (R144). Sites 1 and 2: the
cycle and instruction counters of a Belvedere core (R326). Sites 3 and 4: the leaf entry and the function of an access that another
package has translated (R53, R379). Site 5: the bytes of a save image (R357). -/
opaque freeWord : Nat → Nat → Word

end Sys2Proof.Config
end

