-- ==== Sys2Proof/Machine/Maps.lean ====
section
/-! DEFINITION. Finite maps as plain data: lists of key and value pairs with strictly rising keys. `SMap` holds records, `ZMap`
holds bit vectors in one canonical form in which an entry equal to zero is not listed, so equal maps are equal lists.
Memory is the `ZMap` of bytes: an unlisted address reads as zero (assumption 1). -/

namespace Sys2Proof.Machine

/-- A finite map from numbers to records, keys strictly rising. -/
abbrev SMap (α : Type) := List (Nat × α)

/-- The value under a key, if the key is listed. -/
def SMap.get? {α : Type} : SMap α → Nat → Option α
  | [], _ => none
  | (k, v) :: m, j => if k = j then some v else SMap.get? m j

/-- The value under a key, or the default. -/
def SMap.getD {α : Type} (m : SMap α) (j : Nat) (d : α) : α := (SMap.get? m j).getD d

/-- Lists the value under the key, replacing what was there. -/
def SMap.set {α : Type} : SMap α → Nat → α → SMap α
  | [], j, v => [(j, v)]
  | (k, w) :: m, j, v =>
    if j = k then (j, v) :: m else if j < k then (j, v) :: (k, w) :: m else (k, w) :: SMap.set m j v

/-- Removes every entry of the key. -/
def SMap.erase {α : Type} : SMap α → Nat → SMap α
  | [], _ => []
  | (k, w) :: m, j => if k = j then SMap.erase m j else (k, w) :: SMap.erase m j

/-- Changes the value under the key where the key is listed. -/
def SMap.modify {α : Type} (m : SMap α) (j : Nat) (f : α → α) : SMap α :=
  m.map fun (k, v) => if k = j then (k, f v) else (k, v)

/-- Changes every value. -/
def SMap.mapVals {α : Type} (m : SMap α) (f : Nat → α → α) : SMap α := m.map fun (k, v) => (k, f k v)

/-- The least key from `j` upward that is not listed (the keys rise). -/
def SMap.freshFrom {α : Type} : SMap α → Nat → Nat
  | [], j => j
  | (k, _) :: m, j => if k = j then SMap.freshFrom m (j + 1) else SMap.freshFrom m j

/-- The keys rise strictly. -/
def SMap.wf {α : Type} : SMap α → Bool
  | [] => true
  | [_] => true
  | (k, _) :: (k', v') :: m => decide (k < k') && SMap.wf ((k', v') :: m)

/-- A finite map from numbers to bit vectors in which an unlisted key holds zero. -/
abbrev ZMap (w : Nat) := List (Nat × BitVec w)

/-- The value under a key: zero where the key is not listed. -/
def ZMap.get {w : Nat} : ZMap w → Nat → BitVec w
  | [], _ => 0
  | (k, v) :: m, j => if k = j then v else ZMap.get m j

/-- Drops every entry of the key. -/
def ZMap.drop {w : Nat} : ZMap w → Nat → ZMap w
  | [], _ => []
  | (k, v) :: m, j => if k = j then ZMap.drop m j else (k, v) :: ZMap.drop m j

/-- Lists a value that is not zero under the key. -/
def ZMap.put {w : Nat} : ZMap w → Nat → BitVec w → ZMap w
  | [], j, v => [(j, v)]
  | (k, u) :: m, j, v =>
    if j = k then (j, v) :: m else if j < k then (j, v) :: (k, u) :: m else (k, u) :: ZMap.put m j v

/-- Writes a value under the key: writing zero removes the entry, so the form stays canonical. -/
def ZMap.set {w : Nat} (m : ZMap w) (j : Nat) (v : BitVec w) : ZMap w :=
  if v = 0 then ZMap.drop m j else ZMap.put m j v

/-- The canonical form: keys strictly rising and no entry equal to zero. -/
def ZMap.wf {w : Nat} : ZMap w → Bool
  | [] => true
  | [(_, v)] => decide (v ≠ 0)
  | (k, v) :: (k', v') :: m => decide (v ≠ 0) && decide (k < k') && ZMap.wf ((k', v') :: m)

/-- Writes each listed value at its key, in order. -/
def ZMap.setAll {w : Nat} (m : ZMap w) (l : List (Nat × BitVec w)) : ZMap w :=
  l.foldl (fun m p => ZMap.set m p.1 p.2) m

/-- The entries with keys in `lo` to `lo + n - 1`, rebased to start at zero. -/
def ZMap.window {w : Nat} (m : ZMap w) (lo n : Nat) : ZMap w :=
  (m.filter fun p => decide (lo ≤ p.1) && decide (p.1 < lo + n)).map fun p => (p.1 - lo, p.2)

/-- Memory: bytes by address (R3, R249). -/
abbrev Memory := ZMap 8

/-- The bytes at `a`, lowest address first. -/
def Memory.bytes (m : Memory) (a : Nat) : Nat → List Byte
  | 0 => []
  | n + 1 => ZMap.get m a :: Memory.bytes m (a + 1) n

/-- Writes bytes from `a` upward. -/
def Memory.store (m : Memory) (a : Nat) : List Byte → Memory
  | [] => m
  | b :: bs => Memory.store (ZMap.set m a b) (a + 1) bs

/-- The canonical form of memory. -/
abbrev Memory.wf (m : Memory) : Bool := ZMap.wf m

end Sys2Proof.Machine
end

