-- ==== Sys2Proof/Machine/Bits.lean ====
section
/-! DEFINITION. Bit slices, sign extension, sub-elements, lane lists and the little-endian order of bytes (R3, R4, R5, R131). -/

namespace Sys2Proof.Machine

/-- `x[hi:lo]` read as an unsigned integer (R4). -/
def slice {w : Nat} (x : BitVec w) (hi lo : Nat) : Nat := (x.toNat >>> lo) % 2 ^ (hi + 1 - lo)

/-- Bit `i` of x. -/
def bit {w : Nat} (x : BitVec w) (i : Nat) : Bool := x.getLsbD i

/-- The b-bit field n, sign-extended to an integer (R5). -/
def sext (n b : Nat) : Int := if n % 2 ^ b < 2 ^ (b - 1) then (n % 2 ^ b : Nat) else ((n % 2 ^ b : Nat) : Int) - (2 ^ b : Nat)

/-- An integer modulo 2^w. -/
def ofInt (w : Nat) (x : Int) : BitVec w := BitVec.ofInt w x

/-- Sub-element j of the word w, for sub-elements of b bits (R4). -/
def elem (w : Word) (j b : Nat) : Nat := (w.toNat >>> (b * j)) % 2 ^ b

/-- The word with sub-element j set to `x mod 2^b` (R4). -/
def setElem (w : Word) (j b x : Nat) : Word :=
  BitVec.ofNat 64 (w.toNat - (elem w j b) * 2 ^ (b * j) + (x % 2 ^ b) * 2 ^ (b * j))

/-- The word whose sub-elements of b bits are those of the list, the first in the low bits. -/
def packNat (b : Nat) : List Nat → Nat
  | [] => 0
  | x :: xs => x % 2 ^ b + 2 ^ b * packNat b xs

/-- The 64-bit word of the listed sub-elements. -/
def pack (b : Nat) (l : List Nat) : Word := BitVec.ofNat 64 (packNat b l)

/-- A word formed sub-element by sub-element: `64 div b` of them (R131). -/
def mapElems (b : Nat) (f : Nat → Nat) : Word := pack b ((List.range (64 / b)).map f)

/-- The lanes of a mask, ascending (R5). -/
def lanesOf (m : Mask) : List Nat := (List.range 64).filter fun i => m.getLsbD i

/-- The mask that holds exactly lane L. -/
def laneBit (l : Nat) : Mask := BitVec.ofNat 64 (2 ^ l)

/-- The mask of the listed lanes. -/
def maskOf (l : List Nat) : Mask := l.foldl (fun m i => m ||| laneBit i) 0

/-- The mask of lanes 0 to w - 1. -/
def fullMask (w : Nat) : Mask := BitVec.ofNat 64 (2 ^ w - 1)

/-- Number of set bits of the low n bits. -/
def popcountN (x : Nat) : Nat → Nat
  | 0 => 0
  | n + 1 => (if x.testBit n then 1 else 0) + popcountN x n

/-- Number of set bits. -/
def popcount {w : Nat} (x : BitVec w) : Nat := popcountN x.toNat w

/-- Leading zeros of the low n bits. -/
def clzN (x : Nat) : Nat → Nat
  | 0 => 0
  | n + 1 => if x.testBit n then 0 else clzN x n + 1

/-- Trailing zeros of x, at most n. -/
def ctzN (x : Nat) : Nat → Nat
  | 0 => 0
  | n + 1 => if x % 2 = 1 then 0 else ctzN (x / 2) n + 1

/-- The low n bits of x in reverse order. -/
def revBits (x : Nat) : Nat → Nat
  | 0 => 0
  | n + 1 => (x % 2) * 2 ^ n + revBits (x / 2) n

/-- Little-endian bytes of an unsigned integer (R3). -/
def toBytes (x : Nat) : Nat → List Byte
  | 0 => []
  | n + 1 => BitVec.ofNat 8 x :: toBytes (x / 256) n

/-- The unsigned integer of little-endian bytes (R3). -/
def ofBytes : List Byte → Nat
  | [] => 0
  | b :: bs => b.toNat + 256 * ofBytes bs

/-- The value clamped to an interval. -/
def clamp (x lo hi : Int) : Int := if x < lo then lo else if hi < x then hi else x

/-- An integer as an unsigned number modulo 2^b. -/
def modPow (x : Int) (b : Nat) : Nat := (x % ((2 ^ b : Nat) : Int)).toNat

/-- The slice set of a lane mask: the slices, 0 to 7, with at least one of the lanes (R276). -/
def slicesOf (m : Mask) : List Nat := (List.range 8).filter fun i => decide ((m.toNat >>> (8 * i)) % 256 ≠ 0)

/-- The slice mask, bit i for slice i. -/
def sliceMask (m : Mask) : Nat := (slicesOf m).foldl (fun a i => a + 2 ^ i) 0

/-- The lanes of slice i. -/
def sliceLanes (i : Nat) : Mask := BitVec.ofNat 64 (255 * 2 ^ (8 * i))

/-- The lanes of every slice that the mask touches. -/
def wholeSlices (m : Mask) : Mask := (slicesOf m).foldl (fun a i => a ||| sliceLanes i) 0

/-- The k-th number, counted from 0, that is not in the rising list. -/
def nthFree : Nat → List Nat → Nat
  | k, [] => k
  | k, u :: us => if u ≤ k then nthFree (k + 1) us else k

/-- Insertion into a rising list of numbers without repeats. -/
def insertNat (x : Nat) : List Nat → List Nat
  | [] => [x]
  | y :: ys => if x < y then x :: y :: ys else if x = y then y :: ys else y :: insertNat x ys

/-- The least common form: a list of numbers sorted and without repeats. -/
def sortNats (l : List Nat) : List Nat := l.foldl (fun a x => insertNat x a) []

/-- Smallest power of two at least n, searched over `fuel` doublings from 1. -/
def pow2Above (n : Nat) : Nat → Nat
  | 0 => 1
  | f + 1 => if 1 ≥ n then 1 else 2 * pow2Above ((n + 1) / 2) f

end Sys2Proof.Machine
end

