-- ==== Sys2Proof/Machine/Caps.lean ====
section
/-! DEFINITION. The capability list (R366, R367). -/

namespace Sys2Proof.Machine

/-- An entry of the capability list (R366): ID, VERSION 1 (R367), LEN, NEXT and the payload. -/
def capsEntry (id : Nat) (next : Word) (payload : List Byte) : List Byte :=
  toBytes id 2 ++ toBytes 1 2 ++ toBytes (16 + payload.length) 4 ++ toBytes next.toNat 8 ++ payload

/-- The capability list of a VF-9400 whose first entry has the given address (R367): device, emulation, save and digest, one after
the other (assumption 87). -/
def capsList (base : Word) (emulated : BitVec 128) : List Byte :=
  capsEntry 1 (base + 24) (toBytes 0x9400 2 ++ toBytes 4 1 ++ toBytes 8 1 ++ toBytes 256 2 ++ toBytes 0 2)
    ++ capsEntry 2 (base + 56) (toBytes emulated.toNat 16)
    ++ capsEntry 3 (base + 80) (toBytes 2686976 8)
    ++ capsEntry 4 0 (toBytes 1 8)

/-- Memory whose listed bytes are those of the capability list at a physical address. -/
def capsMemory (pa : Nat) (base : Word) (emulated : BitVec 128) : Memory := Memory.store [] pa (capsList base emulated)

/-- Where the capability list stands in the machine right after reset: its virtual and its physical address, the last page of the lower
half of a context's space and of the package's HBM (DESIGN CHOICE, assumption 87). -/
def resetCaps : Word := 0x3FFFFFFFFF0000
/-- The physical address of the list after reset (DESIGN CHOICE, assumption 87). -/
abbrev resetCapsPa : Nat := 0x7FFFFF0000

end Sys2Proof.Machine
end

