-- ==== Sys2Proof/Machine/State.lean ====
section
/-! DEFINITION. The state of one VF-9400 package, as plain data: every register, table, queue and memory that the spec names
(INVENTORY.md, '## State'), the plain data that say what moves next, and the machine right after reset. -/

namespace Sys2Proof.Machine

/-- Names one entry of one gang's split table: team, gang index, entry number (R276, R277). -/
structure Ref where
  team : Nat
  gang : Nat
  frag : Nat
deriving DecidableEq, Repr

/-- A hint word that the fragment has fetched and not yet bound to its target (R29 to R35); `bad` holds an undefined payload. -/
inductive Hint where
  | imm (p : BitVec 22)
  | vc (vf : BitVec 1) (v r g : BitVec 6) (rnd : BitVec 3)
  | ord (o : BitVec 2)
  | sched (sw : BitVec 1)
  | off (o : BitVec 22)
  | bad
deriving DecidableEq, Repr

/-- Names a tile frame: of a team's Chamber range (`gal` false, `owner` the team) or of the Gallery share of a core (R103). -/
structure FrameId where
  gal : Bool
  owner : Nat
  frame : Nat
deriving DecidableEq, Repr

/-- A scope latched at issue (R257): entry, the number of the write of the entry that stood then (its generation mod 256), meeting level
and flush set of dies, and the cores. -/
structure Latched where
  entry : Nat
  nth : Nat
  level : Nat
  dies : List Nat
  cores : BitVec 256
deriving DecidableEq, Repr

/-- A shape record's fields (R97). -/
structure Shape where
  sbase : Nat
  dbase : Nat
  aux : Nat
  scope : Nat
  mcast : Nat
  slot : Nat
  cvt : Bool
  esize : Nat
  planar : Bool
  layout : Nat
  dspace : Nat
  sspace : Nat
  ndim : Nat
  sizes : List Nat
  strides : List Int
  side : Nat
deriving DecidableEq, Repr

/-- A copy in flight or waiting for its frames (R95 to R111): issuing gang, token register, kind (0 `tcopy`, 1 `tgath`, 2
`trag`), record, destination rows of a gather or ragged copy (source row or none for a zero row), side ids, the next element,
frames held, the latched scope, bytes written, the token's count, status code, whether its release has completed, and the
bytes of global memory written, by line. -/
structure Copy where
  team : Nat
  gang : Nat
  sd : Nat
  kind : Nat
  shape : Shape
  rows : List (Option Nat)
  sides : List Nat
  next : Nat
  dst : List FrameId
  src : List FrameId
  scope : Latched
  bytes : Nat
  count : Nat
  status : Nat
  released : Bool
  written : SMap (BitVec 256)
  vf : Nat
  /-- Issued in handler mode: in privileged mode, and with the handler's s28 to s31 (R347, R348). -/
  banked : Bool
  /-- The run of the handler in which it issued (0 for none). -/
  nth : Nat
deriving DecidableEq, Repr

/-- What a fragment waits on (R297). A wait marked "retry" ends by performing the unit again from its start. -/
inductive Wait where
  /-- The scoreboard, a token included (R37, R108): retry. -/
  | scoreboard
  /-- An EW frame (R105): retry. -/
  | frame
  /-- Copy issue while 32 copies are in flight (R95), or while a `trag`'s list stands in an EW frame (R105, R116), with the token
  register: retry. -/
  | copyIssue (sd : Nat)
  /-- A copy whose checks have passed and whose frames are not free (R104), with the unit's word, the address after it and its
  chain bit. -/
  | copyFrames (c : Copy) (word : IWord) (nxt : Word) (chain : Bool)
  /-- A queue, 15 the gate queue (R320, R321): retry. -/
  | queue (n : Nat)
  /-- Arbor's task table is full (R300): retry. -/
  | taskTable
  /-- The accumulator file (R142): retry. -/
  | accFile
  /-- A surge grant (R224): retry once granted. -/
  | surge
  /-- A pending release of the gang (R271): retry. -/
  | release
  /-- `cmrg.get` of a unit slot, with the destination register, the unit's word, the address after it, its chain bit and whether it
  asks for another gang next (R34, R214): retry. -/
  | merge (slot sd : Nat) (word : IWord) (nxt : Word) (chain sw : Bool)
  /-- `cmrg.get` that a `reset` has completed while its destination awaits another result (R108, R214). -/
  | getReset (sd : Nat) (word : IWord) (nxt : Word) (chain sw : Bool)
  /-- A barrier's phase (R292). -/
  | barrier (n : Nat) (phase : BitVec 32)
  /-- The join of a record entry (R283). -/
  | join (entry : Nat)
  /-- `swr` of an entry of which an older write is still latched: the destination receives the generation of write `nth` (R257, R273).
  The wait ends by itself once no operation holds an older one. -/
  | scopeWrite (entry sd nth : Nat)
  /-- `icinv` until its invalidation has reached every member core (R275). -/
  | icinv (id : Nat)
  /-- Suspended by page faults with these fault-queue tags (R63). -/
  | pageFault (tags : List Nat)
  /-- An operation in the queue of another die's Rank Tree Unit (R71), with what it latched at its issue: the scope of its array and
  for an `ecat` that of its second array, the gang's scalar registers, and the words of its vector operand by lane (R133). -/
  | rtu (i : Instr) (l m : Latched) (sregs : ZMap 64) (data : ZMap 64)
  /-- `exit` of a team's last gang, while copies of the team are in flight (R111): retry. -/
  | copies
  /-- Trapped, with a handler running on its lanes (R348). -/
  | trapped
deriving DecidableEq, Repr

/-- A fragment entry (R277): its unit's address, active lanes, innermost join record, chain position, latches and validity
(R26), hints fetched for the unit in hand, and wait state. -/
structure Fragment where
  pc : Word
  active : Mask
  join : Option Nat
  pos : Nat
  v0 : Bool
  v1 : Bool
  l0 : ZMap 64
  l1 : ZMap 64
  hints : List Hint
  wait : Option Wait
  handler : Bool
deriving DecidableEq, Repr

/-- An entry of the split table (R277). Entries of a handler carry `handler`. -/
inductive Entry where
  | frag (f : Fragment)
  | deferred (slice : Nat) (lanes : Mask) (pc : Word) (join : Option Nat) (handler : Bool)
  | join (addr : Word) (members arrived exited : Mask) (parent : Option Nat) (handler : Bool)
deriving DecidableEq, Repr

/-- The contents of a bound accumulator name (R139, R219): its mode, its physical units, the f32 encoding or the RN25 word of
each element of the tile at i*(W/2) + c, and the product counts of a residue tile. -/
structure Acc where
  residue : Bool
  units : List Nat
  val : ZMap 32
  count : ZMap 16
deriving DecidableEq, Repr

/-- What trap entry saves for the gang (R348): the trapped entry, s28 to s31, fpm, the trapped unit's address, and whether the
handler is the resident routine (R368). -/
structure Handler where
  frag : Nat
  saved : ZMap 64
  fpm : Word
  iaddr : Word
  compat : Bool
  /-- Those of s28 to s31 of the gang that await a token. -/
  pending : List Nat
  /-- Address of record 2g as the entry wrote it (R345, R354). -/
  record : Word
  /-- The word that the entry's record holds (R346, R368). -/
  word : IWord
  /-- The step at which the handler began, which tells its run from an earlier one's (R108, R348). -/
  nth : Nat
deriving DecidableEq, Repr

/-- The state of one gang (R130, R133, R146, R258, R277, R295). Vector register v of lane L is under 64*v + L; lane-slice byte
b of lane L under 4096*L + b. -/
structure Gang where
  vregs : ZMap 64
  sregs : ZMap 64
  kregs : ZMap 64
  accs : SMap Acc
  fpm : Word
  flags : Word
  /-- Flags set since the last `sget` of flags, which no `sset` of flags loses (R158, assumption 75). -/
  unread : Word
  entries : SMap Entry
  handler : Option Handler
  bindings : SMap (BitVec 8)
  /-- Scalar registers that await the token of a copy (R108). -/
  pending : List Nat
  wcount : Nat
  wbudget : Nat
  lane : Memory
  /-- Releases begun by `fence.rel` that have not completed (R271). -/
  releases : List Latched
  /-- Unacknowledged class T stores and reductions (R267). -/
  unacked : Nat
  core : Nat
  quad : Nat
  /-- First unit of the register range, in units of 2 KiB of the quadrant's file, and its size (R135). -/
  regBase : Nat
  regSize : Nat
deriving DecidableEq, Repr

/-- A named barrier's state word (R290). -/
structure Barrier where
  phase : BitVec 32
  cnt : Nat
  exp : Nat
  dflt : Bool
deriving DecidableEq, Repr

/-- A Chamber queue's state (R320): the ring's offset, its capacity, and the head and tail counted from its initialisation. -/
structure Queue where
  off : Nat
  cap : Nat
  head : Nat
  tail : Nat
deriving DecidableEq, Repr

/-- A frame's owner state where it is not T (R103): being written, or being read by some copies. -/
structure Owner where
  ew : Bool
  readers : Nat
deriving DecidableEq, Repr

/-- A kernel header's fields (R301). -/
structure Kernel where
  entry : Word
  width : Nat
  vregs : Nat
  bars : Nat
  queues : Nat
  lane : Nat
  twin : Bool
  chamber : Nat
  gallery : Nat
deriving DecidableEq, Repr

/-- A team of a grid that waits for dispatch out of turn: one that was discarded and entered again (R365), or one that migrated
to a die (R314), with its remaining budget and its order of arrival. -/
structure WaitTeam where
  index : Nat
  die : Nat
  budget : Option Nat
  seq : Nat
deriving DecidableEq, Repr

/-- An open merge slot of a cluster's unit (R212, R213): expected count, the first contributor's width, the contributions by
key and lane, and the merged result. -/
structure MergeSlot where
  n : Nat
  width : Nat
  puts : SMap (List (BitVec 32 × BitVec 32 × BitVec 32 × BitVec 32))
  result : List (BitVec 32 × BitVec 32 × BitVec 32 × BitVec 32)
deriving DecidableEq, Repr

/-- A core's Gallery share while its group is saved: its bytes, those without what live staged teams wrote, and the writes since the
oldest of theirs (R311, R357). -/
structure SavedShare where
  bytes : Memory
  base : Memory
  log : List (Nat × Nat × Byte)
deriving DecidableEq, Repr

/-- What pre-emption saves of a cluster group whose teams have all been saved (R212, R357): its merge slots, by the group's own
numbers, and the Gallery share of each of its cores, lowest first. -/
structure SavedGroup where
  slots : SMap MergeSlot
  gallery : List SavedShare
deriving DecidableEq, Repr

/-- An accepted launch (R302, R303, R315, R316). -/
structure Grid where
  vf : Nat
  die : Nat
  kernel : Kernel
  teams : Nat
  gangs : Nat
  clgrp : Nat
  argp : Word
  statusAddr : Word
  prio : Nat
  tenant : Nat
  det : Bool
  staged : Bool
  coop : Bool
  twin : Bool
  cluster : Bool
  slots : List Word
  donec : Option Nat
  budget : Option Nat
  /-- Teams dispatched or migrated, in ascending index, outside deterministic mode (R304). -/
  next : Nat
  /-- The logical cores of a deterministic grid, and the number of teams that each has dispatched (R304). -/
  logical : List Nat
  detNext : ZMap 32
  waiting : List WaitTeam
  /-- Scope entries that the acceptance wrote, with the numbers of its writes (R252, R303). -/
  scopes : List (Nat × Nat)
  /-- Teams that have retired, ended or been discarded. -/
  finished : Nat
  nbad : Nat
  firstBad : Nat
  badCode : Nat
  arrival : Nat
  /-- Digest sum of the committed staged teams (R362). -/
  digest : Word
  /-- Serial re-execution after a replay mismatch (R365). -/
  serial : Bool
  /-- Cluster groups that are saved, by their lowest core (R212, R358). -/
  savedGroups : SMap SavedGroup
deriving DecidableEq, Repr

/-- Where a task stands (R308). -/
inductive TaskState where
  | held | ready | running | suspended
deriving DecidableEq, Repr

/-- A task of Arbor's table (R307, R308). -/
structure Task where
  gen : Nat
  vf : Nat
  kernel : Kernel
  argp : Word
  waitc : Option Nat
  decc : Option Nat
  budget : Option Nat
  prio : Nat
  gangs : Nat
  tenant : Nat
  qsel : Nat
  lidx : Word
  stat : Word
  slots : List Word
  det : Bool
  /-- The deterministic grid of whose task set it is a member (R361). -/
  set : Option Nat
  state : TaskState
  /-- The die on which the task waits or runs (R314). -/
  home : Nat
  /-- Order of entry into its queue (R308, R403). -/
  seq : Nat
deriving DecidableEq, Repr

/-- A control instruction withheld until commit (R309), with its handle or identifier reserved: a task for a slot of a die's table
with the time of its spawn by the die's reference counter, a grid, a refused launch's status address and code, and counter
operations. -/
inductive StagedOp where
  | spawn (die slot issued : Nat) (t : Task)
  | launch (id : Nat) (g : Grid) (images : List (Nat × Nat))
  | refused (status : Word) (code : Nat)
  | depset (name : Nat) (value : Nat)
  | depdec (name : Nat) (value : Nat)
deriving DecidableEq, Repr

/-- A staged write (R238, R247): a byte at a virtual address, or a residue reduction of the word at one by an operand. -/
inductive StagedWrite where
  | byte (va : Nat) (b : Byte)
  | red (va w : Nat)
deriving DecidableEq, Repr

/-- A staging area (R238, R247, R309): the staged bytes by virtual address, the set of staged addresses, stored bytes and residue
reductions in program order (R241), control instructions in program order, and the digest terms folded so far (R362). -/
structure Staging where
  addrs : List Nat
  bytes : Memory
  writes : List StagedWrite
  ops : List StagedOp
  digest : Word
deriving DecidableEq, Repr

/-- Where a team stands. -/
inductive TeamStatus where
  | running | saved
deriving DecidableEq, Repr

/-- Why a team's gangs were stopped before their exit (R311, R313, R314, R318, R352). -/
inductive StopCause where
  /-- Ended for a fault of this class (R352). -/
  | fault (cls : Nat)
  /-- Its budget had run out at a `yield` (R313). -/
  | expired
  /-- `tabort.drop` (R318). -/
  | dropped
  /-- Discarded without status and entered again as ready (R318, R365). -/
  | retry
deriving DecidableEq, Repr

/-- What a team runs for: a team of a grid, or a task of a die's Arbor table. -/
inductive Owning where
  | grid (id : Nat)
  | task (die slot : Nat)
deriving DecidableEq, Repr

/-- A dispatched team (R136, R300 to R316, R345, R357). -/
structure Team where
  own : Owning
  index : Word
  vf : Nat
  kernel : Kernel
  status : TeamStatus
  argp : Word
  tenant : Nat
  slots : List Word
  det : Bool
  staged : Bool
  coop : Bool
  /-- Cores of the cluster group, lowest first, for a grid with cluster grouping (R212, R304). -/
  group : Option (List Nat)
  core : Nat
  /-- The second core of a twin team (R136). -/
  twin : Option Nat
  /-- First frame and frames of the Chamber block, and of the lane-slice block (R137). -/
  chBase : Nat
  chSize : Nat
  laneBase : Nat
  laneSize : Nat
  chamber : Memory
  frames : SMap Owner
  /-- The gangs that have not ended. -/
  gangs : SMap Gang
  bars : SMap Barrier
  queues : SMap Queue
  fbase : Word
  faultBlock : Option Nat
  seq : BitVec 32
  staging : Staging
  /-- Remaining budget in ns; none means no budget (R312). -/
  budget : Option Nat
  prio : Nat
  /-- Cycle at the dispatch or the last restore (R378). -/
  since : Nat
  /-- Set once the team's gangs have been stopped. -/
  stopped : Option StopCause
deriving DecidableEq, Repr

/-- An entry of a scope table (R253); of GEN, which counts the writes of the entry mod 256 (R257), it keeps the whole count. -/
structure ScopeEntry where
  cores : BitVec 256
  pkgs : BitVec 64
  rpart : BitVec 4
  host : Bool
  valid : Bool
  writes : Nat
  meet : BitVec 3
deriving DecidableEq, Repr

/-- An elastic array (R67 to R80): generation of its index, home die, bound scope entry, creating core, element size code,
version, leaves in rank order (slab number and element count), interior levels from the lowest up (children of each node),
slabs that hold interior nodes, and its live anchors in sequence order (ID and rank). -/
structure EArray where
  gen : Nat
  die : Nat
  scope : Nat
  creator : Nat
  size : Nat
  version : BitVec 32
  leaves : List (Nat × Nat)
  levels : List (List Nat)
  nodes : List Nat
  anchors : List (Nat × Nat)
deriving DecidableEq, Repr

/-- The standing of an allocated anchor ID (R70, R75, R92): live in an array, or dead, with the array that held it. -/
inductive AnchorState where
  | live (arr : Nat)
  | dead (arr : Option Nat)
deriving DecidableEq, Repr

/-- A page that failed, as a fault-queue entry posts it (R63). -/
structure FqEntry where
  va : Word
  vf : Nat
  origin : Nat
  unit : Nat
  kind : Nat
  reason : Nat
  level : Nat
  plane : Nat
  tag : Nat
deriving DecidableEq, Repr

/-- A gang suspended on fault-queue entries (R63, R64): the fragment, what a FAIL records, and the tags not yet answered with a
RETRY. -/
structure Suspended where
  ref : Ref
  cls : Nat
  fbyte : Word
  plane : Nat
  word : IWord
  scope : Option (BitVec 3)
  sgen : Nat
  tags : List Nat
deriving DecidableEq, Repr

/-- A virtual function (R374, R375, R377) with its translation context: the configuration block's bytes, doorbell indices,
fault queue, scope table, elastic arrays, anchors and slabs. -/
structure Vf where
  block : ZMap 8
  tail : BitVec 32
  head : BitVec 32
  /-- Entries that wait to be posted, and the number posted (R63, R375). -/
  fqWaiting : List FqEntry
  fqTail : BitVec 32
  suspended : List Suspended
  scope : SMap ScopeEntry
  arrays : SMap EArray
  /-- Reuse count of each index that has been allocated (R69). -/
  arrGen : SMap Nat
  anchors : SMap AnchorState
  /-- Reuse count of each anchor ID that has been allocated (R70). -/
  anchorGen : SMap (BitVec 8)
  /-- Slab numbers in use, by die (R68, R85). -/
  slabs : SMap (List Nat)
  /-- Fault-area blocks in use (R345). -/
  faultBlocks : List Nat
deriving DecidableEq, Repr

/-- A cached line of 256 bytes (R43, R44): the context it is tagged with (R360), its number (PA div 256), the leaf entry under
which it was last accessed, valid sectors, written bytes and data; and the set in which a remote partition holds it, tenant bits
included (R49, R51; 0 in an L1 and in an instruction cache). -/
structure Line where
  vf : Nat
  num : Nat
  leaf : Word
  valid : BitVec 4
  dirty : BitVec 256
  data : Memory
  set : Nat
deriving DecidableEq, Repr

/-- A line that a home L2 slice or a Cavern holds (R44 to R51, R54): sectors whose fill has arrived, the mask of written bytes,
EVP, residency group, and the slice and set in which it stands, tenant bits included. The bytes are those of `mem`, the value
at the home slice. -/
structure Held where
  num : Nat
  valid : BitVec 4
  dirty : BitVec 256
  evp : BitVec 2
  rcg : BitVec 8
  slice : Nat
  set : Nat
deriving DecidableEq, Repr

/-- A translation that a TLB holds (R61): context, first address and size in bytes of the page, and the leaf entry. -/
structure Tlb where
  vf : Nat
  base : Nat
  size : Nat
  leaf : Word
deriving DecidableEq, Repr

/-- An entry of a rank lookaside buffer (R79). -/
structure Rlb where
  vf : Nat
  handle : Word
  version : BitVec 32
  lo : Nat
  count : Nat
  slab : Nat
deriving DecidableEq, Repr

/-- Sectors of a line that a core has asked for and that have not come (R43, R65, R248): context, the virtual address from which the line
was translated, line, sectors, leaf entry, the level that they fill: 0 the L1, 1 the L2, 2 the Cavern, and whether the one access of the
line has reached the levels below (R53). -/
structure Request where
  vf : Nat
  va : Nat
  num : Nat
  sectors : BitVec 4
  leaf : Word
  level : Nat
  reached : Bool
deriving DecidableEq, Repr

/-- A quadrant (R9, R142, R224, R225, R298): units that drain, each with the team and the gang that released it while that gang lives, the
cycle of the array's last product, ramp mode, the loop buffer (context, first and last address, words by address), the lanes of
gangs that let another gang issue first (R34, R294), and the fragments that wait for accumulator units, in the order in which they came (R142). -/
structure Quad where
  draining : List (Nat × Option (Nat × Nat))
  lastProduct : Option Nat
  ramp : Bool
  loop : Option (Nat × Nat × Nat)
  loopWords : SMap IWord
  yielded : List (Nat × Nat × Mask)
  accQueue : List Ref
deriving DecidableEq, Repr

/-- A core (R9): L1 and its FIFO of dirty lines (R266), instruction cache, first-level TLB, RLB, copies in flight by numbers that rise
in issue order (R95), Gallery share: its bytes, its size, the Chamber frame after its last (R121, R123) and its frames' owner
states, its bytes without what live staged teams wrote, and the writes since the oldest of theirs (the team plus 1, or 0 for a
write that stays; offset; byte; R311), requested sectors (R43, R248), partition of quadrants (R378) and quadrants. -/
structure Core where
  l1 : List Line
  fifo : List Nat
  icache : List Line
  tlb : List Tlb
  rlb : List Rlb
  copies : SMap Copy
  gallery : Memory
  galShare : Nat
  galTop : Nat
  galBase : Memory
  galLog : List (Nat × Nat × Byte)
  galFrames : SMap Owner
  requests : List Request
  qown : Word
  quads : SMap Quad
deriving DecidableEq, Repr

/-- A dependence counter's word (R319). -/
structure Counter where
  count : BitVec 32
  uf : Bool
deriving DecidableEq, Repr

/-- The attribute set of a context and session on a die (R404). -/
structure Attrs where
  slots : List Word
  det : Bool
  tenant : Nat
deriving DecidableEq, Repr

/-- A gate-queue entry with the context and the attributes of the pushing gang's grid (R328, R404). -/
structure GateEntry where
  word : Word
  vf : Nat
  attrs : Attrs
deriving DecidableEq, Repr

/-- A session record's fields (R330). -/
structure SessRec where
  gbase : Nat
  taskt : Nat
  combc : Nat
  nexp : Nat
  k : Nat
  tw : Nat
  cap : Nat
  rcgb : Nat
  pinn : Nat
  stat : Nat
  expmap : Nat
  senders : BitVec 64
  rowbase : Nat
  rxbase : Nat
  rowbytes : Nat
deriving DecidableEq, Repr

/-- An open session (R330, R331, R338): its record, records per expert in the round, drops, tasks spawned, the SEQ that follows
on each flow it sends, whether its own flush entry has come, the packages whose flush cell has come, and the expert whose partial
tile the flush under way comes to next; and the next SEQ on each flow that it receives. -/
structure Session where
  rcd : SessRec
  lists : SMap Nat
  drop : Nat
  ntask : Nat
  sendSeq : SMap (BitVec 32)
  flushed : Bool
  flushCells : BitVec 64
  closing : Nat
  recvSeq : SMap (BitVec 32)
deriving DecidableEq, Repr

/-- A cell (R337), its 256 bytes. -/
abbrev Cell := List Byte

/-- What the vendor's firmware still has to do of the entry or the row that it took up (R335): send or enter the record of a selected
expert, or spawn the task of a tile that has filled, each in the session of a key. -/
inductive BelvWork where
  | record (key token slot expert weight : Nat)
  | tile (key expert tile count : Nat)
deriving DecidableEq, Repr

/-- A die's Belvedere core (R326 to R328): the CSRs of R327, the scratchpad, the entry that gpop last popped, the value that the
last access returned and whether it faulted; whether the loaded firmware is the vendor's; what that firmware
still has to do of what it took up (R335); and the RV64 processor's program counter,
x registers (x0 is not listed), machine-mode CSRs and reservation (PRESUMED from the RISC-V architecture, assumption 76). -/
structure Belvedere where
  ginfo : Word
  gctx : Word
  depn : Word
  ctx : Word
  crx : Word
  sattr : Word
  scratch : Memory
  popped : Option GateEntry
  /-- The result of the last CSR read or memory load (R327). -/
  result : Word
  accessFault : Bool
  vendor : Bool
  work : List BelvWork
  pc : Word
  x : ZMap 64
  mstatus : Word
  mie : Word
  mtvec : Word
  mscratch : Word
  mepc : Word
  mcause : Word
  mtval : Word
  reservation : Option (Nat × Nat)
deriving DecidableEq, Repr

/-- A surge request that waits for its grant (R224, R225): the fragment and its quadrant, its tenant, the cycle at which it was
made, and whether its chain start has gone on in ramp mode. -/
structure Surge where
  ref : Ref
  core : Nat
  quad : Nat
  tenant : Nat
  since : Nat
  ramped : Bool
deriving DecidableEq, Repr

/-- A compute die (R8). Counters in `rcgCount` are those of the epoch in progress, which began at `epoch` by the reference counter;
`rcgHyst` counts consecutive epochs. -/
structure Die where
  cycle : Nat
  ref : Nat
  epoch : Nat
  l2part : BitVec 32
  rtucfg : BitVec 32
  rcgctl : SMap (BitVec 32)
  rcgcnt : ZMap 32
  rcgCount : ZMap 64
  rcgHyst : ZMap 16
  cavctl : BitVec 32
  tlbiva : Word
  tlbictl : BitVec 32
  /-- The invalidation under way, as the write of GO found it (R65): context, first address and NPOW. -/
  tlbi : Option (Nat × Nat × Nat)
  tlb : List Tlb
  l2 : List Held
  cavern : List Held
  remote : List Line
  grotto : Memory
  counters : SMap Counter
  tasks : SMap Task
  /-- Generation of each task slot that has been used (R317). -/
  taskGen : SMap Nat
  /-- The queue served last in each priority (R308). -/
  served : ZMap 8
  gate : List GateEntry
  belv : Belvedere
  attrs : SMap Attrs
  sessions : SMap Session
  rtu : List Ref
  window : Nat
  granted : Nat
  surge : List Surge
  grants : List Ref
  /-- The tenant served last by the surge arbiter (R224). -/
  surgeTenant : Nat
  merge : SMap MergeSlot
  /-- The grid that holds each cluster's merge unit (R212). -/
  mergeGrid : SMap Nat
  /-- Cells sent and not acknowledged, and cells received and not delivered (R338). -/
  sent : List Cell
  received : List Cell
deriving DecidableEq, Repr

/-- A Flowstone event (R384). -/
structure Event where
  time : Nat
  die : Nat
  type : Nat
  vf : Nat
  cls : Nat
  detail : Nat
  addr : Nat
  aux : Nat
deriving DecidableEq, Repr

/-- The Flowstone record (R384). -/
structure Flowstone where
  events : SMap Event
  frozen : Bool
  lost : BitVec 16
  next : BitVec 12
deriving DecidableEq, Repr

/-- An image in board flash and its controller's monotonic counter (R382). -/
structure Image where
  bytes : List Byte
  counter : Nat
deriving DecidableEq, Repr

/-- The board and the package as a whole (R379, R382, R383, R385): held in reset, images, identity key, package number, domain,
failed packages, rails that are down, power cap, island frequencies, interrupts raised to the host, the last measurement, the
last Kiosk report, the resident routine's entry (R368), and the virtual and the physical address of the capability list (R366). -/
structure Board where
  held : Bool
  images : SMap Image
  key : BitVec 256
  pkg : Nat
  domain : BitVec 64
  failed : BitVec 64
  railsDown : BitVec 16
  cap : Option Nat
  freq : SMap Nat
  hostIrq : Nat
  measured : List Byte
  report : List Word
  routine : Word
  caps : Word
  capsPa : Nat
deriving DecidableEq, Repr

/-- An `icinv` whose invalidation is on its way (R275): its context, the scope it latched (R257), the cores it has not
reached and all that it reaches. -/
structure IcInv where
  vf : Nat
  scope : Latched
  cores : List Nat
  all : List Nat
deriving DecidableEq, Repr

/-- The machine. `turn` names the fragment that must move next, if any; `inputs` lists what the outside world does, in order;
`tick` counts steps and is what free values are applied to; `cur` names the fragment whose unit is performed. -/
structure State where
  mem : Memory
  dies : SMap Die
  cores : SMap Core
  vfs : SMap Vf
  teams : SMap Team
  grids : SMap Grid
  icinvs : SMap IcInv
  /-- Major opcodes that the firmware marks as emulated (R39). -/
  emulated : BitVec 128
  flow : Flowstone
  board : Board
  /-- What the last host or fabric access returned, and whether it was an error response (R376). -/
  hostResult : Word
  hostError : Bool
  cur : Ref
  turn : Option Ref
  inputs : List Instr
  tick : Nat
deriving DecidableEq, Repr

/-- Why the machine stops with a fault of the model. -/
inductive Fault where
  /-- Raised by the meaning of an instruction word when no fragment is current: no gang issues it. Safe. -/
  | noFragment
  /-- Raised by the meaning of a step of another agent whose condition the state does not meet: the step does not come about
  there (for example a token write of a copy that is not done). Safe. -/
  | notEnabled
deriving DecidableEq, Repr

/-- Why an instruction has no meaning. -/
inductive Refusal where
  /-- Raised by an arm of `exec` alone: the instruction has no meaning yet. Safe. -/
  | notModelled (mnemonic : String)
deriving DecidableEq, Repr

/-- The outcome of one step. -/
abbrev Out := Host.Outcome State Fault Refusal

/-- A quadrant after reset: nothing drains, no product yet, empty loop buffer. -/
def Quad.reset : Quad := ⟨[], none, false, none, [], [], []⟩

/-- A core after reset: empty caches, TLB, RLB and engine; QOWN is 0 (R378). -/
def Core.reset : Core :=
  { l1 := [], fifo := [], icache := [], tlb := [], rlb := [], copies := [], gallery := [], galShare := 0, galTop := 256,
    galBase := [], galLog := [], galFrames := [], requests := [], qown := 0, quads := [] }

/-- The Belvedere core after reset: every CSR of R327 reads 0; the vendor's firmware; the processor's registers are 0
(assumption 76). -/
def Belvedere.reset : Belvedere :=
  { ginfo := 0, gctx := 0, depn := 0, ctx := 0, crx := 0, sattr := 0, scratch := [], popped := none, result := 0,
    accessFault := false, vendor := true, work := [], pc := 0, x := [], mstatus := 0, mie := 0, mtvec := 0, mscratch := 0, mepc := 0,
    mcause := 0, mtval := 0, reservation := none }

/-- A die after reset: L2PART has RWAYS 01 (R52), CAVCTL has PINMAX 8, HYST 4, EPOCH 20 (R55), TLBICTL has DONE 1 (R65), RTUCFG 0
(R370); counters and tables are empty. -/
def Die.reset : Die :=
  { cycle := 0, ref := 0, epoch := 0, l2part := 0x4, rtucfg := 0, rcgctl := [], rcgcnt := [], rcgCount := [], rcgHyst := [],
    cavctl := 0x8414, tlbiva := 0, tlbictl := 0x40000000, tlbi := none, tlb := [], l2 := [], cavern := [], remote := [], grotto := [],
    counters := [], tasks := [], taskGen := [], served := [], gate := [], belv := .reset, attrs := [], sessions := [],
    rtu := [], window := 0, granted := 0, surge := [], grants := [], surgeTenant := 0, merge := [], mergeGrid := [],
    sent := [], received := [] }

/-- A virtual function after reset: SRLOG and FQLOG read 4, every other field 0 (R377); no scope entry written (R252). -/
def Vf.reset : Vf :=
  { block := [(24, 4), (40, 4)], tail := 0, head := 0, fqWaiting := [], fqTail := 0, suspended := [], scope := [],
    arrays := [], arrGen := [], anchors := [], anchorGen := [], slabs := [], faultBlocks := [] }

/-- An empty Flowstone record (R384). -/
def Flowstone.reset : Flowstone := ⟨[], false, 0, 0⟩

/-- Islands of a package: 8 cluster islands and an uncore island on each die (R8). -/
abbrev islands : Nat := 36

/-- The frequency of every island after reset, in MHz: the clock of R7 (assumption 77). -/
def islandClocks : SMap Nat := (List.range islands).map fun i => (i, 2800)

/-- The board after a reset that released the package (R382); package number, domain and addresses come from the configuration
blob (assumption 3). -/
def Board.reset : Board :=
  { held := false, images := [], key := 0, pkg := 0, domain := 1, failed := 0, railsDown := 0, cap := none, freq := islandClocks,
    hostIrq := 0, measured := [], report := [], routine := 0, caps := resetCaps, capsPa := resetCapsPa }

/-- The machine right after reset: no team, no launch, every table empty and every register at its reset value; of memory, the
capability list alone stands listed (R366, R367). -/
def State.reset : State :=
  { mem := capsMemory resetCapsPa resetCaps 0, dies := [], cores := [], vfs := [], teams := [], grids := [], icinvs := [], emulated := 0,
    flow := .reset, board := .reset, hostResult := 0, hostError := false, cur := ⟨0, 0, 0⟩, turn := none, inputs := [],
    tick := 0 }

end Sys2Proof.Machine
end

