-- ==== Sys2Proof/Machine/Access.lean ====
section
/-! DEFINITION. Reading and changing the parts of the state by name, the context of the fragment that issues, and its registers
(R21, R130 to R134). -/

namespace Sys2Proof.Machine

/-- A die's state (R8). -/
def State.die (s : State) (d : Nat) : Die := SMap.getD s.dies d Die.reset
/-- A core's state (R9); cores are numbered 64 * die + core within the die. -/
def State.core (s : State) (n : Nat) : Core := SMap.getD s.cores n Core.reset
/-- A virtual function's state (R377). -/
def State.vf (s : State) (v : Nat) : Vf := SMap.getD s.vfs v Vf.reset
/-- A quadrant of a core. -/
def Core.quad (c : Core) (q : Nat) : Quad := SMap.getD c.quads q Quad.reset

/-- Changes a die. -/
def State.modDie (s : State) (d : Nat) (f : Die → Die) : State := { s with dies := SMap.set s.dies d (f (s.die d)) }
/-- Changes a core. -/
def State.modCore (s : State) (n : Nat) (f : Core → Core) : State := { s with cores := SMap.set s.cores n (f (s.core n)) }
/-- Changes a virtual function. -/
def State.modVf (s : State) (v : Nat) (f : Vf → Vf) : State := { s with vfs := SMap.set s.vfs v (f (s.vf v)) }
/-- Changes a quadrant. -/
def State.modQuad (s : State) (n q : Nat) (f : Quad → Quad) : State :=
  s.modCore n fun c => { c with quads := SMap.set c.quads q (f (c.quad q)) }
/-- Changes a team. -/
def State.modTeam (s : State) (t : Nat) (f : Team → Team) : State := { s with teams := SMap.modify s.teams t f }
/-- Changes a gang. -/
def State.modGang (s : State) (t g : Nat) (f : Gang → Gang) : State :=
  s.modTeam t fun x => { x with gangs := SMap.modify x.gangs g f }

/-- A team. -/
def State.team? (s : State) (t : Nat) : Option Team := SMap.get? s.teams t
/-- A gang. -/
def State.gang? (s : State) (t g : Nat) : Option Gang := (s.team? t).bind fun x => SMap.get? x.gangs g

/-- The fragment in an entry of the split table. -/
def Gang.frag? (g : Gang) (n : Nat) : Option Fragment :=
  match SMap.get? g.entries n with
  | some (.frag f) => some f
  | _ => none

/-- Puts a fragment in an entry of the split table. -/
def Gang.setFrag (g : Gang) (n : Nat) (f : Fragment) : Gang := { g with entries := SMap.set g.entries n (.frag f) }

/-- The fragments of a gang with their entries. -/
def Gang.frags (g : Gang) : List (Nat × Fragment) :=
  g.entries.filterMap fun (n, e) => match e with | .frag f => some (n, f) | _ => none

/-- Changes a fragment. -/
def State.modFrag (s : State) (r : Ref) (f : Fragment → Fragment) : State :=
  s.modGang r.team r.gang fun g => match g.frag? r.frag with | some x => g.setFrag r.frag (f x) | none => g

/-- What a unit is performed with: the fragment that issues it, with its gang and its team. -/
structure Ctx where
  ref : Ref
  team : Team
  gang : Gang
  frag : Fragment
deriving DecidableEq, Repr

/-- The fragment that the state names as current, where it can issue. -/
def State.ctx? (s : State) : Option Ctx :=
  match s.team? s.cur.team with
  | none => none
  | some t =>
    match SMap.get? t.gangs s.cur.gang with
    | none => none
    | some g =>
      match g.frag? s.cur.frag with
      | none => none
      | some f => if f.wait = none ∧ t.status = .running ∧ t.stopped = none then some ⟨s.cur, t, g, f⟩ else none

/-- The declared width W (R199). -/
def Ctx.w (c : Ctx) : Nat := c.team.kernel.width
/-- The core on which the gang runs. -/
def Ctx.core (c : Ctx) : Nat := c.gang.core
/-- The die on which the gang runs. -/
def Ctx.die (c : Ctx) : Nat := c.gang.core / 64
/-- The virtual function, which is the translation context (R377). -/
def Ctx.vf (c : Ctx) : Nat := c.team.vf
/-- A gang in handler mode is in privileged mode (R347). -/
def Ctx.priv (c : Ctx) : Bool := c.gang.handler.isSome
/-- The active lanes (R277). -/
def Ctx.active (c : Ctx) : Mask := c.frag.active
/-- The hints of the unit, the one nearest the target first (R31). -/
def Ctx.hints (c : Ctx) : List Hint := c.frag.hints

/-- The address after the unit (R287). -/
def Ctx.next (c : Ctx) : Word := c.frag.pc + BitVec.ofNat 64 (4 * (c.frag.hints.length + 1))
/-- The address of the target word of the unit (R20, R29). -/
def Ctx.at (c : Ctx) : Word := c.frag.pc + BitVec.ofNat 64 (4 * c.frag.hints.length)

/-- S(n) (R21): s0 reads as zero. -/
def Gang.s (g : Gang) (n : Nat) : Word := if n = 0 then 0 else ZMap.get g.sregs n
/-- S(n) := v: writes to s0 are ignored. -/
def Gang.setS (g : Gang) (n : Nat) (v : Word) : Gang := if n = 0 then g else { g with sregs := ZMap.set g.sregs n v }
/-- S(n) := v by a unit of a fragment that is in a handler or is not: while a handler runs, the gang's own s28 to s31 stand among
the values that it saved (R348, R349). -/
def Gang.setOwn (g : Gang) (inHandler : Bool) (n : Nat) (v : Word) : Gang :=
  match g.handler with
  | none => g.setS n v
  | some h =>
    if inHandler || decide (n < 28) then g.setS n v else { g with handler := some { h with saved := ZMap.set h.saved n v } }
/-- The mask register n as a 64-bit value (R134): k0 reads with bits W - 1 to 0 set. -/
def Gang.k (g : Gang) (w n : Nat) : Mask := (if n = 0 then fullMask w else ZMap.get g.kregs n) &&& fullMask w
/-- Writes a mask register, for the given lanes alone (R134, R176). -/
def Gang.setK (g : Gang) (w n : Nat) (lanes v : Mask) : Gang :=
  if n = 0 then g
  else { g with kregs := ZMap.set g.kregs n (((g.k w n &&& ~~~lanes) ||| (v &&& lanes)) &&& fullMask w) }
/-- Vector register n of lane L. -/
def Gang.v (g : Gang) (n l : Nat) : Word := ZMap.get g.vregs (64 * n + l)
/-- Writes vector register n of lane L. -/
def Gang.setV (g : Gang) (n l : Nat) (v : Word) : Gang := { g with vregs := ZMap.set g.vregs (64 * n + l) v }
/-- Writes vector register n in the listed lanes, in order. -/
def Gang.setVs (g : Gang) (n : Nat) (vals : List (Nat × Word)) : Gang := vals.foldl (fun g p => g.setV n p.1 p.2) g

/-- S(n) as the unit reads it. -/
def Ctx.s (c : Ctx) (n : BitVec 5) : Word := c.gang.s n.toNat
/-- K(n) as the unit reads it. -/
def Ctx.k (c : Ctx) (n : BitVec 3) : Mask := c.gang.k c.w n.toNat
/-- V(n, L) as the unit reads it: 62 and 63 name the latches (R21). -/
def Ctx.v (c : Ctx) (n : BitVec 6) (l : Nat) : Word :=
  if n.toNat = 62 then ZMap.get c.frag.l0 l else if n.toNat = 63 then ZMap.get c.frag.l1 l else c.gang.v n.toNat l
/-- Register n + j of a group (R22). -/
def Ctx.vg (c : Ctx) (n : BitVec 6) (j l : Nat) : Word := c.gang.v (n.toNat + j) l
/-- The lanes that take part: active lanes whose predicate bit is set (R21). -/
def Ctx.lanes (c : Ctx) (k : BitVec 3) : List Nat := lanesOf (c.active &&& c.k k)

/-- Changes the issuing gang. -/
def Ctx.modG (c : Ctx) (s : State) (f : Gang → Gang) : State := s.modGang c.ref.team c.ref.gang f
/-- S(n) := v (R133). -/
def Ctx.setS (c : Ctx) (s : State) (n : BitVec 5) (v : Word) : State := c.modG s fun g => g.setS n.toNat v
/-- Sticky flags are set (R157), and stay set over an `sset` of flags until an `sget` of flags has returned them (R158). -/
def Gang.raise (g : Gang) (fl : Nat) : Gang :=
  { g with flags := g.flags ||| BitVec.ofNat 64 fl, unread := g.unread ||| BitVec.ofNat 64 fl }
/-- Sets sticky flags (R157). -/
def Ctx.setFlags (c : Ctx) (s : State) (fl : Nat) : State := c.modG s fun g => g.raise fl

/-! ### The Flowstone record -/

/-- Writes an event at NEXT unless the record is frozen (R384). -/
def State.log (s : State) (e : Event) : State :=
  if s.flow.frozen then
    { s with flow := { s.flow with lost := if s.flow.lost = 0xFFFF then 0xFFFF else s.flow.lost + 1 } }
  else
    { s with flow := { s.flow with
        events := SMap.set s.flow.events s.flow.next.toNat { e with time := (s.die e.die).cycle }
        next := s.flow.next + 1
        frozen := e.type == 12 || e.type == 13 } }

/-- Logs an event of a type. -/
def State.event (s : State) (type die vf cls detail addr aux : Nat) : State := s.log ⟨0, die, type, vf, cls, detail, addr, aux⟩

/-! ### Choices and configuration fields -/

/-- The element of a list at a position that an unspecified choice names. -/
def choose {α : Type} (l : List α) (n : Nat) : Option α :=
  match l with
  | [] => none
  | [x] => some x
  | x :: xs => ((x :: xs)[Config.pick n % (x :: xs).length]?).orElse fun _ => some x

/-- A free name below `room`: the device chooses among those not in use (rising list). -/
def freshName (n room : Nat) (used : List Nat) : Nat := nthFree (Config.fresh n % (room - used.length)) used

/-- Bytes of a virtual function's configuration block (R377) as an unsigned integer. -/
def Vf.cfg (v : Vf) (off n : Nat) : Nat := ofBytes (Memory.bytes v.block off n)
/-- Writes bytes of a configuration block. -/
def Vf.setCfg (v : Vf) (off n x : Nat) : Vf := { v with block := Memory.store v.block off (toBytes x n) }
/-- Frame of the T3 table (R56). -/
def Vf.root (v : Vf) : Nat := v.cfg 0 8 / 2 ^ 16 % 2 ^ 36
/-- TENANT (R377). -/
def Vf.tenant (v : Vf) : Nat := v.cfg 8 1
/-- PIX (R51). -/
def Vf.pix (v : Vf) : Nat := v.cfg 9 1 % 8
/-- STATE (R377): 0 UNLOCKED, 1 LOCKED, 2 RUN, 3 ERROR. -/
def Vf.state (v : Vf) : Nat := v.cfg 10 1
/-- FQEN (R375). -/
def Vf.fqen (v : Vf) : Bool := v.cfg 11 1 == 1
/-- SLABQ (R85). -/
def Vf.slabq (v : Vf) : Nat := v.cfg 12 4
/-- HENTRY (R345). -/
def Vf.hentry (v : Vf) : Word := BitVec.ofNat 64 (v.cfg 64 8)
/-- Bytes of a die's Grotto (R8). -/
abbrev grottoBytes : Nat := 2 ^ 26
/-- GROTTO[d]: base and size in bytes (R122); the part of a window past the end of the die's Grotto does not exist (R8). -/
def Vf.grotto (v : Vf) (d : Nat) : Nat × Nat :=
  let base := v.cfg (128 + 16 * d) 8
  (base, min (v.cfg (136 + 16 * d) 8 * 65536) (grottoBytes - base))
/-- Reads n bytes of a context's window of a die's Grotto (R8, R122). What the window does not hold reads as zero: only an access that
was checked before GROTTO[d] was rewritten can reach it (DESIGN CHOICE, assumption 97). -/
def State.grottoGet (s : State) (vf die off n : Nat) : List Byte :=
  let w := (s.vf vf).grotto die
  let m := min n (w.2 - off)
  Memory.bytes (s.die die).grotto (w.1 + off) m ++ List.replicate (n - m) 0
/-- Writes bytes of a context's window of a die's Grotto (R8, R122). What the window does not hold is not written (DESIGN CHOICE,
assumption 97). -/
def State.grottoPut (s : State) (vf die off : Nat) (bs : List Byte) : State :=
  let w := (s.vf vf).grotto die
  s.modDie die fun d => { d with grotto := Memory.store d.grotto (w.1 + off) (bs.take (w.2 - off)) }
/-- SLABS[d]: base and slab count (R68). -/
def Vf.slabPool (v : Vf) (d : Nat) : Nat × Nat := (v.cfg (192 + 16 * d) 8, v.cfg (200 + 16 * d) 8)
/-- First counter index and count (R319). -/
def Vf.counters (v : Vf) : Nat × Nat := (v.cfg 256 4, v.cfg 260 4)
/-- PART (R378). -/
def Vf.part (v : Vf) : Nat := v.cfg 320 32

/-- The slots of a cluster's merge unit that a group holds (R212), by die, cluster and the place of the group among the aligned groups of
its cluster (DESIGN CHOICE, assumption 117): the first, and how many. -/
def groupSlots (group : List Nat) : Nat × Nat :=
  let lowest := (group.head?).getD 0
  let per := 16 / (8 / group.length)
  (lowest / 64 * 128 + lowest % 64 / 8 * 16 + lowest % 8 / group.length * per, per)

end Sys2Proof.Machine
end

