-- ==== Sys2Proof/Machine/Float.lean ====
section
/-! DEFINITION. The floating formats and their rounding (R5, R147, R148, R153, R156, R159): encodings, exact values as
quotients of natural numbers, one rounding in any of the four modes, and the order of values. -/

namespace Sys2Proof.Machine

/-- A floating format (R147): total bits, exponent bits, fraction bits, bias, infinities, NaNs (0 none, 1 as F8A, 2 IEEE) and
the encoding of the largest finite value. -/
structure Fmt where
  bits : Nat
  e : Nat
  f : Nat
  bias : Nat
  hasInf : Bool
  nans : Nat
  maxFin : Nat
deriving DecidableEq, Repr

/-- f32 (R147). -/
def f32 : Fmt := ⟨32, 8, 23, 127, true, 2, 0x7F7FFFFF⟩
/-- f16 (R147). -/
def f16 : Fmt := ⟨16, 5, 10, 15, true, 2, 0x7BFF⟩
/-- bf16 (R147). -/
def bf16 : Fmt := ⟨16, 8, 7, 127, true, 2, 0x7F7F⟩
/-- F8A (R147). -/
def f8a : Fmt := ⟨8, 4, 3, 7, false, 1, 0x7E⟩
/-- F8B (R147). -/
def f8b : Fmt := ⟨8, 5, 2, 15, true, 2, 0x7B⟩
/-- F6 (R147). -/
def f6 : Fmt := ⟨6, 3, 2, 3, false, 0, 0x1F⟩

/-- The sign bit of an encoding. -/
def fneg (m : Fmt) (x : Nat) : Bool := x.testBit (m.bits - 1)

/-- The encoding without its sign. -/
def fmag (m : Fmt) (x : Nat) : Nat := x % 2 ^ (m.bits - 1)

/-- The encoding with a sign. -/
def withSign (m : Fmt) (neg : Bool) (mag : Nat) : Nat := if neg then 2 ^ (m.bits - 1) + mag else mag

/-- Exponent all ones and fraction zero, in a format with infinities. -/
def isInf (m : Fmt) (x : Nat) : Bool := m.hasInf && fmag m x == (2 ^ m.e - 1) * 2 ^ m.f

/-- A NaN encoding (R147). -/
def isNan (m : Fmt) (x : Nat) : Bool :=
  match m.nans with
  | 0 => false
  | 1 => fmag m x == 2 ^ (m.bits - 1) - 1
  | _ => decide (fmag m x > (2 ^ m.e - 1) * 2 ^ m.f)

/-- A signalling NaN: its top fraction bit is 0 (R148). -/
def isSnan (m : Fmt) (x : Nat) : Bool := isNan m x && decide (m.nans = 2) && !(x.testBit (m.f - 1))

/-- The encoding of +infinity. -/
def infEnc (m : Fmt) : Nat := (2 ^ m.e - 1) * 2 ^ m.f

/-- The canonical quiet NaN (R148). -/
def canonNan (m : Fmt) : Nat := if m.nans = 1 then 2 ^ (m.bits - 1) - 1 else infEnc m + 2 ^ (m.f - 1)

/-- A nonzero encoding with exponent zero. -/
def isSub (m : Fmt) (x : Nat) : Bool := decide (fmag m x ≠ 0) && decide (fmag m x < 2 ^ m.f)

/-- What an encoding stands for: a NaN, an infinity, or a sign and a magnitude num / den (R148). -/
inductive FVal where
  | nan
  | inf (neg : Bool)
  | fin (neg : Bool) (num den : Nat)
deriving DecidableEq, Repr

/-- The value of an encoding (R148). -/
def fval (m : Fmt) (x : Nat) : FVal :=
  if isNan m x then .nan
  else if isInf m x then .inf (fneg m x)
  else
    let ex := fmag m x / 2 ^ m.f
    let fr := fmag m x % 2 ^ m.f
    if ex = 0 then .fin (fneg m x) fr (2 ^ (m.bias - 1 + m.f))
    else
      let sig := 2 ^ m.f + fr
      if ex ≥ m.bias + m.f then .fin (fneg m x) (sig * 2 ^ (ex - m.bias - m.f)) 1
      else .fin (fneg m x) sig (2 ^ (m.bias + m.f - ex))

/-- The rounding modes of fpm.RM (R154). -/
inductive RMode where
  | rne | rtz | rup | rdn
deriving DecidableEq, Repr

/-- Decodes RM (R154). -/
def RMode.ofRm (n : Nat) : RMode :=
  match n % 4 with
  | 0 => .rne
  | 1 => .rtz
  | 2 => .rup
  | _ => .rdn

/-- The quotient n + rem / d rounded to an integer: sign, mode, whole part, remainder and divisor. -/
def roundInt (mode : RMode) (neg : Bool) (n rem d : Nat) : Nat :=
  if rem = 0 then n else
  match mode with
  | .rne => if 2 * rem > d || (2 * rem == d && n % 2 == 1) then n + 1 else n
  | .rtz => n
  | .rup => if neg then n else n + 1
  | .rdn => if neg then n + 1 else n

/-- floor(log2(num / den)) for num, den > 0. -/
def flog2 (num den : Nat) : Int :=
  let k : Int := (Nat.log2 num : Int) - (Nat.log2 den : Int)
  let below : Bool := if k ≥ 0 then decide (num < den * 2 ^ k.toNat) else decide (num * 2 ^ (-k).toNat < den)
  if below then k - 1 else k

/-- num / den divided by 2^q, rounded to an integer, and whether the quotient was not whole. -/
def roundAt (mode : RMode) (neg : Bool) (num den : Nat) (q : Int) : Nat × Bool :=
  let a := if q ≥ 0 then num else num * 2 ^ (-q).toNat
  let d := if q ≥ 0 then den * 2 ^ q.toNat else den
  (roundInt mode neg (a / d) (a % d) d, decide (a % d ≠ 0))

/-- The exponent of the unit in the last place on the subnormal grid (R5). -/
def qmin (m : Fmt) : Int := 1 - (m.bias : Int) - (m.f : Int)

/-- The magnitude num / den rounded to the format's precision on its subnormal grid, without an upper bound (R5): the
magnitude's encoding, continued above the largest finite one, and whether the rounding was inexact. -/
def roundMag (m : Fmt) (mode : RMode) (neg : Bool) (num den : Nat) : Nat × Bool :=
  if num = 0 then (0, false) else
  let e := flog2 num den
  let q := max (e - (m.f : Int)) (qmin m)
  let (n, ix) := roundAt mode neg num den q
  (n + (q - qmin m).toNat * 2 ^ m.f, ix)

/-- The magnitude, rounded with an unbounded exponent, lies below the smallest normal (R156: tiny after rounding). -/
def tinyAfter (m : Fmt) (mode : RMode) (neg : Bool) (num den : Nat) : Bool :=
  if num = 0 then false else
  let e := flog2 num den
  let (n, _) := roundAt mode neg num den (e - (m.f : Int))
  let emin : Int := 1 - (m.bias : Int)
  decide (e + 1 < emin) || (decide (e + 1 = emin) && decide (n < 2 ^ (m.f + 1)))

/-- The sticky-flag bits of `flags` (R157). -/
def fNV : Nat := 1
/-- Division by zero (R157). -/
def fDZ : Nat := 2
/-- Overflow (R157). -/
def fOF : Nat := 4
/-- Underflow (R157). -/
def fUF : Nat := 8
/-- Inexact (R157). -/
def fNX : Nat := 16
/-- NVSTORE (R157). -/
def fNVSTORE : Nat := 32
/-- RNCLAMP (R157). -/
def fRNCLAMP : Nat := 64
/-- RNRANGE (R157). -/
def fRNRANGE : Nat := 128

/-- An encoding and the flags that forming it sets. -/
abbrev FRes := Nat × Nat

/-- The modes that fpm sets for one instruction (R154, R155). -/
structure FMode where
  rm : RMode
  fz : Bool
  dn : Bool
deriving DecidableEq, Repr

/-- The fpm of a word, with the rounding override of a hint (R32, R155): 0 none, 1 to 4 the four modes. -/
def FMode.of (fpm : Word) (rnd : Nat) : FMode :=
  ⟨(match rnd with
    | 0 => RMode.ofRm (slice fpm 1 0)
    | 1 => .rne
    | 2 => .rtz
    | 3 => .rup
    | _ => .rdn), bit fpm 2, bit fpm 3⟩

/-- To nearest even, nothing flushed, NaNs kept: what the store path, the merge unit and the reductions use. -/
def FMode.plain : FMode := ⟨.rne, false, false⟩

/-- The result of an overflow (R156). -/
def overflowMag (m : Fmt) (mode : RMode) (neg : Bool) : Nat :=
  match mode with
  | .rne => infEnc m
  | .rtz => m.maxFin
  | .rup => if neg then m.maxFin else infEnc m
  | .rdn => if neg then infEnc m else m.maxFin

/-- The end of an operation with rounded magnitude `mag` (R156): overflow, flush, underflow, inexact. With FZ = 1 an inexact result that
rounds up to exactly the smallest normal is not flushed, and whether UF is set then is open: it is, as with FZ = 0 (DESIGN CHOICE,
assumption 109). -/
def finishMag (m : Fmt) (md : FMode) (neg : Bool) (mag : Nat) (ix tiny : Bool) : FRes :=
  if mag > m.maxFin then (withSign m neg (overflowMag m md.rm neg), fOF + fNX)
  else if md.fz && decide (mag < 2 ^ m.f) then (withSign m neg 0, fUF + fNX)
  else (withSign m neg mag, (if ix then fNX else 0) + (if ix && tiny then fUF else 0))

/-- A nonzero exact magnitude num / den rounded once and handled as R156 gives. -/
def finish (m : Fmt) (md : FMode) (neg : Bool) (num den : Nat) : FRes :=
  let (mag, ix) := roundMag m md.rm neg num den
  finishMag m md neg mag ix (tinyAfter m md.rm neg num den)

/-- Flushing of a subnormal input (R156, FZ = 1). -/
def flushIn (m : Fmt) (md : FMode) (x : Nat) : Nat := if md.fz && isSub m x then withSign m (fneg m x) 0 else x

/-- A NaN made quiet: its top fraction bit set, its sign and other bits kept (R156). -/
def quiet (m : Fmt) (x : Nat) : Nat := if x.testBit (m.f - 1) then x else x + 2 ^ (m.f - 1)

/-- The NaN result of the inputs in order (R156): canonical under DN or where no input is a NaN. -/
def nanOf (m : Fmt) (md : FMode) (xs : List Nat) : Nat :=
  if md.dn then canonNan m
  else match xs.filter (isNan m) with
    | [] => canonNan m
    | x :: _ => quiet m x

/-- NV when some input is a signalling NaN (R156). -/
def snanFlag (m : Fmt) (xs : List Nat) : Nat := if xs.any (isSnan m) then fNV else 0

/-- The exact sum of two signed magnitudes. -/
def addQ (s1 : Bool) (n1 d1 : Nat) (s2 : Bool) (n2 d2 : Nat) : Bool × Nat × Nat :=
  let a : Int := (if s1 then -1 else 1) * ((n1 * d2 : Nat) : Int)
  let b : Int := (if s2 then -1 else 1) * ((n2 * d1 : Nat) : Int)
  let c := a + b
  (decide (c < 0), c.natAbs, d1 * d2)

/-- The sum of two finite values rounded once: an exact zero keeps a common sign, and otherwise is +0, or -0 under rounding
toward minus infinity (R191). -/
def addFin (m : Fmt) (md : FMode) (s1 : Bool) (n1 d1 : Nat) (s2 : Bool) (n2 d2 : Nat) : FRes :=
  match addQ s1 n1 d1 s2 n2 d2 with
  | (neg, 0, _) =>
    let _ := neg
    (withSign m (if s1 = s2 then s1 else decide (md.rm = .rdn)) 0, 0)
  | (neg, n, d) => finish m md neg n d

/-- va + vb (R190, R156). -/
def fadd (m : Fmt) (md : FMode) (x0 y0 : Nat) : FRes :=
  if isNan m x0 || isNan m y0 then (nanOf m md [x0, y0], snanFlag m [x0, y0]) else
  let x := flushIn m md x0
  let y := flushIn m md y0
  match fval m x, fval m y with
  | .inf a, .inf b => if a = b then (withSign m a (infEnc m), 0) else (canonNan m, fNV)
  | .inf a, _ => (withSign m a (infEnc m), 0)
  | _, .inf b => (withSign m b (infEnc m), 0)
  | .fin a n d, .fin b n' d' => addFin m md a n d b n' d'
  | _, _ => (canonNan m, 0)

/-- The encoding with its sign inverted. -/
def fnegate (m : Fmt) (x : Nat) : Nat := withSign m (!fneg m x) (fmag m x)

/-- va - vb: NaNs keep their own sign (R156, R190). -/
def fsub (m : Fmt) (md : FMode) (x y : Nat) : FRes :=
  if isNan m x || isNan m y then (nanOf m md [x, y], snanFlag m [x, y]) else fadd m md x (fnegate m y)

/-- va times vb (R190, R156). -/
def fmul (m : Fmt) (md : FMode) (x0 y0 : Nat) : FRes :=
  if isNan m x0 || isNan m y0 then (nanOf m md [x0, y0], snanFlag m [x0, y0]) else
  let x := flushIn m md x0
  let y := flushIn m md y0
  let neg := fneg m x != fneg m y
  match fval m x, fval m y with
  | .inf _, .inf _ => (withSign m neg (infEnc m), 0)
  | .inf _, .fin _ n _ => if n = 0 then (canonNan m, fNV) else (withSign m neg (infEnc m), 0)
  | .fin _ n _, .inf _ => if n = 0 then (canonNan m, fNV) else (withSign m neg (infEnc m), 0)
  | .fin _ n d, .fin _ n' d' => if n * n' = 0 then (withSign m neg 0, 0) else finish m md neg (n * n') (d * d')
  | _, _ => (canonNan m, 0)

/-- va times vb plus c, exact and rounded once (R191). -/
def ffma (m : Fmt) (md : FMode) (x0 y0 c0 : Nat) : FRes :=
  let x := flushIn m md x0
  let y := flushIn m md y0
  let c := flushIn m md c0
  let zi : Bool := (isInf m x && fmag m y == 0) || (fmag m x == 0 && isInf m y)
  if isNan m x || isNan m y then (nanOf m md [x, y, c], snanFlag m [x, y, c])
  else if zi then (if isNan m c then nanOf m md [c] else canonNan m, fNV)
  else if isNan m c then (nanOf m md [c], snanFlag m [c]) else
  let neg := fneg m x != fneg m y
  if isInf m x || isInf m y then
    if isInf m c && (fneg m c != neg) then (canonNan m, fNV) else (withSign m neg (infEnc m), 0)
  else match fval m x, fval m y, fval m c with
    | _, _, .inf s => (withSign m s (infEnc m), 0)
    | .fin _ n d, .fin _ n' d', .fin s n3 d3 => addFin m md neg (n * n') (d * d') s n3 d3
    | _, _, _ => (canonNan m, 0)

/-- orderkey (R5): unsigned order of keys is totalOrder of values. -/
def orderkey (bits x : Nat) : Nat := if x.testBit (bits - 1) then 2 ^ bits - 1 - x else x + 2 ^ (bits - 1)

/-- The lower of two encodings by totalOrder (R159). -/
def totalMin (bits x y : Nat) : Nat := if orderkey bits x ≤ orderkey bits y then x else y

/-- The higher of two encodings by totalOrder (R159). -/
def totalMax (bits x y : Nat) : Nat := if orderkey bits x ≤ orderkey bits y then y else x

/-- The `num` variants first set aside every NaN input (R159). -/
def numOf (m : Fmt) (f : Nat → Nat → Nat → Nat) (x y : Nat) : Nat :=
  if isNan m x && !isNan m y then y else if isNan m y && !isNan m x then x else f m.bits x y

/-- `sat(rne(x, fmt), fmt)` as a magnitude (R5). -/
def satRne (m : Fmt) (neg : Bool) (num den : Nat) : Nat := min (roundMag m .rne neg num den).1 m.maxFin

/-- The exact real num / den rounded to nearest even in f32, an infinity on overflow. -/
def rneF32 (neg : Bool) (num den : Nat) : Nat :=
  let mag := (roundMag f32 .rne neg num den).1
  withSign f32 neg (if mag > f32.maxFin then infEnc f32 else mag)

/-- The value of a finite f32 encoding as num / den, its sign apart (used for scales, R150). -/
def scaleQ (x : Nat) : Nat × Nat :=
  match fval f32 x with
  | .fin _ n d => (n, d)
  | _ => (1, 1)

end Sys2Proof.Machine
end

