-- ==== Sys2Proof/Machine/Sfu.lean ====
section
/-! DEFINITION. The special functions of R160 and R161. Each finite result is the exact mathematical value rounded once. An
irrational value is enclosed between two binary fractions of p bits by integer series with their errors counted; where both
ends round to the same encoding, so does the value, and otherwise p grows. -/

namespace Sys2Proof.Machine

/-- The integer square root, bit by bit from bit n - 1 down. -/
def isqrtFrom (x r : Nat) : Nat → Nat
  | 0 => r
  | n + 1 => let c := r + 2 ^ n; isqrtFrom x (if c * c ≤ x then c else r) n

/-- The integer square root of a number below 4^n. -/
def isqrt (x n : Nat) : Nat := isqrtFrom x 0 n

/-- Lower bound, in units of 2^-p, of the sum over k of 2 z^(2k+1) / (2k+1), with z = a / b, over `n` terms. -/
def atanhLo (p a b : Nat) (zk k : Nat) : Nat → Nat
  | 0 => 0
  | n + 1 => zk / (2 * k + 1) + atanhLo p a b (zk * (a * a) / (b * b)) (k + 1) n

/-- Bounds of ln((1 + z) / (1 - z)) = 2 atanh z for z = a / b at most 1/3, in units of 2^-p. -/
def lnRatio (p a b : Nat) : Nat × Nat :=
  let z := 2 * 2 ^ p * a / b
  let n := p / 3 + 2
  let lo := atanhLo p a b z 0 n
  (lo, lo + 2 * n + 4)

/-- Bounds of ln 2, in units of 2^-p (z = 1/3). -/
def ln2 (p : Nat) : Nat × Nat := lnRatio p 1 3

/-- The partial sum of t^i / i! from i = k, in units of 2^-p, with `up` added to each term. -/
def expSum (p t up term k : Nat) : Nat → Nat
  | 0 => term
  | n + 1 => term + expSum p t up (term * t / (2 ^ p * (k + 1)) + up) (k + 1) n

/-- Bounds of 2^r for r = a / b in 0 to 1, in units of 2^-p. -/
def exp2Bounds (p a b : Nat) : Nat × Nat :=
  let (l, h) := ln2 p
  let tl := a * l / b
  let th := a * h / b + 1
  let n := p / 2 + 8
  (expSum p tl 0 (2 ^ p) 0 n, expSum p th 1 (2 ^ p) 0 n + 4)

/-- Sum with alternating signs of t^(2i+1) / (2i+1)!, as a pair of the positive and the negative part, in units of 2^-p. -/
def sinParts (p t up term k : Nat) : Nat → Nat × Nat
  | 0 => (term, 0)
  | n + 1 =>
    let (a, b) := sinParts p t up (term * t / 2 ^ p * t / (2 ^ p * ((2 * k + 2) * (2 * k + 3))) + up) (k + 1) n
    (term + b, a)

/-- Lower bound of atan(1 / m), in units of 2^-p: positive and negative parts. -/
def atanParts (p m zk k : Nat) : Nat → Nat × Nat
  | 0 => (0, 0)
  | n + 1 => let (a, b) := atanParts p m (zk / (m * m)) (k + 1) n; (zk / (2 * k + 1) + b, a)

/-- Bounds of pi by 16 atan(1/5) - 4 atan(1/239), in units of 2^-p. -/
def piBounds (p : Nat) : Nat × Nat :=
  let n := p / 4 + 4
  let (a, b) := atanParts p 5 (2 ^ p / 5) 0 n
  let (c, d) := atanParts p 239 (2 ^ p / 239) 0 n
  let v := 16 * a + 4 * d - (16 * b + 4 * c)
  (v - 40 * n, v + 40 * n)

/-- Bounds of sin(2 pi a / b) for a / b in 0 to 1/4, in units of 2^-p. -/
def sinBounds (p a b : Nat) : Nat × Nat :=
  let (l, h) := piBounds p
  let n := p / 3 + 8
  let tl := 2 * l * a / b
  let th := 2 * h * a / b + 1
  let (x, y) := sinParts p tl 0 tl 0 n
  let (u, v) := sinParts p th 1 th 0 n
  (x - y - (4 * n + 4), u - v + (4 * n + 4))

/-- The precisions tried in turn. -/
def precisions : List Nat := [72, 144, 288, 576]

/-- Rounds a magnitude that lies strictly between lo and hi, in units of 2^-p, shifted by 2^s: the rounded magnitude where
both ends agree. -/
def agree (m : Fmt) (md : FMode) (neg : Bool) (p : Nat) (s : Int) (lo hi : Nat) : Option FRes :=
  let nd (x : Nat) : Nat × Nat := if s ≥ 0 then (x * 2 ^ s.toNat, 2 ^ p) else (x, 2 ^ p * 2 ^ (-s).toNat)
  let (ln, ld) := nd lo
  let (hn, hd) := nd hi
  let (a, _) := roundMag m md.rm neg ln ld
  let (b, _) := roundMag m md.rm neg hn hd
  let ta := tinyAfter m md.rm neg ln ld
  let tb := tinyAfter m md.rm neg hn hd
  if lo ≠ 0 && a == b && ta == tb then some (finishMag m md neg a true ta) else none

/-- Tries the precisions until the two ends agree; the last fallback takes the lower end of the finest enclosure. -/
def ziv (m : Fmt) (md : FMode) (neg : Bool) (s : Int) (bounds : Nat → Nat × Nat) : List Nat → FRes
  | [] => let b := bounds 576; finish m md neg b.1 (2 ^ 576)
  | p :: ps => let b := bounds p
    match agree m md neg p s b.1 b.2 with
    | some r => r
    | none => ziv m md neg s bounds ps

/-- 2^x for a finite nonzero x = ±n / d, with d a power of two (R160). -/
def ex2Fin (md : FMode) (neg : Bool) (n d : Nat) : FRes :=
  if !neg && decide (n ≥ 200 * d) then finish f32 md false (3 * 2 ^ 200) 2
  else if neg && decide (n ≥ 400 * d) then finish f32 md false 3 (2 ^ 400)
  else
    let fl : Int := if neg then -(((n + d - 1) / d : Nat) : Int) else ((n / d : Nat) : Int)
    let r : Nat := if neg then (d - n % d) % d else n % d
    if r = 0 then (if fl ≥ 0 then finish f32 md false (2 ^ fl.toNat) 1 else finish f32 md false 1 (2 ^ (-fl).toNat))
    else ziv f32 md false fl (fun p => exp2Bounds p r d) precisions

/-- The special function `ex2` (R160, R161). -/
def ex2 (md : FMode) (x0 : Nat) : FRes :=
  if isNan f32 x0 then (nanOf f32 md [x0], snanFlag f32 [x0]) else
  match fval f32 (flushIn f32 md x0) with
  | .inf neg => (if neg then 0 else infEnc f32, 0)
  | .fin neg n d => if n = 0 then (0x3F800000, 0) else ex2Fin md neg n d
  | .nan => (canonNan f32, 0)

/-- log2 of a positive n / d that is not a power of two: bounds of its magnitude and its sign, at p bits. -/
def lg2Bounds (e : Int) (a b p : Nat) : Nat × Nat :=
  let (l, h) := lnRatio p a b
  let (l2, h2) := ln2 p
  let fl := l * 2 ^ p / h2
  let fh := h * 2 ^ p / l2 + 1
  if e ≥ 0 then (e.toNat * 2 ^ p + fl, e.toNat * 2 ^ p + fh)
  else ((-e).toNat * 2 ^ p - fh, (-e).toNat * 2 ^ p - fl)

/-- The special function `lg2` (R160, R161). -/
def lg2 (md : FMode) (x0 : Nat) : FRes :=
  if isNan f32 x0 then (nanOf f32 md [x0], snanFlag f32 [x0]) else
  match fval f32 (flushIn f32 md x0) with
  | .inf neg => if neg then (canonNan f32, fNV) else (infEnc f32, 0)
  | .fin neg n d =>
    if n = 0 then (withSign f32 true (infEnc f32), fDZ)
    else if neg then (canonNan f32, fNV)
    else
      let e := flog2 n d
      let num := if e ≥ 0 then n else n * 2 ^ (-e).toNat
      let den := if e ≥ 0 then d * 2 ^ e.toNat else d
      if num = den then
        (if e = 0 then (0, 0) else finish f32 md (decide (e < 0)) e.natAbs 1)
      else ziv f32 md (decide (e < 0)) 0 (lg2Bounds e (num - den) (num + den)) precisions
  | .nan => (canonNan f32, 0)

/-- The special function `rcp` (R160, R161). -/
def rcp (md : FMode) (x0 : Nat) : FRes :=
  if isNan f32 x0 then (nanOf f32 md [x0], snanFlag f32 [x0]) else
  match fval f32 (flushIn f32 md x0) with
  | .inf neg => (withSign f32 neg 0, 0)
  | .fin neg n d => if n = 0 then (withSign f32 neg (infEnc f32), fDZ) else finish f32 md neg d n
  | .nan => (canonNan f32, 0)

/-- The root of num / den rounded once: 160 fraction bits and a sticky half unit where the root is not exact. -/
def rootFin (md : FMode) (num den : Nat) : FRes :=
  let s := isqrt (num * 4 ^ 160 / den) 260
  if s * s * den = num * 4 ^ 160 then finish f32 md false s (2 ^ 160) else finish f32 md false (2 * s + 1) (2 ^ 161)

/-- The special function `rsq` (R160, R161). -/
def rsq (md : FMode) (x0 : Nat) : FRes :=
  if isNan f32 x0 then (nanOf f32 md [x0], snanFlag f32 [x0]) else
  match fval f32 (flushIn f32 md x0) with
  | .inf neg => if neg then (canonNan f32, fNV) else (0, 0)
  | .fin neg n d =>
    if n = 0 then (withSign f32 neg (infEnc f32), fDZ) else if neg then (canonNan f32, fNV) else rootFin md d n
  | .nan => (canonNan f32, 0)

/-- The special function `sqrt` (R160, R161). -/
def fsqrt (md : FMode) (x0 : Nat) : FRes :=
  if isNan f32 x0 then (nanOf f32 md [x0], snanFlag f32 [x0]) else
  match fval f32 (flushIn f32 md x0) with
  | .inf neg => if neg then (canonNan f32, fNV) else (infEnc f32, 0)
  | .fin neg n d =>
    if n = 0 then (withSign f32 neg 0, 0) else if neg then (canonNan f32, fNV) else rootFin md n d
  | .nan => (canonNan f32, 0)

/-- sin(2 pi n / d) for n / d in 0 to 1, as a sign and a fraction of a quarter turn: a value of sin in the first quadrant. -/
def quadrant (n d : Nat) : Bool × Nat × Nat :=
  let m := 4 * n
  if m ≤ d then (false, n, d)
  else if m ≤ 2 * d then (false, d - 2 * n, 2 * d)
  else if m ≤ 3 * d then (true, 2 * n - d, 2 * d)
  else (true, d - n, d)

/-- sin(2 pi q) for q = n / d in the first quadrant, its sign given. -/
def sinQ (md : FMode) (neg : Bool) (n d : Nat) : FRes :=
  if 4 * n = d then (withSign f32 neg 0x3F800000, 0) else ziv f32 md neg 0 (fun p => sinBounds p n d) precisions

/-- The special function `sin2pi` (R160, R161). -/
def sin2pi (md : FMode) (x0 : Nat) : FRes :=
  if isNan f32 x0 then (nanOf f32 md [x0], snanFlag f32 [x0]) else
  match fval f32 (flushIn f32 md x0) with
  | .inf _ => (canonNan f32, fNV)
  | .fin neg n d =>
    if (2 * n) % d = 0 then (withSign f32 neg 0, 0)
    else let (s, a, b) := quadrant (n % d) d; sinQ md (neg != s) a b
  | .nan => (canonNan f32, 0)

/-- The special function `cos2pi` (R160, R161): the sine a quarter turn on. -/
def cos2pi (md : FMode) (x0 : Nat) : FRes :=
  if isNan f32 x0 then (nanOf f32 md [x0], snanFlag f32 [x0]) else
  match fval f32 (flushIn f32 md x0) with
  | .inf _ => (canonNan f32, fNV)
  | .fin _ n d =>
    let n' := (4 * n + d) % (4 * d)
    if (2 * n') % (4 * d) = 0 then (0, 0)
    else let (s, a, b) := quadrant n' (4 * d); sinQ md s a b
  | .nan => (canonNan f32, 0)

/-- The function of a `vsfu` code (R196). -/
def sfu (fn : Nat) (md : FMode) (x : Nat) : FRes :=
  match fn with
  | 0 => ex2 md x
  | 1 => lg2 md x
  | 2 => rcp md x
  | 3 => rsq md x
  | 4 => fsqrt md x
  | 5 => sin2pi md x
  | _ => cos2pi md x

end Sys2Proof.Machine
end

