-- ==== Sys2Proof/Machine/Formats.lean ====
section
/-! DEFINITION. Format slots, the narrowing of the store path, the residue path and the order of sums of the matrix array
(R149 to R153, R162 to R166), the conversions of R195 and R197, and the merge of R213. -/

namespace Sys2Proof.Machine

/-- FMT of a slot word (R150). -/
def slotFmt (w : Word) : Nat := slice w 3 0

/-- MODE of a slot word (R150). -/
def slotMode (w : Word) : Nat := slice w 7 4

/-- The scale of a slot as num / den: 1 under MODE 0 (R150, R152). -/
def slotScale (w : Word) : Nat × Nat := if slotMode w = 1 then scaleQ (slice w 63 32) else (1, 1)

/-- The float format of an FMT code that the store path accepts (R153). -/
def storeFmt (c : Nat) : Option Fmt :=
  match c with
  | 1 => some f16
  | 2 => some bf16
  | 3 => some f8a
  | 4 => some f8b
  | 5 => some f6
  | _ => none

/-- Bytes of one element of a store format (R100, R237). -/
def storeSize (c : Nat) : Nat := if c = 1 ∨ c = 2 then 2 else 1

/-- `narrow` (R153): the encoding, and whether NVSTORE is set. -/
def narrow (x : Nat) (slot : Word) : Nat × Bool :=
  match storeFmt (slotFmt slot) with
  | none => (0, false)
  | some m =>
    let (sn, sd) := slotScale slot
    match fval f32 x with
    | .nan => if m.nans = 0 then (0, true) else (withSign m (fneg f32 x) (canonNan m), false)
    | .inf neg => (withSign m neg m.maxFin, false)
    | .fin neg n d => (withSign m neg (satRne m neg (n * sd) (d * sn)), false)

/-- A slot word that a launch accepts (R151). -/
def slotOk (w : Word) : Bool :=
  decide (slotFmt w ≤ 7) && decide (slotMode w ≤ 1) && decide (slice w 31 8 = 0) &&
    (decide (slotMode w = 0) ||
      (decide (slotFmt w ≠ 0) && decide (slice w 63 32 / 2 ^ 23 ≠ 0) && decide (slice w 63 32 < 0x7F800000)))

/-- `rnin` (R149): the input's value, and whether it was clamped. -/
def rnin (c : Nat) (rn4 : Bool) : Int × Bool :=
  let x := if rn4 then sext (c % 16) 4 else sext (c % 256) 8
  let lim : Int := if rn4 then 7 else 127
  if x < -lim then (-lim, true) else (x, false)

/-- A residue triple as an RN25 word (R165). -/
def rnWord (a b c : Nat) : Nat := a + 2 ^ 8 * b + 2 ^ 16 * c

/-- Channel A of an RN25 word. -/
def rnA (w : Nat) : Nat := w % 256
/-- Channel B of an RN25 word. -/
def rnB (w : Nat) : Nat := w / 256 % 256
/-- Channel C of an RN25 word. -/
def rnC (w : Nat) : Nat := w / 65536 % 512

/-- A 32-bit word that is well-formed as an RN25 word (R165). -/
def rnOk (w : Nat) : Bool := decide (w / 2 ^ 25 % 128 = 0) && decide (rnC w ≤ 256)

/-- `canon` (R165); RNRANGE is set when the word is not well-formed. -/
def canon (w : Nat) : Nat := rnWord (rnA w % 255) (rnB w) (rnC w % 257)

/-- The triple of an integer, as an RN25 word (R162, R165). -/
def rnOf (x : Int) : Nat := rnWord (x % 255).toNat (x % 256).toNat (x % 257).toNat

/-- The range of `crt` (R5). -/
def inRange (x : Int) : Bool := decide (-8388480 ≤ x) && decide (x ≤ 8388479)

/-- `crt` (R5): by the inverses of the three products of two moduli. -/
def crt (a b c : Nat) : Int :=
  let m := 255 * 256 * 257
  let u := (a * (256 * 257) * 128 + b * (255 * 257) * 255 + c * (255 * 256) * 129) % m
  if u ≥ 8388480 then (u : Int) - m else u

/-- `rndec` (R165). -/
def rndec (w : Nat) : Int := let u := canon w; crt (rnA u) (rnB u) (rnC u)

/-- `rnadd` (R165). -/
def rnadd (w1 w2 : Nat) : Nat :=
  let u := canon w1
  let v := canon w2
  rnWord ((rnA u + rnA v) % 255) ((rnB u + rnB v) % 256) ((rnC u + rnC v) % 257)

/-- A residue accumulator element after one product of x and y: the triple, channel by channel (R162). -/
def rnMac (w : Nat) (x y : Int) : Nat :=
  rnWord ((rnA w + (x % 255).toNat * (y % 255).toNat) % 255) ((rnB w + (x % 256).toNat * (y % 256).toNat) % 256)
    ((rnC w + (x % 257).toNat * (y % 257).toNat) % 257)

/-- The count of a placed integer (R163). -/
def placeCount (v : Int) : Nat := (v.natAbs + 16128) / 16129

/-- A term of a float sum (R166): NaN, an infinity, or a signed magnitude. -/
abbrev Term := FVal

/-- The exact product of two terms, a scale on each (R152, R166). -/
def mulTerm (x y : FVal) (sa sb : Nat × Nat) : FVal :=
  match x, y with
  | .nan, _ => .nan
  | _, .nan => .nan
  | .inf a, .inf b => .inf (a != b)
  | .inf a, .fin b n _ => if n = 0 then .nan else .inf (a != b)
  | .fin a n _, .inf b => if n = 0 then .nan else .inf (a != b)
  | .fin a n d, .fin b n' d' => .fin (a != b) (n * n' * (sa.1 * sb.1)) (d * d' * (sa.2 * sb.2))

/-- The largest floor(log2) over the nonzero terms. -/
def maxLog : List FVal → Option Int
  | [] => none
  | .fin _ n d :: ts =>
    if n = 0 then maxLog ts
    else match maxLog ts with
      | none => some (flog2 n d)
      | some e => some (max e (flog2 n d))
  | _ :: ts => maxLog ts

/-- A term truncated toward zero to a whole number of units 2^q (R166). -/
def truncTerm (q : Int) : FVal → Int
  | .fin neg n d =>
    let m : Nat := if q ≥ 0 then n / (d * 2 ^ q.toNat) else n * 2 ^ (-q).toNat / d
    if neg then -(m : Int) else m
  | _ => 0

/-- A term that is -0. -/
def isNegZero : FVal → Bool
  | .fin true 0 _ => true
  | _ => false

/-- The sum of R166, as an f32 encoding. -/
def sumTerms (ts : List FVal) : Nat :=
  if ts.any (fun t => t == .nan) || (ts.any (fun t => t == .inf false) && ts.any (fun t => t == .inf true)) then 0x7FC00000
  else if ts.any (fun t => t == .inf false) then 0x7F800000
  else if ts.any (fun t => t == .inf true) then 0xFF800000
  else match maxLog ts with
    | none => if ts.all isNegZero then 0x80000000 else 0
    | some e =>
      let q := e - 60
      let s := (ts.map (truncTerm q)).foldl (· + ·) 0
      if s = 0 then 0
      else
        let r := if q ≥ 0 then rneF32 (decide (s < 0)) (s.natAbs * 2 ^ q.toNat) 1
                 else rneF32 (decide (s < 0)) s.natAbs (2 ^ (-q).toNat)
        if fmag f32 r = 0 then 0 else r

/-- An exact float-to-float conversion, rounded where the target is narrower (R195). -/
def cvtFloat (src dst : Fmt) (md : FMode) (x0 : Nat) : FRes :=
  if isNan src x0 then
    let nv := snanFlag src [x0]
    if md.dn then (canonNan dst, nv)
    else
      let fr := x0 % 2 ^ src.f
      let fr' := if src.f ≥ dst.f then fr / 2 ^ (src.f - dst.f) else fr * 2 ^ (dst.f - src.f)
      (withSign dst (fneg src x0) (infEnc dst + (2 ^ (dst.f - 1) + fr' % 2 ^ (dst.f - 1))), nv)
  else match fval src (flushIn src md x0) with
    | .inf neg => (withSign dst neg (infEnc dst), 0)
    | .fin neg n d => if n = 0 then (withSign dst neg 0, 0) else finish dst md neg n d
    | .nan => (canonNan dst, 0)

/-- `cvtint` (R195): an f32 to an integer in lo to hi. -/
def cvtInt (md : FMode) (lo hi : Int) (x0 : Nat) : Int × Nat :=
  match fval f32 (flushIn f32 md x0) with
  | .nan => (0, fNV)
  | .inf neg => (if neg then lo else hi, fNV)
  | .fin neg n d =>
    let m := roundInt md.rm neg (n / d) (n % d) d
    let y : Int := if neg then -(m : Int) else m
    if y < lo then (lo, fNV) else if y > hi then (hi, fNV) else (y, if n % d = 0 then 0 else fNX)

/-- An integer to an f32, rounded; NX if inexact (R195). -/
def cvtFromInt (md : FMode) (v : Int) : FRes := if v = 0 then (0, 0) else finish f32 md (decide (v < 0)) v.natAbs 1

/-- `vfround` (R197): rounded to an integral value in its own format. -/
def froundInt (m : Fmt) (md : FMode) (x0 : Nat) : FRes :=
  if isNan m x0 then (nanOf m md [x0], snanFlag m [x0]) else
  match fval m (flushIn m md x0) with
  | .fin neg n d =>
    let r := roundInt md.rm neg (n / d) (n % d) d
    (withSign m neg (roundMag m .rtz neg r 1).1, 0)
  | _ => (x0, 0)

/-- A value rounded to f32 with every NaN canonical (R213). -/
def canonRes (r : FRes) : Nat := if isNan f32 r.1 then canonNan f32 else r.1

/-- `rne(x - y, f32)` as the merge unit and the router form it. -/
def subRne (x y : Nat) : Nat := canonRes (fsub f32 .plain x y)

/-- The weight of a partial whose maximum is x against the larger m (R213). -/
def mergeW (x m : Nat) : Nat := if x = m then 0x3F800000 else canonRes (ex2 .plain (subRne x m))

/-- One lane's partial: the running maximum, the sum and the two outputs (R213). -/
structure Partial where
  m : BitVec 32
  s : BitVec 32
  o0 : BitVec 32
  o1 : BitVec 32
deriving DecidableEq, Repr

/-- The partial of a lane that does not take part: minus infinity and +0 (R213). -/
def Partial.empty : Partial := ⟨0xFF800000, 0, 0, 0⟩

/-- `merge` (R213). The rule's `rne` has no upper bound: a rounded magnitude above the largest finite number becomes an infinity, and
an exact cancellation gives +0 (DESIGN CHOICE, assumption 79). -/
def Partial.merge (a b : Partial) : Partial :=
  let m := totalMax 32 a.m.toNat b.m.toNat
  let w1 := mergeW a.m.toNat m
  let w2 := mergeW b.m.toNat m
  let step (x y : BitVec 32) : BitVec 32 :=
    BitVec.ofNat 32 (canonRes (ffma f32 .plain x.toNat w1 (canonRes (fmul f32 .plain y.toNat w2))))
  ⟨BitVec.ofNat 32 (if isNan f32 m then canonNan f32 else m), step a.s b.s, step a.o0 b.o0, step a.o1 b.o1⟩

end Sys2Proof.Machine
end

