-- ==== Sys2Proof/Machine/Flags.lean ====
section
/-! DEFINITION. The floating-point mode and the sticky flags of a gang (R154 to R158), and the flag computations of operations
on several sub-elements. -/

namespace Sys2Proof.Machine

/-- fpm after a write (R154): reserved bits are ignored. -/
def fpmWrite (v : Word) : Word := v &&& 0xF
/-- flags after a write (R157): reserved bits are ignored. -/
def flagsWrite (v : Word) : Word := v &&& 0xFF

/-- The rounding override of the unit's `hint.vc` (R32): 0 where there is none. -/
def hintRnd (hs : List Hint) : Nat :=
  (hs.findSome? fun h => match h with | .vc _ _ _ _ rnd => some rnd.toNat | _ => none).getD 0

/-- The modes that govern a vector floating-point instruction at its issue (R155). -/
def Ctx.mode (c : Ctx) : FMode := .of c.gang.fpm (hintRnd c.hints)

/-- The union of the flags of several results (R157). -/
def orFlags (l : List Nat) : Nat := l.foldl (· ||| ·) 0

/-- A word of b-bit results, formed sub-element by sub-element, with the flags of all of them. -/
def mapFlags (b : Nat) (f : Nat → FRes) : Word × Nat :=
  let rs := (List.range (64 / b)).map f
  (pack b (rs.map Prod.fst), orFlags (rs.map Prod.snd))

/-- NVSTORE where the narrowing of any element set it (R153). -/
def nvstore (any : Bool) : Nat := if any then fNVSTORE else 0

end Sys2Proof.Machine
end

