-- ==== Sys2Proof/Machine/Operands.lean ====
section
/-! DEFINITION. What each unit reads, writes and accepts (R18, R21 to R23, R29 to R35): its chain bit, its scalar and vector
operands and groups, and the hints that its target accepts; the extended immediate and the other values that hints supply. -/

namespace Sys2Proof.Machine

/-- How a target uses a `hint.vc` (R30, R32). -/
inductive VcUse where
  /-- Not accepted. -/
  | no
  /-- A rounding override and nothing else. -/
  | rnd
  /-- A vc operand, a rounding override, or both. -/
  | vcRnd
  /-- Required, with vc and nothing else. -/
  | vcOnly
  /-- Required, with segment registers and nothing else. -/
  | seg
deriving DecidableEq, Repr

/-- What a unit names and accepts. -/
structure Use where
  /-- The chain bit, where the format has one (R18). -/
  chain : Option (BitVec 1) := none
  /-- Scalar registers read. -/
  sr : List Nat := []
  /-- Scalar registers written. -/
  sw : List Nat := []
  /-- Vector sources (62 and 63 name latches). -/
  vs : List (BitVec 6) := []
  /-- Vector destinations (62 is `_`). -/
  vd : List (BitVec 6) := []
  /-- Groups: first register, members, and further members for each 8 lanes of the width (R22). -/
  groups : List (BitVec 6 × Nat × Nat) := []
  /-- Bits of the immediate or displacement that `hint.imm` extends; 0 where it is not accepted (R31). -/
  imm : Nat := 0
  vc : VcUse := .no
  /-- `hint.ord`: 0 not accepted, 1 release alone, 2 any (R33, R245). -/
  ord : Nat := 0
  /-- `hint.off` is accepted (R35). -/
  off : Bool := false
  /-- The scope that the instruction names (R346). -/
  scope : Option (BitVec 3) := none
deriving DecidableEq, Repr

/-- A scalar instruction of one destination and two sources. -/
def Use.sss (d a b : BitVec 5) (c : BitVec 1) : Use := { chain := some c, sr := [a.toNat, b.toNat], sw := [d.toNat] }
/-- A scalar instruction of one destination and one source. -/
def Use.ss (d a : BitVec 5) (c : BitVec 1) : Use := { chain := some c, sr := [a.toNat], sw := [d.toNat] }
/-- A vector instruction of two sources. -/
def Use.vvv (d a b : BitVec 6) (c : BitVec 1) : Use := { chain := some c, vs := [a, b], vd := [d] }
/-- A vector instruction of one source. -/
def Use.vv (d a : BitVec 6) (c : BitVec 1) : Use := { chain := some c, vs := [a], vd := [d] }
/-- The offset register of a format-M global access: 63 selects lane mode and names no register (R234). -/
def laneVo (o : BitVec 6) : List (BitVec 6) := if o = 63 then [] else [o]

/-- What each instruction names and accepts: `vfma` takes a rounding override in its `hint.vc` (DEDUCED, assumption 116). -/
def use : Instr → Use
  | .br _ | .brLanes _ _ | .brAny _ _ | .brAll _ _ | .brNone _ _ | .joinat _ => { imm := 18 }
  | .call _ => { imm := 18, sw := [31] }
  | .brsZ a _ | .brsNz a _ | .brsNeg a _ | .brsNneg a _ => { imm := 17, sr := [a.toNat] }
  | .jr a c => { chain := some c, sr := [a.toNat] }
  | .jrl a c => { chain := some c, sr := [a.toNat], sw := [31] }
  | .ret c => { chain := some c, sr := [31] }
  | .yield d _ c => { chain := some c, sw := [d.toNat], imm := 14 }
  | .barArrive d a _ c => .ss d a c
  | .barWait a _ c | .barSync a _ c => { chain := some c, sr := [a.toNat] }
  | .barQuery d _ c => { chain := some c, sw := [d.toNat] }
  | .sget d _ c => { chain := some c, sw := [d.toNat] }
  | .sset a _ c => { chain := some c, sr := [a.toNat] }
  | .spawn d a c | .launch d a c => .ss d a c
  | .tabortRetry a c | .tabortDrop a c => { chain := some c, sr := [a.toNat] }
  | .depset a b c => { chain := some c, sr := [a.toNat, b.toNat] }
  | .depdec d a b c => .sss d a b c
  | .depread d a c => .ss d a c
  | .qinit a _ c | .qpush a _ c => { chain := some c, sr := [a.toNat] }
  | .qpop d _ c => { chain := some c, sw := [d.toNat] }
  | .qtry d _ c => { chain := some c, sw := [d.toNat, d.toNat + 1] }
  | .sadd d a b c | .ssub d a b c | .sand d a b c | .sor d a b c | .sxor d a b c | .sshl d a b c | .sshr d a b c
  | .ssra d a b c | .smul d a b c | .smulh d a b c | .smulhn d a b c | .sdiv d a b c | .sdivn d a b c | .srem d a b c
  | .sremn d a b c | .scmp _ d a b c | .smin d a b c | .smax d a b c | .sminn d a b c | .smaxn d a b c => .sss d a b c
  | .sclz d a c | .sctz d a c | .spopc d a c => .ss d a c
  | .saddi d a _ c | .sandi d a _ c | .sori d a _ c | .sxori d a _ c => { Use.ss d a c with imm := 14 }
  | .sshli d a _ c | .sshri d a _ c | .ssrai d a _ c => { Use.ss d a c with imm := 14 }
  | .sld d a _ c => { Use.ss d a c with imm := 14 }
  | .sst d a _ c => { chain := some c, sr := [d.toNat, a.toNat], imm := 14 }
  | .sldk _ a _ c => { chain := some c, sr := [a.toNat], imm := 14 }
  | .vadd _ d a b _ c | .vaddSat _ d a b _ c | .vsub _ d a b _ c | .vsubSat _ d a b _ c | .vmul _ d a b _ c
  | .vmulh _ d a b _ c | .vmin _ d a b _ c | .vmax _ d a b _ c | .vshl _ d a b _ c | .vshr _ d a b _ c
  | .vsra _ d a b _ c => .vvv d a b c
  | .vand _ d a b c | .vor _ d a b c | .vxor _ d a b c | .vandn _ d a b c | .vsel _ d a b c | .vzipI8 _ d a b c
  | .vzipI16 _ d a b c | .vzipI32 _ d a b c | .vunzipI8 _ d a b c | .vunzipI16 _ d a b c | .vunzipI32 _ d a b c =>
    .vvv d a b c
  | .vmov _ d a c | .vrnenc _ d a c | .vrndec _ d a c => .vv d a c
  | .vmovi _ d _ _ c => { chain := some c, vd := [d], imm := 9 }
  | .vaddi _ d a _ c | .vshiL _ d a _ c | .vshiR _ d a _ c | .vshiRa _ d a _ c => { Use.vv d a c with imm := 9 }
  | .vcmp _ _ a b _ c | .vcmp64 _ _ a b _ c | .vfcmp _ _ a b _ c => { chain := some c, vs := [a, b] }
  | .vfcmpt _ _ a b _ _ c => { chain := some c, vs := [a, b] }
  | .vbcast _ d a _ c => { chain := some c, sr := [a.toNat], vd := [d] }
  | .vlane _ d c => { chain := some c, vd := [d] }
  | .vsget d a b c => { chain := some c, sr := [b.toNat], sw := [d.toNat], vs := [a] }
  | .vsput _ d a b c => { chain := some c, sr := [a.toNat, b.toNat], vd := [d] }
  | .vwiden _ d a _ c => .vv d a c
  | .vnarrow _ d a w c => { chain := some c, vs := if w.toNat < 16 then [a] else [a, d], vd := [d] }
  | .vclz _ d a _ c | .vpopc _ d a _ c | .vbrev _ d a _ c | .vfabs _ d a _ c | .vfneg _ d a _ c => .vv d a c
  | .vfadd _ d a b _ c | .vfsub _ d a b _ c | .vfmul _ d a b _ c => { Use.vvv d a b c with vc := .rnd }
  | .vfma _ d a b _ c => { chain := some c, vs := [a, b, d], vd := [d], vc := .vcRnd }
  | .vfmin _ d a b _ c | .vfmax _ d a b _ c | .vfminnum _ d a b _ c | .vfmaxnum _ d a b _ c => .vvv d a b c
  | .vfcvt _ d a _ c => { Use.vv d a c with vc := .rnd }
  | .vsfu _ d a _ c => { Use.vv d a c with vc := .rnd }
  | .vfround _ d a _ c => { Use.vv d a c with vc := .rnd }
  | .kand _ _ _ _ c | .kor _ _ _ _ c | .kxor _ _ _ _ c | .kandn _ _ _ _ c | .kmovMask _ _ _ c => { chain := some c }
  | .kmovFromScalar _ _ a c => { chain := some c, sr := [a.toNat] }
  | .kmovToScalar d _ c | .kpop d _ c => { chain := some c, sw := [d.toNat] }
  | .vshfl _ d a b _ _ c => .vvv d a b c
  | .vshfli _ d a _ c => { Use.vv d a c with imm := 9 }
  | .voteAny _ d _ c | .voteAll _ d _ c | .voteBallot _ d _ c => { chain := some c, sw := [d.toNat] }
  | .voteEq _ d a c => { chain := some c, sw := [d.toNat], vs := [a] }
  | .xred _ d a _ _ c => { chain := some c, sw := [d.toNat], vs := [a], vc := .rnd }
  | .xscan _ d a _ _ _ c => { Use.vv d a c with vc := .rnd }
  | .xmaxi _ d a _ c => { chain := some c, sw := [d.toNat], vs := [a] }
  | .gwidthW d c | .gwidthSm d c | .gwidthAm d c | .gwidthNa d c => { chain := some c, sw := [d.toNat] }
  | .cmrgPut a x c => { chain := some c, sr := [a.toNat], groups := [(x, 2, 0)] }
  | .cmrgGet d a x c => { chain := some c, sr := [a.toNat], sw := [d.toNat], groups := [(x, 2, 0)] }
  | .cmrgReset a b c => { chain := some c, sr := [a.toNat, b.toNat] }
  | .mma _ _ _ v w c | .mmaZ _ _ _ v w c => { chain := some c, groups := [(v, 2, 0), (w, 2, 0)] }
  | .mmas _ _ _ v w c | .mmasZ _ _ _ v w c => { chain := some c, groups := [(v, 2, 0), (w, 2, 0)], vc := .seg }
  | .accZero _ _ c | .accRel _ c | .accMov _ _ c => { chain := some c }
  | .accoutI32 _ d c => { chain := some c, groups := [(d, 0, 1)] }
  | .accoutF32 _ _ _ d w s c => { chain := some c, vs := if s = 1 then [w] else [], groups := [(d, 0, 1)] }
  | .accin _ s _ c => { chain := some c, groups := [(s, 0, 1)] }
  | .accst _ b _ c | .accld _ b _ c => { chain := some c, sr := [b.toNat], off := true }
  | .ldl _ t b o _ l _ c =>
    { chain := some c, sr := [b.toNat], vs := if l = 1 then [] else [o], vd := [t], off := true }
  | .stl _ t b o _ l _ c => { chain := some c, sr := [b.toNat], vs := if l = 1 then [t] else [t, o], off := true }
  | .ldfrag _ t b _ _ _ c => { chain := some c, sr := [b.toNat], groups := [(t, 2, 0)], off := true }
  | .stfrag _ t b _ _ c => { chain := some c, sr := [b.toNat], groups := [(t, 0, 1)], off := true }
  | .catom _ t b v _ s | .catomExch t b v _ s =>
    { sr := [b.toNat], vs := [v, t], vd := [t], ord := 2, off := true, scope := some s }
  | .catomCas t b v _ s =>
    { sr := [b.toNat], vs := [v, t], vd := [t], vc := .vcOnly, ord := 2, off := true, scope := some s }
  | .gld _ t b o _ c => { chain := some c, sr := [b.toNat], vs := laneVo o, vd := [t], off := true }
  | .gldF6p _ t b o c => { chain := some c, sr := [b.toNat, b.toNat + 1], vs := laneVo o, vd := [t] }
  | .gst _ t b o _ c | .gstFs _ t b o _ c => { chain := some c, sr := [b.toNat], vs := t :: laneVo o, off := true }
  | .gstF6p _ t b o c => { chain := some c, sr := [b.toNat, b.toNat + 1], vs := t :: laneVo o }
  | .gatom _ t b v n _ s =>
    { sr := [b.toNat], vs := [v, t], vd := if n = 1 then [] else [t], ord := 2, off := true, scope := some s }
  | .gexch t b v _ s => { sr := [b.toNat], vs := [v, t], vd := [t], ord := 2, off := true, scope := some s }
  | .gcas t b v _ s => { sr := [b.toNat], vs := [v, t], vd := [t], vc := .vcOnly, ord := 2, off := true, scope := some s }
  | .gredF _ _ _ t b v _ p => { sr := [b.toNat], vs := [v, t], ord := 1, off := true, scope := some p }
  | .gredRn t b v _ p => { sr := [b.toNat], vs := [v, t], ord := 1, off := true, scope := some p }
  | .gpf _ b o _ c => { chain := some c, sr := [b.toNat], vs := laneVo o, off := true }
  | .tcopy d a c | .trag d a c | .tstat d a c => .ss d a c
  | .tgath d a b x c => { Use.sss d a b c with vs := [x] }
  | .tstatGal d a b c => .sss d a b c
  | .enew d a c => .ss d a c
  | .efree a c => { chain := some c, sr := [a.toNat] }
  | .eins _ v s a b x c | .eapp _ v s a b x c =>
    { chain := some c, sr := [s.toNat, a.toNat, b.toNat], sw := [s.toNat], vs := if v = 1 then [x] else [] }
  | .edel s a b c | .emark s a b c => { chain := some c, sr := [s.toNat, a.toNat, b.toNat], sw := [s.toNat] }
  | .esplit d a b c | .ecat d a b c | .eanch d a b c | .einfo d a b c => .sss d a b c
  | .erank d a c | .erankH d a c | .elen d a c => .ss d a c
  | .edrop a c => { chain := some c, sr := [a.toNat] }
  | .eld _ t b o _ c => { chain := some c, sr := [b.toNat], vs := [o], vd := [t] }
  | .est _ t b o c => { chain := some c, sr := [b.toNat], vs := [t, o] }
  | .fenceAcq s c | .fenceRel s c | .fenceAcqrel s c | .icinv s c => { chain := some c, scope := some s }
  | .sbind d _ c => { chain := some c, sw := [d.toNat] }
  | .sbindClr _ c => { chain := some c }
  | .swr d a b c | .srd d a b c => .sss d a b c
  | _ => {}

/-- The payloads of the immediate hints of a unit, the one nearest the target first (R31). -/
def immHints (hs : List Hint) : List (BitVec 22) := hs.filterMap fun h => match h with | .imm p => some p | _ => none

/-- The extended field of R31 and its width. -/
def immExt (width field : Nat) (hs : List Hint) : Nat × Nat :=
  (immHints hs).foldl (fun e p => (p.toNat * 2 ^ e.2 + e.1, e.2 + 22)) (field, width)

/-- The signed value of an immediate or displacement (R31). -/
def immS {n : Nat} (f : BitVec n) (hs : List Hint) : Int := let e := immExt n f.toNat hs; sext e.1 e.2
/-- The unsigned value (R31, R181). -/
def immU {n : Nat} (f : BitVec n) (hs : List Hint) : Nat := (immExt n f.toNat hs).1

/-- The offset that `hint.off` adds to each lane address (R35). -/
def hintOffset (hs : List Hint) : Int :=
  (hs.findSome? fun h => match h with | .off o => some (sext o.toNat 22) | _ => none).getD 0
/-- The vc register that a `hint.vc` gives (R32). -/
def hintVc (hs : List Hint) : Option (BitVec 6) :=
  hs.findSome? fun h => match h with | .vc f v _ _ _ => if f = 1 then some v else none | _ => none
/-- The segment registers of a `hint.vc` (R228). -/
def hintSeg (hs : List Hint) : BitVec 6 × BitVec 6 :=
  (hs.findSome? fun h => match h with | .vc _ _ r g _ => some (r, g) | _ => none).getD (0, 0)
/-- The ordering of a `hint.ord` (R33): 0 relaxed, bit 0 acquire, bit 1 release. -/
def hintOrd (hs : List Hint) : Nat :=
  (hs.findSome? fun h => match h with | .ord o => some o.toNat | _ => none).getD 0
/-- SW of a `hint.sched` (R34). -/
def hintSched (hs : List Hint) : Bool := hs.any fun h => match h with | .sched w => w == 1 | _ => false

/-- Whether a target accepts a hint (R30, R32, R33). -/
def Use.accepts (u : Use) : Hint → Bool
  | .imm _ => decide (u.imm ≠ 0)
  | .vc f _ r g rnd =>
    match u.vc with
    | .no => false
    | .rnd => f == 0 && r == 0 && g == 0
    | .vcRnd => r == 0 && g == 0
    | .vcOnly => f == 1 && r == 0 && g == 0 && rnd == 0
    | .seg => f == 0 && rnd == 0
  | .ord o => u.ord == 2 || (u.ord == 1 && o == 2)
  | .sched _ => true
  | .off _ => u.off
  | .bad => false

/-- The kind of a hint, for the limits of R29. -/
def Hint.kind : Hint → Nat
  | .imm _ => 0
  | .vc _ _ _ _ _ => 1
  | .ord _ => 2
  | .sched _ => 3
  | .off _ => 4
  | .bad => 5

/-- The hint limits of R29. -/
def hintLimits (hs : List Hint) : Bool :=
  decide (hs.length ≤ 3) && (List.range 5).all fun k => decide ((hs.filter fun h => h.kind == k).length ≤ if k = 0 then 2 else 1)

/-- The hints of a unit are within the limits, accepted, and present where the target requires one (R29, R30, R244, R228). -/
def Use.hintsOk (u : Use) (hs : List Hint) : Bool :=
  hintLimits hs && hs.all u.accepts && ((u.vc != .vcOnly && u.vc != .seg) || hs.any fun h => h.kind == 1)

/-- The value ranges that the extended immediates and the scope of an unordered `catom` must meet, else the unit is UNDEF
(R128, R171, R181, R205, R293). -/
def valuesOk (i : Instr) (hs : List Hint) : Bool :=
  match i with
  | .sshli _ _ n _ => immHints hs == [] || immS (BitVec.ofNat 14 n.toNat) hs == (n.toNat : Int)
  | .sshri _ _ n _ => immHints hs == [] || immS (BitVec.ofNat 14 (64 + n.toNat)) hs == ((64 + n.toNat : Nat) : Int)
  | .ssrai _ _ n _ => immHints hs == [] || immS (BitVec.ofNat 14 (128 + n.toNat)) hs == ((128 + n.toNat : Nat) : Int)
  | .vshiL _ _ _ n _ => decide (immU (BitVec.ofNat 9 n.toNat) hs ≤ 511)
  | .vshiR _ _ _ n _ => decide (immU (BitVec.ofNat 9 (128 + n.toNat)) hs ≤ 511)
  | .vshiRa _ _ _ n _ => decide (immU (BitVec.ofNat 9 (256 + n.toNat)) hs ≤ 511)
  | .vshfli _ _ _ i _ => decide (0 ≤ immS i hs) && decide (immS i hs ≤ 8191)
  | .yield _ n _ => decide (1 ≤ immS n hs) && decide (immS n hs ≤ 2 ^ 20)
  | .catom _ _ _ _ _ s | .catomExch _ _ _ _ s | .catomCas _ _ _ _ s => decide (hintOrd hs ≠ 0) || s == 0
  | _ => true

/-- The vector registers that a unit names, hints included (R23): single registers and group members. -/
def Use.named (u : Use) (w : Nat) (hs : List Hint) : List Nat :=
  let hv := (hs.flatMap fun h => match h with
    | .vc f v r g _ => (if f = 1 then [v.toNat] else []) ++ (if u.vc = .seg then [r.toNat, g.toNat] else [])
    | _ => [])
  ((u.vs ++ u.vd).map BitVec.toNat ++ hv).filter (fun n => decide (n < 62)) ++
    u.groups.flatMap fun g => (List.range (g.2.1 + g.2.2 * (w / 8))).map fun j => g.1.toNat + j

/-- Whether the unit reads a latch, by its encoding 62 or 63 (R26). -/
def Use.readsLatch (u : Use) (n : Nat) (hs : List Hint) : Bool :=
  u.vs.any (fun v => v.toNat == n) || (hs.any fun h => match h with | .vc f v _ _ _ => f == 1 && v.toNat == n | _ => false)

end Sys2Proof.Machine
end

