-- ==== Sys2Proof/Machine/Translate.lean ====
section
/-! DEFINITION. Physical addresses, leaf entries, the page walk with its checks, accessed and dirty bits, and the translation
buffers (R41, R42, R49, R56 to R62). -/

namespace Sys2Proof.Machine

/-- PKG of a physical address (R41). -/
def paPkg (pa : Nat) : Nat := pa / 2 ^ 46 % 64
/-- REGION of a physical address (R41). -/
def paRegion (pa : Nat) : Nat := pa / 2 ^ 40 % 64
/-- Host memory over the link: REGION 0x10 to 0x1F. -/
def isHost (pa : Nat) : Bool := decide (16 ≤ paRegion pa) && decide (paRegion pa < 32)
/-- HBM4E memory. -/
def isHbm (pa : Nat) : Bool := paRegion pa == 0
/-- The region check of R41 as gangs, engines and walks make it: package registers count as reserved (R373). -/
def regionOk (pa : Nat) : Bool := (isHbm pa && !(pa.testBit 39)) || isHost pa
/-- Package registers (R41, R373). -/
def isReg (pa : Nat) : Bool := paRegion pa == 0x3F
/-- The stack of an HBM4E address. -/
def paStack (pa : Nat) : Nat := pa / 2 ^ 36 % 8
/-- The home die of an address (R42): none for another package. -/
def State.homeDie (s : State) (pa : Nat) : Option Nat :=
  if paPkg pa ≠ s.board.pkg then none
  else if isHbm pa then some (paStack pa / 2) else if isHost pa then some (pa / 2 ^ 16 % 4) else none
/-- A package that is absent from the domain or declared failed (R379). -/
def State.absent (s : State) (pa : Nat) : Bool :=
  paPkg pa != s.board.pkg && (!(bit s.board.domain (paPkg pa)) || bit s.board.failed (paPkg pa))

/-- n bytes that the device reaches by a physical address of its own get no error response (R376): the address has its 52 bits, the first
and the last byte lie in HBM4E or host memory (R41), and their packages are present (R379). -/
def State.reaches (s : State) (pa n : Nat) : Bool :=
  decide (pa + n ≤ 2 ^ 52) && [pa, pa + n - 1].all fun a => regionOk a && !(s.absent a)

/-- The L2 slice of a line (R49). -/
def l2Slice (pa : Nat) : Nat := (pa / 2 ^ 8 % 128) ^^^ (pa / 2 ^ 15 % 128) ^^^ (pa / 2 ^ 22 % 128) ^^^ (pa / 2 ^ 29 % 128)
/-- The L2 set of a line, with the tenant bits of the partition index (R49, R51). -/
def l2Set (tbits pix pa : Nat) : Nat :=
  let st := (pa / 2 ^ 15 % 512) ^^^ (pa / 2 ^ 24 % 512)
  if tbits = 0 then st else pix % 2 ^ tbits * 2 ^ (9 - tbits) + st % 2 ^ (9 - tbits)
/-- TBITS of L2PART (R52). -/
def Die.tbits (d : Die) : Nat := slice d.l2part 1 0
/-- Ways of the remote partition (R52). -/
def Die.rways (d : Die) : Nat := 2 * (slice d.l2part 3 2 + 1)

/-- FRAME of an entry (R57). -/
def pteFrame (e : Word) : Nat := slice e 51 16
/-- RCG of a leaf. -/
def pteRcg (e : Word) : Nat := slice e 59 52
/-- EVP of a leaf (R48). -/
def pteEvp (e : Word) : Nat := slice e 12 11
/-- CLV of a leaf (R46). -/
def pteClv (e : Word) : Nat := slice e 8 7
/-- WP of a leaf: class T (R265). -/
def pteWp (e : Word) : Bool := bit e 9
/-- SYSAT of a leaf. -/
def pteSysat (e : Word) : Bool := bit e 13
/-- A valid leaf entry. -/
def pteIsLeaf (e : Word) : Bool := bit e 0 && bit e 1
/-- A leaf whose reserved fields are not zero is malformed (R58). -/
def pteMalformed (e : Word) : Bool := !(bit e 1) || decide (slice e 63 60 ≠ 0) || decide (slice e 15 14 ≠ 0)
/-- The entry without its frame: the fields that a run of entries must share (R58). -/
def pteOther (e : Word) : Word := BitVec.ofNat 64 (e.toNat - pteFrame e * 2 ^ 16)

/-- Kinds of access to a translation (R59). -/
abbrev kFetch : Nat := 0
abbrev kLoad : Nat := 1
abbrev kStore : Nat := 2
abbrev kAtomic : Nat := 3

/-- Why a page failed (R63): reason 0 not present, 1 denied, 2 malformed, 3 region; level; lowest byte; plane; and the address at which
an access received an error response, where one did (R379). -/
structure PageFail where
  reason : Nat
  level : Nat
  va : Nat
  plane : Nat := 0
  bus : Option Nat := none
deriving DecidableEq, Repr

/-- The class of a failing page (R64): 9 PAGE or 10 PROT. -/
def PageFail.cls (f : PageFail) : Nat := if f.reason = 0 ∨ f.reason = 2 then 9 else 10

/-- A translation of one page: its first virtual address, its size in bytes, its leaf entry (the first of a run), and the table
entries that hold its accessed and dirty bits where a walk found it. -/
structure Xlat where
  base : Nat
  size : Nat
  leaf : Word
  ptes : List Nat
deriving DecidableEq, Repr

/-- The physical address of a virtual address on the page. -/
def Xlat.pa (x : Xlat) (va : Nat) : Nat := pteFrame x.leaf * 2 ^ 16 + (va - x.base)

/-- A canonical virtual address (R56). -/
def canonical (a : Nat) : Bool := decide (a / 2 ^ 54 = 0) || decide (a / 2 ^ 54 = 1023)

/-- A table entry at its home slice (R59). -/
def State.pte (s : State) (a : Nat) : Word := BitVec.ofNat 64 (ofBytes (Memory.bytes s.mem a 8))

/-- The access check of R59 on a leaf: whether the access is denied. -/
def denied (leaf : Word) (kind : Nat) (priv : Bool) : Bool :=
  (kind == kFetch && !(bit leaf 3)) || ((kind == kStore || kind == kAtomic) && !(bit leaf 2)) || (bit leaf 4 && !priv)

/-- The checks on the leaf of a walk, and the page it gives (R41, R58, R59): with `regs`, package registers are no reserved region (R373). -/
def checkLeaf (x : Xlat) (level va kind : Nat) (priv : Bool) (regs : Bool := false) : Except PageFail Xlat :=
  let fail (reason : Nat) : Except PageFail Xlat := .error { reason, level, va }
  if pteMalformed x.leaf then fail 2
  else if denied x.leaf kind priv then fail 1
  else if regionOk (x.pa va) || (regs && isReg (x.pa va)) then .ok x else fail 3

/-- The page of a T1 leaf: 2 MiB where the 32 entries of its line form a run, else 64 KiB (R58). -/
def State.t1Page (s : State) (table idx va : Nat) : Xlat :=
  let first := idx - idx % 32
  let e0 := s.pte (table + 8 * first)
  let run := pteIsLeaf e0 && decide (pteFrame e0 % 32 = 0) && (List.range 32).all fun j =>
    let e := s.pte (table + 8 * (first + j))
    pteIsLeaf e && decide (pteFrame e = pteFrame e0 + j) && decide (pteOther e = pteOther e0)
  if run then ⟨va - va % 2 ^ 21, 2 ^ 21, e0, (List.range 32).map fun j => table + 8 * (first + j)⟩
  else ⟨va - va % 2 ^ 16, 2 ^ 16, s.pte (table + 8 * idx), [table + 8 * idx]⟩

/-- The walk of R59. A table in an absent package gives an error response (R379), and the page then fails as one that is not present
(DESIGN CHOICE, assumption 98). -/
def State.walk (s : State) (vf va kind : Nat) (priv : Bool) (regs : Bool := false) : Except PageFail Xlat :=
  let fail (reason level : Nat) : Except PageFail Xlat := .error { reason, level, va }
  let noEntry (level a : Nat) : Except PageFail Xlat := .error { reason := 0, level, va, bus := if s.absent a then some a else none }
  let entry (a : Nat) : Word := if s.absent a then 0 else s.pte a
  let a3 := (s.vf vf).root * 2 ^ 16 + 8 * (va / 2 ^ 42 % 8192)
  let e3 := entry a3
  if !(bit e3 0) then noEntry 3 a3
  else if bit e3 1 || decide (slice e3 63 60 ≠ 0) then fail 2 3
  else
    let t2 := pteFrame e3 * 2 ^ 16
    let i2 := va / 2 ^ 29 % 8192
    let e2 := entry (t2 + 8 * i2)
    if !(bit e2 0) then noEntry 2 (t2 + 8 * i2)
    else if bit e2 1 then
      let first := i2 - i2 % 2
      let ea := s.pte (t2 + 8 * first)
      let eb := s.pte (t2 + 8 * (first + 1))
      if pteIsLeaf ea && pteIsLeaf eb && decide (pteFrame ea % 2 ^ 14 = 0) && decide (pteFrame eb = pteFrame ea + 2 ^ 13)
          && decide (pteOther ea = pteOther eb) then
        checkLeaf ⟨va - va % 2 ^ 30, 2 ^ 30, ea, [t2 + 8 * first, t2 + 8 * (first + 1)]⟩ 2 va kind priv regs
      else fail 2 2
    else if slice e2 63 60 ≠ 0 then fail 2 2
    else
      let t1 := pteFrame e2 * 2 ^ 16
      let i1 := va / 2 ^ 16 % 8192
      if !(bit (entry (t1 + 8 * i1)) 0) then noEntry 1 (t1 + 8 * i1)
      else checkLeaf (s.t1Page t1 i1 va) 1 va kind priv regs

/-- Logs the error responses that made pages fail (R376, R379). -/
def State.logFails (s : State) (die vf : Nat) (l : List PageFail) : State :=
  l.foldl (fun s f => match f.bus with
    | some a => s.event 1 die vf 0 0 a 0
    | none => s) s

/-- A TLB entry that holds the page of an address (R61). -/
def tlbFind (l : List Tlb) (vf va : Nat) : Option Tlb :=
  l.find? fun t => decide (t.vf = vf) && decide (t.base ≤ va) && decide (va < t.base + t.size)

/-- The level of the tables at which a page's leaf stands. -/
def sizeLevel (size : Nat) : Nat := if size = 2 ^ 30 then 2 else 1

/-- The translation of one page: from the core's or the die's TLB, else by a walk. A held translation whose D bit is clear does
not serve a store (R60). -/
def State.xlate (s : State) (core vf va kind : Nat) (priv : Bool) : Except PageFail Xlat :=
  match (tlbFind (s.core core).tlb vf va).orElse fun _ => tlbFind (s.die (core / 64)).tlb vf va with
  | some t =>
    if (kind == kStore || kind == kAtomic) && !(bit t.leaf 6) then s.walk vf va kind priv
    else checkLeaf ⟨t.base, t.size, t.leaf, []⟩ (sizeLevel t.size) va kind priv
  | none => s.walk vf va kind priv

/-- An access to some bytes: first address, size and plane (0 where not planar). -/
structure Acc3 where
  va : Nat
  n : Nat
  plane : Nat
deriving DecidableEq, Repr

/-- The numbers of the 64 KiB pages that the accesses touch, ascending and distinct (R62). -/
def pageNumbers (l : List Acc3) : List Nat :=
  sortNats (l.flatMap fun a => if a.n = 0 then [] else [a.va / 2 ^ 16, (a.va + a.n - 1) / 2 ^ 16])

/-- The accesses that touch a page. -/
def onPage (l : List Acc3) (p : Nat) : List Acc3 :=
  l.filter fun a => decide (a.va < (p + 1) * 2 ^ 16) && decide (p * 2 ^ 16 < a.va + a.n)

/-- The lowest byte of the accesses on a page. -/
def lowestOn (l : List Acc3) (p : Nat) : Nat :=
  (onPage l p).foldl (fun m a => min m (max a.va (p * 2 ^ 16))) ((p + 1) * 2 ^ 16)

/-- The plane of a failing page: 1 where it holds nibble bytes, else the plane of its accesses (R239). -/
def planeOn (l : List Acc3) (p : Nat) : Nat :=
  if (onPage l p).any (fun a => a.plane == 1) then 1 else ((onPage l p).head?.map Acc3.plane).getD 0

/-- Translates every page of the accesses: all pages that fail, or every translation (R59, R62). -/
def State.translate (s : State) (core vf kind : Nat) (priv : Bool) (l : List Acc3) : Except (List PageFail) (List Xlat) :=
  let rs := (pageNumbers l).map fun p => (p, s.xlate core vf (lowestOn l p) kind priv)
  let bad := rs.filterMap fun (p, r) => match r with
    | .error f => some { f with va := lowestOn l p, plane := planeOn l p }
    | .ok _ => none
  if bad.isEmpty then .ok (rs.filterMap fun (_, r) => match r with | .ok x => some x | .error _ => none) else .error bad

/-- The translation that serves an address. -/
def findXlat (xs : List Xlat) (va : Nat) : Xlat :=
  (xs.find? fun x => decide (x.base ≤ va) && decide (va < x.base + x.size)).getD ⟨0, 0, 0, []⟩

/-- Sets A, and D for a store or atomic, in the entries of a walked page (R60). -/
def setAD (m : Memory) (ptes : List Nat) (kind : Nat) : Memory :=
  ptes.foldl (fun m a => ZMap.set m a (ZMap.get m a ||| (if kind = kStore ∨ kind = kAtomic then 0x60 else 0x20))) m

/-- Installs a translation at the front of a TLB of n entries. -/
def tlbPut (l : List Tlb) (n vf : Nat) (x : Xlat) : List Tlb :=
  (⟨vf, x.base, x.size, x.leaf⟩ :: l.filter fun t => !(decide (t.vf = vf) && decide (t.base = x.base))).take n

/-- Once every page has passed: sets A and D of the walked pages and installs their translations (R60, R61). -/
def State.useXlats (s : State) (core vf kind : Nat) (xs : List Xlat) : State :=
  xs.foldl (fun s x =>
    if x.ptes.isEmpty then s
    else
      let leaf := x.leaf ||| (if kind = kStore ∨ kind = kAtomic then 0x60 else 0x20)
      let s := { s with mem := setAD s.mem x.ptes kind }
      let s := s.modCore core fun c => { c with tlb := tlbPut c.tlb 64 vf { x with leaf := leaf } }
      s.modDie (core / 64) fun d => { d with tlb := tlbPut d.tlb 8192 vf { x with leaf := leaf } }) s

end Sys2Proof.Machine
end

