-- ==== Sys2Proof/Machine/Cache.lean ====
section
/-! DEFINITION. The caches and the home slices: where a line may be held, fills, stores under byte masks, write-backs, and the
two coherence classes (R43 to R54, R240, R241, R262, R265 to R268). `mem` holds the value at the home slice, to which a home L2
line and a Cavern line are transparent. -/

namespace Sys2Proof.Machine

/-- The line of a context with a number. -/
def getLine (ls : List Line) (vf num : Nat) : Option Line := ls.find? fun l => decide (l.vf = vf) && decide (l.num = num)
/-- The same line of a cache: context, number and set. -/
def Line.is (x l : Line) : Bool := decide (l.vf = x.vf) && decide (l.num = x.num) && decide (l.set = x.set)
/-- Drops a line. -/
def dropLine (ls : List Line) (x : Line) : List Line := ls.filter fun l => !(x.is l)
/-- Replaces a line, or adds it as the youngest. -/
def putLine (ls : List Line) (x : Line) : List Line :=
  if ls.any x.is then ls.map fun l => if x.is l then x else l else ls ++ [x]
/-- An empty line, in a set of a remote partition. -/
def Line.empty (vf num : Nat) (leaf : Word) (set : Nat := 0) : Line := ⟨vf, num, leaf, 0, 0, [], set⟩
/-- The line of a context, or an empty one. -/
def lineOf (ls : List Line) (vf num : Nat) (leaf : Word) : Line := (getLine ls vf num).getD (.empty vf num leaf)
/-- The byte that a line holds at an offset: its sector is valid or the byte is written (R43, R44). -/
def Line.byte? (l : Line) (off : Nat) : Option Byte :=
  if bit l.valid (off / 64) || bit l.dirty off then some (ZMap.get l.data off) else none
/-- Writes a byte and its mask bit (R44). -/
def Line.write (l : Line) (off : Nat) (b : Byte) : Line :=
  { l with data := ZMap.set l.data off b, dirty := l.dirty ||| BitVec.ofNat 256 (2 ^ off) }
/-- Gives a held byte the value that a lower level received: the byte is no longer dirty. -/
def Line.refresh (l : Line) (off : Nat) (b : Byte) : Line :=
  if (l.byte? off).isSome then
    { l with data := if bit l.valid (off / 64) then ZMap.set l.data off b else ZMap.set l.data off 0,
             dirty := l.dirty &&& ~~~(BitVec.ofNat 256 (2 ^ off)) }
  else l
/-- Fills a sector under the byte mask (R43, R44): written bytes are kept. -/
def Line.fill (l : Line) (sector : Nat) (get : Nat → Byte) : Line :=
  if bit l.valid sector then l
  else
    { l with
      valid := l.valid ||| BitVec.ofNat 4 (2 ^ sector)
      data := ((List.range 64).map fun i => 64 * sector + i).foldl
        (fun m o => if bit l.dirty o then m else ZMap.set m o (get o)) l.data }
/-- Fills the sectors of a mask. -/
def Line.fillMask (l : Line) (secs : BitVec 4) (get : Nat → Byte) : Line :=
  (List.range 4).foldl (fun l n => if bit secs n then l.fill n get else l) l
/-- The written bytes of a line: offset and value. -/
def Line.dirtyBytes (l : Line) : List (Nat × Byte) :=
  ((List.range 256).filter fun o => bit l.dirty o).map fun o => (o, ZMap.get l.data o)
/-- A line once its written bytes have gone below. -/
def Line.clean (l : Line) : Line :=
  { l with dirty := 0, data := l.data.filter fun p => bit l.valid (p.1 / 64) }
/-- A line once those of its written bytes that a mask names have gone below. -/
def Line.cleanBytes (l : Line) (m : BitVec 256) : Line :=
  { l with dirty := l.dirty &&& ~~~m, data := l.data.filter fun p => bit l.valid (p.1 / 64) || bit (l.dirty &&& ~~~m) p.1 }
/-- What an acquire leaves of a line (R262): its written bytes. -/
def Line.discard (l : Line) : Line := { l with valid := 0, data := l.data.filter fun p => bit l.dirty p.1 }
/-- Invalidates one sector whose bytes are not written. -/
def Line.dropSector (l : Line) (sector : Nat) : Line :=
  { l with valid := l.valid &&& ~~~(BitVec.ofNat 4 (2 ^ sector)),
           data := l.data.filter fun p => decide (p.1 / 64 ≠ sector) || bit l.dirty p.1 }
/-- Gives up one sector whose written bytes have gone below. -/
def Line.giveUp (l : Line) (sector : Nat) : Line :=
  ({ l with dirty := l.dirty &&& ~~~(BitVec.ofNat 256 ((2 ^ 64 - 1) * 2 ^ (64 * sector))) }).dropSector sector
/-- Acquire over a list of lines: clean lines go whole. -/
def discardLines (ls : List Line) : List Line := (ls.map Line.discard).filter fun l => decide (l.dirty ≠ 0)

/-- The byte that a unit of a die reads (R254, R269): what the die's remote partition holds written, else the home slice. -/
def State.dieByte (s : State) (die pa : Nat) : Byte :=
  match (s.die die).remote.find? fun l => decide (l.num = pa / 256) && bit l.dirty (pa % 256) with
  | some l => ZMap.get l.data (pa % 256)
  | none => ZMap.get s.mem pa

/-- The set of a die's L2 in which an access of a function places a line (R49, R51). -/
def State.lineSet (s : State) (die vf num : Nat) : Nat := l2Set (s.die die).tbits (s.vf vf).pix (num * 256)

/-- The line of a number in the remote partition of a die, in the set of a function (R49, R51): whichever function brought it. A line
stays in the set in which it was placed. -/
def State.remoteLine (s : State) (die vf num : Nat) : Option Line :=
  (s.die die).remote.find? fun l => decide (l.num = num) && decide (l.set = s.lineSet die vf num)

/-- The byte that the L2 level of a die gives a function (R255): its line of the remote partition, else what another set of the die holds
written, else the home slice. -/
def State.l2Byte (s : State) (die vf pa : Nat) : Byte :=
  ((s.remoteLine die vf (pa / 256)).bind fun l => l.byte? (pa % 256)).getD (s.dieByte die pa)
/-- The byte that a core's load gives. -/
def State.l1Byte (s : State) (core vf pa : Nat) : Byte :=
  (((getLine (s.core core).l1 vf (pa / 256)).bind fun l => l.byte? (pa % 256))).getD (s.l2Byte (core / 64) vf pa)

/-- Counts an access that reaches a Cavern of a die in its group (R53). -/
def State.countRcg (s : State) (die rcg : Nat) : State :=
  if rcg = 0 then s
  else s.modDie die fun d => { d with rcgCount := ZMap.set d.rcgCount rcg (ZMap.get d.rcgCount rcg + 1) }

/-- A group that a die pins (R54, R55). -/
def Die.pinned (d : Die) (g : Nat) : Bool :=
  let ctl := SMap.getD d.rcgctl g 0x100
  decide (g ≠ 0) && (slice ctl 31 30 == 1 || (slice ctl 31 30 == 0 && bit ctl 29))

/-- The lines that may be evicted first (R48): streaming ones, else normal ones, else retained ones. -/
def evictFirst {α : Type} (evp : α → Nat) (ls : List α) : List α :=
  let st := ls.filter fun x => evp x == 2
  let no := ls.filter fun x => evp x != 1
  if !st.isEmpty then st else if !no.isEmpty then no else ls

/-- A line that would be evicted first. -/
def victim (ls : List Held) (n : Nat) : Option Held := choose (evictFirst (fun h => h.evp.toNat) ls) n

/-- The line of a set with a number (R49, R51). -/
def Held.is (x h : Held) : Bool := h.num == x.num && h.slice == x.slice && h.set == x.set

/-- A held line has a sector: its fill has arrived, or every byte of it is written (R44). -/
def Held.has (h : Held) (sector : Nat) : Bool :=
  bit h.valid sector || decide (h.dirty.toNat / 2 ^ (64 * sector) % 2 ^ 64 = 2 ^ 64 - 1)

/-- An access to a line of a level: the sectors filled and the bytes written are added to it, and it is listed where it is not. -/
def touchHeld (ls : List Held) (x : Held) : List Held :=
  if ls.any x.is then
    ls.map fun h => if x.is h then
      { h with valid := h.valid ||| x.valid, dirty := h.dirty ||| x.dirty, evp := x.evp, rcg := x.rcg } else h
  else ls ++ [x]

/-- The pinned lines of a stack's Cavern (R54): those of pinned groups, of which the lines past PINMAX sixteenths of its 2^23 lines
are replaced as unpinned ones. -/
def Die.pinnedLines (d : Die) (stack : Nat) : List Held :=
  (d.cavern.filter fun h => paStack (h.num * 256) == stack && d.pinned h.rcg.toNat).take (slice d.cavctl 15 12 * 2 ^ 19)

/-- The lines of a Cavern that may be evicted for a line of a group (R54): unpinned ones, and for a pinned group those of other
pinned groups. -/
def Die.cavernVictims (d : Die) (stack rcg : Nat) : List Held :=
  let pin := d.pinnedLines stack
  let free := d.cavern.filter fun h => paStack (h.num * 256) == stack && !(pin.contains h)
  if d.pinned rcg then free ++ pin.filter fun h => decide (h.rcg.toNat ≠ rcg) else free

/-- Sectors and written bytes of a line enter the Cavern of its stack, merged under its own mask (R44, R47, R54), but for EVP 11 (R48). A
stack's Cavern is one set of 2^23 lines (DESIGN CHOICE, assumption 111). -/
def State.cavernPut (s : State) (die num : Nat) (secs : BitVec 4) (mask : BitVec 256) (evp rcg : Nat) : State :=
  if evp = 3 then s
  else
    s.modDie die fun d =>
      let x : Held := ⟨num, secs, mask, BitVec.ofNat 2 evp, BitVec.ofNat 8 rcg, 0, 0⟩
      let mine := d.cavern.filter fun h => paStack (h.num * 256) == paStack (num * 256)
      if mine.any x.is || decide (mine.length < 2 ^ 23) then { d with cavern := touchHeld d.cavern x }
      else match victim (d.cavernVictims (paStack (num * 256)) rcg) s.tick with
        | some v => { d with cavern := touchHeld (d.cavern.filter fun h => !(v.is h)) x }
        | none => d

/-- An access that reaches the Cavern: counted once in its group, and the line allocated but for CLV 11 (R46, R53). -/
def State.reachCavern (s : State) (die num : Nat) (secs : BitVec 4) (mask : BitVec 256) (leaf : Word) : State :=
  let s := s.countRcg die (pteRcg leaf)
  if pteClv leaf = 3 then s else s.cavernPut die num secs mask (pteEvp leaf) (pteRcg leaf)

/-- A line of a die's home L2 leaves it; its written bytes go to the Cavern, which counts in its group (R44, R53). -/
def State.evictHome (s : State) (die : Nat) (h : Held) : State :=
  let s := s.modDie die fun d => { d with l2 := d.l2.filter fun x => !(h.is x) }
  if h.dirty = 0 then s else (s.countRcg die h.rcg.toNat).cavernPut die h.num 0 h.dirty h.evp.toNat h.rcg.toNat

/-- One access of a line at its home slice (R44, R46, R50, R51, R53): the sectors that it reads and the bytes that it writes. The
line is looked up in the set of the function that issued the access, which gives up a line where its ways are full; a read of a
sector that the home L2 has not reaches the Cavern. A line of host memory is held in no home slice (DESIGN CHOICE, assumption 100). -/
def State.homeTouch (s : State) (vf num : Nat) (secs : BitVec 4) (mask : BitVec 256) (leaf : Word) : State :=
  match s.homeDie (num * 256) with
  | none => s
  | some h =>
    if !(isHbm (num * 256)) then s
    else if pteClv leaf ≥ 2 then s.reachCavern h num secs mask leaf
    else
      let d := s.die h
      let x : Held := ⟨num, secs, mask, BitVec.ofNat 2 (pteEvp leaf), BitVec.ofNat 8 (pteRcg leaf), l2Slice (num * 256),
        s.lineSet h vf num⟩
      let mates := d.l2.filter fun y => y.slice == x.slice && y.set == x.set
      let held := mates.find? x.is
      let missing := (List.range 4).any fun n => bit secs n && !(held.any fun y => y.has n)
      let out := if held.isSome || decide (mates.length < 16 - d.rways) then none else victim mates s.tick
      let s := match out with
        | none => s
        | some v => s.evictHome h v
      let s := s.modDie h fun d => { d with l2 := touchHeld d.l2 x }
      if missing then s.reachCavern h num secs 0 leaf else s

/-- The sectors that n bytes from an offset of a line touch. -/
def sectorMask (off n : Nat) : BitVec 4 :=
  if n = 0 then 0 else BitVec.ofNat 4 (2 ^ ((off + n - 1) / 64 + 1) - 2 ^ (off / 64))

/-- The mask of n bytes from an offset of a line. -/
def byteMask (off n : Nat) : BitVec 256 := BitVec.ofNat 256 ((2 ^ n - 1) * 2 ^ off)

/-- A read of n bytes of one line reaches the home slice. -/
def State.homeRead (s : State) (vf pa n : Nat) (leaf : Word) : State :=
  s.homeTouch vf (pa / 256) (sectorMask (pa % 256) n) 0 leaf

/-- Single written bytes of a line reach the home slice, as one access. Those of an absent package are dropped, and the error response is
logged (R376, R379). -/
def State.homeBytes (s : State) (vf num : Nat) (leaf : Word) (bs : List (Nat × Byte)) : State :=
  if bs.isEmpty then s
  else if s.absent (num * 256) then s.event 1 0 vf 0 0 (num * 256) 0
  else ({ s with mem := bs.foldl (fun m p => ZMap.set m (num * 256 + p.1) p.2) s.mem } : State).homeTouch vf num 0
    (bs.foldl (fun (m : BitVec 256) p => m ||| byteMask p.1 1) 0) leaf

/-- Whether a die keeps remote copies of a line: not its home, and CLV allows it (R46). -/
def State.remoteHeld (s : State) (die pa : Nat) (leaf : Word) : Bool :=
  decide (s.homeDie pa ≠ some die) && decide (pteClv leaf ≤ 1)

/-- Writes a remote-partition line back to its home and drops it. -/
def State.evictRemote (s : State) (die : Nat) (l : Line) : State :=
  (s.homeBytes l.vf l.num l.leaf l.dirtyBytes).modDie die fun d => { d with remote := dropLine d.remote l }

/-- The remote lines of a die that stand in one set of one slice (R49, R50). -/
def Die.remoteMates (d : Die) (num set : Nat) : List Line :=
  d.remote.filter fun l => l2Slice (l.num * 256) == l2Slice (num * 256) && l.set == set

/-- Makes room in the remote partition of a die for a line: a set holds RWAYS ways (R50). -/
def State.remoteRoom (s : State) (die vf num : Nat) : State :=
  let d := s.die die
  let mates := d.remoteMates num (s.lineSet die vf num)
  if (s.remoteLine die vf num).isSome || decide (mates.length < d.rways) then s
  else match choose (evictFirst (fun l => pteEvp l.leaf) mates) s.tick with
    | some l => s.evictRemote die l
    | none => s

/-- The line of a number in the set of a function in the remote partition of a die, or an empty one. -/
def State.remoteOf (s : State) (die vf num : Nat) (leaf : Word) : Line :=
  (s.remoteLine die vf num).getD (.empty vf num leaf (s.lineSet die vf num))

/-- Sectors of a line fill into the remote partition of a die from its home, as one access of the line (R43, R53): written bytes that another
set of the die holds are the die's. -/
def State.fillRemote (s : State) (die vf num : Nat) (secs : BitVec 4) (leaf : Word) : State :=
  if s.remoteHeld die (num * 256) leaf then
    let s := s.remoteRoom die vf num
    let l := s.remoteOf die vf num leaf
    let miss := secs &&& ~~~l.valid
    if miss = 0 then s
    else
      let l := ({ l with leaf := leaf }).fillMask miss fun o => s.dieByte die (num * 256 + o)
      (s.modDie die fun d => { d with remote := putLine d.remote l }).homeTouch vf num miss 0 leaf
  else s.homeTouch vf num secs 0 leaf

/-- The name of a dirty line in the FIFO of an L1 (R266). -/
def fifoKey (vf num : Nat) : Nat := num * 16 + vf

/-- A core's L1 copy of a line takes bytes that a lower level received: a line that is dirty no more leaves the FIFO (R266). -/
def Core.refresh (c : Core) (vf num : Nat) (bs : List (Nat × Byte)) : Core :=
  match getLine c.l1 vf num with
  | none => c
  | some l =>
    let l := bs.foldl (fun l q => l.refresh q.1 q.2) l
    { c with l1 := putLine c.l1 l, fifo := if l.dirty = 0 then c.fifo.filter fun k => k != fifoKey vf num else c.fifo }

/-- A die's remote copies of a line take bytes that the home slice, or another of them, received. -/
def Die.refresh (d : Die) (num : Nat) (bs : List (Nat × Byte)) : Die :=
  { d with remote := d.remote.map fun l => if l.num = num then bs.foldl (fun l q => l.refresh q.1 q.2) l else l }

/-- Bytes written at the L2 level of a die: the remote partition keeps them under their masks, or they reach the home slice. -/
def State.l2Write (s : State) (die vf num : Nat) (leaf : Word) (bs : List (Nat × Byte)) : State :=
  match bs with
  | [] => s
  | p :: _ =>
    if s.remoteHeld die (num * 256 + p.1) leaf then
      let s := s.remoteRoom die vf num
      let l := bs.foldl (fun l q => l.write q.1 q.2) (s.remoteOf die vf num leaf)
      s.modDie die fun d => let d := d.refresh num bs; { d with remote := putLine d.remote { l with leaf := leaf } }
    else (s.homeBytes vf num leaf bs).modDie die fun d => d.refresh num bs

/-- Writes the dirty bytes of an L1 line to the level below and keeps the rest of it (R44, R266). -/
def State.drainLine (s : State) (core : Nat) (l : Line) : State :=
  let s := s.modCore core fun c =>
    { c with l1 := putLine c.l1 l.clean, fifo := c.fifo.filter fun k => k != fifoKey l.vf l.num }
  s.l2Write (core / 64) l.vf l.num l.leaf l.dirtyBytes

/-- Evicts an L1 line. -/
def State.evictL1 (s : State) (core : Nat) (l : Line) : State :=
  (s.drainLine core l).modCore core fun c => { c with l1 := dropLine c.l1 l }

/-- Makes room for a line in an L1 of 512 lines (R9). -/
def State.l1Room (s : State) (core vf num : Nat) : State :=
  let ls := (s.core core).l1
  if (getLine ls vf num).isSome || decide (ls.length < 512) then s
  else match choose ls s.tick with
    | some l => s.evictL1 core l
    | none => s

/-- Sectors of a line fill into an L1 from the L2 level. -/
def State.fillOwn (s : State) (core vf num : Nat) (secs : BitVec 4) (leaf : Word) : State :=
  let s := s.l1Room core vf num
  let die := core / 64
  let l := ({ lineOf (s.core core).l1 vf num leaf with leaf := leaf }).fillMask secs fun o => s.l2Byte die vf (num * 256 + o)
  s.modCore core fun c => { c with l1 := putLine c.l1 l }

/-- Sectors of a line fill into an L1, and into the remote partition on the way (R43, R46), as one access of the line. -/
def State.fillL1 (s : State) (core vf num : Nat) (secs : BitVec 4) (leaf : Word) : State :=
  if pteClv leaf ≠ 0 then s.fillRemote (core / 64) vf num secs leaf
  else
    let miss := secs &&& ~~~(lineOf (s.core core).l1 vf num leaf).valid
    if miss = 0 then s else (s.fillRemote (core / 64) vf num miss leaf).fillOwn core vf num miss leaf

/-- The numbers of the lines that an access touches, with the bytes in each: offset and index. -/
def spread (pa : Nat) (bs : List Byte) : List (Nat × List (Nat × Byte)) :=
  let n := bs.length
  if pa % 256 + n ≤ 256 then [(pa / 256, (List.range n).zip bs |>.map fun p => (pa % 256 + p.1, p.2))]
  else
    (List.range ((pa % 256 + n + 255) / 256)).map fun i =>
      (pa / 256 + i, ((List.range n).zip bs).filterMap fun p =>
        if (pa + p.1) / 256 = pa / 256 + i then some ((pa + p.1) % 256, p.2) else none)

/-- The first addresses of the sectors that an access touches. -/
def sectors (pa n : Nat) : List Nat :=
  if n = 0 then [] else (List.range ((pa + n - 1) / 64 - pa / 64 + 1)).map fun i => (pa / 64 + i) * 64

/-- The parts of n bytes from an address that lie in one line each: address and size (R43). -/
def linePieces (va n : Nat) : List (Nat × Nat) :=
  if n = 0 then []
  else (List.range ((va + n - 1) / 256 - va / 256 + 1)).map fun i =>
    let lo := max va ((va / 256 + i) * 256)
    (lo, min (va + n) ((va / 256 + i + 1) * 256) - lo)

/-- A load of a core: fills what may be kept, then reads (R43, R46). -/
def State.coreLoad (s : State) (core vf pa n : Nat) (leaf : Word) : State × List Byte :=
  let s := (linePieces pa n).foldl (fun s p => s.fillL1 core vf (p.1 / 256) (sectorMask (p.1 % 256) p.2) leaf) s
  (s, (List.range n).map fun i => s.l1Byte core vf (pa + i))

/-- An L1 line becomes dirty: the FIFO lists it, writing its oldest line back where it is full (R266). -/
def State.fifoPush (s : State) (core vf num : Nat) : State :=
  let c := s.core core
  if c.fifo.contains (fifoKey vf num) then s
  else
    let s := match c.fifo with
      | k :: _ =>
        if c.fifo.length < 512 then s
        else match getLine c.l1 (k % 16) (k / 16) with
          | some l => s.drainLine core l
          | none => s
      | [] => s
    s.modCore core fun c => { c with fifo := c.fifo ++ [fifoKey vf num] }

/-- A class T store, or a store that no cache may keep: the copies on its path take the bytes, and the home slice performs it
(R46, R267). -/
def State.storeThrough (s : State) (core vf pa : Nat) (leaf : Word) (bs : List Byte) : State :=
  (spread pa bs).foldl (fun s p =>
    ((s.modCore core fun c => c.refresh vf p.1 p.2).modDie (core / 64) fun d => d.refresh p.1 p.2).homeBytes vf p.1 leaf p.2) s

/-- A write by a unit of a die, performed at the home slices: the die's remote copies take the bytes (R269). -/
def State.dieStore (s : State) (die vf pa : Nat) (leaf : Word) (bs : List Byte) : State :=
  (spread pa bs).foldl (fun s p => (s.modDie die fun d => d.refresh p.1 p.2).homeBytes vf p.1 leaf p.2) s

/-- A class B store: the L1 keeps the bytes under their masks where CLV allows, else the L2 level does (R44, R46, R266). -/
def State.storeBack (s : State) (core vf pa : Nat) (leaf : Word) (bs : List Byte) : State :=
  if pteClv leaf ≥ 2 then s.storeThrough core vf pa leaf bs
  else
    (spread pa bs).foldl (fun s p =>
      if pteClv leaf = 0 then
        let s := (s.l1Room core vf p.1).fifoPush core vf p.1
        let l := p.2.foldl (fun l q => l.write q.1 q.2) (lineOf (s.core core).l1 vf p.1 leaf)
        s.modCore core fun c => { c with l1 := putLine c.l1 { l with leaf := leaf } }
      else
        (s.modCore core fun c => c.refresh vf p.1 p.2).l2Write (core / 64) vf p.1 leaf p.2) s

/-- A store of a core by the class of its page; a store to an absent package is dropped (R265, R376). -/
def State.coreStore (s : State) (core vf pa : Nat) (leaf : Word) (bs : List Byte) : State :=
  if s.absent pa then s
  else if pteWp leaf then s.storeThrough core vf pa leaf bs else s.storeBack core vf pa leaf bs

/-- The lines but those that hold nothing any more. -/
def liveLines (ls : List Line) : List Line := ls.filter fun x => decide (x.valid ≠ 0) || decide (x.dirty ≠ 0)

/-- A line's written bytes of one sector. -/
def Line.dirtyIn (l : Line) (sec : Nat) : List (Nat × Byte) := l.dirtyBytes.filter fun p => p.1 / 64 == sec

/-- A core gives up one sector of a line of its L1: the written bytes reach the home slice, and the copy is invalid (R241). -/
def State.giveUpL1 (s : State) (core sec : Nat) (l : Line) : State :=
  (s.homeBytes l.vf l.num l.leaf (l.dirtyIn sec)).modCore core fun c => { c with
    l1 := liveLines (putLine c.l1 (l.giveUp sec))
    fifo := if (l.giveUp sec).dirty = 0 then c.fifo.filter fun k => k != fifoKey l.vf l.num else c.fifo }

/-- A die gives up one sector of a line of its remote partition (R241). -/
def State.giveUpRemote (s : State) (die sec : Nat) (l : Line) : State :=
  (s.homeBytes l.vf l.num l.leaf (l.dirtyIn sec)).modDie die fun d => { d with remote := liveLines (putLine d.remote (l.giveUp sec)) }

/-- The L1 lines of a core with a number: those of other contexts, then the one of a context. -/
def Core.linesOf (c : Core) (vf num : Nat) : List Line :=
  (c.l1.filter fun l => decide (l.num = num) && decide (l.vf ≠ vf)) ++ c.l1.filter fun l => decide (l.num = num) && decide (l.vf = vf)

/-- A die gives up one sector of the lines with a number in its remote partition (R241). -/
def State.giveUpDie (s : State) (die a : Nat) : State :=
  ((s.die die).remote.filter fun l => decide (l.num = a / 256)).foldl (fun s l => s.giveUpRemote die (a % 256 / 64) l) s

/-- Before an atomic: the issuing core's dirty bytes of the touched sectors reach the home slice, and the copies of those
sectors in its L1 and in the die's remote partition are invalidated (R241). Where several contexts' lines hold one byte written, that of
the issuing context is last (DESIGN CHOICE, assumption 122). -/
def State.beforeAtomic (s : State) (core vf pa n : Nat) : State :=
  (sectors pa n).foldl (fun s a =>
    let s := s.giveUpDie (core / 64) a
    ((s.core core).linesOf vf (a / 256)).foldl (fun s l => s.giveUpL1 core (a % 256 / 64) l) s) s

/-- Performs an atomic at the home slice (R240): the old value, with the new one stored where it differs in kind. -/
def State.atomicAt (s : State) (vf pa n : Nat) (leaf : Word) (f : Nat → Option Nat) : State × Nat :=
  let old := ofBytes (Memory.bytes s.mem pa n)
  match f old with
  | some v => (({ s with mem := Memory.store s.mem pa (toBytes v n) }).homeTouch vf (pa / 256) (sectorMask (pa % 256) n)
      (byteMask (pa % 256) n) leaf, old)
  | none => (s.homeRead vf pa n leaf, old)

/-- Writes back every dirty line of an L1, oldest first (R266). -/
def State.drainL1 (s : State) (core : Nat) : State :=
  (s.core core).fifo.foldl (fun s k => match getLine (s.core core).l1 (k % 16) (k / 16) with
    | some l => s.drainLine core l
    | none => s) s

/-- Writes back every dirty byte of a die's remote partition (R261). -/
def State.drainRemote (s : State) (die : Nat) : State :=
  (s.die die).remote.foldl (fun s l =>
    if l.dirty = 0 then s
    else (s.homeBytes l.vf l.num l.leaf l.dirtyBytes).modDie die fun d => { d with remote := putLine d.remote l.clean }) s

/-- A release at entry 7 by a unit that holds no bytes of its own (R261, R269): what any die's remote partition holds written goes home. -/
def State.releaseDies (s : State) : State := (List.range 4).foldl (fun s d => s.drainRemote d) s

/-- An acquire's discard at a level (R255, R262). -/
def State.discardAt (s : State) (core level : Nat) (dies : List Nat) : State :=
  if level = 0 then s
  else
    let s := s.modCore core fun c => { c with l1 := discardLines c.l1 }
    if level = 1 then s else dies.foldl (fun s d => s.modDie d fun x => { x with remote := discardLines x.remote }) s

/-- A release's drain at a level (R255, R261, R266). -/
def State.drainAt (s : State) (core level : Nat) (dies : List Nat) : State :=
  if level = 0 then s
  else
    let s := s.drainL1 core
    if level = 1 then s else dies.foldl (fun s d => s.drainRemote d) s

end Sys2Proof.Machine
end

