-- ==== Sys2Proof/Machine/Scope.lean ====
section
/-! DEFINITION. The scope table (R252 to R258): entries as they read, the meeting level of a membership, and latching. -/

namespace Sys2Proof.Machine

/-- GEN of an entry (R253, R257). -/
def ScopeEntry.gen (e : ScopeEntry) : BitVec 8 := BitVec.ofNat 8 e.writes
/-- An entry of 1 to 6 that has never been written: VALID = 0 (R252). -/
def ScopeEntry.empty : ScopeEntry := ⟨0, 0, 0, false, false, 0, 0⟩
/-- Entry 0 as it reads on a core (R253): the issuing core alone. -/
def ScopeEntry.self (core : Nat) : ScopeEntry := ⟨BitVec.ofNat 256 (2 ^ core), 0, 0, false, true, 0, 0⟩
/-- Entry 7, the whole system (R252, R253). -/
def ScopeEntry.system : ScopeEntry := ⟨BitVec.ofNat 256 (2 ^ 256 - 1), BitVec.ofNat 64 (2 ^ 64 - 1), 15, true, true, 0, 4⟩

/-- Entry n of a context as it stands, read on a core (R252, R253). -/
def State.scope (s : State) (vf core n : Nat) : ScopeEntry :=
  if n = 0 then .self core else if n = 7 then .system else SMap.getD (s.vf vf).scope n .empty

/-- The dies of a membership (R255). -/
def scopeDies (cores : BitVec 256) (rpart : BitVec 4) : List Nat :=
  (List.range 4).filter fun d => decide (cores.toNat / 2 ^ (64 * d) % 2 ^ 64 ≠ 0) || bit rpart d

/-- The meeting level of a membership (R255). -/
def scopeLevel (pkg : Nat) (e : ScopeEntry) : Nat :=
  if e.host then 4
  else if e.pkgs.toNat - (if bit e.pkgs pkg then 2 ^ pkg else 0) ≠ 0 then 3
  else if (scopeDies e.cores e.rpart).length > 1 then 2
  else if popcount e.cores > 1 ∨ e.rpart ≠ 0 then 1 else 0

/-- The flush set of a membership (R255). -/
def flushSet (pkg : Nat) (e : ScopeEntry) : List Nat :=
  if scopeLevel pkg e ≥ 3 then [0, 1, 2, 3] else scopeDies e.cores e.rpart

/-- The membership under which an operation of a core acts (R252, R256): entry 7 for an invalid entry, the issuing core added. -/
def State.member (s : State) (vf core n : Nat) : ScopeEntry :=
  let e := s.scope vf core n
  let e := if e.valid then e else { ScopeEntry.system with writes := e.writes }
  { e with cores := e.cores ||| BitVec.ofNat 256 (2 ^ core) }

/-- What an operation that names an entry latches at its issue (R257). -/
def State.latch (s : State) (vf core n : Nat) : Latched :=
  let e := s.member vf core n
  ⟨n, (s.scope vf core n).writes, scopeLevel s.board.pkg e, flushSet s.board.pkg e, e.cores⟩

/-- A scope that holds a team's cores (R292): core level, or die level for a twin. -/
def Team.latch (t : Team) (core : Nat) : Latched := ⟨0, 0, if t.twin.isSome then 1 else 0, [core / 64], 0⟩

/-- The image of an entry, as an integer of 512 bits (R253). -/
def ScopeEntry.image (e : ScopeEntry) : Nat :=
  e.cores.toNat + e.pkgs.toNat * 2 ^ 256 + e.rpart.toNat * 2 ^ 320 + (if e.host then 2 ^ 324 else 0)
    + e.gen.toNat * 2 ^ 328 + (if e.valid then 2 ^ 336 else 0) + e.meet.toNat * 2 ^ 337

/-- A reserved field of an image is nonzero (R253, R273). -/
def imageBad (x : Nat) : Bool := decide (x / 2 ^ 340 ≠ 0) || decide (x / 2 ^ 325 % 8 ≠ 0)

/-- The entry that an image writes over an old one: GEN advances by one, MEET is computed (R257, R273). -/
def ScopeEntry.ofImage (pkg x : Nat) (old : ScopeEntry) : ScopeEntry :=
  let e : ScopeEntry := ⟨BitVec.ofNat 256 x, BitVec.ofNat 64 (x / 2 ^ 256), BitVec.ofNat 4 (x / 2 ^ 320), x.testBit 324,
    x.testBit 336, old.writes + 1, 0⟩
  { e with meet := BitVec.ofNat 3 (scopeLevel pkg e) }

/-- A release completed at once under a latched scope by a gang on a core (R261, R266, R267). -/
def State.releaseNow (s : State) (core : Nat) (l : Latched) : State := s.drainAt core l.level l.dies

/-- An acquire's discard under a latched scope (R262). -/
def State.acquireNow (s : State) (core : Nat) (l : Latched) : State := s.discardAt core l.level l.dies

/-- A gang's release completed at once: every acknowledgement it waits for has come (R261, R267). -/
def State.gangRelease (s : State) (t g core : Nat) (l : Latched) : State :=
  (s.releaseNow core l).modGang t g fun x => if l.level = 0 then x else { x with unacked := 0 }

end Sys2Proof.Machine
end

