-- ==== Sys2Proof/Machine/Ops.lean ====
section
/-! DEFINITION. The named operations that the meanings share: device accesses, the split table with its joins
and deferred entries (R276 to R284), barriers (R291), TAKING AN EXCEPTION and the return from one (R343 to R354), page faults
(R63), and the performing of a unit (R24 to R28, R37, R295). -/

namespace Sys2Proof.Machine

/-! ### Device accesses -/

/-- The pages of an access that the device makes by itself: walked each time (R59), where every byte is canonical (R56). One that lies in
an absent package gives an error response (R379); with `regs`, package registers are no reserved region (R373). -/
def State.devPages (s : State) (vf kind : Nat) (priv : Bool) (va n : Nat) (regs : Bool := false) : Except (List PageFail) (List Xlat) :=
  if n = 0 then .ok []
  else if !(canonical va) then .error [{ reason := 0, level := 3, va := va }]
  else if !(canonical ((va + n - 1) % 2 ^ 64)) then .error [{ reason := 0, level := 3, va := 2 ^ 54 }]
  else
    let ps := pageNumbers [⟨va, n, 0⟩]
    let rs := ps.map fun p => s.walk vf (max va (p * 2 ^ 16)) kind priv regs
    let bad := rs.filterMap fun r => match r with | .error f => some f | .ok _ => none
    let xs := rs.filterMap fun r => match r with | .ok x => some x | .error _ => none
    let away := (ps.map fun p => max va (p * 2 ^ 16)).filter fun a => s.absent ((findXlat xs a).pa a)
    if !bad.isEmpty then .error bad
    else if !away.isEmpty then .error (away.map fun a => { reason := 0, level := 0, va := a, bus := some a })
    else .ok xs

/-- Sets A and D of walked pages (R60). -/
def State.useWalks (s : State) (kind : Nat) (xs : List Xlat) : State :=
  { s with mem := xs.foldl (fun m x => setAD m x.ptes kind) s.mem }

/-- The bytes of a read by a unit of a die (R254, R269), or the pages that fail: the home slices and what the die holds written. -/
def State.devRead (s : State) (die vf : Nat) (priv : Bool) (va n : Nat) : Except (List PageFail) (State × List Byte) :=
  match s.devPages vf kLoad priv va n with
  | .error l => .error l
  | .ok xs =>
    let bs := (List.range n).map fun i => s.dieByte die ((findXlat xs (va + i)).pa (va + i))
    .ok ((linePieces va n).foldl (fun s p => let x := findXlat xs p.1; s.homeRead vf (x.pa p.1) p.2 x.leaf) (s.useWalks kLoad xs), bs)

/-- A device read, or none where a page fails: its error responses are logged (R376, R379). -/
def State.devTry (s : State) (die vf : Nat) (priv : Bool) (va n : Nat) : State × Option (List Byte) :=
  match s.devRead die vf priv va n with
  | .error l => (s.logFails die vf l, none)
  | .ok r => (r.1, some r.2)

/-- A device write of a core, performed at the home slices (R345): the copies on the path of the core take the bytes. -/
def State.devWrite (s : State) (core : Nat) (vf : Nat) (priv : Bool) (va : Nat) (bs : List Byte) : Option State :=
  match s.devPages vf kStore priv va bs.length with
  | .error _ => none
  | .ok xs => some ((linePieces va bs.length).foldl (fun s p =>
      let x := findXlat xs p.1
      s.storeThrough core vf (x.pa p.1) x.leaf ((bs.drop (p.1 - va)).take p.2)) (s.useWalks kStore xs))

/-! ### The split table -/

/-- Entries that a fragment may take (R278): 0 to 11, and 12 to 15 as well in a handler. -/
def Gang.freeEntries (g : Gang) (handler : Bool) : List Nat :=
  (List.range (if handler then 16 else 12)).filter fun n => (SMap.get? g.entries n).isNone

/-- A new fragment at the start of a chain (R24). -/
def Fragment.start (pc : Word) (active : Mask) (join : Option Nat) (handler : Bool) : Fragment :=
  { pc, active, join, pos := 1, v0 := false, v1 := false, l0 := [], l1 := [], hints := [], wait := none, handler }

/-- The chain ends: the next instruction stands at position 1 with invalid latches (R24, R26). -/
def Fragment.endChain (f : Fragment) : Fragment := { f with pos := 1, v0 := false, v1 := false, l0 := [], l1 := [] }

/-- A fragment whose address is that of its innermost record waits there, and its lanes are added to A (R283). -/
def Gang.arrive (g : Gang) (n : Nat) : Gang :=
  match g.frag? n with
  | none => g
  | some f =>
    match f.join with
    | none => g
    | some j =>
      match SMap.get? g.entries j with
      | some (.join a m ar ex p h) =>
        if a = f.pc ∧ f.wait = none then
          let g := g.setFrag n { f.endChain with wait := some (.join j) }
          { g with entries := SMap.set g.entries j (.join a m (ar ||| f.active) ex p h) }
        else g
      | _ => g

/-- Whether every fragment that holds lanes of a slice waits at a join, or none does (R281). A handler's entries look at the
handler's fragments alone. -/
def Gang.releasable (g : Gang) (sl : Nat) (join : Option Nat) (handler : Bool) : Bool :=
  g.frags.all fun p => !(p.2.handler == handler && decide (p.2.active &&& sliceLanes sl ≠ 0)) || (match join with
    | some j => p.2.wait == some (.join j)
    | none => false)

/-- The deferred entries that are released next: those with one resume address and record (R281). Of several such groups, that of the
lowest entry goes first (DESIGN CHOICE, assumption 119). -/
def Gang.deferredGroup (g : Gang) : List (Nat × Mask × Word × Option Nat × Bool) :=
  let ds := g.entries.filterMap fun (n, e) => match e with
    | .deferred sl m pc j h => if g.releasable sl j h then some (n, m, pc, j, h) else none
    | _ => none
  match ds with
  | [] => []
  | d :: _ => ds.filter fun x => decide (x.2.2 = d.2.2)

/-- A record that is complete: A with X equals M (R283). -/
def Gang.completeJoin? (g : Gang) : Option (Nat × Word × Mask × Option Nat) :=
  g.entries.findSome? fun (n, e) => match e with
    | .join a m ar ex p _ => if ar ||| ex = m then some (n, a, ar, p) else none
    | _ => none

/-- One release of deferred entries (R281), else one completion of a join (R283), else nothing. -/
def Gang.settleStep (g : Gang) : Option Gang :=
  match g.deferredGroup with
  | (n, m, pc, j, h) :: rest =>
    let lanes := rest.foldl (fun a x => a ||| x.2.1) m
    let g := { g with entries := rest.foldl (fun e (x : Nat × Mask × Word × Option Nat × Bool) => SMap.erase e x.1) g.entries }
    some ((g.setFrag n (.start pc lanes j h)).arrive n)
  | [] =>
    match g.completeJoin? with
    | none => none
    | some (j, a, ar, p) =>
      let ws := g.frags.filter fun x => x.2.wait == some (.join j)
      let g := { g with entries := ws.foldl (fun e (x : Nat × Fragment) => SMap.erase e x.1) (SMap.erase g.entries j) }
      match ws with
      | [] => some g
      | (n, f) :: _ => some ((g.setFrag n (.start a ar p f.handler)).arrive n)

/-- Releases and completions until none is left; the table has 16 entries. -/
def Gang.settle (g : Gang) : Nat → Gang
  | 0 => g
  | k + 1 => match g.settleStep with | some g' => Gang.settle g' k | none => g

/-- Steps after which nothing is left to release or complete: each frees an entry or starts a fragment. -/
abbrev settleFuel : Nat := 40

/-- A gang that a page fault suspends: none of its fragments issues (R63). -/
def Gang.suspended (g : Gang) : Bool := g.frags.any fun p => match p.2.wait with | some (.pageFault _) => true | _ => false

/-- A wait ends: the fragment goes on, and reaches its join where it stands at one. -/
def Gang.wake (g : Gang) (n : Nat) : Gang :=
  match g.frag? n with
  | some f => ((g.setFrag n { f with wait := none }).arrive n).settle settleFuel
  | none => g

/-- The gang's own values of s28 to s31 and fpm return (R348, R354). -/
def Gang.leaveHandler (g : Gang) : Gang :=
  match g.handler with
  | none => g
  | some h =>
    let sregs := [28, 29, 30, 31].foldl (fun m n => ZMap.set m n (ZMap.get h.saved n)) g.sregs
    { g with sregs, fpm := h.fpm, handler := none, pending := g.pending.filter (fun n => decide (n < 28)) ++ h.pending }

/-- An entry of a handler. -/
def Entry.inHandler : Entry → Bool
  | .frag f => f.handler
  | .deferred _ _ _ _ h => h
  | .join _ _ _ _ _ h => h

/-- Lanes that have exited are recorded in each open record whose M holds them (R284). -/
def Gang.exitLanes (g : Gang) (lanes : Mask) : Gang :=
  { g with entries := SMap.mapVals g.entries fun _ e => match e with
      | .join a m ar ex p h => .join a m ar (ex ||| (lanes &&& m)) p h
      | e => e }

/-- `exit` of a fragment (R284): its lanes end in the gang. In a handler the trapped fragment loses them, and handler mode ends
with the last handler lane (R347, R354). -/
def Gang.exitFrag (g : Gang) (n : Nat) : Gang :=
  match g.frag? n with
  | none => g
  | some f =>
    let g := ({ g with entries := SMap.erase g.entries n }).exitLanes f.active
    let g := if !f.handler then g
      else match g.handler with
        | none => g
        | some h =>
          let g := match g.frag? h.frag with
            | some t => g.setFrag h.frag { t with active := t.active &&& ~~~f.active }
            | none => g
          if g.entries.any fun p => match p.2 with | .frag x => x.handler | .deferred _ _ _ _ x => x | .join _ _ _ _ _ _ => false
          then g
          else
            let g := g.leaveHandler
            { g with entries := (SMap.erase g.entries h.frag).filter fun p => !(p.2.inHandler) }
    g.settle settleFuel

/-- The gang has ended: no fragment and no deferred entry (R284). -/
def Gang.over (g : Gang) : Bool :=
  !(g.entries.any fun p => match p.2 with | .join _ _ _ _ _ _ => false | _ => true)

/-- Lanes of the gang that have not exited (R291). -/
def Gang.liveLanes (g : Gang) : Nat :=
  (g.entries.map fun p => match p.2 with
    | .frag f => if f.handler then 0 else popcount f.active
    | .deferred _ m _ _ h => if h then 0 else popcount m
    | .join _ _ _ _ _ _ => 0).foldl (· + ·) 0

/-! ### Barriers -/

/-- A barrier as it stands. -/
def Team.bar (t : Team) (n : Nat) : Barrier := SMap.getD t.bars n ⟨0, 0, 0, false⟩

/-- A barrier's phase completes (R291): its waiters return, and each return is an acquire. -/
def State.completeBarrier (s : State) (tm n : Nat) : State :=
  match s.team? tm with
  | none => s
  | some t =>
    let b := t.bar n
    let waits (f : Fragment) : Bool := f.wait == some (.barrier n b.phase)
    let cores := (t.gangs.filter fun p => p.2.frags.any fun x => waits x.2).map fun p => p.2.core
    let s := cores.foldl (fun s c => s.acquireNow c (t.latch c)) s
    s.modTeam tm fun t => { t with
      bars := SMap.set t.bars n ⟨b.phase + 1, 0, 0, false⟩
      gangs := SMap.mapVals t.gangs fun _ g => g.frags.foldl (fun g x => if waits x.2 then g.wake x.1 else g) g }

/-- Phases with the default count are checked again when lanes exit (R291). -/
def State.recheckBarriers (s : State) (tm : Nat) : State :=
  match s.team? tm with
  | none => s
  | some t =>
    let live := (t.gangs.map fun p => p.2.liveLanes).foldl (· + ·) 0
    (t.bars.filter fun p => p.2.dflt && decide (p.2.cnt ≥ live)).foldl (fun s p => s.completeBarrier tm p.1) s

/-! ### Ends of gangs and teams -/

/-- Accumulator units of a gang drain (R140, R142). -/
def State.drainUnits (s : State) (core quad : Nat) (owner : Option (Nat × Nat)) (units : List Nat) : State :=
  if units.isEmpty then s
  else s.modQuad core quad fun q => { q with draining := q.draining ++ units.map fun u => (u, owner) }

/-- Units that drain are a gang's no more: its reservation is gone (R142). -/
def disown (p : Ref → Bool) (ds : List (Nat × Option (Nat × Nat))) : List (Nat × Option (Nat × Nat)) :=
  ds.map fun d => (d.1, d.2.filter fun o => !(p ⟨o.1, o.2, 0⟩))

/-- Forgets what the device keeps of fragments that are no more: surge requests and grants, places in queues, turns given away, and
suspensions by page faults. A request that went on in ramp mode stays queued (R225). -/
def State.purge (s : State) (p : Ref → Bool) : State :=
  { s with
    dies := SMap.mapVals s.dies fun _ d => { d with
      surge := d.surge.filter fun x => x.ramped || !(p x.ref)
      grants := d.grants.filter fun r => !(p r)
      rtu := d.rtu.filter fun r => !(p r) }
    cores := SMap.mapVals s.cores fun _ c => { c with
      quads := SMap.mapVals c.quads fun _ q => { q with
        draining := disown p q.draining
        yielded := q.yielded.filter fun y => !(p ⟨y.1, y.2.1, 0⟩)
        accQueue := q.accQueue.filter fun r => !(p r) } }
    vfs := SMap.mapVals s.vfs fun _ v => { v with suspended := v.suspended.filter fun x => !(p x.ref) } }

/-- A gang that is over leaves its quadrant (R142, R284), its pending releases done (R271). -/
def State.endGang (s : State) (tm gn : Nat) : State :=
  match s.gang? tm gn with
  | none => s
  | some g =>
    if g.over then
      let s := g.releases.foldl (fun s l => s.releaseNow g.core l) s
      let s := s.purge fun r => r.team == tm && r.gang == gn
      (s.drainUnits g.core g.quad none (g.accs.flatMap fun p => p.2.units)).modTeam tm fun t =>
        { t with gangs := SMap.erase t.gangs gn }
    else s

/-- Copies of a team in flight, or waiting for their frames, on any core (R111). -/
def State.teamCopies (s : State) (tm : Nat) : Bool := s.cores.any fun p => p.2.copies.any fun c => decide (c.2.team = tm)

/-- A queued operation of the gang has not been performed (R71). -/
def Gang.inRtu (g : Gang) : Bool := g.frags.any fun p => match p.2.wait with | some (.rtu _ _ _ _ _) => true | _ => false

/-- A team has something in flight beyond its gangs' unit boundaries: a copy, or an operation in an RTU's queue (R111, R352). -/
def State.teamBusy (s : State) (tm : Nat) (t : Team) : Bool := s.teamCopies tm || t.gangs.any fun g => g.2.inRtu

/-- A team leaves the machine: pending releases of its gangs are completed, their accumulator units drain (R142), and its block of
the fault-area pool returns (R345). -/
def State.removeTeam (s : State) (tm : Nat) : State :=
  match s.team? tm with
  | none => s
  | some t =>
    let s := t.gangs.foldl (fun s p =>
      let s := p.2.releases.foldl (fun s l => s.releaseNow p.2.core l) s
      s.drainUnits p.2.core p.2.quad none (p.2.accs.flatMap fun x => x.2.units)) s
    let s := ({ s with teams := SMap.erase s.teams tm }).purge fun r => r.team == tm
    s.modVf t.vf fun v => { v with faultBlocks := v.faultBlocks.filter fun b => t.faultBlock != some b }

/-- A grid counts a team that has finished, with its code (R315, R316). -/
def Grid.count (x : Grid) (ti code : Nat) : Grid :=
  if code = 0 then { x with finished := x.finished + 1 }
  else
    let first := x.nbad = 0 ∨ ti < x.firstBad
    { x with finished := x.finished + 1, nbad := x.nbad + 1, firstBad := if first then ti else x.firstBad,
             badCode := if first then code else x.badCode }

/-- A team is over: it leaves the machine, and its grid counts it with its code. -/
def State.dropTeam (s : State) (tm code : Nat) : State :=
  match s.team? tm with
  | none => s
  | some t =>
    let s := s.removeTeam tm
    match t.own with
    | .task _ _ => s
    | .grid g => { s with grids := SMap.modify s.grids g fun x => x.count t.index.toNat code }

/-- A team of a non-staged grid ends when its last gang has ended and its copies have completed (R284). -/
def State.settleTeam (s : State) (tm : Nat) : State :=
  match s.team? tm with
  | none => s
  | some t => if t.gangs.isEmpty && !t.staged && t.stopped.isNone && !(s.teamCopies tm) then s.dropTeam tm 0 else s

/-- `exit` of this fragment ends the last gang of its team (R111). -/
def Ctx.lastExit (c : Ctx) : Bool := (c.gang.exitFrag c.ref.frag).over && c.team.gangs.all fun p => p.1 == c.ref.gang

/-- `exit` of the fragment of a context (R284). -/
def State.exitOf (s : State) (r : Ref) : State :=
  (((s.modGang r.team r.gang fun g => g.exitFrag r.frag).recheckBarriers r.team).endGang r.team r.gang).settleTeam r.team

/-! ### Taking an exception -/

/-- What a fault record says of the fault itself (R344, R346). -/
structure FaultInfo where
  cls : Nat
  fbyte : Word := 0
  plane : Nat := 0
  scope : Option (BitVec 3) := none
  sgen : Nat := 0
  handle : Word := 0
  rank : Word := 0
deriving DecidableEq, Repr

/-- The fault classes of R344. -/
abbrev cUNDEF : Nat := 1
abbrev cILLEGAL : Nat := 2
abbrev cPRIV : Nat := 3
abbrev cREGRANGE : Nat := 4
abbrev cLATCH : Nat := 5
abbrev cMSPLIT : Nat := 6
abbrev cSPLITDEPTH : Nat := 7
abbrev cALIGN : Nat := 8
abbrev cPAGE : Nat := 9
abbrev cPROT : Nat := 10
abbrev cOWNER : Nat := 11
abbrev cESCOPE : Nat := 12
abbrev cERANK : Nat := 13
abbrev cEQUOTA : Nat := 14
abbrev cSTALESCOPE : Nat := 15
abbrev cWATCHDOG : Nat := 16
abbrev cSTAGEFULL : Nat := 17
abbrev cDETERMINISM : Nat := 18
abbrev cDIGEST : Nat := 19
abbrev cCOMPAT : Nat := 20
abbrev cDOUBLE : Nat := 21

/-- A fault of a class with its first faulting byte or reason. -/
def FaultInfo.mk' (cls fbyte : Nat) : FaultInfo := { cls, fbyte := BitVec.ofNat 64 fbyte }

/-- The 64 bytes of a fault record (R346). -/
def recordBytes (fi : FaultInfo) (word : IWord) (iaddr : Word) (active : Mask) (seq : BitVec 32) (gang : Nat)
    (dbl restart serial : Bool) (resume : Word) : List Byte :=
  let sc := match fi.scope with | some n => 128 + n.toNat | none => 0
  let st := (if dbl then 1 else 0) + (if restart then 2 else 0) + (if serial then 4 else 0)
  toBytes fi.cls 1 ++ toBytes fi.plane 1 ++ toBytes sc 1 ++ toBytes fi.sgen 1 ++ toBytes word.toNat 4 ++ toBytes iaddr.toNat 8
    ++ toBytes active.toNat 8 ++ toBytes fi.fbyte.toNat 8 ++ toBytes fi.handle.toNat 8 ++ toBytes fi.rank.toNat 8
    ++ toBytes seq.toNat 4 ++ toBytes (sliceMask active) 2 ++ toBytes gang 1 ++ toBytes st 1 ++ toBytes resume.toNat 8

/-- The cause for which a team stays stopped: the first, but for a discard that was to be entered again and is now dropped (R318). -/
def StopCause.after (c : StopCause) : Option StopCause → StopCause
  | none => c
  | some .retry => if c = .dropped then c else .retry
  | some d => d

/-- Stops every gang of a team for a cause; the team's end follows as a step of its own (R311, R313, R352). -/
def State.stopTeam (s : State) (tm : Nat) (c : StopCause) : State :=
  s.modTeam tm fun t => { t with stopped := some (c.after t.stopped) }

/-- Address of record n of a team's fault area (R345). -/
def Team.recordAddr (t : Team) (n : Nat) : Word := t.fbase + BitVec.ofNat 64 (64 * n)

/-- The bytes of a read with the team's own staged bytes over them (R236): a staged byte meets an access by its virtual address (DESIGN
CHOICE, assumption 105). -/
def Staging.overlay (g : Staging) (va : Nat) (bs : List Byte) : List Byte :=
  ((List.range bs.length).zip bs).map fun p => if g.addrs.contains (va + p.1) then ZMap.get g.bytes (va + p.1) else p.2

/-- Staged bytes at the place of a fault record give way to the record, which the handler's loads see (R348, assumption 74). -/
def Staging.drop (g : Staging) (a n : Nat) : Staging :=
  { g with
    addrs := g.addrs.filter fun b => decide (b < a ∨ a + n ≤ b)
    bytes := (List.range n).foldl (fun m i => ZMap.set m (a + i) 0) g.bytes
    writes := g.writes.filter fun w => match w with
      | .byte b _ => decide (b < a ∨ a + n ≤ b)
      | .red _ _ => true }

/-- Writes a record with privileged access; where the write fails the team is ended, and the failure is logged (R345). -/
def State.writeRecord (s : State) (tm n core cls : Nat) (bytes : BitVec 32 → List Byte) : State × Bool :=
  match s.team? tm with
  | none => (s, false)
  | some t =>
    let seq := t.seq + 1
    let s := s.modTeam tm fun t => { t with seq := seq }
    match if t.faultBlock.isNone then none else s.devWrite core t.vf true (t.recordAddr n).toNat (bytes seq) with
    | some s => (s.modTeam tm fun t => { t with staging := t.staging.drop (t.recordAddr n).toNat 64 }, true)
    | none => ((s.event 3 (core / 64) t.vf cls (t.index.toNat % 2 ^ 32) (t.recordAddr n).toNat 0).stopTeam tm (.fault cls), false)

/-- What a handler's entry sets (R348): s28 to s31 and fpm. -/
def Gang.handlerRegs (g : Gang) (recAddr : Word) : Gang :=
  { g with sregs := [29, 30, 31].foldl (fun m r => ZMap.set m r 0) (ZMap.set g.sregs 28 recAddr), fpm := 0 }

/-- Starts the handler of a gang (R348): s28 to s31 and fpm are saved and set, the trapped fragment waits with its chain, and
entry 12 holds the handler fragment. -/
def Gang.enterHandler (g : Gang) (n : Nat) (f : Fragment) (entry recAddr : Word) (compat : Bool) (word : IWord) (nth : Nat) : Gang :=
  let saved := [28, 29, 30, 31].foldl (fun (m : ZMap 64) r => ZMap.set m r (ZMap.get g.sregs r)) []
  let h : Handler := { frag := n, saved, fpm := g.fpm, iaddr := f.pc, compat, pending := g.pending.filter fun r => decide (28 ≤ r),
                       record := recAddr, word, nth }
  let g := { g.handlerRegs recAddr with
    handler := some h
    pending := g.pending.filter fun r => decide (r < 28) }
  (g.setFrag n { f with wait := some .trapped, hints := [] }).setFrag 12 (.start entry f.active none true)

/-- A fault of an emulated instruction is delivered to HENTRY as if raised directly (R368): the routine's entries are freed, its s28 to
s31 await nothing any more, and the handler starts on the trapped lanes. -/
def Gang.reenterHandler (g : Gang) (h : Handler) (active : Mask) (entry recAddr : Word) (nth : Nat) : Gang :=
  let g := { g.handlerRegs recAddr with
    handler := some { h with compat := false, record := recAddr, nth }
    pending := g.pending.filter fun r => decide (r < 28)
    entries := g.entries.filter fun p => !(p.2.inHandler) }
  g.setFrag 12 (.start entry active none true)

/-- A unit of the resident routine, by its word, whose fault of a class is one that the emulated instruction raises (R368): not a
`trap` or a COMPAT, a fetch of the routine's own words (word 0) or a check of its `rte`. The routine's own units do not count, so that
a WATCHDOG is the emulated instruction's, which its `rte` counts (R295). -/
def emulatedFault (cls : Nat) (word : IWord) (tick : Nat) : Bool :=
  cls == cWATCHDOG ||
    (cls != 0 && cls != cCOMPAT && word != 0 && word != (encode .rte).getD 0 && Config.emulates word tick)

/-- TAKING AN EXCEPTION: a fragment faults or performs `trap` (R343 to R352). `resume` is where `rte` resumes for a `trap`; a
fault resumes at the unit's own address. A unit of another fragment that faults while the gang is in handler mode is dropped, and is
performed again when its fragment next issues (R349). -/
def State.takeTrap (s : State) (r : Ref) (fi : FaultInfo) (word : IWord) (resume : Option Word) : State :=
  match s.team? r.team, s.gang? r.team r.gang with
  | some t, some g =>
    match g.frag? r.frag with
    | none => s
    | some f =>
      let s := { s with turn := none }
      let s := s.modFrag r fun f => { f with hints := [], wait := none }
      let rec2 := 2 * r.gang
      let double :=
        let (s, _) := s.writeRecord r.team (rec2 + 1) g.core cDOUBLE fun seq =>
          recordBytes { fi with cls := cDOUBLE, fbyte := BitVec.ofNat 64 fi.cls } word f.pc f.active seq r.gang true
            resume.isNone false (resume.getD f.pc)
        s.stopTeam r.team (.fault cDOUBLE)
      match g.handler with
      | some h =>
        if !f.handler then s
        else if h.compat && emulatedFault fi.cls word s.tick then
          let act := ((g.frag? h.frag).map Fragment.active).getD 0
          let (s, ok) := s.writeRecord r.team rec2 g.core fi.cls fun seq =>
            recordBytes { fi with scope := none, sgen := 0 } h.word h.iaddr act seq r.gang false true false h.iaddr
          if !ok then s
          else if fi.cls = cWATCHDOG ∨ (s.vf t.vf).hentry = 0 then s.stopTeam r.team (.fault fi.cls)
          else s.modGang r.team r.gang fun g => g.reenterHandler h act (s.vf t.vf).hentry (t.recordAddr rec2) s.tick
        else double
      | none =>
        let (s, ok) := s.writeRecord r.team rec2 g.core fi.cls fun seq =>
          recordBytes fi word f.pc f.active seq r.gang false resume.isNone false (resume.getD f.pc)
        let entry := if fi.cls = cCOMPAT then s.board.routine else (s.vf t.vf).hentry
        if !ok then s
        else if fi.cls = cWATCHDOG ∨ entry = 0 then s.stopTeam r.team (.fault fi.cls)
        else s.modGang r.team r.gang fun g =>
          g.enterHandler r.frag { f with wait := none, hints := [] } entry (t.recordAddr rec2) (fi.cls == cCOMPAT) word s.tick
  | _, _ => s

/-- The return from an exception (R354), once its checks have passed: `r` is RESUME and `iaddr` the IADDR of record 2g. -/
def Gang.returnFromHandler (g : Gang) (h : Handler) (r iaddr : Word) : Gang :=
  let g := g.leaveHandler
  let g := { g with entries := g.entries.filter fun p => !(p.2.inHandler) }
  match g.frag? h.frag with
  | none => g
  | some f =>
    if f.active = 0 then ({ g with entries := SMap.erase g.entries h.frag }).settle settleFuel
    else
      let f := { f with wait := none, pc := r, hints := [] }
      ((g.setFrag h.frag (if r = iaddr then f else f.endChain)).arrive h.frag).settle settleFuel

/-! ### Performing a unit -/

/-- What the meaning of an instruction answers once the checks of R37 have passed. -/
inductive Res where
  /-- Performed, without a vector result. -/
  | next (s : State)
  /-- Performed, with a vector result (R25): the destination and the words written, by lane. -/
  | vec (s : State) (d : BitVec 6) (vals : List (Nat × Word))
  /-- Performed; the fragment goes on at an address, and its chain ends. -/
  | goto (s : State) (pc : Word)
  /-- Performed; the fragment then waits. -/
  | hold (s : State) (w : Wait)
  /-- Performed; the fragment's entry has ended. -/
  | gone (s : State)
  /-- A check of the instruction's own failed. -/
  | trap (fi : FaultInfo)
  /-- Pages failed: the kind of the access, and what a record says of the first failing byte (R63, R64). -/
  | pages (kind : Nat) (fails : List PageFail) (fi : FaultInfo)
  /-- A check of the instruction's own failed after translation: the state keeps the A and D bits that were set (R60). -/
  | late (s : State) (fi : FaultInfo)
  /-- A load or atomic at an address received an error response (R376), in a state that keeps the A and D bits that were set. -/
  | bus (s : State) (addr : Nat)
  /-- Not performed: the fragment waits, and the unit is tried again. -/
  | wait (s : State) (w : Wait)

/-- The scalar registers that await a result while a fragment waits: that of its unit which has issued (R71, R214, R257), or the token
register of its copy, from issue on (R108). -/
def Wait.gives : Wait → List Nat
  | .rtu i _ _ _ _ => (use i).sw
  | .scopeWrite _ sd _ | .getReset sd _ _ _ _ | .copyIssue sd => [sd]
  | .copyFrames c _ _ _ => [c.sd]
  | _ => []

/-- A wait that ends by performing the unit again from its start (R297). -/
def Wait.retries : Wait → Bool
  | .scoreboard | .frame | .copyIssue _ | .queue _ | .taskTable | .accFile | .surge | .release | .merge _ _ _ _ _ _ | .copies => true
  | _ => false

/-- The scalar registers of the gang that a unit in a handler, or outside of one, does not reach before a result has come: that of a copy
(R108), or that of another fragment's unit that has issued (R133). Of s28 to s31 a handler has its own (R348), and it waits for no unit
that its gang performs again after `rte` (R349). -/
def Gang.awaits (g : Gang) (inHandler : Bool) : List Nat :=
  g.pending ++ g.frags.flatMap fun p => match p.2.wait with
    | some w => w.gives.filter fun n => (decide (n < 28) && !w.retries) || p.2.handler == inHandler
    | none => []

/-- A unit that accesses memory, or is a release or an acquire (R241, R260, R292, R319, R321). -/
def Instr.ordered (i : Instr) : Bool :=
  match i with
  | .barArrive .. | .barWait .. | .barSync .. => true
  | .spawn .. | .launch .. | .tabortRetry .. | .tabortDrop .. | .depset .. | .depdec .. | .depread .. => true
  | .qpush .. | .qpop .. | .qtry .. => true
  | .sld .. | .sst .. | .sldk .. => true
  | .accst .. | .accld .. | .ldl .. | .stl .. | .ldfrag .. | .stfrag .. => true
  | .catom .. | .catomExch .. | .catomCas .. => true
  | .gld .. | .gldF6p .. | .gst .. | .gstF6p .. | .gstFs .. => true
  | .gatom .. | .gexch .. | .gcas .. | .gredF .. | .gredRn .. => true
  | .tcopy .. | .tgath .. | .trag .. => true
  | .enew .. | .efree .. | .eins .. | .eapp .. | .edel .. | .esplit .. | .ecat .. => true
  | .emark .. | .eanch .. | .erank .. | .erankH .. | .edrop .. | .elen .. | .einfo .. => true
  | .eld .. | .est .. => true
  | .fenceAcq .. | .fenceRel .. | .fenceAcqrel .. | .swr .. | .icinv .. => true
  | _ => false

/-- The outcome of the checks of R37 that precede an instruction's own. -/
inductive Gate where
  | go
  | trap (fi : FaultInfo)
  | wait
deriving DecidableEq, Repr

/-- `privileged_use` (R40), read after the scoreboard wait. -/
def privilegedUse (i : Instr) (c : Ctx) : Bool :=
  match i with
  | .sset _ n _ => (n.toNat == 13 || n.toNat == 14) && !c.priv
  | .swr _ a _ _ => c.s a == 0 || c.s a == 7
  | .rte => !c.priv
  | _ => false

/-- A word of major opcode 0, which no check but its own precedes (R37, R355). -/
def isIll (i : Instr) : Bool := match i with | .ill _ => true | _ => false

/-- A unit waits on the scoreboard: for a result of one of its registers, or, where it is ordered, for an operation of its gang that has
issued into an RTU's queue. That is an acquire, whose discard comes before every later access of the gang; an access, which comes before
every later release completes; and what an `eld` or `est` resolves its ranks after (R83, R261, R262, R400). -/
def Ctx.blocked (c : Ctx) (i : Instr) : Bool :=
  (((use i).sr ++ (use i).sw).any fun n => decide (n ≠ 0) && (c.gang.awaits c.frag.handler).contains n)
    || (Instr.ordered i && c.gang.inRtu)

/-- The checks of R37 on a unit, in their order. -/
def gate (i : Instr) (c : Ctx) : Gate :=
  let u := use i
  let hs := c.hints
  if isIll i then .go
  else if !(fieldsOk i && u.hintsOk hs && valuesOk i hs) then .trap { cls := cUNDEF, scope := u.scope }
  else if c.blocked i then .wait
  else if privilegedUse i c then .trap { cls := cPRIV, scope := u.scope }
  else if (u.named c.w hs).any fun n => decide (c.team.kernel.vregs ≤ n) then .trap { cls := cREGRANGE, scope := u.scope }
  else if (u.readsLatch 62 hs && !c.frag.v0) || (u.readsLatch 63 hs && !c.frag.v1) then .trap { cls := cLATCH, scope := u.scope }
  else .go

/-- The word of an instruction, as a fault record holds it (R346). -/
def wordOf (i : Instr) : IWord := (encode i).getD 0

/-- The fragment waits. Where its unit is tried again, it is fetched anew from its first word (R29, R297). -/
def Ctx.park (c : Ctx) (s : State) (w : Wait) : State :=
  ({ s with turn := none }).modFrag c.ref fun f => { f with wait := some w, hints := if w.retries then [] else f.hints }

/-- A unit that is not performed does not count against the watchdog (R295). -/
def Ctx.uncount (c : Ctx) (t : State) : State := c.modG t fun g => { g with wcount := c.gang.wcount }

/-- The scope byte and generation that every record of a unit holds (R346). -/
def Ctx.withScope (c : Ctx) (s : State) (i : Instr) (fi : FaultInfo) : FaultInfo :=
  match (use i).scope with
  | none => fi
  | some n => if fi.cls = cSTALESCOPE then { fi with scope := some n }
              else { fi with scope := some n, sgen := (s.scope c.vf c.core n.toNat).gen.toNat }

/-- A unit faults (R343): nothing of it is performed. -/
def Ctx.fault (c : Ctx) (i : Instr) (fi : FaultInfo) (s : State) : State :=
  s.takeTrap c.ref (c.withScope s i fi) (wordOf i) none

/-- The record's plane and first faulting byte over failing pages, and its class (R64, R239). -/
def failInfo (fails : List PageFail) (accs : List Acc3) : FaultInfo :=
  let plane := if fails.any (fun f => f.plane == 1) then 1 else ((fails.head?.map PageFail.plane).getD 0)
  let cands := fails.flatMap fun f => (onPage accs (f.va / 2 ^ 16)).filterMap fun a =>
    if a.plane = plane then some (max a.va (f.va / 2 ^ 16 * 2 ^ 16), f.cls) else none
  let best := cands.foldl (fun (b : Option (Nat × Nat)) x => match b with
    | none => some x
    | some y => if x.1 < y.1 then some x else some y) none
  match best with
  | some (va, cls) => { cls, fbyte := BitVec.ofNat 64 va, plane }
  | none => { cls := cPAGE, plane }

/-- The lowest free tags, one for each failing page, below 2^48 (R63). -/
def freshTags (n : Nat) (used : List Nat) : Nat → List Nat
  | 0 => []
  | k + 1 => let t := freshName n (2 ^ 40) (sortNats used); t :: freshTags (n + 1) (t :: used) k

/-- The tags of entries that wait to be posted or answered. -/
def Vf.tagsInUse (v : Vf) : List Nat := (v.suspended.flatMap fun x => x.tags) ++ v.fqWaiting.map FqEntry.tag

/-- A page fault of a fragment's unit (R63, R64): the gang is suspended and entries wait to be posted, or the trap is taken where
the fault queue is disabled. An error response that a table gave is logged (R376, R379). -/
def State.pageFault (s : State) (r : Ref) (core quad vf kind : Nat) (fails : List PageFail) (fi : FaultInfo) (word : IWord) :
    State :=
  let s := s.logFails (core / 64) vf fails
  if !((s.vf vf).fqen) then s.takeTrap r fi word none
  else
    let tags := freshTags s.tick (s.vf vf).tagsInUse fails.length
    let unit := quad * 32 + r.gang
    let es := (fails.zip tags).map fun p =>
      ({ va := BitVec.ofNat 64 p.1.va, vf, origin := core, unit, kind, reason := p.1.reason, level := p.1.level,
         plane := p.1.plane, tag := p.2 } : FqEntry)
    let s := { s with turn := none }
    let s := s.modFrag r fun f => { f with wait := some (.pageFault tags), hints := [] }
    s.modVf vf fun v => { v with
      fqWaiting := v.fqWaiting ++ es
      suspended := v.suspended ++ [⟨r, fi.cls, fi.fbyte, fi.plane, word, fi.scope, fi.sgen, tags⟩] }

/-- The fragment once a unit has been performed: latches (R25, R26), chain position (R24), next address. -/
def Gang.latchFrag (g : Gang) (f : Fragment) (chain : Bool) (vres : Option (BitVec 6 × List (Nat × Word))) : Fragment :=
  if !(chain && decide (f.pos < 8)) then f.endChain
  else
    let f := { f with pos := f.pos + 1 }
    match vres with
    | none => f
    | some (d, vals) =>
      let word (l : Nat) : Word :=
        if d.toNat < 62 then g.v d.toNat l else ((vals.find? fun p => p.1 == l).map Prod.snd).getD 0
      { f with l1 := f.l0, v1 := f.v0, v0 := true
               l0 := (lanesOf (wholeSlices f.active)).foldl (fun m l => ZMap.set m l (word l)) [] }

/-- A unit has been performed: its vector result is written and latched, its chain goes on or ends, the fragment goes on at an
address or waits, and reaches its join where it stands at one. -/
def Ctx.retire (c : Ctx) (s : State) (chain : Bool) (pc : Word) (vres : Option (BitVec 6 × List (Nat × Word)))
    (hold : Option Wait) : State :=
  ({ s with turn := none }).modGang c.ref.team c.ref.gang fun g =>
    match g.frag? c.ref.frag with
    | none => g
    | some f =>
      let g := match vres with
        | some (d, vals) => if d.toNat < 62 then g.setVs d.toNat vals else g
        | none => g
      let f := { g.latchFrag f chain vres with pc, hints := [], wait := hold }
      let g := g.setFrag c.ref.frag f
      match hold with
      | none => (g.arrive c.ref.frag).settle settleFuel
      | some _ => g

/-- A taken branch may fuse the fragment with one that stands at its target (R285): of several, with that of the lowest entry alone
(DESIGN CHOICE, assumption 120), and under the record that is its innermost after its own join has completed (DESIGN CHOICE,
assumption 121). -/
def Ctx.maybeFuse (c : Ctx) (s : State) (pc : Word) : State :=
  if c.team.det then s
  else c.modG s fun g =>
    match g.frag? c.ref.frag with
    | none => g
    | some f =>
      let others := g.frags.filter fun p => decide (p.1 ≠ c.ref.frag) && decide (p.2.join = f.join) && decide (p.2.pc = pc)
        && decide (p.2.pos = 1) && p.2.wait.isNone && decide (p.2.hints = []) && p.2.handler == f.handler
      match others with
      | [] => g
      | p :: _ =>
        if f.wait.isSome || decide (f.pc ≠ pc) || decide (Config.pick s.tick % 2 = 0) then g
        else { g with entries := SMap.set (SMap.erase g.entries p.1) c.ref.frag (.frag { f with active := f.active ||| p.2.active }) }

/-- A backward branch to a target at most 63 words back may fill the loop buffer (R298). -/
def Ctx.maybeLoop (c : Ctx) (s : State) (pc : Word) : State :=
  if decide (pc.toNat ≤ c.at.toNat) && decide (c.at.toNat - pc.toNat ≤ 252) then
    if Config.pick (s.tick + 1) % 2 = 0 then s
    else s.modQuad c.core c.gang.quad fun q => { q with loop := some (c.vf, pc.toNat, c.at.toNat), loopWords := [] }
  else s

/-- Lanes of a gang let another gang issue before their next unit (R34, R294): whichever fragment holds them then. -/
def Quad.giveTurn (q : Quad) (r : Ref) (m : Mask) : Quad :=
  if m = 0 then q else { q with yielded := q.yielded ++ [(r.team, r.gang, m)] }

/-- Lanes of a gang have issued: those of other gangs that gave their turn have it back, and so have these (R34, R294). -/
def Quad.takeTurn (q : Quad) (r : Ref) (m : Mask) : Quad :=
  { q with yielded := (q.yielded.map fun y => (y.1, y.2.1, y.2.2 &&& ~~~m)).filter fun y =>
      decide (y.1 = r.team) && decide (y.2.1 = r.gang) && decide (y.2.2 ≠ 0) }

/-- A fragment gave its turn away: some lane of it did. -/
def Quad.gave (q : Quad) (r : Ref) (m : Mask) : Bool :=
  q.yielded.any fun y => decide (y.1 = r.team) && decide (y.2.1 = r.gang) && decide (y.2.2 &&& m ≠ 0)

/-- A unit of a fragment with the lanes `m` has issued on a quadrant (R34, R294). -/
def State.takeTurn (s : State) (core quad : Nat) (r : Ref) (m : Mask) : State :=
  if ((s.core core).quad quad).yielded.isEmpty then s else s.modQuad core quad fun q => q.takeTurn r m

/-- The lanes of a gang that stand in its fragments. -/
def Gang.lanes (g : Gang) : Mask := g.frags.foldl (fun m p => m ||| p.2.active) 0

/-- A unit of a fragment with the lanes `m` asks for another gang before the next unit of those that go on: in its fragment, in one that
a join has fused it into (R283), in the handler and the trapped fragment after a `trap` (R348), in the trapped one after `rte` (R354). -/
def State.giveTurn (s : State) (core quad : Nat) (r : Ref) (m : Mask) : State :=
  s.modQuad core quad fun q => q.giveTurn r (m &&& ((s.gang? r.team r.gang).map Gang.lanes).getD 0)

/-- A unit that asks for another gang next: a `yield` (R294), or SW = 1 but for one whose C bit is set (R34). -/
def Ctx.yields (c : Ctx) (i : Instr) : Bool :=
  match i with
  | .yield _ _ _ => true
  | _ => hintSched c.hints && (use i).chain != some 1

/-- The fragment's gang has had its turn. -/
def Ctx.takeTurn (c : Ctx) (s : State) : State := s.takeTurn c.core c.gang.quad c.ref c.frag.active

/-- A unit has issued and been performed: its gang has had its turn, and may give the next one away. -/
def Ctx.schedule (c : Ctx) (s : State) (i : Instr) : State :=
  let s := c.takeTurn s
  if c.yields i then s.giveTurn c.core c.gang.quad c.ref c.frag.active else s

/-- The units of the resident routine do not count against the watchdog (R368). -/
def Gang.uncounted (g : Gang) : Bool :=
  match g.handler with
  | some h => h.compat
  | none => false

/-- One more unit counts against the watchdog (R295). -/
def Gang.count (g : Gang) : Gang := if g.uncounted then g else { g with wcount := g.wcount + 1 }

/-- The watchdog check of R295 passes. -/
def Gang.mayCount (g : Gang) : Bool := g.uncounted || decide (g.wcount + 1 ≤ g.wbudget)

/-- The gang as a unit counts in it that completes by itself: one outside the handler is none of the routine's (R349, R368). -/
def Gang.forUnit (g : Gang) (inHandler : Bool) : Gang := if inHandler then g else { g with handler := none }

/-- One more unit counts, which completes by itself (R295). -/
def Gang.countFor (g : Gang) (inHandler : Bool) : Gang := { g with wcount := (g.forUnit inHandler).count.wcount }

/-- The effects of a unit whose checks have passed, or its fault or wait. -/
def Ctx.complete (c : Ctx) (i : Instr) (r : Res) (s : State) : State :=
  let chain := (use i).chain == some 1
  let counted (t : State) : State := if c.gang.mayCount then t else c.fault i { cls := cWATCHDOG } s
  match r with
  | .next t => counted (c.retire t chain c.next none none)
  | .vec t d vals => counted (c.retire t chain c.next (some (d, vals)) none)
  | .goto t pc => counted (c.maybeFuse (c.maybeLoop (c.retire t false pc none none) pc) pc)
  | .hold t w => counted (c.retire t chain c.next none (some w))
  | .gone t => counted { t with turn := none }
  | .trap fi => c.fault i fi s
  | .pages kind fails fi => s.pageFault c.ref c.core c.gang.quad c.vf kind fails (c.withScope s i fi) (wordOf i)
  | .late t fi => c.fault i fi t
  | .bus t a => c.fault i (.mk' cPROT a) (t.event 1 c.die c.vf cPROT 13 a 0)
  | .wait t w => c.park t w

/-- A unit's answer, and the turns of the quadrant (R34, R294): one that waits has not issued, but for one that has gone into an RTU's
queue (R71, R297), and one that faults gives no turn away. -/
def Ctx.finish (c : Ctx) (i : Instr) (r : Res) (s : State) : State :=
  let t := c.complete i r s
  let taken := c.takeTurn t
  match r with
  | .wait _ (.rtu _ _ _ _ _) => c.schedule t i
  | .wait _ _ => t
  | .next _ | .vec _ _ _ | .goto _ _ | .hold _ _ | .gone _ => if c.gang.mayCount then c.schedule t i else taken
  | _ => taken

/-- Performs a unit (R37): the checks in their order, then the meaning on the state with the unit counted. -/
def perform (i : Instr) (body : Ctx → State → Res) (s : State) : Out :=
  match s.ctx? with
  | none => .fault .noFragment
  | some c =>
    match gate i c with
    | .trap fi => .next (c.takeTurn (c.fault i fi s))
    | .wait => .next (c.park s .scoreboard)
    | .go => .next (c.finish i (body c (c.modG s Gang.count)) s)

/-- A hint word is taken into the unit of the fragment (R29), which goes on with its next word; a payload that is marked UNDEF
makes the unit UNDEF at its target (R30). -/
def takeHint (i : Instr) (h : Hint) (s : State) : Out :=
  match s.ctx? with
  | none => .fault .noFragment
  | some c => .next (({ s with turn := some c.ref }).modFrag c.ref fun f =>
      { f with hints := (if fieldsOk i then h else .bad) :: f.hints })

end Sys2Proof.Machine
end

