-- ==== Sys2Proof/Machine/Scalar.lean ====
section
/-! DEFINITION. Scalar arithmetic (R167 to R171): each form is performed once and writes one scalar register. -/

namespace Sys2Proof.Machine

/-- A scalar instruction (R167): one register is written with a value of the operands. -/
def scalarOp (i : Instr) (d : BitVec 5) (f : Ctx → Word) (s : State) : Out :=
  perform i (fun c t => .next (c.setS t d (f c))) s

/-- a * 2^n. -/
def shl64 (a : Word) (n : Nat) : Word := a <<< n
/-- floor(a / 2^n), a unsigned. -/
def shr64 (a : Word) (n : Nat) : Word := a >>> n
/-- floor(a / 2^n), a signed. -/
def sra64 (a : Word) (n : Nat) : Word := ofInt 64 (a.toInt / 2 ^ n)

/-- Signed quotient (R169): all ones for a zero divisor; -2^63 / -1 wraps to -2^63. -/
def sdiv64 (a b : Word) : Word := if b = 0 then BitVec.allOnes 64 else ofInt 64 (a.toInt.tdiv b.toInt)
/-- Signed remainder (R169), of the sign of a. -/
def srem64 (a b : Word) : Word := if b = 0 then a else ofInt 64 (a.toInt.tmod b.toInt)
/-- Unsigned quotient (R169). -/
def sdivn64 (a b : Word) : Word := if b = 0 then BitVec.allOnes 64 else BitVec.ofNat 64 (a.toNat / b.toNat)
/-- Unsigned remainder (R169). -/
def sremn64 (a b : Word) : Word := if b = 0 then a else BitVec.ofNat 64 (a.toNat % b.toNat)

/-- The six conditions of `scmp`, `vcmp` and `vcmp64` (R168, R184) on the signed and unsigned values. -/
def compare6 (o : BitVec 3) (x y : Int) (m n : Nat) : Bool :=
  match o.toNat with
  | 0 => decide (m = n)
  | 1 => decide (m ≠ n)
  | 2 => decide (x < y)
  | 3 => decide (x ≤ y)
  | 4 => decide (m < n)
  | _ => decide (m ≤ n)

/-- R168. a + b. -/
def execSadd (d a b : BitVec 5) (cb : BitVec 1) (s : State) : Out :=
  scalarOp (.sadd d a b cb) d (fun c => c.s a + c.s b) s

/-- R168. a - b. -/
def execSsub (d a b : BitVec 5) (cb : BitVec 1) (s : State) : Out :=
  scalarOp (.ssub d a b cb) d (fun c => c.s a - c.s b) s

/-- R168. Bitwise and. -/
def execSand (d a b : BitVec 5) (cb : BitVec 1) (s : State) : Out :=
  scalarOp (.sand d a b cb) d (fun c => c.s a &&& c.s b) s

/-- R168. Bitwise or. -/
def execSor (d a b : BitVec 5) (cb : BitVec 1) (s : State) : Out :=
  scalarOp (.sor d a b cb) d (fun c => c.s a ||| c.s b) s

/-- R168. Bitwise xor. -/
def execSxor (d a b : BitVec 5) (cb : BitVec 1) (s : State) : Out :=
  scalarOp (.sxor d a b cb) d (fun c => c.s a ^^^ c.s b) s

/-- R168. a * 2^b[5:0]. -/
def execSshl (d a b : BitVec 5) (cb : BitVec 1) (s : State) : Out :=
  scalarOp (.sshl d a b cb) d (fun c => shl64 (c.s a) (slice (c.s b) 5 0)) s

/-- R168. Logical shift right by b[5:0]. -/
def execSshr (d a b : BitVec 5) (cb : BitVec 1) (s : State) : Out :=
  scalarOp (.sshr d a b cb) d (fun c => shr64 (c.s a) (slice (c.s b) 5 0)) s

/-- R168. Arithmetic shift right by b[5:0]. -/
def execSsra (d a b : BitVec 5) (cb : BitVec 1) (s : State) : Out :=
  scalarOp (.ssra d a b cb) d (fun c => sra64 (c.s a) (slice (c.s b) 5 0)) s

/-- R168. The low 64 bits of a * b. -/
def execSmul (d a b : BitVec 5) (cb : BitVec 1) (s : State) : Out :=
  scalarOp (.smul d a b cb) d (fun c => c.s a * c.s b) s

/-- R168. The high 64 bits of the signed product. -/
def execSmulh (d a b : BitVec 5) (cb : BitVec 1) (s : State) : Out :=
  scalarOp (.smulh d a b cb) d (fun c => ofInt 64 ((c.s a).toInt * (c.s b).toInt / 2 ^ 64)) s

/-- R168. The high 64 bits of the unsigned product. -/
def execSmulhn (d a b : BitVec 5) (cb : BitVec 1) (s : State) : Out :=
  scalarOp (.smulhn d a b cb) d (fun c => BitVec.ofNat 64 ((c.s a).toNat * (c.s b).toNat / 2 ^ 64)) s

/-- R169. Signed quotient. -/
def execSdiv (d a b : BitVec 5) (cb : BitVec 1) (s : State) : Out :=
  scalarOp (.sdiv d a b cb) d (fun c => sdiv64 (c.s a) (c.s b)) s

/-- R169. Unsigned quotient. -/
def execSdivn (d a b : BitVec 5) (cb : BitVec 1) (s : State) : Out :=
  scalarOp (.sdivn d a b cb) d (fun c => sdivn64 (c.s a) (c.s b)) s

/-- R169. Signed remainder. -/
def execSrem (d a b : BitVec 5) (cb : BitVec 1) (s : State) : Out :=
  scalarOp (.srem d a b cb) d (fun c => srem64 (c.s a) (c.s b)) s

/-- R169. Unsigned remainder. -/
def execSremn (d a b : BitVec 5) (cb : BitVec 1) (s : State) : Out :=
  scalarOp (.sremn d a b cb) d (fun c => sremn64 (c.s a) (c.s b)) s

/-- R168. Signed minimum. -/
def execSmin (d a b : BitVec 5) (cb : BitVec 1) (s : State) : Out :=
  scalarOp (.smin d a b cb) d (fun c => if (c.s a).toInt ≤ (c.s b).toInt then c.s a else c.s b) s

/-- R168. Signed maximum. -/
def execSmax (d a b : BitVec 5) (cb : BitVec 1) (s : State) : Out :=
  scalarOp (.smax d a b cb) d (fun c => if (c.s a).toInt ≤ (c.s b).toInt then c.s b else c.s a) s

/-- R168. Unsigned minimum. -/
def execSminn (d a b : BitVec 5) (cb : BitVec 1) (s : State) : Out :=
  scalarOp (.sminn d a b cb) d (fun c => if (c.s a).toNat ≤ (c.s b).toNat then c.s a else c.s b) s

/-- R168. Unsigned maximum. -/
def execSmaxn (d a b : BitVec 5) (cb : BitVec 1) (s : State) : Out :=
  scalarOp (.smaxn d a b cb) d (fun c => if (c.s a).toNat ≤ (c.s b).toNat then c.s b else c.s a) s

/-- R168. 1 where the condition holds, else 0. -/
def execScmp (o : BitVec 3) (d a b : BitVec 5) (cb : BitVec 1) (s : State) : Out :=
  scalarOp (.scmp o d a b cb) d
    (fun c => if compare6 o (c.s a).toInt (c.s b).toInt (c.s a).toNat (c.s b).toNat then 1 else 0) s

/-- R168. Leading zeros. -/
def execSclz (d a : BitVec 5) (cb : BitVec 1) (s : State) : Out :=
  scalarOp (.sclz d a cb) d (fun c => BitVec.ofNat 64 (clzN (c.s a).toNat 64)) s

/-- R168. Trailing zeros. -/
def execSctz (d a : BitVec 5) (cb : BitVec 1) (s : State) : Out :=
  scalarOp (.sctz d a cb) d (fun c => BitVec.ofNat 64 (ctzN (c.s a).toNat 64)) s

/-- R168. Number of set bits. -/
def execSpopc (d a : BitVec 5) (cb : BitVec 1) (s : State) : Out :=
  scalarOp (.spopc d a cb) d (fun c => BitVec.ofNat 64 (popcount (c.s a))) s

/-- R170. a + i. -/
def execSaddi (d a : BitVec 5) (i : BitVec 14) (cb : BitVec 1) (s : State) : Out :=
  scalarOp (.saddi d a i cb) d (fun c => c.s a + ofInt 64 (immS i c.hints)) s

/-- R170. a and i. -/
def execSandi (d a : BitVec 5) (i : BitVec 14) (cb : BitVec 1) (s : State) : Out :=
  scalarOp (.sandi d a i cb) d (fun c => c.s a &&& ofInt 64 (immS i c.hints)) s

/-- R170. a or i. -/
def execSori (d a : BitVec 5) (i : BitVec 14) (cb : BitVec 1) (s : State) : Out :=
  scalarOp (.sori d a i cb) d (fun c => c.s a ||| ofInt 64 (immS i c.hints)) s

/-- R170. a xor i. -/
def execSxori (d a : BitVec 5) (i : BitVec 14) (cb : BitVec 1) (s : State) : Out :=
  scalarOp (.sxori d a i cb) d (fun c => c.s a ^^^ ofInt 64 (immS i c.hints)) s

/-- R171. Shift left by a constant. -/
def execSshli (d a : BitVec 5) (n : BitVec 6) (cb : BitVec 1) (s : State) : Out :=
  scalarOp (.sshli d a n cb) d (fun c => shl64 (c.s a) n.toNat) s

/-- R171. Logical shift right by a constant. -/
def execSshri (d a : BitVec 5) (n : BitVec 6) (cb : BitVec 1) (s : State) : Out :=
  scalarOp (.sshri d a n cb) d (fun c => shr64 (c.s a) n.toNat) s

/-- R171. Arithmetic shift right by a constant. -/
def execSsrai (d a : BitVec 5) (n : BitVec 6) (cb : BitVec 1) (s : State) : Out :=
  scalarOp (.ssrai d a n cb) d (fun c => sra64 (c.s a) n.toNat) s

/-- R31. `hint.imm`: the payload extends the target's immediate. -/
def execHintImm (p : BitVec 22) (s : State) : Out := takeHint (.hintImm p) (.imm p) s
/-- R32. `hint.vc`: a third source, segment registers or a rounding override. -/
def execHintVc (f : BitVec 1) (v r g : BitVec 6) (n : BitVec 3) (s : State) : Out := takeHint (.hintVc f v r g n) (.vc f v r g n) s
/-- R33. `hint.ord`: an ordering for an atomic. -/
def execHintOrd (o : BitVec 2) (s : State) : Out := takeHint (.hintOrd o) (.ord o) s
/-- R34. `hint.sched`. -/
def execHintSched (w : BitVec 1) (s : State) : Out := takeHint (.hintSched w) (.sched w) s
/-- R35. `hint.off`: an offset for each lane address. -/
def execHintOff (o : BitVec 22) (s : State) : Out := takeHint (.hintOff o) (.off o) s

end Sys2Proof.Machine
end

