-- ==== Sys2Proof/Machine/Vector.lean ====
section
/-! DEFINITION. Integer vector instructions, compares, lane moves, rearranging and residue words (R174 to R189). -/

namespace Sys2Proof.Machine

/-- A vector instruction (R174): in every lane that takes part the destination receives a word; every source is read first. -/
def vectorOp (i : Instr) (k : BitVec 3) (d : BitVec 6) (f : Ctx → Nat → Word) (s : State) : Out :=
  perform i (fun c t => .vec t d ((c.lanes k).map fun l => (l, f c l))) s

/-- A vector instruction that also sets flags (R157, R174). -/
def vectorFlagOp (i : Instr) (k : BitVec 3) (d : BitVec 6) (f : Ctx → Nat → Word × Nat) (s : State) : Out :=
  perform i (fun c t =>
    let rs := (c.lanes k).map fun l => (l, f c l)
    .vec (c.setFlags t (orFlags (rs.map fun r => r.2.2))) d (rs.map fun r => (r.1, r.2.1))) s

/-- Writes a mask register from a condition in every lane that takes part (R176). -/
def Ctx.setMask (c : Ctx) (t : State) (k kd : BitVec 3) (f : Nat → Bool) : State :=
  c.modG t fun g => g.setK c.w kd.toNat (c.active &&& c.k k) (maskOf ((c.lanes k).filter f))

/-- An instruction that writes a mask register (R176). -/
def maskOp (i : Instr) (k kd : BitVec 3) (f : Ctx → Nat → Bool) (s : State) : Out :=
  perform i (fun c t => .next (c.setMask t k kd (f c))) s

/-- Sub-element width of the codes .i8, .i16, .i32, .i64 in ascending order. -/
def width4 (t : Nat) : Nat := 2 ^ (3 + t)

/-- A word of b-bit results of two sources, sub-element by sub-element. -/
def map2 (b : Nat) (x y : Word) (f : Nat → Nat → Nat) : Word := mapElems b fun j => f (elem x j b) (elem y j b)
/-- The same for one source. -/
def map1 (b : Nat) (x : Word) (f : Nat → Nat) : Word := mapElems b fun j => f (elem x j b)

/-- A wrapping operation on integers of b bits. -/
def wrap2 (b : Nat) (x y : Word) (f : Int → Int → Int) : Word := map2 b x y fun m n => modPow (f m n) b

/-- A saturating operation (R178): types .i8, .i16, .n8, .n16. -/
def sat2 (t : Nat) (x y : Word) (f : Int → Int → Int) : Word :=
  let b := if t % 2 = 0 then 8 else 16
  if t < 2 then map2 b x y fun m n => modPow (clamp (f (sext m b) (sext n b)) (-(2 ^ (b - 1))) (2 ^ (b - 1) - 1)) b
  else map2 b x y fun m n => modPow (clamp (f m n) 0 (2 ^ b - 1)) b

/-- R178. (x + y) mod 2^b. -/
def execVadd (k : BitVec 3) (d a b : BitVec 6) (t : BitVec 2) (cb : BitVec 1) (s : State) : Out :=
  vectorOp (.vadd k d a b t cb) k d (fun c l => wrap2 (width4 t.toNat) (c.v a l) (c.v b l) (· + ·)) s
/-- R178. The sum clamped to the type. -/
def execVaddSat (k : BitVec 3) (d a b : BitVec 6) (t : BitVec 2) (cb : BitVec 1) (s : State) : Out :=
  vectorOp (.vaddSat k d a b t cb) k d (fun c l => sat2 t.toNat (c.v a l) (c.v b l) (· + ·)) s
/-- R178. (x - y) mod 2^b. -/
def execVsub (k : BitVec 3) (d a b : BitVec 6) (t : BitVec 2) (cb : BitVec 1) (s : State) : Out :=
  vectorOp (.vsub k d a b t cb) k d (fun c l => wrap2 (width4 t.toNat) (c.v a l) (c.v b l) (· - ·)) s
/-- R178. The difference clamped to the type. -/
def execVsubSat (k : BitVec 3) (d a b : BitVec 6) (t : BitVec 2) (cb : BitVec 1) (s : State) : Out :=
  vectorOp (.vsubSat k d a b t cb) k d (fun c l => sat2 t.toNat (c.v a l) (c.v b l) (· - ·)) s
/-- R178. (x * y) mod 2^b. -/
def execVmul (k : BitVec 3) (d a b : BitVec 6) (t : BitVec 2) (cb : BitVec 1) (s : State) : Out :=
  vectorOp (.vmul k d a b t cb) k d (fun c l => wrap2 (width4 t.toNat) (c.v a l) (c.v b l) (· * ·)) s

/-- The high half of a product, signed for types 0 to 3, else unsigned (R178). -/
def mulHigh (t : Nat) (x y : Word) : Word :=
  let b := width4 (t % 4)
  if t < 4 then map2 b x y fun m n => modPow (sext m b * sext n b / 2 ^ b) b else map2 b x y fun m n => m * n / 2 ^ b

/-- R178. The high b bits of the product. -/
def execVmulh (k : BitVec 3) (d a b : BitVec 6) (t : BitVec 3) (cb : BitVec 1) (s : State) : Out :=
  vectorOp (.vmulh k d a b t cb) k d (fun c l => mulHigh t.toNat (c.v a l) (c.v b l)) s

/-- The smaller or larger sub-element (R178): types .i16, .n16, .i32, .n32. -/
def minmax (t : Nat) (mx : Bool) (x y : Word) : Word :=
  let b := if t < 2 then 16 else 32
  map2 b x y fun m n =>
    let le := if t % 2 = 0 then decide (sext m b ≤ sext n b) else decide (m ≤ n)
    if le == mx then n else m

/-- R178. Minimum. -/
def execVmin (k : BitVec 3) (d a b : BitVec 6) (t : BitVec 2) (cb : BitVec 1) (s : State) : Out :=
  vectorOp (.vmin k d a b t cb) k d (fun c l => minmax t.toNat false (c.v a l) (c.v b l)) s
/-- R178. Maximum. -/
def execVmax (k : BitVec 3) (d a b : BitVec 6) (t : BitVec 2) (cb : BitVec 1) (s : State) : Out :=
  vectorOp (.vmax k d a b t cb) k d (fun c l => minmax t.toNat true (c.v a l) (c.v b l)) s

/-- R179. Bitwise and. -/
def execVand (k : BitVec 3) (d a b : BitVec 6) (cb : BitVec 1) (s : State) : Out :=
  vectorOp (.vand k d a b cb) k d (fun c l => c.v a l &&& c.v b l) s
/-- R179. Bitwise or. -/
def execVor (k : BitVec 3) (d a b : BitVec 6) (cb : BitVec 1) (s : State) : Out :=
  vectorOp (.vor k d a b cb) k d (fun c l => c.v a l ||| c.v b l) s
/-- R179. Bitwise xor. -/
def execVxor (k : BitVec 3) (d a b : BitVec 6) (cb : BitVec 1) (s : State) : Out :=
  vectorOp (.vxor k d a b cb) k d (fun c l => c.v a l ^^^ c.v b l) s
/-- R179. va and not vb. -/
def execVandn (k : BitVec 3) (d a b : BitVec 6) (cb : BitVec 1) (s : State) : Out :=
  vectorOp (.vandn k d a b cb) k d (fun c l => c.v a l &&& ~~~(c.v b l)) s
/-- R179. Copies a register. -/
def execVmov (k : BitVec 3) (d a : BitVec 6) (cb : BitVec 1) (s : State) : Out :=
  vectorOp (.vmov k d a cb) k d (fun c l => c.v a l) s

/-- Shifts of a sub-element of b bits (R180): 0 left, 1 right logical, 2 right arithmetic. -/
def shiftElem (kind b n x : Nat) : Nat :=
  match kind with
  | 0 => x * 2 ^ n % 2 ^ b
  | 1 => x / 2 ^ n
  | _ => modPow (sext x b / 2 ^ n) b

/-- A register shift (R180): type 0 is .i32, 1 is .i64; the amount is taken modulo b. -/
def shiftReg (kind : Nat) (t : BitVec 1) (x y : Word) : Word :=
  let b := if t = 0 then 32 else 64
  map2 b x y fun m n => shiftElem kind b (n % b) m

/-- R180. Shift left. -/
def execVshl (k : BitVec 3) (d a b : BitVec 6) (t cb : BitVec 1) (s : State) : Out :=
  vectorOp (.vshl k d a b t cb) k d (fun c l => shiftReg 0 t (c.v a l) (c.v b l)) s
/-- R180. Logical shift right. -/
def execVshr (k : BitVec 3) (d a b : BitVec 6) (t cb : BitVec 1) (s : State) : Out :=
  vectorOp (.vshr k d a b t cb) k d (fun c l => shiftReg 1 t (c.v a l) (c.v b l)) s
/-- R180. Arithmetic shift right. -/
def execVsra (k : BitVec 3) (d a b : BitVec 6) (t cb : BitVec 1) (s : State) : Out :=
  vectorOp (.vsra k d a b t cb) k d (fun c l => shiftReg 2 t (c.v a l) (c.v b l)) s

/-- The sub-element width and the amount of a `vshi` immediate (R181). -/
def vshiSize (n : Nat) : Nat × Nat :=
  if n ≥ 64 then (64, n % 64) else if n ≥ 32 then (32, n % 32) else if n ≥ 16 then (16, n % 16) else (8, n % 8)

/-- A shift by a constant (R181). -/
def shiftConst (kind : Nat) (n : BitVec 7) (x : Word) : Word :=
  let p := vshiSize n.toNat
  map1 p.1 x fun m => shiftElem kind p.1 p.2 m

/-- R181. Shift left by a constant. -/
def execVshiL (k : BitVec 3) (d a : BitVec 6) (n : BitVec 7) (cb : BitVec 1) (s : State) : Out :=
  vectorOp (.vshiL k d a n cb) k d (fun c l => shiftConst 0 n (c.v a l)) s
/-- R181. Logical shift right by a constant. -/
def execVshiR (k : BitVec 3) (d a : BitVec 6) (n : BitVec 7) (cb : BitVec 1) (s : State) : Out :=
  vectorOp (.vshiR k d a n cb) k d (fun c l => shiftConst 1 n (c.v a l)) s
/-- R181. Arithmetic shift right by a constant. -/
def execVshiRa (k : BitVec 3) (d a : BitVec 6) (n : BitVec 7) (cb : BitVec 1) (s : State) : Out :=
  vectorOp (.vshiRa k d a n cb) k d (fun c l => shiftConst 2 n (c.v a l)) s

/-- R182. i mod 2^b in every sub-element. -/
def execVmovi (k : BitVec 3) (d : BitVec 6) (t : BitVec 2) (i : BitVec 9) (cb : BitVec 1) (s : State) : Out :=
  vectorOp (.vmovi k d t i cb) k d (fun c _ => mapElems (width4 t.toNat) fun _ => modPow (immS i c.hints) (width4 t.toNat)) s
/-- R183. Adds floor(imm / 2); bit 0 of the immediate is the type, 0 .i64 and 1 .i32. -/
def execVaddi (k : BitVec 3) (d a : BitVec 6) (i : BitVec 9) (cb : BitVec 1) (s : State) : Out :=
  vectorOp (.vaddi k d a i cb) k d (fun c l =>
    let b := if i.toNat % 2 = 0 then 64 else 32
    map1 b (c.v a l) fun m => modPow (m + immS i c.hints / 2) b) s

/-- R184. Compares the 32-bit sub-elements 0. -/
def execVcmp (k kd : BitVec 3) (a b : BitVec 6) (o : BitVec 3) (cb : BitVec 1) (s : State) : Out :=
  maskOp (.vcmp k kd a b o cb) k kd (fun c l =>
    let m := elem (c.v a l) 0 32
    let n := elem (c.v b l) 0 32
    compare6 o (sext m 32) (sext n 32) m n) s
/-- R184. Compares the 64-bit words. -/
def execVcmp64 (k kd : BitVec 3) (a b : BitVec 6) (o : BitVec 3) (cb : BitVec 1) (s : State) : Out :=
  maskOp (.vcmp64 k kd a b o cb) k kd (fun c l =>
    compare6 o (c.v a l).toInt (c.v b l).toInt (c.v a l).toNat (c.v b l).toNat) s

/-- R185. Selects by the mask in every active lane. -/
def execVsel (q : BitVec 3) (d a b : BitVec 6) (cb : BitVec 1) (s : State) : Out :=
  vectorOp (.vsel q d a b cb) 0 d (fun c l => if bit (c.k q) l then c.v a l else c.v b l) s
/-- R185. Broadcasts S(sa) mod 2^b; codes 0 .i64, 1 .i32, 2 .i16, 3 .i8. -/
def execVbcast (k : BitVec 3) (d : BitVec 6) (a : BitVec 5) (t : BitVec 2) (cb : BitVec 1) (s : State) : Out :=
  vectorOp (.vbcast k d a t cb) k d (fun c _ => mapElems (width4 (3 - t.toNat)) fun _ => (c.s a).toNat) s
/-- R185. The lane's number. -/
def execVlane (k : BitVec 3) (d : BitVec 6) (cb : BitVec 1) (s : State) : Out :=
  vectorOp (.vlane k d cb) k d (fun _ l => BitVec.ofNat 64 l) s
/-- R185. One lane's word, or 0 where the lane is outside the fragment's slices. A lane of a slice that the fragment shares with one that
waits at a join gives its word (DESIGN CHOICE, assumption 103). -/
def execVsget (d : BitVec 5) (a : BitVec 6) (b : BitVec 5) (cb : BitVec 1) (s : State) : Out :=
  scalarOp (.vsget d a b cb) d (fun c =>
    let m := (c.s b).toNat % c.w
    if bit (wholeSlices c.active) m then c.v a m else 0) s
/-- R185. Writes one lane's word, where the lane takes part. -/
def execVsput (k : BitVec 3) (d : BitVec 6) (a b : BitVec 5) (cb : BitVec 1) (s : State) : Out :=
  perform (.vsput k d a b cb) (fun c t =>
    let m := (c.s b).toNat % c.w
    .vec t d (if (c.lanes k).contains m then [(m, c.s a)] else [])) s

/-- `vzip` (R186). -/
def zip (b : Nat) (x y : Word) : Word := mapElems b fun j => if j % 2 = 0 then elem x (j / 2) b else elem y (j / 2) b
/-- `vunzip` (R186). -/
def unzip (b : Nat) (x y : Word) : Word :=
  let h := 32 / b
  mapElems b fun j => if j < h then elem x (2 * j) b else elem y (2 * (j - h)) b

/-- R186. Interleaves the low halves by bytes. -/
def execVzipI8 (k : BitVec 3) (d a b : BitVec 6) (cb : BitVec 1) (s : State) : Out :=
  vectorOp (.vzipI8 k d a b cb) k d (fun c l => zip 8 (c.v a l) (c.v b l)) s
/-- R186. Interleaves the low halves by 16-bit elements. -/
def execVzipI16 (k : BitVec 3) (d a b : BitVec 6) (cb : BitVec 1) (s : State) : Out :=
  vectorOp (.vzipI16 k d a b cb) k d (fun c l => zip 16 (c.v a l) (c.v b l)) s
/-- R186. Interleaves the low halves by 32-bit elements. -/
def execVzipI32 (k : BitVec 3) (d a b : BitVec 6) (cb : BitVec 1) (s : State) : Out :=
  vectorOp (.vzipI32 k d a b cb) k d (fun c l => zip 32 (c.v a l) (c.v b l)) s
/-- R186. Gathers the even bytes. -/
def execVunzipI8 (k : BitVec 3) (d a b : BitVec 6) (cb : BitVec 1) (s : State) : Out :=
  vectorOp (.vunzipI8 k d a b cb) k d (fun c l => unzip 8 (c.v a l) (c.v b l)) s
/-- R186. Gathers the even 16-bit elements. -/
def execVunzipI16 (k : BitVec 3) (d a b : BitVec 6) (cb : BitVec 1) (s : State) : Out :=
  vectorOp (.vunzipI16 k d a b cb) k d (fun c l => unzip 16 (c.v a l) (c.v b l)) s
/-- R186. Gathers the even 32-bit elements. -/
def execVunzipI32 (k : BitVec 3) (d a b : BitVec 6) (cb : BitVec 1) (s : State) : Out :=
  vectorOp (.vunzipI32 k d a b cb) k d (fun c l => unzip 32 (c.v a l) (c.v b l)) s

/-- `vwiden` by its code (R187): bits 1:0 the source size, bit 2 SG, bit 3 HI. -/
def widen (w : Nat) (x : Word) : Word :=
  let b := width4 (w % 4)
  let n := 32 / b
  mapElems (2 * b) fun j =>
    let e := elem x (j + (if w / 8 % 2 = 1 then n else 0)) b
    if w / 4 % 2 = 1 then modPow (sext e b) (2 * b) else e

/-- `vnarrow` by its code (R187): bits 1:0 the destination size, 3:2 the mode, bit 4 HI, which keeps the low half of the old
destination. -/
def vnarrowWord (w : Nat) (x old : Word) : Word :=
  let b := width4 (w % 4)
  let n := 32 / b
  let y (i : Nat) : Nat :=
    let e := elem x i (2 * b)
    match w / 4 % 4 with
    | 0 => e % 2 ^ b
    | 1 => modPow (clamp (sext e (2 * b)) (-(2 ^ (b - 1))) (2 ^ (b - 1) - 1)) b
    | 2 => modPow (clamp e 0 (2 ^ b - 1)) b
    | _ => modPow (clamp (sext e (2 * b)) 0 (2 ^ b - 1)) b
  let half := packNat b ((List.range n).map y)
  if w / 16 % 2 = 1 then BitVec.ofNat 64 (half * 2 ^ 32 + old.toNat % 2 ^ 32) else BitVec.ofNat 64 half

/-- R187. Extends half of the sub-elements to double width. -/
def execVwiden (k : BitVec 3) (d a : BitVec 6) (w : BitVec 4) (cb : BitVec 1) (s : State) : Out :=
  vectorOp (.vwiden k d a w cb) k d (fun c l => widen w.toNat (c.v a l)) s
/-- R187. Truncates or clamps to half width. -/
def execVnarrow (k : BitVec 3) (d a : BitVec 6) (w : BitVec 5) (cb : BitVec 1) (s : State) : Out :=
  vectorOp (.vnarrow k d a w cb) k d (fun c l => vnarrowWord w.toNat (c.v a l) (c.v d l)) s

/-- R188. Leading zeros of each sub-element. -/
def execVclz (k : BitVec 3) (d a : BitVec 6) (t : BitVec 2) (cb : BitVec 1) (s : State) : Out :=
  vectorOp (.vclz k d a t cb) k d (fun c l => map1 (width4 t.toNat) (c.v a l) fun m => clzN m (width4 t.toNat)) s
/-- R188. Set bits of each sub-element. -/
def execVpopc (k : BitVec 3) (d a : BitVec 6) (t : BitVec 2) (cb : BitVec 1) (s : State) : Out :=
  vectorOp (.vpopc k d a t cb) k d (fun c l => map1 (width4 t.toNat) (c.v a l) fun m => popcountN m (width4 t.toNat)) s
/-- R188. Each sub-element's bits in reverse order. -/
def execVbrev (k : BitVec 3) (d a : BitVec 6) (t : BitVec 2) (cb : BitVec 1) (s : State) : Out :=
  vectorOp (.vbrev k d a t cb) k d (fun c l => map1 (width4 t.toNat) (c.v a l) fun m => revBits m (width4 t.toNat)) s

/-- `rnenc` (R165): the word, and RNRANGE where the integer is outside the exact range. -/
def rnenc (x : Int) : FRes := (rnOf x, if inRange x then 0 else fRNRANGE)

/-- R189. Encodes 32-bit integers as RN25 words. -/
def execVrnenc (k : BitVec 3) (d a : BitVec 6) (cb : BitVec 1) (s : State) : Out :=
  vectorFlagOp (.vrnenc k d a cb) k d (fun c l => mapFlags 32 fun j => rnenc (sext (elem (c.v a l) j 32) 32)) s
/-- R189. Decodes RN25 words to 32-bit integers. -/
def execVrndec (k : BitVec 3) (d a : BitVec 6) (cb : BitVec 1) (s : State) : Out :=
  vectorFlagOp (.vrndec k d a cb) k d (fun c l => mapFlags 32 fun j =>
    let w := elem (c.v a l) j 32
    (modPow (rndec w) 32, if rnOk w then 0 else fRNRANGE)) s

end Sys2Proof.Machine
end

