-- ==== Sys2Proof/Machine/Global.lean ====
section
/-! DEFINITION. Global memory (R172, R173, R234 to R248): loads, stores, staged stores with their digest terms, atomics and
reductions at the home slice, and prefetch. -/

namespace Sys2Proof.Machine

/-! ### Staging areas -/

/-- Stages bytes: later stores to the same bytes replace them (R238). -/
def Staging.put (g : Staging) (va : Nat) (bs : List Byte) : Staging :=
  { g with
    addrs := (List.range bs.length).foldl (fun l i => insertNat (va + i) l) g.addrs
    bytes := Memory.store g.bytes va bs
    writes := g.writes ++ ((List.range bs.length).zip bs).map fun p => .byte (va + p.1) p.2 }

/-- A staged reduction. -/
def StagedWrite.isRed : StagedWrite → Bool
  | .red _ _ => true
  | .byte _ _ => false

/-- What a staging area takes (R238, assumption 20): its staged bytes, and four bytes for each staged reduction. -/
def Staging.size (g : Staging) : Nat := g.addrs.length + 4 * g.writes.countP StagedWrite.isRed

/-- The room of a staging area, 4 MiB (R238). -/
abbrev stagingRoom : Nat := 4194304

/-- One term of a digest (R362). -/
def digestTerm (a m x : Nat) : Word :=
  BitVec.ofNat 64 (0x5851F42D4C957F2D + 0x14057B7EF767814F * (a % 2 ^ 32) + 0xD1B54A32D192ED03 * (a / 2 ^ 32)
    + 0x8CB92BA72F3D8DD7 * m + 0x2545F4914F6CDD1D * (x % 2 ^ 32) + 0xA0761D6478BD642F * (x / 2 ^ 32))

/-- A staged store lane: its bytes and its digest term, with the mask that the rule gives. -/
def Staging.store (g : Staging) (va m : Nat) (bs : List Byte) : Staging :=
  { g.put va bs with digest := g.digest + digestTerm va m (ofBytes bs) }

/-! ### Addresses and their checks -/

/-- The address of a lane (R234): lane mode where `vo` is none. -/
def Ctx.ad (c : Ctx) (b : BitVec 5) (vo : Option (BitVec 6)) (sz l : Nat) : Nat :=
  let step : Word := match vo with
    | some v => c.v v l
    | none => BitVec.ofNat 64 (sz * l)
  (c.s b + step + ofInt 64 (hintOffset c.hints)).toNat

/-- The offset register of a format-M access: 63 selects lane mode (R234). -/
def fmtMvo (o : BitVec 6) : Option (BitVec 6) := if o = 63 then none else some o

/-- The least of the addresses that meet a condition. -/
def lowestSuch (f : Nat → Bool) (l : List Nat) : Option Nat :=
  l.foldl (fun (m : Option Nat) a => if f a then some (match m with | some x => min x a | none => a) else m) none

/-- Orders 5 to 7 of R235, and the error responses of R376, over accesses of one size. -/
def Ctx.reach (c : Ctx) (t : State) (kind sz : Nat) (as : List Nat) : Except Res (State × List Xlat) :=
  match lowestSuch (fun a => decide (a % sz ≠ 0)) as with
  | some a => .error (.trap (.mk' cALIGN a))
  | none =>
    match lowestSuch (fun a => !(canonical a)) as with
    | some a => .error (.trap (.mk' cPAGE a))
    | none =>
      let accs := as.map fun a => (⟨a, sz, 0⟩ : Acc3)
      match t.translate c.core c.vf kind c.priv accs with
      | .error l => .error (.pages kind l (failInfo l accs))
      | .ok xs =>
        match if kind = kStore then none else lowestSuch (fun a => t.absent ((findXlat xs a).pa a)) as with
        | some a => .error (.bus (c.uncount (t.useXlats c.core c.vf kind xs)) a)
        | none => .ok (t.useXlats c.core c.vf kind xs, xs)

/-- Performs one access of a load: the bytes of memory, or the team's own staged bytes. -/
def Ctx.loadOne (c : Ctx) (t : State) (xs : List Xlat) (va n : Nat) : State × List Byte :=
  let x := findXlat xs va
  let (t, bs) := t.coreLoad c.core c.vf (x.pa va) n x.leaf
  (t, if c.team.staged then c.team.staging.overlay va bs else bs)

/-- Performs one access of a store that is not staged: dropped and logged where no package answers (R376), counted until its
acknowledgement under class T (R267). -/
def Ctx.storeOne (c : Ctx) (t : State) (xs : List Xlat) (va : Nat) (bs : List Byte) : State :=
  let x := findXlat xs va
  if t.absent (x.pa va) then t.event 1 c.die c.vf 0 13 va 0
  else
    let t := t.coreStore c.core c.vf (x.pa va) x.leaf bs
    if pteWp x.leaf then c.modG t fun g => { g with unacked := g.unacked + 1 } else t

/-- Performs the lanes of a load in order: lane, address and size. -/
def Ctx.loadAll (c : Ctx) (t : State) (xs : List Xlat) (n : Nat) (as : List (Nat × Nat)) : State × List (Nat × Nat) :=
  as.foldl (fun (r : State × List (Nat × Nat)) p =>
    let (t, bs) := c.loadOne r.1 xs p.2 n
    (t, r.2 ++ [(p.1, ofBytes bs)])) (t, [])

/-- A store of the gang: address, digest mask and bytes of each access, in order. Staged teams keep it apart. -/
def Ctx.storeAll (c : Ctx) (t : State) (xs : List Xlat) (ws : List (Nat × Nat × List Byte)) : Except FaultInfo State :=
  if c.team.staged then
    let g := ws.foldl (fun (g : Staging) w => g.store w.1 w.2.1 w.2.2) c.team.staging
    if stagingRoom < g.size then .error (.mk' cSTAGEFULL ((lowestSuch (fun _ => true) (ws.map Prod.fst)).getD 0))
    else .ok (t.modTeam c.ref.team fun x => { x with staging := g })
  else .ok (ws.foldl (fun t w => c.storeOne t xs w.1 w.2.2) t)

/-- Later stores, atomics, copies and structural operations wait for a pending release (R271). -/
def Ctx.ordered (c : Ctx) (s : State) (r : Res) : Res := if c.gang.releases.isEmpty then r else .wait s .release

/-! ### Scalar accesses -/

/-- The address of a scalar access (R172). -/
def Ctx.scalarAd (c : Ctx) (a : BitVec 5) (i : BitVec 14) : Nat := (c.s a + ofInt 64 (immS i c.hints)).toNat

/-- A scalar load of 8 bytes (R172, R173). -/
def scalarLoad (i : Instr) (a : BitVec 5) (im : BitVec 14) (f : Ctx → State → Word → State) (s : State) : Out :=
  perform i (fun c t =>
    let ad := c.scalarAd a im
    match c.reach t kLoad 8 [ad] with
    | .error r => r
    | .ok (t, xs) =>
      let (t, bs) := c.loadOne t xs ad 8
      .next (f c t (BitVec.ofNat 64 (ofBytes bs)))) s

/-- R172. -/
def execSld (d a : BitVec 5) (i : BitVec 14) (cb : BitVec 1) (s : State) : Out :=
  scalarLoad (.sld d a i cb) a i (fun c t v => c.setS t d v) s

/-- R173. -/
def execSldk (k : BitVec 3) (a : BitVec 5) (i : BitVec 14) (cb : BitVec 1) (s : State) : Out :=
  scalarLoad (.sldk k a i cb) a i (fun c t v => c.modG t fun g => g.setK c.w k.toNat c.active v) s

/-- R172. The sd field names the data register. -/
def execSst (d a : BitVec 5) (i : BitVec 14) (cb : BitVec 1) (s : State) : Out :=
  perform (.sst d a i cb) (fun c t =>
    let ad := c.scalarAd a i
    match c.reach t kStore 8 [ad] with
    | .error r => r
    | .ok (t, xs) =>
      match c.storeAll t xs [(ad, 255, toBytes (c.s d).toNat 8)] with
      | .error fi => .late (c.uncount t) fi
      | .ok t => c.ordered s (.next t)) s

/-! ### Vector loads and stores -/

/-- The lane word of a loaded value (R236): odd codes sign-extend. -/
def gldWord (f x : Nat) : Word := if f % 2 = 1 then ofInt 64 (sext x (8 * 2 ^ (f / 2))) else BitVec.ofNat 64 x

/-- R236. -/
def execGld (k : BitVec 3) (vt : BitVec 6) (b : BitVec 5) (o : BitVec 6) (f : BitVec 4) (cb : BitVec 1) (s : State) : Out :=
  perform (.gld k vt b o f cb) (fun c t =>
    let sz := 2 ^ (f.toNat / 2)
    let as := (c.lanes k).map fun l => (l, c.ad b (fmtMvo o) sz l)
    match c.reach t kLoad sz (as.map Prod.snd) with
    | .error r => r
    | .ok (t, xs) =>
      let (t, vs) := c.loadAll t xs sz as
      .vec t vt (vs.map fun v => (v.1, gldWord f.toNat v.2))) s

/-- R237, without a slot. -/
def execGst (k : BitVec 3) (vt : BitVec 6) (b : BitVec 5) (o : BitVec 6) (z : BitVec 2) (cb : BitVec 1) (s : State) : Out :=
  perform (.gst k vt b o z cb) (fun c t =>
    let sz := 2 ^ z.toNat
    let as := (c.lanes k).map fun l => (l, c.ad b (fmtMvo o) sz l)
    match c.reach t kStore sz (as.map Prod.snd) with
    | .error r => r
    | .ok (t, xs) =>
      match c.storeAll t xs (as.map fun p => (p.2, 2 ^ sz - 1, toBytes (c.v vt p.1).toNat sz)) with
      | .error fi => .late (c.uncount t) fi
      | .ok t => c.ordered s (.next t)) s

/-- A format slot of the team (R147, R151). -/
def Team.slot (t : Team) (n : Nat) : Word := (t.slots[n]?).getD 0

/-- Both f32 sub-elements of a lane word through a slot (R237): the bytes, and whether NVSTORE is set. -/
def narrowPair (x slot : Word) : List Byte × Bool :=
  let es := storeSize (slotFmt slot)
  let lo := narrow (elem x 0 32) slot
  let hi := narrow (elem x 1 32) slot
  (toBytes lo.1 es ++ toBytes hi.1 es, lo.2 || hi.2)

/-- R237, through a slot. -/
def execGstFs (k : BitVec 3) (vt : BitVec 6) (b : BitVec 5) (o : BitVec 6) (n : BitVec 3) (cb : BitVec 1) (s : State) : Out :=
  perform (.gstFs k vt b o n cb) (fun c t =>
    let slot := c.team.slot n.toNat
    if (storeFmt (slotFmt slot)).isNone then .trap (.mk' cPROT 5)
    else
      let sz := 2 * storeSize (slotFmt slot)
      let as := (c.lanes k).map fun l => (l, c.ad b (fmtMvo o) sz l)
      match c.reach t kStore sz (as.map Prod.snd) with
      | .error r => r
      | .ok (t, xs) =>
        let vs := as.map fun p => (p.2, narrowPair (c.v vt p.1) slot)
        match c.storeAll t xs (vs.map fun v => (v.1, 2 ^ sz - 1, v.2.1)) with
        | .error fi => .late (c.uncount t) fi
        | .ok t => c.ordered s (.next (c.setFlags t (nvstore (vs.any fun v => v.2.2))))) s

/-! ### Planar F6 -/

/-- The first element and the two plane addresses of a lane (R239). -/
def Ctx.planes (c : Ctx) (b : BitVec 5) (o : BitVec 6) (l : Nat) : Nat × Nat × Nat :=
  let e : Nat := if o = 63 then 8 * l else (c.v o l).toNat
  (e, (c.s b + BitVec.ofNat 64 (e / 2)).toNat, (c.gang.s (b.toNat + 1) + BitVec.ofNat 64 (e / 4)).toNat)

/-- The checks of R235 and R239 over both planes of every lane: element, nibble address and two-bit address. Of addresses that are not
canonical the nibble plane's come first, and the record holds the plane of the one that it names (DESIGN CHOICE, assumption 106). -/
def Ctx.reachPlanes (c : Ctx) (t : State) (b : BitVec 5) (kind : Nat) (ps : List (Nat × Nat × Nat)) :
    Except Res (State × List Xlat) :=
  let badBase : Bool := decide ((c.s b).toNat % 4 ≠ 0) || decide ((c.gang.s (b.toNat + 1)).toNat % 2 ≠ 0)
  match lowestSuch (fun _ => true) ((ps.filter fun p => badBase || decide (p.1 % 8 ≠ 0)).map fun p => p.2.1) with
  | some a => .error (.trap (.mk' cALIGN a))
  | none =>
    let nibs := ps.map fun p => p.2.1
    let tops := ps.map fun p => p.2.2
    match lowestSuch (fun a => !(canonical a)) nibs, lowestSuch (fun a => !(canonical a)) tops with
    | some a, _ => .error (.trap { cls := cPAGE, fbyte := BitVec.ofNat 64 a, plane := 1 })
    | none, some a => .error (.trap { cls := cPAGE, fbyte := BitVec.ofNat 64 a, plane := 2 })
    | none, none =>
      let accs := nibs.map (fun a => (⟨a, 4, 1⟩ : Acc3)) ++ tops.map fun a => ⟨a, 2, 2⟩
      match t.translate c.core c.vf kind c.priv accs with
      | .error l => .error (.pages kind l (failInfo l accs))
      | .ok xs =>
        match if kind = kStore then none else lowestSuch (fun a => t.absent ((findXlat xs a).pa a)) (nibs ++ tops) with
        | some a => .error (.bus (c.uncount (t.useXlats c.core c.vf kind xs)) a)
        | none => .ok (t.useXlats c.core c.vf kind xs, xs)

/-- Eight containers from a nibble word and a two-bit word (R239). -/
def joinPlanes (nib top : Nat) : Word := mapElems 8 fun j => top / 4 ^ j % 4 * 16 + nib / 16 ^ j % 16
/-- The nibble word of eight containers. -/
def nibPlane (x : Word) : Nat := packNat 4 ((List.range 8).map fun j => elem x j 8 % 16)
/-- The two-bit word of eight containers. -/
def topPlane (x : Word) : Nat := packNat 2 ((List.range 8).map fun j => elem x j 8 / 16 % 4)

/-- R239. -/
def execGldF6p (k : BitVec 3) (vt : BitVec 6) (b : BitVec 5) (o : BitVec 6) (cb : BitVec 1) (s : State) : Out :=
  perform (.gldF6p k vt b o cb) (fun c t =>
    let ps := (c.lanes k).map fun l => (l, c.planes b o l)
    match c.reachPlanes t b kLoad (ps.map Prod.snd) with
    | .error r => r
    | .ok (t, xs) =>
      let (t, ns) := c.loadAll t xs 4 (ps.map fun p => (p.1, p.2.2.1))
      let (t, ts) := c.loadAll t xs 2 (ps.map fun p => (p.1, p.2.2.2))
      .vec t vt ((ns.zip ts).map fun p => (p.1.1, joinPlanes p.1.2 p.2.2))) s

/-- R239. The lanes store one after the other, each its nibble bytes and then its two-bit bytes (DESIGN CHOICE, assumption 118). -/
def execGstF6p (k : BitVec 3) (vt : BitVec 6) (b : BitVec 5) (o : BitVec 6) (cb : BitVec 1) (s : State) : Out :=
  perform (.gstF6p k vt b o cb) (fun c t =>
    let ps := (c.lanes k).map fun l => (l, c.planes b o l)
    match c.reachPlanes t b kStore (ps.map Prod.snd) with
    | .error r => r
    | .ok (t, xs) =>
      match c.storeAll t xs (ps.flatMap fun p =>
        [(p.2.2.1, 15, toBytes (nibPlane (c.v vt p.1)) 4), (p.2.2.2, 3, toBytes (topPlane (c.v vt p.1)) 2)]) with
      | .error fi => .late (c.uncount t) fi
      | .ok t => c.ordered s (.next t)) s

/-! ### Atomics and reductions -/

/-- What an atomic stores (R243, R244) for sz bytes: operations 0 to 7 of `gatom`, 8 exchange, 9 compare and swap. -/
def atomicFn (op sz old v cmp : Nat) : Option Nat :=
  let b := 8 * sz
  let m := 2 ^ b
  let x := v % m
  match op with
  | 0 => some ((old + x) % m)
  | 1 => some (if sext old b ≤ sext x b then old else x)
  | 2 => some (if sext old b ≤ sext x b then x else old)
  | 3 => some (min old x)
  | 4 => some (max old x)
  | 5 => some (old &&& x)
  | 6 => some (old ||| x)
  | 7 => some (old ^^^ x)
  | 8 => some x
  | _ => if old = cmp % m then some x else none

/-- The binding check of R258 on a named entry, with the first faulting byte of the record: the lowest lane address of a format-A
instruction (R235). -/
def Ctx.stale (c : Ctx) (t : State) (n : BitVec 3) (fbyte : Word := 0) : Option FaultInfo :=
  match SMap.get? c.gang.bindings n.toNat with
  | none => none
  | some g =>
    let now := (t.scope c.vf c.core n.toNat).gen
    if n = 0 ∨ n = 7 ∨ g = now then none else some { cls := cSTALESCOPE, fbyte, sgen := now.toNat }

/-- The lowest address of the lanes of a format-A instruction (R235). -/
def Ctx.lowestLane (c : Ctx) (b : BitVec 5) (v : BitVec 6) (sz : Nat) : Word :=
  BitVec.ofNat 64 ((lowestSuch (fun _ => true) ((lanesOf c.active).map (c.ad b (some v) sz))).getD 0)

/-- An access to host memory whose leaf has SYSAT = 0 (R235, order 8). -/
def noSysat (xs : List Xlat) (a : Nat) : Bool := let x := findXlat xs a; isHost (x.pa a) && !(pteSysat x.leaf)

/-- The checks of orders 5 to 8 of R235 on a format-A instruction. -/
def Ctx.reachAtomic (c : Ctx) (t : State) (sz : Nat) (as : List Nat) : Except Res (State × List Xlat) :=
  match c.reach t kAtomic sz as with
  | .error (.bus t' a) => match t.translate c.core c.vf kAtomic c.priv (as.map fun a => ⟨a, sz, 0⟩) with
    | .ok xs => match lowestSuch (noSysat xs) as with
      | some h => .error (.late t' (.mk' cPROT h))
      | none => .error (.bus t' a)
    | .error _ => .error (.bus t' a)
  | .error r => .error r
  | .ok (t, xs) => match lowestSuch (noSysat xs) as with
    | some a => .error (.late (c.uncount t) (.mk' cPROT a))
    | none => .ok (t, xs)

/-- Performs atomic lanes at their home slices in ascending lane order (R240, R241): the old values by lane. -/
def Ctx.atomicAll (c : Ctx) (t : State) (xs : List Xlat) (sz : Nat) (as : List (Nat × Nat)) (f : Nat → Nat → Option Nat) :
    State × List (Nat × Nat) :=
  as.foldl (fun (r : State × List (Nat × Nat)) p =>
    let x := findXlat xs p.2
    let pa := x.pa p.2
    let t := r.1.beforeAtomic c.core c.vf pa sz
    let (t, old) := t.atomicAt c.vf pa sz x.leaf (f p.1)
    (t, r.2 ++ [(p.1, old)])) (t, [])

/-- The release that a `hint.ord` asks for (R33, R261), before the access. -/
def Ctx.ordRelease (c : Ctx) (t : State) (n : BitVec 3) : State :=
  if hintOrd c.hints ≥ 2 then t.gangRelease c.ref.team c.ref.gang c.core (t.latch c.vf c.core n.toNat) else t

/-- The acquire that a `hint.ord` asks for (R33, R262), after the access, under the scope latched at its issue. -/
def Ctx.ordAcquire (c : Ctx) (t : State) (l : Latched) : State :=
  if hintOrd c.hints % 2 = 1 then t.acquireNow c.core l else t

/-- A global atomic (R240 to R244): checks in the order of R235, then every lane at its home slice. -/
def globalAtomic (i : Instr) (vt : BitVec 6) (b : BitVec 5) (v : BitVec 6) (sz : Nat) (n : BitVec 3)
    (f : Ctx → Nat → Nat → Option Nat) (ret : Option (Nat → Word)) (s : State) : Out :=
  perform i (fun c t =>
    match c.stale t n (c.lowestLane b v sz) with
    | some fi => .trap fi
    | none =>
      if c.team.staged then .trap (.mk' cPROT 8)
      else
        let as := (lanesOf c.active).map fun l => (l, c.ad b (some v) sz l)
        match c.reachAtomic t sz (as.map Prod.snd) with
        | .error r => r
        | .ok (t, xs) =>
          let l := t.latch c.vf c.core n.toNat
          let (t, olds) := c.atomicAll (c.ordRelease t n) xs sz as (f c)
          let t := c.ordAcquire t l
          c.ordered s (match ret with
            | none => .next t
            | some w => .vec t vt (olds.map fun p => (p.1, w p.2)))) s

/-- Access size of a Z bit. -/
def size48 (z : BitVec 1) : Nat := if z = 1 then 8 else 4

/-- The old value as `gatom` returns it (R243). -/
def atomicOld (op : BitVec 3) (z : BitVec 1) (old : Nat) : Word :=
  if z = 0 ∧ (op = 1 ∨ op = 2) then ofInt 64 (sext old 32) else BitVec.ofNat 64 old

/-- R243. -/
def execGatom (o : BitVec 3) (vt : BitVec 6) (b : BitVec 5) (v : BitVec 6) (n z : BitVec 1) (p : BitVec 3) (s : State) : Out :=
  globalAtomic (.gatom o vt b v n z p) vt b v (size48 z) p
    (fun c l old => atomicFn o.toNat (size48 z) old (c.v vt l).toNat 0)
    (if n = 1 then none else some (atomicOld o z)) s

/-- R244. -/
def execGexch (vt : BitVec 6) (b : BitVec 5) (v : BitVec 6) (z : BitVec 1) (p : BitVec 3) (s : State) : Out :=
  globalAtomic (.gexch vt b v z p) vt b v (size48 z) p
    (fun c l old => atomicFn 8 (size48 z) old (c.v vt l).toNat 0) (some (BitVec.ofNat 64)) s

/-- The vc operand of a lane (R32). -/
def Ctx.vc (c : Ctx) (l : Nat) : Word := match hintVc c.hints with | some r => c.v r l | none => 0

/-- R244. -/
def execGcas (vt : BitVec 6) (b : BitVec 5) (v : BitVec 6) (z : BitVec 1) (p : BitVec 3) (s : State) : Out :=
  globalAtomic (.gcas vt b v z p) vt b v (size48 z) p
    (fun c l old => atomicFn 9 (size48 z) old (c.vc l).toNat (c.v vt l).toNat) (some (BitVec.ofNat 64)) s

/-- Reductions count until they are acknowledged (R267). -/
def Ctx.unacked (c : Ctx) (t : State) (n : Nat) : State := c.modG t fun g => { g with unacked := g.unacked + n }

/-- `gred.f` on one f32 (R245): control bits F, Q and S, and the operation. -/
def gredFn (f q u : Bool) (op x0 y0 : Nat) : Nat :=
  let fl (x : Nat) : Nat := if f && isSub f32 x then withSign f32 (fneg f32 x) 0 else x
  let x := fl x0
  let y := fl y0
  let r :=
    match op with
    | 0 =>
      if isNan f32 x then quiet f32 x
      else if isNan f32 y then quiet f32 y
      else if isInf f32 x && isInf f32 y && fneg f32 x != fneg f32 y then 0x7FC00000
      else
        let r := fadd f32 .plain x y
        if r.2.testBit 2 && u then withSign f32 (fneg f32 r.1) 0x7F7FFFFF else r.1
    | 1 => totalMin 32 x y
    | 2 => totalMax 32 x y
    | _ => numOf f32 totalMax x y
  fl (if q && isNan f32 r then 0x7FC00000 else r)

/-- R245. -/
def execGredF (f q u : BitVec 1) (vt : BitVec 6) (b : BitVec 5) (v : BitVec 6) (o : BitVec 2) (p : BitVec 3) (s : State) : Out :=
  perform (.gredF f q u vt b v o p) (fun c t =>
    if c.team.det && o == 0 then .trap { cls := cDETERMINISM, fbyte := c.lowestLane b v 4 }
    else match c.stale t p (c.lowestLane b v 4) with
    | some fi => .trap fi
    | none =>
      if c.team.staged then .trap (.mk' cPROT 8)
      else
        let as := (lanesOf c.active).map fun l => (l, c.ad b (some v) 4 l)
        match c.reachAtomic t 4 (as.map Prod.snd) with
        | .error r => r
        | .ok (t, xs) =>
          let (t, _) := c.atomicAll (c.ordRelease t p) xs 4 as
            (fun l old => some (gredFn (f == 1) (q == 1) (u == 1) o.toNat old (elem (c.v vt l) 0 32)))
          c.ordered s (.next (c.unacked t as.length))) s

/-- The operand words of a `gred.rn` lane: address and word. -/
def rnLanes (c : Ctx) (vt : BitVec 6) (x : BitVec 1) (as : List (Nat × Nat)) : List (Nat × Nat) :=
  as.flatMap fun p => (p.2, elem (c.v vt p.1) 0 32) :: (if x = 1 then [(p.2 + 4, elem (c.v vt p.1) 1 32)] else [])

/-- A staged residue reduction: held for the commit, and folded as a store of its canonical operand (R247). -/
def Staging.reduce (g : Staging) (a w : Nat) : Staging :=
  { g with writes := g.writes ++ [.red a (canon w)], digest := g.digest + digestTerm a 15 (canon w) }

/-- R247. -/
def execGredRn (vt : BitVec 6) (b : BitVec 5) (v : BitVec 6) (x : BitVec 1) (p : BitVec 3) (s : State) : Out :=
  perform (.gredRn vt b v x p) (fun c t =>
    match c.stale t p (c.lowestLane b v (size48 x)) with
    | some fi => .trap fi
    | none =>
      let sz := size48 x
      let as := (lanesOf c.active).map fun l => (l, c.ad b (some v) sz l)
      match c.reachAtomic t sz (as.map Prod.snd) with
      | .error r => r
      | .ok (t, xs) =>
        let ws := rnLanes c vt x as
        let range (t : State) : State := c.setFlags t (if ws.any fun w => !(rnOk w.2) then fRNRANGE else 0)
        if c.team.staged then
          let g := ws.foldl (fun (g : Staging) w => g.reduce w.1 w.2) c.team.staging
          if stagingRoom < g.size then
            .late (c.uncount t) (.mk' cSTAGEFULL ((lowestSuch (fun _ => true) (as.map Prod.snd)).getD 0))
          else c.ordered s (.next ((c.ordRelease (range t) p).modTeam c.ref.team fun y => { y with staging := g }))
        else
          let t := range t
          let (t, _) := c.atomicAll (c.ordRelease t p) xs sz as fun l old =>
            some (rnadd (old % 2 ^ 32) (elem (c.v vt l) 0 32)
              + (if x = 1 then 2 ^ 32 * rnadd (old / 2 ^ 32) (elem (c.v vt l) 1 32) else 0))
          c.ordered s (.next (c.unacked t as.length))) s

/-- The request of a prefetch for the line of an address: a line whose page fails is dropped (R248), and an error response that a table
gave is logged (R376, R379). -/
def Ctx.prefetch (c : Ctx) (t : State) (level a : Nat) : State :=
  if !(canonical a) then t
  else match t.xlate c.core c.vf a kLoad c.priv with
    | .error f => t.logFails c.die c.vf [f]
    | .ok x => t.modCore c.core fun y => { y with requests := y.requests ++ [⟨c.vf, a, x.pa a / 256, 15, x.leaf, level, false⟩] }

/-- R248. -/
def execGpf (k : BitVec 3) (b : BitVec 5) (o : BitVec 6) (g : BitVec 2) (cb : BitVec 1) (s : State) : Out :=
  perform (.gpf k b o g cb) (fun c t =>
    .next ((c.lanes k).foldl (fun t l => c.prefetch t g.toNat (c.ad b (fmtMvo o) 256 l)) t)) s

end Sys2Proof.Machine
end

