-- ==== Sys2Proof/Machine/Local.lean ====
section
/-! DEFINITION. Lane slices, Chamber, Gallery and Grotto (R118 to R129): the four local spaces by their codes, owner states as
thread accesses meet them (R105), loads, stores, fragments and Chamber atomics. -/

namespace Sys2Proof.Machine

/-- Bytes of a team's Chamber range (R137): whole frames. -/
def Team.chamberBytes (t : Team) : Nat := (t.kernel.chamber + 2047) / 2048 * 2048

/-- The core of a Gallery address (R118): bits 34:32 within the cluster of the issuing core. -/
def Ctx.galleryCore (c : Ctx) (a : Nat) : Nat := c.core / 8 * 8 + a / 2 ^ 32 % 8

/-- The die and offset of a Grotto address (R118). -/
def grottoDie (a : Nat) : Nat := a / 2 ^ 26 % 4
/-- The offset of a Grotto address in the context's window. -/
def grottoOff (a : Nat) : Nat := a % 2 ^ 26

/-- Whether n bytes at an address of a space lie in its valid range (R118, R121). Spaces: 0 lane slice, 1 Chamber, 2 Gallery,
3 Grotto. -/
def Ctx.inRange (c : Ctx) (t : State) (sp a n : Nat) : Bool :=
  match sp with
  | 0 => decide (a + n ≤ c.team.kernel.lane)
  | 1 => decide (a + n ≤ c.team.chamberBytes)
  | 2 => match c.team.group with
    | none => false
    | some l => decide (a < 2 ^ 35) && decide (a / 2 ^ 19 % 2 ^ 13 = 0) && l.contains (c.galleryCore a)
        && decide (a % 2 ^ 19 + n ≤ c.team.kernel.gallery)
  | _ => decide (a < 2 ^ 28) && decide (grottoOff a + n ≤ ((t.vf c.vf).grotto (grottoDie a)).2)

/-- The frame that holds a byte (R103), in the spaces that have owner states. -/
def Ctx.frameOf (c : Ctx) (sp a : Nat) : Option FrameId :=
  match sp with
  | 1 => some ⟨false, c.ref.team, a / 2048⟩
  | 2 => some ⟨true, c.galleryCore a, a % 2 ^ 19 / 2048⟩
  | _ => none

/-- The owner state of a frame where it is not T (R103). -/
def State.owner? (s : State) (f : FrameId) : Option Owner :=
  if f.gal then SMap.get? (s.core f.owner).galFrames f.frame
  else (s.team? f.owner).bind fun t => SMap.get? t.frames f.frame

/-- A frame that an engine writes. -/
def State.frameEW (s : State) (f : FrameId) : Bool := match s.owner? f with | some o => o.ew | none => false
/-- A frame in state T. -/
def State.frameT (s : State) (f : FrameId) : Bool := (s.owner? f).isNone

/-- Bytes of a space as a lane reads them. -/
def Ctx.localBytes (c : Ctx) (t : State) (sp l a n : Nat) : List Byte :=
  match sp with
  | 0 => match t.gang? c.ref.team c.ref.gang with
    | some g => Memory.bytes g.lane (4096 * l + a) n
    | none => List.replicate n 0
  | 1 => match t.team? c.ref.team with
    | some x => Memory.bytes x.chamber a n
    | none => List.replicate n 0
  | 2 => Memory.bytes (t.core (c.galleryCore a)).gallery (a % 2 ^ 19) n
  | _ => t.grottoGet c.vf (grottoDie a) (grottoOff a) n

/-- Writes bytes of a core's Gallery share (R121): of a staged team, by its number plus 1, whose discard undoes them (R311), or, by 0,
bytes that stay. -/
def Core.galStore (c : Core) (own off : Nat) (bs : List Byte) : Core :=
  let c := { c with gallery := Memory.store c.gallery off bs }
  if own = 0 ∧ c.galLog = [] then { c with galBase := Memory.store c.galBase off bs }
  else { c with galLog := c.galLog ++ ((List.range bs.length).zip bs).map fun p => (own, off + p.1, p.2) }

/-- A staged team ends: its writes to a Gallery share stay, or vanish with it (R310, R311). -/
def Core.galSettle (c : Core) (team : Nat) (keep : Bool) : Core :=
  if !(c.galLog.any fun x => x.1 == team + 1) then c
  else
    let log := if keep then c.galLog.map fun x => if x.1 = team + 1 then (0, x.2) else x
               else c.galLog.filter fun x => x.1 != team + 1
    let base := ZMap.setAll c.galBase ((log.takeWhile fun x => x.1 == 0).map Prod.snd)
    let log := log.dropWhile fun x => x.1 == 0
    { c with galBase := base, galLog := log, gallery := if keep then c.gallery else ZMap.setAll base (log.map Prod.snd) }

/-- Writes bytes of a space. -/
def Ctx.localStore (c : Ctx) (t : State) (sp l a : Nat) (bs : List Byte) : State :=
  match sp with
  | 0 => c.modG t fun g => { g with lane := Memory.store g.lane (4096 * l + a) bs }
  | 1 => t.modTeam c.ref.team fun x => { x with chamber := Memory.store x.chamber a bs }
  | 2 => t.modCore (c.galleryCore a) fun x => x.galStore (if c.team.staged then c.ref.team + 1 else 0) (a % 2 ^ 19) bs
  | _ => t.grottoPut c.vf (grottoDie a) (grottoOff a) bs

/-- Orders 3 and 4 of R128 over accesses of n bytes. -/
def Ctx.localCheck (c : Ctx) (t : State) (sp n align : Nat) (as : List Nat) : Option FaultInfo :=
  match lowestSuch (fun a => decide (a % align ≠ 0)) as with
  | some a => some (.mk' cALIGN a)
  | none => (lowestSuch (fun a => !(c.inRange t sp a n)) as).map (.mk' cPROT)

/-- A load of one frame waits while it is EW, and a load of several until all of them are T (R105). -/
def Ctx.loadWaits (c : Ctx) (t : State) (sp : Nat) (as : List Nat) : Bool :=
  match as.filterMap (c.frameOf sp) with
  | [] => false
  | f :: fs => if fs.all fun x => x == f then t.frameEW f else (f :: fs).any fun x => !(t.frameT x)

/-- The lowest address that a store or `catom` may not write (R105, R128, order 6). -/
def Ctx.ownerFault (c : Ctx) (t : State) (sp : Nat) (as : List Nat) : Option FaultInfo :=
  (lowestSuch (fun a => match c.frameOf sp a with | some f => !(t.frameT f) | none => false) as).map (.mk' cOWNER)

/-- The address of a lane (R124). -/
def Ctx.localAd (c : Ctx) (b : BitVec 5) (o : BitVec 6) (lm : BitVec 1) (sz l : Nat) : Nat :=
  c.ad b (if lm = 1 then none else some o) sz l

/-- R124. -/
def execLdl (k : BitVec 3) (vt : BitVec 6) (b : BitVec 5) (o : BitVec 6) (p : BitVec 2) (l n cb : BitVec 1) (s : State) : Out :=
  perform (.ldl k vt b o p l n cb) (fun c t =>
    let sz := if n = 1 then 4 else 8
    let as := (c.lanes k).map fun x => (x, c.localAd b o l sz x)
    match c.localCheck t p.toNat sz sz (as.map Prod.snd) with
    | some fi => .trap fi
    | none =>
      if c.loadWaits t p.toNat (as.map Prod.snd) then .wait s .frame
      else .vec t vt (as.map fun x => (x.1, BitVec.ofNat 64 (ofBytes (c.localBytes t p.toNat x.1 x.2 sz))))) s

/-- R124. -/
def execStl (k : BitVec 3) (vt : BitVec 6) (b : BitVec 5) (o : BitVec 6) (p : BitVec 2) (l n cb : BitVec 1) (s : State) : Out :=
  perform (.stl k vt b o p l n cb) (fun c t =>
    let sz := if n = 1 then 4 else 8
    let as := (c.lanes k).map fun x => (x, c.localAd b o l sz x)
    match c.localCheck t p.toNat sz sz (as.map Prod.snd) with
    | some fi => .trap fi
    | none =>
      match if c.team.staged && p == 3 then lowestSuch (fun _ => true) (as.map Prod.snd) else none with
      | some a => .trap (.mk' cPROT a)
      | none => match c.ownerFault t p.toNat (as.map Prod.snd) with
        | some fi => .trap fi
        | none => c.ordered s (.next (as.foldl (fun t x =>
            c.localStore t p.toNat x.1 x.2 (toBytes (c.v vt x.1).toNat sz)) t))) s

/-- The base of a tile or image: S(sb) + off (R126, R127, R233). -/
def Ctx.base (c : Ctx) (b : BitVec 5) : Nat := (c.s b + ofInt 64 (hintOffset c.hints)).toNat

/-- The address of register j of a lane in an A or B fragment (R126). -/
def fragAddr (w base j l : Nat) (rm hi : Bool) : Nat :=
  let rw := l % (w / 2)
  let b := (if hi then 32 else 0) + 16 * j + 8 * (l / (w / 2))
  if rm then base + 64 * rw + b else base + 64 * rw + 16 * ((b / 16) ^^^ (rw % 4)) + b % 16

/-- R126. The Gallery address bits of the base carry through. A base that is not aligned faults whether or not a lane takes part (R128;
DESIGN CHOICE, assumption 134). -/
def execLdfrag (k : BitVec 3) (vt : BitVec 6) (b : BitVec 5) (p : BitVec 2) (r h cb : BitVec 1) (s : State) : Out :=
  perform (.ldfrag k vt b p r h cb) (fun c t =>
    let base := c.base b
    let as := (c.lanes k).flatMap fun l => (List.range 2).map fun j => (l, j, fragAddr c.w base j l (r == 1) (h == 1))
    if base % 256 ≠ 0 then .trap (.mk' cALIGN base)
    else match c.localCheck t p.toNat 8 1 (as.map fun x => x.2.2) with
    | some fi => .trap fi
    | none =>
      if c.loadWaits t p.toNat (as.map fun x => x.2.2) then .wait s .frame
      else
        let vs := as.map fun x => (x.1, x.2.1, (BitVec.ofNat 64 (ofBytes (c.localBytes t p.toNat x.1 x.2.2 8)) : Word))
        let part (j : Nat) : List (Nat × Word) := (vs.filter fun v => v.2.1 == j).map fun v => (v.1, v.2.2)
        .vec (c.modG t fun g => g.setVs (vt.toNat + 1) (part 1)) vt (part 0)) s

/-- Row and column of element t of register j of a lane in the accumulator output layout (R127, R220). -/
def outPlace (w j l t : Nat) : Nat × Nat := (4 * j + l / (w / 4), 2 * (l % (w / 4)) + t)

/-- The elements that `stfrag` writes (R127): address, bytes and whether NVSTORE is set. -/
def Ctx.fragStores (c : Ctx) (k : BitVec 3) (vt : BitVec 6) (base es : Nat) (slot : Option Word) :
    List (Nat × List Byte × Bool) :=
  (c.lanes k).flatMap fun l => (List.range (c.w / 8)).flatMap fun j => (List.range 2).map fun t =>
    let x := elem (c.vg vt j l) t 32
    let rc := outPlace c.w j l t
    let e := match slot with | some w => narrow x w | none => (x, false)
    (base + (rc.1 * (c.w / 2) + rc.2) * es, toBytes e.1 es, e.2)

/-- R127. A slot that is not accepted, or a base that is not aligned, faults whether or not a lane takes part (R128; DESIGN CHOICE,
assumption 134). -/
def execStfrag (k : BitVec 3) (vt : BitVec 6) (b : BitVec 5) (v : BitVec 1) (n : BitVec 3) (cb : BitVec 1) (s : State) : Out :=
  perform (.stfrag k vt b v n cb) (fun c t =>
    let base := c.base b
    let slot := if v = 1 then some (c.team.slot n.toNat) else none
    if (match slot with | some w => (storeFmt (slotFmt w)).isNone | none => false) then .trap (.mk' cPROT base)
    else if base % 256 ≠ 0 then .trap (.mk' cALIGN base)
    else
      let es := match slot with | some w => storeSize (slotFmt w) | none => 4
      let ws := c.fragStores k vt base es slot
      match c.localCheck t 1 es 1 (ws.map Prod.fst) with
      | some fi => .trap fi
      | none => match c.ownerFault t 1 (ws.map Prod.fst) with
        | some fi => .trap fi
        | none => c.ordered s (.next (c.setFlags (ws.foldl (fun t x => c.localStore t 1 0 x.1 x.2.1) t)
            (nvstore (ws.any fun x => x.2.2))))) s

/-- A Chamber atomic (R128): lane by lane in ascending order. -/
def chamberAtomic (i : Instr) (vt : BitVec 6) (b : BitVec 5) (v : BitVec 6) (sz : Nat) (n : BitVec 3)
    (f : Ctx → Nat → Nat → Option Nat) (ret : Nat → Word) (s : State) : Out :=
  perform i (fun c t =>
    let as := (lanesOf c.active).map fun l => (l, c.ad b (some v) sz l)
    match c.stale t n (c.lowestLane b v sz) with
    | some fi => .trap fi
    | none => match c.localCheck t 1 sz sz (as.map Prod.snd) with
      | some fi => .trap fi
      | none => match c.ownerFault t 1 (as.map Prod.snd) with
        | some fi => .trap fi
        | none =>
          let lt := t.latch c.vf c.core n.toNat
          let r := as.foldl (fun (r : State × List (Nat × Word)) p =>
            let old := ofBytes (c.localBytes r.1 1 p.1 p.2 sz)
            let t := match f c p.1 old with
              | some x => c.localStore r.1 1 p.1 p.2 (toBytes x sz)
              | none => r.1
            (t, r.2 ++ [(p.1, ret old)])) (c.ordRelease t n, [])
          c.ordered s (.vec (c.ordAcquire r.1 lt) vt r.2)) s

/-- R128. -/
def execCatom (o : BitVec 3) (vt : BitVec 6) (b : BitVec 5) (v : BitVec 6) (z : BitVec 1) (p : BitVec 3) (s : State) : Out :=
  chamberAtomic (.catom o vt b v z p) vt b v (size48 z) p
    (fun c l old => atomicFn o.toNat (size48 z) old (c.v vt l).toNat 0) (atomicOld o z) s

/-- R128. -/
def execCatomExch (vt : BitVec 6) (b : BitVec 5) (v : BitVec 6) (z : BitVec 1) (p : BitVec 3) (s : State) : Out :=
  chamberAtomic (.catomExch vt b v z p) vt b v (size48 z) p
    (fun c l old => atomicFn 8 (size48 z) old (c.v vt l).toNat 0) (BitVec.ofNat 64) s

/-- R128. -/
def execCatomCas (vt : BitVec 6) (b : BitVec 5) (v : BitVec 6) (z : BitVec 1) (p : BitVec 3) (s : State) : Out :=
  chamberAtomic (.catomCas vt b v z p) vt b v (size48 z) p
    (fun c l old => atomicFn 9 (size48 z) old (c.vc l).toNat (c.v vt l).toNat) (BitVec.ofNat 64) s

end Sys2Proof.Machine
end

