-- ==== Sys2Proof/Machine/Matrix.lean ====
section
/-! DEFINITION. The matrix array (R139 to R142, R216 to R233): accumulator units, surge requests, tile products, and moves between
accumulators, registers and local memory. -/

namespace Sys2Proof.Machine

/-! ### Units of the accumulator file -/

/-- The gangs resident on a quadrant, with their width: those of every team that is not saved. -/
def State.quadGangs (s : State) (core quad : Nat) : List (Nat × Nat × Nat × Gang) :=
  s.teams.flatMap fun t => match t.2.status with
    | .saved => []
    | .running => (t.2.gangs.filter fun g => decide (g.2.core = core) && decide (g.2.quad = quad)).map fun g =>
        (t.1, g.1, t.2.kernel.width, g.2)

/-- The units that a gang's names hold. -/
def Gang.units (g : Gang) : List Nat := g.accs.flatMap fun p => p.2.units

/-- The free units of a quadrant: neither bound nor draining (R140). -/
def State.freeUnits (s : State) (core quad : Nat) : List Nat :=
  let held := ((s.quadGangs core quad).flatMap fun g => g.2.2.2.units) ++ ((s.core core).quad quad).draining.map Prod.fst
  (List.range 128).filter fun u => !(held.contains u)

/-- The units that a gang's names hold, or that drain after its release of them (R140). -/
def State.unitsOf (s : State) (core quad : Nat) (g : Nat × Nat × Nat × Gang) : Nat :=
  g.2.2.2.units.length + ((s.core core).quad quad).draining.countP fun d => d.2 == some (g.1, g.2.1)

/-- Units that the other gangs of the quadrant may still claim from their reservations (R142). Units that drain after a gang's release
come back to its reservation first. -/
def State.reserved (s : State) (core quad : Nat) (r : Ref) : Nat :=
  (((s.quadGangs core quad).filter fun g => !(decide (g.1 = r.team) && decide (g.2.1 = r.gang))).map fun g =>
    g.2.2.1 / 8 - s.unitsOf core quad g).foldl (· + ·) 0

/-- A fragment of a quadrant stalls on the accumulator file (R142). -/
def State.stallsOnFile (s : State) (core quad : Nat) (r : Ref) : Bool :=
  (s.quadGangs core quad).any fun g => decide (g.1 = r.team) && decide (g.2.1 = r.gang)
    && (match g.2.2.2.frag? r.frag with | some f => f.wait == some .accFile | none => false)

/-- The fragments that stall on a quadrant's file and came before a fragment (R142). -/
def State.unitsBefore (s : State) (core quad : Nat) (r : Ref) : List Ref :=
  (((s.core core).quad quad).accQueue.takeWhile fun x => x != r).filter (s.stallsOnFile core quad)

/-- W/8 fresh units for a gang, where the file has them (R142): a gang that holds none claims its reservation; the shared units go to
the fragments that stall in the order in which they came. -/
def Ctx.takeUnits (c : Ctx) (s : State) : Option (List Nat) :=
  let free := s.freeUnits c.core c.gang.quad
  if c.w / 8 + s.reserved c.core c.gang.quad c.ref ≤ free.length
      ∧ (c.gang.units = [] ∨ s.unitsBefore c.core c.gang.quad c.ref = []) then some (free.take (c.w / 8)) else none

/-- The fragment takes its place among those that stall on the file (R142). -/
def Ctx.queueUnits (c : Ctx) (s : State) : State :=
  s.modQuad c.core c.gang.quad fun q =>
    { q with accQueue := if q.accQueue.contains c.ref then q.accQueue else q.accQueue ++ [c.ref] }

/-- The units of a name drain (R140). -/
def Ctx.drainName (c : Ctx) (s : State) (a : Nat) : State :=
  match SMap.get? c.gang.accs a with
  | none => s
  | some x => s.drainUnits c.core c.gang.quad (some (c.ref.team, c.ref.gang)) x.units

/-- Binds a name to contents, its previous units draining where they are not the new ones (R139, R140): the fragment stalls on the file
no more (R142). -/
def Ctx.bind (c : Ctx) (s : State) (a : Nat) (x : Acc) : State :=
  let s := match SMap.get? c.gang.accs a with
    | some o => if o.units = x.units then s else c.drainName s a
    | none => s
  let s := s.modQuad c.core c.gang.quad fun q => { q with accQueue := q.accQueue.filter fun r => r != c.ref }
  c.modG s fun g => { g with accs := SMap.set g.accs a x }

/-- Unbinds a name (R140, R229). -/
def Ctx.unbind (c : Ctx) (s : State) (a : Nat) : State :=
  c.modG (c.drainName s a) fun g => { g with accs := SMap.erase g.accs a }

/-- The whole gang issues (R223). -/
def Ctx.whole (c : Ctx) : Bool := decide (c.active = fullMask c.w)

/-! ### The surge arbiter -/

/-- Grants issued in the window that is open (R224). -/
def Die.grantedNow (d : Die) : Nat := if d.window = d.cycle / 32 then d.granted else 0

/-- A request that has waited 128 cycles goes on in ramp mode (R225), and stays queued. -/
def State.rampMode (s : State) (die : Nat) (r : Ref) (core quad : Nat) : State :=
  let s := s.modDie die fun d => { d with
    surge := d.surge.map fun x => if x.ref = r ∧ x.ramped = false then { x with ramped := true } else x }
  s.modQuad core quad fun q => { q with ramp := true }

/-- A chain start asks for its grant (R224, R225): the state in which it goes on, or the one in which it waits. `t` is the state of
the unit counted, `s` the state before it. Where the array is active again, the request or grant of the start is dropped. Whether a
grant given at once counts as its tenant's turn of the round robin is open: it does not (DESIGN CHOICE, assumption 86). -/
def Ctx.surge (c : Ctx) (t s : State) : Except State State :=
  let d := t.die c.die
  let busy := match ((t.core c.core).quad c.gang.quad).lastProduct with
    | some n => decide (d.cycle < n + 256)
    | none => false
  if busy then .ok (t.modDie c.die fun d => { d with
    surge := d.surge.filter fun x => x.ramped || decide (x.ref ≠ c.ref)
    grants := d.grants.filter fun r => r != c.ref })
  else if d.grants.contains c.ref then .ok (t.modDie c.die fun d => { d with grants := d.grants.erase c.ref })
  else match d.surge.find? fun x => decide (x.ref = c.ref) && !x.ramped with
    | some x =>
      if x.since + 128 ≤ d.cycle then .ok (t.rampMode c.die c.ref c.core c.gang.quad) else .error s
    | none =>
      if d.surge.isEmpty && decide (d.grantedNow < 16) then
        .ok (t.modDie c.die fun d => { d with window := d.cycle / 32, granted := d.grantedNow + 1 })
      else .error (s.modDie c.die fun d =>
        { d with surge := d.surge ++ [⟨c.ref, c.core, c.gang.quad, c.team.tenant, d.cycle, false⟩] })

/-! ### Products -/

/-- The class of a format (R216): 1 residue, 2 of 8 bits, 3 of 16 bits, 0 for an unset slot. -/
def fmtClass (f : Nat) : Nat :=
  match f with
  | 1 | 2 => 3
  | 3 | 4 | 5 => 2
  | 6 | 7 => 1
  | _ => 0

/-- The code of element k of a row of A or column of B (R218). -/
def Ctx.tileCode (c : Ctx) (v : BitVec 6) (cls row k : Nat) : Nat :=
  let n := c.w / 2
  if cls = 3 then elem (c.vg v (k / 8) (row + k % 8 / 4 * n)) (k % 4) 16
  else elem (c.vg v (k / 16) (row + k % 16 / 8 * n)) (k % 8) 8

/-- The codes of a whole row or column. -/
def Ctx.tileRow (c : Ctx) (v : BitVec 6) (cls row : Nat) : List Nat :=
  (List.range (if cls = 3 then 16 else 32)).map fun k => c.tileCode v cls row k

/-- A float input's value. -/
def inputVal (f x : Nat) : FVal := match storeFmt f with | some m => fval m x | none => .nan

/-- One element of a float tile (R221). -/
def floatElem (fa fb : Nat) (sa sb : Nat × Nat) (as bs : List Nat) (old : Nat) : Nat :=
  sumTerms (fval f32 old :: (as.zip bs).map fun p => mulTerm (inputVal fa p.1) (inputVal fb p.2) sa sb)

/-- One element of a residue tile (R222): the word, the count and the flags. -/
def residueElem (ra rb : Bool) (as bs : List Nat) (old count : Nat) : Nat × Nat × Nat :=
  let ps := (as.zip bs).map fun p => (rnin p.1 ra, rnin p.2 rb)
  let w := ps.foldl (fun w p => rnMac w p.1.1 p.2.1) old
  let n := min (count + ps.length) 65535
  (w, n, (if ps.any (fun p => p.1.2 || p.2.2) then fRNCLAMP else 0) ||| (if count ≤ 512 ∧ 512 < n then fRNRANGE else 0))

/-- The elements of the tile: row and column. -/
def tilePlaces (w : Nat) : List (Nat × Nat) :=
  (List.range (w / 2)).flatMap fun i => (List.range (w / 2)).map fun j => (i, j)

/-- The segment id of a row or column (R228). -/
def Ctx.segId (c : Ctx) (v : BitVec 6) (i : Nat) : Nat := elem (c.v v (i / 4)) (i % 4) 16

/-- Whether an element takes part (R227). -/
def Ctx.keeps (c : Ctx) (seg : Bool) (i j : Nat) : Bool :=
  !seg || (let r := hintSeg c.hints; c.segId r.1 i == c.segId r.2 j && c.segId r.1 i != 0xFFFF)

/-- The tile that a product leaves of contents (R227), with the flags it sets. -/
def Ctx.product (c : Ctx) (seg : Bool) (slotA slotB : Word) (v w : BitVec 6) (x : Acc) : Acc × Nat :=
  let fa := slotFmt slotA
  let fb := slotFmt slotB
  let cls := fmtClass fa
  let rows := (List.range (c.w / 2)).map fun i => c.tileRow v cls i
  let cols := (List.range (c.w / 2)).map fun i => c.tileRow w cls i
  (tilePlaces c.w).foldl (fun (r : Acc × Nat) p =>
    if c.keeps seg p.1 p.2 then
      let as := (rows[p.1]?).getD []
      let bs := (cols[p.2]?).getD []
      let n := p.1 * (c.w / 2) + p.2
      if cls = 1 then
        let e := residueElem (fa == 7) (fb == 7) as bs (ZMap.get r.1.val n).toNat (ZMap.get r.1.count n).toNat
        ({ r.1 with val := ZMap.set r.1.val n (BitVec.ofNat 32 e.1), count := ZMap.set r.1.count n (BitVec.ofNat 16 e.2.1) },
          r.2 ||| e.2.2)
      else
        let e := floatElem fa fb (slotScale slotA) (slotScale slotB) as bs (ZMap.get r.1.val n).toNat
        ({ r.1 with val := ZMap.set r.1.val n (BitVec.ofNat 32 e) }, r.2)
    else r) (x, 0)

/-- A tile product (R223, R227). One of which every element is masked is a product of the array all the same (DESIGN CHOICE, assumption
104). -/
def tileProduct (i : Instr) (seg z : Bool) (p q a : BitVec 3) (v w : BitVec 6) (s : State) : Out :=
  perform i (fun c t =>
    let slotA := c.team.slot p.toNat
    let slotB := c.team.slot q.toNat
    let ca := fmtClass (slotFmt slotA)
    let cb := fmtClass (slotFmt slotB)
    let old := SMap.get? c.gang.accs a.toNat
    if !c.whole then .trap { cls := cMSPLIT }
    else if ca = 0 ∨ cb = 0 then .trap (.mk' cPROT 1)
    else if ca ≠ cb then .trap (.mk' cPROT 2)
    else if !z && (match old with | some x => x.residue != (ca == 1) | none => false) then .trap (.mk' cPROT 3)
    else
      let units := if z then c.takeUnits t else match old with
        | some x => some x.units
        | none => c.takeUnits t
      match units with
      | none => .wait (c.queueUnits s) .accFile
      | some us =>
        match if z then c.surge t s else .ok t with
        | .error s => .wait s .surge
        | .ok t =>
          let fresh : Acc := ⟨ca == 1, us, [], []⟩
          let x := if z then fresh else old.getD fresh
          let (x, fl) := c.product seg slotA slotB v w x
          let t := c.setFlags (c.bind t a.toNat x) fl
          .next (t.modQuad c.core c.gang.quad fun y => { y with lastProduct := some (t.die c.die).cycle })) s

/-- R227. -/
def execMma (p q a : BitVec 3) (v w : BitVec 6) (cb : BitVec 1) (s : State) : Out :=
  tileProduct (.mma p q a v w cb) false false p q a v w s
/-- R227. -/
def execMmaZ (p q a : BitVec 3) (v w : BitVec 6) (cb : BitVec 1) (s : State) : Out :=
  tileProduct (.mmaZ p q a v w cb) false true p q a v w s
/-- R227, R228. -/
def execMmas (p q a : BitVec 3) (v w : BitVec 6) (cb : BitVec 1) (s : State) : Out :=
  tileProduct (.mmas p q a v w cb) true false p q a v w s
/-- R227, R228. -/
def execMmasZ (p q a : BitVec 3) (v w : BitVec 6) (cb : BitVec 1) (s : State) : Out :=
  tileProduct (.mmasZ p q a v w cb) true true p q a v w s

/-! ### Names -/

/-- R229. -/
def execAccZero (a : BitVec 3) (r cb : BitVec 1) (s : State) : Out :=
  perform (.accZero a r cb) (fun c t => match c.takeUnits t with
    | none => .wait (c.queueUnits s) .accFile
    | some us => .next (c.bind t a.toNat ⟨r == 1, us, [], []⟩)) s

/-- R229. -/
def execAccRel (a : BitVec 3) (cb : BitVec 1) (s : State) : Out :=
  perform (.accRel a cb) (fun c t => .next (c.unbind t a.toNat)) s

/-- R229. A name moved onto itself ends unbound, and its units drain. -/
def execAccMov (a o : BitVec 3) (cb : BitVec 1) (s : State) : Out :=
  perform (.accMov a o cb) (fun c t => .next (match SMap.get? c.gang.accs o.toNat with
    | none => c.unbind t a.toNat
    | some x =>
      if a = o then c.unbind t a.toNat
      else c.modG (c.bind t a.toNat x) fun g => { g with accs := SMap.erase g.accs o.toNat })) s

/-- The words of an output group (R220): register j of a lane, from a value for each element. -/
def outWord (w j l : Nat) (f : Nat → Nat → Nat) : Word :=
  pack 32 ((List.range 2).map fun t => let p := outPlace w j l t; f p.1 p.2)

/-- Writes an output group (R220, R25): the first register is the vector result. -/
def Ctx.outGroup (c : Ctx) (t : State) (d : BitVec 6) (f : Nat → Nat → Nat) : Res :=
  let ls := List.range c.w
  let t := c.modG t fun g => (List.range (c.w / 8 - 1)).foldl (fun g j =>
    g.setVs (d.toNat + (j + 1)) (ls.map fun l => (l, outWord c.w (j + 1) l f))) g
  .vec t d (ls.map fun l => (l, outWord c.w 0 l f))

/-- The 32-bit value of an element of contents (R219). -/
def Acc.at (x : Acc) (w i j : Nat) : Nat := (ZMap.get x.val (i * (w / 2) + j)).toNat

/-- R230, without scales. -/
def execAccoutI32 (a : BitVec 3) (d : BitVec 6) (cb : BitVec 1) (s : State) : Out :=
  perform (.accoutI32 a d cb) (fun c t =>
    if !c.whole then .trap { cls := cMSPLIT }
    else match SMap.get? c.gang.accs a.toNat with
      | none => c.outGroup t d (fun _ _ => 0)
      | some x =>
        if !x.residue then .trap (.mk' cPROT 3)
        else c.outGroup t d (fun i j => modPow (rndec (x.at c.w i j)) 32)) s

/-- An exact product as an f32 (R230). -/
def outF32 (x : FVal) : Nat :=
  match x with
  | .nan => 0x7FC00000
  | .inf neg => withSign f32 neg (infEnc f32)
  | .fin neg n d => if n = 0 then withSign f32 neg 0 else rneF32 neg n d

/-- R230, with scales. -/
def execAccoutF32 (p q a : BitVec 3) (d w : BitVec 6) (u cb : BitVec 1) (s : State) : Out :=
  perform (.accoutF32 p q a d w u cb) (fun c t =>
    if !c.whole then .trap { cls := cMSPLIT }
    else
      let cs (j : Nat) : FVal := if u = 1 then fval f32 (elem (c.v w (j / 2)) (j % 2) 32) else .fin false 1 1
      match SMap.get? c.gang.accs a.toNat with
      | none => c.outGroup t d (fun _ _ => 0)
      | some x => c.outGroup t d fun i j =>
        if x.residue then
          let v := rndec (x.at c.w i j)
          outF32 (mulTerm (.fin (decide (v < 0)) v.natAbs 1) (cs j) (slotScale (c.team.slot p.toNat)) (slotScale (c.team.slot q.toNat)))
        else if u = 0 then x.at c.w i j
        else outF32 (mulTerm (fval f32 (x.at c.w i j)) (cs j) (1, 1) (1, 1))) s

/-- The sub-element of a source group at an element of the tile (R220). -/
def Ctx.groupAt (c : Ctx) (v : BitVec 6) (i j : Nat) : Nat :=
  elem (c.vg v (i / 4) (i % 4 * (c.w / 4) + j / 2)) (j % 2) 32

/-- The units under which a name is written in place, or fresh ones (R231). -/
def Ctx.unitsFor (c : Ctx) (t : State) (a : BitVec 3) : Option (List Nat) :=
  match SMap.get? c.gang.accs a.toNat with
  | some x => some x.units
  | none => c.takeUnits t

/-- The count of an element of a name before a write: 0 where the name is unbound or float (R231). -/
def Ctx.oldCount (c : Ctx) (a : BitVec 3) (n : Nat) : Nat :=
  match SMap.get? c.gang.accs a.toNat with
  | some x => if x.residue then (ZMap.get x.count n).toNat else 0
  | none => 0

/-- R231. -/
def execAccin (a : BitVec 3) (v : BitVec 6) (f cb : BitVec 1) (s : State) : Out :=
  perform (.accin a v f cb) (fun c t =>
    if !c.whole then .trap { cls := cMSPLIT }
    else match c.unitsFor t a with
      | none => .wait (c.queueUnits s) .accFile
      | some us =>
        let es := (tilePlaces c.w).map fun p => (p.1 * (c.w / 2) + p.2, c.groupAt v p.1 p.2)
        if f = 1 then .next (c.bind t a.toNat ⟨false, us, ZMap.setAll [] (es.map fun e => (e.1, BitVec.ofNat 32 e.2)), []⟩)
        else
          let rs := es.map fun e => (e.1, sext e.2 32, min (placeCount (sext e.2 32)) 65535)
          let bad := rs.any fun r => !(inRange r.2.1) || (decide (512 < r.2.2) && decide (c.oldCount a r.1 ≤ 512))
          .next (c.setFlags (c.bind t a.toNat ⟨true, us, ZMap.setAll [] (rs.map fun r => (r.1, BitVec.ofNat 32 (rnOf r.2.1))),
            ZMap.setAll [] (rs.map fun r => (r.1, BitVec.ofNat 16 r.2.2))⟩) (if bad then fRNRANGE else 0))) s

/-! ### Images -/

/-- The space of an image: Chamber or Gallery. -/
def imageSpace (g : BitVec 1) : Nat := if g = 1 then 2 else 1

/-- The addresses of the elements of an image at a base (R232). -/
def imageAddrs (w base : Nat) : List Nat := (List.range (w / 2 * (w / 2))).map fun n => base + 8 * n

/-- The image word of element n (R232). -/
def imageWord (x : Option Acc) (n : Nat) : Nat :=
  match x with
  | none => 2 * 2 ^ 48
  | some a =>
    (ZMap.get a.val n).toNat + (if a.residue then 2 ^ 48 + (ZMap.get a.count n).toNat * 2 ^ 32 else 0)

/-- R233. -/
def execAccst (a : BitVec 3) (b : BitVec 5) (g cb : BitVec 1) (s : State) : Out :=
  perform (.accst a b g cb) (fun c t =>
    let base := c.base b
    let sp := imageSpace g
    let as := imageAddrs c.w base
    if base % 256 ≠ 0 then .trap (.mk' cALIGN base)
    else match c.localCheck t sp 8 1 as with
      | some fi => .trap fi
      | none => match c.ownerFault t sp as with
        | some fi => .trap fi
        | none =>
          let x := SMap.get? c.gang.accs a.toNat
          c.ordered s (.next ((List.range as.length).foldl (fun t n =>
            c.localStore t sp 0 (base + 8 * n) (toBytes (imageWord x n) 8)) t))) s

/-- The words of an image are not well-formed (R233). -/
def imageMalformed (ws : List Nat) : Bool :=
  ws.any fun x =>
    let kind := x / 2 ^ 48 % 256
    decide (some kind ≠ ws.head?.map fun y => y / 2 ^ 48 % 256) || decide (2 < kind) || decide (x / 2 ^ 56 ≠ 0)
      || (kind != 1 && decide (x / 2 ^ 32 % 2 ^ 16 ≠ 0)) || (kind == 2 && decide (x % 2 ^ 32 ≠ 0))
      || (kind == 1 && !(rnOk (x % 2 ^ 32)))

/-- R233. -/
def execAccld (a : BitVec 3) (b : BitVec 5) (g cb : BitVec 1) (s : State) : Out :=
  perform (.accld a b g cb) (fun c t =>
    let base := c.base b
    let sp := imageSpace g
    let as := imageAddrs c.w base
    if base % 256 ≠ 0 then .trap (.mk' cALIGN base)
    else match c.localCheck t sp 8 1 as with
      | some fi => .trap fi
      | none =>
        if c.loadWaits t sp as then .wait s .frame
        else
          let ws := as.map fun x => ofBytes (c.localBytes t sp 0 x 8)
          if imageMalformed ws then .trap (.mk' cPROT 4)
          else
            let kind := ((ws.head?).getD 0) / 2 ^ 48 % 256
            if kind = 2 then .next (c.unbind t a.toNat)
            else match c.unitsFor t a with
              | none => .wait (c.queueUnits s) .accFile
              | some us =>
                let es := (List.range ws.length).zip ws
                .next (c.bind t a.toNat ⟨kind == 1, us,
                  ZMap.setAll [] (es.map fun e => (e.1, BitVec.ofNat 32 (if kind = 1 then canon (e.2 % 2 ^ 32) else e.2))),
                  ZMap.setAll [] (es.map fun e => (e.1, BitVec.ofNat 16 (e.2 / 2 ^ 32)))⟩)) s

end Sys2Proof.Machine
end

