-- ==== Sys2Proof/Machine/Elastic.lean ====
section
/-! DEFINITION. Elastic arrays addressed by rank (R67 to R94, R370, R371): the counted tree, the operations of the Rank Tree
Units, element loads and stores through the rank lookaside buffers, and the steps of the units. -/

namespace Sys2Proof.Machine

/-! ### Arrays and anchors -/

/-- Element size in bytes (R67, R87). -/
def EArray.esize (a : EArray) : Nat := 4 * 2 ^ a.size
/-- Number of elements. -/
def EArray.len (a : EArray) : Nat := (a.leaves.map Prod.snd).foldl (· + ·) 0
/-- The handle of an array (R69). -/
def EArray.handle (a : EArray) (idx : Nat) : Word := BitVec.ofNat 64 (a.gen * 2 ^ 18 + a.die * 2 ^ 16 + idx)
/-- The most elements of an array (R67). -/
abbrev maxElems : Nat := 2 ^ 40
/-- The most live anchors of an array (R67). -/
abbrev maxAnchors : Nat := 4096
/-- The most live arrays of a context (R67). -/
abbrev maxArrays : Nat := 65536

/-- The live array that a handle names (R69). -/
def State.array? (s : State) (vf : Nat) (h : Word) : Option (Nat × EArray) :=
  if slice h 63 26 ≠ 0 then none
  else match SMap.get? (s.vf vf).arrays (slice h 15 0) with
    | none => none
    | some a => if a.gen = slice h 25 18 ∧ a.die = slice h 17 16 then some (slice h 15 0, a) else none

/-- The allocated anchor that a token names (R70). -/
def State.anchor? (s : State) (vf : Nat) (tok : Word) : Option (Nat × AnchorState) :=
  if slice tok 63 36 ≠ 0 then none
  else match SMap.get? (s.vf vf).anchors (slice tok 27 0) with
    | none => none
    | some a => if (SMap.getD (s.vf vf).anchorGen (slice tok 27 0) 0).toNat = slice tok 35 28 then some (slice tok 27 0, a) else none

/-- The token of an allocated ID. -/
def Vf.token (v : Vf) (id : Nat) : Word := BitVec.ofNat 64 ((SMap.getD v.anchorGen id 0).toNat * 2 ^ 28 + id)

/-- The array that holds an anchor, or held it when it died. -/
def State.arrayOf (s : State) (vf : Nat) (x : AnchorState) : Option (Nat × EArray) :=
  match x with
  | .live i | .dead (some i) => (SMap.get? (s.vf vf).arrays i).map fun a => (i, a)
  | .dead none => none

/-- IDs run from 1 to 2^28 - 1 (R70). -/
abbrev anchorRoom : Nat := 2 ^ 28

/-- A run of n free IDs with equal reuse counts starts here (R92). -/
def Vf.freeRun (v : Vf) (n start : Nat) : Bool :=
  decide (1 ≤ start) && decide (start + n ≤ anchorRoom)
    && v.anchors.all (fun p => !(decide (start ≤ p.1) && decide (p.1 < start + n)))
    && (List.range n).all fun i => SMap.getD v.anchorGen (start + i) 0 == SMap.getD v.anchorGen start 0

/-- The start of a free run that the RTU chooses (R92): some run, where one exists. -/
def Vf.findRun (v : Vf) (tick n : Nat) : Option Nat :=
  let wish := 1 + Config.fresh tick % (anchorRoom - 1)
  let keys := v.anchors.map Prod.fst ++ v.anchorGen.map Prod.fst
  if v.freeRun n wish then some wish
  else (1 :: keys.flatMap fun k => [k, k + 1]).find? (v.freeRun n)

/-- Allocates the IDs of a run for an array (R70). -/
def Vf.allocRun (v : Vf) (arr start : Nat) : Nat → Vf
  | 0 => v
  | n + 1 =>
    let v := Vf.allocRun v arr start n
    { v with anchors := SMap.set v.anchors (start + n) (.live arr)
             anchorGen := SMap.set v.anchorGen (start + n) (SMap.getD v.anchorGen (start + n) 0 + 1) }

/-- The least index of a free array, as the RTU chooses it, and its generation (R69). -/
def Vf.newIndex (v : Vf) (tick : Nat) : Nat × Nat :=
  let i := freshName tick maxArrays (v.arrays.map Prod.fst)
  (i, SMap.getD v.arrGen i 0 % 255 + 1)

/-- Lists an array under its index, with its generation as the index's reuse count. -/
def Vf.setArray (v : Vf) (i : Nat) (a : EArray) : Vf :=
  { v with arrays := SMap.set v.arrays i a, arrGen := SMap.set v.arrGen i a.gen }

/-! ### The counted tree (R68, R90, R371) -/

/-- The leaf limit L (R370). -/
def State.leafLimit (s : State) (a : EArray) : Nat :=
  let l := slice (s.die a.die).rtucfg 12 0
  if l = 0 ∨ 4096 / a.esize < l then 4096 / a.esize else l

/-- First address of a slab of a die's pool (R68), a block of 4 KiB in the die's HBM4E of the package: of a SLABS base that names no such
block there, its bits 36:12 alone count (DESIGN CHOICE, assumption 110). -/
def State.slabAddr (s : State) (vf die n : Nat) : Nat :=
  s.board.pkg * 2 ^ 46 + die * 2 ^ 37 + (((s.vf vf).slabPool die).1 / 4096 + n) % 2 ^ 25 * 4096

/-- A leaf or a node under change: its parent's place in the level above, whether the operation changed it, its slab where it has
one, its elements or children, and whether elements are written to its slab. -/
structure Part (α : Type) where
  parent : Nat
  changed : Bool
  slab : Option Nat
  items : List α
  written : Bool := false

/-- Counts of q pieces of m that differ by at most one, the larger ones first (R371). -/
def evenly (m q : Nat) : List Nat := (List.range q).map fun j => m / q + if j < m % q then 1 else 0

/-- Cuts a list into pieces of the counts. -/
def cuts {α : Type} : List Nat → List α → List (List α)
  | [], _ => []
  | n :: ns, l => l.take n :: cuts ns (l.drop n)

/-- The place in a level of the node that holds child j of the level below. -/
def parentOf : List Nat → Nat → Nat
  | [], _ => 0
  | n :: ns, j => if j < n then 0 else parentOf ns (j - n) + 1

/-- A level's item is replaced by q: its parent grows, and divides past 16 children (R371). -/
def growLevels : List (List Nat) → Nat → Nat → List (List Nat)
  | [], _, q => newRoots 64 q
  | lv :: up, j, q =>
    let p := parentOf lv j
    let c := (lv[p]?).getD 0 + (q - 1)
    let ns := if c ≤ 16 then [c] else evenly c ((c + 15) / 16)
    (lv.take p ++ ns ++ lv.drop (p + 1)) :: growLevels up p ns.length
where
  /-- Roots above q items, divided in turn. -/
  newRoots : Nat → Nat → List (List Nat)
    | 0, _ => []
    | k + 1, q => if q ≤ 1 then [] else
        let ns := evenly q ((q + 15) / 16)
        ns :: newRoots k ns.length

/-- The interior levels of two trees, neither empty, whose leaves stand one after the other: the nodes of both are relinked (R91). The
root of the lower tree joins the node at the edge of the higher one, and two roots of one height stand under a new root. -/
def catLevels : List (List Nat) → List (List Nat) → List (List Nat)
  | [], [] => [[2]]
  | lv :: up, [] => growLevels (lv :: up) (lv.foldl (· + ·) 0 - 1) 2
  | [], lw :: uw => growLevels (lw :: uw) 0 2
  | lv :: up, lw :: uw => (lv ++ lw) :: catLevels up uw

/-- One merge or division of a part that a deletion left below half of its capacity (R90): of several, the leftmost first, and two
that merge keep the slab of the left one (DESIGN CHOICE, assumption 112). -/
def rebalanceStep {α : Type} (cap : Nat) (ps : List (Part α)) : Option (List (Part α)) :=
  if ps.length ≤ 1 then none
  else match ps.findIdx? fun p => p.changed && decide (2 * p.items.length < cap) with
    | none => none
    | some j =>
      let k := if j + 1 < ps.length then j else j - 1
      match ps.drop k with
      | x :: y :: rest =>
        let all := x.items ++ y.items
        let h := (all.length + 1) / 2
        let n := x.items.length
        if all.length ≤ cap then some (ps.take k ++ { x with items := all, changed := true, written := true } :: rest)
        else some (ps.take k ++ { x with items := all.take h, changed := false, written := x.written || decide (n < h) }
          :: { y with items := all.drop h, changed := false, written := y.written || decide (n ≠ h) } :: rest)
      | _ => none

/-- Merges and divisions until none is due. -/
def rebalance {α : Type} (cap : Nat) : Nat → List (Part α) → List (Part α)
  | 0, ps => ps
  | k + 1, ps => match rebalanceStep cap ps with | some qs => rebalance cap k qs | none => ps

/-- Every merge or division that is due: each takes a part away or clears its mark. -/
def balanced {α : Type} (cap : Nat) (ps : List (Part α)) : List (Part α) := rebalance cap (2 * ps.length) ps

/-- The interior levels once the parts below have gone to the listed parents: nodes are kept, and one left with fewer than 8 children
is merged or rebalanced (R90, R91). -/
def shrinkLevels : List (List Nat) → List Nat → List (List Nat)
  | [], _ => []
  | lv :: up, parents =>
    let nodes : List (Part Unit) := (List.range lv.length).filterMap fun p =>
      let n := parents.countP (· == p)
      if n = 0 then none
      else some ⟨parentOf (up.head?.getD []) p, decide (n ≠ (lv[p]?).getD 0) || decide (n < 8), none, List.replicate n (), false⟩
    let nodes := balanced 16 nodes
    nodes.map (fun n => n.items.length) :: shrinkLevels up (nodes.map Part.parent)

/-- The levels up to the root: a root of one child gives way to it (assumption 31). -/
def upToRoot : List (List Nat) → List (List Nat)
  | [] => []
  | lv :: up => if lv.length ≤ 1 then (if lv = [] ∨ lv = [1] then [] else [lv]) else lv :: upToRoot up

/-- Slabs that N interior nodes take, 16 to a slab (R371). -/
def nodeSlabs (levels : List (List Nat)) : Nat := ((levels.map List.length).foldl (· + ·) 0 + 15) / 16

/-- The leaves of an array with their elements' bytes. -/
def State.leafParts (s : State) (vf : Nat) (a : EArray) : List (Part (List Byte)) :=
  ((List.range a.leaves.length).zip a.leaves).map fun p =>
    let base := s.slabAddr vf a.die p.2.1
    ⟨parentOf (a.levels.head?.getD []) p.1, false, some p.2.1,
      (List.range p.2.2).map fun i => Memory.bytes s.mem (base + a.esize * i) a.esize, false⟩

/-- The leaf that holds element r - 1, or the first (R371), and the number of elements before it. -/
def leafFor : List (Nat × Nat) → Nat → Nat × Nat
  | [], _ => (0, 0)
  | (_, n) :: ls, r => if r ≤ n then (0, 0) else
      if ls.isEmpty then (0, 0) else let x := leafFor ls (r - n); (x.1 + 1, x.2 + n)

/-- The leaves and levels after elements are inserted at rank r (R371). -/
def EArray.inserted (a : EArray) (ps : List (Part (List Byte))) (limit r : Nat) (es : List (List Byte)) :
    List (Part (List Byte)) × List (List Nat) :=
  let (k, lo) := leafFor a.leaves r
  let x : Part (List Byte) := (ps[k]?).getD ⟨0, true, none, [], true⟩
  let items := x.items.take (r - lo) ++ es ++ x.items.drop (r - lo)
  let counts := if items.length ≤ limit then [items.length] else evenly items.length ((items.length + limit - 1) / limit)
  let pieces := cuts counts items
  let news := ((List.range pieces.length).zip pieces).map fun p =>
    { x with changed := true, slab := if p.1 = 0 then x.slab else none, items := p.2
             written := decide (p.1 ≠ 0) || decide (r - lo < p.2.length) }
  (ps.take k ++ news ++ ps.drop (k + 1), growLevels a.levels k news.length)

/-- The leaves and levels after ranks r to r + n - 1 are deleted (R90). -/
def EArray.deleted (a : EArray) (ps : List (Part (List Byte))) (limit r n : Nat) : List (Part (List Byte)) × List (List Nat) :=
  let (_, cut) := ps.foldl (fun (acc : Nat × List (Part (List Byte))) p =>
    let lo := acc.1
    let m := p.items.length
    let keep := p.items.take (r - lo) ++ p.items.drop (r + n - lo)
    (lo + m, acc.2 ++ [{ p with items := keep, changed := decide (keep.length ≠ m)
                                written := decide (keep.length ≠ m) && decide (r + n < lo + m) }])) (0, [])
  let ps := balanced limit (cut.filter fun p => !p.items.isEmpty)
  (ps, upToRoot (shrinkLevels a.levels (ps.map Part.parent)))

/-! ### Slabs (R85, R86) -/

/-- Slab numbers in use on a die. -/
def Vf.usedSlabs (v : Vf) (die : Nat) : List Nat := SMap.getD v.slabs die []
/-- Slabs that the virtual function holds. -/
def Vf.held (v : Vf) : Nat := (v.slabs.map fun p => p.2.length).foldl (· + ·) 0

/-- The slab check (R86): the reason of EQUOTA. -/
def State.slabCheck (s : State) (vf die need : Nat) : Option Nat :=
  let v := s.vf vf
  if need = 0 then none
  else if v.slabq < v.held + need then some 1
  else if (v.slabPool die).2 < (v.usedSlabs die).length + need then some 2 else none

/-- n free slab numbers of a pool, as the RTU chooses them. -/
def freeSlabs (tick room : Nat) (used : List Nat) : Nat → List Nat
  | 0 => []
  | n + 1 =>
    let x := freshName tick room (sortNats used)
    x :: freeSlabs (tick + 1) room (x :: used) n

/-- Leaves that have no slab yet. -/
def leafNeed {α : Type} (ps : List (Part α)) : Nat := ps.countP fun p => p.slab.isNone

/-- Gives each leaf its slab, new ones from the list, with its elements and whether they are written to it. -/
def giveSlabs : List (Part (List Byte)) → List Nat → List (Nat × List (List Byte) × Bool)
  | [], _ => []
  | p :: ps, fresh => match p.slab, fresh with
    | some n, fr => (n, p.items, p.written) :: giveSlabs ps fr
    | none, n :: fr => (n, p.items, true) :: giveSlabs ps fr
    | none, [] => (0, p.items, true) :: giveSlabs ps []

/-- Invalidates the copies of a slab's lines that remote partitions hold: a structural operation tears no access (R78). -/
def State.dropSlab (s : State) (addr : Nat) : State :=
  { s with dies := SMap.mapVals s.dies fun _ d => { d with
      remote := d.remote.filterMap fun l =>
        if addr / 256 ≤ l.num ∧ l.num < addr / 256 + 16 then
          (if l.dirty = 0 then none else some l.discard)
        else some l } }

/-- The bit of a slab in the dirty bitmap (R381): the slabs of the four dies' pools in turn (assumption 34). -/
def Vf.slabBit (v : Vf) (die n : Nat) : Nat := ((List.range die).map fun d => (v.slabPool d).2).foldl (· + ·) 0 + n

/-- Sets a slab's bit in the bitmap at SDIRTY, at its home slice (R381); no bitmap where SDIRTY is 0 (assumption 34). A bit in an absent
package is dropped, and the error response is logged (R376, R379); so is one at an address that is no byte of HBM4E or host memory
(DESIGN CHOICE, assumption 128). -/
def State.markSlab (s : State) (vf die n : Nat) : State :=
  let base := (s.vf vf).cfg 288 8
  if base = 0 then s
  else
    let b := (s.vf vf).slabBit die n
    let pa := base + b / 8
    if s.reaches pa 1 then { s with mem := ZMap.set s.mem pa (ZMap.get s.mem pa ||| BitVec.ofNat 8 (2 ^ (b % 8))) }
    else s.event 1 die vf 0 0 pa 0

/-- The elements of a leaf stand in its slab in rank order (R68); a slab that is written has its bit set, whatever it held (R381). -/
def State.writeLeaf (s : State) (vf die : Nat) (x : Nat × List (List Byte) × Bool) : State :=
  let addr := s.slabAddr vf die x.1
  if x.2.2 then (({ s with mem := Memory.store s.mem addr (x.2.1.flatMap id) }).dropSlab addr).markSlab vf die x.1
  else s.dropSlab addr

/-- The array takes its new leaves and levels: slabs are taken, and those of `own` that it holds no more return. -/
def State.reshape (s : State) (vf idx : Nat) (a : EArray) (own : List Nat) (ps : List (Part (List Byte)))
    (levels : List (List Nat)) : State :=
  let used := (s.vf vf).usedSlabs a.die
  let nn := nodeSlabs levels
  let fresh := freeSlabs s.tick ((s.vf vf).slabPool a.die).2 used (leafNeed ps + (nn - a.nodes.length))
  let leaves := giveSlabs ps fresh
  let nodes := a.nodes.take nn ++ fresh.drop (leafNeed ps)
  let kept := leaves.map Prod.fst ++ nodes
  let used := sortNats ((used.filter fun n => !(own.contains n)) ++ kept)
  let s := leaves.foldl (fun s x => s.writeLeaf vf a.die x) s
  let s := nodes.foldl (fun s n => s.markSlab vf a.die n) s
  let a := { a with leaves := leaves.map fun x => (x.1, x.2.1.length), levels := levels, nodes := nodes }
  s.modVf vf fun v => { v.setArray idx a with slabs := SMap.set v.slabs a.die used }

/-- The slabs of an array. -/
def EArray.slabs (a : EArray) : List Nat := a.leaves.map Prod.fst ++ a.nodes

/-- The core set of an array as its bound entry holds it now (R80). -/
def State.arrayCores (s : State) (vf : Nat) (a : EArray) : BitVec 256 :=
  let e := s.scope vf a.creator a.scope
  if a.scope = 0 then BitVec.ofNat 256 (2 ^ a.creator) else if e.valid then e.cores else BitVec.ofNat 256 (2 ^ 256 - 1)

/-- Invalidates the RLB entries of an array in every core of its bound scope, as the operation latched it and as it stands (R79). -/
def State.dropRlb (s : State) (vf : Nat) (h : Word) (cores : BitVec 256) : State :=
  let now := ((s.array? vf h).map fun x => s.arrayCores vf x.2).getD 0
  { s with cores := SMap.mapVals s.cores fun n c =>
      if bit (cores ||| now) n then { c with rlb := c.rlb.filter fun e => !(decide (e.vf = vf) && decide (e.handle = h)) } else c }

/-- Invalidates, in a set of cores, the RLB entries of every array of a context that is bound to an entry (R81). -/
def State.dropBoundRlb (s : State) (vf entry : Nat) (cores : BitVec 256) : State :=
  let hs := ((s.vf vf).arrays.filter fun p => p.2.scope == entry).map fun p => p.2.handle p.1
  { s with cores := SMap.mapVals s.cores fun n c =>
      if bit cores n then { c with rlb := c.rlb.filter fun e => !(decide (e.vf = vf) && hs.contains e.handle) } else c }

/-! ### The bound scope and the checks (R80, R83, R84) -/

/-- What an operation acts on: home die, bound scope entry and creating core. -/
structure Bound where
  home : Nat
  scope : Nat
  creator : Nat
deriving DecidableEq, Repr

/-- The binding of an array. -/
def EArray.bound (a : EArray) : Bound := ⟨a.die, a.scope, a.creator⟩

/-- The latched scope of an operation; its core set is that of R80, without the issuing core added. -/
def Ctx.latchArray (c : Ctx) (t : State) (b : Bound) : Latched :=
  let l := t.latch c.vf c.core b.scope
  let e := t.scope c.vf c.core b.scope
  { l with cores := if b.scope = 0 then BitVec.ofNat 256 (2 ^ b.creator) else if e.valid then e.cores else BitVec.ofNat 256 (2 ^ 256 - 1) }

/-- A fault of an elastic array instruction (R84). -/
def eaFault (cls reason : Nat) (h rank : Word) : FaultInfo :=
  { cls, fbyte := BitVec.ofNat 64 reason, handle := h, rank }

/-- Order 1 of R84. -/
def Ctx.eaStaged (c : Ctx) (h r : Word) : Except FaultInfo Unit :=
  if c.team.staged then .error (eaFault cPROT 8 h r) else .ok ()

/-- Order 2 of R84. -/
def Ctx.eaArray (c : Ctx) (t : State) (h r : Word) : Except FaultInfo (Nat × EArray) :=
  match t.array? c.vf h with
  | some x => .ok x
  | none => .error (eaFault cERANK 4 h r)

/-- Order 4 of R84. -/
def Ctx.eaScope (c : Ctx) (l : Latched) (h r : Word) : Except FaultInfo Unit :=
  if bit l.cores c.core then .ok () else .error (eaFault cESCOPE 1 h r)

/-- A condition that an operation requires. -/
def require (b : Bool) (fi : FaultInfo) : Except FaultInfo Unit := if b then .ok () else .error fi

/-- The release and acquire of an operation at its bound scope (R83). -/
def Ctx.eaOrder (c : Ctx) (l : Latched) (structural : Bool) (t : State) : State :=
  (if structural then t.gangRelease c.ref.team c.ref.gang c.core l else t).acquireNow c.core l

/-! ### Operations (R87 to R93) -/

/-- R87. -/
def eaNew (c : Ctx) (l : Latched) (t : State) (sd sa : BitVec 5) : Except FaultInfo State := do
  let d := c.s sa
  c.eaStaged 0 0
  c.eaScope l 0 0
  require (slice d 63 11 == 0 && !(bit d 7) && !(bit d 3) && decide (slice d 2 0 ≤ 4)) (eaFault cERANK 5 0 0)
  require (decide ((t.vf c.vf).arrays.length < maxArrays)) (eaFault cEQUOTA 4 0 0)
  let (i, gen) := (t.vf c.vf).newIndex t.tick
  let home := if bit d 8 then slice d 10 9 else c.die
  let a : EArray := ⟨gen, home, slice d 6 4, c.core, slice d 2 0, 0, [], [], [], []⟩
  let t := t.modVf c.vf fun v => v.setArray i a
  return c.setS (c.eaOrder l true t) sd (a.handle i)

/-- R88. -/
def eaFree (c : Ctx) (l : Latched) (t : State) (sa : BitVec 5) : Except FaultInfo State := do
  let h := c.s sa
  c.eaStaged h 0
  let (i, a) ← c.eaArray t h 0
  c.eaScope l h 0
  let t := (t.dropRlb c.vf h l.cores).modVf c.vf fun v => { v with
    arrays := SMap.erase v.arrays i
    anchors := SMap.mapVals v.anchors fun _ x => if x = .live i ∨ x = .dead (some i) then .dead none else x
    slabs := SMap.set v.slabs a.die ((v.usedSlabs a.die).filter fun n => !(a.slabs.contains n)) }
  return c.eaOrder l true t

/-- A new element from a lane (R89). -/
def Ctx.newElement (c : Ctx) (size : Nat) (data : Bool) (x : BitVec 6) (j : Nat) : List Byte :=
  let n := min size 8
  let w := if data && bit c.active j then (c.v x j).toNat else 0
  toBytes w n ++ List.replicate (size - n) 0

/-- The place of an insertion (R73): the number of anchors before it, and its rank. -/
def EArray.place (a : EArray) (r : Nat) : Nat × Nat := (a.anchors.countP fun p => decide (p.2 < r), r)

/-- The place immediately before an anchor (R73). -/
def EArray.placeBefore (a : EArray) (id : Nat) : Nat × Nat :=
  let p := a.anchors.takeWhile fun x => decide (x.1 ≠ id)
  (p.length, ((a.anchors.find? fun x => x.1 == id).map Prod.snd).getD 0)

/-- New anchors and n new elements enter the sequence at a place. -/
def EArray.enter (a : EArray) (p : Nat × Nat) (ids : List Nat) (n : Nat) : EArray :=
  { a with anchors := a.anchors.take p.1 ++ ids.map (fun i => (i, p.2)) ++ (a.anchors.drop p.1).map fun x => (x.1, x.2 + n)
           version := a.version + 1 }

/-- Order 5 of R84 for an anchor that must be live in an array: the record's HANDLE is the handle operand, also where the anchor lies in
another array (DESIGN CHOICE, assumption 113). -/
def Ctx.eaAnchor (c : Ctx) (t : State) (tok : Word) (i : Nat) (h r : Word) : Except FaultInfo Nat :=
  match t.anchor? c.vf tok with
  | some (id, .live j) => if i = j then .ok id else .error (eaFault cERANK 3 h r)
  | _ => .error (eaFault cERANK 3 h r)

/-- R89: `app` for `eapp`, `anc` for the forms that return a new anchor, `data` for those that take data from vx. -/
def eaInsert (c : Ctx) (l : Latched) (t : State) (app anc data : Bool) (sd sa sb : BitVec 5) (x : BitVec 6) :
    Except FaultInfo State := do
  let h := c.s sa
  let n := (c.s sd).toNat
  let rk : Word := if app then 0 else c.s sb
  c.eaStaged h rk
  let (i, a) ← c.eaArray t h rk
  c.eaScope l h rk
  let p ← if app then (do let id ← c.eaAnchor t (c.s sb) i h rk; return a.placeBefore id)
          else (do require (decide ((c.s sb).toNat ≤ a.len)) (eaFault cERANK 1 h rk); return a.place (c.s sb).toNat)
  require (decide (n + a.len ≤ maxElems) && !(data && decide (c.w < n))) (eaFault cERANK 2 h rk)
  require (!anc || decide (a.anchors.length < maxAnchors)) (eaFault cEQUOTA 3 h rk)
  if n = 0 then return c.setS (c.eaOrder l true t) sd (if anc then 0 else BitVec.ofNat 64 p.2)
  let run := if anc then (t.vf c.vf).findRun t.tick 1 else some 0
  require run.isSome (eaFault cEQUOTA 3 h rk)
  let (ps, levels) := a.inserted (t.leafParts c.vf a) (t.leafLimit a) p.2 ((List.range n).map (c.newElement a.esize data x))
  match t.slabCheck c.vf a.die (leafNeed ps + (nodeSlabs levels - a.nodes.length)) with
  | some r => throw (eaFault cEQUOTA r h rk)
  | none => pure ()
  let ids := if anc then [run.getD 0] else []
  let t := t.modVf c.vf fun v => ids.foldl (fun v id => v.allocRun i id 1) v
  let t := (t.reshape c.vf i (a.enter p ids n) a.slabs ps levels).dropRlb c.vf h l.cores
  return c.setS (c.eaOrder l true t) sd (if anc then (t.vf c.vf).token (run.getD 0) else BitVec.ofNat 64 p.2)

/-- R90. -/
def eaDelete (c : Ctx) (l : Latched) (t : State) (sd sa sb : BitVec 5) : Except FaultInfo State := do
  let h := c.s sa
  let n := (c.s sd).toNat
  let r := (c.s sb).toNat
  c.eaStaged h (c.s sb)
  let (i, a) ← c.eaArray t h (c.s sb)
  c.eaScope l h (c.s sb)
  require (decide (r + n ≤ a.len)) (eaFault cERANK 1 h (c.s sb))
  if n = 0 then return c.setS (c.eaOrder l true t) sd (BitVec.ofNat 64 a.len)
  let (ps, levels) := a.deleted (t.leafParts c.vf a) (t.leafLimit a) r n
  let dead := (a.anchors.filter fun x => decide (r < x.2) && decide (x.2 < r + n)).map Prod.fst
  let live := (a.anchors.filter fun x => !(dead.contains x.1)).map fun x => (x.1, if x.2 ≤ r then x.2 else x.2 - n)
  let a' := { a with anchors := live, version := a.version + 1 }
  let t := t.modVf c.vf fun v => { v with anchors := dead.foldl (fun m id => SMap.set m id (.dead (some i))) v.anchors }
  let t := (t.reshape c.vf i a' a.slabs ps levels).dropRlb c.vf h l.cores
  return c.setS (c.eaOrder l true t) sd (BitVec.ofNat 64 (a.len - n))

/-- Leaves up to a rank and from it, the leaf at the boundary cut in two. -/
def splitParts : List (Part (List Byte)) → Nat → List (Part (List Byte)) × List (Part (List Byte))
  | [], _ => ([], [])
  | p :: ps, r =>
    if r = 0 then ([], p :: ps)
    else if p.items.length ≤ r then
      let x := splitParts ps (r - p.items.length)
      (p :: x.1, x.2)
    else ([{ p with items := p.items.take r, changed := true }], { p with items := p.items.drop r, changed := true, slab := none, written := true } :: ps)

/-- R91, `esplit`: leaves and nodes are relinked. The old array's version grows whether or not anything moves, and a piece cut from a
leaf that merges with the following leaf takes a fresh slab; node slabs that the old array gives up pass to the new one and are not
counted in need (DESIGN CHOICE, assumption 81). At r = length no element moves, and RLB entries stay valid (R79). -/
def eaSplit (c : Ctx) (l : Latched) (t : State) (sd sa sb : BitVec 5) : Except FaultInfo State := do
  let h := c.s sa
  let r := (c.s sb).toNat
  c.eaStaged h (c.s sb)
  let (i, a) ← c.eaArray t h (c.s sb)
  c.eaScope l h (c.s sb)
  require (decide (r ≤ a.len)) (eaFault cERANK 1 h (c.s sb))
  let (xs, ys) := splitParts (t.leafParts c.vf a) r
  let xs := balanced (t.leafLimit a) xs
  let ys := balanced (t.leafLimit a) ys
  let xlv := upToRoot (shrinkLevels a.levels (xs.map Part.parent))
  let ylv := upToRoot (shrinkLevels a.levels (ys.map Part.parent))
  let need := leafNeed ys + (nodeSlabs ylv - (a.nodes.length - nodeSlabs xlv))
  match t.slabCheck c.vf a.die need with
  | some q => throw (eaFault cEQUOTA q h (c.s sb))
  | none => pure ()
  require (decide ((t.vf c.vf).arrays.length < maxArrays)) (eaFault cEQUOTA 4 h (c.s sb))
  let (j, gen) := (t.vf c.vf).newIndex t.tick
  let moved := a.anchors.filter fun x => decide (r ≤ x.2)
  let x := { a with
    anchors := a.anchors.filter fun x => decide (x.2 < r)
    version := a.version + 1
    nodes := a.nodes.take (nodeSlabs xlv) }
  let y := { a with
    gen, version := 0, leaves := [], levels := [], nodes := a.nodes.drop (nodeSlabs xlv), anchors := moved.map fun p => (p.1, p.2 - r) }
  let t := t.modVf c.vf fun v => { v with anchors := moved.foldl (fun m p => SMap.set m p.1 (.live j)) v.anchors }
  let kept := ys.filterMap Part.slab ++ y.nodes
  let t := t.reshape c.vf j y kept ys ylv
  let t := t.reshape c.vf i x (a.slabs.filter fun n => !(kept.contains n)) xs xlv
  let t := if r = a.len then t else t.dropRlb c.vf h l.cores
  return c.setS (c.eaOrder l true t) sd (y.handle j)

/-- Marks the last part. -/
def markLast : List (Part (List Byte)) → List (Part (List Byte))
  | [] => []
  | [p] => [{ p with changed := true }]
  | p :: ps => p :: markLast ps

/-- Marks the first part. -/
def markFirst : List (Part (List Byte)) → List (Part (List Byte))
  | [] => []
  | p :: ps => { p with changed := true } :: ps

/-- The levels of two arrays whose leaves stand one after the other. -/
def EArray.catLevels (x y : EArray) : List (List Nat) :=
  if x.leaves.isEmpty then y.levels else if y.leaves.isEmpty then x.levels else Machine.catLevels x.levels y.levels

/-- The leaves of two arrays one after the other: where one joins the other, the two at the boundary may move elements (R91). -/
def joinParts (xs ys : List (Part (List Byte))) : List (Part (List Byte)) := if ys.isEmpty then xs else markLast xs ++ markFirst ys

/-- R91, `ecat`: leaves and nodes are relinked; `m` is the latched scope of the second array (R254). Where that array is empty no element
moves, and RLB entries stay valid (R79). Orders 2 and 4 look at S(sa) first,
and a record of ERANK 5, ERANK 2 or EQUOTA holds S(sa) (DESIGN CHOICE, assumption 101). -/
def eaCat (c : Ctx) (l m : Latched) (t : State) (sd sa sb : BitVec 5) : Except FaultInfo State := do
  let h := c.s sa
  c.eaStaged h 0
  let (i, x) ← c.eaArray t h 0
  let (j, y) ← c.eaArray t (c.s sb) 0
  c.eaScope l h 0
  c.eaScope m (c.s sb) 0
  require (x.size == y.size && x.die == y.die && x.scope == y.scope && i != j) (eaFault cERANK 5 h 0)
  require (decide (x.len + y.len ≤ maxElems)) (eaFault cERANK 2 h 0)
  let joined := x.catLevels y
  let parts := joinParts (t.leafParts c.vf x) (t.leafParts c.vf y)
  let ps := balanced (t.leafLimit x) (((List.range parts.length).zip parts).map fun p =>
    { p.2 with parent := parentOf (joined.head?.getD []) p.1 })
  let levels := upToRoot (shrinkLevels joined (ps.map Part.parent))
  match t.slabCheck c.vf x.die (nodeSlabs levels - (x.nodes ++ y.nodes).length) with
  | some q => throw (eaFault cEQUOTA q h 0)
  | none => pure ()
  require (decide (x.anchors.length + y.anchors.length ≤ maxAnchors)) (eaFault cEQUOTA 3 h 0)
  let x' := { x with anchors := x.anchors ++ y.anchors.map (fun p => (p.1, p.2 + x.len)), nodes := x.nodes ++ y.nodes,
                     version := x.version + 1 }
  let y' := { y with leaves := [], levels := [], nodes := [], anchors := [], version := y.version + 1 }
  let moved (v : Vf) : SMap AnchorState := y.anchors.foldl (fun m p => SMap.set m p.1 (.live i)) v.anchors
  let t := t.modVf c.vf fun v => { v.setArray j y' with anchors := moved v }
  let t := t.reshape c.vf i x' (x.slabs ++ y.slabs) ps levels
  let t := if y.leaves.isEmpty then t else (t.dropRlb c.vf h l.cores).dropRlb c.vf (c.s sb) m.cores
  return c.setS (c.eaOrder l true t) sd (BitVec.ofNat 64 (x.len + y.len))

/-- R92, `emark` of n anchors; `eanch` is one anchor. -/
def eaMark (c : Ctx) (l : Latched) (t : State) (n : Nat) (sd sa sb : BitVec 5) : Except FaultInfo State := do
  let h := c.s sa
  let r := (c.s sb).toNat
  c.eaStaged h (c.s sb)
  let (i, a) ← c.eaArray t h (c.s sb)
  c.eaScope l h (c.s sb)
  require (decide (r ≤ a.len)) (eaFault cERANK 1 h (c.s sb))
  require (decide (n ≤ maxAnchors)) (eaFault cERANK 2 h (c.s sb))
  if n = 0 then return c.setS (c.eaOrder l true t) sd 0
  require (decide (a.anchors.length + n ≤ maxAnchors)) (eaFault cEQUOTA 3 h (c.s sb))
  match (t.vf c.vf).findRun t.tick n with
  | none => throw (eaFault cEQUOTA 3 h (c.s sb))
  | some st =>
    let a := a.enter (a.place r) ((List.range n).map fun k => st + k) 0
    let t := t.modVf c.vf fun v => (v.allocRun i st n).setArray i a
    return c.setS (c.eaOrder l true t) sd ((t.vf c.vf).token st)

/-- R92, `erank` and `erank.h` (`holder`). -/
def eaRank (c : Ctx) (l : Latched) (t : State) (holder : Bool) (sd sa : BitVec 5) : Except FaultInfo State := do
  match (t.anchor? c.vf (c.s sa)).bind fun x => (t.arrayOf c.vf x.2).map fun y => (x, y) with
  | none => throw (eaFault cERANK 3 0 0)
  | some ((id, st), (i, a)) =>
    c.eaScope l (a.handle i) 0
    require (st == .live i) (eaFault cERANK 3 (a.handle i) 0)
    return c.setS (c.eaOrder l false t) sd (if holder then a.handle i else BitVec.ofNat 64 (a.placeBefore id).2)

/-- R92, `edrop`. -/
def eaDrop (c : Ctx) (l : Latched) (t : State) (sa : BitVec 5) : Except FaultInfo State := do
  let x := t.anchor? c.vf (c.s sa)
  let y := x.bind fun x => t.arrayOf c.vf x.2
  let h := (y.map fun p => p.2.handle p.1).getD 0
  c.eaStaged h 0
  match y with
  | some _ => c.eaScope l h 0
  | none => pure ()
  match x with
  | none => throw (eaFault cERANK 3 h 0)
  | some (id, st) =>
    let t := t.modVf c.vf fun v => { v with
      anchors := SMap.erase v.anchors id
      arrays := match st with
        | .live i => SMap.modify v.arrays i fun a =>
            { a with anchors := a.anchors.filter fun p => p.1 != id, version := a.version + 1 }
        | .dead _ => v.arrays }
    return if y.isSome then c.eaOrder l true t else t

/-- R93, `elen`. -/
def eaLen (c : Ctx) (l : Latched) (t : State) (sd sa : BitVec 5) : Except FaultInfo State := do
  let h := c.s sa
  let (_, a) ← c.eaArray t h 0
  c.eaScope l h 0
  return c.setS (c.eaOrder l false t) sd (BitVec.ofNat 64 a.len)

/-- The item that a selector of `einfo` names (R93). -/
def Vf.arrayItem (v : Vf) (i : Nat) (a : EArray) : Nat → Nat
  | 0 => a.esize
  | 1 => a.version.toNat
  | 2 => v.anchors.countP fun p => p.2 == .live i || p.2 == .dead (some i)
  | 3 => a.scope
  | 4 => a.die
  | 5 => a.slabs.length
  | 6 => v.held
  | _ => v.slabq

/-- R93, `einfo`. -/
def eaInfo (c : Ctx) (l : Latched) (t : State) (sd sa sb : BitVec 5) : Except FaultInfo State := do
  let h := c.s sa
  let (i, a) ← c.eaArray t h 0
  c.eaScope l h 0
  require (decide ((c.s sb).toNat ≤ 7)) (eaFault cERANK 5 h 0)
  return c.setS (c.eaOrder l false t) sd (BitVec.ofNat 64 ((t.vf c.vf).arrayItem i a (c.s sb).toNat))

/-! ### The way to the home die (R71) -/

/-- What an operation acts on, read at its issue: none where an operand names nothing. -/
def eaTarget (i : Instr) (c : Ctx) (t : State) : Option Bound :=
  let byHandle (r : BitVec 5) := (t.array? c.vf (c.s r)).map fun x => x.2.bound
  let byToken (r : BitVec 5) :=
    ((t.anchor? c.vf (c.s r)).bind fun x => t.arrayOf c.vf x.2).map fun y => y.2.bound
  match i with
  | .enew _ a _ => let d := c.s a; some ⟨if bit d 8 then slice d 10 9 else c.die, slice d 6 4, c.core⟩
  | .efree a _ | .eins _ _ _ a _ _ _ | .eapp _ _ _ a _ _ _ | .edel _ a _ _ | .esplit _ a _ _ | .ecat _ a _ _
  | .emark _ a _ _ | .eanch _ a _ _ | .elen _ a _ | .einfo _ a _ _ => byHandle a
  | .erank _ a _ | .erankH _ a _ | .edrop a _ => byToken a
  | _ => none

/-- A structural operation, `enew` and `efree` included (R72). -/
def eaStructural : Instr → Bool
  | .erank _ _ _ | .erankH _ _ _ | .elen _ _ _ | .einfo _ _ _ _ => false
  | _ => true

/-- The scope that an `ecat` latches for its second array (R80, R254); one that is not live at the issue is bound to nothing but the
core. -/
def Ctx.latchSecond (c : Ctx) (t : State) (i : Instr) : Latched :=
  c.latchArray t (match i with
    | .ecat _ _ b _ => ((t.array? c.vf (c.s b)).map fun x => x.2.bound).getD ⟨c.die, 0, c.core⟩
    | _ => ⟨c.die, 0, c.core⟩)

/-- An operation as the home die's RTU performs it. -/
def eaPerform (i : Instr) (c : Ctx) (l m : Latched) (t : State) : Except FaultInfo State :=
  match i with
  | .enew d a _ => eaNew c l t d a
  | .efree a _ => eaFree c l t a
  | .eins u v s a b x _ => eaInsert c l t false (u == 1) (v == 1) s a b x
  | .eapp u v s a b x _ => eaInsert c l t true (u == 1) (v == 1) s a b x
  | .edel s a b _ => eaDelete c l t s a b
  | .esplit d a b _ => eaSplit c l t d a b
  | .ecat d a b _ => eaCat c l m t d a b
  | .emark s a b _ => eaMark c l t (c.s s).toNat s a b
  | .eanch d a b _ => eaMark c l t 1 d a b
  | .erank d a _ => eaRank c l t false d a
  | .erankH d a _ => eaRank c l t true d a
  | .edrop a _ => eaDrop c l t a
  | .elen d a _ => eaLen c l t d a
  | .einfo d a b _ => eaInfo c l t d a b
  | _ => .ok t

/-- What an operation answers. -/
def eaAnswer (i : Instr) (c : Ctx) (l m : Latched) (t : State) : Res :=
  match eaPerform i c l m t with
  | .error fi => .trap fi
  | .ok t => .next t

/-- The words of the vector operand of an insertion, as they stand at its issue. -/
def eaData (i : Instr) (c : Ctx) : ZMap 64 :=
  match i with
  | .eins _ _ _ _ _ x _ | .eapp _ _ _ _ _ x _ => c.gang.vregs.filter fun p => decide (p.1 / 64 = x.toNat)
  | _ => []

/-- An RTU operation issues: at once on the home die, and on the core's own where its operand names nothing, else into the queue of the
home die's RTU; a structural one waits for the gang's pending releases (R271). `s` is the state before it. -/
def rtuIssue (i : Instr) (s : State) : Out :=
  perform i (fun c t =>
    let m := c.latchSecond t i
    let b := (eaTarget i c t).getD ⟨c.die, 0, c.core⟩
    let l := c.latchArray t b
    if eaStructural i && !(c.gang.releases.isEmpty) then
      match eaPerform i c l m t with
      | .error fi => .trap fi
      | .ok _ => .wait s .release
    else if b.home = c.die then eaAnswer i c l m t
    else .wait (s.modDie b.home fun d => { d with rtu := d.rtu ++ [c.ref] }) (.rtu i l m c.gang.sregs (eaData i c))) s

/-- R87. -/
def execEnew (d a : BitVec 5) (cb : BitVec 1) (s : State) : Out := rtuIssue (.enew d a cb) s
/-- R88. -/
def execEfree (a : BitVec 5) (cb : BitVec 1) (s : State) : Out := rtuIssue (.efree a cb) s
/-- R89. -/
def execEins (u v : BitVec 1) (r a b : BitVec 5) (x : BitVec 6) (cb : BitVec 1) (s : State) : Out :=
  rtuIssue (.eins u v r a b x cb) s
/-- R89. -/
def execEapp (u v : BitVec 1) (r a b : BitVec 5) (x : BitVec 6) (cb : BitVec 1) (s : State) : Out :=
  rtuIssue (.eapp u v r a b x cb) s
/-- R90. -/
def execEdel (r a b : BitVec 5) (cb : BitVec 1) (s : State) : Out := rtuIssue (.edel r a b cb) s
/-- R91. -/
def execEsplit (d a b : BitVec 5) (cb : BitVec 1) (s : State) : Out := rtuIssue (.esplit d a b cb) s
/-- R91. -/
def execEcat (d a b : BitVec 5) (cb : BitVec 1) (s : State) : Out := rtuIssue (.ecat d a b cb) s
/-- R92. -/
def execEmark (r a b : BitVec 5) (cb : BitVec 1) (s : State) : Out := rtuIssue (.emark r a b cb) s
/-- R92. -/
def execEanch (d a b : BitVec 5) (cb : BitVec 1) (s : State) : Out := rtuIssue (.eanch d a b cb) s
/-- R92. -/
def execErank (d a : BitVec 5) (cb : BitVec 1) (s : State) : Out := rtuIssue (.erank d a cb) s
/-- R92. -/
def execErankH (d a : BitVec 5) (cb : BitVec 1) (s : State) : Out := rtuIssue (.erankH d a cb) s
/-- R92. -/
def execEdrop (a : BitVec 5) (cb : BitVec 1) (s : State) : Out := rtuIssue (.edrop a cb) s
/-- R93. -/
def execElen (d a : BitVec 5) (cb : BitVec 1) (s : State) : Out := rtuIssue (.elen d a cb) s
/-- R93. -/
def execEinfo (d a b : BitVec 5) (cb : BitVec 1) (s : State) : Out := rtuIssue (.einfo d a b cb) s

/-- The gang's own s28 to s31 change places with those of its handler, where one runs (R348). -/
def Gang.swapBank (g : Gang) : Gang :=
  match g.handler with
  | none => g
  | some h => { g with
      sregs := [28, 29, 30, 31].foldl (fun m n => ZMap.set m n (ZMap.get h.saved n)) g.sregs
      handler := some { h with saved := [28, 29, 30, 31].foldl (fun (m : ZMap 64) n => ZMap.set m n (ZMap.get g.sregs n)) [] } }

/-- A change of a state as a unit outside the handler makes it: its results go to the gang's own registers (R349). -/
def Ctx.inOwnBank (c : Ctx) (t : State) (f : State → Except FaultInfo State) : Except FaultInfo State :=
  if c.gang.handler.isSome && !c.frag.handler then (f (c.modG t Gang.swapBank)).map fun t => c.modG t Gang.swapBank else f t

/-- The fragment of a name whose unit the RTU performs: it has issued, so that a stop of its team does not hold it up (R352). -/
def State.rtuCtx? (s : State) (r : Ref) : Option Ctx :=
  (s.team? r.team).bind fun t => (SMap.get? t.gangs r.gang).bind fun g => (g.frag? r.frag).map fun f => ⟨r, t, g, f⟩

/-- R71: the oldest queued operation of a die's RTU is performed, with the operands of its issue (R133). It counts as the unit of its own
fragment: one outside the handler is none of the resident routine's (R295, R368). In a team that has been stopped, one that faults is not
performed and raises nothing (DESIGN CHOICE, assumption 125). -/
def execRtuOperation (die : Nat) (s : State) : Out :=
  match (s.die die).rtu with
  | [] => .fault .notEnabled
  | r :: rest =>
    let s := s.modDie die fun d => { d with rtu := rest }
    match ((s.gang? r.team r.gang).bind fun g => g.frag? r.frag).bind Fragment.wait with
    | some (.rtu i l m sregs data) =>
      let s := ({ s with cur := r }).modFrag r fun f => { f with wait := none }
      match s.rtuCtx? r with
      | none => .next s
      | some c =>
        let c' := { c with gang := { c.gang with sregs := sregs, vregs := data } }
        let own := { c with gang := c.gang.forUnit c.frag.handler }
        let res : Res := match c.inOwnBank (c.modG s fun g => g.countFor c.frag.handler) (eaPerform i c' l m) with
          | .error fi => .trap fi
          | .ok t => .next t
        let faults := (match res with | .trap _ => true | _ => false) || !own.gang.mayCount
        .next (if c.team.stopped.isSome && faults then s else own.complete i res s)
    | _ => .next s

/-! ### Element loads and stores (R78, R79, R82, R94) -/

/-- The leaf that holds a rank: ranks before it, its element count and its slab. -/
def leafAt : List (Nat × Nat) → Nat → Nat → Option (Nat × Nat × Nat)
  | [], _, _ => none
  | (slab, n) :: ls, lo, r => if r < lo + n then some (lo, n, slab) else leafAt ls (lo + n) r

/-- An RLB entry that holds a rank of an array, of the version given or an earlier one (R79). -/
def rlbFind (l : List Rlb) (vf : Nat) (h : Word) (version : BitVec 32) (r : Nat) : Option Rlb :=
  l.find? fun e => decide (e.vf = vf) && decide (e.handle = h) && decide ((version - e.version).toNat < 2 ^ 31) && decide (e.lo ≤ r) && decide (r < e.lo + e.count)

/-- The walk of the counted tree fills an entry of the core's RLB of 256 (R79); from a full one the entry that was filled first goes (DESIGN
CHOICE, assumption 129). -/
def State.rlbFill (s : State) (core vf : Nat) (h : Word) (a : EArray) (r : Nat) : State × Option Rlb :=
  match leafAt a.leaves 0 r with
  | none => (s, none)
  | some (lo, n, slab) =>
    let e : Rlb := ⟨vf, h, a.version, lo, n, slab⟩
    (s.modCore core fun c => { c with rlb := (e :: c.rlb).take 256 }, some e)

/-- The RLB entry that serves a rank of an array: one that the core holds, else the walk's. -/
def State.rlbEntry (s : State) (core vf : Nat) (h : Word) (a : EArray) (r : Nat) : State × Option Rlb :=
  match rlbFind (s.core core).rlb vf h a.version r with
  | some e => (s, some e)
  | none => s.rlbFill core vf h a r

/-- The physical address of an element that an RLB entry serves. -/
def State.elementPa (s : State) (vf : Nat) (a : EArray) (e : Rlb) (r : Nat) : Nat :=
  s.slabAddr vf a.die e.slab + a.esize * (r - e.lo)

/-- The physical address of an element, through the RLB. -/
def State.elementAddr (s : State) (core vf : Nat) (h : Word) (a : EArray) (r : Nat) : State × Nat :=
  match s.rlbEntry core vf h a r with
  | (s, some e) => (s, s.elementPa vf a e r)
  | (s, none) => (s, 0)

/-- The class of element lines: class T, CLV 01, EVP 00 (R82). -/
abbrev elementLeaf : Word := 0x280

/-- Registers of a group (R94). -/
def EArray.group (a : EArray) : Nat := if a.esize ≤ 8 then 1 else a.esize / 8

/-- The checks of R84 on `eld` and `est`. SX with an element size that is not 4 bytes is UNDEF, a check that comes after those of R37 and
before the table of R84; and RANK of a record is 0 where the check that fails is not one of a lane (DESIGN CHOICE, assumption 130). -/
def Ctx.eaAccess (c : Ctx) (t : State) (store : Bool) (k : BitVec 3) (vt : BitVec 6) (b : BitVec 5) (vo : BitVec 6) (sx : Bool) :
    Except FaultInfo EArray := do
  let h := c.s b
  require (!(sx && ((t.array? c.vf h).any fun x => x.2.size != 0))) { cls := cUNDEF }
  if store then c.eaStaged h 0
  let (_, a) ← c.eaArray t h 0
  require (a.group == 1 || (decide (vt.toNat + a.group ≤ 62) && decide (vt.toNat + a.group ≤ c.team.kernel.vregs)))
    { cls := cREGRANGE, handle := h }
  c.eaScope (c.latchArray t a.bound) h 0
  match (c.lanes k).find? fun l => decide (a.len ≤ (c.v vo l).toNat) with
  | some l => .error (eaFault cERANK 1 h (c.v vo l))
  | none => .ok a

/-- One element is read: its bytes. -/
def Ctx.elementLoad (c : Ctx) (t : State) (h : Word) (a : EArray) (r : Nat) : State × List Byte :=
  let (t, pa) := t.elementAddr c.core c.vf h a r
  t.coreLoad c.core c.vf pa a.esize elementLeaf

/-- One element is written: a class T store (R82). -/
def Ctx.elementStore (c : Ctx) (t : State) (h : Word) (a : EArray) (r : Nat) (bs : List Byte) : State :=
  let t := match t.rlbEntry c.core c.vf h a r with
    | (t, some e) => (t.storeThrough c.core c.vf (t.elementPa c.vf a e r) elementLeaf bs).markSlab c.vf a.die e.slab
    | (t, none) => t
  c.modG t fun g => { g with unacked := g.unacked + 1 }

/-- R94. -/
def execEld (k : BitVec 3) (vt : BitVec 6) (b : BitVec 5) (vo : BitVec 6) (sx : BitVec 1) (cb : BitVec 1) (s : State) : Out :=
  perform (.eld k vt b vo sx cb) (fun c t =>
    match c.eaAccess t false k vt b vo (sx == 1) with
    | .error fi => .trap fi
    | .ok a =>
      let (t, es) := (c.lanes k).foldl (fun (r : State × List (Nat × List Byte)) l =>
        let (t, bs) := c.elementLoad r.1 (c.s b) a (c.v vo l).toNat
        (t, r.2 ++ [(l, bs)])) (t, [])
      let word (bs : List Byte) (j : Nat) : Word :=
        let x := ofBytes ((bs.drop (8 * j)).take 8)
        if a.size = 0 ∧ sx = 1 then ofInt 64 (sext x 32) else BitVec.ofNat 64 x
      let t := c.modG t fun g => (List.range (a.group - 1)).foldl
        (fun g j => g.setVs (vt.toNat + j + 1) (es.map fun e => (e.1, word e.2 (j + 1)))) g
      .vec t vt (es.map fun e => (e.1, word e.2 0))) s

/-- R94. -/
def execEst (k : BitVec 3) (vt : BitVec 6) (b : BitVec 5) (vo : BitVec 6) (cb : BitVec 1) (s : State) : Out :=
  perform (.est k vt b vo cb) (fun c t =>
    match c.eaAccess t true k vt b vo false with
    | .error fi => .trap fi
    | .ok a =>
      let data (l : Nat) : List Byte :=
        if a.group = 1 then toBytes (c.v vt l).toNat a.esize
        else (List.range a.group).flatMap fun j => toBytes (c.vg vt j l).toNat 8
      c.ordered s (.next ((c.lanes k).foldl (fun t l => c.elementStore t (c.s b) a (c.v vo l).toNat (data l)) t))) s

/-- R79: a miss of a core's RLB is filled by a walk at the RTU. -/
def execRlbMissWalk (core vf : Nat) (handle rank : BitVec 64) (s : State) : Out :=
  match s.array? vf handle with
  | none => .fault .notEnabled
  | some (_, a) =>
    if (rlbFind (s.core core).rlb vf handle a.version rank.toNat).isSome then .fault .notEnabled
    else match s.rlbFill core vf handle a rank.toNat with
      | (_, none) => .fault .notEnabled
      | (s, some _) => .next s

end Sys2Proof.Machine
end

