-- ==== Sys2Proof/Machine/Fetch.lean ====
section
/-! DEFINITION. Instruction fetch through the loop buffer and the instruction cache, and the checks of R37 on the words of a
unit (R29, R37, R39, R270, R298). -/

namespace Sys2Proof.Machine

/-- The word of a quadrant's loop buffer at an address of a context (R298). -/
def Quad.loopWord (q : Quad) (vf addr : Nat) : Option IWord :=
  match q.loop with
  | some (v, lo, hi) => if v = vf ∧ lo ≤ addr ∧ addr ≤ hi then SMap.get? q.loopWords addr else none
  | none => none

/-- The loop buffer keeps a fetched word that falls within it. -/
def Quad.keepWord (q : Quad) (vf addr : Nat) (w : IWord) : Quad :=
  match q.loop with
  | some (v, lo, hi) => if v = vf ∧ lo ≤ addr ∧ addr ≤ hi then { q with loopWords := SMap.set q.loopWords addr w } else q
  | none => q

/-- A sector fills into the instruction cache of a core, of 256 lines, from the L2 level (R9, R270). -/
def State.fillICache (s : State) (core vf pa : Nat) (leaf : Word) : State :=
  let l := lineOf (s.core core).icache vf (pa / 256) leaf
  if bit l.valid (pa % 256 / 64) then s
  else
    let s := s.fillRemote (core / 64) vf (pa / 256) (sectorMask (pa % 256) 1) leaf
    let die := core / 64
    let l := l.fill (pa % 256 / 64) fun o => s.l2Byte die vf (pa / 256 * 256 + o)
    s.modCore core fun c =>
      let kept := if (getLine c.icache vf (pa / 256)).isSome || decide (c.icache.length < 256) then c.icache
        else match choose c.icache s.tick with
          | some v => dropLine c.icache v
          | none => c.icache
      { c with icache := putLine kept l }

/-- A fetched word with the state after its fetch, or what made the fetch fail. -/
inductive FetchRes where
  | word (s : State) (w : IWord)
  | fails (l : List PageFail)
  | bad
  /-- An error response (R379). -/
  | bus (s : State)

/-- Fetches the word at an address for a fragment: the loop buffer serves it under the checks that every fetch meets (R298). -/
def Ctx.fetch (c : Ctx) (s : State) (addr : Nat) : FetchRes :=
  if !(canonical addr) then .bad
  else match s.translate c.core c.vf kFetch c.priv [⟨addr, 4, 0⟩] with
    | .error l => .fails l
    | .ok xs =>
      let s := s.useXlats c.core c.vf kFetch xs
      let x := findXlat xs addr
      let pa := x.pa addr
      if s.absent pa then .bus s
      else match ((s.core c.core).quad c.gang.quad).loopWord c.vf addr with
        | some w => .word s w
        | none =>
          let s := s.fillICache c.core c.vf pa x.leaf
          let l := lineOf (s.core c.core).icache c.vf (pa / 256) x.leaf
          let w := BitVec.ofNat 32 (ofBytes (Memory.bytes l.data (pa % 256) 4))
          .word (s.modQuad c.core c.gang.quad fun q => q.keepWord c.vf addr w) w

/-- What the fetch of the current fragment's next word comes to: an instruction to perform, or a step that is complete. -/
inductive Fetched where
  | run (i : Instr) (s : State)
  | done (s : State)

/-- A scope latched under a write of an entry older than write n (R257). -/
def Latched.older (l : Latched) (entry n : Nat) : Bool := decide (l.entry = entry) && decide (l.nth < n)

/-- A copy holds the generation that it latched (R257): until its completion release, or until its token where it has none. -/
def Copy.holdsScope (c : Copy) : Bool := !c.released || c.shape.dspace == 1 || c.shape.dspace == 2

/-- Some operation of a context still holds a generation of a scope entry older than that of its write n (R257): a copy in flight, a
pending release, an `icinv`, or an operation in an RTU's queue. -/
def State.oldGen (s : State) (vf entry n : Nat) : Bool :=
  let old (l : Latched) : Bool := l.older entry n
  (s.cores.any fun p => p.2.copies.any fun c => decide (c.2.vf = vf) && c.2.holdsScope && old c.2.scope)
    || (s.icinvs.any fun p => decide (p.2.vf = vf) && old p.2.scope)
    || s.teams.any fun t => decide (t.2.vf = vf) && t.2.gangs.any fun x =>
        x.2.releases.any old || x.2.frags.any fun f => match f.2.wait with | some (.rtu _ l m _ _) => old l || old m | _ => false

/-- The wait of a `swr` ends where no operation holds an old generation (R273): RLB entries that old operations filled meanwhile are
invalidated in every core (R81). -/
def State.pollScopeWrite (s : State) (r : Ref) (entry sd n : Nat) : State :=
  let vf := ((s.team? r.team).map Team.vf).getD 0
  if s.oldGen vf entry n then s
  else
    let own := ((((s.gang? r.team r.gang).bind fun x => x.frag? r.frag).map Fragment.handler)).getD false
    (s.dropBoundRlb vf entry (BitVec.ofNat 256 (2 ^ 256 - 1))).modGang r.team r.gang fun x =>
      (x.setOwn own sd (BitVec.ofNat 64 (n % 256))).wake r.frag

/-- A `get` that a `reset` completes (R214): S(sd) := 0, its other registers unchanged, and the unit counted. A handler keeps the gang's
own values of s28 to s31 (R348). -/
def Gang.completeGet (g : Gang) (n sd : Nat) (f : Fragment) (nxt : Word) (chain : Bool) : Gang :=
  let f' := { g.latchFrag f chain none with pc := nxt, hints := [], wait := none }
  ((((g.setOwn f.handler sd 0).countFor f.handler).setFrag n f').arrive n).settle settleFuel

/-- A `get` that a `reset` has completed ends where S(sd) awaits no other result (R108, R133), under the check of R295; with SW = 1 another
gang has the next turn (R34). -/
def State.pollGet (s : State) (r : Ref) (sd : Nat) (word : IWord) (nxt : Word) (chain sw : Bool) : State :=
  match s.gang? r.team r.gang with
  | none => s
  | some g => match g.frag? r.frag with
    | none => s
    | some f =>
      if decide (sd ≠ 0) && (({ g with entries := SMap.erase g.entries r.frag } : Gang).awaits f.handler).contains sd then s
      else if !(g.forUnit f.handler).mayCount then s.takeTrap r { cls := cWATCHDOG } word none
      else
        let s := (s.modGang r.team r.gang fun g => g.completeGet r.frag sd f nxt chain).takeTurn g.core g.quad r f.active
        if sw && !chain then s.giveTurn g.core g.quad r f.active else s

/-- The wait state of a fragment. -/
def State.waitOf (s : State) (r : Ref) : Option Wait := ((s.gang? r.team r.gang).bind fun g => g.frag? r.frag).bind Fragment.wait

/-- Fetches and decodes the next word of a fragment, with the checks of R37 that precede those of the instruction. -/
def State.fetchUnit (s : State) (r : Ref) : Fetched :=
  let s := { s with cur := r, turn := none }
  match s.waitOf r with
  | some (.scopeWrite n sd k) => .done (s.pollScopeWrite r n sd k)
  | some (.getReset sd word nxt chain sw) => .done (s.pollGet r sd word nxt chain sw)
  | _ =>
  let s := s.modFrag r fun f => match f.wait with
    | some w => if w.retries then { f with wait := none } else f
    | none => f
  match s.ctx? with
  | none => .done s
  | some c =>
    let faults (s : State) (fi : FaultInfo) (w : IWord) : Fetched :=
      .done (c.takeTurn (s.takeTrap r fi w none))
    match c.fetch s c.at.toNat with
    | .bad => faults s { cls := cPAGE, fbyte := c.at } 0
    | .fails l =>
      .done (c.takeTurn (s.pageFault r c.core c.gang.quad c.vf kFetch l (failInfo l [⟨c.at.toNat, 4, 0⟩]) 0))
    | .bus s => faults (s.event 1 c.die c.vf cPROT 13 c.at.toNat 0) (.mk' cPROT c.at.toNat) 0
    | .word s w =>
      match decode w with
      | .ok i => .run i s
      | .error .undefinedHintKind => faults s { cls := cUNDEF } w
      | .error _ =>
        if fld w 31 25 = 0x7F then
          .done (({ s with turn := some r }).modFrag r fun f => { f with hints := .bad :: f.hints })
        else faults s { cls := if bit s.emulated (fld w 31 25) then cCOMPAT else cUNDEF } w

end Sys2Proof.Machine
end

