-- ==== Sys2Proof/Machine/Moves.lean ====
section
/-! DEFINITION. What moves next, the passing of time, and the loading of a program from outside (R27, R145, R297, R312, R349). -/

namespace Sys2Proof.Machine

/-- Time passes on a die by one cycle and what the spec leaves open, and budgets count down by the reference counter of the die
where each team, task or grid is (R14, R145, R312). -/
def State.advance (s : State) : State :=
  let ns (d : Nat) : Nat := Config.stepNs d s.tick
  let spend (d : Nat) (b : Option Nat) : Option Nat := b.map fun n => n - ns d
  { s with
    tick := s.tick + 1
    dies := (List.range 4).foldl (fun m d =>
      let x := SMap.getD m d Die.reset
      SMap.set m d { x with
        cycle := x.cycle + 1 + Config.stepCycles d s.tick
        ref := x.ref + ns d
        tasks := SMap.mapVals x.tasks fun _ t => { t with budget := spend t.home t.budget } }) s.dies
    teams := SMap.mapVals s.teams fun _ t => { t with budget := spend (t.core / 64) t.budget }
    grids := SMap.mapVals s.grids fun _ g => { g with
      budget := spend g.die g.budget
      waiting := g.waiting.map fun w => { w with budget := spend w.die w.budget } } }

/-- A fragment whose unit has issued and completes by itself: nothing but the result it waits for holds it up (R214, R273, R349). -/
def Fragment.completing (f : Fragment) : Bool :=
  match f.wait with
  | some (.scopeWrite _ _ _) | some (.getReset _ _ _ _ _) => true
  | _ => false

/-- A fragment that could issue by its own state (R297): it does not wait, or its wait ends by trying the unit again. -/
def Fragment.issuable (f : Fragment) : Bool :=
  match f.wait with
  | none => true
  | some w => w.retries

/-- The fragments of a gang that may move: those whose unit completes, also while a page fault suspends the gang (R63) or its handler
runs (R349), and else, in handler mode, those of the handler alone. -/
def Gang.candidates (g : Gang) : List (Nat × Fragment) :=
  g.frags.filter fun p => p.2.completing || (!g.suspended && p.2.issuable && (g.handler.isNone || p.2.handler))

/-- A wait within a chain during which other gangs and siblings may issue (R27). -/
def Wait.open? : Wait → Bool
  | .queue _ | .barrier _ _ | .merge _ _ _ _ _ _ => true
  | _ => false

/-- The fragments of a gang that hold open chains (R27): not those whose chain a trap or a suspension has saved (R28). -/
def Gang.chainHolders (g : Gang) : List (Nat × Fragment) :=
  if g.suspended then []
  else g.frags.filter fun p => decide (p.2.pos > 1) && (match p.2.wait with
    | some .trapped => false
    | _ => g.handler.isNone || p.2.handler)

/-- Whether an open chain, with what it waits for, lets a fragment issue (R27): the chain's own fragment; any while it waits on a queue,
a barrier or `cmrg.get`; those of other gangs while it waits on anything else. -/
def chainAllows (holder : Ref × Option Wait) (r : Ref) : Bool :=
  decide (r = holder.1) || (match holder.2 with
    | none => false
    | some w => w.open? || !(decide (r.team = holder.1.team) && decide (r.gang = holder.1.gang)))

/-- The resident gangs of a quadrant whose team runs. -/
def State.residents (s : State) (core quad : Nat) : List (Nat × Nat × Gang) :=
  s.teams.flatMap fun t =>
    if t.2.status = .running ∧ t.2.stopped = none then
      (t.2.gangs.filter fun g => decide (g.2.core = core) && decide (g.2.quad = quad)).map fun g => (t.1, g.1, g.2)
    else []

/-- Whether a virtual function may issue on a quadrant (R360, R378). -/
def Core.quadServes (c : Core) (quad vf : Nat) : Bool :=
  !(bit c.qown 63) || (slice c.qown (5 * quad + 4) (5 * quad) == 16 + vf)

/-- Fragments of resident gangs with their names. -/
def named (rs : List (Nat × Nat × Gang)) (f : Gang → List (Nat × Fragment)) : List (Ref × Fragment) :=
  rs.flatMap fun x => (f x.2.2).map fun p => (({ team := x.1, gang := x.2.1, frag := p.1 } : Ref), p.2)

/-- The quadrants on which some gang is resident. -/
def State.busyQuads (s : State) : List (Nat × Nat) :=
  (s.teams.flatMap fun t => t.2.gangs.map fun g => (g.2.core, g.2.quad)).foldl
    (fun l q => if l.contains q then l else l ++ [q]) []

/-- A step that an agent inside the package takes by itself, by the name and with the operands of its row of the opcode table; and
`riscvStep`, an instruction of replacement firmware (R326), which has no row. -/
inductive Agent where
  | copyFrameTake (team gang frag : Nat)
  | copyElementMove (core id : Nat)
  | frameReturn (core id frame : Nat)
  | copyCompletionRelease (core id : Nat)
  | tokenWrite (core id : Nat)
  | copyStop (core id code : Nat)
  | faultQueuePost (vf : Nat)
  | instructionReplay (team gang : Nat)
  | sectorFill (core line sector : Nat)
  | lineEviction (level owner line : Nat)
  | releaseCompletion (team gang : Nat)
  | classTStoreAck (team gang : Nat)
  | accUnitsReturn (core quad : Nat)
  | surgeWindow (die : Nat)
  | surgeRamp (team gang frag : Nat)
  | rtuOperation (die : Nat)
  | compactorMove (team gang base : Nat)
  | rcgEpochEnd (die : Nat)
  | deadlineExpiry (team : Nat)
  | teamEndForFault (team cls : Nat)
  | teamDispatch (grid core : Nat)
  | taskDispatch (die core : Nat)
  | teamRetirement (team : Nat)
  | teamDiscard (team code : Nat)
  | gridEnd (grid : Nat)
  | preempt (team : Nat)
  | teamRestore (team core : Nat)
  | teamMigrate (die slot dest : Nat)
  | sliceEnd (vf core : Nat)
  | tlbiDone (die : Nat)
  | gpop (die : Nat)
  | riscvStep (die : Nat)
  | gateOpenEntry (die : Nat)
  | gateRouteEntry (die : Nat)
  | gateFlushEntry (die : Nat)
  | cellReceive (die : Nat) (cell : List (BitVec 8))
  | rowDelivery (die flow : Nat)
  | cellAcknowledged (die dest flow seq cidx : Nat)
  | invalidationReachesCore (id core : Nat)
deriving DecidableEq, Repr

/-- A move of the machine. -/
inductive Move where
  /-- A fragment issues its next word. -/
  | issue (r : Ref)
  /-- A step of another agent inside the machine. -/
  | agent (a : Agent)
  /-- The outside world does the first thing that the list of inputs names. -/
  | input
deriving DecidableEq, Repr

/-- A core's page as the loaded program uses it: 64 KiB, valid, writable, executable, accessed and dirty. -/
def loadLeaf : Word := 0x10006F

/-- A kernel of the greatest width, allotment and local sizes that a one-gang program may use. -/
def loadKernel : Kernel :=
  { entry := 0, width := 64, vregs := 62, bars := 32, queues := 8, lane := 4096, twin := false, chamber := 131072, gallery := 0 }

/-- A gang at its start (R16, R135, R146, R295, R346): one fragment with every lane at the entry address. -/
def Gang.start (k : Kernel) (pc : Word) (core quad regBase regSize : Nat) : Gang :=
  { vregs := [], sregs := [], kregs := [], accs := [], fpm := 0, flags := 0, unread := 0,
    entries := [(0, .frag (.start pc (fullMask k.width) none false))], handler := none, bindings := [], pending := [],
    wcount := 0, wbudget := 65536, lane := [], releases := [], unacked := 0, core, quad, regBase, regSize }

/-- A team at its dispatch, but for what a launch or task record fixes. -/
def Team.start (own : Owning) (vf : Nat) (k : Kernel) (core : Nat) : Team :=
  { own, index := 0, vf, kernel := k, status := .running, argp := 0, tenant := 0, slots := List.replicate 8 0, det := false,
    staged := false, coop := false, group := none, core, twin := none, chBase := 0, chSize := 0, laneBase := 0, laneSize := 0,
    chamber := [], frames := [], gangs := [], bars := [], queues := [], fbase := 0, faultBlock := none, seq := 0,
    staging := ⟨[], [], [], [], 0⟩, budget := none, prio := 0, since := 0, stopped := none }

/-- A one-gang team of virtual function 0 is loaded at virtual address 0 on core 0, with page tables for one page (assumption 2
says which steps load a program from reset). -/
def State.loadTeam (s : State) : State :=
  let t := SMap.freshFrom s.teams 0
  let g := SMap.freshFrom s.grids 1
  let team := { Team.start (.grid g) 0 loadKernel 0 with
    chSize := 64, laneBase := 64, laneSize := 128, gangs := [(0, Gang.start loadKernel 0 0 0 0 16)] }
  let grid : Grid := {
    vf := 0, die := 0, kernel := loadKernel, teams := 1, gangs := 1, clgrp := 0, argp := 0, statusAddr := 0,
    prio := 0, tenant := 0, det := false, staged := false, coop := false, twin := false, cluster := false,
    slots := List.replicate 8 0, donec := none, budget := none, next := 1, logical := [], detNext := [],
    waiting := [], scopes := [], finished := 0, nbad := 0, firstBad := 0, badCode := 0,
    arrival := 0, digest := 0, serial := false, savedGroups := [] }
  let mem := Memory.store (Memory.store (Memory.store s.mem 0x10000 (toBytes 0x20001 8)) 0x20000 (toBytes 0x30001 8)) 0x30000
    (toBytes loadLeaf.toNat 8)
  { (s.modVf 0 fun v => v.setCfg 0 8 0x10000) with
    mem := mem, teams := SMap.set s.teams t team, grids := SMap.set s.grids g grid, cur := ⟨t, 0, 0⟩, turn := some ⟨t, 0, 0⟩ }

/-- The page from which the fragment whose turn it is fetches, and the physical address, where it has one. -/
def State.fetchAddr (s : State) : Option (Xlat × Nat) :=
  match s.turn with
  | none => none
  | some r =>
    match ({ s with cur := r }).ctx? with
    | none => none
    | some c =>
      if !(canonical c.at.toNat) then none
      else match s.xlate c.core c.vf c.at.toNat kFetch c.priv with
        | .ok x => some (x, x.pa c.at.toNat)
        | .error _ => none

/-- The words stand where the next word is fetched, and no instruction cache holds older ones. -/
def State.placeCode (s : State) (bs : List Byte) : State :=
  let s := match s.fetchAddr with
    | some _ => s
    | none => s.loadTeam
  match s.turn, s.fetchAddr with
  | some r, some (x, pa) =>
    let core := ((s.gang? r.team r.gang).map Gang.core).getD 0
    let quad := ((s.gang? r.team r.gang).map Gang.quad).getD 0
    let vf := ((s.team? r.team).map Team.vf).getD 0
    let s := ({ s with board := { s.board with held := false } }).storeThrough core vf pa x.leaf bs
    let s := s.modCore core fun c => { c with icache := dropLine c.icache (.empty vf (pa / 256) 0) }
    s.modQuad core quad fun q => { q with loop := none, loopWords := [] }
  | _, _ => s

end Sys2Proof.Machine
end

