-- ==== Sys2Proof/Machine/Shapes.lean ====
section
/-! DEFINITION. Shape records (R96 to R102, R110): their fields, the offsets of malformed bytes, and the moves that a copy makes. -/

namespace Sys2Proof.Machine

/-- An unsigned field of a record. -/
def fieldAt (bs : List Byte) (off n : Nat) : Nat := ofBytes ((bs.drop off).take n)

/-- The offset of the lowest nonzero byte of a value that stands at an offset: none where it is zero. -/
def lowByte (v off : Nat) : Nat → Option Nat
  | 0 => none
  | n + 1 => if v % 256 ≠ 0 then some off else lowByte (v / 256) (off + 1) n

/-- The offset of a condition that fails. -/
def badIf (b : Bool) (off : Nat) : List Nat := if b then [off] else []

/-- A record's fields (R97); `kind` 0 `tcopy`, 1 `tgath`, 2 `trag`. -/
def Shape.parse (kind : Nat) (bs : List Byte) : Shape :=
  let ctrl := fieldAt bs 16 8
  let nd := if kind = 2 then 2 else min (ctrl % 16) 8
  { sbase := fieldAt bs 0 8, dbase := fieldAt bs 8 8, aux := fieldAt bs 24 8, scope := ctrl / 2 ^ 32 % 8
    mcast := ctrl / 2 ^ 24 % 256, slot := ctrl / 2 ^ 17 % 8, cvt := ctrl.testBit 16, esize := ctrl / 2 ^ 13 % 8
    planar := ctrl.testBit 12, layout := ctrl / 2 ^ 10 % 4, dspace := ctrl / 2 ^ 7 % 8, sspace := ctrl / 16 % 8, ndim := ctrl % 16
    sizes := (List.range nd).map fun d => fieldAt bs (32 + 12 * d) 4
    strides := (List.range nd).map fun d => sext (fieldAt bs (36 + 12 * d) 6) 48
    side := if kind = 2 then fieldAt bs 56 4 else 0 }

/-- Extent of dimension d. -/
def Shape.size (x : Shape) (d : Nat) : Nat := (x.sizes[d]?).getD 1
/-- Stride of dimension d. -/
def Shape.stride (x : Shape) (d : Nat) : Int := (x.strides[d]?).getD 0
/-- Global memory or Grotto. -/
def spaceFar (sp : Nat) : Bool := sp == 0 || sp == 3
/-- Chamber or Gallery. -/
def spaceNear (sp : Nat) : Bool := sp == 1 || sp == 2
/-- The strided side is the source (R96). -/
def Shape.stridedSource (x : Shape) : Bool := spaceFar x.sspace
/-- Bytes of a source element; a planar group of four elements has its own rule (R101). -/
def Shape.srcSize (x : Shape) : Nat := 2 ^ x.esize
/-- Bytes of a destination element (R100). -/
def Shape.dstSize (x : Shape) (slot : Word) : Nat := if x.cvt then storeSize (slotFmt slot) else 2 ^ x.esize
/-- Bytes of an element on the local side (R98). -/
def Shape.localSize (x : Shape) (slot : Word) : Nat := if x.stridedSource then x.dstSize slot else x.srcSize
/-- The local side's elements have a size: neither ESIZE nor the format is a reserved value (R97, R100). -/
def Shape.sized (x : Shape) (slot : Word) : Bool :=
  if x.cvt && x.stridedSource then (storeFmt (slotFmt slot)).isSome else decide (x.esize ≤ 3)
/-- The base of the local side. -/
def Shape.localBase (x : Shape) : Nat := if x.stridedSource then x.dbase else x.sbase
/-- The base of the strided side. -/
def Shape.stridedBase (x : Shape) : Nat := if x.stridedSource then x.sbase else x.dbase
/-- The space of the local side. -/
def Shape.localSpace (x : Shape) : Nat := if x.stridedSource then x.dspace else x.sspace
/-- The space of the strided side. -/
def Shape.stridedSpace (x : Shape) : Nat := if x.stridedSource then x.sspace else x.dspace
/-- rowbytes (R98). -/
def Shape.rowBytes (x : Shape) (slot : Word) : Nat := x.size 0 * x.localSize slot
/-- The pitch of the bank-interleaved layout: the least 64(32m + 1) that holds a row (R99). -/
def rowPitch (rowbytes : Nat) : Nat := 64 * (32 * ((((rowbytes + 63) / 64 - 1) + 31) / 32) + 1)
/-- LAYOUT (R99): the local address of byte b of row rw. -/
def Shape.place (x : Shape) (slot : Word) (rw b : Nat) : Nat :=
  match x.layout with
  | 0 => x.localBase + rw * x.rowBytes slot + b
  | 2 => x.localBase + rw * rowPitch (x.rowBytes slot) + b
  | _ => x.localBase + 64 * rw + 16 * ((b / 16) ^^^ (rw % 4)) + b % 16

/-- The pairs of R96. -/
def Shape.pairOk (x : Shape) : Bool :=
  (spaceFar x.sspace && spaceNear x.dspace) || (spaceNear x.sspace && spaceFar x.dspace)
    || (x.sspace == 0 && x.dspace == 3) || (x.sspace == 3 && x.dspace == 0)

/-- The cores that a multicast names (R102). -/
def mcastCores (mask core : Nat) : List Nat :=
  ((List.range 8).filter fun i => mask.testBit i).map fun i => core / 8 * 8 + i

/-- The offsets of a record that R110, order 3, finds malformed: n is the count of a `tgath`. A reserved LAYOUT or size asks nothing of the
bases. Of a field of several bytes that breaks a requirement the first byte is recorded (DESIGN CHOICE, assumption 114). -/
def shapeBad (kind : Nat) (bs : List Byte) (x : Shape) (slot : Word) (group : Option (List Nat)) (core w n : Nat) : List Nat :=
  let ctrl := fieldAt bs 16 8
  let nd := x.ndim
  let es := x.localSize slot
  (lowByte (ctrl / 2 ^ 35 * 2 ^ 35) 16 8).toList
    ++ badIf (decide (ctrl / 2 ^ 20 % 16 ≠ 0)) 18
    ++ badIf (decide (nd = 0) || decide (8 < nd)) 16
    ++ badIf (!x.pairOk) 16
    ++ badIf (x.layout == 3 || (spaceFar x.sspace && spaceFar x.dspace && x.layout != 0)) 17
    ++ badIf (decide (3 < x.esize)) 17
    ++ badIf (x.cvt && x.esize != 2) 17
    ++ badIf (if x.cvt then (storeFmt (slotFmt slot)).isNone else x.slot != 0) 18
    ++ (if x.mcast = 0 then [] else
      badIf (x.dspace != 2 || (match group with
        | none => true
        | some l => (mcastCores x.mcast core).any fun c => !(l.contains c))) 19
      ++ badIf (decide (x.dbase / 2 ^ 32 % 8 ≠ 0)) 12)
    ++ ((List.range (if kind = 2 then 2 else 8)).flatMap fun d =>
      let sz := fieldAt bs (32 + 12 * d) 4
      let st := fieldAt bs (36 + 12 * d) 8
      if d < nd then badIf (sz == 0) (32 + 12 * d) ++ (lowByte (st / 2 ^ 48 * 2 ^ 48) (36 + 12 * d) 8).toList
      else (lowByte sz (32 + 12 * d) 4).toList ++ (lowByte st (36 + 12 * d) 8).toList)
    ++ (match kind with
      | 0 => if x.planar then [] else (lowByte x.aux 24 8).toList
      | 1 => (lowByte (x.aux / 2 ^ 32 * 2 ^ 32) 24 8).toList
          ++ badIf (nd != 2 || !(spaceFar x.sspace) || !(spaceNear x.dspace)) 16
          ++ badIf (x.size 1 != 1) 44 ++ badIf (x.layout != 2) 17 ++ badIf x.cvt 18 ++ badIf x.planar 17
          ++ badIf (decide (2 * w < n)) 0
      | _ => (lowByte (x.aux / 2 ^ 48 * 2 ^ 48) 24 8).toList
          ++ badIf (decide (x.aux % 8 ≠ 0)) 24
          ++ badIf (nd != 2 || !(spaceFar x.sspace) || x.dspace != 1) 16
          ++ badIf (x.mcast != 0) 19
          ++ badIf (decide (x.side % 2 ≠ 0)) 56
          ++ (lowByte (fieldAt bs 60 68) 60 68).toList)
    ++ (if x.planar then
      badIf (nd != 1) 16 ++ badIf (x.stride 0 != 1) 36 ++ badIf (decide (x.size 0 % 4 ≠ 0)) 32
        ++ badIf (if x.cvt then x.esize != 2 else x.esize != 0) 17
        ++ badIf (x.cvt && slotFmt slot != 5) 18 ++ badIf (x.cvt && x.stridedSource) 16
      else [])
    ++ (let base := x.localBase
      let off := if x.stridedSource then 8 else 0
      match x.layout with
      | 0 => badIf (x.sized slot && decide (base % es ≠ 0)) off
      | 1 => badIf (decide (base % 256 ≠ 0)) off ++ badIf (x.sized slot && decide (x.rowBytes slot ≠ 64)) 32
      | 2 => badIf (decide (base % 2048 ≠ 0)) off
      | _ => [])

/-! ### Moves -/

/-- One side of a move: a space, the addresses of its bytes, lowest first. -/
structure Side where
  space : Nat
  addrs : List Nat
deriving DecidableEq, Repr

/-- One move of a copy: its source, or none for zero or given bytes; its destination; the given bytes; and whether its bytes count
in the token. -/
structure MoveOf where
  src : Option Side
  dst : Side
  fill : List Byte
  counted : Bool
deriving DecidableEq, Repr

/-- n bytes from an address. -/
def bytesFrom (a n : Nat) : List Nat := (List.range n).map fun i => a + i

/-- The index of dimension d at position q. -/
def digitAt (sizes : List Nat) (q : Nat) : List Nat :=
  match sizes with
  | [] => []
  | s :: ss => q % s :: digitAt ss (q / s)

/-- The strided address of element q (R98), mod 2^64. -/
def Shape.strided (x : Shape) (q : Nat) : Nat :=
  (BitVec.ofInt 64 ((x.stridedBase : Int) +
    (((digitAt x.sizes q).zip x.strides).map fun p => (p.1 : Int) * p.2).foldl (· + ·) 0)).toNat

/-- Element t of source row r (R115, R116), mod 2^64. -/
def Shape.rowElem (x : Shape) (r t : Nat) : Nat :=
  (BitVec.ofInt 64 ((x.stridedBase : Int) + (r : Int) * x.stride 1 + (t : Int) * x.stride 0)).toNat

/-- The plane addresses of a group of four planar elements (R101): two nibble bytes, then one two-bit byte. R98 gives the order of element
writes to one byte, and planar elements share their bytes: where the planes of a copy overlap, each group writes its bytes in this order
(DESIGN CHOICE, assumption 102). -/
def Shape.planarAddrs (x : Shape) (g : Nat) : List Nat :=
  [(x.stridedBase + 2 * g) % 2 ^ 64, (x.stridedBase + 2 * g + 1) % 2 ^ 64, (x.aux + g) % 2 ^ 64]

/-- The two sides of an element, from its strided and local addresses. -/
def Shape.sides (x : Shape) (slot : Word) (far near : Nat) : MoveOf :=
  if x.stridedSource then ⟨some ⟨x.sspace, bytesFrom far x.srcSize⟩, ⟨x.dspace, bytesFrom near (x.dstSize slot)⟩, [], true⟩
  else ⟨some ⟨x.sspace, bytesFrom near x.srcSize⟩, ⟨x.dspace, bytesFrom far (x.dstSize slot)⟩, [], true⟩

/-- Moves in all: elements, planar groups of four elements, rows, and the side ids of a ragged copy. -/
def moveCount (x : Shape) (kind rows sides : Nat) : Nat :=
  if kind = 0 then (if x.planar then x.size 0 / 4 else x.sizes.foldl (· * ·) 1) else rows * x.size 0 + sides

/-- Move q of a copy (R98, R101, R115, R116). -/
def moveAt (x : Shape) (slot : Word) (kind : Nat) (rows : List (Option Nat)) (sides : List Nat) (q : Nat) : MoveOf :=
  if kind = 0 then
    if x.planar then
      let near : Side := ⟨x.localSpace, (List.range 4).flatMap fun j =>
        bytesFrom (x.place slot 0 ((4 * q + j) * x.localSize slot)) (x.localSize slot)⟩
      let far : Side := ⟨x.stridedSpace, x.planarAddrs q⟩
      if x.stridedSource then ⟨some far, near, [], true⟩ else ⟨some near, far, [], true⟩
    else x.sides slot (x.strided q) (x.place slot (q / x.size 0) (q % x.size 0 * x.localSize slot))
  else if q < rows.length * x.size 0 then
    let rw := q / x.size 0
    let near := x.place slot rw (q % x.size 0 * x.localSize slot)
    match (rows[rw]?).getD none with
    | some r => x.sides slot (x.rowElem r (q % x.size 0)) near
    | none => ⟨none, ⟨x.dspace, bytesFrom near (x.dstSize slot)⟩, List.replicate (x.dstSize slot) 0, false⟩
  else
    let p := q - rows.length * x.size 0
    ⟨none, ⟨1, bytesFrom (x.side + 2 * p) 2⟩, toBytes ((sides[p]?).getD 0) 2, false⟩

end Sys2Proof.Machine
end

