-- ==== Sys2Proof/Machine/Copies.lean ====
section
/-! DEFINITION. The tensor copy engine (R95 to R117): the copy instructions, the frames they take, and the steps of the engine. -/

namespace Sys2Proof.Machine

/-! ### Frames -/

/-- The frames of one byte of a local side: on each core of a multicast (R102, R103). -/
def bytesFrames (team core mcast sp a : Nat) : List FrameId :=
  match sp with
  | 1 => [⟨false, team, a / 2048⟩]
  | 2 => if mcast = 0 then [⟨true, core / 8 * 8 + a / 2 ^ 32 % 8, a % 2 ^ 19 / 2048⟩]
         else (mcastCores mcast core).map fun c => ⟨true, c, a % 2 ^ 19 / 2048⟩
  | _ => []

/-- The frames of one side of a move. -/
def Side.frames (x : Side) (team core mcast : Nat) : List FrameId :=
  x.addrs.flatMap fun a => bytesFrames team core mcast x.space a

/-- A list without repeats, in the order of first places. -/
def distinct {α : Type} [DecidableEq α] (l : List α) : List α := l.foldl (fun m x => if m.contains x then m else m ++ [x]) []

/-- Sets the owner state of a frame; none is T (R103). -/
def State.setOwner (s : State) (f : FrameId) (o : Option Owner) : State :=
  let put (m : SMap Owner) : SMap Owner := match o with | some x => SMap.set m f.frame x | none => SMap.erase m f.frame
  if f.gal then s.modCore f.owner fun c => { c with galFrames := put c.galFrames }
  else s.modTeam f.owner fun t => { t with frames := put t.frames }

/-- Every destination frame is T and every source frame is T or ER (R104). -/
def State.framesFree (s : State) (cp : Copy) : Bool := cp.dst.all s.frameT && cp.src.all fun f => !(s.frameEW f)

/-- A register awaits a token: of the gang or the handler, or of the gang's values that a handler keeps (R108, R348). -/
def Gang.awaitToken (g : Gang) (sd : Nat) (banked : Bool) : Gang :=
  if sd = 0 then g
  else match g.handler with
    | none => { g with pending := g.pending ++ [sd] }
    | some h =>
      if banked || decide (sd < 28) then { g with pending := g.pending ++ [sd] }
      else { g with handler := some { h with pending := h.pending ++ [sd] } }

/-- The issue step of R104: the frames are taken, the scope is latched, the token register awaits its token, and the copy is in
flight, numbered in issue order (R95). -/
def State.startCopy (s : State) (core : Nat) (cp : Copy) : State :=
  let s := cp.dst.foldl (fun s f => s.setOwner f (some ⟨true, 0⟩)) s
  let s := cp.src.foldl (fun s f => s.setOwner f (some ⟨false, ((s.owner? f).map Owner.readers).getD 0 + 1⟩)) s
  let cp := { cp with scope := s.latch cp.vf core cp.scope.entry }
  let s := s.modCore core fun c => { c with copies := SMap.set c.copies ((c.copies.map Prod.fst).foldl max 0 + 1) cp }
  if cp.sd = 0 then s else s.modGang cp.team cp.gang fun g => g.awaitToken cp.sd cp.banked

/-! ### Issue -/

/-- A record read by a gang as one load through its L1 (R97, R317): 64-byte alignment, then pages. -/
def Ctx.readRecord (c : Ctx) (t : State) (a n : Nat) : Except Res (State × List Byte) :=
  if a % 64 ≠ 0 then .error (.trap (.mk' cALIGN a))
  else
    match c.reach t kLoad 64 ((List.range (n / 64)).map fun i => (a + 64 * i) % 2 ^ 64) with
    | .error r => .error r
    | .ok (t, xs) => .ok ((linePieces a n).foldl (fun (r : State × List Byte) p =>
        let (t, bs) := c.loadOne r.1 xs (p.1 % 2 ^ 64) p.2
        (t, r.2 ++ bs)) (t, []))

/-- The accesses of one side of a move to global memory, with their planes (R101). -/
def Side.accs (x : Side) (planar : Bool) : List Acc3 :=
  if x.space ≠ 0 then []
  else match planar, x.addrs with
    | true, [a, b, p] => [⟨a, 1, 1⟩, ⟨b, 1, 1⟩, ⟨p, 1, 2⟩]
    | _, a :: _ => [⟨a, x.addrs.length, 0⟩]
    | _, [] => []

/-- The two sides of a move that stand in the far spaces or the near ones. -/
def MoveOf.all (m : MoveOf) : List Side := m.src.toList ++ [m.dst]

/-- A failing byte that no walk can cure: not canonical, or outside a Grotto window (R56, R122): address, class and plane. -/
def Ctx.hardFails (c : Ctx) (t : State) (planar : Bool) (ms : List MoveOf) (near : Nat → Bool) : List (Nat × Nat × Nat) :=
  ms.flatMap fun m => m.all.flatMap fun x =>
    if x.space = 0 then (x.accs planar).filterMap fun a => if canonical a.va then none else some (a.va, cPAGE, a.plane)
    else if x.space = 3 && !(near 3) then
      x.addrs.filterMap fun a => if c.inRange t 3 a 1 then none else some (a, cPROT, 0)
    else []

/-- The first of two failures: the lower byte, of either plane (R110). -/
def firstFail (x y : Nat × Nat × Nat) : Nat × Nat × Nat := if y.1 < x.1 then y else x

/-- The lowest failing byte of a copy over all pages that fail, with its class and its plane (R110). -/
def copyFailInfo (fails : List PageFail) (accs : List Acc3) : FaultInfo :=
  let one (p : Nat) : List (Nat × Nat × Nat) :=
    if fails.any fun f => f.plane == p then
      let fi := failInfo (fails.filter fun f => f.plane == p) (accs.filter fun a => a.plane == p)
      [(fi.fbyte.toNat, fi.cls, p)]
    else []
  match one 0 ++ one 1 ++ one 2 with
  | [] => { cls := cPAGE }
  | x :: xs =>
    let y := xs.foldl firstFail x
    { cls := y.2.1, fbyte := BitVec.ofNat 64 y.1, plane := y.2.2 }

/-- Order 7 of R110 over all moves. R63 does not say which KIND the fault-queue entries of a page that fails at a copy's issue have: all
have 1, load, where the copy reads global memory, else 2, store (DESIGN CHOICE, assumption 83). A window byte that fails where every page
passes leaves the bits that were set (R60). -/
def Ctx.copyPages (c : Ctx) (t : State) (planar : Bool) (ms : List MoveOf) (near : Nat → Bool) : Except Res State :=
  let load := ms.flatMap fun m => (m.src.toList.flatMap fun x => x.accs planar)
  let store := ms.flatMap fun m => m.dst.accs planar
  let kind := if load.isEmpty then kStore else kLoad
  let accs := (load ++ store).filter fun a => canonical a.va
  let hard := c.hardFails t planar ms near
  let hard1 := hard.foldl (fun (b : Option (Nat × Nat × Nat)) x => match b with | none => some x | some y => some (firstFail y x)) none
  match t.translate c.core c.vf kind c.priv accs, hard1 with
  | .ok xs, none => .ok (t.useXlats c.core c.vf kind xs)
  | .ok xs, some h =>
    let fi : FaultInfo := { cls := h.2.1, fbyte := BitVec.ofNat 64 h.1, plane := h.2.2 }
    .error (if hard.any fun x => x.2.1 == cPAGE then .trap fi else .late (c.uncount (t.useXlats c.core c.vf kind xs)) fi)
  | .error l, none => .error (.pages kind l (copyFailInfo l accs))
  | .error l, some h =>
    let fi := copyFailInfo l accs
    let f := (fi.fbyte.toNat, fi.cls, fi.plane)
    if firstFail f h = f then .error (.pages kind l fi)
    else .error (.trap { cls := h.2.1, fbyte := BitVec.ofNat 64 h.1, plane := h.2.2 })

/-- The local bytes that lie outside their range (R110, order 5). -/
def Ctx.nearBad (c : Ctx) (t : State) (x : Shape) (ms : List MoveOf) : List Nat :=
  ms.flatMap fun m => m.all.flatMap fun y =>
    if y.space = 0 ∨ (y.space = 3 ∧ x.localSpace ≠ 3) then []
    else y.addrs.filter fun a =>
      if y.space = 2 ∧ x.mcast ≠ 0 then
        (mcastCores x.mcast c.core).any fun k => !(c.inRange t 2 (a % 2 ^ 32 + a / 2 ^ 35 * 2 ^ 35 + k % 8 * 2 ^ 32) 1)
      else !(c.inRange t y.space a 1)

/-- What the operands of a copy add to its record: the destination rows, the side ids, the token's count, and the offsets of
operands out of range (R115, R116). -/
structure RowPlan where
  rows : List (Option Nat)
  sides : List Nat
  count : Nat
  bad : List Nat
deriving DecidableEq, Repr

/-- The rows of a `tgath` (R115). -/
def Ctx.gatherRows (c : Ctx) (x : Shape) (v : BitVec 6) (n : Nat) : RowPlan :=
  let rows := (List.range n).map fun j =>
    let idx := elem (c.v v (j / 2)) (j % 2) 32
    if bit c.active (j / 2) && decide (idx < x.aux % 2 ^ 32) then some idx else none
  ⟨rows, [], (rows.filter Option.isNone).length, []⟩

/-- The segment list of a `trag` (R116): start row and length of each entry. -/
def Ctx.segments (c : Ctx) (t : State) (x : Shape) : List (Nat × Nat) :=
  (List.range (x.aux / 2 ^ 32)).map fun s =>
    let e := ofBytes (c.localBytes t 1 0 (x.aux % 2 ^ 32 + 8 * s) 8)
    (e % 2 ^ 32, e / 2 ^ 32)

/-- The rows and side ids of a `trag` (R116). -/
def ragRows (x : Shape) (segs : List (Nat × Nat)) : RowPlan :=
  let named := ((List.range segs.length).zip segs)
  let rows := segs.flatMap fun g => (List.range g.2).map fun i => some (g.1 + i)
  let ids := named.flatMap fun p => List.replicate p.2.2 p.1
  let tail := (x.size 1 - rows.length % x.size 1) % x.size 1
  ⟨rows ++ List.replicate tail none, ids ++ List.replicate tail 0xFFFF, tail,
    named.filterMap fun p => if 2 ^ 32 < p.2.1 + p.2.2 then some (x.aux % 2 ^ 32 + 8 * p.1) else none⟩

/-- Side bytes that share a frame with the destination rows (R116). R110 reports the lowest offending byte, and both areas' bytes in a
shared frame could be meant: the model takes those of the side area (DESIGN CHOICE, assumption 84). -/
def sideShares (x : Shape) (slot : Word) (p : RowPlan) : List Nat :=
  let rowMoves := (List.range (p.rows.length * x.size 0)).map fun q => moveAt x slot 2 p.rows p.sides q
  let frames := rowMoves.flatMap fun m => m.dst.addrs.map fun a => a / 2048
  (bytesFrom x.side (2 * p.sides.length)).filter fun a => frames.contains (a / 2048)

/-- Orders 5 to 7 of R110, and the issue step or the wait of R104. -/
def Ctx.issueCopy (c : Ctx) (t : State) (i : Instr) (chain : Bool) (kind : Nat) (d : BitVec 5) (x : Shape) (p : RowPlan) : Res :=
  let slot := c.team.slot x.slot
  let ms := (List.range (moveCount x kind p.rows.length p.sides.length)).map fun q => moveAt x slot kind p.rows p.sides q
  let near (sp : Nat) : Bool := x.localSpace == sp
  let es := if x.planar then 1 else if x.stridedSource then x.srcSize else x.dstSize slot
  match lowestSuch (fun _ => true) (c.nearBad t x ms ++ p.bad ++ (if kind = 2 then sideShares x slot p else [])) with
  | some a => .late (c.uncount t) (.mk' cPROT a)
  | none =>
    if x.stridedBase % es ≠ 0 ∨ x.strides.any (fun st => decide (st % (es : Int) ≠ 0)) then
      .late (c.uncount t) (.mk' cALIGN x.stridedBase)
    else match c.copyPages t x.planar ms near with
      | .error r => r
      | .ok t =>
        let cp : Copy := {
          team := c.ref.team, gang := c.ref.gang, sd := d.toNat, kind := kind, shape := x, rows := p.rows, sides := p.sides
          next := 0
          dst := distinct (ms.flatMap fun m => m.dst.frames c.ref.team c.core x.mcast)
          src := distinct (ms.flatMap fun m => m.src.toList.flatMap fun y => y.frames c.ref.team c.core 0)
          scope := ⟨x.scope, 0, 0, [], 0⟩, bytes := 0, count := p.count, status := 0, released := !(spaceFar x.dspace)
          written := [], vf := c.vf, banked := c.priv, nth := (c.gang.handler.map Handler.nth).getD 0 }
        if t.framesFree cp then .next (t.startCopy c.core cp)
        else .wait (c.uncount t) (.copyFrames cp (wordOf i) c.next chain)

/-- Orders 1 to 4 of R110 on a record, then what the instruction does with it. A check that fails once the record has been read keeps the
accessed bit of its page (R60). -/
def copyOp (i : Instr) (kind : Nat) (d a : BitVec 5) (n : Ctx → Nat) (go : Ctx → State → Shape → Res) (s : State) : Out :=
  perform i (fun c t =>
    let ra := (c.s a).toNat
    if !c.gang.releases.isEmpty then .wait s .release
    else if 32 ≤ (t.core c.core).copies.length then .wait s (.copyIssue d.toNat)
    else match c.readRecord t ra 128 with
      | .error r => r
      | .ok (t, bs) =>
        let x := Shape.parse kind bs
        match lowestSuch (fun _ => true) (shapeBad kind bs x (c.team.slot x.slot) c.team.group c.core c.w (n c)) with
        | some off => .late (c.uncount t) (.mk' cPROT (ra + off))
        | none => if c.team.staged && spaceFar x.dspace then .late (c.uncount t) (.mk' cPROT ra) else go c t x) s

/-- R114. -/
def execTcopy (d a : BitVec 5) (cb : BitVec 1) (s : State) : Out :=
  copyOp (.tcopy d a cb) 0 d a (fun _ => 0) (fun c t x => c.issueCopy t (.tcopy d a cb) (cb == 1) 0 d x ⟨[], [], 0, []⟩) s

/-- R115. -/
def execTgath (d a b : BitVec 5) (v : BitVec 6) (cb : BitVec 1) (s : State) : Out :=
  copyOp (.tgath d a b v cb) 1 d a (fun c => (c.s b).toNat)
    (fun c t x => c.issueCopy t (.tgath d a b v cb) (cb == 1) 1 d x (c.gatherRows x v (c.s b).toNat)) s

/-- R116: the segment list's own bytes are checked and read first (R110). -/
def execTrag (d a : BitVec 5) (cb : BitVec 1) (s : State) : Out :=
  copyOp (.trag d a cb) 2 d a (fun _ => 0) (fun c t x =>
    let list := bytesFrom (x.aux % 2 ^ 32) (8 * (x.aux / 2 ^ 32))
    match lowestSuch (fun b => !(c.inRange t 1 b 1)) list with
    | some b => .late (c.uncount t) (.mk' cPROT b)
    | none =>
      if c.loadWaits t 1 list then .wait s (.copyIssue d.toNat)
      else c.issueCopy t (.trag d a cb) (cb == 1) 2 d x (ragRows x (c.segments t x))) s

/-- The two-bit owner state of a frame as `tstat` reads it (R103, R117). -/
def ownerCode (o : Option Owner) : Nat := match o with | none => 0 | some x => if x.ew then 1 else 2

/-- Owner states of 32 frames (R117). -/
def ownerWord (f : Nat → Option Nat) (start : Word) : Word :=
  pack 2 ((List.range 32).map fun i => (f (start.toNat + i)).getD 3)

/-- R117. -/
def execTstat (d a : BitVec 5) (cb : BitVec 1) (s : State) : Out :=
  perform (.tstat d a cb) (fun c t => .next (c.setS t d (ownerWord (fun n =>
    if n < c.team.chamberBytes / 2048 then some (ownerCode (t.owner? ⟨false, c.ref.team, n⟩)) else none) (c.s a)))) s

/-- R117. In a grid with cluster grouping an S(sb) above 7 names no core, and the record's first faulting byte is S(sb) as well (DESIGN
CHOICE, assumption 133). -/
def execTstatGal (d a b : BitVec 5) (cb : BitVec 1) (s : State) : Out :=
  perform (.tstatGal d a b cb) (fun c t =>
    match c.team.group with
    | none => .trap { cls := cPROT, fbyte := c.s b }
    | some l =>
      let core := c.core / 8 * 8 + (c.s b).toNat % 8
      if 8 ≤ (c.s b).toNat then .trap { cls := cPROT, fbyte := c.s b }
      else .next (c.setS t d (ownerWord (fun n =>
        if n < c.team.kernel.gallery / 2048 ∧ l.contains core then some (ownerCode (t.owner? ⟨true, core, n⟩)) else none) (c.s a)))) s

/-! ### The engine -/

/-- A step that does not come about in the state. -/
def disabled : Out := .fault .notEnabled

/-- A copy of a core. -/
def State.copy? (s : State) (core id : Nat) : Option Copy := SMap.get? (s.core core).copies id
/-- Changes a copy. -/
def State.modCopy (s : State) (core id : Nat) (f : Copy → Copy) : State :=
  s.modCore core fun c => { c with copies := SMap.modify c.copies id f }

/-- The format slot of a copy (R100). -/
def State.copySlot (s : State) (cp : Copy) : Word := ((s.team? cp.team).map fun t => t.slot cp.shape.slot).getD 0
/-- Moves in all of a copy. -/
def Copy.total (cp : Copy) : Nat := moveCount cp.shape cp.kind cp.rows.length cp.sides.length
/-- A copy with no move left. -/
def Copy.done (cp : Copy) : Bool := decide (cp.status ≠ 0) || decide (cp.total ≤ cp.next)

/-- Addresses in order, as runs of bytes that follow each other within one line: first address and length. -/
def lineRuns (as : List Nat) : List (Nat × Nat) :=
  as.foldr (fun a l => match l with
    | [] => [(a, 1)]
    | (b, n) :: rest => if b = a + 1 ∧ b % 256 ≠ 0 then (a, n + 1) :: rest else (a, 1) :: l) []

/-- The page of a byte that the engine reaches in global memory, or the status code that stops the copy (R107). -/
def State.engineXlat (s : State) (core : Nat) (cp : Copy) (kind a : Nat) : Except Nat Xlat :=
  match s.xlate core cp.vf a kind cp.banked with
  | .error _ => .error 1
  | .ok x => if s.absent (x.pa a) then .error 2 else .ok x

/-- n bytes of one line that the engine reads (R109), or the status code that stops the copy. -/
def State.engineRead (s : State) (core : Nat) (cp : Copy) (sp a n : Nat) : Except Nat (State × List Byte) :=
  match sp with
  | 0 => match s.engineXlat core cp kLoad a with
    | .error e => .error e
    | .ok x =>
      let pa := x.pa a
      let s := (s.useXlats core cp.vf kLoad [x]).fillRemote (core / 64) cp.vf (pa / 256) (sectorMask (pa % 256) n) x.leaf
      .ok (s, (List.range n).map fun i => s.l2Byte (core / 64) cp.vf (pa + i))
  | 1 => .ok (s, ((s.team? cp.team).map fun t => Memory.bytes t.chamber a n).getD (List.replicate n 0))
  | 2 => .ok (s, Memory.bytes (s.core (core / 8 * 8 + a / 2 ^ 32 % 8)).gallery (a % 2 ^ 19) n)
  | _ => .ok (s, s.grottoGet cp.vf (grottoDie a) (grottoOff a) n)

/-- Runs of bytes that the engine reads in order. -/
def State.engineRuns (s : State) (core : Nat) (cp : Copy) (sp : Nat) : List (Nat × Nat) → Except Nat (State × List Byte)
  | [] => .ok (s, [])
  | (a, n) :: rs => match s.engineRead core cp sp a n with
    | .error e => .error e
    | .ok (s, b) => match State.engineRuns s core cp sp rs with
      | .error e => .error e
      | .ok (s, bs) => .ok (s, b ++ bs)

/-- Bytes that the engine reads in order. -/
def State.engineReads (s : State) (core : Nat) (cp : Copy) (sp : Nat) (as : List Nat) : Except Nat (State × List Byte) :=
  s.engineRuns core cp sp (lineRuns as)

/-- Bytes of one line that the engine writes to global memory, at the home slice or in the remote partition, with the line and the mask of
the bytes for its release. -/
def State.engineGlobal (s : State) (core : Nat) (cp : Copy) (a : Nat) (bs : List Byte) : Except Nat (State × List (Nat × BitVec 256)) :=
  match s.engineXlat core cp kStore a with
  | .error e => .error e
  | .ok x =>
    let pa := x.pa a
    let s := s.useXlats core cp.vf kStore [x]
    let s := if pteWp x.leaf then s.dieStore (core / 64) cp.vf pa x.leaf bs
             else (spread pa bs).foldl (fun s p => s.l2Write (core / 64) cp.vf p.1 x.leaf p.2) s
    .ok (s, [(pa / 256, byteMask (pa % 256) bs.length)])

/-- Bytes of one line that the engine writes (R102, R109); those to a Gallery share stay whatever becomes of the team (R111). -/
def State.engineWrite (s : State) (core : Nat) (cp : Copy) (sp a : Nat) (bs : List Byte) : Except Nat (State × List (Nat × BitVec 256)) :=
  match sp with
  | 0 => s.engineGlobal core cp a bs
  | 1 => .ok (s.modTeam cp.team fun t => { t with chamber := Memory.store t.chamber a bs }, [])
  | 2 =>
    let cores := if cp.shape.mcast = 0 then [core / 8 * 8 + a / 2 ^ 32 % 8] else mcastCores cp.shape.mcast core
    .ok (cores.foldl (fun s c => s.modCore c fun x => x.galStore 0 (a % 2 ^ 19) bs) s, [])
  | _ => .ok (s.grottoPut cp.vf (grottoDie a) (grottoOff a) bs, [])

/-- Runs of bytes that the engine writes in order, with the bytes of global memory among them, by line. -/
def State.engineStores (s : State) (core : Nat) (cp : Copy) (sp : Nat) :
    List (Nat × Nat) → List Byte → Except Nat (State × List (Nat × BitVec 256))
  | [], _ => .ok (s, [])
  | (a, n) :: rs, bs => match s.engineWrite core cp sp a (bs.take n) with
    | .error e => .error e
    | .ok (s, o) => match State.engineStores s core cp sp rs (bs.drop n) with
      | .error e => .error e
      | .ok (s, os) => .ok (s, o ++ os)

/-- Bytes that the engine writes in order, with the bytes of global memory among them, by line. -/
def State.engineWrites (s : State) (core : Nat) (cp : Copy) (sp : Nat) (ps : List (Nat × Byte)) : Except Nat (State × List (Nat × BitVec 256)) :=
  s.engineStores core cp sp (lineRuns (ps.map Prod.fst)) (ps.map Prod.snd)

/-- Four F6 codes of six bits as two nibble bytes and one two-bit byte (R101). -/
def planarPack (cs : List Nat) : List Byte :=
  toBytes (packNat 4 (cs.map fun c => c % 16)) 2 ++ toBytes (packNat 2 (cs.map fun c => c / 16 % 4)) 1
/-- The four codes of a planar group. -/
def planarUnpack (bs : List Byte) : List Nat :=
  let x := ofBytes bs
  (List.range 4).map fun j => x / 16 ^ j % 16 + 16 * (x / 2 ^ 16 / 4 ^ j % 4)

/-- The bytes that a move writes from those it reads, and whether NVSTORE is set (R100, R101). -/
def Copy.convert (cp : Copy) (slot : Word) (bs : List Byte) : List Byte × Bool :=
  if cp.shape.planar then
    if cp.shape.cvt then
      let rs := (List.range 4).map fun j => narrow (fieldAt bs (4 * j) 4) slot
      (planarPack (rs.map Prod.fst), rs.any fun r => r.2)
    else if cp.shape.stridedSource then ((planarUnpack bs).map (BitVec.ofNat 8), false)
    else (planarPack (bs.map BitVec.toNat), false)
  else if cp.shape.cvt then
    let r := narrow (ofBytes bs) slot
    (toBytes r.1 (storeSize (slotFmt slot)), r.2)
  else (bs, false)

/-- The next move of a copy (R98), or the status code that stops it. -/
def State.nextMoveOf (s : State) (core id : Nat) (cp : Copy) : Except Nat State :=
  let slot := s.copySlot cp
  let m := moveAt cp.shape slot cp.kind cp.rows cp.sides cp.next
  let read : Except Nat (State × List Byte × Bool) := match m.src with
    | none => .ok (s, m.fill, false)
    | some x => match s.engineReads core cp x.space x.addrs with
      | .error e => .error e
      | .ok (s, bs) => .ok (s, cp.convert slot bs)
  match read with
  | .error e => .error e
  | .ok (s, bs, nv) => match s.engineWrites core cp m.dst.space (m.dst.addrs.zip bs) with
    | .error e => .error e
    | .ok (s, masks) =>
      let copies := if m.dst.space = 2 ∧ cp.shape.mcast ≠ 0 then (mcastCores cp.shape.mcast core).length else 1
      let s := if nv then s.modGang cp.team cp.gang fun g => g.raise fNVSTORE else s
      .ok (s.modCopy core id fun c => { c with
        next := c.next + 1
        bytes := if m.counted then c.bytes + copies * bs.length else c.bytes
        written := masks.foldl (fun w x => SMap.set w x.1 (SMap.getD w x.1 0 ||| x.2)) c.written })

/-- A copy may begin (R95): every copy of its core that issued earlier has begun or has nothing left to do. -/
def State.mayBegin (s : State) (core id : Nat) : Bool :=
  (s.core core).copies.all fun c => decide (id ≤ c.1) || decide (c.2.next ≠ 0) || c.2.done

/-- R98, R95. -/
def execCopyElementMove (core id : Nat) (s : State) : Out :=
  match s.copy? core id with
  | none => disabled
  | some cp =>
    if cp.done || !(s.mayBegin core id) then disabled
    else match s.nextMoveOf core id cp with | .error _ => disabled | .ok s => .next s

/-- The first byte of a side that fails in global memory, with the kind of the access and the page's failure, or none where it
receives an error response. -/
def State.sideFail (s : State) (core : Nat) (cp : Copy) (kind : Nat) (x : Side) : Option (Nat × Nat × Option PageFail) :=
  (x.accs cp.shape.planar).findSome? fun a => ((List.range a.n).map fun i => a.va + i).findSome? fun va =>
    match s.xlate core cp.vf va (if kind = 4 then kLoad else kStore) cp.banked with
    | .error f => some (va, kind, some { f with va := va, plane := a.plane })
    | .ok y => if s.absent (y.pa va) then some (va, kind, none) else none

/-- What the next move of a copy fails on. -/
def State.copyFail (s : State) (core : Nat) (cp : Copy) : Option (Nat × Nat × Option PageFail) :=
  let m := moveAt cp.shape (s.copySlot cp) cp.kind cp.rows cp.sides cp.next
  (m.src.bind (s.sideFail core cp 4)).orElse fun _ => s.sideFail core cp 5 m.dst

/-- The first byte of a side of a move that lies in host memory. -/
def State.hostSide (s : State) (core : Nat) (cp : Copy) (kind : Nat) (x : Side) : Option Nat :=
  if x.space ≠ 0 then none
  else x.addrs.find? fun va => match s.xlate core cp.vf va kind cp.banked with
    | .error _ => false
    | .ok y => isHost (y.pa va)

/-- The first byte of the next move of a copy that lies in host memory: the host link may answer with an error (R107). -/
def State.hostByte (s : State) (core : Nat) (cp : Copy) : Option Nat :=
  let m := moveAt cp.shape (s.copySlot cp) cp.kind cp.rows cp.sides cp.next
  (m.src.bind (s.hostSide core cp kLoad)).orElse fun _ => s.hostSide core cp kStore m.dst

/-- What a stop leaves beside the status code: an entry of the fault queue for the host's information (R63), or an event (R376). Of the
entry's UNIT R63 gives bit 7 alone: bits 6:0 are zero (DESIGN CHOICE, assumption 83). -/
def State.copyReport (s : State) (core : Nat) (cp : Copy) : State :=
  match s.copyFail core cp with
  | none => (s.hostByte core cp).elim s fun va => s.event 1 (core / 64) cp.vf 2 0 va 0
  | some (va, _, none) => s.event 1 (core / 64) cp.vf 2 0 va 0
  | some (va, kind, some f) =>
    let s := s.logFails (core / 64) cp.vf [f]
    if !((s.vf cp.vf).fqen) then s
    else
      let tags := freshTags s.tick (s.vf cp.vf).tagsInUse 1
      s.modVf cp.vf fun v => { v with fqWaiting := v.fqWaiting ++ [
        { va := BitVec.ofNat 64 va, vf := cp.vf, origin := core, unit := 128, kind, reason := f.reason, level := f.level,
          plane := f.plane, tag := (tags.head?).getD 0 }] }

/-- R107. Code 1 is that of a page that the next move meets, code 2 that of an absent package or of the host link, which may answer any
access to host memory with an error; a soft error (3) may be found at any time. -/
def execCopyStop (core id code : Nat) (s : State) : Out :=
  match s.copy? core id with
  | none => disabled
  | some cp =>
    if cp.done || !(s.mayBegin core id) then disabled
    else if code = 3 then .next (s.modCopy core id fun c => { c with status := code })
    else match s.nextMoveOf core id cp with
      | .ok _ =>
        if code = 2 ∧ (s.hostByte core cp).isSome then .next ((s.copyReport core cp).modCopy core id fun c => { c with status := code })
        else disabled
      | .error e => if e = code then .next ((s.copyReport core cp).modCopy core id fun c => { c with status := code }) else disabled

/-- Some move that is left touches a frame (R106). -/
def State.frameBusy (s : State) (core : Nat) (cp : Copy) (f : FrameId) : Bool :=
  !cp.done && ((List.range (cp.total - cp.next)).any fun i =>
    let m := moveAt cp.shape (s.copySlot cp) cp.kind cp.rows cp.sides (cp.next + i)
    (m.dst.frames cp.team core cp.shape.mcast).contains f || (m.src.toList.any fun x => (x.frames cp.team core 0).contains f))

/-- R106. `frame` counts the frames that the copy still holds, destinations first. -/
def execFrameReturn (core id frame : Nat) (s : State) : Out :=
  match s.copy? core id with
  | none => disabled
  | some cp =>
    match (cp.dst ++ cp.src)[frame]? with
    | none => disabled
    | some f =>
      if spaceFar cp.shape.dspace then
        if cp.done && cp.released then
          let n := ((s.owner? f).map Owner.readers).getD 0
          .next ((s.setOwner f (if n ≤ 1 then none else some ⟨false, n - 1⟩)).modCopy core id fun c =>
            { c with src := c.src.erase f })
        else disabled
      else if s.frameBusy core cp f then disabled
      else .next ((s.setOwner f none).modCopy core id fun c => { c with dst := c.dst.erase f })

/-- Sectors of which a copy has written bytes leave an L1, whichever context's lines hold them, but for bytes that the core has written
itself (R109). -/
def dropSectors (ls : List Line) (w : SMap (BitVec 256)) : List Line :=
  liveLines (ls.map fun l => match SMap.get? w l.num with
    | none => l
    | some m => ((List.range 4).filter fun x => decide (m &&& byteMask (64 * x) 64 ≠ 0)).foldl Line.dropSector l)

/-- The bytes that a copy has written in global memory, and no others, reach their homes from its die (R109, R261). -/
def State.drainCopy (s : State) (die : Nat) (w : SMap (BitVec 256)) : State :=
  (s.die die).remote.foldl (fun s l => match SMap.get? w l.num with
    | none => s
    | some m => (s.homeBytes l.vf l.num l.leaf (l.dirtyBytes.filter fun p => bit m p.1)).modDie die fun d =>
        { d with remote := liveLines (putLine d.remote (l.cleanBytes m)) }) s

/-- R109. -/
def execCopyCompletionRelease (core id : Nat) (s : State) : Out :=
  match s.copy? core id with
  | none => disabled
  | some cp =>
    if !cp.done || cp.released then disabled
    else
      let s := if 2 ≤ cp.scope.level then s.drainCopy (core / 64) cp.written else s
      let cores := (s.cores.map Prod.fst).filter fun n => bit cp.scope.cores n
      let s := cores.foldl (fun s n => s.modCore n fun c => { c with l1 := dropSectors c.l1 cp.written }) s
      .next (s.modCopy core id fun c => { c with released := true })

/-- The token (R107). A row count above 15 bits and a byte count above 48 bits do not fit their fields: the model takes them mod 2^15 and
mod 2^48 (DESIGN CHOICE, assumption 85). -/
def Copy.token (cp : Copy) : Word :=
  BitVec.ofNat 64 (cp.bytes % 2 ^ 48 + (if cp.status = 0 then cp.count % 2 ^ 15 * 2 ^ 48 else 2 ^ 63 + cp.status % 128 * 2 ^ 56))

/-- Writes a token to the register that awaits it: of the gang, of the run of the handler in which the copy issued, or of the gang's
values that a handler keeps (R108, R348). One of s28 to s31 of an earlier run of the handler is dropped (DESIGN CHOICE, assumption 126). -/
def Gang.giveToken (g : Gang) (cp : Copy) : Gang :=
  let own : Gang := { g.setS cp.sd cp.token with pending := g.pending.erase cp.sd }
  if cp.sd = 0 then g
  else if cp.sd < 28 then own
  else match g.handler with
    | none => if cp.banked then g else own
    | some h =>
      if cp.banked then (if h.nth = cp.nth then own else g)
      else { g with handler := some { h with saved := ZMap.set h.saved cp.sd cp.token, pending := h.pending.erase cp.sd } }

/-- R107, R108. -/
def execTokenWrite (core id : Nat) (s : State) : Out :=
  match s.copy? core id with
  | none => disabled
  | some cp =>
    if !cp.done || !cp.released || !cp.dst.isEmpty || !cp.src.isEmpty then disabled
    else
      let s := s.modGang cp.team cp.gang fun g => g.giveToken cp
      let s := s.modCore core fun c => { c with copies := SMap.erase c.copies id }
      .next (s.settleTeam cp.team)

/-- R104. The copy takes its frames, and the fragment that waited at its issue goes on (R24, R295), letting another gang issue where its
unit asked for that (R34). A handler does not hold up a unit that was in flight at its entry (R349), nor does a page fault of its gang (R63). -/
def execCopyFrameTake (team gang frag : Nat) (s : State) : Out :=
  match s.team? team, s.gang? team gang with
  | some t, some g =>
    match g.frag? frag with
    | some f =>
      match f.wait with
      | some (.copyFrames cp word nxt ch) =>
        if t.status ≠ .running ∨ t.stopped ≠ none ∨ !(s.framesFree cp) ∨ 32 ≤ (s.core g.core).copies.length then disabled
        else
          let r : Ref := ⟨team, gang, frag⟩
          let u := s.takeTurn g.core g.quad r f.active
          if !(g.forUnit f.handler).mayCount then .next (u.takeTrap r { cls := cWATCHDOG } word none)
          else
            let u := (u.startCopy g.core cp).modGang team gang fun g =>
              let f := { g.latchFrag f ch none with pc := nxt, hints := [], wait := none }
              (((g.countFor f.handler).setFrag frag f).arrive frag).settle settleFuel
            .next (if hintSched f.hints && !ch then u.giveTurn g.core g.quad r f.active else u)
      | _ => disabled
    | none => disabled
  | _, _ => disabled

end Sys2Proof.Machine
end

