-- ==== Sys2Proof/Machine/ScopeOps.lean ====
section
/-! DEFINITION. Fences, scope bindings, reads and writes of scope entries, instruction-cache invalidation, and the completions of
releases, class T stores and invalidations (R257, R258, R261, R267, R271 to R275, R81). -/

namespace Sys2Proof.Machine

/-! ### Fences and bindings -/

/-- A fence (R271): the check of R258, then its release and acquire under the scope latched at its issue. A release at level 0
completes at once (R266); the release of `fence.rel` at a higher level completes as a step of its own. -/
def fenceOp (i : Instr) (n : BitVec 3) (rel acq : Bool) (s : State) : Out :=
  perform i (fun c t =>
    match c.stale t n with
    | some fi => .trap fi
    | none =>
      let l := t.latch c.vf c.core n.toNat
      let t :=
        if !rel then t
        else if acq || decide (l.level = 0) then t.gangRelease c.ref.team c.ref.gang c.core l
        else c.modG t fun g => { g with releases := g.releases ++ [l] }
      .next (if acq then t.acquireNow c.core l else t)) s

/-- R271. -/
def execFenceAcq (n : BitVec 3) (cb : BitVec 1) (s : State) : Out := fenceOp (.fenceAcq n cb) n false true s
/-- R271. -/
def execFenceRel (n : BitVec 3) (cb : BitVec 1) (s : State) : Out := fenceOp (.fenceRel n cb) n true false s
/-- R271. -/
def execFenceAcqrel (n : BitVec 3) (cb : BitVec 1) (s : State) : Out := fenceOp (.fenceAcqrel n cb) n true true s

/-- R272. -/
def execSbind (d : BitVec 5) (n : BitVec 3) (cb : BitVec 1) (s : State) : Out :=
  perform (.sbind d n cb) (fun c t =>
    let g := (t.scope c.vf c.core n.toNat).gen
    .next (c.setS (c.modG t fun x => { x with bindings := SMap.set x.bindings n.toNat g }) d (g.setWidth 64))) s

/-- R272. -/
def execSbindClr (n : BitVec 3) (cb : BitVec 1) (s : State) : Out :=
  perform (.sbindClr n cb) (fun c t =>
    .next (c.modG t fun x => { x with bindings := SMap.erase x.bindings n.toNat })) s

/-! ### The scope table -/

/-- The core set of an entry for R81: every core where the entry is invalid (R252). -/
def ScopeEntry.coreSet (e : ScopeEntry) : BitVec 256 := if e.valid then e.cores else BitVec.ofNat 256 (2 ^ 256 - 1)

/-- The indivisible step of a write to an entry (R257), with the invalidations of R81: the state and the number of the write. -/
def State.writeScope (s : State) (vf n image : Nat) : State × Nat :=
  let old := SMap.getD (s.vf vf).scope n .empty
  let new := ScopeEntry.ofImage s.board.pkg image old
  let s := s.modVf vf fun v => { v with scope := SMap.set v.scope n new }
  (s.dropBoundRlb vf n (old.coreSet ||| new.coreSet), new.writes)

/-- R273. The check of R40 on S(sa) is made before this meaning. -/
def execSwr (d a b : BitVec 5) (cb : BitVec 1) (s : State) : Out :=
  perform (.swr d a b cb) (fun c t =>
    if slice (c.s a) 63 3 ≠ 0 then .trap (.mk' cPROT 6)
    else if c.team.staged then .trap (.mk' cPROT 8)
    else match c.readRecord t (c.s b).toNat 64 with
      | .error r => r
      | .ok (t, bs) =>
        if imageBad (ofBytes bs) then .late (c.uncount t) (.mk' cPROT 6)
        else
          let n := (c.s a).toNat
          let (t, k) := t.writeScope c.vf n (ofBytes bs)
          if t.oldGen c.vf n k then .hold t (.scopeWrite n d.toNat k) else .next (c.setS t d (BitVec.ofNat 64 (k % 256)))) s

/-- R274. -/
def execSrd (d a b : BitVec 5) (cb : BitVec 1) (s : State) : Out :=
  perform (.srd d a b cb) (fun c t =>
    if slice (c.s a) 63 3 ≠ 0 ∨ slice (c.s b) 63 3 ≠ 0 then .trap (.mk' cPROT 6)
    else
      let x := (t.scope c.vf c.core (c.s a).toNat).image
      .next (c.setS t d (BitVec.ofNat 64 (x / 2 ^ (64 * (c.s b).toNat))))) s

/-! ### Instruction-cache invalidation -/

/-- The cores that an `icinv` reaches (R275): the member cores, and every core of a member package. -/
def State.icCores (s : State) (vf core n : Nat) : List Nat :=
  let e := s.scope vf core n
  (List.range 256).filter fun k => !e.valid || bit e.pkgs s.board.pkg || bit e.cores k

/-- An invalidation of a core's instruction cache and loop buffers. The remote partition from which they fill keeps its written bytes
alone, so that no older copy stands between the core and what was released (R270). -/
def State.icDrop (s : State) (core : Nat) : State :=
  (s.modCore core fun c => { c with
    icache := []
    quads := SMap.mapVals c.quads fun _ q => { q with loop := none, loopWords := [] } }).modDie (core / 64) fun d =>
      { d with remote := discardLines d.remote }

/-- R275. -/
def execIcinv (n : BitVec 3) (cb : BitVec 1) (s : State) : Out :=
  perform (.icinv n cb) (fun c t =>
    match c.stale t n with
    | some fi => .trap fi
    | none =>
      let l := t.latch c.vf c.core n.toNat
      let t := t.gangRelease c.ref.team c.ref.gang c.core l
      let cs := t.icCores c.vf c.core n.toNat
      if cs.isEmpty then .next t
      else
        let id := SMap.freshFrom t.icinvs 0
        .hold { t with icinvs := SMap.set t.icinvs id ⟨c.vf, l, cs, cs⟩ } (.icinv id)) s

/-- R275: the invalidation reaches a core; with the last core the `icinv` completes, and no core that it reaches holds a word
fetched before. -/
def execInvalidationReachesCore (id core : Nat) (s : State) : Out :=
  match SMap.get? s.icinvs id with
  | none => disabled
  | some x =>
    if !(x.cores.contains core) then disabled
    else
      let s := s.icDrop core
      let left := x.cores.filter fun k => k != core
      if !left.isEmpty then .next { s with icinvs := SMap.set s.icinvs id { x with cores := left } }
      else
        let woken (g : Gang) : Gang := g.frags.foldl (fun g p => if p.2.wait == some (.icinv id) then g.wake p.1 else g) g
        let s := x.all.foldl State.icDrop s
        .next { s with
          icinvs := SMap.erase s.icinvs id
          teams := SMap.mapVals s.teams fun _ t => { t with gangs := SMap.mapVals t.gangs fun _ g => woken g } }

/-! ### Completions -/

/-- R261, R266, R267: the oldest pending release of a gang completes, once its class T stores are acknowledged. -/
def execReleaseCompletion (team gang : Nat) (s : State) : Out :=
  match s.gang? team gang with
  | none => disabled
  | some g =>
    match g.releases with
    | [] => disabled
    | l :: rest =>
      if g.unacked ≠ 0 then disabled
      else .next ((s.releaseNow g.core l).modGang team gang fun g => { g with releases := rest })

/-- R267: one acknowledgement reaches the gang. -/
def execClassTStoreAck (team gang : Nat) (s : State) : Out :=
  match s.gang? team gang with
  | none => disabled
  | some g => if g.unacked = 0 then disabled else .next (s.modGang team gang fun g => { g with unacked := g.unacked - 1 })

end Sys2Proof.Machine
end

