-- ==== Sys2Proof/Machine/Launch.lean ====
section
/-! DEFINITION. Kernel headers, launch records and task records (R151, R301 to R303, R307, R317), dependence counters (R319), status
words (R315), and the acceptance of launches and tasks (R303, R308, R403). -/

namespace Sys2Proof.Machine

/-! ### Writes of the device's own units -/

/-- A write by a unit of a die at the home slices, as a release at entry 7 (R261, R269): what remote partitions hold written goes home
before the pages are walked (R60), and the die's own takes the bytes on their path; or the pages that fail. -/
def State.dieTry (s : State) (die vf : Nat) (priv : Bool) (va : Nat) (bs : List Byte) : Except (List PageFail) State :=
  let s := s.releaseDies
  match s.devPages vf kStore priv va bs.length with
  | .error l => .error l
  | .ok xs => .ok ((linePieces va bs.length).foldl (fun s p =>
      let x := findXlat xs p.1
      s.dieStore die vf (x.pa p.1) x.leaf ((bs.drop (p.1 - va)).take p.2)) (s.useWalks kStore xs))

/-- Such a write; none where a page fails. -/
def State.dieWrite (s : State) (die vf : Nat) (priv : Bool) (va : Nat) (bs : List Byte) : Option State :=
  (s.dieTry die vf priv va bs).toOption

/-- A status word (R315). -/
def statusWord (code nbad team : Nat) : Nat := code * 2 ^ 56 + min nbad (2 ^ 24 - 1) * 2 ^ 32 + team % 2 ^ 32

/-- Writes a status word; a write that faults is logged and dropped (R315). -/
def State.writeStatus (s : State) (die vf : Nat) (addr : Word) (code nbad team : Nat) : State :=
  if addr = 0 then s
  else match if addr.toNat % 8 ≠ 0 then none else s.dieWrite die vf false addr.toNat (toBytes (statusWord code nbad team) 8) with
    | some s => s
    | none => s.event 6 die vf code (team % 2 ^ 32) addr.toNat 0

/-! ### Records -/

/-- How a record or header is read: 64 bytes at an address, or none where the read fails. -/
abbrev Reader := State → Nat → State × Option (List Byte)

/-- A gang reads through its L1 (R317); an error response is logged (R376). A header or an image that cannot be read so is malformed, and
is not read again as the record is (DESIGN CHOICE, assumption 131). -/
def Ctx.reader (c : Ctx) : Reader := fun t a =>
  match c.readRecord t a 64 with
  | .ok r => (r.1, some r.2)
  | .error (.pages _ l _) => (t.logFails c.die c.vf l, none)
  | .error (.bus _ b) => (t.event 1 c.die c.vf 0 13 b 0, none)
  | .error _ => (t, none)

/-- A unit of a die reads at the home slices, with privileged access (R374). -/
def devReader (die vf : Nat) : Reader := fun s a => if a % 64 ≠ 0 then (s, none) else s.devTry die vf true a 64

/-- A kernel header (R301), where it is well formed. -/
def parseKernel (b : List Byte) : Option Kernel :=
  let f := fieldAt b
  let ok := f 0 4 == 0x4B495331 && f 4 4 == 0 && f 32 32 == 0 && f 8 8 % 4 == 0 && [16, 32, 64].contains (f 16 1)
    && [16, 32, 48, 62].contains (f 17 1) && decide (f 18 1 ≤ 32) && decide (f 19 1 ≤ 8) && decide (f 20 2 ≤ 4096)
    && f 20 2 % 16 == 0 && decide (f 22 2 ≤ 1) && f 28 4 % 2048 == 0 && decide (f 28 4 ≤ 262144)
  if ok then some ⟨BitVec.ofNat 64 (f 8 8), f 16 1, f 17 1, f 18 1, f 19 1, f 20 2, f 22 2 == 1, f 24 4, f 28 4⟩ else none

/-- Reads a kernel header. -/
def readKernel (rd : Reader) (s : State) (a : Nat) : State × Option Kernel :=
  let (s, b) := rd s a
  (s, b.bind parseKernel)

/-- A budget field: none where it is all ones. -/
def budgetOf (n : Nat) : Option Nat := if n = 0xFFFFFFFF then none else some n

/-- A counter field of a record (R302, R307): bit 31 means none; a name has bits 30:18 zero and lies in the context's range. -/
def counterField (v : Vf) (n : Nat) : Option (Option Nat) :=
  if n / 2 ^ 31 % 2 = 1 then some none
  else if n / 2 ^ 18 = 0 ∧ v.counters.1 ≤ n % 2 ^ 16 ∧ n % 2 ^ 16 < v.counters.1 + v.counters.2 then some (some n) else none

/-- The attributes that a task takes beside its record (R307, R404). -/
structure TaskAttrs where
  vf : Nat
  tenant : Nat
  slots : List Word
  det : Bool
  set : Option Nat

/-- The offsets of the offending fields of a task record (R307, R317): of a field of several bytes its first byte (DESIGN CHOICE,
assumption 114), but the byte that is not zero of a reserved one. -/
def taskBad (v : Vf) (tenant : Nat) (k : Option Kernel) (b : List Byte) : List Nat :=
  let f := fieldAt b
  badIf k.isNone 0 ++ badIf (counterField v (f 16 4)).isNone 16 ++ badIf (counterField v (f 20 4)).isNone 20
    ++ badIf (decide (3 < f 28 1)) 28
    ++ badIf (decide (f 29 1 < 1) || decide (32 < f 29 1) || k.any (fun k => decide (1024 < f 29 1 * k.width))) 29
    ++ badIf (f 30 1 != tenant) 30 ++ badIf (decide (15 < f 31 1)) 31 ++ badIf (decide (f 40 8 % 8 ≠ 0)) 40
    ++ (lowByte (f 48 16) 48 16).toList

/-- The task of a well-formed record, spawned on a die (R307, R308). -/
def taskOf (v : Vf) (a : TaskAttrs) (k : Kernel) (b : List Byte) (die gen : Nat) : Task :=
  let f := fieldAt b
  { gen, vf := a.vf, kernel := k, argp := BitVec.ofNat 64 (f 8 8), waitc := (counterField v (f 16 4)).join,
    decc := (counterField v (f 20 4)).join, budget := budgetOf (f 24 4), prio := f 28 1, gangs := f 29 1, tenant := a.tenant,
    qsel := f 31 1, lidx := BitVec.ofNat 64 (f 32 8), stat := BitVec.ofNat 64 (f 40 8), slots := a.slots, det := a.det,
    set := a.set, state := .held, home := die, seq := 0 }

/-! ### Dependence counters -/

/-- The next place in the order in which work begins to wait (R403). -/
def State.order (s : State) : Nat :=
  let ts := s.dies.flatMap fun d => d.2.tasks.map fun t => t.2.seq
  let gs := s.grids.flatMap fun g => g.2.arrival :: g.2.waiting.map WaitTeam.seq
  1 + (ts ++ gs).foldl max 0

/-- A counter's word, by name (R307, R319). -/
def State.counter (s : State) (name : Nat) : Counter := SMap.getD (s.die (name / 2 ^ 16 % 4)).counters (name % 2 ^ 16) ⟨0, false⟩

/-- A counter word as it reads (R319). -/
def Counter.word (c : Counter) : Word := BitVec.ofNat 64 (c.count.toNat + if c.uf then 2 ^ 32 else 0)

/-- The tasks held on a counter, by die and slot, in the order of their spawns. -/
def State.heldOn (s : State) (name : Nat) : List (Nat × Nat) :=
  let hs := s.dies.flatMap fun d => (d.2.tasks.filter fun t => t.2.state == .held && t.2.waitc == some name).map fun t =>
    (t.2.seq, d.1, t.1)
  (sortNats (hs.map Prod.fst)).flatMap fun n => (hs.filter fun h => h.1 == n).map Prod.snd

/-- Tasks become ready: they enter their queues in the order listed (R308). -/
def State.makeReady (s : State) (l : List (Nat × Nat)) : State :=
  l.foldl (fun s p =>
    let n := s.order
    s.modDie p.1 fun d => { d with tasks := SMap.modify d.tasks p.2 fun t => { t with state := .ready, seq := n } }) s

/-- Sets a counter; where COUNT becomes 0, the tasks held on it become ready (R319). -/
def State.setCounter (s : State) (name : Nat) (c : Counter) : State :=
  let s := s.modDie (name / 2 ^ 16 % 4) fun d => { d with counters := SMap.set d.counters (name % 2 ^ 16) c }
  if c.count = 0 then s.makeReady (s.heldOn name) else s

/-- `depset` (R319). -/
def State.depSet (s : State) (name value : Nat) : State := s.setCounter name ⟨BitVec.ofNat 32 value, false⟩

/-- `depdec` (R319): a decrement larger than COUNT leaves 0 and sets UF. -/
def State.depDec (s : State) (name value : Nat) : State :=
  let c := s.counter name
  s.setCounter name (if c.count.toNat < value then ⟨0, true⟩ else ⟨c.count - BitVec.ofNat 32 value, c.uf⟩)

/-! ### Tasks -/

/-- Slots of a die's table that staged spawns have reserved (R309). -/
def State.reservedSlots (s : State) (die : Nat) : List Nat :=
  s.teams.flatMap fun t => t.2.staging.ops.filterMap fun o => match o with
    | .spawn d n _ _ => if d = die then some n else none
    | _ => none

/-- A free slot of a die's table, which the device chooses, with its next generation, from 1 to 65,535 (R308, R317): none while
the table is full. -/
def State.freeSlot (s : State) (die : Nat) : Option (Nat × Nat) :=
  let used := sortNats ((s.die die).tasks.map Prod.fst ++ s.reservedSlots die)
  if 65536 ≤ used.length then none
  else
    let n := freshName s.tick 65536 used
    some (n, SMap.getD (s.die die).taskGen n 0 % 65535 + 1)

/-- Reserves a slot: its generation is used. -/
def State.reserveSlot (s : State) (die n gen : Nat) : State :=
  s.modDie die fun d => { d with taskGen := SMap.set d.taskGen n gen }

/-- A task handle (R317). -/
def taskHandle (die gen slot : Nat) : Word := BitVec.ofNat 64 (die * 2 ^ 32 + gen * 2 ^ 16 + slot)

/-- A task enters a die's table: held on its counter, or ready (R308). -/
def State.enterTask (s : State) (die slot : Nat) (t : Task) : State :=
  let held := match t.waitc with
    | some n => decide ((s.counter n).count ≠ 0)
    | none => false
  let n := s.order
  let t := { t with state := if held then TaskState.held else .ready, seq := n }
  s.modDie die fun d => { d with tasks := SMap.set d.tasks slot t, taskGen := SMap.set d.taskGen slot t.gen }

/-! ### Room (R135 to R137, R304, R306, R378) -/

/-- The quadrants of a core that a virtual function may use (R378). -/
def State.quadsFor (s : State) (core vf : Nat) : List Nat :=
  if (s.vf vf).part.testBit core then (List.range 4).filter fun q => (s.core core).quadServes q vf else []

/-- A core in partitioned mode (R378). -/
def State.partitioned (s : State) (core : Nat) : Bool := bit (s.core core).qown 63

/-- The partition of a virtual function (R304, R378): a core in partitioned mode counts where a quadrant belongs to it. A write of PART
moves no team and no logical core (DESIGN CHOICE, assumption 124). -/
def State.partition (s : State) (vf : Nat) : List Nat :=
  (List.range 256).filter fun c => !(s.quadsFor c vf).isEmpty

/-- The cores that a team placed at a core occupies: for a twin, a pair that starts at an even core. -/
def Kernel.coresAt (k : Kernel) (core : Nat) : List Nat := if k.twin then [core, core + 1] else [core]

/-- The free blocks of a buddy allocator in the aligned range of 2^m places from a base, beside the used ones: size and base, by base
(R137). -/
def freePieces (used : List (Nat × Nat)) : Nat → Nat → List (Nat × Nat)
  | 0, b => if used.all fun u => decide (u.1 + u.2 ≤ b) || decide (b + 1 ≤ u.1) then [(1, b)] else []
  | m + 1, b =>
    if used.all fun u => decide (u.1 + u.2 ≤ b) || decide (b + 2 ^ (m + 1) ≤ u.1) then [(2 ^ (m + 1), b)]
    else freePieces used m b ++ freePieces used m (b + 2 ^ m)

/-- A block of a size that a buddy allocator hands out in a range of a power of two (R137): the low end of the smallest free block that
holds it, the lowest of several (DESIGN CHOICE, assumption 115). -/
def findBlock (used : List (Nat × Nat)) (lo hi size : Nat) : Option Nat :=
  if size = 0 then some lo
  else (((freePieces used (Nat.log2 (hi - lo)) lo).filter fun p => decide (size ≤ p.1)).foldl (fun (best : Option (Nat × Nat)) p =>
    match best with
    | none => some p
    | some q => if p.1 < q.1 then some p else best) none).map Prod.snd

/-- Block of a number of units: the smallest power of two that holds it. -/
def blockOf (n : Nat) : Nat := if n = 0 then 0 else pow2Above n 16

/-- Units of 2 KiB of a gang's register range (R135). -/
def Kernel.regUnits (k : Kernel) : Nat := blockOf ((k.width * k.vregs * 8 + 2047) / 2048)
/-- Frames of a team's Chamber block (R137). -/
def Kernel.chamberFrames (k : Kernel) : Nat := blockOf ((k.chamber + 2047) / 2048)
/-- Frames of the block of a team's lane slices (R137). -/
def Kernel.laneFrames (k : Kernel) (gangs : Nat) : Nat := blockOf ((k.lane * k.width * gangs + 2047) / 2048)

/-- Register ranges in use: core, quadrant, first unit and units. -/
abbrev Ranges := List (Nat × Nat × Nat × Nat)

/-- The ranges of the resident gangs. -/
def State.ranges (s : State) : Ranges :=
  s.teams.flatMap fun t => match t.2.status with
    | .saved => []
    | .running => t.2.gangs.map fun g => (g.2.core, g.2.quad, g.2.regBase, g.2.regSize)

/-- Accumulator units of a quadrant that no resident gang holds or has reserved, and that do not drain (R142). -/
def State.spareUnits (s : State) (core quad : Nat) : Nat :=
  let mine := (s.quadGangs core quad).map fun g => max (s.unitsOf core quad g) (g.2.2.1 / 8)
  128 - mine.foldl (· + ·) (((s.core core).quad quad).draining.countP fun d => d.2.isNone)

/-- What a team asks of a core (R135 to R137, R142): for each gang the accumulator units that it needs, the units of 2 KiB of a gang's
register range, and the frames of the Chamber block and of the lane-slice block. -/
structure Ask where
  needs : List Nat
  regs : Nat
  ch : Nat
  lane : Nat
deriving DecidableEq, Repr

/-- What a team asks for at its dispatch. -/
def Kernel.ask (k : Kernel) (gangs : Nat) : Ask :=
  ⟨List.replicate gangs (k.width / 8), k.regUnits, k.chamberFrames, k.laneFrames gangs⟩

/-- What a saved team asks for (R143, R358): fresh units for every name that is bound. -/
def Team.ask (t : Team) : Ask :=
  ⟨t.gangs.map fun g => max 1 g.2.accs.length * (t.kernel.width / 8), t.kernel.regUnits, t.chSize, t.laneSize⟩

/-- The room of a core as a team meets it: register ranges, frames that blocks and a Gallery share take, accumulator units to spare by
core and quadrant, and teams resident. -/
structure Room where
  ranges : Ranges
  blocks : List (Nat × Nat)
  spare : Nat → Nat → Nat
  teams : Nat

/-- Places gangs on the listed quadrants, each with a range and its accumulator units, at most 16 gangs to a quadrant (R135, R142).
R136 leaves open which quadrant, and for a twin which core, a gang takes: the first listed that has room (DESIGN CHOICE,
assumption 78). -/
def placeGangs (sites : List (Nat × Nat)) (size : Nat) : List Nat → Ranges → (Nat → Nat → Nat) → Option (List (Nat × Nat × Nat))
  | [], _, _ => some []
  | need :: needs, used, spare =>
    match sites.findSome? fun q =>
      let mine := (used.filter fun u => decide (u.1 = q.1) && decide (u.2.1 = q.2)).map fun u => u.2.2
      if 16 ≤ mine.length ∨ spare q.1 q.2 < need then none else (findBlock mine 0 128 size).map fun b => (q.1, q.2, b) with
    | none => none
    | some g => (placeGangs sites size needs ((g.1, g.2.1, g.2.2, size) :: used) fun c q =>
        if c = g.1 ∧ q = g.2.1 then spare c q - need else spare c q).map fun l => g :: l

/-- A placement of a team: its gangs' cores, quadrants and ranges, and the bases of its Chamber and lane-slice blocks. -/
structure Placed where
  gangs : List (Nat × Nat × Nat)
  ch : Nat
  lane : Nat
deriving DecidableEq, Repr

/-- Blocks of the teams resident on a core. -/
def State.blocks (s : State) (core : Nat) : List (Nat × Nat) :=
  s.teams.flatMap fun t =>
    if t.2.status = .running ∧ t.2.core = core then [(t.2.chBase, t.2.chSize), (t.2.laneBase, t.2.laneSize)].filter fun b => b.2 ≠ 0
    else []

/-- Frames that a core lends to the Gallery (R121). -/
def Core.lent (c : Core) : Nat := c.galShare / 2048

/-- The frames of a core's Gallery share, as a block. -/
def Core.shareBlock (c : Core) : List (Nat × Nat) := if c.lent = 0 then [] else [(c.galTop - c.lent, c.lent)]

/-- Resident teams of a core. -/
def State.residentTeams (s : State) (core : Nat) : Nat :=
  s.teams.countP fun t => decide (t.2.status = .running) && (decide (t.2.core = core) || decide (t.2.twin = some core))

/-- Places a team at a core with what is in use (R135 to R137, R304, R360): in partitioned mode on one quadrant of its own with its 64
frames (R123). -/
def placeOn (quads : List Nat) (pm : Bool) (core : Nat) (k : Kernel) (a : Ask) (r : Room) : Option Placed :=
  if 32 ≤ r.teams then none
  else
    let tryOn (qs : List Nat) (lo hi : Nat) : Option Placed :=
      match placeGangs ((k.coresAt core).flatMap fun c => qs.map fun q => (c, q)) a.regs a.needs r.ranges r.spare with
      | none => none
      | some gs =>
        match findBlock r.blocks lo hi a.ch with
        | none => none
        | some ch =>
          (findBlock ((if a.ch = 0 then [] else [(ch, a.ch)]) ++ r.blocks) lo hi a.lane).map fun lane => ⟨gs, ch, lane⟩
    if pm then quads.findSome? fun q => tryOn [q] (64 * q) (64 * q + 64) else tryOn quads 0 256

/-- The quadrants that a virtual function may use on every core of a team. -/
def State.teamQuads (s : State) (vf core : Nat) (k : Kernel) : List Nat :=
  if k.twin && core % 2 == 1 then []
  else (k.coresAt core).foldl (fun l c => l.filter fun q => (s.quadsFor c vf).contains q) [0, 1, 2, 3]

/-- A team occupies a core in partitioned mode. -/
def State.teamPm (s : State) (core : Nat) (k : Kernel) : Bool := (k.coresAt core).any s.partitioned

/-- The frame after the last of a Gallery share of `lent` frames that a core lends for a function (R121, R123, R137): the highest of
the core's frames, in partitioned mode the highest of a quadrant's that the function owns; none where they are in use. -/
def State.shareTop (s : State) (vf core lent : Nat) : Option Nat :=
  if lent = 0 then some 256
  else if (s.core core).lent ≠ 0 then some (s.core core).galTop
  else
    let tops := if s.partitioned core then (s.quadsFor core vf).map fun q => 64 * q + 64 else [256]
    let size := if s.partitioned core then 64 else 256
    if size < lent then none
    else tops.find? fun n => (s.blocks core).all fun b => decide (b.1 + b.2 ≤ n - lent) || decide (n ≤ b.1)

/-- The room of a core for a team, beside a Gallery share that the team's group is still to be lent. -/
def State.room (s : State) (core : Nat) (k : Kernel) (share : List (Nat × Nat)) : Room :=
  { ranges := s.ranges
    blocks := share ++ (s.core core).shareBlock ++ s.blocks core
    spare := s.spareUnits
    teams := ((k.coresAt core).map s.residentTeams).foldl max 0 }

/-- Places a team of a virtual function at a core, with `lent` frames of each core of its group lent to the Gallery. -/
def State.placeTeam (s : State) (vf core lent : Nat) (k : Kernel) (a : Ask) : Option Placed :=
  let qs := s.teamQuads vf core k
  if qs.isEmpty then none
  else (s.shareTop vf core lent).bind fun top =>
    placeOn qs (s.teamPm core k) core k a (s.room core k (if lent = 0 then [] else [(top - lent, lent)]))

/-- How many teams of one shape an empty core can hold. -/
def coreCapacity (quads : List Nat) (pm : Bool) (core : Nat) (k : Kernel) (a : Ask) : Nat → Room → Nat
  | 0, _ => 0
  | n + 1, r =>
    match placeOn quads pm core k a r with
    | none => 0
    | some p => 1 + coreCapacity quads pm core k a n
        { ranges := p.gangs.map (fun g => (g.1, g.2.1, g.2.2, a.regs)) ++ r.ranges
          blocks := ([(p.ch, a.ch), (p.lane, a.lane)].filter fun b => b.2 ≠ 0) ++ r.blocks
          spare := fun c q => r.spare c q - k.width / 8 * (p.gangs.countP fun g => decide (g.1 = c) && decide (g.2.1 = q))
          teams := r.teams + 1 }

/-- Teams of one shape that a virtual function's core can ever hold, with its share of the Gallery lent. -/
def State.capacity (s : State) (vf core : Nat) (k : Kernel) (gangs : Nat) : Nat :=
  let qs := s.teamQuads vf core k
  let pm := s.teamPm core k
  let lent := k.gallery / 2048
  match qs with
  | [] => 0
  | q :: _ =>
    if (if pm then 64 else 256) < lent then 0
    else coreCapacity qs pm core k (k.ask gangs) 32
      ⟨[], if lent = 0 then [] else [((if pm then 64 * q + 64 else 256) - lent, lent)], fun _ _ => 128, 0⟩

/-- The groups of a clustered grid: CLGRP cores of one cluster, whole within the partition (R304, assumption 32). -/
def clusterGroup (core clgrp : Nat) : Option (List Nat) :=
  let i := core % 8 / clgrp
  if 8 < clgrp * (i + 1) then none else some ((List.range clgrp).map fun j => core / 8 * 8 + i * clgrp + j)

/-- The cores of the listed dies, or of every die, on which a team may be placed (R304): in deterministic mode all of them, the logical
cores by their number; else those of one die. A clustered grid takes cores of whole groups. -/
def State.sites (s : State) (vf : Nat) (dies : Option (List Nat)) (twin : Bool) (clgrp : Nat) : List Nat :=
  let p := s.partition vf
  let p := match dies with
    | none => p
    | some ds => p.filter fun c => ds.contains (c / 64)
  let p := if twin then p.filter fun c => c % 2 == 0 && p.contains (c + 1) else p
  if clgrp = 0 then p else p.filter fun c => (clusterGroup c clgrp).any fun g => g.all p.contains

/-! ### Launches (R303) -/

/-- A slot that is refused (R151). -/
def slotBad (w : Word) : Bool :=
  let mode := slice w 7 4
  let fmt := slice w 3 0
  let e := slice w 62 55
  decide (8 ≤ fmt) || decide (2 ≤ mode) || slice w 31 8 != 0
    || (mode == 1 && (fmt == 0 || bit w 63 || e == 0 || e == 255))

/-- A launch as it was read: the record, its kernel, and the scope images that it names. -/
structure LaunchIn where
  rcd : List Byte
  kernel : Option Kernel
  images : Option (List (Nat × Nat))

/-- Reads the header and the scope images that a record names. An image that cannot be read, or whose address is no multiple of 64, is a
malformed one (R303; DESIGN CHOICE, assumption 131). -/
def readLaunch (rd : Reader) (s : State) (b : List Byte) : State × LaunchIn :=
  let (s, k) := readKernel rd s (fieldAt b 0 8)
  let wanted := (List.range 6).filter fun i => (fieldAt b 56 1).testBit (i + 1)
  let (s, imgs) := wanted.foldl (fun (r : State × Option (List (Nat × Nat))) i =>
    match r.2 with
    | none => r
    | some l => match rd r.1 ((fieldAt b 48 8 + 64 * i) % 2 ^ 64) with
      | (s, some bs) => (s, if imageBad (ofBytes bs) then none else some (l ++ [(i + 1, ofBytes bs)]))
      | (s, none) => (s, none)) (s, some [])
  (s, ⟨b, k, imgs⟩)

/-- A record is malformed (R303). -/
def launchMalformed (v : Vf) (x : LaunchIn) : Bool :=
  let f := fieldAt x.rcd
  match x.kernel, x.images with
  | some k, some _ =>
    let flags := f 60 4
    let cluster := flags.testBit 4
    f 8 4 == 0 || decide (f 12 1 < 1) || decide (32 < f 12 1) || decide (1024 < f 12 1 * k.width) || f 13 1 != k.width
      || f 14 1 != k.vregs || f 15 1 != k.bars || f 16 2 != k.lane || f 18 1 != k.queues || f 20 4 != k.chamber || f 24 4 != k.gallery
      || (if cluster then decide (f 19 1 < 1) || decide (8 < f 19 1) else f 19 1 != 0 || f 24 4 != 0)
      || decide (f 40 8 % 8 ≠ 0) || (f 56 1).testBit 0 || (f 56 1).testBit 7 || decide (3 < f 57 1) || f 58 1 != v.tenant
      || f 59 1 != 0 || decide (32 ≤ flags) || flags.testBit 3 != k.twin || f 132 124 != 0 || (counterField v (f 128 4)).isNone
  | _, _ => true

/-- The eight slots of a record (R150, R302). -/
def launchSlots (b : List Byte) : List Word := (List.range 8).map fun i => BitVec.ofNat 64 (fieldAt b (64 + 8 * i) 8)

/-- No placement within the tenant's partition can ever hold one team, or the whole of a cooperative grid (R303): teams reach the
cores of every die of it by migration (R314), and each resident team of a function with a fault-area pool takes a block (R136). -/
def State.neverPlaced (s : State) (vf : Nat) (k : Kernel) (b : List Byte) : Bool :=
  let flags := fieldAt b 60 4
  let det := flags.testBit 0
  let teams := fieldAt b 8 4
  let caps := (s.sites vf (if det then none else some [0, 1, 2, 3]) (flags.testBit 3) (fieldAt b 19 1)).map fun c =>
    s.capacity vf c k (fieldAt b 12 1)
  let pool := (s.vf vf).cfg 56 4
  if flags.testBit 2 then
    (decide (pool ≠ 0) && decide (pool < teams)) ||
      if det then
        decide (caps = []) || ((List.range caps.length).zip caps).any fun p =>
          decide (p.2 < (teams + caps.length - 1 - p.1) / caps.length)
      else decide (caps.foldl (· + ·) 0 < teams)
  else if det then decide (caps = []) || ((caps.take teams).any fun n => n == 0)
  else caps.all fun n => n == 0

/-- The code with which a launch is refused (R303): 0 where it is accepted. Of several that apply, the least (DESIGN CHOICE, assumption
132). -/
def State.launchCode (s : State) (vf : Nat) (x : LaunchIn) : Nat :=
  if launchMalformed (s.vf vf) x then 1
  else if (launchSlots x.rcd).any slotBad then 2
  else if (x.kernel.map fun k => s.neverPlaced vf k x.rcd).getD true then 3 else 0

/-- The grid of a record (R302). -/
def gridOf (v : Vf) (vf die : Nat) (k : Kernel) (b : List Byte) (logical : List Nat) : Grid :=
  let f := fieldAt b
  let flags := f 60 4
  { vf, die, kernel := k, teams := f 8 4, gangs := f 12 1, clgrp := f 19 1, argp := BitVec.ofNat 64 (f 32 8),
    statusAddr := BitVec.ofNat 64 (f 40 8), prio := f 57 1, tenant := f 58 1, det := flags.testBit 0, staged := flags.testBit 1,
    coop := flags.testBit 2, twin := flags.testBit 3, cluster := flags.testBit 4, slots := launchSlots b,
    donec := (counterField v (f 128 4)).join, budget := budgetOf (f 28 4), next := 0, logical, detNext := [], waiting := [],
    scopes := [], finished := 0, nbad := 0, firstBad := 0, badCode := 0, arrival := 0, digest := 0, serial := false,
    savedGroups := [] }

/-- The grid of a launch that is accepted on a die. -/
def State.gridFor (s : State) (vf die : Nat) (x : LaunchIn) : Option Grid :=
  x.kernel.map fun k =>
    let flags := fieldAt x.rcd 60 4
    gridOf (s.vf vf) vf die k x.rcd
      (if flags.testBit 0 then s.sites vf none (flags.testBit 3) (fieldAt x.rcd 19 1) else [])

/-- Identifiers that staged launches have reserved (R309). -/
def State.reservedGrids (s : State) : List Nat :=
  s.teams.flatMap fun t => t.2.staging.ops.filterMap fun o => match o with
    | .launch n _ _ => some n
    | _ => none

/-- Grids that have ended while tasks or teams of theirs live on, or while a withheld spawn would add to their task sets (R361). -/
def State.liveSets (s : State) : List Nat :=
  (s.dies.flatMap fun d => d.2.tasks.filterMap fun t => t.2.set)
    ++ s.teams.flatMap fun t =>
      (match t.2.own with | .grid g => [g] | .task _ _ => [])
        ++ t.2.staging.ops.filterMap fun o => match o with
          | .spawn _ _ _ x => x.set
          | _ => none

/-- A grid identifier that is not zero and is not in use (R144, R317, R361). -/
def State.freeGrid (s : State) : Nat :=
  freshName s.tick (2 ^ 32) (sortNats (0 :: s.grids.map Prod.fst ++ s.reservedGrids ++ s.liveSets))

/-- An accepted launch: the scope entries are written, and the grid begins to wait (R252, R303). -/
def State.acceptGrid (s : State) (id : Nat) (g : Grid) (images : List (Nat × Nat)) : State :=
  let (s, ws) := images.foldl (fun (r : State × List (Nat × Nat)) p =>
    let (s, k) := r.1.writeScope g.vf p.1 p.2
    (s, r.2 ++ [(p.1, k)])) (s, [])
  let n := s.order
  { s with grids := SMap.set s.grids id { g with arrival := n, scopes := ws } }

/-! ### The submission ring (R374, R363) -/

/-- A deterministic grid of a context is under way. -/
def State.detRuns (s : State) (vf : Nat) : Bool := s.grids.any fun g => decide (g.2.vf = vf) && g.2.det

/-- The die to which a host launch is submitted: a die that holds cores of the partition, as the device chooses (assumption 37). -/
def State.ringDie (s : State) (vf : Nat) : Nat :=
  (choose ((List.range 4).filter fun d => (s.partition vf).any fun c => c / 64 == d) s.tick).getD 0

/-- The record at a place of the ring: its address, then its 256 bytes, read with privileged access at the home slices; or the address
that cannot be read. -/
def State.ringRecord (s : State) (vf idx : Nat) : State × Except Nat (List Byte) :=
  let v := s.vf vf
  let at_ := v.cfg 16 8 + 8 * (idx % 2 ^ v.cfg 24 1)
  match s.devTry (s.ringDie vf) vf true at_ 8 with
  | (s, none) => (s, .error at_)
  | (s, some a) =>
    if ofBytes a % 64 ≠ 0 then (s, .error (ofBytes a))
    else match s.devTry (s.ringDie vf) vf true (ofBytes a) 256 with
      | (s, some b) => (s, .ok b)
      | (s, none) => (s, .error (ofBytes a))

/-- A launch of the ring is accepted, or refused with its status code (R303). -/
def State.hostLaunch (s : State) (vf : Nat) (b : List Byte) : State :=
  let die := s.ringDie vf
  let (s, x) := readLaunch (devReader die vf) s b
  let code := s.launchCode vf x
  match if code = 0 then s.gridFor vf die x else none with
  | none => s.writeStatus die vf (BitVec.ofNat 64 (fieldAt b 40 8)) code 0 0
  | some g => s.acceptGrid s.freeGrid g (x.images.getD [])

/-- The device takes entries from HEAD to TAIL in index order. A record that cannot be read is passed over and logged (assumption
37), and while DMODE is not 0 a deterministic launch waits for the one that runs (R363). -/
def State.serveRing (s : State) (vf : Nat) : Nat → State
  | 0 => s
  | n + 1 =>
    let v := s.vf vf
    if v.head = v.tail then s
    else
      let pass (s : State) : State := s.modVf vf fun v => { v with head := v.head + 1 }
      match s.ringRecord vf v.head.toNat with
      | (t, .error a) => State.serveRing (pass (t.event 8 0 vf 1 v.head.toNat a 0)) vf n
      | (t, .ok b) =>
        if decide (v.cfg 284 4 ≠ 0) && (fieldAt b 60 4).testBit 0 && s.detRuns vf then s
        else State.serveRing (pass (t.hostLaunch vf b)) vf n

/-- Entries that a ring may hold at most. -/
abbrev ringFuel : Nat := 65536

end Sys2Proof.Machine
end

