-- ==== Sys2Proof/Machine/Tasks.lean ====
section
/-! DEFINITION. `spawn`, `launch` and `tabort` (R317, R318), dependence counters (R319) and Chamber queues (R320, R321). -/

namespace Sys2Proof.Machine

/-! ### `spawn`, `launch`, `tabort` -/

/-- A release at entry 7 of the gang's earlier accesses (R318, R319). -/
def Ctx.releaseAll (c : Ctx) (t : State) : State :=
  t.gangRelease c.ref.team c.ref.gang c.core (t.latch c.vf c.core 7)

/-- An acquire at entry 7. -/
def Ctx.acquireAll (c : Ctx) (t : State) : State := t.acquireNow c.core (t.latch c.vf c.core 7)

/-- A staged control instruction is withheld until commit (R309). -/
def Ctx.stageOp (c : Ctx) (t : State) (o : StagedOp) : State :=
  t.modTeam c.ref.team fun x => { x with staging := { x.staging with ops := x.staging.ops ++ [o] } }

/-- The deterministic grid of whose task set the gang's tasks are members (R361). -/
def Ctx.taskSet (c : Ctx) (t : State) : Option Nat :=
  match c.team.own with
  | .grid g => if c.team.det then some g else none
  | .task d n => (SMap.get? (t.die d).tasks n).bind Task.set

/-- What a task takes from the gang that spawns it (R307). -/
def Ctx.taskAttrs (c : Ctx) (t : State) : TaskAttrs := ⟨c.vf, c.team.tenant, c.team.slots, c.team.det, c.taskSet t⟩

/-- R317. -/
def execSpawn (d a : BitVec 5) (cb : BitVec 1) (s : State) : Out :=
  perform (.spawn d a cb) (fun c t =>
    match c.readRecord t (c.s a).toNat 64 with
    | .error r => r
    | .ok (t, b) =>
      let (t, k) := readKernel c.reader t (fieldAt b 0 8)
      match lowestSuch (fun _ => true) (taskBad (t.vf c.vf) c.team.tenant k b), k with
      | none, some k =>
        match t.freeSlot c.die with
        | none => .wait s .taskTable
        | some (slot, gen) =>
          let task := taskOf (t.vf c.vf) (c.taskAttrs t) k b c.die gen
          let t := if c.team.staged then c.stageOp (t.reserveSlot c.die slot gen) (.spawn c.die slot (t.die c.die).ref task)
                   else (c.releaseAll t).enterTask c.die slot task
          .next (c.setS t d (taskHandle c.die gen slot))
      | off, _ => .late (c.uncount t) { cls := cPROT, fbyte := 9, rank := c.s a + BitVec.ofNat 64 (off.getD 0) }) s

/-- R303, R317. The record is read as one load of 256 bytes. -/
def execLaunch (d a : BitVec 5) (cb : BitVec 1) (s : State) : Out :=
  perform (.launch d a cb) (fun c t =>
    match c.readRecord t (c.s a).toNat 256 with
    | .error r => r
    | .ok (t, b) =>
      let (t, x) := readLaunch c.reader t b
      let code := t.launchCode c.vf x
      match if code = 0 then t.gridFor c.vf c.die x else none with
      | none =>
        let status : Word := BitVec.ofNat 64 (fieldAt b 40 8)
        let t := if c.team.staged then c.stageOp t (.refused status code)
                 else (c.releaseAll t).writeStatus c.die c.vf status code 0 0
        .next (c.setS t d 0)
      | some g =>
        let id := t.freeGrid
        let images := x.images.getD []
        let t := if c.team.staged then c.stageOp t (.launch id g images) else (c.releaseAll t).acceptGrid id g images
        .next (c.setS t d (BitVec.ofNat 64 id))) s

/-- The running or saved team of a task. -/
def State.teamOfTask (s : State) (die slot : Nat) : Option Nat :=
  (s.teams.find? fun t => t.2.own == .task die slot).map Prod.fst

/-- Removes a task that has not been dispatched, or that has ended: its status word is written and its slot is free (R308). -/
def State.endTask (s : State) (die slot code : Nat) : State :=
  match SMap.get? (s.die die).tasks slot with
  | none => s
  | some t =>
    let s := s.writeStatus t.home t.vf t.stat code (if code = 0 then 0 else 1) t.lidx.toNat
    s.modDie die fun d => { d with tasks := SMap.erase d.tasks slot }

/-- `tabort` of a live task (R318): a running or suspended task is stopped, and its discard follows. A task whose gangs have all exited
and whose copies have completed has begun to retire, and is left as it is (R310). -/
def State.abortTask (s : State) (die slot : Nat) (drop : Bool) : State :=
  match SMap.get? (s.die die).tasks slot with
  | none => s
  | some t =>
    match t.state with
    | .held | .ready => if drop then s.endTask die slot 6 else s
    | .running | .suspended =>
      match s.teamOfTask die slot with
      | none => s
      | some tm =>
        if ((s.team? tm).map fun x => x.gangs.isEmpty).getD false && !(s.teamCopies tm) then s
        else s.stopTeam tm (if drop then .dropped else .retry)

/-- R318. -/
def tabortOp (i : Instr) (a : BitVec 5) (drop : Bool) (s : State) : Out :=
  perform i (fun c t =>
    let h := c.s a
    if h = 0 then
      match c.team.own with
      | .task d n => .next (t.abortTask d n drop)
      | .grid _ => .trap (.mk' cPROT 9)
    else if slice h 63 34 ≠ 0 then .trap (.mk' cPROT 9)
    else
      let d := slice h 33 32
      let n := slice h 15 0
      match SMap.get? (t.die d).tasks n with
      | none => .next t
      | some x => .next (if x.gen = slice h 31 16 ∧ x.vf = c.vf then t.abortTask d n drop else t)) s

/-- R318. -/
def execTabortRetry (a : BitVec 5) (cb : BitVec 1) (s : State) : Out := tabortOp (.tabortRetry a cb) a false s
/-- R318. -/
def execTabortDrop (a : BitVec 5) (cb : BitVec 1) (s : State) : Out := tabortOp (.tabortDrop a cb) a true s

/-! ### Dependence counters -/

/-- A counter name in a register: none where an operation on it faults (R319). -/
def Ctx.counterName (c : Ctx) (t : State) (w : Word) : Option Nat :=
  if slice w 63 18 = 0 then (counterField (t.vf c.vf) w.toNat).join else none

/-- The fault of a counter operation (R319). -/
def badCounter : FaultInfo := .mk' cPROT 10

/-- R319. -/
def execDepset (a b : BitVec 5) (cb : BitVec 1) (s : State) : Out :=
  perform (.depset a b cb) (fun c t =>
    match c.counterName t (c.s a) with
    | none => .trap badCounter
    | some n =>
      if slice (c.s b) 63 32 ≠ 0 then .trap badCounter
      else if c.team.staged then .next (c.stageOp t (.depset n (c.s b).toNat))
      else .next ((c.releaseAll t).depSet n (c.s b).toNat)) s

/-- R319. A staged `depdec` reads the counter and withholds the decrement (R309). -/
def execDepdec (d a b : BitVec 5) (cb : BitVec 1) (s : State) : Out :=
  perform (.depdec d a b cb) (fun c t =>
    match c.counterName t (c.s a) with
    | none => .trap badCounter
    | some n =>
      let v := if b = 0 then 1 else slice (c.s b) 31 0
      let w := (t.counter n).word
      let t := if c.team.staged then c.stageOp t (.depdec n v) else (c.releaseAll t).depDec n v
      .next (c.setS t d w)) s

/-- R319. -/
def execDepread (d a : BitVec 5) (cb : BitVec 1) (s : State) : Out :=
  perform (.depread d a cb) (fun c t =>
    match c.counterName t (c.s a) with
    | none => .trap badCounter
    | some n => .next (c.setS (c.acquireAll t) d (t.counter n).word)) s

/-! ### Chamber queues -/

/-- The fault of a queue instruction (R321). -/
def badQueue : FaultInfo := .mk' cPROT 11

/-- A queue number that names a Chamber queue of the team (R321). -/
def Ctx.queueNum (c : Ctx) (q : BitVec 5) : Option Nat :=
  if q.toNat < 8 ∧ q.toNat < c.team.kernel.queues then some q.toNat else none

/-- A queue of the team that has been initialised. -/
def Ctx.queue? (c : Ctx) (t : State) (n : Nat) : Option Queue := (t.team? c.ref.team).bind fun x => SMap.get? x.queues n

/-- Chamber offset of the entry with a number. -/
def Queue.slot (q : Queue) (n : Nat) : Nat := q.off + 8 * (n % q.cap)

/-- A release or an acquire at the level of a scope that holds the team's cores (R321). -/
def Ctx.teamRelease (c : Ctx) (t : State) : State := t.gangRelease c.ref.team c.ref.gang c.core (c.team.latch c.core)
/-- An acquire at the level of a scope that holds the team's cores (R321). -/
def Ctx.teamAcquire (c : Ctx) (t : State) : State := t.acquireNow c.core (c.team.latch c.core)

/-- Some fragment of the team waits on a queue (R321). -/
def Team.waitsOn (x : Team) (n : Nat) : Bool := x.gangs.any fun g => g.2.frags.any fun f => f.2.wait == some (.queue n)

/-- R320, R321. -/
def execQinit (a q : BitVec 5) (cb : BitVec 1) (s : State) : Out :=
  perform (.qinit a q cb) (fun c t =>
    match c.queueNum q with
    | none => .trap badQueue
    | some n =>
      let w := c.s a
      let off := slice w 18 0
      let log := slice w 35 32
      if slice w 31 19 ≠ 0 ∨ slice w 63 36 ≠ 0 ∨ off % 8 ≠ 0 ∨ log < 1 ∨ 12 < log ∨ c.team.chamberBytes < off + 8 * 2 ^ log
          ∨ c.team.waitsOn n then .trap badQueue
      else .next (t.modTeam c.ref.team fun x => { x with queues := SMap.set x.queues n ⟨off, 2 ^ log, 0, 0⟩ })) s

/-- The gate queue holds at most 1,024 entries (R328). -/
abbrev gateRoom : Nat := 1024

/-- R320, R321, R328. -/
def execQpush (a q : BitVec 5) (cb : BitVec 1) (s : State) : Out :=
  perform (.qpush a q cb) (fun c t =>
    if q.toNat = 15 then
      if c.team.staged then .trap (.mk' cPROT 8)
      else if gateRoom ≤ (t.die c.die).gate.length then .wait s (.queue 15)
      else
        let e : GateEntry := ⟨c.s a, c.vf, ⟨c.team.slots, c.team.det, c.team.tenant⟩⟩
        .next ((c.releaseAll t).modDie c.die fun d => { d with gate := d.gate ++ [e] })
    else match (c.queueNum q).bind fun n => (c.queue? t n).map fun x => (n, x) with
      | none => .trap badQueue
      | some (n, x) =>
        if x.cap ≤ x.tail - x.head then .wait s (.queue n)
        else
          let o := x.slot x.tail
          if !(t.frameT ⟨false, c.ref.team, o / 2048⟩) then .trap (.mk' cOWNER o)
          else .next ((c.teamRelease t).modTeam c.ref.team fun y => { y with
            chamber := Memory.store y.chamber o (toBytes (c.s a).toNat 8)
            queues := SMap.set y.queues n { x with tail := x.tail + 1 } })) s

/-- The oldest entry leaves a queue (R320): what is answered where the queue is empty is given. -/
def Ctx.popQueue (c : Ctx) (t s : State) (q : BitVec 5) (empty : Res) (f : State → Word → State) : Res :=
  match (c.queueNum q).bind fun n => (c.queue? t n).map fun x => (n, x) with
  | none => .trap badQueue
  | some (n, x) =>
    if x.tail ≤ x.head then empty
    else
      let o := x.slot x.head
      if t.frameEW ⟨false, c.ref.team, o / 2048⟩ then .wait s .frame
      else
        let w : Word := BitVec.ofNat 64 (ofBytes (((t.team? c.ref.team).map fun y => Memory.bytes y.chamber o 8).getD []))
        .next (f (c.teamAcquire (t.modTeam c.ref.team fun y =>
          { y with queues := SMap.set y.queues n { x with head := x.head + 1 } })) w)

/-- R320, R321. -/
def execQpop (d q : BitVec 5) (cb : BitVec 1) (s : State) : Out :=
  perform (.qpop d q cb) (fun c t => c.popQueue t s q (.wait s (.queue q.toNat)) fun t w => c.setS t d w) s

/-- R320, R321. -/
def execQtry (d q : BitVec 5) (cb : BitVec 1) (s : State) : Out :=
  perform (.qtry d q cb) (fun c t =>
    c.popQueue t s q (.next (c.setS (c.setS t d 0) (d + 1) 0)) fun t w => c.setS (c.setS t d w) (d + 1) 1) s

end Sys2Proof.Machine
end

