-- ==== Sys2Proof/Machine/Teams.lean ====
section
/-! DEFINITION. The life of a team: dispatch (R304 to R308, R403), retirement (R310, R362 to R365), discard and end (R311, R313,
R352), the end of a grid (R316), pre-emption, restore and slices (R356 to R358, R378), migration (R314) and compaction (R138). -/

namespace Sys2Proof.Machine

/-! ### What waits (R403) -/

/-- Work that waits for room on a die. -/
inductive Work where
  | team (grid : Nat)
  | task (die slot : Nat)
deriving DecidableEq, Repr

/-- Insertion by the first component, into a rising list. -/
def insertBy {α : Type} (x : Nat × α) : List (Nat × α) → List (Nat × α)
  | [] => [x]
  | y :: ys => if x.1 < y.1 then x :: y :: ys else y :: insertBy x ys

/-- A list in the order of its first components. -/
def sortBy {α : Type} (l : List (Nat × α)) : List (Nat × α) := l.foldl (fun a x => insertBy x a) []

/-- The least by first component. -/
def leastBy {α : Type} (l : List (Nat × α)) : Option (Nat × α) :=
  l.foldl (fun m x => match m with | none => some x | some y => if x.1 < y.1 then some x else some y) none

/-- Two lists in one order: at each place the front that has waited longer. -/
def mergeBy {α : Type} : Nat → List (Nat × α) → List (Nat × α) → List (Nat × α)
  | 0, xs, ys => xs ++ ys
  | _ + 1, [], ys => ys
  | _ + 1, xs, [] => xs
  | k + 1, x :: xs, y :: ys => if x.1 ≤ y.1 then x :: mergeBy k xs (y :: ys) else y :: mergeBy k (x :: xs) ys

/-- The next team of a grid that waits on a die, in ascending index: its index, its budget and when it began to wait. -/
def Grid.nextOn (g : Grid) (die : Nat) : Option (Nat × Option Nat × Nat) :=
  let ws := (g.waiting.filter fun w => w.die == die).map fun w => (w.index, w.budget, w.seq)
  let fresh := if die = g.die ∧ g.next < g.teams then [(g.next, g.budget, g.arrival)] else []
  leastBy (ws ++ fresh)

/-- The next team of a deterministic grid on a logical core (R304). -/
def Grid.nextAt (g : Grid) (lc : Nat) : Option (Nat × Option Nat × Nat) :=
  let n := g.logical.length
  let i := lc + n * (ZMap.get g.detNext lc).toNat
  let ws := (g.waiting.filter fun w => w.index % n == lc).map fun w => (w.index, w.budget, w.seq)
  leastBy (ws ++ if i < g.teams then [(i, g.budget, g.arrival)] else [])

/-- The ready tasks on a die, with their tables and slots. -/
def State.readyTasks (s : State) (die : Nat) : List (Nat × Nat × Task) :=
  s.dies.flatMap fun d => (d.2.tasks.filter fun t => t.2.state == .ready && t.2.home == die).map fun t => (d.1, t.1, t.2)

/-- A task's set is in its serial phase (R365), which has an order of its own. -/
def State.serialSet (s : State) (t : Task) : Bool :=
  ((t.set.bind fun g => SMap.get? s.grids g).map Grid.serial).getD false

/-- The heads of a die's queues of one priority, in round-robin order from the queue after the one served last (R308). -/
def State.heads (s : State) (die prio : Nat) : List (Nat × Work) :=
  let ts := (s.readyTasks die).filter fun t => t.2.2.prio == prio && !(s.serialSet t.2.2)
  let last := (ZMap.get (s.die die).served prio).toNat
  ((List.range 16).map fun j => (last + j) % 16).filterMap fun q =>
    (leastBy ((ts.filter fun t => t.2.2.qsel == q).map fun t => (t.2.2.seq, (t.1, t.2.1)))).map fun x =>
      (x.1, Work.task x.2.1 x.2.2)

/-- The work that competes for the room of a die, in order (R403): grid teams in normal mode and ready tasks. -/
def State.workOn (s : State) (die : Nat) : List Work :=
  (List.range 4).flatMap fun p =>
    let gs := sortBy ((s.grids.filter fun g => g.2.prio == p && !g.2.det && !g.2.coop).filterMap fun g =>
      (g.2.nextOn die).map fun x => (x.2.2, Work.team g.1))
    let hs := s.heads die p
    (mergeBy (gs.length + hs.length) gs hs).map Prod.snd

/-! ### Room for a team -/

/-- A block of the fault-area pool is free, or the context has no pool (R136, R345). -/
def Vf.faultRoom (v : Vf) : Bool := v.cfg 56 4 == 0 || decide (v.faultBlocks.length < v.cfg 56 4)

/-- Team slots and Chamber banks that the teams of a virtual function take on a die. -/
def State.usage (s : State) (vf die : Nat) : Nat × Nat :=
  let ts := s.teams.filter fun t => decide (t.2.vf = vf) && decide (t.2.status = .running) && decide (t.2.core / 64 = die)
  (ts.length, (ts.map fun t => (t.2.chSize + t.2.laneSize + 7) / 8).foldl (· + ·) 0)

/-- The reserved minima of a virtual function: team slots and Chamber banks on each die (R306). -/
def Vf.reserve (v : Vf) : Nat × Nat := (v.cfg 264 2, v.cfg 266 1)

/-- A team of a virtual function finds room in its reservation, or else, for what goes past it, in the shared remainder of a die (R306):
2,048 team slots and 2,048 Chamber banks in all. -/
def State.reserveOk (s : State) (vf die banks : Nat) : Bool :=
  let fits (all used more r : Nat) : Bool := let past := (used + more - r) - (used - r); decide (past = 0) || decide (all + past ≤ 2048)
  let shared := s.vfs.foldl (fun (a : Nat × Nat) v =>
    let u := s.usage v.1 die
    let r := v.2.reserve
    (a.1 + max r.1 u.1, a.2 + max r.2 u.2)) (0, 0)
  let u := s.usage vf die
  let r := (s.vf vf).reserve
  fits shared.1 u.1 1 r.1 && fits shared.2 u.2 banks r.2

/-- A placement of a team at a core under R136 and R306; a function in STATE ERROR runs nothing (R377). -/
def State.roomAt (s : State) (vf core lent : Nat) (k : Kernel) (gangs : Nat) : Option Placed :=
  if (s.vf vf).faultRoom && (s.vf vf).state != 3
      && s.reserveOk vf (core / 64) ((k.chamberFrames + k.laneFrames gangs + 7) / 8) then
    s.placeTeam vf core lent k (k.ask gangs)
  else none

/-- The number of a cluster, over the package. -/
def clusterOf (core : Nat) : Nat := core / 8

/-- A grid may use the merge unit of a cluster (R212): no other grid holds it. -/
def State.unitFree (s : State) (grid core : Nat) : Bool :=
  match SMap.get? (s.die (core / 64)).mergeGrid (clusterOf core) with
  | none => true
  | some g => g == grid

/-- A grid's cluster group can stand at the listed cores for a new team (R121, R212): the unit is to be had, each core can lend its
share, and no saved teams of the group wait to return there. -/
def State.groupOpen (s : State) (id : Nat) (g : Grid) (cs : List Nat) : Bool :=
  s.unitFree id ((cs.head?).getD 0) && (cs.all fun c => (s.shareTop g.vf c (g.kernel.gallery / 2048)).isSome)
    && !(s.teams.any fun t => t.2.own == .grid id && decide (t.2.status = .saved) && t.2.group == some cs)

/-- The placement of a grid's next team at a core. -/
def State.roomForGrid (s : State) (id : Nat) (g : Grid) (core : Nat) : Option Placed :=
  if !g.cluster then s.roomAt g.vf core 0 g.kernel g.gangs
  else match clusterGroup core g.clgrp with
    | none => none
    | some cs => if s.groupOpen id g cs then s.roomAt g.vf core (g.kernel.gallery / 2048) g.kernel g.gangs else none

/-- Scope entries that the acceptance of a grid wrote are complete (R303). -/
def State.scopesDone (s : State) (g : Grid) : Bool := g.scopes.all fun p => !(s.oldGen g.vf p.1 p.2)

/-- A deterministic grid of the context that was accepted earlier is live, and digests are on (R363). -/
def State.detBlocked (s : State) (g : Grid) : Bool :=
  g.det && decide ((s.vf g.vf).cfg 284 4 ≠ 0)
    && s.grids.any fun x => x.2.det && decide (x.2.vf = g.vf) && decide (x.2.arrival < g.arrival)

/-- Teams and tasks of the task set of a grid that are resident, or stopped and not yet gone (R365). -/
def State.setBusy (s : State) (id : Nat) : Bool :=
  s.teams.any fun t => match t.2.own with
    | .grid g => g == id
    | .task d n => ((SMap.get? (s.die d).tasks n).bind Task.set) == some id

/-- The least logical index that waits in the task set of a grid (R365). -/
def State.leastOfSet (s : State) (id : Nat) (g : Grid) : Option Nat :=
  let teams := (List.range g.logical.length).filterMap fun lc => (g.nextAt lc).map Prod.fst
  let tasks := (List.range 4).flatMap fun d =>
    ((s.readyTasks d).filter fun t => t.2.2.set == some id).map fun t => t.2.2.lidx.toNat
  (leastBy ((teams ++ tasks).map fun n => (n, ()))).map Prod.fst

/-- Logical core 0 of a deterministic grid: for a twin, the pair that holds it (R304, R365). -/
def Grid.core0 (g : Grid) (twin : Bool) : Option Nat := (g.logical.head?).map fun c => if twin then c - c % 2 else c

/-- Serial re-execution lets a member of a task set run at a core (R365): alone, the least index, on logical core 0. -/
def State.serialOk (s : State) (id index core : Nat) (twin : Bool) : Bool :=
  match SMap.get? s.grids id with
  | none => true
  | some g => !g.serial || (!(s.setBusy id) && s.leastOfSet id g == some index && g.core0 twin == some core)

/-- The task that the serial phase of its set runs next on a core, whichever die it waits on (R365): its table and slot. -/
def State.serialTask (s : State) (core : Nat) : Option (Nat × Nat) :=
  (((List.range 4).flatMap s.readyTasks).find? fun t => s.serialSet t.2.2
    && (match t.2.2.set with | some g => s.serialOk g t.2.2.lidx.toNat core t.2.2.kernel.twin | none => false)).map fun t =>
      (t.1, t.2.1)

/-! ### Dispatch -/

/-- A block of the fault-area pool, as the device chooses it: its number and its address (R345). -/
def Vf.takeBlock (v : Vf) (tick : Nat) : Option Nat × Word :=
  if v.cfg 56 4 = 0 then (none, 0)
  else
    let n := freshName tick (v.cfg 56 4) (sortNats v.faultBlocks)
    (some n, BitVec.ofNat 64 (v.cfg 48 8 + 4096 * n))

/-- The loop buffers of quadrants to which gangs of a context come keep nothing of another context (R298). -/
def State.claimLoops (s : State) (vf : Nat) (sites : List (Nat × Nat × Nat)) : State :=
  sites.foldl (fun s x => match ((s.core x.1).quad x.2.1).loop with
    | none => s
    | some l => if l.1 = vf then s else s.modQuad x.1 x.2.1 fun q => { q with loop := none, loopWords := [] }) s

/-- A team takes its place: its gangs start, and its cores acquire at entry 7 (R304, R308). -/
def State.startTeam (s : State) (t : Team) (p : Placed) (gangs : Nat) : State :=
  let k := t.kernel
  let (blk, base) := (s.vf t.vf).takeBlock s.tick
  let gs := ((List.range gangs).zip p.gangs).map fun x => (x.1, Gang.start k k.entry x.2.1 x.2.2.1 x.2.2.2 k.regUnits)
  let t := { t with
    twin := if k.twin then some (t.core + 1) else none
    chBase := p.ch
    chSize := k.chamberFrames
    laneBase := p.lane
    laneSize := k.laneFrames gangs
    gangs := gs
    faultBlock := blk
    fbase := base
    since := (s.die (t.core / 64)).cycle }
  let s := s.modVf t.vf fun v => { v with faultBlocks := v.faultBlocks ++ blk.toList }
  let s := ((k.coresAt t.core).foldl (fun s c => s.acquireNow c (s.latch t.vf c 7)) s).claimLoops t.vf p.gangs
  { s with teams := SMap.set s.teams (SMap.freshFrom s.teams 0) t }

/-- A grid takes a cluster's merge unit (R212): its slots are idle where no team of the grid had it. -/
def State.holdUnit (s : State) (id core : Nat) : State :=
  if SMap.get? (s.die (core / 64)).mergeGrid (clusterOf core) = some id then s
  else s.modDie (core / 64) fun x => { x with
    mergeGrid := SMap.set x.mergeGrid (clusterOf core) id
    merge := x.merge.filter fun m => m.1 / 16 != clusterOf core }

/-- A Gallery share whose bytes are zero (R121). -/
def SavedShare.zero : SavedShare := ⟨[], [], []⟩

/-- Each core of a group lends the share of a kernel, with its contents (R121, R123). -/
def State.lendShares (s : State) (vf gallery : Nat) (cs : List Nat) (xs : List SavedShare) : State :=
  (cs.zip xs).foldl (fun s p =>
    let top := (s.shareTop vf p.1 (gallery / 2048)).getD 256
    s.modCore p.1 fun c => { c with
      gallery := p.2.bytes, galBase := p.2.base, galLog := p.2.log, galShare := gallery, galTop := top, galFrames := [] }) s

/-- A grid's cluster group takes its place at the listed cores, under the number of its lowest core where it was saved (R121, R212,
R358): what was saved of it returns, or its slots are idle and its bytes zero. -/
def State.placeGroup (s : State) (id : Nat) (g : Grid) (key : Nat) (cs : List Nat) : State :=
  let s := s.holdUnit id ((cs.head?).getD 0)
  match SMap.get? g.savedGroups key with
  | some x =>
    let s := s.modDie ((cs.head?).getD 0 / 64) fun d => { d with
      merge := x.slots.foldl (fun m p => SMap.set m ((groupSlots cs).1 + p.1) p.2) d.merge }
    let s := s.lendShares g.vf g.kernel.gallery cs x.gallery
    { s with grids := SMap.modify s.grids id fun y => { y with savedGroups := SMap.erase y.savedGroups key } }
  | none =>
    if g.kernel.gallery = 0 ∨ (s.core ((cs.head?).getD 0)).galShare ≠ 0 then s
    else s.lendShares g.vf g.kernel.gallery cs (List.replicate cs.length .zero)

/-- A clustered grid takes the merge unit and the Gallery shares of a group (R121, R212). -/
def State.takeCluster (s : State) (id : Nat) (g : Grid) (core : Nat) : State :=
  if !g.cluster then s
  else match clusterGroup core g.clgrp with
    | none => s
    | some cs => s.placeGroup id g ((cs.head?).getD 0) cs

/-- A team of a grid at its dispatch. -/
def gridTeam (id : Nat) (g : Grid) (core index : Nat) (budget : Option Nat) : Team :=
  { Team.start (.grid id) g.vf g.kernel core with
    index := BitVec.ofNat 64 index
    argp := g.argp
    tenant := g.tenant
    slots := g.slots
    det := g.det
    staged := g.staged
    coop := g.coop
    group := if g.cluster then clusterGroup core g.clgrp else none
    budget := budget
    prio := g.prio }

/-- A grid once a team of it has been dispatched. -/
def Grid.dispatched (g : Grid) (index : Nat) : Grid :=
  if g.waiting.any fun w => w.index == index then { g with waiting := g.waiting.filter fun w => w.index != index }
  else if g.det then
    let lc := index % g.logical.length
    { g with detNext := ZMap.set g.detNext lc (ZMap.get g.detNext lc + 1) }
  else { g with next := g.next + 1 }

/-- A team of a grid is placed at a core. -/
def State.dispatchGrid (s : State) (id : Nat) (g : Grid) (core index : Nat) (budget : Option Nat) (p : Placed) : State :=
  let s := (s.takeCluster id g core).startTeam (gridTeam id g core index budget) p g.gangs
  { s with grids := SMap.modify s.grids id fun g => g.dispatched index }

/-- The cores on which a grid's next team may stand. -/
def State.sitesOf (s : State) (g : Grid) (die : Nat) : List Nat :=
  s.sites g.vf (if g.det then none else some [die]) g.twin g.clgrp

/-- The cores of a die on which a task may stand. -/
def State.taskSites (s : State) (t : Task) (die : Nat) : List Nat := s.sites t.vf (some [die]) t.kernel.twin 0

/-- Whether waiting work could be placed somewhere now. -/
def State.placeable (s : State) (die : Nat) : Work → Bool
  | .team id => match SMap.get? s.grids id with
    | none => false
    | some g => s.scopesDone g && (s.sitesOf g die).any fun c => (s.roomForGrid id g c).isSome
  | .task d n => match SMap.get? (s.die d).tasks n with
    | none => false
    | some t => (s.taskSites t die).any fun c => (s.roomAt t.vf c 0 t.kernel t.gangs).isSome

/-- The work that a die dispatches next: the first in the order that can be placed (R403). -/
def State.nextWork (s : State) (die : Nat) : Option Work := (s.workOn die).find? (s.placeable die)

/-- Teams of a grid that wait for dispatch. -/
def Grid.left (g : Grid) : Nat :=
  g.waiting.length + (g.teams - if g.det then (g.detNext.map fun x => x.2.toNat).foldl (· + ·) 0 else g.next)

/-- Places every team of a cooperative grid (R305), those that migrated on their dies: the state in which all of them are resident, where
there is room. -/
def State.dispatchAll (s : State) (id : Nat) : Nat → Option State
  | 0 => some s
  | n + 1 =>
    match SMap.get? s.grids id with
    | none => none
    | some g =>
      let pick := if g.det then
          ((List.range g.logical.length).filterMap fun lc => match g.nextAt lc, g.logical[lc]? with
            | some x, some c => (s.roomForGrid id g c).map fun p => (x, c, p)
            | _, _ => none).head?
        else (List.range 4).findSome? fun d => match g.nextOn d with
          | none => none
          | some x => (s.sitesOf g d).findSome? fun c => (s.roomForGrid id g c).map fun p => (x, c, p)
      match pick with
      | none => none
      | some (x, c, p) => State.dispatchAll (s.dispatchGrid id g c x.1 x.2.1 p) id n

/-- The next team of a grid is placed at a core; a cooperative grid is placed whole, but for a serial phase (R304, R305, R365). `turn` says
whether a team in normal mode needs its turn in the order of its die (R403). -/
def State.dispatchNext (s : State) (grid core : Nat) (turn : Bool) : Out :=
  match SMap.get? s.grids grid with
  | none => disabled
  | some g =>
    let place (x : Nat × Option Nat × Nat) : Out :=
      match s.roomForGrid grid g core with
      | some p => .next (s.dispatchGrid grid g core x.1 x.2.1 p)
      | none => disabled
    if !(s.scopesDone g) || s.detBlocked g then disabled
    else if g.serial then
      match s.leastOfSet grid g with
      | none => disabled
      | some i =>
        match ((List.range g.logical.length).filterMap fun lc => g.nextAt lc).find? fun x => x.1 == i with
        | some x => if s.serialOk grid i core false then place x else disabled
        | none => disabled
    else if g.coop then
      if g.left = 0 ∨ s.teams.any (fun t => t.2.own == .grid grid) then disabled
      else match s.dispatchAll grid g.left with
        | some s => .next s
        | none => disabled
    else if g.det then
      match (g.logical.findIdx? fun c => c == core).bind g.nextAt with
      | some x => place x
      | none => disabled
    else
      let die := core / 64
      if (!turn || decide (s.nextWork die = some (.team grid))) && (s.sitesOf g die).contains core then
        match g.nextOn die with
        | some x => place x
        | none => disabled
      else disabled

/-- R304, R305, R365, R403: the next team of a grid is dispatched at a core. -/
def execTeamDispatch (grid core : Nat) (s : State) : Out := s.dispatchNext grid core true

/-- A task starts at a core (R308), and its queue has been served. -/
def State.startTask (s : State) (core d n : Nat) (t : Task) (p : Placed) : State :=
  let team := { Team.start (.task d n) t.vf t.kernel core with
    index := t.lidx
    argp := t.argp
    tenant := t.tenant
    slots := t.slots
    det := t.det
    staged := true
    budget := t.budget
    prio := t.prio }
  let s := s.startTeam team p t.gangs
  let s := s.modDie d fun x => { x with tasks := SMap.modify x.tasks n fun t => { t with state := .running, home := core / 64 } }
  s.modDie (core / 64) fun x => { x with served := ZMap.set x.served t.prio (BitVec.ofNat 8 (t.qsel + 1)) }

/-- A ready task is placed at a core of the die where it waits; one of a set in its serial phase at the core of that (R308, R365). -/
def State.placeTask (s : State) (core d n : Nat) : Out :=
  match SMap.get? (s.die d).tasks n with
  | none => disabled
  | some t =>
    let mayStand := if s.serialSet t then s.serialTask core == some (d, n) else t.home == core / 64 && (s.taskSites t (core / 64)).contains core
    if t.state != .ready || !mayStand then disabled
    else match s.roomAt t.vf core 0 t.kernel t.gangs with
      | none => disabled
      | some p => .next (s.startTask core d n t p)

/-- R308, R365, R403: Arbor dispatches a task at a core of its die; a set in its serial phase has its own order and core. -/
def execTaskDispatch (die core : Nat) (s : State) : Out :=
  let pick := (s.serialTask core).orElse fun _ => match s.nextWork die with
    | some (.task d n) => some (d, n)
    | _ => none
  match pick with
  | none => disabled
  | some (d, n) => if core / 64 ≠ die then disabled else s.placeTask core d n

/-! ### Retirement (R310, R362 to R365) -/

/-- The grid whose task set a team belongs to. -/
def State.setOf (s : State) (t : Team) : Option Nat :=
  match t.own with
  | .grid g => if t.det then some g else none
  | .task d n => (SMap.get? (s.die d).tasks n).bind Task.set

/-- Staged writes in program order, as accesses of one line (R238, R241): an address with the bytes stored from it, or with the operand
of a reduction. -/
def stagedRuns (ws : List StagedWrite) : List (Nat × List Byte × Option Nat) :=
  ws.foldr (fun w l => match w with
    | .red va x => (va, [], some x) :: l
    | .byte va b => match l with
      | (a, bs, none) :: rest => if a = va + 1 ∧ a % 256 ≠ 0 then (va, b :: bs, none) :: rest else (va, [b], none) :: l
      | _ => (va, [b], none) :: l) []

/-- A staged store or reduction is performed at its home slice (R241, R247, R310). One whose page no longer admits it is dropped
(assumption 33), and one to an absent package is dropped and logged (R376). Its privilege was checked at its issue, by the mode of its
fragment (R235, R347). -/
def State.commitWrite (s : State) (t : Team) (x : Nat × List Byte × Option Nat) : State :=
  let kind := if x.2.2.isSome then kAtomic else kStore
  match s.xlate t.core t.vf x.1 kind true with
  | .error f => s.logFails (t.core / 64) t.vf [f]
  | .ok y =>
    let s := s.useXlats t.core t.vf kind [y]
    let pa := y.pa x.1
    if s.absent pa then s.event 1 (t.core / 64) t.vf 0 13 x.1 0
    else match x.2.2 with
      | none => s.storeThrough t.core t.vf pa y.leaf x.2.1
      | some w => ((s.beforeAtomic t.core t.vf pa 4).atomicAt t.vf pa 4 y.leaf fun old => some (rnadd old w)).1

/-- A staged control instruction is performed at commit, in program order (R309): a budget counts from the issue of its spawn. -/
def State.commitOp (s : State) (t : Team) : StagedOp → State
  | .spawn die slot issued x =>
    let spent := (s.die die).ref - issued
    s.enterTask die slot { x with budget := x.budget.map fun n => n - spent }
  | .launch id g images => s.acceptGrid id g images
  | .refused status code => s.writeStatus (t.core / 64) t.vf status code 0 0
  | .depset n v => s.depSet n v
  | .depdec n v => s.depDec n v

/-- The commit of a team (R310): stores and reductions in program order, control instructions; a release at entry 7. -/
def State.commit (s : State) (t : Team) : State :=
  let g := t.staging
  let s := (stagedRuns g.writes).foldl (fun s x => s.commitWrite t x) s
  let s := s.releaseNow t.core (s.latch t.vf t.core 7)
  g.ops.foldl (fun s o => s.commitOp t o) s

/-- DLOG, DLEN and DMODE of a function (R363). -/
def Vf.digestLog (v : Vf) : Nat × Nat × Nat := (v.cfg 272 8, v.cfg 280 4, v.cfg 284 4)

/-- Writes an entry of the digest log; a write that fails is dropped, and its error response logged (R376). -/
def State.logDigest (s : State) (die vf entry : Nat) (d : Word) : State :=
  match s.dieTry die vf true ((s.vf vf).digestLog.1 + 8 * entry) (toBytes d.toNat 8) with
  | .ok s => s
  | .error l => s.logFails die vf l

/-- The address of a team's entry in the digest log (R363). -/
def State.digestAddr (s : State) (t : Team) : Nat := (s.vf t.vf).digestLog.1 + 16 + 8 * t.index.toNat

/-- The recorded digest of a team's logical index that replay compares with (R363, R364): none where it is not checked. -/
def State.recorded (s : State) (t : Team) : State × Option Word :=
  let l := (s.vf t.vf).digestLog
  if l.2.2 = 2 ∧ (s.setOf t).isSome ∧ t.index.toNat + 2 < l.2.1 then
    let r := s.devTry (t.core / 64) t.vf true (s.digestAddr t) 8
    (r.1, r.2.map fun bs => BitVec.ofNat 64 (ofBytes bs))
  else (s, none)

/-- A DIGEST record in record 0 of a team's fault area (R365). -/
def State.digestRecord (s : State) (tm : Nat) (core : Nat) (want got : Word) (serial : Bool) : State × Bool :=
  s.writeRecord tm 0 core cDIGEST fun seq =>
    recordBytes { cls := cDIGEST, handle := want, rank := got } 0 0 0 seq 0 false false serial 0

/-- The first mismatch (R365): the team and every other team of the set are discarded without status and entered again, and
the set runs serially from then on. -/
def State.mismatch (s : State) (id tm core : Nat) (want got : Word) : State :=
  let (s, ok) := s.digestRecord tm core want got true
  let s := { s with grids := SMap.modify s.grids id fun g => { g with serial := true } }
  let mine := (s.teams.filter fun t => s.setOf t.2 == some id).map Prod.fst
  mine.foldl (fun s n => if n = tm ∧ !ok then s else s.stopTeam n .retry) s

/-- A staged team ends: its writes to the Gallery shares of its group stay, or vanish with it (R310, R311), also those that pre-emption
saved. -/
def State.settleGallery (s : State) (tm : Nat) (t : Team) (keep : Bool) : State :=
  match t.own, t.group with
  | .grid id, some cs =>
    let settle (x : SavedShare) : SavedShare :=
      let c := { Core.reset with gallery := x.bytes, galBase := x.base, galLog := x.log }.galSettle tm keep
      ⟨c.gallery, c.galBase, c.galLog⟩
    let s := cs.foldl (fun s c => s.modCore c fun x => x.galSettle tm keep) s
    { s with grids := SMap.modify s.grids id fun g => { g with
        savedGroups := SMap.mapVals g.savedGroups fun k x =>
          if cs.head? = some k then { x with gallery := x.gallery.map settle } else x } }
  | _, _ => s

/-- Steps 1 to 4 of R310, and the end of the team. -/
def State.retire (s : State) (tm : Nat) (t : Team) : State :=
  let d := t.staging.digest
  let s := (s.commit t).settleGallery tm t true
  let s := match s.setOf t with
    | none => s
    | some g => { s with grids := SMap.modify s.grids g fun x =>
        { x with digest := x.digest + d * (2 * t.index + 1) } }
  let l := (s.vf t.vf).digestLog
  let s := if l.2.2 = 1 ∧ (s.setOf t).isSome ∧ t.index.toNat + 2 < l.2.1 then
      s.logDigest (t.core / 64) t.vf (2 + t.index.toNat) d else s
  match t.own with
  | .grid _ => s.dropTeam tm 0
  | .task die slot =>
    let x := SMap.get? (s.die die).tasks slot
    let s := match x.bind Task.decc with
      | some n => s.depDec n 1
      | none => s
    (s.endTask die slot 0).removeTeam tm

/-- R310: a staged team whose gangs have exited and whose copies have completed retires. -/
def execTeamRetirement (team : Nat) (s : State) : Out :=
  match s.team? team with
  | none => disabled
  | some t =>
    if !t.staged || !t.gangs.isEmpty || t.stopped.isSome || t.status != .running || s.teamCopies team then disabled
    else
      let got := t.staging.digest
      let (s, rec) := s.recorded t
      match s.setOf t, rec with
      | some id, some want =>
        if want = got then .next (s.retire team t)
        else if !(((SMap.get? s.grids id).map Grid.serial).getD false) then .next (s.mismatch id team t.core want got)
        else
          let (s, ok) := s.digestRecord team t.core want got false
          if !ok then .next s
          else .next ((s.event 7 (t.core / 64) t.vf cDIGEST (t.index.toNat % 2 ^ 32) (s.digestAddr t) got.toNat).retire team t)
      | _, _ => .next (s.retire team t)

/-! ### Discard and end (R311, R313, R318, R352) -/

/-- The code that a stopped team's end gives (R315): a team that is entered again has none. -/
def StopCause.code : StopCause → Nat
  | .fault _ => 5
  | .expired => 4
  | .dropped => 6
  | .retry => 0

/-- A team leaves for a cause, its staging area and local contents with it: it is entered again as ready, or its status follows. -/
def State.leave (s : State) (tm : Nat) (t : Team) (c : StopCause) : State :=
  let s := s.settleGallery tm t false
  match t.own, c with
  | .task die slot, .retry =>
    let s := s.removeTeam tm
    let n := s.order
    s.modDie die fun d => { d with tasks := SMap.modify d.tasks slot fun x => { x with state := .ready, seq := n, budget := t.budget } }
  | .task die slot, c => (s.endTask die slot c.code).removeTeam tm
  | .grid id, .retry =>
    let s := s.removeTeam tm
    { s with grids := SMap.modify s.grids id fun g =>
        { g with waiting := g.waiting ++ [⟨t.index.toNat, t.core / 64, t.budget, g.arrival⟩] } }
  | .grid _, c => s.dropTeam tm c.code

/-- R311, R313, R318: a stopped team whose copies and issued RTU operations have completed is discarded, or ended where it is not staged. -/
def execTeamDiscard (team code : Nat) (s : State) : Out :=
  match s.team? team with
  | none => disabled
  | some t =>
    match t.stopped with
    | none | some (.fault _) => disabled
    | some c => if s.teamBusy team t || c.code != code then disabled else .next (s.leave team t c)

/-- R352: a team stopped for a fault ends with code 5 once its copies and issued RTU operations have completed, and the end is logged. -/
def execTeamEndForFault (team cls : Nat) (s : State) : Out :=
  match s.team? team with
  | none => disabled
  | some t =>
    if t.stopped ≠ some (.fault cls) ∨ s.teamBusy team t then disabled
    else .next ((s.event 4 (t.core / 64) t.vf cls (t.index.toNat % 2 ^ 32) 0 0).leave team t (.fault cls))

/-- A core lends nothing to the Gallery any more. -/
def Core.endShare (c : Core) : Core :=
  { c with gallery := [], galShare := 0, galTop := 256, galBase := [], galLog := [], galFrames := [] }

/-- Frees what a clustered grid held: the merge units and the Gallery shares of its clusters. -/
def State.freeClusters (s : State) (id : Nat) : State :=
  let cls := s.dies.flatMap fun d => (d.2.mergeGrid.filter fun x => x.2 == id).map Prod.fst
  { s with
    dies := SMap.mapVals s.dies fun _ d => { d with mergeGrid := d.mergeGrid.filter fun x => x.2 != id }
    cores := SMap.mapVals s.cores fun n c => if cls.contains (clusterOf n) then c.endShare else c }

/-- R316, R363: a grid whose teams have all finished ends. -/
def execGridEnd (grid : Nat) (s : State) : Out :=
  match SMap.get? s.grids grid with
  | none => disabled
  | some g =>
    if g.finished < g.teams then disabled
    else
      let l := (s.vf g.vf).digestLog
      let s := if g.det && decide (l.2.2 ≠ 0) then
          let s := s.logDigest g.die g.vf 1 g.digest
          if l.2.2 = 1 then s.logDigest g.die g.vf 0 g.digest else s
        else s
      let s := s.writeStatus g.die g.vf g.statusAddr g.badCode g.nbad g.firstBad
      let s := match g.donec with
        | some n => s.releaseDies.depDec n 1
        | none => s
      let s := { (s.freeClusters grid) with grids := SMap.erase s.grids grid }
      .next (s.serveRing g.vf ringFuel)

/-! ### Pre-emption, restore, slices and migration (R314, R356 to R358, R378) -/

/-- A team can be saved: its gangs stand at unit boundaries with no unit in flight, its copies have completed, and the accumulator chains of its quadrants have drained (R143, R356). -/
def State.canSave (s : State) (tm : Nat) (t : Team) : Bool :=
  decide (t.status = .running) && decide (t.stopped = none) && !(s.teamCopies tm) && s.turn.isNone
    && !(t.gangs.isEmpty) && t.gangs.all fun g =>
      (g.2.frags.all fun f => (match f.2.wait with
        | some (.rtu _ _ _ _ _) | some (.copyFrames _ _ _ _) | some (.scopeWrite _ _ _) | some (.icinv _) | some (.getReset _ _ _ _ _) => false
        | _ => true))
      && ((s.core g.2.core).quad g.2.quad).draining.isEmpty

/-- Saves a cluster group's merge slots and Gallery shares (R212, R357): its slots and its cores' frames are free. -/
def State.captureGroup (s : State) (id : Nat) (cs : List Nat) : State :=
  let b := groupSlots cs
  let mine (n : Nat) : Bool := decide (b.1 ≤ n) && decide (n < b.1 + b.2)
  let die := (cs.head?).getD 0 / 64
  let x : SavedGroup := {
    slots := ((s.die die).merge.filter fun m => mine m.1).map fun m => (m.1 - b.1, m.2)
    gallery := (cs.filter fun c => (s.core c).galShare != 0).map fun c =>
      ⟨(s.core c).gallery, (s.core c).galBase, (s.core c).galLog⟩ }
  let s := s.modDie die fun d => { d with merge := d.merge.filter fun m => !(mine m.1) }
  let s := cs.foldl (fun s c => s.modCore c Core.endShare) s
  { s with grids := SMap.modify s.grids id fun g => { g with savedGroups := SMap.set g.savedGroups ((cs.head?).getD 0) x } }

/-- The groups of a grid's cluster (R304). -/
def Grid.groupsOf (g : Grid) (cl : Nat) : List (List Nat) :=
  (List.range (8 / g.clgrp)).filterMap fun i => clusterGroup (8 * cl + g.clgrp * i) g.clgrp

/-- A group of a grid has open slots or a Gallery share. -/
def State.groupHolds (s : State) (cs : List Nat) : Bool :=
  let b := groupSlots cs
  (cs.any fun c => (s.core c).galShare != 0)
    || (s.die ((cs.head?).getD 0 / 64)).merge.any fun m => decide (b.1 ≤ m.1) && decide (m.1 < b.1 + b.2)

/-- A team of a grid runs on the listed cores' group, or, where they are those of a cluster, in the cluster. -/
def State.runsIn (s : State) (id : Nat) (p : List Nat → Bool) : Bool :=
  s.teams.any fun t => t.2.own == .grid id && decide (t.2.status = .running) && t.2.group.any p

/-- The groups of which no team runs any more are saved, and with the last of a cluster its unit is free (R212). -/
def State.saveGroup (s : State) (id : Nat) (cs : List Nat) : State :=
  match SMap.get? s.grids id with
  | none => s
  | some g =>
    if s.runsIn id fun x => x == cs then s
    else
      let s := s.captureGroup id cs
      let cl := clusterOf ((cs.head?).getD 0)
      if s.runsIn id fun x => x.any fun c => clusterOf c == cl then s
      else
        let s := ((g.groupsOf cl).filter s.groupHolds).foldl (fun s x => s.captureGroup id x) s
        s.modDie (cl / 8) fun d => { d with mergeGrid := SMap.erase d.mergeGrid cl }

/-- The save image of a team lies in the save area of its function (R357): bytes of it that the spec gives no format take free values, and
what the image holds stays in the team (DESIGN CHOICE, assumption 123). -/
def State.writeImage (s : State) (vf : Nat) : State :=
  let base := (s.vf vf).cfg 72 8
  let n := min ((s.vf vf).cfg 80 8) (Config.imageSize s.tick)
  if n = 0 then s
  else if !(s.reaches base n) then s.event 1 0 vf 0 0 base 0
  else { s with mem := Memory.store s.mem base ((List.range n).map fun i => (Config.freeWord 5 (s.tick + i)).setWidth 8) }

/-- Saves a team (R357): its gangs' earlier writes reach the home slices, and what it held of its core is free, with the last team of a
cluster group what the group held (R212). A request that went on in ramp mode stays queued (R225). -/
def State.saveTeam (s : State) (tm : Nat) (t : Team) : State :=
  let s := (t.kernel.coresAt t.core).foldl (fun s c => s.releaseNow c (s.latch t.vf c 7)) s
  let s := { s with dies := SMap.mapVals s.dies fun _ d => { d with
    surge := d.surge.filter fun x => x.ramped || x.ref.team != tm
    grants := d.grants.filter fun r => r.team != tm } }
  let s := s.modTeam tm fun t => { t with
    status := .saved
    gangs := SMap.mapVals t.gangs fun _ g => { g with
      releases := []
      unacked := 0
      accs := SMap.mapVals g.accs fun _ a => { a with units := [] } } }
  let s := s.writeImage t.vf
  match t.own with
  | .grid id => match t.group with
    | some cs => s.saveGroup id cs
    | none => s
  | .task die slot => s.modDie die fun d => { d with tasks := SMap.modify d.tasks slot fun x => { x with state := .suspended } }

/-- The teams that are saved with a team: every team of a cooperative grid (R305), and those of its cluster group, which return
together (R358). -/
def State.savedWith (s : State) (tm : Nat) (t : Team) : List (Nat × Team) :=
  if t.coop || t.group.isSome then
    s.teams.filter fun x => x.2.own == t.own && decide (x.2.status = .running) && (t.coop || x.2.group == t.group)
  else [(tm, t)]

/-- Saves every listed team, where each of them can be saved. -/
def State.saveAll (s : State) (ts : List (Nat × Team)) : Out :=
  if ts.all fun t => s.canSave t.1 t.2 then .next (ts.foldl (fun s t => s.saveTeam t.1 t.2) s) else disabled

/-- R305, R356, R357: a team is pre-empted and saved, a cooperative grid whole. -/
def execPreempt (team : Nat) (s : State) : Out :=
  match s.team? team with
  | none => disabled
  | some t => s.saveAll (s.savedWith team t)

/-- Binds the saved accumulator names of a gang to fresh units of its quadrant (R143). -/
def Gang.rebind (g : Gang) (width : Nat) (free : List Nat) : Option (Gang × List Nat) :=
  g.accs.foldl (fun (r : Option (Gang × List Nat)) p => match r with
    | none => none
    | some (g, free) =>
      if free.length < width / 8 then none
      else some ({ g with accs := SMap.set g.accs p.1 { p.2 with units := free.take (width / 8) } }, free.drop (width / 8))) (some (g, free))

/-- Puts a saved gang on a quadrant: none where the accumulator file has too few free units. -/
def State.placeGang (s : State) (tm n : Nat) (k : Kernel) (site : Nat × Nat × Nat) : Option State :=
  match s.gang? tm n with
  | none => some s
  | some g =>
    let held := (s.teams.filter fun t => decide (t.2.status = .running) || t.1 == tm).flatMap fun t => t.2.gangs.flatMap fun x =>
      if x.2.core = site.1 ∧ x.2.quad = site.2.1 then x.2.accs.flatMap fun a => a.2.units else []
    let free := (List.range 128).filter fun u => !(held.contains u) && !(((s.core site.1).quad site.2.1).draining.any fun d => d.1 == u)
    (g.rebind k.width free).map fun r =>
      s.modGang tm n fun _ => { r.1 with core := site.1, quad := site.2.1, regBase := site.2.2, regSize := k.regUnits }

/-- Restores a team at a core (R358): its gangs, blocks and names take new places. -/
def State.restoreTeam (s : State) (tm core : Nat) (t : Team) (p : Placed) : Option State :=
  let s' := ((t.gangs.map Prod.fst).zip p.gangs).foldl (fun (r : Option State) x =>
    r.bind fun s => s.placeGang tm x.1 t.kernel x.2) (some s)
  s'.map fun s =>
    let s := s.modTeam tm fun x => { x with
      status := .running
      core := core
      twin := if x.kernel.twin then some (core + 1) else none
      chBase := p.ch
      laneBase := p.lane
      since := (s.die (core / 64)).cycle }
    let s := ((t.kernel.coresAt core).foldl (fun s c => s.acquireNow c (s.latch t.vf c 7)) s).claimLoops t.vf p.gangs
    match t.own with
    | .grid _ => s
    | .task die slot => s.modDie die fun d => { d with tasks := SMap.modify d.tasks slot fun x => { x with state := .running } }

/-- The cores on which a saved team may be restored (R358, R365): those of its die, of its cluster group, or the logical core of a
deterministic team, and twins for a twin. -/
def State.restoreSites (s : State) (t : Team) : List Nat :=
  let all := s.partition t.vf
  let p := all.filter fun c => c / 64 == t.core / 64 && (!t.kernel.twin || (c % 2 == 0 && all.contains (c + 1)))
  match t.own, t.group with
  | .grid _, some g => p.filter fun c => g.contains c && (!t.det || c == t.core)
  | .grid _, none => if t.det then p.filter fun c => c == t.core else p
  | .task d n, _ =>
    match ((SMap.get? (s.die d).tasks n).bind Task.set).bind fun g => SMap.get? s.grids g with
    | some g => if g.serial then p.filter fun c => g.core0 t.kernel.twin == some c else p
    | none => p

/-- A placement for a saved team: its fault-area block is still its own. -/
def State.roomToRestore (s : State) (t : Team) (core : Nat) : Option Placed :=
  if (s.vf t.vf).state = 3 ∨ !(s.reserveOk t.vf (core / 64) ((t.chSize + t.laneSize + 7) / 8)) then none
  else s.placeTeam t.vf core 0 t.kernel t.ask

/-- Restores the listed saved teams, each where it finds room (R305, R358). -/
def State.restoreAll (s : State) : List Nat → Option State
  | [] => some s
  | tm :: rest =>
    match s.team? tm with
    | none => none
    | some t =>
      match (s.restoreSites t).findSome? fun c => (s.roomToRestore t c).bind fun p => s.restoreTeam tm c t p with
      | some s => State.restoreAll s rest
      | none => none

/-- The groups of cores to which a saved cluster group may return (R212, R358): its own place in a cluster of its die, which no other
group of the grid has; for a deterministic grid its own cores. -/
def State.groupSites (s : State) (id : Nat) (g : Grid) (old : List Nat) : List (List Nat) :=
  let die := (old.head?).getD 0 / 64
  let taken (cs : List Nat) : Bool :=
    s.groupHolds cs || (SMap.get? g.savedGroups ((cs.head?).getD 0)).isSome
      || s.teams.any fun t => t.2.own == .grid id && t.2.group == some cs
  ((if g.det then [old] else (List.range 8).map fun i => old.map fun c => 64 * die + 8 * i + c % 8)).filter fun cs =>
    cs.all (s.partition g.vf).contains && s.unitFree id ((cs.head?).getD 0)
      && (cs.all fun c => (s.shareTop g.vf c (g.kernel.gallery / 2048)).isSome) && (cs == old || !(taken cs))

/-- A wait on a merge slot follows its group to another unit (R212). -/
def Fragment.moveSlot (f : Fragment) (a b : Nat) : Fragment :=
  match f.wait with
  | some (.merge n sd w nxt ch sw) => { f with wait := some (.merge (n - a + b) sd w nxt ch sw) }
  | _ => f

/-- A saved cluster group returns to the listed cores, and its teams with it. -/
def State.restoreGroup (s : State) (id : Nat) (g : Grid) (old cs : List Nat) (mates : List Nat) : Option State :=
  let s := s.placeGroup id g ((old.head?).getD 0) cs
  let move (x : Gang) : Gang :=
    x.frags.foldl (fun x f => x.setFrag f.1 (f.2.moveSlot (groupSlots old).1 (groupSlots cs).1)) x
  let s := mates.foldl (fun s n => s.modTeam n fun t => { t with
    group := some cs, gangs := SMap.mapVals t.gangs fun _ x => move x }) s
  s.restoreAll mates

/-- Teams of a grid that are saved, of one cluster group. -/
def State.mates (s : State) (own : Owning) (group : Option (List Nat)) : List Nat :=
  (s.teams.filter fun x => x.2.own == own && decide (x.2.status = .saved) && x.2.group == group).map Prod.fst

/-- Restores every saved group of a cooperative grid with cluster grouping (R305). -/
def State.restoreGroups (s : State) (id : Nat) : List (List Nat) → Option State
  | [] => some s
  | old :: rest =>
    match SMap.get? s.grids id with
    | none => none
    | some g =>
      match (s.groupSites id g old).findSome? fun cs => s.restoreGroup id g old cs (s.mates (.grid id) (some old)) with
      | some s => State.restoreGroups s id rest
      | none => none

/-- The partition of a cooperative grid can still hold all its resident and saved teams at once (R305). -/
def State.coopFits (s : State) (id : Nat) (g : Grid) : Bool :=
  let n := s.teams.countP fun t => t.2.own == .grid id
  let sites := s.sites g.vf (if g.det then none else some [0, 1, 2, 3]) g.twin g.clgrp
  decide (n ≤ (sites.map fun c => s.capacity g.vf c g.kernel g.gangs).foldl (· + ·) 0)
    && (!g.det || g.logical.all sites.contains)

/-- Restores every team of a cooperative grid (R305). -/
def State.restoreCoop (s : State) (own : Owning) : Option State :=
  let all := s.teams.filter fun x => x.2.own == own
  if all.any fun x => decide (x.2.status ≠ .saved) then none
  else match own with
    | .task _ _ => none
    | .grid id =>
      let groups := distinct (all.filterMap fun x => x.2.group)
      if groups.isEmpty then s.restoreAll (all.map Prod.fst) else s.restoreGroups id groups

/-- R358: a saved team is restored at a core, a cluster group together in the core's cluster; a cooperative grid is restored whole
(R305). -/
def execTeamRestore (team core : Nat) (s : State) : Out :=
  let done (r : Option State) : Out := match r with
    | some s => .next s
    | none => disabled
  match s.team? team with
  | none => disabled
  | some t =>
    if t.status ≠ .saved ∨ t.stopped.isSome then disabled
    else if t.coop then done (s.restoreCoop t.own)
    else match t.own, t.group with
      | .grid id, some old => match SMap.get? s.grids id with
        | none => disabled
        | some g =>
          let cs := old.map fun c => core / 8 * 8 + c % 8
          if (s.groupSites id g old).contains cs then done (s.restoreGroup id g old cs (s.mates t.own t.group)) else disabled
      | _, _ =>
        if !((s.restoreSites t).contains core) then disabled
        else done ((s.roomToRestore t core).bind fun p => s.restoreTeam team core t p)

/-- An attempt to place what waits: a grid's next team, a ready task, or a saved team. -/
inductive Attempt where
  | grid (id : Nat)
  | task (die slot : Nat)
  | saved (team : Nat)
deriving DecidableEq, Repr

/-- Makes an attempt at a core, whether or not other work comes before it in the order of its die. -/
def Attempt.run (a : Attempt) (core : Nat) (s : State) : Out :=
  match a with
  | .grid id => s.dispatchNext id core false
  | .task d n => s.placeTask core d n
  | .saved tm => execTeamRestore tm core s

/-- An attempt succeeds. -/
def Attempt.ok (a : Attempt) (core : Nat) (s : State) : Bool :=
  match a.run core s with
  | .next _ => true
  | _ => false

/-- What may wait for room on a core (R304, R305, R308, R358). -/
def State.attempts (s : State) : List Attempt :=
  s.grids.map (fun g => .grid g.1)
    ++ (s.dies.flatMap fun d => (d.2.tasks.filter fun t => t.2.state == .ready).map fun t => .task d.1 t.1)
    ++ (s.teams.filter fun t => decide (t.2.status = .saved)).map fun t => .saved t.1

/-- The function whose team or task an attempt would place. -/
def Attempt.vf? (a : Attempt) (s : State) : Option Nat :=
  match a with
  | .grid id => (SMap.get? s.grids id).map Grid.vf
  | .saved tm => (s.team? tm).map Team.vf
  | .task d n => (SMap.get? (s.die d).tasks n).map Task.vf

/-- The cores on which an attempt at a core needs room (R136, R212, R305): of a cooperative grid the partition, of a cluster group its
cores, of a twin the pair. -/
def Attempt.needs (a : Attempt) (core : Nat) (s : State) : List Nat :=
  let pair (twin : Bool) : List Nat := if twin then [core, core + 1] else [core]
  match a with
  | .grid id => ((SMap.get? s.grids id).map fun g =>
      if g.coop && !g.serial then s.partition g.vf
      else distinct ((if g.cluster then (clusterGroup core g.clgrp).getD [] else []) ++ pair g.twin)).getD []
  | .saved tm => ((s.team? tm).map fun t =>
      if t.coop then s.partition t.vf
      else distinct ((t.group.getD []).map (fun c => core / 8 * 8 + c % 8) ++ pair t.kernel.twin)).getD []
  | .task d n => ((SMap.get? (s.die d).tasks n).map fun t => pair t.kernel.twin).getD []

/-- The teams of other functions on quadrants of the listed cores that serve a function, whose slice has ended: they have held them for
SLICE microseconds of 2,800 cycles (R378). -/
def State.sliceOver (s : State) (vf : Nat) (cores : List Nat) : List (Nat × Team) :=
  s.teams.filter fun t => decide (t.2.vf ≠ vf) && decide (t.2.status = .running)
    && (t.2.gangs.any fun g => cores.contains g.2.core && (s.quadsFor g.2.core vf).contains g.2.quad)
    && decide ((s.vf t.2.vf).cfg 304 4 ≠ 0)
    && decide (t.2.since + (s.vf t.2.vf).cfg 304 4 * 2800 ≤ (s.die (t.2.core / 64)).cycle)

/-- The teams that are saved where those whose slice has ended on the listed cores are: each with its group or its cooperative grid. -/
def State.sliceTeams (s : State) (vf : Nat) (cores : List Nat) : List (Nat × Team) :=
  s.teams.filter fun x => (s.sliceOver vf cores).any fun t => (s.savedWith t.1 t.2).any fun y => y.1 == x.1

/-- The end of other functions' slices on the cores that an attempt of a function needs (R378): the state in which it has been dispatched,
where it finds room then. -/
def State.sliceFor (s : State) (vf core : Nat) (a : Attempt) : Option State :=
  let ts := s.sliceTeams vf (a.needs core s)
  if a.ok core s || ts.isEmpty then none
  else match s.saveAll ts with
    | .next s => if a.vf? s = some vf then (match a.run core s with | .next t => some t | _ => none) else none
    | _ => none

/-- R378: at the end of their slice, the teams of other functions on the cores that a function's waiting team needs are pre-empted, and
that team is dispatched. -/
def execSliceEnd (vf core : Nat) (s : State) : Out :=
  match s.attempts.findSome? (s.sliceFor vf core) with
  | some t => .next t
  | none => disabled

/-- A core's Gallery share that no running team uses is saved with its group, so that the core's frames are free (R378). -/
def State.clearShare (s : State) (core : Nat) : State :=
  match SMap.get? (s.die (core / 64)).mergeGrid (clusterOf core) with
  | none => s
  | some id => match SMap.get? s.grids id with
    | none => s
    | some g => ((g.groupsOf (clusterOf core)).filter fun cs =>
        cs.contains core && s.groupHolds cs && !(s.runsIn id fun x => x == cs)).foldl (fun s cs => s.captureGroup id cs) s

/-- A budget after a migration: the bound on transit is subtracted (R314). -/
def afterTransit (b : Option Nat) : Option Nat := b.map fun n => n - 2000

/-- A die is overloaded (R314): work that waits on it cannot be placed. -/
def State.overloaded (s : State) (die : Nat) : Bool :=
  ((s.workOn die).any fun w => !(s.placeable die w))
    || s.grids.any fun g => g.2.coop && !g.2.det && (g.2.nextOn die).isSome && (s.dispatchAll g.1 g.2.left).isNone

/-- A die advertises free team slots to a team (R314): some core of it on which the team may stand has fewer than 32 teams. -/
def State.freeSlots (s : State) (cores : List Nat) : Bool := cores.any fun c => decide (s.residentTeams c < 32)

/-- R314: an undispatched or suspended task, or the next undispatched team of a grid, is sent to another die; a running task is
suspended for it (R356). `slot` below 65,536 names a task of the die's table, above it a grid. -/
def execTeamMigrate (die slot dest : Nat) (s : State) : Out :=
  if 4 ≤ dest then disabled
  else if slot < 65536 then
    match SMap.get? (s.die die).tasks slot with
    | none => disabled
    | some t =>
      if t.home = dest ∨ s.serialSet t ∨ !(s.overloaded t.home) ∨ !(s.freeSlots (s.taskSites t dest)) then disabled
      else
        let n := s.order
        let move (s : State) (b : Option Nat) : State :=
          s.modDie die fun d => { d with tasks := SMap.modify d.tasks slot fun t =>
            { t with state := .ready, home := dest, seq := n, budget := afterTransit b } }
        let team := (s.teamOfTask die slot).bind fun tm => (s.team? tm).map fun x => (tm, x)
        match t.state, team with
        | .held, _ => .next (s.modDie die fun d => { d with tasks := SMap.modify d.tasks slot fun t =>
            { t with home := dest, budget := afterTransit t.budget } })
        | .ready, _ => .next (move s t.budget)
        | .running, some (tm, x) => if s.canSave tm x then .next (move ((s.saveTeam tm x).removeTeam tm) x.budget) else disabled
        | .suspended, some (tm, x) => if x.stopped.isSome then disabled else .next (move (s.removeTeam tm) x.budget)
        | _, none => disabled
  else
    match SMap.get? s.grids (slot - 65536) with
    | none => disabled
    | some g =>
      if die = dest ∨ g.det ∨ !(s.overloaded die) ∨ !(s.freeSlots (s.sitesOf g dest)) then disabled
      else match g.nextOn die with
        | none => disabled
        | some (i, b, _) =>
          let g := g.dispatched i
          .next { s with grids := SMap.set s.grids (slot - 65536) { g with
            waiting := g.waiting ++ [⟨i, dest, afterTransit b, g.arrival⟩] } }

/-! ### The compactor (R138) -/

/-- Places for blocks beside the ones in use, the largest first, each as the allocator places it: by the names that they have. None where they
do not fit. -/
def packBlocks {α : Type} (used : List (Nat × Nat)) (lo hi : Nat) (l : List (Nat × α)) : Option (List (Nat × α)) :=
  ((sortBy (l.map fun x => (2 ^ 20 - x.1, x.2))).foldl (fun (r : Option (List (Nat × Nat) × List (Nat × α))) x =>
    r.bind fun r => (findBlock r.1 lo hi (2 ^ 20 - x.1)).map fun b => ((b, 2 ^ 20 - x.1) :: r.1, (b, x.2) :: r.2)) (some (used, []))).map
      Prod.snd

/-- The register ranges of a quadrant, moved together (R138). -/
def State.packRanges (s : State) (core quad : Nat) : State :=
  let l := (s.residents core quad).map fun x => (x.2.2.regSize, (x.1, x.2.1))
  ((packBlocks [] 0 128 (l.filter fun x => x.1 ≠ 0)).getD []).foldl (fun s p => s.modGang p.2.1 p.2.2 fun g => { g with regBase := p.1 }) s

/-- The Chamber blocks of the teams resident on a core between two frames: base, size, team, whether it is the lane-slice block, and
whether it may move (R138): one with a frame that is EW or ER may not. -/
def State.chamberBlocks (s : State) (core lo hi : Nat) : List (Nat × Nat × Nat × Bool × Bool) :=
  (s.teams.flatMap fun t =>
    if t.2.status = .running ∧ t.2.core = core then
      [(t.2.chBase, t.2.chSize, t.1, false, decide (t.2.frames = [])), (t.2.laneBase, t.2.laneSize, t.1, true, true)]
    else []).filter fun b => decide (b.2.1 ≠ 0) && decide (lo ≤ b.1) && decide (b.1 < hi)

/-- The Chamber blocks of a core between two frames, moved together beside those that may not move, its Gallery share, and the frames of
a share that a group would be lent (R121, R137, R138). -/
def State.packRegion (s : State) (core lo hi : Nat) (hole : List (Nat × Nat)) : State :=
  let bs := s.chamberBlocks core lo hi
  let fixed := (s.core core).shareBlock ++ (bs.filter fun b => !b.2.2.2.2).map fun b => (b.1, b.2.1)
  let free := (bs.filter fun b => b.2.2.2.2).map fun b => (b.2.1, (b.2.2.1, b.2.2.2.1))
  let ps := (packBlocks (hole ++ fixed) lo hi free).orElse fun _ => packBlocks fixed lo hi free
  (ps.getD []).foldl (fun s p => s.modTeam p.2.1 fun t => if p.2.2 then { t with laneBase := p.1 } else { t with chBase := p.1 }) s

/-- The package with every register range and every Chamber block that may move moved together (R138): what a request finds that is lent a
Gallery share of `lent` frames on the quadrant's frames, or fails on for want of room. -/
def State.packed (s : State) (lent quad : Nat) : State :=
  let s := s.busyQuads.foldl (fun s q => s.packRanges q.1 q.2) s
  let cores := distinct ((s.teams.filter fun t => decide (t.2.status = .running)).map fun t => t.2.core)
  cores.foldl (fun s c =>
    let hole (top : Nat) : List (Nat × Nat) := if lent = 0 ∨ (s.core c).lent ≠ 0 then [] else [(top - lent, lent)]
    if s.partitioned c then
      (List.range 4).foldl (fun s q => s.packRegion c (64 * q) (64 * q + 64) (if q = quad then hole (64 * q + 64) else [])) s
    else s.packRegion c 0 256 (hole 256)) s

/-- The Gallery shares that requests are lent, in frames. -/
def State.shares (s : State) : List Nat := distinct (0 :: s.grids.map fun g => g.2.kernel.gallery / 2048)

/-- A request that needs room on a core fails only because the free space is fragmented (R138): a twin's, at the even core of its pair, and
a group's, at any core of the cluster. -/
def State.fragmented (s : State) (core : Nat) : Bool :=
  let sites := (List.range 8).map fun i => core / 8 * 8 + i
  let fails := s.attempts.flatMap fun a => (sites.filter fun c => !(a.ok c s)).map fun c => (a, c)
  !fails.isEmpty && s.shares.any fun n => (List.range 4).any fun q =>
    let u := s.packed n q
    fails.any fun x => x.1.ok x.2 u

/-- A block of a core may move to a base (R137, R138): aligned, within the core's frames or its owner's, and free but for the block
itself. -/
def State.blockFits (s : State) (core old size base : Nat) : Bool :=
  let others := ((s.core core).shareBlock ++ s.blocks core).filter fun b => !(decide (b.1 = old) && decide (b.2 = size))
  decide (size ≠ 0) && decide (base % size = 0) && decide (base + size ≤ 256) && decide (base ≠ old)
    && (!(s.partitioned core) || decide (base / 64 = old / 64))
    && others.all fun b => decide (b.1 + b.2 ≤ base) || decide (base + size ≤ b.1)

/-- R138: where a request on its core fails for fragmentation alone, a live register range (of a gang), the Chamber block (gang 32) or the
lane-slice block (gang 33) of a team moves to a free place. -/
def execCompactorMove (team gang base : Nat) (s : State) : Out :=
  match s.team? team with
  | none => disabled
  | some t =>
    if t.status ≠ .running then disabled
    else if gang = 32 then
      if t.frames = [] ∧ s.blockFits t.core t.chBase t.chSize base ∧ s.fragmented t.core then
        .next (s.modTeam team fun t => { t with chBase := base })
      else disabled
    else if gang = 33 then
      if s.blockFits t.core t.laneBase t.laneSize base ∧ s.fragmented t.core then
        .next (s.modTeam team fun t => { t with laneBase := base })
      else disabled
    else
      match SMap.get? t.gangs gang with
      | none => disabled
      | some g =>
        let others := s.ranges.filter fun u => decide (u.1 = g.core) && decide (u.2.1 = g.quad) && decide (u.2.2.1 ≠ g.regBase)
        let clear := others.all fun u => decide (u.2.2.1 + u.2.2.2 ≤ base) || decide (base + g.regSize ≤ u.2.2.1)
        if g.regSize = 0 ∨ base % g.regSize ≠ 0 ∨ 128 < base + g.regSize ∨ base = g.regBase ∨ !clear ∨ !(s.fragmented g.core)
        then disabled
        else .next (s.modGang team gang fun g => { g with regBase := base })

/-- R312: a budget that has counted down to zero: nothing acts on it before a `yield` (R313). -/
def execDeadlineExpiry (team : Nat) (s : State) : Out :=
  match s.team? team with
  | none => disabled
  | some t => if t.budget = some 0 then .next s else disabled

end Sys2Proof.Machine
end

