-- ==== Sys2Proof/Machine/Coherence.lean ====
section
/-! DEFINITION. The steps of caches, walkers and arbiters by themselves: page walks, sector fills, evictions, atomic lanes at a home
slice, the return of accumulator units, surge windows and residency epochs (R43 to R60, R140, R224, R225, R240). -/

namespace Sys2Proof.Machine

/-! ### Page walks -/

/-- R59, R60: a walker walks for a page that no TLB holds; where the page passes, its A and D bits are set and the translation is
installed; a walk that fails leaves nothing but the record of an error response (R376). -/
def execPageWalk (core vf : Nat) (va : BitVec 64) (kind : BitVec 2) (priv : Bool) (s : State) : Out :=
  let held := (tlbFind (s.core core).tlb vf va.toNat).orElse fun _ => tlbFind (s.die (core / 64)).tlb vf va.toNat
  let serves := match held with
    | some t => !(kind.toNat == kStore || kind.toNat == kAtomic) || bit t.leaf 6
    | none => false
  if serves || !(canonical va.toNat) then disabled
  else match s.walk vf va.toNat kind.toNat priv with
    | .error f => .next (s.logFails (core / 64) vf [f])
    | .ok x => .next (s.useXlats core vf kind.toNat [x])

/-! ### Fills and evictions -/

/-- The one access of a request to the levels below the L1 (R53, R248): of the sectors that the L1 has not, where the request fills it. -/
def State.reachBelow (s : State) (core : Nat) (r : Request) : State :=
  match r.level with
  | 0 =>
    let miss := if pteClv r.leaf = 0 then r.sectors &&& ~~~(lineOf (s.core core).l1 r.vf r.num r.leaf).valid else r.sectors
    if miss = 0 then s else s.fillRemote (core / 64) r.vf r.num miss r.leaf
  | 1 => s.fillRemote (core / 64) r.vf r.num r.sectors r.leaf
  | _ => match s.homeDie (r.num * 256) with
    | some h => if isHbm (r.num * 256) then s.reachCavern h r.num r.sectors 0 r.leaf else s
    | none => s

/-- R43, R44, R46, R248: a sector of a core's oldest request that has asked for it arrives, the first with the access of the whole request.
A request to an absent package ends, and its error response is logged (R376, R379). -/
def execSectorFill (core line sector : Nat) (s : State) : Out :=
  match (s.core core).requests.find? fun r => decide (r.num = line) && decide (sector < 4) && bit r.sectors sector with
  | none => disabled
  | some r =>
    if s.absent (line * 256) then
      .next ((s.modCore core fun c => { c with requests := c.requests.erase r }).event 1 (core / 64) r.vf 0 0 r.va 0)
    else
      let s := if r.reached then s else s.reachBelow core r
      let left := r.sectors &&& ~~~(BitVec.ofNat 4 (2 ^ sector))
      let s := s.modCore core fun c => { c with
        requests := (if left = 0 then [] else [{ r with sectors := left, reached := true }]) ++ c.requests.erase r }
      .next (if r.level = 0 ∧ pteClv r.leaf = 0 then s.fillOwn core r.vf line (BitVec.ofNat 4 (2 ^ sector)) r.leaf else s)

/-- R44, R48, R54: a line with a number leaves a cache; only its written bytes go below. A line of an L2 set leaves only where its
eviction priority is first. -/
def execLineEviction (level owner line : Nat) (s : State) : Out :=
  match level with
  | 0 => match (s.core owner).l1.find? fun l => decide (l.num = line) with
    | some l => .next (s.evictL1 owner l)
    | none => disabled
  | 1 =>
    let d := s.die owner
    match d.remote.find? fun l => decide (l.num = line)
      && (evictFirst (fun x => pteEvp x.leaf) (d.remoteMates line l.set)).contains l with
    | none => disabled
    | some l => .next (s.evictRemote owner l)
  | 2 =>
    let d := s.die owner
    match d.l2.find? fun h => decide (h.num = line)
      && (evictFirst (fun x => x.evp.toNat) (d.l2.filter fun x => x.slice == h.slice && x.set == h.set)).contains h with
    | none => disabled
    | some h => .next (s.evictHome owner h)
  | _ =>
    let d := s.die owner
    match (evictFirst (fun x => x.evp.toNat) (d.cavernVictims (paStack (line * 256)) 0)).find? fun h => decide (h.num = line) with
    | none => disabled
    | some h => .next (s.modDie owner fun d => { d with cavern := d.cavern.filter fun x => !(h.is x) })

/-! ### Atomic lanes -/

/-- What a lane of an operation code stores: 0 to 9 as `atomicFn`, 10 the residue add (R247), 16 + o + 4F + 8Q + 16S a float
reduction (R245). -/
def laneFn (op sz old v cmp : Nat) : Option Nat :=
  if op < 10 then atomicFn op sz old v cmp
  else if op = 10 then
    some (rnadd (old % 2 ^ 32) (v % 2 ^ 32) + if sz = 8 then 2 ^ 32 * rnadd (old / 2 ^ 32) (v / 2 ^ 32 % 2 ^ 32) else 0)
  else some (gredFn ((op - 16).testBit 2) ((op - 16).testBit 3) ((op - 16).testBit 4) (op % 4) old (v % 2 ^ 32))

/-- An operation code and an access size that go together. -/
def laneOk (op sz : Nat) : Bool := (decide (op ≤ 10) && (sz == 4 || sz == 8)) || (decide (16 ≤ op) && decide (op < 48) && sz == 4)

/-- An indivisible read and write at a home slice of the package: the old value, and the new one where the lane stores. -/
def State.laneAt (s : State) (pa sz op v cmp : Nat) : State × Nat :=
  let old := ofBytes (Memory.bytes s.mem pa sz)
  match laneFn op sz old v cmp with
  | some x => ({ s with mem := Memory.store s.mem pa (toBytes x sz) }, old)
  | none => (s, old)

/-- An access of n bytes from outside reaches its home slice (R46, R53). The requester has translated it: its leaf, and the function in
whose set the line stands, are free (DESIGN CHOICE, assumption 108). -/
def State.outsideTouch (s : State) (pa n : Nat) (stores : Bool) : State :=
  (linePieces pa n).foldl (fun s p => s.homeTouch (Config.freeWord 4 s.tick).toNat (p.1 / 256) (sectorMask (p.1 % 256) p.2)
    (if stores then byteMask (p.1 % 256) p.2 else 0) (Config.freeWord 3 s.tick)) s

/-- An atomic lane from outside at its home slice: the answer stands in `hostResult`. -/
def State.outsideLane (s : State) (pa size op v cmp : Nat) : State :=
  let x := s.laneAt pa size op v cmp
  { s.outsideTouch pa size (laneFn op size x.2 v cmp).isSome with
    mem := x.1.mem, hostResult := BitVec.ofNat 64 x.2, hostError := false }

/-- R240: an aligned lane at an HBM4E address of the package. -/
def execHomeSliceAtomic (pa size op : Nat) (v cmp : BitVec 64) (s : State) : Out :=
  if !(laneOk op size) || decide (pa % size ≠ 0) || !(isHbm pa && regionOk pa) || (s.homeDie pa).isNone then disabled
  else .next (s.outsideLane pa size op v.toNat cmp.toNat)

/-! ### Accumulator units and surge grants -/

/-- R140, R142: the units of a quadrant that drain return to its free list. -/
def execAccUnitsReturn (core quad : Nat) (s : State) : Out :=
  if ((s.core core).quad quad).draining.isEmpty then disabled
  else .next (s.modQuad core quad fun q => { q with draining := [] })

/-- The request that the arbiter serves next (R224): the oldest of the tenant that follows the one served last. -/
def Die.nextGrant (d : Die) : Option Surge :=
  let ts := sortNats (d.surge.map Surge.tenant)
  let t := ((ts.find? fun t => decide (d.surgeTenant < t)).orElse fun _ => ts.head?)
  t.bind fun t => d.surge.find? fun x => x.tenant == t

/-- One grant: a request whose chain start waits may go on, and one that went on in ramp mode returns to full rate (R225). -/
def State.grantOne (s : State) (die : Nat) : State :=
  match (s.die die).nextGrant with
  | none => s
  | some x =>
    let s := s.modDie die fun d => { d with
      window := d.cycle / 32
      granted := d.grantedNow + 1
      surgeTenant := x.tenant
      surge := d.surge.erase x
      grants := if x.ramped then d.grants else d.grants ++ [x.ref] }
    if x.ramped then s.modQuad x.core x.quad fun q => { q with ramp := false } else s

/-- The grants that a window has left. -/
def State.grantMany (s : State) (die : Nat) : Nat → State
  | 0 => s
  | n + 1 => State.grantMany (s.grantOne die) die n

/-- R224: at most 16 grants in the window of 32 cycles that is open. -/
def execSurgeWindow (die : Nat) (s : State) : Out :=
  let d := s.die die
  if d.surge.isEmpty || decide (16 ≤ d.grantedNow) then disabled else .next (s.grantMany die (16 - d.grantedNow))

/-- R225: a request that has waited 128 cycles goes on in ramp mode, and stays queued. -/
def execSurgeRamp (team gang frag : Nat) (s : State) : Out :=
  let r : Ref := ⟨team, gang, frag⟩
  match s.gang? team gang with
  | none => disabled
  | some g =>
    let die := g.core / 64
    match (s.die die).surge.find? fun x => decide (x.ref = r) && !x.ramped with
    | none => disabled
    | some x =>
      if (s.die die).cycle < x.since + 128 then disabled
      else .next ((s.rampMode die r g.core g.quad).modDie die fun d => { d with grants := d.grants ++ [r] })

/-! ### Residency epochs -/

/-- A group at the end of an epoch (R53, R54): its count moves to RCGCNT, and a group in MODE auto may change its standing. -/
def Die.endGroup (d : Die) (g : Nat) : Die :=
  let n := min (ZMap.get d.rcgCount g).toNat 0xFFFFFFFF
  let ctl := SMap.getD d.rcgctl g 0x100
  let hot := decide (slice ctl 15 0 ≤ n)
  let runs := if hot == bit ctl 29 then 0 else (ZMap.get d.rcgHyst g).toNat + 1
  let turns := slice ctl 31 30 == 0 && decide (slice d.cavctl 11 8 ≤ runs)
  { d with
    rcgcnt := ZMap.set d.rcgcnt g (BitVec.ofNat 32 n)
    rcgHyst := ZMap.set d.rcgHyst g (BitVec.ofNat 16 (if turns || slice ctl 31 30 != 0 then 0 else min runs 65535))
    rcgctl := if turns then SMap.set d.rcgctl g (ctl ^^^ 0x20000000) else d.rcgctl }

/-- R53, R54: an epoch of 2^EPOCH ns of the die's reference counter ends. -/
def execRcgEpochEnd (die : Nat) (s : State) : Out :=
  let d := s.die die
  let len := 2 ^ slice d.cavctl 4 0
  if d.ref < d.epoch + len then disabled
  else
    let d := ((List.range 255).map fun i => i + 1).foldl Die.endGroup d
    .next (s.modDie die fun _ => { d with rcgCount := [], epoch := d.epoch + len })

end Sys2Proof.Machine
end

