-- ==== Sys2Proof/Machine/Faults.lean ====
section
/-! DEFINITION. The fault queue and its answers, the replay of an instruction, and handler entry as a step of its own (R63, R64,
R343 to R352, R375). -/

namespace Sys2Proof.Machine

/-- Slots of the fault-queue ring (R375). -/
def Vf.fqSlots (v : Vf) : Nat := 2 ^ v.cfg 40 1

/-- Entries posted and not freed by the host (R375). -/
def Vf.fqHeld (v : Vf) : Nat := (v.fqTail - BitVec.ofNat 32 (v.cfg 44 4)).toNat

/-- The 32 bytes of an entry (R63). -/
def FqEntry.bytes (e : FqEntry) : List Byte :=
  toBytes e.va.toNat 8 ++ toBytes e.vf 2 ++ toBytes e.origin 1 ++ toBytes e.unit 1 ++ toBytes e.kind 1 ++ toBytes e.reason 1
    ++ toBytes e.level 1 ++ toBytes e.plane 1 ++ toBytes e.tag 8 ++ List.replicate 8 0

/-- R63, R375: the oldest waiting entry of a context is posted, where the ring has a free slot. The bytes of one that lies in an absent
package are dropped, and the error response is logged (R376, R379); so are those at an address that is no byte of HBM4E or host memory
(DESIGN CHOICE, assumption 128). -/
def execFaultQueuePost (vf : Nat) (s : State) : Out :=
  let v := s.vf vf
  match v.fqWaiting with
  | [] => disabled
  | e :: rest =>
    if v.fqSlots ≤ v.fqHeld then disabled
    else
      let at_ := v.cfg 32 8 + 32 * (v.fqTail.toNat % v.fqSlots)
      let s := if s.reaches at_ 32 then { s with mem := Memory.store s.mem at_ e.bytes } else s.event 1 0 vf 0 0 at_ 0
      .next (s.modVf vf fun v => { v with fqWaiting := rest, fqTail := v.fqTail + 1 })

/-- R375: the host frees slots. -/
def execFqheadWrite (vf head : Nat) (s : State) : Out := .next (s.modVf vf fun v => v.setCfg 44 4 head)

/-- The suspension that a posted tag belongs to. -/
def Vf.suspension (v : Vf) (tag : Nat) : Option Suspended :=
  if v.fqWaiting.any fun e => e.tag == tag then none else v.suspended.find? fun x => x.tags.contains tag

/-- An answer to a tag that has no waiting entry is ignored and logged (R375). -/
def State.ignoreAnswer (s : State) (vf tag : Nat) : State := s.event 8 0 vf 0 (tag % 2 ^ 32) 0 0

/-- R64, R375: a RETRY answers one entry of a suspended gang. -/
def execRespRetry (vf tag : Nat) (s : State) : Out :=
  match (s.vf vf).suspension tag with
  | none => .next (s.ignoreAnswer vf tag)
  | some x => .next (s.modVf vf fun v => { v with suspended := v.suspended.map fun y =>
      if y = x then { y with tags := y.tags.filter fun n => n != tag } else y })

/-- R64: a FAIL writes the record of the failing page that holds the lowest faulting byte, and the trap is taken. -/
def execRespFail (vf tag : Nat) (s : State) : Out :=
  match (s.vf vf).suspension tag with
  | none => .next (s.ignoreAnswer vf tag)
  | some x =>
    let s := s.modVf vf fun v => { v with suspended := v.suspended.erase x }
    .next (s.takeTrap x.ref { cls := x.cls, fbyte := x.fbyte, plane := x.plane, scope := x.scope, sgen := x.sgen } x.word none)

/-- R64, R66: once every entry of a suspended gang has been answered with a RETRY (whether one of several may do it, the spec leaves open:
DESIGN CHOICE, assumption 54), its instruction is performed again from its start: every page is walked again. -/
def execInstructionReplay (team gang : Nat) (s : State) : Out :=
  match s.team? team, s.gang? team gang with
  | some t, some g =>
    match (s.vf t.vf).suspended.find? fun x => decide (x.ref.team = team) && decide (x.ref.gang = gang) && x.tags.isEmpty with
    | none => disabled
    | some x =>
      if t.status ≠ .running then disabled
      else
        let s := s.modVf t.vf fun v => { v with suspended := v.suspended.erase x }
        let s := s.modCore g.core fun c => { c with tlb := c.tlb.filter fun y => y.vf != t.vf }
        let s := s.modDie (g.core / 64) fun d => { d with tlb := d.tlb.filter fun y => y.vf != t.vf }
        .next (s.modFrag x.ref fun f => { f with wait := none })
  | _, _ => disabled

/-- Classes that a unit raises by itself, `trap` among them (R344). -/
def raisable (cls : Nat) : Bool := decide (cls ≤ 20) && cls != 19

/-- R343 to R352: the unit at which a fragment stands faults with a class, or is a `trap` (class 0). -/
def execHandlerEntry (team gang frag cls : Nat) (fbyte : BitVec 64) (s : State) : Out :=
  let r : Ref := ⟨team, gang, frag⟩
  if !(raisable cls) then disabled
  else match s.fetchUnit r with
    | .done _ => disabled
    | .run i t => match t.ctx? with
      | none => disabled
      | some c => .next (t.takeTrap r { cls, fbyte } (wordOf i) (if cls = 0 then some c.next else none))

end Sys2Proof.Machine
end

