-- ==== Sys2Proof/Machine/Host.lean ====
section
/-! DEFINITION. Package registers, configuration blocks, doorbells, translation invalidation, the host's accesses through a function's
window, and accesses from other packages (R52, R55, R65, R242, R269, R370, R373 to R379, R381, R384). -/

namespace Sys2Proof.Machine

/-! ### The registers (R373) -/

/-- A package register, by the table of R373. -/
inductive Reg where
  | l2part (d : Nat)
  | rtucfg (d : Nat)
  | rcgctl (d g : Nat)
  | rcgcnt (d g : Nat)
  | cavctl (d : Nat)
  | tlbiva (d : Nat)
  | tlbictl (d : Nat)
  | qown (d c : Nat)
  | block (v off : Nat)
  | door (v off : Nat)
  | flow (off : Nat)
  | fsctl
deriving DecidableEq, Repr

/-- A per-die register at an offset. -/
def dieReg (d o : Nat) : Option Reg :=
  if o = 0 then some (.l2part d)
  else if o = 0x1000 then some (.rtucfg d)
  else if 0x10000 ≤ o ∧ o < 0x10400 ∧ o % 4 = 0 then some (.rcgctl d ((o - 0x10000) / 4))
  else if 0x10400 ≤ o ∧ o < 0x10800 ∧ o % 4 = 0 then some (.rcgcnt d ((o - 0x10400) / 4))
  else if o = 0x10800 then some (.cavctl d)
  else if o = 0x20000 then some (.tlbiva d)
  else if o = 0x20008 then some (.tlbictl d)
  else if 0x30000 ≤ o ∧ o < 0x30200 ∧ o % 8 = 0 then some (.qown d ((o - 0x30000) / 8))
  else none

/-- A package-wide register at an offset. -/
def packageReg (o : Nat) : Option Reg :=
  if o < 0x10000 then some (.block (o / 0x1000) (o % 0x1000))
  else if 0x100000 ≤ o ∧ o < 0x110000 ∧ [0, 8, 16].contains (o % 0x1000) then some (.door ((o - 0x100000) / 0x1000) (o % 0x1000))
  else if 0x200000 ≤ o ∧ o < 0x220000 ∧ o % 8 = 0 then some (.flow (o - 0x200000))
  else if o = 0x300000 then some .fsctl
  else none

/-- The register of a physical address of a package (R373): none at a reserved offset. -/
def regAt (pkg pa : Nat) : Option Reg :=
  if paPkg pa ≠ pkg ∨ paRegion pa ≠ 0x3F ∨ pa / 2 ^ 36 % 16 ≠ 0 ∨ pa / 2 ^ 34 % 2 ≠ 0 then none
  else if pa.testBit 35 then (if pa / 2 ^ 32 % 4 = 0 then packageReg (pa % 2 ^ 32) else none)
  else dieReg (pa / 2 ^ 32 % 4) (pa % 2 ^ 32)

/-- The agents of `registerWrite`: 0 the host PF, 1 board firmware, 2 the Kiosk, 16 + d a Belvedere core, 32 + v a function. -/
def Reg.reachedBy : Reg → Nat → Bool
  | .l2part _, a | .rtucfg _, a => decide (a ≤ 1)
  | .rcgctl d _, a | .rcgcnt d _, a | .cavctl d, a => a == 0 || a == 16 + d
  | .tlbiva _, a | .tlbictl _, a | .qown _ _, a | .block _ _, a => a == 0
  | .door v _, a => a == 0 || a == 32 + v
  | .flow _, a | .fsctl, a => a == 0 || a == 2

/-- The fields of a configuration block: offset and bytes (R377); a field of two parts is written by part. -/
def blockFields : List (Nat × Nat) :=
  [(0, 8), (8, 1), (9, 1), (10, 1), (11, 1), (12, 4), (16, 8), (24, 1), (32, 8), (40, 1), (44, 4), (48, 8), (56, 4), (64, 8), (72, 8),
   (80, 8), (128, 8), (136, 8), (144, 8), (152, 8), (160, 8), (168, 8), (176, 8), (184, 8), (192, 8), (200, 8), (208, 8), (216, 8),
   (224, 8), (232, 8), (240, 8), (248, 8), (256, 8), (264, 4), (272, 8), (280, 4), (284, 4), (288, 8), (296, 8), (304, 4), (320, 8),
   (328, 8), (336, 8), (344, 8)]

/-- An access of a size that a register has (R373). -/
def Reg.sizeOk : Reg → Nat → Bool
  | .l2part _, n | .rtucfg _, n | .rcgctl _ _, n | .rcgcnt _ _, n | .cavctl _, n | .tlbictl _, n => n == 4
  | .block _ off, n => blockFields.contains (off, n)
      || (blockFields.all fun f => decide (f.1 + f.2 ≤ off) || decide (off + n ≤ f.1)) && [1, 2, 4, 8].contains n && off % n == 0
  | _, n => n == 8

/-! ### Writes (R52, R55, R370, R377, R378, R381, R384) -/

/-- R52: every line of a die's L2 is written back and invalidated, and then the new value applies. -/
def State.writeL2part (s : State) (die : Nat) (v : BitVec 32) : State :=
  let s := (s.die die).l2.foldl (fun s h => s.evictHome die h) s
  let s := (s.die die).remote.foldl (fun s l => s.evictRemote die l) s
  s.modDie die fun d => { d with l2part := v &&& 0xF }

/-- R370: a write of 1 leaves LMAX unchanged. -/
def Die.writeRtucfg (d : Die) (v : Nat) : Die := if v % 2 ^ 13 = 1 then d else { d with rtucfg := BitVec.ofNat 32 (v % 2 ^ 13) }

/-- R54, R55: a write of MODE 3 leaves MODE unchanged; PINNED follows MODE where it is not auto. A change of MODE starts the count of
consecutive epochs anew. -/
def Die.writeRcgctl (d : Die) (g v : Nat) : Die :=
  let old := (SMap.getD d.rcgctl g 0x100).toNat
  let mode := if v / 2 ^ 30 % 4 = 3 then old / 2 ^ 30 % 4 else v / 2 ^ 30 % 4
  let pinned := if mode = 1 then 1 else if mode = 2 then 0 else old / 2 ^ 29 % 2
  { d with
    rcgctl := SMap.set d.rcgctl g (BitVec.ofNat 32 (mode * 2 ^ 30 + pinned * 2 ^ 29 + v % 2 ^ 16))
    rcgHyst := if mode = old / 2 ^ 30 % 4 then d.rcgHyst else ZMap.set d.rcgHyst g 0 }

/-- R55: a reserved value leaves its field of CAVCTL unchanged. -/
def Die.writeCavctl (d : Die) (v : Nat) : Die :=
  let old := d.cavctl.toNat
  let pinmax := if v / 2 ^ 12 % 16 ≤ 12 then v / 2 ^ 12 % 16 else old / 2 ^ 12 % 16
  let hyst := if v / 2 ^ 8 % 16 = 0 then old / 2 ^ 8 % 16 else v / 2 ^ 8 % 16
  let epoch := if 10 ≤ v % 32 ∧ v % 32 ≤ 30 then v % 32 else old % 32
  { d with cavctl := BitVec.ofNat 32 (pinmax * 2 ^ 12 + hyst * 2 ^ 8 + epoch) }

/-- DONE of TLBICTL (R65). -/
def Die.tlbiDone (d : Die) : Bool := bit d.tlbictl 30

/-- R65: a write of GO starts an invalidation of the range that TLBIVA, CTX and NPOW then give, and is ignored while one is under way;
other writes set CTX and NPOW. -/
def Die.writeTlbictl (d : Die) (v : BitVec 32) : Die :=
  let fields := v &&& 0x0FFF001F
  if bit v 31 then
    (if d.tlbiDone then { d with tlbictl := fields, tlbi := some (slice fields 27 16, d.tlbiva.toNat, slice fields 4 0) } else d)
  else { d with tlbictl := fields ||| (d.tlbictl &&& 0x40000000) }

/-- R378: every team resident on a core is pre-empted, and then the new value applies. The teams of a group to whose Gallery share the
core lends frames go with them, so that no share stays where R123 does not allow it (DEDUCED, assumption 107). -/
def State.writeQown (s : State) (core : Nat) (v : Word) : Out :=
  let lends (t : Team) : Bool := (s.core core).galShare != 0 && t.group.any fun cs => cs.contains core
  let here := s.teams.filter fun t => decide (t.2.status = .running)
    && (decide (t.2.core = core) || decide (t.2.twin = some core) || lends t.2)
  match s.saveAll (s.teams.filter fun x => here.any fun t => (s.savedWith t.1 t.2).any fun y => y.1 == x.1) with
  | .next s => .next ((s.clearShare core).modCore core fun c => { c with qown := v &&& 0x80000000000FFFFF })
  | o => o

/-- R381: every dirty byte of a context in any L1 or remote partition goes to its home. A line of a remote partition may hold bytes of
more than one context (R46, assumption 18), so all of those go. -/
def State.flushContext (s : State) (vf : Nat) : State :=
  let s := s.cores.foldl (fun s p => ((s.core p.1).l1.filter fun l => decide (l.vf = vf) && decide (l.dirty ≠ 0)).foldl
    (fun s l => s.drainLine p.1 l) s) s
  s.dies.foldl (fun s p => s.drainRemote p.1) s

/-- The fields that stay writable while a block is locked: STATE, SLABQ, FQHEAD, SDIRTY, MIGCTL, SLICE (R377). -/
def openFields : List Nat := [10, 12, 44, 288, 296, 304]

/-- A write of STATE (R377): ERROR is left for UNLOCKED alone; a value above 3 is ignored (assumption 38). -/
def Vf.writeState (v : Vf) (x : Nat) : Vf := if 3 < x ∨ (v.state = 3 ∧ x ≠ 0) then v else v.setCfg 10 1 x

/-- R377: a write to a field of a block, or to reserved bytes, which is ignored. -/
def State.writeBlock (s : State) (vf off n x : Nat) : State :=
  if !(blockFields.contains (off, n)) then s
  else
    let st := (s.vf vf).state
    if (st = 1 ∨ st = 2) ∧ !(openFields.contains off) then
      (s.event 9 0 vf 0 0 (s.board.pkg * 2 ^ 46 + 0x3F * 2 ^ 40 + 2 ^ 35 + 0x1000 * vf + off) 0).modVf vf fun v => v.setCfg 10 1 3
    else if off = 10 then s.modVf vf fun v => v.writeState (x % 256)
    else if off = 296 then (if x % 2 = 1 then s.flushContext vf else s)
    else s.modVf vf fun v => v.setCfg off n x

/-- R374: a write of TAIL; one that would overrun the ring is ignored and logged. -/
def State.writeTail (s : State) (vf tail : Nat) : State :=
  let v := s.vf vf
  let t := BitVec.ofNat 32 tail
  if 2 ^ v.cfg 24 1 < (t - v.head).toNat then s.event 8 0 vf 0 (tail % 2 ^ 32) 0 0
  else (s.modVf vf fun v => { v with tail := t }).serveRing vf ringFuel

/-- R375: a write of RESP. -/
def writeResp (vf : Nat) (v : Word) (s : State) : Out :=
  match slice v 63 56 with
  | 1 => execRespRetry vf (slice v 47 0) s
  | 2 => execRespFail vf (slice v 47 0) s
  | _ => .next s

/-- R384: a write of FSCTL with CLR. -/
def State.clearFlow (s : State) : State := { s with flow := { s.flow with frozen := false, lost := 0 } }

/-- A write that a register accepts. -/
def writeReg (r : Reg) (n : Nat) (v : Word) (s : State) : Out :=
  match r with
  | .l2part d => .next (s.writeL2part d (v.setWidth 32))
  | .rtucfg d => .next (s.modDie d fun x => x.writeRtucfg v.toNat)
  | .rcgctl d g => .next (s.modDie d fun x => x.writeRcgctl g v.toNat)
  | .rcgcnt _ _ => .next s
  | .cavctl d => .next (s.modDie d fun x => x.writeCavctl v.toNat)
  | .tlbiva d => .next (s.modDie d fun x => { x with tlbiva := v &&& 0x007FFFFFFFFF0000 })
  | .tlbictl d => .next (s.modDie d fun x => x.writeTlbictl (v.setWidth 32))
  | .qown d c => s.writeQown (64 * d + c) v
  | .block vf off => .next (s.writeBlock vf off n v.toNat)
  | .door vf 0 => .next (s.writeTail vf (v.toNat % 2 ^ 32))
  | .door vf 16 => writeResp vf v s
  | .door _ _ => .next s
  | .flow _ => .next s
  | .fsctl => .next (if bit v 63 then s.clearFlow else s)

/-- An error response to an agent: its address is logged (R376). -/
def State.errorResponse (s : State) (vf a : Nat) : State := { (s.event 1 0 vf 0 0 a 0) with hostError := true }

/-- What an access of an agent leaves beside its outcome: agent 16 + d, a Belvedere core, takes an error response as an access fault
(R376). -/
def State.belvFlag (s : State) (agent : Nat) (b : Bool) : State :=
  if 16 ≤ agent ∧ agent < 20 then s.modDie (agent - 16) fun d => { d with belv := { d.belv with accessFault := b } } else s

/-- The register that an access of an agent reaches, where R373 allows the access. -/
def State.reachReg (s : State) (agent pa n : Nat) : Option Reg :=
  (regAt s.board.pkg pa).filter fun r => r.reachedBy agent && r.sizeOk n

/-- The function in whose name an agent is logged: none is 0xFF (R384). -/
def agentVf (agent : Nat) : Nat := if 32 ≤ agent then agent - 32 else 0xFF

/-- A register write by an agent (R373). -/
def regWrite (agent pa n : Nat) (v : Word) (s : State) : Out :=
  match s.reachReg agent pa n with
  | some r => writeReg r n v { (s.belvFlag agent false) with hostError := false }
  | none => .next ((s.errorResponse (agentVf agent) pa).belvFlag agent true)

/-! ### Reads -/

/-- The four words of an event (R384). -/
def Event.word (e : Event) : Nat → Word
  | 0 => BitVec.ofNat 64 e.time
  | 1 => BitVec.ofNat 64 (e.die % 2 ^ 8 + e.type % 2 ^ 8 * 2 ^ 8 + e.vf % 2 ^ 8 * 2 ^ 16 + e.cls % 2 ^ 8 * 2 ^ 24 + e.detail % 2 ^ 32 * 2 ^ 32)
  | 2 => BitVec.ofNat 64 e.addr
  | _ => BitVec.ofNat 64 e.aux

/-- A slot that holds no event (R384). -/
def Event.none : Event := ⟨0, 0, 0, 0, 0, 0, 0, 0⟩

/-- FSCTL (R384). -/
def Flowstone.ctl (f : Flowstone) : Word :=
  BitVec.ofNat 64 (f.next.toNat + f.lost.toNat * 2 ^ 16 + if f.frozen then 2 ^ 62 else 0)

/-- The value of a register. -/
def State.readReg (s : State) (r : Reg) (n : Nat) : Word :=
  match r with
  | .l2part d => (s.die d).l2part.setWidth 64
  | .rtucfg d => (s.die d).rtucfg.setWidth 64
  | .rcgctl d g => (SMap.getD (s.die d).rcgctl g 0x100).setWidth 64
  | .rcgcnt d g => (ZMap.get (s.die d).rcgcnt g).setWidth 64
  | .cavctl d => (s.die d).cavctl.setWidth 64
  | .tlbiva d => (s.die d).tlbiva
  | .tlbictl d => (s.die d).tlbictl.setWidth 64
  | .qown d c => (s.core (64 * d + c)).qown
  | .block vf off => BitVec.ofNat 64 ((s.vf vf).cfg off n)
  | .door vf 0 => (s.vf vf).tail.setWidth 64
  | .door vf 8 => (s.vf vf).head.setWidth 64
  | .door _ _ => 0
  | .flow off => (SMap.getD s.flow.events (off / 32) .none).word (off % 32 / 8)
  | .fsctl => s.flow.ctl

/-- A register read by an agent. -/
def regRead (agent pa n : Nat) (s : State) : State :=
  match s.reachReg agent pa n with
  | some r => { (s.belvFlag agent false) with hostResult := s.readReg r n, hostError := false }
  | none => { ((s.errorResponse (agentVf agent) pa).belvFlag agent true) with hostResult := BitVec.ofNat 64 (2 ^ 64 - 1) }

/-! ### The steps -/

/-- R374. -/
def execDoorbellTailWrite (vf tail : Nat) (s : State) : Out := .next (s.writeTail vf tail)
/-- R65. -/
def execTlbictlGo (die : Nat) (value : BitVec 32) (s : State) : Out := .next (s.modDie die fun d => d.writeTlbictl value)
/-- R52. -/
def execL2partWrite (die : Nat) (value : BitVec 32) (s : State) : Out := .next (s.writeL2part die value)
/-- R378. -/
def execQownWrite (die core : Nat) (value : BitVec 64) (s : State) : Out := s.writeQown (64 * die + core) value
/-- R377. -/
def execConfigBlockWrite (vf off size value : Nat) (s : State) : Out :=
  regWrite 0 (s.board.pkg * 2 ^ 46 + 0x3F * 2 ^ 40 + 2 ^ 35 + 0x1000 * vf + off) size (BitVec.ofNat 64 value) s
/-- R381. -/
def execMigctlFlush (vf : Nat) (s : State) : Out := .next (s.flushContext vf)
/-- R384. -/
def execFsctlClr (s : State) : Out := .next s.clearFlow
/-- R373. -/
def execRegisterWrite (agent pa size : Nat) (value : BitVec 64) (s : State) : Out := regWrite agent pa size value s

/-- Bytes of a context that the range of an invalidation overlaps (R65): 2^NPOW pages from the aligned address, or every page for
NPOW 31. -/
def tlbiCovers (r : Nat × Nat × Nat) (vf base size : Nat) : Bool :=
  let len := 2 ^ r.2.2 * 2 ^ 16
  let lo := r.2.1 / len * len
  let b := base % 2 ^ 55
  decide (vf = r.1) && (r.2.2 == 31 || (decide (b < lo + len) && decide (lo < b + size)))

/-- A translation of the range of the invalidation under way (R65). -/
def Die.tlbiHits (d : Die) (t : Tlb) : Bool := d.tlbi.any fun r => tlbiCovers r t.vf t.base t.size

/-- A prefetch that was translated before the invalidation's end is still to be performed (R65, R66). -/
def State.tlbiWaits (s : State) (d : Die) : Bool :=
  s.cores.any fun c => c.2.requests.any fun q => d.tlbi.any fun r => tlbiCovers r q.vf q.va 1

/-- R65: no TLB of the package holds the range any more, every access translated before has been performed, and DONE rises. -/
def execTlbiDone (die : Nat) (s : State) : Out :=
  let d := s.die die
  if d.tlbiDone || s.tlbiWaits d then disabled
  else
    let s := { s with
      cores := SMap.mapVals s.cores fun _ c => { c with tlb := c.tlb.filter fun t => !(d.tlbiHits t) }
      dies := SMap.mapVals s.dies fun _ x => { x with tlb := x.tlb.filter fun t => !(d.tlbiHits t) } }
    .next (s.modDie die fun x => { x with tlbictl := x.tlbictl ||| 0x40000000, tlbi := none })

/-! ### The host's window (R242, R269, R376) -/

/-- The pages of an access of the host or of a Belvedere core; none where one fails or lies in an absent package. -/
def State.agentPages (s : State) (vf kind : Nat) (priv : Bool) (va n : Nat) : Option (List Xlat) :=
  match s.devPages vf kind priv va n with
  | .error _ => none
  | .ok xs => some xs

/-- The pages of a host access through a window, with privileged access (R374). -/
def State.hostPages (s : State) (vf kind va n : Nat) : Option (List Xlat) := s.agentPages vf kind true va n

/-- R269, R376: a host read through a function's window; 16 + a names agent a, which reads the register at a physical address. -/
def execHostLoad (vf : Nat) (va : BitVec 64) (size : Nat) (s : State) : Out :=
  if 16 ≤ vf then .next (regRead (vf - 16) va.toNat size s)
  else match if size = 0 ∨ 8 < size then none else s.hostPages vf kLoad va.toNat size with
    | none => .next { (s.errorResponse vf va.toNat) with hostResult := BitVec.ofNat 64 (2 ^ (8 * size) - 1) }
    | some xs =>
      let bs := (List.range size).map fun i => ZMap.get s.mem ((findXlat xs (va.toNat + i)).pa (va.toNat + i))
      let s := (linePieces va.toNat size).foldl (fun s p =>
        let x := findXlat xs p.1
        s.homeRead vf (x.pa p.1) p.2 x.leaf) (s.useWalks kLoad xs)
      .next { s with hostResult := BitVec.ofNat 64 (ofBytes bs), hostError := false }

/-- R269, R376: a host write, performed at the home slices; 16 + a names agent a, which writes a register. -/
def execHostStore (vf : Nat) (va : BitVec 64) (size : Nat) (value : BitVec 64) (s : State) : Out :=
  if 16 ≤ vf then regWrite (vf - 16) va.toNat size value s
  else match if size = 0 ∨ 8 < size then none else s.hostPages vf kStore va.toNat size with
    | none => .next (s.errorResponse vf va.toNat)
    | some xs =>
      .next ((linePieces va.toNat size).foldl (fun s p =>
        let x := findXlat xs p.1
        (spread (x.pa p.1) (((toBytes value.toNat size).drop (p.1 - va.toNat)).take p.2)).foldl (fun s q =>
          s.homeBytes vf q.1 x.leaf q.2) s) { (s.useWalks kStore xs) with hostError := false })

/-- R242, R376: a host atomic, performed at the home slice of a page with SYSAT = 1, else dropped and logged. -/
def execHostAtomic (vf : Nat) (va : BitVec 64) (size op : Nat) (v cmp : BitVec 64) (s : State) : Out :=
  if !((size == 4 || size == 8) && decide (op ≤ 9)) || decide (va.toNat % size ≠ 0) then .next (s.errorResponse vf va.toNat)
  else match s.hostPages vf kAtomic va.toNat size with
    | none => .next (s.errorResponse vf va.toNat)
    | some xs =>
      let x := findXlat xs va.toNat
      if !(pteSysat x.leaf) then .next { (s.event 2 0 vf 0 0 va.toNat 0) with hostError := true }
      else
        let (s, old) := (s.useWalks kAtomic xs).atomicAt vf (x.pa va.toNat) size x.leaf
          fun old => atomicFn op size old v.toNat cmp.toNat
        .next { s with hostResult := BitVec.ofNat 64 old, hostError := false }

/-! ### Other packages (R379, R380) -/

/-- R41, R379: an access from another package to the memory of this one is performed there: 0 load, 1 store, 2 + op an atomic lane. One that is not such an access receives an error response. -/
def execRemoteAccess (pkg pa size kind : Nat) (v cmp : BitVec 64) (s : State) : Out :=
  let from_ := decide (pkg ≠ s.board.pkg) && bit s.board.domain pkg && !(bit s.board.failed pkg)
  let ok := from_ && decide (1 ≤ size) && decide (size ≤ 8) && [pa, pa + size - 1].all fun a => regionOk a && (s.homeDie a).isSome
  if !ok then .next (s.errorResponse 0xFF pa)
  else match kind with
    | 0 => .next { s.outsideTouch pa size false with
        hostResult := BitVec.ofNat 64 (ofBytes (Memory.bytes s.mem pa size)), hostError := false }
    | 1 => .next { s.outsideTouch pa size true with mem := Memory.store s.mem pa (toBytes v.toNat size), hostError := false }
    | k + 2 =>
      if !(laneOk k size) || decide (pa % size ≠ 0) then .next (s.errorResponse 0xFF pa)
      else .next (s.outsideLane pa size k v.toNat cmp.toNat)

end Sys2Proof.Machine
end

