-- ==== Sys2Proof/Machine/Belvedere.lean ====
section
/-! DEFINITION. The Belvedere core of a die: its CSRs and accesses (R327, R404), and the vendor firmware's sessions, routing records,
tile tasks and cells (R328 to R339). -/

namespace Sys2Proof.Machine

/-- Changes a die's Belvedere core. -/
def State.modBelv (s : State) (die : Nat) (f : Belvedere → Belvedere) : State := s.modDie die fun d => { d with belv := f d.belv }

/-! ### CSRs (R327, R404) -/

/-- Fields of a gate entry (R328): KIND, SESS, TOKEN and the address. -/
def gateKind (w : Word) : Nat := slice w 5 2
def gateSess (w : Word) : Nat := slice w 1 0
def gateToken (w : Word) : Nat := slice w 63 48
def gateAddr (w : Word) : Nat := (ofInt 64 (sext (slice w 47 6 * 64) 48)).toNat

/-- Sets or clears bit 62 of ginfo (R404). -/
def Belvedere.refused (b : Belvedere) (r : Bool) : Belvedere :=
  { b with ginfo := (b.ginfo &&& 0x8000000000000FFF) ||| (if r then 0x4000000000000000 else 0) }

/-- The key of a context and a session. -/
def sessKey (vf sess : Nat) : Nat := 4 * vf + sess

/-- A read of the gpop CSR (R327, R404): the oldest entry is popped, and one of KIND 1 replaces the attribute set. -/
def State.popGate (s : State) (die : Nat) : State :=
  match (s.die die).gate with
  | [] => s.modBelv die fun b => { b with ginfo := b.ginfo &&& 0x4000000000000FFF, popped := none, result := 0 }
  | e :: rest => s.modDie die fun d => { d with
      gate := rest
      attrs := if gateKind e.word = 1 then SMap.set d.attrs (sessKey e.vf (gateSess e.word)) e.attrs else d.attrs
      belv := { d.belv with
        ginfo := (d.belv.ginfo &&& 0x4000000000000000) ||| 0x8000000000000000 ||| BitVec.ofNat 64 e.vf
        popped := some e
        result := e.word } }

/-- R327. -/
def execGpop (die : Nat) (s : State) : Out := .next (s.popGate die)

/-- How the core of a die reads in a context: at the home slices and what its die holds written (R254, R269), without privilege
(assumption 39). -/
def belvReader (die vf n : Nat) : Reader := fun s a => s.devTry die vf false a n

/-- How the core reads a record or header of 64 bytes. -/
def recordReader (die vf : Nat) : Reader := fun s a => if a % 64 ≠ 0 then (s, none) else belvReader die vf 64 s a

/-- An attribute set (R404): one never filled holds unset slots, DET 0 and tenant 0. -/
def Die.attrSet (d : Die) (vf sess : Nat) : Attrs := SMap.getD d.attrs (sessKey vf sess) ⟨List.replicate 8 0, false, 0⟩

/-- What comes of a spawn by the core (R404). -/
inductive Spawned where
  | ok (s : State)
  | refused (s : State)
  | waits

/-- Spawns the task of a record in context gctx with the attribute set that gctx and sattr name (R404), after a release at entry 7
(R261, R269). -/
def State.spawnRecord (s : State) (die : Nat) (b : Option (List Byte)) : Spawned :=
  let x := (s.die die).belv
  let vf := x.gctx.toNat
  let a := (s.die die).attrSet vf (slice x.sattr 1 0)
  let refuse (s : State) : Spawned := .refused (s.modBelv die fun b => b.refused true)
  match b with
  | none => refuse s
  | some b =>
    let (s, k) := readKernel (recordReader die vf) s (fieldAt b 0 8)
    match taskBad (s.vf vf) a.tenant k b, k with
    | [], some k =>
      match s.freeSlot die with
      | none => .waits
      | some (slot, gen) =>
        .ok ((s.releaseDies.enterTask die slot (taskOf (s.vf vf) ⟨vf, a.tenant, a.slots, a.det, none⟩ k b die gen)).modBelv die
          fun b => b.refused false)
    | _, _ => refuse s

/-- Bytes of the scratchpad (R326). -/
abbrev scratchSize : Nat := 262144

/-- A write of the spawn CSR (R327, R404): a record that does not lie at a multiple of 64 in the scratchpad cannot be read (R307). -/
def writeSpawn (die addr : Nat) (s : State) : Out :=
  match s.spawnRecord die (if addr % 64 = 0 ∧ addr + 64 ≤ scratchSize then some (Memory.bytes (s.die die).belv.scratch addr 64) else none) with
  | .ok s | .refused s => .next s
  | .waits => disabled

/-- R404. -/
def execBelvedereSpawn (die addr : Nat) (s : State) : Out := writeSpawn die addr s

/-- The counter that depn names in context gctx: none where the name is not one of the context (assumption 39). -/
def State.belvCounter (s : State) (die : Nat) : Option Nat :=
  let b := (s.die die).belv
  if slice b.depn 63 18 = 0 then (counterField (s.vf b.gctx.toNat) b.depn.toNat).join else none

/-- R327: a write of dset, a release at entry 7 (R261, R269). A value with nonzero bits 63:32 performs nothing (R319). -/
def execDset (die : Nat) (value : BitVec 64) (s : State) : Out :=
  match s.belvCounter die with
  | some n => .next (if slice value 63 32 = 0 then s.releaseDies.depSet n value.toNat else s)
  | none => .next s

/-- R327: a write of ddec, by bits 31:0 of the value (R319). -/
def execDdec (die : Nat) (value : BitVec 64) (s : State) : Out :=
  match s.belvCounter die with
  | some n => .next (s.releaseDies.depDec n (slice value 31 0))
  | none => .next s

/-- A read of a CSR; a write-only register and a number outside the table have no read. -/
def readCsr (die n : Nat) (s : State) : Out :=
  let b := (s.die die).belv
  let give (v : Word) : Out := .next (s.modBelv die fun b => { b with result := v, accessFault := false })
  match n with
  | 0xCC0 => .next (s.popGate die)
  | 0xCC1 => give b.ginfo
  | 0xCC2 => give (BitVec.ofNat 64 (s.die die).gate.length)
  | 0x8C0 => give b.gctx
  | 0x8C2 => give b.depn
  | 0x8C5 => give b.ctx
  | 0x8C6 => give b.crx
  | 0x8C7 => give b.sattr
  | _ => disabled

/-- A write of a CSR; a read-only register and a number outside the table have no write. -/
def writeCsr (die n : Nat) (v : Word) (s : State) : Out :=
  match n with
  | 0x8C0 => .next (s.modBelv die fun b => { b with gctx := v })
  | 0x8C1 => writeSpawn die v.toNat s
  | 0x8C2 => .next (s.modBelv die fun b => { b with depn := v })
  | 0x8C3 => execDset die v s
  | 0x8C4 => execDdec die v s
  | 0x8C5 => .next (s.modBelv die fun b => { b with ctx := v })
  | 0x8C6 => .next (s.modBelv die fun b => { b with crx := v })
  | 0x8C7 => .next (s.modBelv die fun b => { b with sattr := v &&& 3 })
  | _ => disabled

/-! ### Memory accesses (R118, R327) -/

/-- Bytes of a G-space address within a context's window on the die that it names. -/
def State.gspaceOk (s : State) (vf a n : Nat) : Bool :=
  decide (a < 2 ^ 28) && decide (grottoOff a + n ≤ ((s.vf vf).grotto (grottoDie a)).2)
/-- Reads G-space, within the context's window (assumption 97). -/
def State.gspaceRead (s : State) (vf a n : Nat) : List Byte := s.grottoGet vf (grottoDie a) (grottoOff a) n
/-- Writes G-space, within the context's window (assumption 97), after a release at entry 7: what the core writes there may be a routing
record (R261, R269). -/
def State.gspaceWrite (s : State) (vf a : Nat) (bs : List Byte) : State := s.releaseDies.grottoPut vf (grottoDie a) (grottoOff a) bs

/-- An access faults in the core, and its address is logged (R327, R376). -/
def State.belvFault (s : State) (die a : Nat) : State :=
  (s.event 1 die (s.die die).belv.gctx.toNat 0 0 a 0).modBelv die fun b => { b with accessFault := true }

/-- An access of the core that is answered. -/
def State.belvGive (s : State) (die v : Nat) : State :=
  s.modBelv die fun b => { b with result := BitVec.ofNat 64 v, accessFault := false }

/-- The package register that an access of the core reaches on its pages (R373): none where it is in no page of registers; one that R373
does not allow answers with an error. -/
def State.belvReg (s : State) (die va n : Nat) (xs : List Xlat) : Option (Option Reg) :=
  if xs.any fun x => isReg (x.pa (max va x.base)) then
    some (if xs.length = 1 then s.reachReg (16 + die) ((findXlat xs va).pa va) n else none)
  else none

/-- The core's load of device memory, or of a package register that is its own to reach (R327, R373). -/
def State.belvRead (s : State) (die va a n : Nat) : State :=
  let vf := (s.die die).belv.gctx.toNat
  match s.devPages vf kLoad false va n true with
  | .error _ => s.belvFault die a
  | .ok xs => match s.belvReg die va n xs with
    | some none => s.belvFault die a
    | some (some r) => (s.useWalks kLoad xs).belvGive die (s.readReg r n).toNat
    | none => match s.devRead die vf false va n with
      | .error _ => s.belvFault die a
      | .ok (s, bs) => s.belvGive die (ofBytes bs)

/-- The core's load of up to 8 bytes (R327): device memory or G-space from address 2^63, and the scratchpad below its size. -/
def State.belvLoad (s : State) (die a n : Nat) : State :=
  let vf := (s.die die).belv.gctx.toNat
  if a < 2 ^ 63 then
    if a + n ≤ scratchSize then s.belvGive die (ofBytes (Memory.bytes (s.die die).belv.scratch a n)) else s.belvFault die a
  else if a.testBit 62 then
    let g := a % 2 ^ 28
    if s.gspaceOk vf g n then s.belvGive die (ofBytes (s.gspaceRead vf g n)) else s.belvFault die a
  else s.belvRead die (a % 2 ^ 63) a n

/-- An access of the core that leaves no result. -/
def State.belvFine (s : State) (die : Nat) : State := s.modBelv die fun b => { b with accessFault := false }

/-- The core's store to device memory, or to a package register that is its own to reach (R269, R327, R373). -/
def State.belvWrite (s : State) (die va a : Nat) (bs : List Byte) : State :=
  let vf := (s.die die).belv.gctx.toNat
  match s.devPages vf kStore false va bs.length true with
  | .error _ => s.belvFault die a
  | .ok xs => match s.belvReg die va bs.length xs with
    | some none => s.belvFault die a
    | some (some r) => match writeReg r bs.length (BitVec.ofNat 64 (ofBytes bs)) (s.useWalks kStore xs) with
      | .next t => t.belvFine die
      | _ => s.belvFault die a
    | none => match s.dieWrite die vf false va bs with
      | some s => s.belvFine die
      | none => s.belvFault die a

/-- The core's store (R269, R327). -/
def State.belvStore (s : State) (die a : Nat) (bs : List Byte) : State :=
  let vf := (s.die die).belv.gctx.toNat
  if a < 2 ^ 63 then
    if a + bs.length ≤ scratchSize then
      s.modBelv die fun b => { b with scratch := Memory.store b.scratch a bs, accessFault := false }
    else s.belvFault die a
  else if a.testBit 62 then
    let g := a % 2 ^ 28
    if s.gspaceOk vf g bs.length then (s.gspaceWrite vf g bs).belvFine die else s.belvFault die a
  else s.belvWrite die (a % 2 ^ 63) a bs

/-- The core's atomic of 4 or 8 bytes of device memory (R240, R242): one indivisible read and write at the home slice, after a release at
entry 7, which may change the page's entry (R60), with the old value in `result`. One to host memory needs SYSAT; one to package registers answers with an error (DESIGN CHOICE,
assumption 76). -/
def State.belvAtomic (s : State) (die a n : Nat) (f : Nat → Nat) : State :=
  let vf := (s.die die).belv.gctx.toNat
  let va := a % 2 ^ 63
  match s.releaseDies.devPages vf kAtomic false va n with
  | .error _ => s.belvFault die a
  | .ok xs =>
    let x := findXlat xs va
    if noSysat xs va then s.belvFault die a
    else
      let s := (s.releaseDies.useWalks kAtomic xs).giveUpDie die (x.pa va)
      let r := s.atomicAt vf (x.pa va) n x.leaf fun old => some (f old)
      r.1.belvGive die r.2

/-- R327: 0 a load, 1 a store, 2 a read of the CSR with number `addr`, 3 a write of it. -/
def execBelvedereAccess (die : Nat) (addr : BitVec 64) (size kind : Nat) (v : BitVec 64) (s : State) : Out :=
  match kind with
  | 0 => if [1, 2, 4, 8].contains size then .next (s.belvLoad die addr.toNat size) else disabled
  | 1 => if [1, 2, 4, 8].contains size then .next (s.belvStore die addr.toNat (toBytes v.toNat size)) else disabled
  | 2 => readCsr die addr.toNat s
  | 3 => writeCsr die addr.toNat v s
  | _ => disabled

/-! ### Sessions (R329 to R331) -/

/-- An open session. -/
def State.session? (s : State) (die key : Nat) : Option Session := SMap.get? (s.die die).sessions key
/-- Changes an open session. -/
def State.modSession (s : State) (die key : Nat) (f : Session → Session) : State :=
  s.modDie die fun d => { d with sessions := SMap.modify d.sessions key f }
/-- Counts a drop in a session (R331). -/
def Session.dropOne (x : Session) : Session := { x with drop := min (x.drop + 1) (2 ^ 24 - 1) }

/-- An entry is dropped (R329): counted where its session is open, else logged. -/
def State.dropEntry (s : State) (die : Nat) (e : GateEntry) : State :=
  let key := sessKey e.vf (gateSess e.word)
  match s.session? die key with
  | some _ => s.modSession die key Session.dropOne
  | none => s.event 5 die e.vf 0 (gateSess e.word) (gateAddr e.word) 0

/-- A session record's fields (R330). -/
def parseSession (b : List Byte) : SessRec :=
  let f := fieldAt b
  { gbase := f 0 8, taskt := f 8 8, combc := f 16 4, nexp := f 20 2, k := f 22 1, tw := f 23 1, cap := f 24 4, rcgb := f 28 1,
    pinn := f 29 1, stat := f 32 8, expmap := f 40 8, senders := BitVec.ofNat 64 (f 48 8), rowbase := f 56 8, rxbase := f 64 8,
    rowbytes := f 72 4 }

/-- Reads the WIDTH of the template's kernel header, where both can be read. -/
def State.templateWidth (s : State) (die vf taskt : Nat) : State × Option Nat :=
  match recordReader die vf s taskt with
  | (s, none) => (s, none)
  | (s, some b) => match recordReader die vf s (fieldAt b 0 8) with
    | (s, h) => (s, h.map fun h => fieldAt h 16 1)

/-- A session record is malformed (R330); `width` is that of its template. -/
def State.sessionBad (s : State) (die vf : Nat) (b : List Byte) (width : Option Nat) : Bool :=
  let r := parseSession b
  decide (r.gbase % 256 ≠ 0) || decide (r.taskt % 64 ≠ 0) || decide (r.nexp < 1) || decide (256 < r.nexp) || decide (r.k < 1)
    || decide (min 8 r.nexp < r.k) || !([8, 16, 32].contains r.tw) || decide (r.cap < 1) || decide (2 ^ 24 < r.cap)
    || fieldAt b 30 2 != 0 || fieldAt b 76 52 != 0 || decide (r.stat % 8 ≠ 0)
    || (if r.expmap = 0 then r.rowbytes != 0
        else decide (r.rowbytes < 16) || decide (65536 < r.rowbytes) || decide (r.rowbytes % 16 ≠ 0))
    || decide (2 ^ 30 - 1 < r.nexp * r.cap)
    || grottoDie r.gbase != die || !(s.gspaceOk vf r.gbase (16 * r.nexp * r.cap * r.tw))
    || (counterField (s.vf vf) r.combc).join.isNone
    || width != some (2 * r.tw)

/-- The entry that gpop last popped, where its kind is one of those given and the vendor's firmware runs (R326) and has done what it took up
before. -/
def State.popped (s : State) (die : Nat) (ok : Nat → Bool) : Option GateEntry :=
  ((s.die die).belv.popped).filter fun e => (s.die die).belv.vendor && (s.die die).belv.work.isEmpty && ok (gateKind e.word)

/-- The firmware takes an entry up: the context is the entry's, and the entry is used up. -/
def State.takeEntry (s : State) (die : Nat) (e : GateEntry) : State :=
  s.modBelv die fun b => { b with popped := none, gctx := BitVec.ofNat 64 e.vf }

/-- Some session of a die ends its round: the firmware does nothing else meanwhile. -/
def Die.closingNow (d : Die) : Bool := d.sessions.any fun p => p.2.closing != 0

/-- Sets depn to COMBC (R331). -/
def State.useCombc (s : State) (die combc : Nat) : State := s.modBelv die fun b => { b with depn := BitVec.ofNat 64 combc }

/-- A header field of a cell. -/
def Cell.seq (c : Cell) : Nat := fieldAt c 0 4
def Cell.flow (c : Cell) : Nat := fieldAt c 4 2
def Cell.dest (c : Cell) : Nat := fieldAt c 6 1
def Cell.cidx (c : Cell) : Nat := fieldAt c 7 1
def Cell.kind (c : Cell) : Nat := fieldAt c 13 1

/-- The SEQ that a flow's next row or flush has in a session (R337, R338). -/
def Session.flowNext (x : Session) (flow : Nat) : BitVec 32 := SMap.getD x.recvSeq flow 0

/-- A cell lies behind what a session has received of its flow. -/
def Session.past (x : Session) (c : Cell) : Bool := decide (2 ^ 31 ≤ (BitVec.ofNat 32 (Cell.seq c) - x.flowNext (Cell.flow c)).toNat)

/-- A session receives a flow: the flow has its number, and comes from one of its SENDERS (R330, R337). -/
def receives (flow key : Nat) (r : SessRec) : Bool := key % 4 == flow / 64 % 4 && bit r.senders (flow / 1024)

/-- The open sessions of a die that receive a flow, by context: a cell does not name its context (R337). -/
def Die.takers (d : Die) (flow : Nat) : List (Nat × Session) := d.sessions.filter fun p => receives flow p.1 p.2.rcd

/-- A cell that has come before (assumption 40): it waits to be delivered, or every session that receives its flow is past it. -/
def Die.cellSeen (d : Die) (c : Cell) : Bool :=
  d.received.contains c || (!(d.takers (Cell.flow c)).isEmpty && (d.takers (Cell.flow c)).all fun p => p.2.past c)

/-- The flows that a session receives start again from SEQ 0 where it opens (R337). Cells of them that are still on their way or not
delivered are those of a round before, since a session sends to one that is open, and they are dropped, but for those that an open
session of another context is still to take (assumption 40). -/
def State.openFlows (s : State) (die key : Nat) (r : SessRec) : State :=
  let old (c : Cell) : Bool := receives (Cell.flow c) key r && ((s.die die).takers (Cell.flow c)).all fun p => p.2.past c
  let s := { s with dies := SMap.mapVals s.dies fun _ x => { x with
    sent := x.sent.filter fun c => !(Cell.dest c == die * 64 + s.board.pkg && old c) } }
  s.modDie die fun x => { x with received := x.received.filter fun c => !(old c) }

/-- R330, R331: an open entry. -/
def execGateOpenEntry (die : Nat) (s : State) : Out :=
  match s.popped die (· == 1) with
  | none => disabled
  | some e =>
    let key := sessKey e.vf (gateSess e.word)
    let s := s.takeEntry die e
    if (s.die die).closingNow then disabled
    else if gateToken e.word ≠ 0 ∨ (s.session? die key).isSome then .next (s.dropEntry die e)
    else match belvReader die e.vf 128 s (gateAddr e.word) with
      | (s, none) => .next (s.dropEntry die e)
      | (s, some b) =>
        let r := parseSession b
        let (s, width) := s.templateWidth die e.vf r.taskt
        let status (s : State) (code : Nat) : State := s.writeStatus die e.vf (BitVec.ofNat 64 r.stat) code 0 0
        if s.sessionBad die e.vf b width then .next (status s 1)
        else if (s.counter r.combc).count ≠ 0 then .next (status s 2)
        else
          let s := ((s.openFlows die key r).useCombc die r.combc).releaseDies.depSet r.combc (2 ^ 30)
          let s := s.modDie die fun d => { d with sessions := SMap.set d.sessions key ⟨r, [], 0, 0, [], false, 0, 0, []⟩ }
          .next (status s 0)

/-! ### Records and tiles (R334, R335) -/

/-- A routing record (R334). -/
def routingRecord (token expert slot weight row : Nat) : List Byte :=
  toBytes token 4 ++ toBytes expert 2 ++ toBytes slot 2 ++ toBytes weight 4 ++ toBytes row 4

/-- The template of a session with the fields of a tile's task (R335). -/
def tileRecord (r : SessRec) (ntask e t n : Nat) (b : List Byte) : List Byte :=
  let stat := fieldAt b 40 8
  b.take 16 ++ toBytes 0x80000000 4 ++ toBytes r.combc 4 ++ (b.drop 24).take 8 ++ toBytes (e * 2 ^ 32 + t * 2 ^ 8 + n) 8
    ++ toBytes (if stat = 0 then 0 else stat + 8 * ntask) 8 ++ (b.drop 48)

/-- Spawns the task of tile t of expert e with n real records (R335): none where the spawn waits. -/
def State.spawnTile (s : State) (die vf key e t n : Nat) : Option State :=
  match s.session? die key with
  | none => some s
  | some x =>
    let s := s.modBelv die fun b => { b with gctx := BitVec.ofNat 64 vf, sattr := BitVec.ofNat 64 (key % 4) }
    let (s, b) := recordReader die vf s x.rcd.taskt
    match s.spawnRecord die (b.map (tileRecord x.rcd x.ntask e t n)) with
    | .ok s => some (s.modSession die key fun x => { x with ntask := x.ntask + 1 })
    | .refused s => some (s.modSession die key Session.dropOne)
    | .waits => none

/-- Records of an expert in the round. -/
def Session.count (x : Session) (e : Nat) : Nat := SMap.getD x.lists e 0

/-- Address of position p of expert e's list (R335). -/
def SessRec.place (r : SessRec) (e p : Nat) : Nat := r.gbase + 16 * (e * r.cap * r.tw + p)

/-- A record enters expert e's list (R335); where it fills a tile, the firmware's next work is the spawn of the tile's task. `row` writes what
goes with the record at its position, or answers the pages that fail. -/
def State.enterRecord (s : State) (die vf key e token slot weight : Nat) (row : State → Nat → Except (List PageFail) State) : State :=
  match s.session? die key with
  | none => s
  | some x =>
    let p := x.count e
    let r := x.rcd
    if r.cap * r.tw ≤ p then s.modSession die key Session.dropOne
    else match row s p with
      | .error l => (s.logFails die vf l).modSession die key Session.dropOne
      | .ok s =>
        let s := s.gspaceWrite vf (r.place e p) (routingRecord token e slot weight p)
        let s := s.modSession die key fun x => { x with lists := SMap.set x.lists e (p + 1) }
        if (p + 1) % r.tw = 0 then s.modBelv die fun b => { b with work := .tile key e (p / r.tw) r.tw :: b.work } else s

/-! ### Cells (R337, R338) -/

/-- One bit of CRC-16 with polynomial 0x1021. -/
def crcBit (c : Nat) : Nat := if c.testBit 15 then (c * 2 % 65536) ^^^ 0x1021 else c * 2 % 65536
/-- CRC-16 of bytes, unreflected. -/
def crc16 (bs : List Byte) : Nat :=
  bs.foldl (fun c b => (List.range 8).foldl (fun c _ => crcBit c) (c ^^^ b.toNat * 256)) 0xFFFF

/-- The CRC of a cell: header bytes 0 to 13 and LEN payload bytes. -/
def Cell.crc (c : Cell) : Nat := crc16 (c.take 14 ++ (c.drop 16).take (fieldAt c 12 1))

/-- A cell of a flow (R337), its unused payload zero. -/
def mkCell (seq flow dest cidx row kind : Nat) (payload : List Byte) : Cell :=
  let h := toBytes seq 4 ++ toBytes flow 2 ++ toBytes dest 1 ++ toBytes cidx 1 ++ toBytes row 4 ++ toBytes payload.length 1 ++ toBytes kind 1
  let body := payload ++ List.replicate (240 - payload.length) 0
  h ++ toBytes (crc16 (h ++ payload)) 2 ++ body

/-- The FLOW field of what a session of a die sends (R337). -/
def State.flowOf (s : State) (die sess : Nat) : Nat := s.board.pkg * 2 ^ 10 + die * 2 ^ 8 + sess * 2 ^ 6

/-- Pieces of 240 bytes. -/
def pieces : Nat → List Byte → List (List Byte)
  | 0, _ => []
  | n + 1, bs => if bs.isEmpty then [] else bs.take 240 :: pieces n (bs.drop 240)

/-- Sends a record with its row on the flow to a destination, which keeps the cells until they are acknowledged (R338). -/
def State.sendRow (s : State) (die key dest token : Nat) (payload : List Byte) : State :=
  match s.session? die key with
  | none => s
  | some x =>
    let seq := (SMap.getD x.sendSeq dest 0).toNat
    let ps := pieces 300 payload
    let cells := ((List.range ps.length).zip ps).map fun q =>
      mkCell ((seq + q.1) % 2 ^ 32) (s.flowOf die (key % 4)) dest (q.1 % 256) token 0 q.2
    let s := s.modDie die fun d => { d with sent := d.sent ++ cells }
    s.modSession die key fun x => { x with sendSeq := SMap.set x.sendSeq dest (BitVec.ofNat 32 (seq + ps.length)) }

/-- Sends the flush cells of a round (R338). -/
def State.sendFlush (s : State) (die key : Nat) : State :=
  match s.session? die key with
  | none => s
  | some x =>
    let cells := x.sendSeq.map fun p => mkCell p.2.toNat (s.flowOf die (key % 4)) p.1 0 0 1 []
    s.modDie die fun d => { d with sent := d.sent ++ cells }

/-! ### Route entries (R333) -/

/-- Quotient in f32 of two values that are not negative, or the canonical NaN. -/
def divRne (x y : Nat) : Nat :=
  match fval f32 x, fval f32 y with
  | .fin _ n1 d1, .fin _ n2 d2 => if n2 = 0 then canonNan f32 else rneF32 false (n1 * d2) (d1 * n2)
  | _, _ => canonNan f32

/-- The K experts that a route entry selects, best first. -/
def selectExperts (gs : List Nat) (k : Nat) : List Nat :=
  ((sortBy (((List.range gs.length).zip gs).map fun p => (2 ^ 32 - 1 - orderkey 32 p.2, p.1))).map Prod.snd).take k

/-- The weights of the selected experts. -/
def routeWeights (gs : List Nat) (sel : List Nat) : List Nat :=
  let g (e : Nat) : Nat := (gs[e]?).getD 0
  let g0 := ((sel.head?).map g).getD 0
  let ps := sel.map fun e => mergeW (g e) g0
  let sum := match ps with
    | [] => 0
    | p :: rest => rest.foldl (fun a p => canonRes (fadd f32 .plain a p)) p
  ps.map fun p => divRne p sum

/-- Where an expert lives: the byte of EXPMAP, or this die of this package (R330, R337). -/
def State.expertHome (s : State) (die vf : Nat) (r : SessRec) (e : Nat) : State × Option Nat :=
  let here := die * 64 + s.board.pkg
  if r.expmap = 0 then (s, some here)
  else let x := belvReader die vf 1 s (r.expmap + e); (x.1, x.2.map ofBytes)

/-- One selected expert of a route entry: a local record, or cells to its home. -/
def State.routeOne (s : State) (die vf key token slot e w : Nat) : State :=
  match s.session? die key with
  | none => s
  | some x =>
    match s.expertHome die vf x.rcd e with
    | (s, none) => s.modSession die key Session.dropOne
    | (s, some home) =>
      if home = die * 64 + s.board.pkg then s.enterRecord die vf key e token slot w fun s _ => .ok s
      else match belvReader die vf x.rcd.rowbytes s (x.rcd.rowbase + token * x.rcd.rowbytes) with
        | (s, none) => s.modSession die key Session.dropOne
        | (s, some row) => s.sendRow die key home token (routingRecord token e slot w 0 ++ row)

/-- The firmware does the first of what it still has to do, which leaves the list: none where a spawn waits. -/
def State.belvStep (s : State) (die : Nat) : Option State :=
  match (s.die die).belv.work with
  | [] => none
  | w :: ws =>
    let s := s.modBelv die fun b => { b with work := ws }
    match w with
    | .record key token slot e weight => some (s.routeOne die (key / 4) key token slot e weight)
    | .tile key e t n => s.spawnTile die (key / 4) key e t n

/-- One step of what the firmware has taken up. -/
def workOn (die : Nat) (s : State) : Out :=
  match s.belvStep die with
  | some s => .next s
  | none => disabled

/-- R329, R333, R335: a route entry, or one of a malformed kind, which is dropped. The records of its experts are entered one a step, and the
task of a tile that fills is spawned in a step of its own, which may wait for Arbor's table; so does a row's record that fills a tile. -/
def execGateRouteEntry (die : Nat) (s : State) : Out :=
  if (s.die die).belv.vendor && !((s.die die).belv.work.isEmpty) then workOn die s
  else match s.popped die fun k => k != 1 && k != 2 with
  | none => disabled
  | some e =>
    let key := sessKey e.vf (gateSess e.word)
    let s := s.takeEntry die e
    if (s.die die).closingNow then disabled
    else match if gateKind e.word = 0 then s.session? die key else none with
    | none => .next (s.dropEntry die e)
    | some x =>
      if x.flushed then .next (s.dropEntry die e)
      else match belvReader die e.vf (4 * x.rcd.nexp) s (gateAddr e.word) with
        | (s, none) => .next (s.dropEntry die e)
        | (s, some b) =>
          let gs := (List.range x.rcd.nexp).map fun i => fieldAt b (4 * i) 4
          let sel := selectExperts gs x.rcd.k
          workOn die (s.modBelv die fun b => { b with
            work := ((List.range sel.length).zip (sel.zip (routeWeights gs sel))).map fun p =>
              .record key (gateToken e.word) p.1 p.2.1 p.2.2 })

/-! ### Flush (R331, R335, R336, R338) -/

/-- The partial tile of an expert is filled with fill records and its task spawned (R335). -/
def State.flushTile (s : State) (die vf key e : Nat) : Option State :=
  match s.session? die key with
  | none => some s
  | some x =>
    let n := x.count e % x.rcd.tw
    if n = 0 then some s
    else
      let p0 := x.count e
      let s := (List.range (x.rcd.tw - n)).foldl (fun s i =>
        s.gspaceWrite vf (x.rcd.place e (p0 + i)) (routingRecord 0xFFFFFFFF e 0xFFFF 0 (p0 + i))) s
      s.spawnTile die vf key e (p0 / x.rcd.tw) n

/-- The experts of a session by the most records in the round, ties to the lower index (R336). -/
def Session.hottest (x : Session) : List Nat :=
  (sortBy (((List.range x.rcd.nexp).filter fun e => decide (x.rcd.rcgb + e ≤ 255)).map fun e => (2 ^ 30 - x.count e, e))).map Prod.snd

/-- Pins the groups of the hottest experts on every die, and sets the others to auto (R336). -/
def State.pinExperts (s : State) (x : Session) : State :=
  if x.rcd.rcgb = 0 ∨ x.rcd.pinn = 0 then s
  else
    let es := x.hottest
    let mode (d : Die) (e m : Nat) : Die :=
      d.writeRcgctl (x.rcd.rcgb + e) (m * 2 ^ 30 + (SMap.getD d.rcgctl (x.rcd.rcgb + e) 0x100).toNat % 2 ^ 16)
    (List.range 4).foldl (fun s d => s.modDie d fun d =>
      let d := (es.take x.rcd.pinn).foldl (fun d e => mode d e 1) d
      (es.drop x.rcd.pinn).foldl (fun d e => mode d e 0) d) s

/-- The end of a round once its last partial tile has been spawned (R331): pinning, COMBC, STAT, and the session is closed. -/
def State.closeSession (s : State) (die vf key : Nat) (x : Session) : State :=
  let s := ((s.pinExperts x).useCombc die x.rcd.combc).releaseDies.depDec x.rcd.combc (2 ^ 30 - x.ntask)
  let s := s.writeStatus die vf (BitVec.ofNat 64 x.rcd.stat) (if x.drop = 0 then 0 else 3) x.drop x.ntask
  s.modDie die fun d => { d with sessions := SMap.erase d.sessions key }

/-- A session whose round may end (R338): it has had its own flush entry, and a flush cell from each sender. -/
def Session.complete (x : Session) : Bool := x.flushed && (x.rcd.senders &&& ~~~x.flushCells) == 0

/-- One step of a flush (R331, R335): the partial tile of the expert that comes next, and after the last expert the end of the round.
`n` is where the flush stands: 2e + 1 before expert e where its own entry ended the round, 2e + 2 where a cell did. The answer says
whether the round is over; none where a spawn waits. -/
def State.flushStep (s : State) (die vf key n : Nat) : Option (State × Bool) :=
  match s.session? die key with
  | none => some (s, true)
  | some x =>
    let e := (n - 1) / 2
    if x.rcd.nexp ≤ e then some (s.closeSession die vf key x, true)
    else match (s.flushTile die vf key e) with
      | none => none
      | some s => some (s.modSession die key fun x => { x with closing := n + 2 }, false)

/-- R331, R338: a flush entry, step by step: the round that it ends goes through the experts' partial tiles, and the entry stays until the
session is closed. -/
def execGateFlushEntry (die : Nat) (s : State) : Out :=
  match s.popped die (· == 2) with
  | none => disabled
  | some e =>
    let key := sessKey e.vf (gateSess e.word)
    let goOn (s : State) (n : Nat) : Out := match s.flushStep die e.vf key n with
      | none => disabled
      | some (s, false) => .next s
      | some (s, true) => .next (s.takeEntry die e)
    match s.session? die key with
    | none => if (s.die die).closingNow then disabled else .next ((s.takeEntry die e).dropEntry die e)
    | some x =>
      if x.closing % 2 = 1 then goOn s x.closing
      else if (s.die die).closingNow then disabled
      else if x.flushed || decide (gateToken e.word ≠ 0) || decide (gateAddr e.word ≠ 0) then
        .next ((s.takeEntry die e).dropEntry die e)
      else
        let s := (s.sendFlush die key).modSession die key fun x => { x with flushed := true }
        if ({ x with flushed := true } : Session).complete then
          .next (s.modSession die key fun x => { x with closing := 1 })
        else .next (s.takeEntry die e)

/-! ### Cells at the receiver, and resends (R338) -/

/-- A ring of cells in the scratchpad, as ctx or crx names it (R327): its address, its room in cells, and its head and tail, which count
cells from the ring's set-up. The spec gives the register no layout: bits 31:0 hold the address and bits 63:32 the room; the head stands
at the address, the tail 4 bytes on, and the cells from 256 bytes on (DESIGN CHOICE, assumption 89). None where the ring has no room or
leaves the scratchpad. -/
def Belvedere.ring (b : Belvedere) (r : Word) : Option (Nat × Nat × BitVec 32 × BitVec 32) :=
  let a := slice r 31 0
  let n := slice r 63 32
  let word (o : Nat) : BitVec 32 := BitVec.ofNat 32 (ofBytes (Memory.bytes b.scratch (a + o) 4))
  if n = 0 ∨ scratchSize < a + 256 * (n + 1) then none else some (a, n, word 0, word 4)

/-- The oldest cell of the send ring of replacement firmware leaves for its destination, which the sender keeps until it is acknowledged
(R338). -/
def Die.sendCell (d : Die) : Die :=
  match d.belv.ring d.belv.ctx with
  | none => d
  | some (a, n, head, tail) =>
    if head = tail then d
    else
      let cell := Memory.bytes d.belv.scratch (a + 256 * (head.toNat % n + 1)) 256
      { d with sent := d.sent ++ [cell]
               belv := { d.belv with scratch := Memory.store d.belv.scratch a (toBytes (head + 1).toNat 4) } }

/-- A cell that comes enters the receive ring of replacement firmware, where the ring has room. -/
def Belvedere.takeCell (b : Belvedere) (cell : Cell) : Option Belvedere :=
  match b.ring b.crx with
  | none => none
  | some (a, n, head, tail) =>
    if n ≤ (tail - head).toNat then none
    else
      let m := Memory.store b.scratch (a + 256 * (tail.toNat % n + 1)) cell
      some { b with scratch := Memory.store m (a + 4) (toBytes (tail + 1).toNat 4) }

/-- R338: a cell arrives; a bad CRC, a malformed kind, another destination or a second copy discards it. Replacement firmware finds every
cell of its die in its receive ring, which acknowledges it (R326, assumption 89). -/
def execCellReceive (die : Nat) (cell : List (BitVec 8)) (s : State) : Out :=
  if cell.length ≠ 256 then disabled
  else if !(s.die die).belv.vendor then
    match if Cell.dest cell = die * 64 + s.board.pkg then (s.die die).belv.takeCell cell else none with
    | none => disabled
    | some b =>
      let s := { s with dies := SMap.mapVals s.dies fun _ x => { x with sent := x.sent.erase cell } }
      .next (s.modBelv die fun _ => b)
  else
    let ok := Cell.crc cell == fieldAt cell 14 2 && decide (Cell.kind cell ≤ 1) && decide (fieldAt cell 12 1 ≤ 240)
      && Cell.dest cell == die * 64 + s.board.pkg && Cell.flow cell % 64 == 0 && !((s.die die).cellSeen cell)
    .next (if ok then s.modDie die fun d => { d with received := d.received ++ [cell] } else s)

/-- A row that a flow has brought (R338): its bytes land at RXBASE and its record enters expert e's list. -/
def State.landRow (s : State) (die key : Nat) (x : Session) (body : List Byte) : State :=
  let e := fieldAt body 4 2
  if x.rcd.nexp ≤ e then s.modSession die key Session.dropOne
  else
    s.enterRecord die (key / 4) key e (fieldAt body 0 4) (fieldAt body 6 2) (fieldAt body 8 4) fun s p =>
      s.dieTry die (key / 4) false (x.rcd.rxbase + (e * x.rcd.cap * x.rcd.tw + p) * x.rcd.rowbytes) (body.drop 16)

/-- The first n cells of a flow that a session is next to take, where they have arrived (R338). -/
def Die.nextCells (d : Die) (x : Session) (flow n : Nat) : List Cell :=
  (List.range n).filterMap fun i => d.received.find? fun c =>
    Cell.flow c == flow && BitVec.ofNat 32 (Cell.seq c) == x.flowNext flow + BitVec.ofNat 32 i

/-- The session that takes what comes next of a flow: of those that receive it and whose next cell has arrived, the one whose round ends,
else the lowest context's (DESIGN CHOICE, assumption 40). -/
def Die.openSession (d : Die) (flow : Nat) : Option (Nat × Session) :=
  let due (p : Nat × Session) : Bool := !(d.nextCells p.2 flow 1).isEmpty
  ((d.takers flow).find? fun p => decide (p.2.closing ≠ 0) && due p).orElse fun _ => (d.takers flow).find? due

/-- Cells of a flow have been delivered to a session. -/
def State.passCells (s : State) (die key flow : Nat) (cells : List Cell) : State :=
  (s.modDie die fun d => { d with received := d.received.filter fun c => !(cells.contains c) }).modSession die key fun x =>
    { x with recvSeq := SMap.set x.recvSeq flow (x.flowNext flow + BitVec.ofNat 32 cells.length) }

/-- R338: the next row of a flow, or its flush cell, once every cell of it has arrived. A flush cell that ends the round stays until the
session is closed, step by step. -/
def execRowDelivery (die flow : Nat) (s : State) : Out :=
  let d := s.die die
  match (d.openSession flow).map fun p => (p, d.nextCells p.2 flow 1) with
  | some ((key, x), c :: _) =>
    if !d.belv.vendor ∨ d.belv.popped.isSome ∨ !d.belv.work.isEmpty then disabled
    else if Cell.kind c = 1 then
      let y := { x with flushCells := x.flushCells ||| BitVec.ofNat 64 (2 ^ (flow / 1024)) }
      if x.closing ≠ 0 then
        match s.flushStep die (key / 4) key x.closing with
        | none => disabled
        | some (s, fin) => .next (if fin then s.passCells die key flow [c] else s)
      else if d.closingNow then disabled
      else
        let s := s.modSession die key fun _ => { y with closing := if y.complete then 2 else 0 }
        .next (if y.complete then s else s.passCells die key flow [c])
    else if d.closingNow then disabled
    else
      let n := (16 + x.rcd.rowbytes + 239) / 240
      let cells := d.nextCells x flow n
      if cells.length < n then disabled
      else .next ((s.passCells die key flow cells).landRow die key x (cells.flatMap fun c => (c.drop 16).take (fieldAt c 12 1)))
  | _ => disabled

/-- A cell that a die has sent and that has not been acknowledged. -/
def Die.kept (d : Die) (dest flow seq cidx : Nat) : Option Cell :=
  d.sent.find? fun c => Cell.dest c == dest && Cell.flow c == flow && Cell.seq c == seq && Cell.cidx c == cidx

/-- R338: the sender sends a cell that is reported lost again, and still keeps it. -/
def execCellResend (die dest flow seq cidx : Nat) (s : State) : Out :=
  if ((s.die die).kept dest flow seq cidx).isSome then .next s else disabled

/-- R338: the acknowledgement of a cell comes, and the sender keeps it no longer. -/
def execCellAcknowledged (die dest flow seq cidx : Nat) (s : State) : Out :=
  match (s.die die).kept dest flow seq cidx with
  | some c => .next (s.modDie die fun d => { d with sent := d.sent.erase c })
  | none => disabled

end Sys2Proof.Machine
end

