-- ==== Sys2Proof/Machine/Board.lean ====
section
/-! DEFINITION. The fabric's failures, boot, identity and measurements, the Kiosk, and the errors that the Flowstone record names (R15,
R379, R380, R382 to R385). -/

namespace Sys2Proof.Machine

/-! ### Rails and packages (R379, R380) -/

/-- R379: a rail, of four per die, goes down; what was in flight goes over the others, and no value changes. -/
def execRailDown (rail : Nat) (s : State) : Out :=
  if 16 ≤ rail ∨ bit s.board.railsDown rail then disabled
  else .next (({ s with board := { s.board with railsDown := s.board.railsDown ||| BitVec.ofNat 16 (2 ^ rail) } }).event 10 (rail / 4) 0xFF
    0 rail 0 0)

/-- R380: another package of the domain is declared failed, the event is logged and the host is interrupted. -/
def execPackageDeclaredFailed (pkg : Nat) (s : State) : Out :=
  if pkg = s.board.pkg ∨ !(bit s.board.domain pkg) ∨ bit s.board.failed pkg then disabled
  else .next (({ s with board := { s.board with
    failed := s.board.failed ||| BitVec.ofNat 64 (2 ^ pkg)
    hostIrq := s.board.hostIrq + 1 } }).event 11 0 0xFF 0 pkg 0 0)

/-! ### Resets and boot (R382, R383) -/

/-- The bytes of an image in flash. -/
def Board.image (b : Board) (n : Nat) : Option (List Byte) := (SMap.get? b.images n).map Image.bytes

/-- A die's Belvedere core after a reset: board firmware has loaded the image in flash into its scratchpad (R326); a package that is
held has not loaded any (R382). -/
def Board.belv (b : Board) : Belvedere :=
  match if b.held then none else b.image 1 with
  | none => .reset
  | some bs => { Belvedere.reset with scratch := Memory.store [] 0 (bs.take scratchSize), vendor := Config.vendorFirmware bs }

/-- The machine after a reset: the record and the flash stay, and with them what the firmware reads from the flash; the capability
list stands in memory (R366), and each Belvedere core has its firmware (R326). -/
def State.resetWith (s : State) (b : Board) (emulated : BitVec 128) : State :=
  { State.reset with
    mem := capsMemory b.capsPa b.caps emulated
    dies := (List.range 4).map fun d => (d, { Die.reset with belv := b.belv })
    flow := s.flow
    board := b
    emulated := emulated
    inputs := s.inputs
    tick := s.tick }

/-- What a board keeps over a reset: flash, package number, domain and the entries of the firmware. -/
def Board.kept (b : Board) : Board :=
  { Board.reset with
    held := b.held
    images := b.images
    pkg := b.pkg
    domain := b.domain
    routine := b.routine
    caps := b.caps
    capsPa := b.capsPa }

/-- A reset other than power loss derives the identity key again (R383). -/
def State.resetPackage (s : State) : State := s.resetWith { s.board.kept with key := Config.identityKey s.tick } s.emulated

/-- R383. -/
def execPackageReset (s : State) : Out := .next s.resetPackage

/-- R384: loss of power erases the record; the flash with its counters stays, and the package is held until power comes back. -/
def execPowerLoss (s : State) : Out :=
  .next { s.resetWith { s.board.kept with held := true } 0 with flow := .reset, mem := [] }

/-- The verification of one image against the controller's counter (R382): it holds where the signature verifies and the version is not
lower. -/
def imageOk (counter : Nat) (x : List Byte × List Byte × Nat) : Bool :=
  Config.verify x.2.1 (Config.sha3 x.1) && decide (counter ≤ x.2.2)

/-- An image is written to flash; one that verifies raises its counter (R382). -/
def Board.load (b : Board) (n : Nat) (x : List Byte × List Byte × Nat) : Board :=
  let c := ((SMap.get? b.images n).map Image.counter).getD 0
  { b with images := SMap.set b.images n ⟨x.1, if imageOk c x then max c x.2.2 else c⟩ }

/-- The numbered images of a power-on. -/
def numbered (l : List (List Byte × List Byte × Nat)) : List (Nat × List Byte × List Byte × Nat) := (List.range l.length).zip l

/-- The fields that the configuration blob and the firmware give (R366, R368, R379, R382). -/
def Board.configured (b : Board) : Board :=
  let blob := (b.image 3).getD []
  let firmware := (b.image 0).getD []
  { b with
    pkg := (Config.imageField blob 0).toNat % 64
    domain := Config.imageField blob 1
    routine := Config.imageField ((b.image 2).getD []) 2
    caps := Config.imageField firmware 3
    capsPa := (Config.imageField blob 0).toNat % 64 * 2 ^ 46 + (Config.imageField firmware 6).toNat % 2 ^ 39 }

/-- The major opcodes that R36 gives. -/
def definedMajor (mo : Nat) : Bool :=
  match decodeForm (BitVec.ofNat 32 (mo * 2 ^ 25)) with
  | .error .absentMajor => false
  | _ => true

/-- The major opcodes that signed firmware may mark as emulated (R39). -/
def absentMajors : BitVec 128 :=
  BitVec.ofNat 128 (((List.range 128).filter fun mo => !(definedMajor mo)).foldl (fun a mo => a + 2 ^ mo) 0)

/-- The major opcodes that the board firmware marks (R39): those absent from R36 alone. -/
def Board.marks (b : Board) : BitVec 128 :=
  let firmware := (b.image 0).getD []
  BitVec.ofNat 128 ((Config.imageField firmware 4).toNat + 2 ^ 64 * (Config.imageField firmware 5).toNat) &&& absentMajors

/-- R382: at power-on the four images are verified; one that is refused holds the package in reset. -/
def execPowerOn (images : List (List (BitVec 8) × List (BitVec 8) × Nat)) (s : State) : Out :=
  if !s.board.held || decide (images.length ≠ 4) then disabled
  else
    let good := (numbered images).all fun p => imageOk (((SMap.get? s.board.images p.1).map Image.counter).getD 0) p.2
    let b := (numbered images).foldl (fun b p => b.load p.1 p.2) s.board.kept
    if !good then .next (s.resetWith { b with held := true } s.emulated)
    else .next (s.resetWith { b.configured with held := false, key := Config.identityKey s.tick } b.marks)

/-- The bytes that a measurement covers (R383): none where the index measures nothing now. -/
def State.measuredBytes (s : State) (index : Nat) : Option (List Byte) :=
  if 1 ≤ index ∧ index ≤ 4 then some ((s.board.image (index - 1)).getD [])
  else if 16 ≤ index ∧ index < 32 ∧ ((s.vf (index - 16)).state = 1 ∨ (s.vf (index - 16)).state = 2) then
    some ((blockFields.filter fun f => !(openFields.contains f.1)).flatMap fun f => Memory.bytes (s.vf (index - 16)).block f.1 f.2)
  else none

/-- R383: the digest of the measurement asked for, and its signature by the identity key. -/
def execSpdmGetMeasurements (index : Nat) (s : State) : Out :=
  let m := match s.measuredBytes index with
    | some bs =>
      let d := Config.sha3 bs
      toBytes d.toNat 32 ++ Config.sign s.board.key d
    | none => []
  .next { s with board := { s.board with measured := m } }

/-! ### The Kiosk (R15, R385) -/

/-- R385: the Kiosk's request resets the package. -/
def execKioskResetRequest (s : State) : Out := .next s.resetPackage

/-- R385: the cap is set, and the board firmware lowers the frequencies of islands, by as much as it chooses. -/
def execKioskPowerCap (watts : Nat) (s : State) : Out :=
  let lower (m : SMap Nat) (i : Nat) : SMap Nat :=
    let f := (Config.reading i s.tick).toNat
    SMap.set m i (((SMap.get? m i).map fun o => min o f).getD f)
  .next { s with board := { s.board with
    cap := some watts
    freq := (List.range islands).foldl lower s.board.freq } }

/-- R15, R385: the temperature and the power of each island as measured, the island frequencies, the boot result, and the record with
FSCTL. -/
def execKioskReport (s : State) : Out :=
  let measured := (List.range islands).flatMap fun i => [Config.reading (100 + i) s.tick, Config.reading (200 + i) s.tick]
  let freqs := (List.range islands).map fun i => BitVec.ofNat 64 (SMap.getD s.board.freq i 0)
  let boot : Word := if s.board.held then 1 else 0
  let events := s.flow.events.flatMap fun p => (List.range 4).map p.2.word
  .next { s with board := { s.board with report := measured ++ freqs ++ [boot, s.flow.ctl] ++ events } }

/-! ### Errors (R384) -/

/-- R384: an event of type 13, which freezes the record. -/
def execUncorrectableSoftError (die pa : Nat) (s : State) : Out := .next (s.event 13 die 0xFF 0 0 pa 0)

/-- R384: an event of type 12, which freezes the record. -/
def execFatalInternalError (die detail : Nat) (s : State) : Out := .next (s.event 12 die 0xFF 0 detail 0 0)

end Sys2Proof.Machine
end

