-- ==== Sys2Proof/Machine/Riscv.lean ====
section
/-! DEFINITION. The Belvedere core as an RV64IMAC_Zba_Zbb_Zicsr processor, where replacement firmware runs on it (R326). The spec names
the instruction set and does not describe it: the encodings, the results and the machine mode of this file are PRESUMED, from the
published RISC-V manuals (assumption 76). It reaches the rest of the device through the interfaces of R327 alone. -/

namespace Sys2Proof.Machine

/-! ### Integer results -/

/-- The low 32 bits of a word, sign-extended. -/
def rvW (x : Nat) : Word := ofInt 64 (sext x 32)

/-- Register n: x0 reads zero. -/
def Belvedere.reg (b : Belvedere) (n : Nat) : Word := if n = 0 then 0 else ZMap.get b.x n

/-- Writes register n: a write of x0 is discarded. -/
def Belvedere.setReg (b : Belvedere) (n : Nat) (v : Word) : Belvedere := if n = 0 then b else { b with x := ZMap.set b.x n v }

/-- Signed division at width n: by zero it gives -1, and the most negative value by -1 itself. -/
def rvDiv (n : Nat) (a b : BitVec n) : BitVec n := if b = 0 then ofInt n (-1) else ofInt n (a.toInt.tdiv b.toInt)
/-- Unsigned division: by zero it gives every bit set. -/
def rvDivu (n : Nat) (a b : BitVec n) : BitVec n := if b = 0 then ofInt n (-1) else BitVec.ofNat n (a.toNat / b.toNat)
/-- Signed remainder: by zero the dividend. -/
def rvRem (n : Nat) (a b : BitVec n) : BitVec n := if b = 0 then a else ofInt n (a.toInt.tmod b.toInt)
/-- Unsigned remainder: by zero the dividend. -/
def rvRemu (n : Nat) (a b : BitVec n) : BitVec n := if b = 0 then a else BitVec.ofNat n (a.toNat % b.toNat)

/-- Bytes of a word, each 0xFF where it has a set bit (orc.b). -/
def rvOrc (a : Word) : Word := mapElems 8 fun j => if elem a j 8 = 0 then 0 else 255

/-- A bit as a word. -/
def rvBool (b : Bool) : Word := if b then 1 else 0

/-- OP: register with register at 64 bits (I, M, Zba, Zbb): none where the function codes name nothing. -/
def rvOp (f7 f3 : Nat) (a b : Word) : Option Word :=
  let sh := b.toNat % 64
  match f7, f3 with
  | 0x00, 0 => some (a + b)
  | 0x00, 1 => some (a <<< sh)
  | 0x00, 2 => some (rvBool (decide (a.toInt < b.toInt)))
  | 0x00, 3 => some (rvBool (decide (a.toNat < b.toNat)))
  | 0x00, 4 => some (a ^^^ b)
  | 0x00, 5 => some (a >>> sh)
  | 0x00, 6 => some (a ||| b)
  | 0x00, 7 => some (a &&& b)
  | 0x20, 0 => some (a - b)
  | 0x20, 4 => some (~~~(a ^^^ b))
  | 0x20, 5 => some (a.sshiftRight sh)
  | 0x20, 6 => some (a ||| ~~~b)
  | 0x20, 7 => some (a &&& ~~~b)
  | 0x01, 0 => some (a * b)
  | 0x01, 1 => some (ofInt 64 (a.toInt * b.toInt / 2 ^ 64))
  | 0x01, 2 => some (ofInt 64 (a.toInt * b.toNat / 2 ^ 64))
  | 0x01, 3 => some (BitVec.ofNat 64 (a.toNat * b.toNat / 2 ^ 64))
  | 0x01, 4 => some (rvDiv 64 a b)
  | 0x01, 5 => some (rvDivu 64 a b)
  | 0x01, 6 => some (rvRem 64 a b)
  | 0x01, 7 => some (rvRemu 64 a b)
  | 0x10, 2 => some (b + a <<< 1)
  | 0x10, 4 => some (b + a <<< 2)
  | 0x10, 6 => some (b + a <<< 3)
  | 0x05, 4 => some (if a.toInt < b.toInt then a else b)
  | 0x05, 5 => some (if a.toNat < b.toNat then a else b)
  | 0x05, 6 => some (if a.toInt < b.toInt then b else a)
  | 0x05, 7 => some (if a.toNat < b.toNat then b else a)
  | 0x30, 1 => some (a.rotateLeft sh)
  | 0x30, 5 => some (a.rotateRight sh)
  | _, _ => none

/-- OP-32: register with register at 32 bits, and the unsigned-word forms of Zba and Zbb. -/
def rvOp32 (f7 f3 rs2 : Nat) (a b : Word) : Option Word :=
  let x : BitVec 32 := a.setWidth 32
  let y : BitVec 32 := b.setWidth 32
  let sh := b.toNat % 32
  let w (z : BitVec 32) : Option Word := some (rvW z.toNat)
  match f7, f3 with
  | 0x00, 0 => w (x + y)
  | 0x00, 1 => w (x <<< sh)
  | 0x00, 5 => w (x >>> sh)
  | 0x20, 0 => w (x - y)
  | 0x20, 5 => w (x.sshiftRight sh)
  | 0x01, 0 => w (x * y)
  | 0x01, 4 => w (rvDiv 32 x y)
  | 0x01, 5 => w (rvDivu 32 x y)
  | 0x01, 6 => w (rvRem 32 x y)
  | 0x01, 7 => w (rvRemu 32 x y)
  | 0x04, 0 => some (b + x.setWidth 64)
  | 0x04, 4 => if rs2 = 0 then some (a &&& 0xFFFF) else none
  | 0x10, 2 => some (b + (x.setWidth 64) <<< 1)
  | 0x10, 4 => some (b + (x.setWidth 64) <<< 2)
  | 0x10, 6 => some (b + (x.setWidth 64) <<< 3)
  | 0x30, 1 => w (x.rotateLeft sh)
  | 0x30, 5 => w (x.rotateRight sh)
  | _, _ => none

/-- OP-IMM: the twelve immediate bits name the operation where funct3 is 1 or 5. -/
def rvOpImm (f3 imm : Nat) (a : Word) : Option Word :=
  let i : Word := ofInt 64 (sext imm 12)
  let sh := imm % 64
  match f3 with
  | 0 => some (a + i)
  | 2 => some (rvBool (decide (a.toInt < i.toInt)))
  | 3 => some (rvBool (decide (a.toNat < i.toNat)))
  | 4 => some (a ^^^ i)
  | 6 => some (a ||| i)
  | 7 => some (a &&& i)
  | 1 =>
    if imm / 64 = 0 then some (a <<< sh)
    else match imm with
      | 0x600 => some (BitVec.ofNat 64 (clzN a.toNat 64))
      | 0x601 => some (BitVec.ofNat 64 (ctzN a.toNat 64))
      | 0x602 => some (BitVec.ofNat 64 (popcount a))
      | 0x604 => some (ofInt 64 (sext a.toNat 8))
      | 0x605 => some (ofInt 64 (sext a.toNat 16))
      | _ => none
  | _ =>
    match imm / 64 with
    | 0x00 => some (a >>> sh)
    | 0x10 => some (a.sshiftRight sh)
    | 0x18 => some (a.rotateRight sh)
    | _ => match imm with
      | 0x287 => some (rvOrc a)
      | 0x6B8 => some (BitVec.ofNat 64 (ofBytes (toBytes a.toNat 8).reverse))
      | _ => none

/-- OP-IMM-32. -/
def rvOpImm32 (f3 imm : Nat) (a : Word) : Option Word :=
  let x : BitVec 32 := a.setWidth 32
  let sh := imm % 32
  match f3 with
  | 0 => some (rvW (a + ofInt 64 (sext imm 12)).toNat)
  | 1 =>
    if imm / 32 = 0 then some (rvW (x <<< sh).toNat)
    else if imm / 64 = 0x02 then some ((x.setWidth 64) <<< (imm % 64))
    else match imm with
      | 0x600 => some (BitVec.ofNat 64 (clzN x.toNat 32))
      | 0x601 => some (BitVec.ofNat 64 (ctzN x.toNat 32))
      | 0x602 => some (BitVec.ofNat 64 (popcount x))
      | _ => none
  | 5 =>
    match imm / 32 with
    | 0x00 => some (rvW (x >>> sh).toNat)
    | 0x20 => some (rvW (x.sshiftRight sh).toNat)
    | 0x30 => some (rvW (x.rotateRight sh).toNat)
    | _ => none
  | _ => none

/-- Whether a branch is taken: none for the two function codes that name no branch. -/
def rvBranch (f3 : Nat) (a b : Word) : Option Bool :=
  match f3 with
  | 0 => some (a == b)
  | 1 => some (a != b)
  | 4 => some (decide (a.toInt < b.toInt))
  | 5 => some (decide (b.toInt ≤ a.toInt))
  | 6 => some (decide (a.toNat < b.toNat))
  | 7 => some (decide (b.toNat ≤ a.toNat))
  | _ => none

/-- What an AMO stores, from the old value and the operand, both of n bits. -/
def rvAmo (n f5 : Nat) (a b : BitVec n) : Option (BitVec n) :=
  match f5 with
  | 0x00 => some (a + b)
  | 0x01 => some b
  | 0x04 => some (a ^^^ b)
  | 0x08 => some (a ||| b)
  | 0x0C => some (a &&& b)
  | 0x10 => some (if a.toInt < b.toInt then a else b)
  | 0x14 => some (if a.toInt < b.toInt then b else a)
  | 0x18 => some (if a.toNat < b.toNat then a else b)
  | 0x1C => some (if a.toNat < b.toNat then b else a)
  | _ => none

/-! ### Compressed instructions -/

/-- The 32-bit word of an I-type instruction. -/
def rvI (imm rs1 f3 rd op : Nat) : Nat := op + rd * 2 ^ 7 + f3 * 2 ^ 12 + rs1 * 2 ^ 15 + imm % 2 ^ 12 * 2 ^ 20
/-- R-type. -/
def rvR (f7 rs2 rs1 f3 rd op : Nat) : Nat := rvI (f7 * 32 + rs2) rs1 f3 rd op
/-- S-type. -/
def rvS (imm rs2 rs1 f3 op : Nat) : Nat := rvR (imm / 32 % 128) rs2 rs1 f3 (imm % 32) op
/-- B-type. -/
def rvB (imm rs2 rs1 f3 : Nat) : Nat :=
  rvR (imm / 2 ^ 12 % 2 * 64 + imm / 32 % 64) rs2 rs1 f3 (imm / 2 % 16 * 2 + imm / 2 ^ 11 % 2) 0x63
/-- JAL. -/
def rvJ (imm rd : Nat) : Nat :=
  0x6F + rd * 2 ^ 7 + imm / 2 ^ 12 % 256 * 2 ^ 12 + imm / 2 ^ 11 % 2 * 2 ^ 20 + imm / 2 % 1024 * 2 ^ 21 + imm / 2 ^ 20 % 2 * 2 ^ 31

/-- An unsigned field of n bits, sign-extended to m bits. -/
def rvSext (x n m : Nat) : Nat := modPow (sext x n) m

/-- Bits of a halfword brought to new places: each pair names a source bit and its place. -/
def gatherBits (h : BitVec 16) (l : List (Nat × Nat)) : Nat := l.foldl (fun a p => a + if h.getLsbD p.1 then 2 ^ p.2 else 0) 0

/-- Quadrant 0 of the compressed instructions. -/
def rvC0 (h : BitVec 16) : Option Nat :=
  let rd := 8 + slice h 4 2
  let rs := 8 + slice h 9 7
  let lw := slice h 12 10 * 8 + gatherBits h [(6, 2), (5, 6)]
  let ld := slice h 12 10 * 8 + slice h 6 5 * 64
  match slice h 15 13 with
  | 0 =>
    let imm := slice h 12 11 * 16 + slice h 10 7 * 64 + gatherBits h [(6, 2), (5, 3)]
    if imm = 0 then none else some (rvI imm 2 0 rd 0x13)
  | 2 => some (rvI lw rs 2 rd 0x03)
  | 3 => some (rvI ld rs 3 rd 0x03)
  | 6 => some (rvS lw rd rs 2 0x23)
  | 7 => some (rvS ld rd rs 3 0x23)
  | _ => none

/-- The arithmetic of quadrant 1. -/
def rvC1Alu (h : BitVec 16) (imm : Nat) : Option Nat :=
  let rd := 8 + slice h 9 7
  let rs := 8 + slice h 4 2
  match slice h 11 10 with
  | 0 => some (rvI (imm % 64) rd 5 rd 0x13)
  | 1 => some (rvI (0x400 + imm % 64) rd 5 rd 0x13)
  | 2 => some (rvI (rvSext imm 6 12) rd 7 rd 0x13)
  | _ =>
    match slice h 12 12, slice h 6 5 with
    | 0, 0 => some (rvR 0x20 rs rd 0 rd 0x33)
    | 0, 1 => some (rvR 0 rs rd 4 rd 0x33)
    | 0, 2 => some (rvR 0 rs rd 6 rd 0x33)
    | 0, _ => some (rvR 0 rs rd 7 rd 0x33)
    | _, 0 => some (rvR 0x20 rs rd 0 rd 0x3B)
    | _, 1 => some (rvR 0 rs rd 0 rd 0x3B)
    | _, _ => none

/-- Quadrant 1. -/
def rvC1 (h : BitVec 16) : Option Nat :=
  let rd := slice h 11 7
  let imm := slice h 12 12 * 32 + slice h 6 2
  let off := gatherBits h [(3, 1), (4, 2), (10, 3), (11, 4), (2, 5), (5, 6), (6, 7), (12, 8)]
  match slice h 15 13 with
  | 0 => some (rvI (rvSext imm 6 12) rd 0 rd 0x13)
  | 1 => if rd = 0 then none else some (rvI (rvSext imm 6 12) rd 0 rd 0x1B)
  | 2 => some (rvI (rvSext imm 6 12) 0 0 rd 0x13)
  | 3 =>
    if imm = 0 then none
    else if rd = 2 then some (rvI (rvSext (gatherBits h [(6, 4), (2, 5), (5, 6), (3, 7), (4, 8), (12, 9)]) 10 12) 2 0 2 0x13)
    else some (0x37 + rd * 2 ^ 7 + rvSext imm 6 20 * 2 ^ 12)
  | 4 => rvC1Alu h imm
  | 5 =>
    some (rvJ (rvSext (gatherBits h [(3, 1), (4, 2), (5, 3), (11, 4), (2, 5), (7, 6), (6, 7), (9, 8), (10, 9), (8, 10), (12, 11)]) 12 21) 0)
  | 6 => some (rvB (rvSext off 9 13) 0 (8 + slice h 9 7) 0)
  | _ => some (rvB (rvSext off 9 13) 0 (8 + slice h 9 7) 1)

/-- Quadrant 2. -/
def rvC2 (h : BitVec 16) : Option Nat :=
  let rd := slice h 11 7
  let rs := slice h 6 2
  let imm := slice h 12 12 * 32 + rs
  match slice h 15 13 with
  | 0 => some (rvI imm rd 1 rd 0x13)
  | 2 => if rd = 0 then none else some (rvI (slice h 12 12 * 32 + slice h 6 4 * 4 + slice h 3 2 * 64) 2 2 rd 0x03)
  | 3 => if rd = 0 then none else some (rvI (slice h 12 12 * 32 + slice h 6 5 * 8 + slice h 4 2 * 64) 2 3 rd 0x03)
  | 4 =>
    if slice h 12 12 = 0 then
      if rs = 0 then (if rd = 0 then none else some (rvI 0 rd 0 0 0x67)) else some (rvR 0 rs 0 0 rd 0x33)
    else if rs = 0 then (if rd = 0 then some 0x00100073 else some (rvI 0 rd 0 1 0x67))
    else some (rvR 0 rs rd 0 rd 0x33)
  | 6 => some (rvS (slice h 12 9 * 4 + slice h 8 7 * 64) rs 2 2 0x23)
  | 7 => some (rvS (slice h 12 10 * 8 + slice h 9 7 * 64) rs 2 3 0x23)
  | _ => none

/-- The 32-bit word that a compressed instruction stands for: none where it is reserved. -/
def rvExpand (h : BitVec 16) : Option Nat :=
  match slice h 1 0 with
  | 0 => rvC0 h
  | 1 => rvC1 h
  | _ => rvC2 h

/-! ### Traps and control and status registers -/

/-- A trap of the core: its cause and its value. -/
structure RvTrap where
  cause : Nat
  val : Word

/-- The core takes a trap: mepc, mcause, mtval, MPIE and MIE of mstatus are written, and the pc goes to mtvec. -/
def Belvedere.takeTrap (b : Belvedere) (t : RvTrap) : Belvedere :=
  { b with
    mepc := b.pc
    mcause := BitVec.ofNat 64 t.cause
    mtval := t.val
    mstatus := 0x1800 ||| (if bit b.mstatus 3 then 0x80 else 0)
    pc := b.mtvec }

/-- Returns from a trap. -/
def Belvedere.mret (b : Belvedere) : Belvedere :=
  { b with pc := b.mepc, mstatus := 0x1880 ||| (if bit b.mstatus 7 then 8 else 0) }

/-- A machine-mode register that reads: misa names A, C, I and M at 64 bits; no interrupt is ever pending; the counters' values are
free. -/
def Belvedere.machineCsr (b : Belvedere) (n tick : Nat) : Option Word :=
  match n with
  | 0x300 => some (b.mstatus ||| 0x1800)
  | 0x301 => some 0x8000000000001105
  | 0x304 => some b.mie
  | 0x305 => some b.mtvec
  | 0x340 => some b.mscratch
  | 0x341 => some b.mepc
  | 0x342 => some b.mcause
  | 0x343 => some b.mtval
  | 0x344 => some 0
  | 0xB00 => some (Config.freeWord 1 tick)
  | 0xB02 => some (Config.freeWord 2 tick)
  | 0xF11 | 0xF12 | 0xF13 | 0xF14 | 0xF15 => some 0
  | _ => none

/-- A write of a machine-mode register: none where it is read-only or absent. -/
def Belvedere.setMachineCsr (b : Belvedere) (n : Nat) (v : Word) : Option Belvedere :=
  match n with
  | 0x300 => some { b with mstatus := 0x1800 ||| (v &&& 0x88) }
  | 0x301 | 0x344 | 0xB00 | 0xB02 => some b
  | 0x304 => some { b with mie := v }
  | 0x305 => some { b with mtvec := v &&& ~~~3 }
  | 0x340 => some { b with mscratch := v }
  | 0x341 => some { b with mepc := v &&& ~~~1 }
  | 0x342 => some { b with mcause := v }
  | 0x343 => some { b with mtval := v }
  | _ => none

/-- A read of a register by number: those of the machine mode and those of R327. -/
def State.rvCsrRead (s : State) (die n : Nat) : Option (State × Word) :=
  match (s.die die).belv.machineCsr n s.tick with
  | some v => some (s, v)
  | none => match readCsr die n s with
    | .next s => some (s, (s.die die).belv.result)
    | _ => none

/-- A write of a register by number. -/
def State.rvCsrWrite (s : State) (die n : Nat) (v : Word) : Option State :=
  match (s.die die).belv.setMachineCsr n v with
  | some b => some (s.modBelv die fun _ => b)
  | none => match writeCsr die n v s with
    | .next s => some s
    | _ => none

/-! ### One instruction -/

/-- What an instruction comes to. -/
inductive RvOut where
  /-- Register `rd` is written and the core goes on at `pc`. -/
  | go (s : State) (rd : Nat) (v : Word) (pc : Word)
  | trap (s : State) (t : RvTrap)
  /-- A spawn waits while Arbor's table is full (R404). -/
  | waits

/-- A load by the core: its bytes, or a load access fault. -/
def State.rvLoad (s : State) (die : Nat) (a : Word) (n : Nat) : Except State (State × Nat) :=
  let s := s.belvLoad die a.toNat n
  let b := (s.die die).belv
  if b.accessFault then .error s else .ok (s, b.result.toNat)

/-- A store by the core, or a store access fault. -/
def State.rvStore (s : State) (die : Nat) (a : Word) (bs : List Byte) : Except State State :=
  let s := s.belvStore die a.toNat bs
  if (s.die die).belv.accessFault then .error s else .ok s

/-- LR, SC and the AMOs of n bytes. A reservation covers the scratchpad alone (assumption 76). -/
def rvAtomic (die f5 n rs2 : Nat) (w : Word) (a b : Word) (next : Word) (rd : Nat) (s : State) : RvOut :=
  let value (x : Nat) : Word := if n = 4 then rvW x else BitVec.ofNat 64 x
  let reserve (s : State) (r : Option (Nat × Nat)) : State := s.modBelv die fun c => { c with reservation := r }
  let legal := if f5 = 2 then rs2 == 0 else f5 == 3 || (rvAmo 64 f5 0 0).isSome
  if !legal then .trap s ⟨2, w⟩
  else if a.toNat % n ≠ 0 then .trap s ⟨if f5 = 2 then 4 else 6, a⟩
  else if f5 = 2 then
    if 2 ^ 63 ≤ a.toNat then .trap s ⟨5, a⟩
    else match s.rvLoad die a n with
      | .error s => .trap s ⟨5, a⟩
      | .ok (s, x) => .go (reserve s (some (a.toNat, n))) rd (value x) next
  else if f5 = 3 then
    if 2 ^ 63 ≤ a.toNat then .trap s ⟨7, a⟩
    else if (s.die die).belv.reservation ≠ some (a.toNat, n) then .go (reserve s none) rd 1 next
    else match s.rvStore die a (toBytes b.toNat n) with
      | .error s => .trap s ⟨7, a⟩
      | .ok s => .go (reserve s none) rd 0 next
  else
    let f (x : Nat) : Nat :=
      if n = 4 then ((rvAmo 32 f5 (BitVec.ofNat 32 x) (b.setWidth 32)).getD 0).toNat
      else ((rvAmo 64 f5 (BitVec.ofNat 64 x) b).getD 0).toNat
    if 2 ^ 63 ≤ a.toNat ∧ !(a.toNat.testBit 62) then
      let s := s.belvAtomic die a.toNat n f
      if (s.die die).belv.accessFault then .trap s ⟨7, a⟩ else .go s rd (value (s.die die).belv.result.toNat) next
    else match s.rvLoad die a n with
      | .error s => .trap s ⟨7, a⟩
      | .ok (s, x) => match s.rvStore die a (toBytes (f x) n) with
        | .error s => .trap s ⟨7, a⟩
        | .ok s => .go s rd (value x) next

/-- The register instructions of Zicsr: `v` is the operand, `quiet` that it is x0 or the immediate 0. -/
def rvCsr (die f3 n : Nat) (w v : Word) (quiet : Bool) (rd : Nat) (next : Word) (s : State) : RvOut :=
  let swap := f3 % 4 == 1
  let read := if swap && rd == 0 then some (s, 0) else s.rvCsrRead die n
  match read with
  | none => .trap s ⟨2, w⟩
  | some (t, old) =>
    if !swap && quiet then .go t rd old next
    else
      let v := if swap then v else if f3 % 4 = 2 then old ||| v else old &&& ~~~v
      match t.rvCsrWrite die n v with
      | some t => .go t rd old next
      | none => if n = 0x8C1 ∧ swap ∧ rd = 0 then .waits else .trap s ⟨2, w⟩

/-- SYSTEM without a register operand: ecall, ebreak, mret, wfi. -/
def rvSystem (die : Nat) (w : Word) (next : Word) (s : State) : RvOut :=
  match w.toNat with
  | 0x00000073 => .trap s ⟨11, 0⟩
  | 0x00100073 => .trap s ⟨3, (s.die die).belv.pc⟩
  | 0x30200073 =>
    let s := s.modBelv die Belvedere.mret
    .go s 0 0 (s.die die).belv.pc
  | 0x10500073 => .go s 0 0 next
  | _ => .trap s ⟨2, w⟩

/-- Runs the 32-bit word of an instruction of `len` bytes at the pc. -/
def rvRun (die : Nat) (word : BitVec 32) (len : Nat) (s : State) : RvOut :=
  let b := (s.die die).belv
  let w : Word := word.setWidth 64
  let rd := slice word 11 7
  let f3 := slice word 14 12
  let rs1 := slice word 19 15
  let rs2 := slice word 24 20
  let f7 := slice word 31 25
  let imm := slice word 31 20
  let x := b.reg rs1
  let y := b.reg rs2
  let next := b.pc + BitVec.ofNat 64 len
  let give (r : Option Word) : RvOut := match r with
    | some v => .go s rd v next
    | none => .trap s ⟨2, w⟩
  match slice word 6 0 with
  | 0x37 => give (some (rvW (word.toNat / 4096 * 4096)))
  | 0x17 => give (some (b.pc + rvW (word.toNat / 4096 * 4096)))
  | 0x6F =>
    let o := slice word 30 21 * 2 + slice word 20 20 * 2 ^ 11 + slice word 19 12 * 2 ^ 12 + slice word 31 31 * 2 ^ 20
    .go s rd next (b.pc + ofInt 64 (sext o 21))
  | 0x67 => if f3 = 0 then .go s rd next ((x + ofInt 64 (sext imm 12)) &&& ~~~1) else .trap s ⟨2, w⟩
  | 0x63 =>
    let o := slice word 11 8 * 2 + slice word 30 25 * 32 + slice word 7 7 * 2 ^ 11 + slice word 31 31 * 2 ^ 12
    match rvBranch f3 x y with
    | some t => .go s 0 0 (if t then b.pc + ofInt 64 (sext o 13) else next)
    | none => .trap s ⟨2, w⟩
  | 0x03 =>
    if f3 = 7 then .trap s ⟨2, w⟩
    else
      let a := x + ofInt 64 (sext imm 12)
      let n := 2 ^ (f3 % 4)
      match s.rvLoad die a n with
      | .error s => .trap s ⟨5, a⟩
      | .ok (s, v) => .go s rd (if f3 < 4 then ofInt 64 (sext v (8 * n)) else BitVec.ofNat 64 v) next
  | 0x23 =>
    if 4 ≤ f3 then .trap s ⟨2, w⟩
    else
      let a := x + ofInt 64 (sext (f7 * 32 + rd) 12)
      match s.rvStore die a (toBytes y.toNat (2 ^ f3)) with
      | .error s => .trap s ⟨7, a⟩
      | .ok s => .go s 0 0 next
  | 0x13 => give (rvOpImm f3 imm x)
  | 0x1B => give (rvOpImm32 f3 imm x)
  | 0x33 => give (rvOp f7 f3 x y)
  | 0x3B => give (rvOp32 f7 f3 rs2 x y)
  | 0x0F => if f3 = 0 then .go s 0 0 next else .trap s ⟨2, w⟩
  | 0x2F => if f3 = 2 ∨ f3 = 3 then rvAtomic die (f7 / 4) (2 ^ f3) rs2 w x y next rd s else .trap s ⟨2, w⟩
  | 0x73 =>
    if f3 = 0 then rvSystem die w next s
    else if f3 = 4 then .trap s ⟨2, w⟩
    else rvCsr die f3 imm w (if 4 ≤ f3 then BitVec.ofNat 64 rs1 else x) (rs1 == 0) rd next s
  | _ => .trap s ⟨2, w⟩

/-- The next instruction of the core's code in the scratchpad (R326): the word and its length, or the trap of its fetch. -/
def Belvedere.fetch (b : Belvedere) : Except RvTrap (BitVec 32 × Nat) :=
  let a := b.pc.toNat
  if scratchSize < a + 2 then .error ⟨1, b.pc⟩
  else
    let h := BitVec.ofNat 16 (ofBytes (Memory.bytes b.scratch a 2))
    if slice h 1 0 ≠ 3 then
      match rvExpand h with
      | some w => .ok (BitVec.ofNat 32 w, 2)
      | none => .error ⟨2, h.setWidth 64⟩
    else if scratchSize < a + 4 then .error ⟨1, b.pc⟩
    else .ok (BitVec.ofNat 32 (ofBytes (Memory.bytes b.scratch a 4)), 4)

/-- The core of a die runs one instruction of replacement firmware (R326); meanwhile a cell of its send ring leaves (R327). -/
def riscvStep (die : Nat) (s : State) : Out :=
  let b := (s.die die).belv
  if b.vendor then disabled
  else match b.fetch with
    | .error t => .next (s.modBelv die fun b => b.takeTrap t)
    | .ok (w, len) => match rvRun die w len s with
      | .go t rd v pc => .next ((t.modBelv die fun b => { b.setReg rd v with pc := pc }).modDie die Die.sendCell)
      | .trap t x => .next (t.modBelv die fun b => b.takeTrap x)
      | .waits => disabled

end Sys2Proof.Machine
end

