-- ==== Sys2Proof/Machine/Control.lean ====
section
/-! DEFINITION. Control flow (R276 to R296, R353 to R355): branches and splits, joins, exit, barriers, yield, traps and the return
from them, and the system registers. -/

namespace Sys2Proof.Machine

/-- The target of a branch word (R20, R31): the address of the word plus 4 times the extended displacement. -/
def Ctx.target {n : Nat} (c : Ctx) (d : BitVec n) : Word := c.at + ofInt 64 (4 * immS d c.hints)

/-- A branch of the fragment as a whole, on a condition (R279, R286). -/
def branchOp {n : Nat} (i : Instr) (d : BitVec n) (cond : Ctx → Bool) (s : State) : Out :=
  perform i (fun c t => if cond c then .goto t (c.target d) else .next t) s

/-- R355. Every word of this opcode faults with ILLEGAL. -/
def execIll (n : BitVec 25) (s : State) : Out := perform (.ill n) (fun _ _ => .trap { cls := cILLEGAL }) s

/-- R279. -/
def execBr (d : BitVec 18) (s : State) : Out := branchOp (.br d) d (fun _ => true) s

/-- R279. Some active lane has its bit set. -/
def execBrAny (k : BitVec 3) (d : BitVec 18) (s : State) : Out :=
  branchOp (.brAny k d) d (fun c => decide (c.active &&& c.k k ≠ 0)) s

/-- R279. Every active lane has its bit set. -/
def execBrAll (k : BitVec 3) (d : BitVec 18) (s : State) : Out :=
  branchOp (.brAll k d) d (fun c => decide (c.active &&& ~~~(c.k k) = 0)) s

/-- R279. No active lane has its bit set. -/
def execBrNone (k : BitVec 3) (d : BitVec 18) (s : State) : Out :=
  branchOp (.brNone k d) d (fun c => decide (c.active &&& c.k k = 0)) s

/-- R286. -/
def execBrsZ (a : BitVec 5) (d : BitVec 17) (s : State) : Out := branchOp (.brsZ a d) d (fun c => decide (c.s a = 0)) s

/-- R286. -/
def execBrsNz (a : BitVec 5) (d : BitVec 17) (s : State) : Out := branchOp (.brsNz a d) d (fun c => decide (c.s a ≠ 0)) s

/-- R286. -/
def execBrsNeg (a : BitVec 5) (d : BitVec 17) (s : State) : Out := branchOp (.brsNeg a d) d (fun c => bit (c.s a) 63) s

/-- R286. -/
def execBrsNneg (a : BitVec 5) (d : BitVec 17) (s : State) : Out := branchOp (.brsNneg a d) d (fun c => !(bit (c.s a) 63)) s

/-- The parts into which `br.lanes` divides a fragment (R280): slices with a lane that branches, slices with none, and the slices
of the first kind that hold both. -/
structure Split where
  taken : List Nat
  fall : List Nat
  mixed : List Nat
deriving DecidableEq, Repr

/-- The parts of R280 for active lanes of which some branch. -/
def splitOf (active branch : Mask) : Split :=
  let ss := slicesOf active
  let part (m : Mask) (s : Nat) : Bool := decide (m &&& sliceLanes s ≠ 0)
  { taken := ss.filter (part (active &&& branch))
    fall := ss.filter fun s => !(part (active &&& branch) s)
    mixed := ss.filter fun s => part (active &&& branch) s && part (active &&& ~~~branch) s }

/-- The lanes of the listed slices. -/
def lanesOfSlices (ss : List Nat) : Mask := ss.foldl (fun m s => m ||| sliceLanes s) 0

/-- The entries of R280 once they fit: one deferred entry for each mixed slice, a fragment for the slices that fall through, and
the issuing fragment with the lanes that branch. -/
def Gang.split (g : Gang) (n : Nat) (f : Fragment) (p : Split) (branch : Mask) (nxt : Word) : Gang :=
  let free := g.freeEntries f.handler
  let g := (p.mixed.zip free).foldl (fun g x => { g with
    entries := SMap.set g.entries x.2 (.deferred x.1 (f.active &&& sliceLanes x.1 &&& ~~~branch) nxt f.join f.handler) }) g
  let g := if p.fall.isEmpty then g
    else match free[p.mixed.length]? with
      | none => g
      | some m => (g.setFrag m (.start nxt (f.active &&& lanesOfSlices p.fall) f.join f.handler)).arrive m
  g.setFrag n { f with active := f.active &&& branch }

/-- R280. -/
def execBrLanes (k : BitVec 3) (d : BitVec 18) (s : State) : Out :=
  perform (.brLanes k d) (fun c t =>
    let p := splitOf c.active (c.k k)
    let need := p.mixed.length + (if p.taken.isEmpty || p.fall.isEmpty then 0 else 1)
    if p.taken.isEmpty then .next t
    else if (c.gang.freeEntries c.frag.handler).length < need then .trap { cls := cSPLITDEPTH }
    else .goto (c.modG t fun g => g.split c.ref.frag c.frag p (c.k k) c.next) (c.target d)) s

/-- R287. -/
def execCall (d : BitVec 18) (s : State) : Out :=
  perform (.call d) (fun c t => .goto (c.setS t 31 c.next) (c.target d)) s

/-- A jump to a computed target (R20, R287). -/
def jumpTo (t : State) (target : Word) : Res := if slice target 1 0 ≠ 0 then .trap { cls := cALIGN } else .goto t target

/-- R287. -/
def execJr (a : BitVec 5) (cb : BitVec 1) (s : State) : Out := perform (.jr a cb) (fun c t => jumpTo t (c.s a)) s

/-- R287. -/
def execJrl (a : BitVec 5) (cb : BitVec 1) (s : State) : Out :=
  perform (.jrl a cb) (fun c t => jumpTo (c.setS t 31 c.next) (c.s a)) s

/-- R287. -/
def execRet (cb : BitVec 1) (s : State) : Out := perform (.ret cb) (fun c t => jumpTo t (c.s 31)) s

/-- The reuse of R282: the fragment's innermost record has this address and exactly its lanes. -/
def Ctx.reuses (c : Ctx) (target : Word) : Bool :=
  match c.frag.join with
  | none => false
  | some j => match SMap.get? c.gang.entries j with
    | some (.join a m _ _ _ _) => decide (a = target) && decide (m = c.active)
    | _ => false

/-- A new record in entry j, innermost of the fragment (R282). -/
def Gang.openJoin (g : Gang) (n : Nat) (f : Fragment) (j : Nat) (target : Word) : Gang :=
  let g := { g with entries := SMap.set g.entries j (.join target f.active 0 0 f.join f.handler) }
  g.setFrag n { f with join := some j }

/-- R282. -/
def execJoinat (d : BitVec 18) (s : State) : Out :=
  perform (.joinat d) (fun c t =>
    if c.reuses (c.target d) then .next t
    else match c.gang.freeEntries c.frag.handler with
      | [] => .trap { cls := cSPLITDEPTH }
      | j :: _ => .next (c.modG t fun g => g.openJoin c.ref.frag c.frag j (c.target d))) s

/-- R284. -/
def execExit (s : State) : Out :=
  perform .exit (fun c t => if c.lastExit && t.teamCopies c.ref.team then .wait s .copies else .gone (t.exitOf c.ref)) s

/-- The budget that remains of a team, as `dlrem` reads (R144). -/
def Team.dlrem (t : Team) : Word := match t.budget with | none => 0xFFFFFFFF | some n => BitVec.ofNat 64 n

/-- R294. The turn that it gives away is `Ctx.schedule`'s. A `yield` with C = 1 asks for another gang where R27 lets none in before the
chain's next instruction: the chain goes on first (DESIGN CHOICE, assumption 99). -/
def execYield (d : BitVec 5) (n : BitVec 14) (cb : BitVec 1) (s : State) : Out :=
  perform (.yield d n cb) (fun c t =>
    if c.team.budget = some 0 then .gone (t.stopTeam c.ref.team .expired)
    else
      let t := c.modG t fun g => { g with wbudget := 64 * (immS n c.hints).toNat, wcount := 0 }
      .next (c.setS t d c.team.dlrem)) s

/-- What an arrival comes to (R291). -/
inductive Arrival where
  | bad
  /-- The barrier with the arrival counted, and whether the phase completes. -/
  | counted (b : Barrier) (complete : Bool)
deriving DecidableEq, Repr

/-- The checks and the counting of R291. -/
def Team.arrival (t : Team) (n : Nat) (e : Word) (lanes : Nat) : Arrival :=
  let b := t.bar n
  let dflt : Bool := decide (e = 0)
  if t.kernel.bars ≤ n then .bad
  else if 1024 < e.toNat then .bad
  else
    let fresh : Bool := decide (b.cnt = 0) && decide (b.exp = 0) && !b.dflt
    let fixed : Barrier := if fresh then { b with exp := if dflt then 0 else e.toNat, dflt := dflt } else b
    if fixed.dflt ≠ dflt then .bad
    else if !dflt && decide (fixed.exp ≠ e.toNat) then .bad
    else if !dflt && decide (fixed.exp < fixed.cnt + lanes) then .bad
    else
      let cnt := fixed.cnt + lanes
      let live := (t.gangs.map fun p => p.2.liveLanes).foldl (· + ·) 0
      .counted { fixed with cnt := cnt } (if dflt then decide (live ≤ cnt) else decide (cnt = fixed.exp))

/-- The reason that a barrier or its count is not valid (R291). -/
def badBarrier : FaultInfo := .mk' cPROT 7

/-- Performs an arrival, a release at the team's scope (R292): the state, the phase arrived in and whether it completed. -/
def Ctx.arriveAt (c : Ctx) (t : State) (n : BitVec 5) (e : Word) : Option (State × BitVec 32 × Bool) :=
  match c.team.arrival n.toNat e (popcount c.active) with
  | .bad => none
  | .counted b done =>
    let t := t.gangRelease c.ref.team c.ref.gang c.core (c.team.latch c.core)
    let t := t.modTeam c.ref.team fun x => { x with bars := SMap.set x.bars n.toNat b }
    some (if done then t.completeBarrier c.ref.team n.toNat else t, b.phase, done)

/-- R291. -/
def execBarArrive (d a b : BitVec 5) (cb : BitVec 1) (s : State) : Out :=
  perform (.barArrive d a b cb) (fun c t => match c.arriveAt t b (c.s a) with
    | none => .trap badBarrier
    | some (t, phase, _) => .next (c.setS t d (phase.setWidth 64))) s

/-- R292. -/
def execBarWait (a b : BitVec 5) (cb : BitVec 1) (s : State) : Out :=
  perform (.barWait a b cb) (fun c t =>
    if c.team.kernel.bars ≤ b.toNat then .trap badBarrier
    else if (c.team.bar b.toNat).phase = (c.s a).setWidth 32 then .hold t (.barrier b.toNat (c.team.bar b.toNat).phase)
    else .next (t.acquireNow c.core (c.team.latch c.core))) s

/-- R291, R292. -/
def execBarSync (a b : BitVec 5) (cb : BitVec 1) (s : State) : Out :=
  perform (.barSync a b cb) (fun c t => match c.arriveAt t b (c.s a) with
    | none => .trap badBarrier
    | some (t, phase, done) =>
      if done then .next (t.acquireNow c.core (c.team.latch c.core)) else .hold t (.barrier b.toNat phase)) s

/-- The state word of a barrier (R290). -/
def Barrier.word (b : Barrier) : Word :=
  BitVec.ofNat 64 (b.phase.toNat + b.cnt % 2048 * 2 ^ 32 + b.exp % 2048 * 2 ^ 43 + (if b.dflt then 2 ^ 54 else 0))

/-- R290, R292. -/
def execBarQuery (d b : BitVec 5) (cb : BitVec 1) (s : State) : Out :=
  perform (.barQuery d b cb) (fun c t =>
    if c.team.kernel.bars ≤ b.toNat then .trap badBarrier else .next (c.setS t d (c.team.bar b.toNat).word)) s

/-- R353. -/
def execTrap (n : BitVec 6) (s : State) : Out :=
  perform (.trap n) (fun c t =>
    .gone (t.takeTrap c.ref { cls := 0, fbyte := BitVec.ofNat 64 n.toNat } (wordOf (.trap n)) (some c.next))) s

/-- The entries that hold live lanes of a handler (R354). -/
def Gang.handlerParts (g : Gang) : Nat :=
  (g.entries.filter fun p => match p.2 with
    | .frag f => f.handler
    | .deferred _ _ _ _ h => h
    | .join _ _ _ _ _ _ => false).length

/-- R354. IADDR and RESUME are read from record 2g, where the trap entry wrote it, as the gang's own loads read it
(assumption 74). The return of the resident routine counts the emulated unit (R295, R368, assumption 29). -/
def execRte (s : State) : Out :=
  perform .rte (fun c t => match c.gang.handler with
    | none => .trap { cls := cPRIV }
    | some h =>
      if c.gang.handlerParts ≠ 1 then .trap (.mk' cPROT 12)
      else
        let a := h.record.toNat
        match t.translate c.core c.vf kLoad true [⟨a, 64, 0⟩] with
        | .error l => .pages kLoad l (failInfo l [⟨a, 64, 0⟩])
        | .ok xs =>
          let t := t.useXlats c.core c.vf kLoad xs
          let x := findXlat xs a
          if t.absent (x.pa a) then .bus (c.uncount t) a
          else
          let (t, bs) := t.coreLoad c.core c.vf (x.pa a) 64 x.leaf
          let bs := if c.team.staged then c.team.staging.overlay a bs else bs
          let iaddr : Word := BitVec.ofNat 64 (ofBytes ((bs.drop 8).take 8))
          let r : Word := BitVec.ofNat 64 (ofBytes ((bs.drop 56).take 8))
          if slice r 1 0 ≠ 0 then .late (c.uncount t) { cls := cALIGN }
          else if h.compat && decide (c.gang.wbudget ≤ c.gang.wcount) then .late (c.uncount t) { cls := cWATCHDOG }
          else
            let back (g : Gang) : Gang := let g := g.returnFromHandler h r iaddr; if h.compat then g.count else g
            .gone (((c.modG t back).endGang c.ref.team c.ref.gang).settleTeam c.ref.team)) s

/-- The grid identifier that a team reads (R144); that of a task is not stated. -/
def Ctx.gridId (c : Ctx) (s : State) : Word :=
  match c.team.own with
  | .grid n => BitVec.ofNat 64 n
  | .task _ _ => Config.freeWord 0 s.tick

/-- A system register as it reads (R144, R145). -/
def Ctx.sysreg (c : Ctx) (s : State) (n : Nat) : Word :=
  match n with
  | 0 => BitVec.ofNat 64 c.ref.gang
  | 1 => c.team.index
  | 2 => c.gridId s
  | 3 => BitVec.ofNat 64 (c.core % 64 + c.die * 256 + c.gang.quad * 1024)
  | 4 => BitVec.ofNat 64 c.w
  | 5 => BitVec.ofNat 64 c.team.kernel.vregs
  | 6 => c.gang.fpm
  | 7 => c.gang.flags
  | 8 => c.team.dlrem
  | 9 => s.board.caps
  | 10 => BitVec.ofNat 64 (s.die c.die).cycle
  | 11 => c.team.argp
  | 12 => BitVec.ofNat 64 c.team.tenant
  | 13 => c.team.fbase
  | _ => BitVec.ofNat 64 (s.vf c.vf).slabq

/-- An `sget` of flags returns every flag that earlier instructions set: none is left that a later `sset` would keep (R158). -/
def Ctx.flagsRead (c : Ctx) (t : State) (n : Nat) : State := if n = 7 then c.modG t fun g => { g with unread := 0 } else t

/-- R296. -/
def execSget (d : BitVec 5) (n : BitVec 6) (cb : BitVec 1) (s : State) : Out :=
  perform (.sget d n cb) (fun c t => .next (c.flagsRead (c.setS t d (c.sysreg t n.toNat)) n.toNat)) s

/-- A write of a system register (R144, R154, R157, R158, R345): fpm, flags, fbase or slabq. -/
def Ctx.setSysreg (c : Ctx) (t : State) (n : Nat) (v : Word) : State :=
  match n with
  | 6 => c.modG t fun g => { g with fpm := fpmWrite v }
  | 7 => c.modG t fun g => { g with flags := flagsWrite v ||| g.unread }
  | 13 => t.modTeam c.ref.team fun x => { x with fbase := v &&& ~~~(0xFFF : Word) }
  | _ => t.modVf c.vf fun x => x.setCfg 12 4 v.toNat

/-- R296. -/
def execSset (a : BitVec 5) (n : BitVec 6) (cb : BitVec 1) (s : State) : Out :=
  perform (.sset a n cb) (fun c t => .next (c.setSysreg t n.toNat (c.s a))) s

end Sys2Proof.Machine
end

