-- ==== Sys2Proof/Machine/VFloat.lean ====
section
/-! DEFINITION. Vector floating point (R190 to R197) and mask operations (R198). -/

namespace Sys2Proof.Machine

/-- The float type codes 0 .f32, 1 .f16, 2 .bf16 (R190, R197). -/
def fmtOf (t : BitVec 2) : Fmt := match t.toNat with | 0 => f32 | 1 => f16 | _ => bf16

/-- A floating-point operation of two sources in every sub-element (R190). -/
def float2 (i : Instr) (k : BitVec 3) (d a b : BitVec 6) (t : BitVec 2) (f : Fmt → FMode → Nat → Nat → FRes) (s : State) : Out :=
  vectorFlagOp i k d (fun c l => mapFlags (fmtOf t).bits fun j =>
    f (fmtOf t) c.mode (elem (c.v a l) j (fmtOf t).bits) (elem (c.v b l) j (fmtOf t).bits)) s

/-- R190. Sum. -/
def execVfadd (k : BitVec 3) (d a b : BitVec 6) (t : BitVec 2) (cb : BitVec 1) (s : State) : Out :=
  float2 (.vfadd k d a b t cb) k d a b t fadd s
/-- R190. Difference. -/
def execVfsub (k : BitVec 3) (d a b : BitVec 6) (t : BitVec 2) (cb : BitVec 1) (s : State) : Out :=
  float2 (.vfsub k d a b t cb) k d a b t fsub s
/-- R190. Product. -/
def execVfmul (k : BitVec 3) (d a b : BitVec 6) (t : BitVec 2) (cb : BitVec 1) (s : State) : Out :=
  float2 (.vfmul k d a b t cb) k d a b t fmul s
/-- R191. Fused multiply-add; the addend is vd, or the vc of a hint. -/
def execVfma (k : BitVec 3) (d a b : BitVec 6) (t : BitVec 2) (cb : BitVec 1) (s : State) : Out :=
  vectorFlagOp (.vfma k d a b t cb) k d (fun c l => mapFlags (fmtOf t).bits fun j =>
    ffma (fmtOf t) c.mode (elem (c.v a l) j (fmtOf t).bits) (elem (c.v b l) j (fmtOf t).bits)
      (elem (c.v ((hintVc c.hints).getD d) l) j (fmtOf t).bits)) s

/-- The width that the type bit of R192 and R194 selects. -/
def width2 (t : BitVec 1) : Nat := if t = 0 then 32 else 16
/-- The float format of the num forms (R192): f32 or f16. -/
def numFmt (t : BitVec 1) : Fmt := if t = 0 then f32 else f16

/-- R192. Minimum by totalOrder. -/
def execVfmin (k : BitVec 3) (d a b : BitVec 6) (t cb : BitVec 1) (s : State) : Out :=
  vectorOp (.vfmin k d a b t cb) k d (fun c l => map2 (width2 t) (c.v a l) (c.v b l) (totalMin (width2 t))) s
/-- R192. Maximum by totalOrder. -/
def execVfmax (k : BitVec 3) (d a b : BitVec 6) (t cb : BitVec 1) (s : State) : Out :=
  vectorOp (.vfmax k d a b t cb) k d (fun c l => map2 (width2 t) (c.v a l) (c.v b l) (totalMax (width2 t))) s
/-- R192. Minimum with NaNs set aside. -/
def execVfminnum (k : BitVec 3) (d a b : BitVec 6) (t cb : BitVec 1) (s : State) : Out :=
  vectorOp (.vfminnum k d a b t cb) k d (fun c l => map2 (width2 t) (c.v a l) (c.v b l) (numOf (numFmt t) totalMin)) s
/-- R192. Maximum with NaNs set aside. -/
def execVfmaxnum (k : BitVec 3) (d a b : BitVec 6) (t cb : BitVec 1) (s : State) : Out :=
  vectorOp (.vfmaxnum k d a b t cb) k d (fun c l => map2 (width2 t) (c.v a l) (c.v b l) (numOf (numFmt t) totalMax)) s

/-- An IEEE compare of two f32 encodings (R193): 0 eq, 1 ne, 2 lt, 3 le, 4 un; and whether it sets NV. -/
def fcompare (md : FMode) (o x0 y0 : Nat) : Bool × Bool :=
  let nan := isNan f32 x0 || isNan f32 y0
  let sn := isSnan f32 x0 || isSnan f32 y0
  let x := flushIn f32 md x0
  let y := flushIn f32 md y0
  let eq := x == y || (fmag f32 x == 0 && fmag f32 y == 0)
  let lt := decide (orderkey 32 x < orderkey 32 y) && !eq
  match o with
  | 0 => (!nan && eq, sn)
  | 1 => (nan || !eq, sn)
  | 2 => (!nan && lt, nan)
  | 3 => (!nan && (lt || eq), nan)
  | _ => (nan, sn)

/-- R193. Compares the f32 sub-elements 0. -/
def execVfcmp (k kd : BitVec 3) (a b : BitVec 6) (o : BitVec 3) (cb : BitVec 1) (s : State) : Out :=
  perform (.vfcmp k kd a b o cb) (fun c t =>
    let f (l : Nat) := fcompare (.of c.gang.fpm 0) o.toNat (elem (c.v a l) 0 32) (elem (c.v b l) 0 32)
    let nv := (c.lanes k).any fun l => (f l).2
    .next (c.setFlags (c.setMask t k kd fun l => (f l).1) (if nv then fNV else 0))) s
/-- R194. Compares by totalOrder: 0 eq, 1 lt, 2 le. -/
def execVfcmpt (k kd : BitVec 3) (a b : BitVec 6) (t : BitVec 1) (o : BitVec 2) (cb : BitVec 1) (s : State) : Out :=
  maskOp (.vfcmpt k kd a b t o cb) k kd (fun c l =>
    let x := orderkey (width2 t) (elem (c.v a l) 0 (width2 t))
    let y := orderkey (width2 t) (elem (c.v b l) 0 (width2 t))
    match o.toNat with
    | 0 => decide (x = y)
    | 1 => decide (x < y)
    | _ => decide (x ≤ y)) s

/-- The conversions of R195 by their code. -/
def convert (md : FMode) (w : Nat) (x : Word) : Word × Nat :=
  match w with
  | 0 => mapFlags 32 fun j => cvtFloat f16 f32 md (elem x j 16)
  | 1 => mapFlags 32 fun j => cvtFloat f16 f32 md (elem x (j + 2) 16)
  | 2 => mapFlags 32 fun j => cvtFloat bf16 f32 md (elem x j 16)
  | 3 => mapFlags 32 fun j => cvtFloat bf16 f32 md (elem x (j + 2) 16)
  | 4 => mapFlags 16 fun j => if j < 2 then cvtFloat f32 f16 md (elem x j 32) else (0, 0)
  | 5 => mapFlags 16 fun j => if j < 2 then cvtFloat f32 bf16 md (elem x j 32) else (0, 0)
  | 8 => mapFlags 32 fun j => let r := cvtInt md (-(2 ^ 31)) (2 ^ 31 - 1) (elem x j 32); (modPow r.1 32, r.2)
  | 9 => mapFlags 32 fun j => let r := cvtInt md 0 (2 ^ 32 - 1) (elem x j 32); (modPow r.1 32, r.2)
  | 10 => mapFlags 32 fun j => cvtFromInt md (sext (elem x j 32) 32)
  | _ => mapFlags 32 fun j => cvtFromInt md (elem x j 32)

/-- R195. Converts between float formats and integers. -/
def execVfcvt (k : BitVec 3) (d a w : BitVec 6) (cb : BitVec 1) (s : State) : Out :=
  vectorFlagOp (.vfcvt k d a w cb) k d (fun c l => convert c.mode w.toNat (c.v a l)) s
/-- R196. A special function of both f32 sub-elements. -/
def execVsfu (k : BitVec 3) (d a : BitVec 6) (f : BitVec 3) (cb : BitVec 1) (s : State) : Out :=
  vectorFlagOp (.vsfu k d a f cb) k d (fun c l => mapFlags 32 fun j => sfu f.toNat c.mode (elem (c.v a l) j 32)) s
/-- R197. Clears the sign of each sub-element. -/
def execVfabs (k : BitVec 3) (d a : BitVec 6) (t : BitVec 2) (cb : BitVec 1) (s : State) : Out :=
  vectorOp (.vfabs k d a t cb) k d (fun c l => map1 (fmtOf t).bits (c.v a l) (fmag (fmtOf t))) s
/-- R197. Inverts the sign of each sub-element. -/
def execVfneg (k : BitVec 3) (d a : BitVec 6) (t : BitVec 2) (cb : BitVec 1) (s : State) : Out :=
  vectorOp (.vfneg k d a t cb) k d (fun c l => map1 (fmtOf t).bits (c.v a l) (fnegate (fmtOf t))) s
/-- R197. Rounds each sub-element to an integral value. -/
def execVfround (k : BitVec 3) (d a : BitVec 6) (t : BitVec 2) (cb : BitVec 1) (s : State) : Out :=
  vectorFlagOp (.vfround k d a t cb) k d (fun c l => mapFlags (fmtOf t).bits fun j =>
    froundInt (fmtOf t) c.mode (elem (c.v a l) j (fmtOf t).bits)) s

/-- R198. Mask and. -/
def execKand (k kd a b : BitVec 3) (cb : BitVec 1) (s : State) : Out :=
  maskOp (.kand k kd a b cb) k kd (fun c l => bit (c.k a) l && bit (c.k b) l) s
/-- R198. Mask or. -/
def execKor (k kd a b : BitVec 3) (cb : BitVec 1) (s : State) : Out :=
  maskOp (.kor k kd a b cb) k kd (fun c l => bit (c.k a) l || bit (c.k b) l) s
/-- R198. Mask xor. -/
def execKxor (k kd a b : BitVec 3) (cb : BitVec 1) (s : State) : Out :=
  maskOp (.kxor k kd a b cb) k kd (fun c l => bit (c.k a) l != bit (c.k b) l) s
/-- R198. Mask and-not. -/
def execKandn (k kd a b : BitVec 3) (cb : BitVec 1) (s : State) : Out :=
  maskOp (.kandn k kd a b cb) k kd (fun c l => bit (c.k a) l && !(bit (c.k b) l)) s
/-- R198. Copies a mask. -/
def execKmovMask (k kd a : BitVec 3) (cb : BitVec 1) (s : State) : Out :=
  maskOp (.kmovMask k kd a cb) k kd (fun c l => bit (c.k a) l) s
/-- R198. Mask bits from a scalar. -/
def execKmovFromScalar (k kd : BitVec 3) (a : BitVec 5) (cb : BitVec 1) (s : State) : Out :=
  maskOp (.kmovFromScalar k kd a cb) k kd (fun c l => bit (c.s a) l) s
/-- R198. All W bits of a mask. -/
def execKmovToScalar (d : BitVec 5) (a : BitVec 3) (cb : BitVec 1) (s : State) : Out :=
  scalarOp (.kmovToScalar d a cb) d (fun c => c.k a) s
/-- R198. Number of active lanes with the mask bit set. -/
def execKpop (d : BitVec 5) (a : BitVec 3) (cb : BitVec 1) (s : State) : Out :=
  scalarOp (.kpop d a cb) d (fun c => BitVec.ofNat 64 (popcount (c.active &&& c.k a))) s

end Sys2Proof.Machine
end

