-- ==== Sys2Proof/Machine/Cross.lean ====
section
/-! DEFINITION. Across lanes: width, shuffles, votes, reductions and scans, the maximum with its place, and the cluster merge
unit (R199 to R215). -/

namespace Sys2Proof.Machine

/-- R201. The declared width. -/
def execGwidthW (d : BitVec 5) (cb : BitVec 1) (s : State) : Out := scalarOp (.gwidthW d cb) d (fun c => BitVec.ofNat 64 c.w) s
/-- R201. The slice mask of the fragment. -/
def execGwidthSm (d : BitVec 5) (cb : BitVec 1) (s : State) : Out :=
  scalarOp (.gwidthSm d cb) d (fun c => BitVec.ofNat 64 (sliceMask c.active)) s
/-- R201. The active-lane mask. -/
def execGwidthAm (d : BitVec 5) (cb : BitVec 1) (s : State) : Out := scalarOp (.gwidthAm d cb) d (fun c => c.active) s
/-- R201. The number of active lanes. -/
def execGwidthNa (d : BitVec 5) (cb : BitVec 1) (s : State) : Out :=
  scalarOp (.gwidthNa d cb) d (fun c => BitVec.ofNat 64 (popcount c.active)) s

/-- The source lane and sub-element of a shuffle, reduced (R202): mode 0 idx, 1 xor, 2 up, 3 down. -/
def shuffleSource (mode w n l j dl de : Nat) : Nat × Nat :=
  match mode with
  | 0 => (dl % w, de % n)
  | 1 => ((l ^^^ dl) % w, (j ^^^ de) % n)
  | 2 => ((((l : Int) - dl) % (w : Int)).toNat, (((j : Int) - de) % (n : Int)).toNat)
  | _ => ((l + dl) % w, (j + de) % n)

/-- A shuffle (R203): the fields of each destination sub-element give its source; k7 receives the presence bits. -/
def shuffle (i : Instr) (k : BitVec 3) (d a : BitVec 6) (mode b : Nat) (fields : Ctx → Nat → Nat → Nat × Nat) (s : State) : Out :=
  perform i (fun c t =>
    let n := 64 / b
    let src (l j : Nat) : Nat × Nat := let f := fields c l j; shuffleSource mode c.w n l j f.1 f.2
    let here (l j : Nat) : Bool := bit c.active (src l j).1
    let word (l : Nat) : Word := mapElems b fun j =>
      if here l j then elem (c.v a (src l j).1) (src l j).2 b else elem (c.v a l) j b
    let t := c.setMask t k 7 fun l => (List.range n).all fun j => here l j
    .vec t d ((c.lanes k).map fun l => (l, word l))) s

/-- R204. Shuffles by per-lane fields. -/
def execVshfl (k : BitVec 3) (d a b : BitVec 6) (m : BitVec 2) (z cb : BitVec 1) (s : State) : Out :=
  let w := if z = 0 then 32 else 64
  shuffle (.vshfl k d a b m z cb) k d a m.toNat w (fun c l j =>
    let x := elem (c.v b l) j w
    (x / 256 % 256, x % 256)) s

/-- R205. Shuffles by immediate fields: DL 12:7, DE 6:4, MODE 3:2, SIZE 1:0 of the extended immediate. -/
def execVshfli (k : BitVec 3) (d a : BitVec 6) (i : BitVec 9) (cb : BitVec 1) (s : State) : Out :=
  shuffle (.vshfli k d a i cb) k d a (i.toNat / 4 % 4) (width4 (i.toNat % 4)) (fun c _ _ =>
    let x := (immS i c.hints).toNat
    (x / 128 % 64, x / 16 % 8)) s

/-- A truth value as a scalar. -/
def boolWord (b : Bool) : Word := if b then 1 else 0

/-- R206. 1 where some participant has its bit set. -/
def execVoteAny (k : BitVec 3) (d : BitVec 5) (a : BitVec 3) (cb : BitVec 1) (s : State) : Out :=
  scalarOp (.voteAny k d a cb) d (fun c => boolWord ((c.lanes k).any fun l => bit (c.k a) l)) s
/-- R206. 1 where every participant has its bit set. -/
def execVoteAll (k : BitVec 3) (d : BitVec 5) (a : BitVec 3) (cb : BitVec 1) (s : State) : Out :=
  scalarOp (.voteAll k d a cb) d (fun c => boolWord ((c.lanes k).all fun l => bit (c.k a) l)) s
/-- R206. 1 where every participant holds one word. -/
def execVoteEq (k : BitVec 3) (d : BitVec 5) (a : BitVec 6) (cb : BitVec 1) (s : State) : Out :=
  scalarOp (.voteEq k d a cb) d (fun c => boolWord (match c.lanes k with
    | [] => true
    | l :: ls => ls.all fun m => c.v a m == c.v a l)) s
/-- R206. The ballot. -/
def execVoteBallot (k : BitVec 3) (d : BitVec 5) (a : BitVec 3) (cb : BitVec 1) (s : State) : Out :=
  scalarOp (.voteBallot k d a cb) d (fun c => c.active &&& c.k k &&& c.k a) s

/-- The element width of the types of R207. -/
def xBits (t : Nat) : Nat := match t with | 0 | 1 | 4 => 32 | 2 | 3 => 64 | _ => 16
/-- The float format of the types 4, 5 and 6. -/
def xFmt (t : Nat) : Fmt := match t with | 4 => f32 | 5 => f16 | _ => bf16

/-- op(a, c) of R207 with the flags it sets. -/
def xOp (md : FMode) (t o x y : Nat) : FRes :=
  let b := xBits t
  if t < 4 then
    let le := if t % 2 = 0 then decide (sext x b ≤ sext y b) else decide (x ≤ y)
    match o with
    | 0 => ((x + y) % 2 ^ b, 0)
    | 1 => (if le then x else y, 0)
    | 2 => (if le then y else x, 0)
    | 3 => (x &&& y, 0)
    | 4 => (x ||| y, 0)
    | _ => (x ^^^ y, 0)
  else
    let m := xFmt t
    match o with
    | 0 => fadd m md x y
    | 1 => (totalMin b x y, 0)
    | 2 => (totalMax b x y, 0)
    | 6 => (numOf m totalMin x y, 0)
    | _ => (numOf m totalMax x y, 0)

/-- The identity of an operation (R207). -/
def xIdentity (t o : Nat) : Nat :=
  let b := xBits t
  let mx := 2 ^ b - 1
  if t < 4 then
    match o with
    | 1 => if t % 2 = 0 then 2 ^ (b - 1) - 1 else mx
    | 2 => if t % 2 = 0 then 2 ^ (b - 1) else 0
    | 3 => mx
    | _ => 0
  else
    match o with
    | 0 => 0
    | 1 | 6 => 2 ^ (b - 1) - 1
    | _ => mx

/-- One level of the tree of R208. -/
def treeLevel (f : Nat → Nat → FRes) : List Nat → List Nat × Nat
  | x :: y :: r =>
    let p := f x y
    let q := treeLevel f r
    (p.1 :: q.1, p.2 ||| q.2)
  | l => (l, 0)

/-- The tree of R208. -/
def treeReduce (f : Nat → Nat → FRes) : Nat → List Nat → FRes
  | _, [] => (0, 0)
  | _, [x] => (x, 0)
  | 0, x :: _ => (x, 0)
  | n + 1, l =>
    let p := treeLevel f l
    let q := treeReduce f n p.1
    (q.1, p.2 ||| q.2)

/-- The elements of the participants in ascending (L, j) (R208). -/
def Ctx.elems (c : Ctx) (k : BitVec 3) (a : BitVec 6) (b : Nat) : List (Nat × Nat × Nat) :=
  (c.lanes k).flatMap fun l => (List.range (64 / b)).map fun j => (l, j, elem (c.v a l) j b)

/-- R208. Reduces the elements in one fixed tree. -/
def execXred (k : BitVec 3) (d : BitVec 5) (a : BitVec 6) (o t : BitVec 3) (cb : BitVec 1) (s : State) : Out :=
  perform (.xred k d a o t cb) (fun c st =>
    let b := xBits t.toNat
    let xs := (c.elems k a b).map fun e => e.2.2
    let r := treeReduce (xOp c.mode t.toNat o.toNat) 9 xs
    let v := if t.toNat = 0 then ofInt 64 (sext r.1 32) else BitVec.ofNat 64 r.1
    .next (c.setS (c.setFlags st r.2) d v)) s

/-- The walk of R209: outputs and flags, from the accumulator so far. -/
def scanWalk (f : Nat → Nat → FRes) (ident : Nat) (ex : Bool) : Option Nat → List (Nat × Nat × Nat) → List (Nat × Nat × Nat) × Nat
  | _, [] => ([], 0)
  | acc, (l, j, x) :: r =>
    let p : FRes := match acc with | none => (x, 0) | some a => f a x
    let q := scanWalk f ident ex (some p.1) r
    ((l, j, if ex then acc.getD ident else p.1) :: q.1, p.2 ||| q.2)

/-- R209. Inclusive or exclusive scan. -/
def execXscan (k : BitVec 3) (d a : BitVec 6) (e : BitVec 1) (o t : BitVec 3) (cb : BitVec 1) (s : State) : Out :=
  perform (.xscan k d a e o t cb) (fun c st =>
    let b := xBits t.toNat
    let r := scanWalk (xOp c.mode t.toNat o.toNat) (xIdentity t.toNat o.toNat) (e == 1) none (c.elems k a b)
    let word (l : Nat) : Word := pack b ((r.1.filter fun x => x.1 == l).map fun x => x.2.2)
    .vec (c.setFlags st r.2) d ((c.lanes k).map fun l => (l, word l))) s

/-- Element width and order key of the types of `xmaxi` (R211). -/
def maxiBits (t : Nat) : Nat := if t = 3 ∨ t = 4 ∨ t = 6 then 16 else 32
/-- The key by which elements compare. -/
def maxiKey (t x : Nat) : Int :=
  match t with
  | 0 => sext x 32
  | 1 => x
  | 2 | 5 => orderkey 32 x
  | _ => orderkey 16 x

/-- The largest of the elements, the earliest among equals (R211). -/
def maxiFind (t : Nat) (l : List (Nat × Nat × Nat)) : Option (Nat × Nat × Nat) :=
  l.foldl (fun best e => match best with
    | none => some e
    | some b => if maxiKey t e.2.2 > maxiKey t b.2.2 then some e else some b) none

/-- R211. The maximum element with its lane and sub-element. -/
def execXmaxi (k : BitVec 3) (d : BitVec 5) (a : BitVec 6) (t : BitVec 3) (cb : BitVec 1) (s : State) : Out :=
  scalarOp (.xmaxi k d a t cb) d (fun c =>
    let es := c.elems k a (maxiBits t.toNat)
    let num := es.filter fun e => !(isNan (if t.toNat = 6 then f16 else f32) e.2.2)
    match maxiFind t.toNat (if t.toNat ≥ 5 ∧ !num.isEmpty then num else es) with
    | none => BitVec.ofNat 64 (2 ^ 63)
    | some (l, j, x) => BitVec.ofNat 64 (j * 2 ^ 40 + l * 2 ^ 32 + x)) s

/-- Cores per group of a team's grid with cluster grouping, or 0. -/
def Team.clgrp (t : Team) : Nat := match t.group with | some l => l.length | none => 0

/-- The unit slot that a group's slot names (R212), by die, cluster and the place of the group in its cluster; none where the
slot is not one of the group's. -/
def Ctx.mergeSlot (c : Ctx) (sa : Word) : Option Nat :=
  match c.team.group with
  | some (c :: cs) => if sa.toNat < (groupSlots (c :: cs)).2 then some ((groupSlots (c :: cs)).1 + sa.toNat) else none
  | _ => none

/-- A slot of a merge unit: none while it is idle. -/
def State.mergeAt (s : State) (n : Nat) : Option MergeSlot := SMap.get? (s.die (n / 128)).merge n
/-- Opens or changes a slot. -/
def State.setMerge (s : State) (n : Nat) (m : MergeSlot) : State :=
  s.modDie (n / 128) fun d => { d with merge := SMap.set d.merge n m }

/-- A partial as the slot keeps it. -/
def Partial.tuple (p : Partial) : BitVec 32 × BitVec 32 × BitVec 32 × BitVec 32 := (p.m, p.s, p.o0, p.o1)
/-- A kept partial. -/
def Partial.ofTuple (t : BitVec 32 × BitVec 32 × BitVec 32 × BitVec 32) : Partial := ⟨t.1, t.2.1, t.2.2.1, t.2.2.2⟩

/-- The merge of all contributions, lane by lane, in ascending key order (R213). -/
def mergeAll (w : Nat) (puts : SMap (List (BitVec 32 × BitVec 32 × BitVec 32 × BitVec 32))) :
    List (BitVec 32 × BitVec 32 × BitVec 32 × BitVec 32) :=
  (List.range w).map fun l =>
    let ps := puts.map fun p => Partial.ofTuple ((p.2[l]?).getD Partial.empty.tuple)
    match ps with
    | [] => Partial.empty.tuple
    | p :: r => (r.foldl Partial.merge p).tuple

/-- A lane's contribution (R213): a lane that is not active contributes nothing. -/
def Ctx.contribution (c : Ctx) (x : BitVec 6) (l : Nat) : BitVec 32 × BitVec 32 × BitVec 32 × BitVec 32 :=
  if bit c.active l then
    let e (j t : Nat) : BitVec 32 := BitVec.ofNat 32 (elem (c.vg x j l) t 32)
    (e 0 0, e 0 1, e 1 0, e 1 1)
  else Partial.empty.tuple

/-- The key of a gang's contribution (R213). -/
def Ctx.mergeKey (c : Ctx) : Nat := c.team.index.toNat * 32 + c.ref.gang

/-- R214. Adds the gang's contribution; the N-th one makes the slot merge (R213). -/
def execCmrgPut (a : BitVec 5) (x : BitVec 6) (cb : BitVec 1) (s : State) : Out :=
  perform (.cmrgPut a x cb) (fun c t =>
    let bad : Res := .trap { cls := cPROT, fbyte := c.s a }
    match c.mergeSlot (c.s a) with
    | none => bad
    | some n =>
      match t.mergeAt n with
      | none => bad
      | some m =>
        if decide (m.puts.length ≥ m.n) || (SMap.get? m.puts c.mergeKey).isSome
            || (!m.puts.isEmpty && decide (m.width ≠ c.w)) then bad
        else
          let puts := SMap.set m.puts c.mergeKey ((List.range c.w).map (c.contribution x))
          .next (t.setMerge n { m with
            puts, width := c.w, result := if puts.length = m.n then mergeAll c.w puts else [] })) s

/-- R214. Waits for N contributions and returns the merged result. -/
def execCmrgGet (d a : BitVec 5) (x : BitVec 6) (cb : BitVec 1) (s : State) : Out :=
  perform (.cmrgGet d a x cb) (fun c t =>
    let bad : Res := .trap { cls := cPROT, fbyte := c.s a }
    match c.mergeSlot (c.s a) with
    | none => bad
    | some n =>
      match t.mergeAt n with
      | none => bad
      | some m =>
        if !m.puts.isEmpty && decide (m.width ≠ c.w) then bad
        else if m.puts.length < m.n then .wait s (.merge n d.toNat (wordOf (.cmrgGet d a x cb)) c.next (cb == 1) (hintSched c.hints))
        else
          let r (l : Nat) := Partial.ofTuple ((m.result[l]?).getD Partial.empty.tuple)
          let two (p q : BitVec 32) : Word := pack 32 [p.toNat, q.toNat]
          let ls := lanesOf c.active
          let t := c.modG t fun g =>
            ((g.setVs x.toNat (ls.map fun l => (l, two (r l).m (r l).s))).setVs (x.toNat + 1)
              (ls.map fun l => (l, two (r l).o0 (r l).o1))).setS d.toNat (BitVec.ofNat 64 m.n)
          .next t) s

/-- A `reset` completes a fragment that waits on the slot (R214): once its destination awaits no other result. -/
def State.completeGet (s : State) (slot : Nat) (r : Ref) : State :=
  match ((s.gang? r.team r.gang).bind fun g => g.frag? r.frag).bind Fragment.wait with
  | some (.merge n sd word nxt ch sw) =>
    if n ≠ slot then s
    else (s.modFrag r fun f => { f with wait := some (.getReset sd word nxt ch sw) }).pollGet r sd word nxt ch sw
  | _ => s

/-- The fragments of the gangs of a cluster group of a grid. -/
def State.groupFrags (s : State) (own : Owning) (group : Option (List Nat)) : List Ref :=
  (s.teams.filter fun t => t.2.own == own && t.2.group == group && decide (t.2.status = .running)).flatMap fun t =>
    t.2.gangs.flatMap fun g => g.2.frags.map fun f => ⟨t.1, g.1, f.1⟩

/-- R214. Discards a slot's contributions and opens it for N. A `get` that still waits is completed by the reset, also where the slot
had its N contributions and the `get` had not yet been tried again (DESIGN CHOICE, assumption 80). -/
def execCmrgReset (a b : BitVec 5) (cb : BitVec 1) (s : State) : Out :=
  perform (.cmrgReset a b cb) (fun c t =>
    let n := (c.s b).toNat
    match c.mergeSlot (c.s a) with
    | none => .trap { cls := cPROT, fbyte := c.s a }
    | some m =>
      if n < 1 ∨ 16 < n then .trap { cls := cPROT, fbyte := c.s a }
      else
        let t := t.setMerge m ⟨n, 0, [], []⟩
        .next ((t.groupFrags c.team.own c.team.group).foldl (fun t r => t.completeGet m r) t)) s

end Sys2Proof.Machine
end

