-- ==== Sys2Proof/Machine/Units.lean ====
section
/-! DEFINITION. Whether a fragment's unit would issue now: the instruction words tried on the state, the fragments that may issue next on
a quadrant, and the watchdog (R27, R34, R295, R297). -/

namespace Sys2Proof.Machine

/-- The meaning of an instruction word, as the dispatch gives it; of any other row, nothing. -/
def unit (i : Instr) (s : State) : Out :=
  match i with
  | .ill n => execIll n s
  | .br d => execBr d s
  | .brLanes k d => execBrLanes k d s
  | .brAny k d => execBrAny k d s
  | .brAll k d => execBrAll k d s
  | .brNone k d => execBrNone k d s
  | .brsZ a d => execBrsZ a d s
  | .brsNz a d => execBrsNz a d s
  | .brsNeg a d => execBrsNeg a d s
  | .brsNneg a d => execBrsNneg a d s
  | .call d => execCall d s
  | .jr a c => execJr a c s
  | .jrl a c => execJrl a c s
  | .ret c => execRet c s
  | .joinat d => execJoinat d s
  | .yield d n c => execYield d n c s
  | .exit => execExit s
  | .barArrive d a b c => execBarArrive d a b c s
  | .barWait a b c => execBarWait a b c s
  | .barSync a b c => execBarSync a b c s
  | .barQuery d b c => execBarQuery d b c s
  | .trap n => execTrap n s
  | .rte => execRte s
  | .sget d n c => execSget d n c s
  | .sset a n c => execSset a n c s
  | .spawn d a c => execSpawn d a c s
  | .launch d a c => execLaunch d a c s
  | .tabortRetry a c => execTabortRetry a c s
  | .tabortDrop a c => execTabortDrop a c s
  | .depset a b c => execDepset a b c s
  | .depdec d a b c => execDepdec d a b c s
  | .depread d a c => execDepread d a c s
  | .qinit a q c => execQinit a q c s
  | .qpush a q c => execQpush a q c s
  | .qpop d q c => execQpop d q c s
  | .qtry d q c => execQtry d q c s
  | .sadd d a b c => execSadd d a b c s
  | .ssub d a b c => execSsub d a b c s
  | .sand d a b c => execSand d a b c s
  | .sor d a b c => execSor d a b c s
  | .sxor d a b c => execSxor d a b c s
  | .sshl d a b c => execSshl d a b c s
  | .sshr d a b c => execSshr d a b c s
  | .ssra d a b c => execSsra d a b c s
  | .smul d a b c => execSmul d a b c s
  | .smulh d a b c => execSmulh d a b c s
  | .smulhn d a b c => execSmulhn d a b c s
  | .sdiv d a b c => execSdiv d a b c s
  | .sdivn d a b c => execSdivn d a b c s
  | .srem d a b c => execSrem d a b c s
  | .sremn d a b c => execSremn d a b c s
  | .scmp o d a b c => execScmp o d a b c s
  | .smin d a b c => execSmin d a b c s
  | .smax d a b c => execSmax d a b c s
  | .sminn d a b c => execSminn d a b c s
  | .smaxn d a b c => execSmaxn d a b c s
  | .sclz d a c => execSclz d a c s
  | .sctz d a c => execSctz d a c s
  | .spopc d a c => execSpopc d a c s
  | .saddi d a imm c => execSaddi d a imm c s
  | .sandi d a imm c => execSandi d a imm c s
  | .sori d a imm c => execSori d a imm c s
  | .sxori d a imm c => execSxori d a imm c s
  | .sshli d a n c => execSshli d a n c s
  | .sshri d a n c => execSshri d a n c s
  | .ssrai d a n c => execSsrai d a n c s
  | .sld d a imm c => execSld d a imm c s
  | .sst d a imm c => execSst d a imm c s
  | .sldk k a imm c => execSldk k a imm c s
  | .vadd k d a b t c => execVadd k d a b t c s
  | .vaddSat k d a b t c => execVaddSat k d a b t c s
  | .vsub k d a b t c => execVsub k d a b t c s
  | .vsubSat k d a b t c => execVsubSat k d a b t c s
  | .vmul k d a b t c => execVmul k d a b t c s
  | .vmulh k d a b t c => execVmulh k d a b t c s
  | .vmin k d a b t c => execVmin k d a b t c s
  | .vmax k d a b t c => execVmax k d a b t c s
  | .vand k d a b c => execVand k d a b c s
  | .vor k d a b c => execVor k d a b c s
  | .vxor k d a b c => execVxor k d a b c s
  | .vandn k d a b c => execVandn k d a b c s
  | .vmov k d a c => execVmov k d a c s
  | .vshl k d a b t c => execVshl k d a b t c s
  | .vshr k d a b t c => execVshr k d a b t c s
  | .vsra k d a b t c => execVsra k d a b t c s
  | .vmovi k d t imm c => execVmovi k d t imm c s
  | .vaddi k d a imm c => execVaddi k d a imm c s
  | .vshiL k d a n c => execVshiL k d a n c s
  | .vshiR k d a n c => execVshiR k d a n c s
  | .vshiRa k d a n c => execVshiRa k d a n c s
  | .vcmp k d a b o c => execVcmp k d a b o c s
  | .vcmp64 k d a b o c => execVcmp64 k d a b o c s
  | .vsel sc d a b c => execVsel sc d a b c s
  | .vbcast k d a t c => execVbcast k d a t c s
  | .vlane k d c => execVlane k d c s
  | .vsget d a b c => execVsget d a b c s
  | .vsput k d a b c => execVsput k d a b c s
  | .vzipI8 k d a b c => execVzipI8 k d a b c s
  | .vzipI16 k d a b c => execVzipI16 k d a b c s
  | .vzipI32 k d a b c => execVzipI32 k d a b c s
  | .vunzipI8 k d a b c => execVunzipI8 k d a b c s
  | .vunzipI16 k d a b c => execVunzipI16 k d a b c s
  | .vunzipI32 k d a b c => execVunzipI32 k d a b c s
  | .vwiden k d a w c => execVwiden k d a w c s
  | .vnarrow k d a w c => execVnarrow k d a w c s
  | .vclz k d a t c => execVclz k d a t c s
  | .vpopc k d a t c => execVpopc k d a t c s
  | .vbrev k d a t c => execVbrev k d a t c s
  | .vrnenc k d a c => execVrnenc k d a c s
  | .vrndec k d a c => execVrndec k d a c s
  | .vfadd k d a b t c => execVfadd k d a b t c s
  | .vfsub k d a b t c => execVfsub k d a b t c s
  | .vfmul k d a b t c => execVfmul k d a b t c s
  | .vfma k d a b t c => execVfma k d a b t c s
  | .vfmin k d a b t c => execVfmin k d a b t c s
  | .vfmax k d a b t c => execVfmax k d a b t c s
  | .vfminnum k d a b t c => execVfminnum k d a b t c s
  | .vfmaxnum k d a b t c => execVfmaxnum k d a b t c s
  | .vfcmp k d a b o c => execVfcmp k d a b o c s
  | .vfcmpt k d a b t o c => execVfcmpt k d a b t o c s
  | .vfcvt k d a w c => execVfcvt k d a w c s
  | .vsfu k d a f c => execVsfu k d a f c s
  | .vfabs k d a t c => execVfabs k d a t c s
  | .vfneg k d a t c => execVfneg k d a t c s
  | .vfround k d a t c => execVfround k d a t c s
  | .kand k d a b c => execKand k d a b c s
  | .kor k d a b c => execKor k d a b c s
  | .kxor k d a b c => execKxor k d a b c s
  | .kandn k d a b c => execKandn k d a b c s
  | .kmovMask k d a c => execKmovMask k d a c s
  | .kmovFromScalar k d a c => execKmovFromScalar k d a c s
  | .kmovToScalar d a c => execKmovToScalar d a c s
  | .kpop d a c => execKpop d a c s
  | .vshfl k d a b m z c => execVshfl k d a b m z c s
  | .vshfli k d a imm c => execVshfli k d a imm c s
  | .voteAny k d a c => execVoteAny k d a c s
  | .voteAll k d a c => execVoteAll k d a c s
  | .voteEq k d a c => execVoteEq k d a c s
  | .voteBallot k d a c => execVoteBallot k d a c s
  | .xred k d a o t c => execXred k d a o t c s
  | .xscan k d a e o t c => execXscan k d a e o t c s
  | .xmaxi k d a t c => execXmaxi k d a t c s
  | .gwidthW d c => execGwidthW d c s
  | .gwidthSm d c => execGwidthSm d c s
  | .gwidthAm d c => execGwidthAm d c s
  | .gwidthNa d c => execGwidthNa d c s
  | .cmrgPut a x c => execCmrgPut a x c s
  | .cmrgGet d a x c => execCmrgGet d a x c s
  | .cmrgReset a b c => execCmrgReset a b c s
  | .mma p q a v w c => execMma p q a v w c s
  | .mmaZ p q a v w c => execMmaZ p q a v w c s
  | .mmas p q a v w c => execMmas p q a v w c s
  | .mmasZ p q a v w c => execMmasZ p q a v w c s
  | .accZero a r c => execAccZero a r c s
  | .accRel a c => execAccRel a c s
  | .accMov a sc c => execAccMov a sc c s
  | .accoutI32 a d c => execAccoutI32 a d c s
  | .accoutF32 p q a d w sc c => execAccoutF32 p q a d w sc c s
  | .accin a sc f c => execAccin a sc f c s
  | .accst a b g c => execAccst a b g c s
  | .accld a b g c => execAccld a b g c s
  | .ldl k t b o p l n c => execLdl k t b o p l n c s
  | .stl k t b o p l n c => execStl k t b o p l n c s
  | .ldfrag k t b p r h c => execLdfrag k t b p r h c s
  | .stfrag k t b v sc c => execStfrag k t b v sc c s
  | .catom o t b v z sc => execCatom o t b v z sc s
  | .catomExch t b v z sc => execCatomExch t b v z sc s
  | .catomCas t b v z sc => execCatomCas t b v z sc s
  | .gld k t b o f c => execGld k t b o f c s
  | .gldF6p k t b o c => execGldF6p k t b o c s
  | .gst k t b o z c => execGst k t b o z c s
  | .gstF6p k t b o c => execGstF6p k t b o c s
  | .gstFs k t b o sc c => execGstFs k t b o sc c s
  | .gatom o t b v n z sc => execGatom o t b v n z sc s
  | .gexch t b v z sc => execGexch t b v z sc s
  | .gcas t b v z sc => execGcas t b v z sc s
  | .gredF f q u t b v o p => execGredF f q u t b v o p s
  | .gredRn t b v x p => execGredRn t b v x p s
  | .gpf k b o g c => execGpf k b o g c s
  | .tcopy d a c => execTcopy d a c s
  | .tgath d a b x c => execTgath d a b x c s
  | .trag d a c => execTrag d a c s
  | .tstat d a c => execTstat d a c s
  | .tstatGal d a b c => execTstatGal d a b c s
  | .enew d a c => execEnew d a c s
  | .efree a c => execEfree a c s
  | .eins u v sc a b x c => execEins u v sc a b x c s
  | .eapp u v sc a b x c => execEapp u v sc a b x c s
  | .edel sc a b c => execEdel sc a b c s
  | .esplit d a b c => execEsplit d a b c s
  | .ecat d a b c => execEcat d a b c s
  | .emark sc a b c => execEmark sc a b c s
  | .eanch d a b c => execEanch d a b c s
  | .erank d a c => execErank d a c s
  | .erankH d a c => execErankH d a c s
  | .edrop a c => execEdrop a c s
  | .elen d a c => execElen d a c s
  | .einfo d a b c => execEinfo d a b c s
  | .eld k t b o x c => execEld k t b o x c s
  | .est k t b o c => execEst k t b o c s
  | .fenceAcq sc c => execFenceAcq sc c s
  | .fenceRel sc c => execFenceRel sc c s
  | .fenceAcqrel sc c => execFenceAcqrel sc c s
  | .sbind d sc c => execSbind d sc c s
  | .sbindClr sc c => execSbindClr sc c s
  | .swr d a b c => execSwr d a b c s
  | .srd d a b c => execSrd d a b c s
  | .icinv sc c => execIcinv sc c s
  | .hintImm p => execHintImm p s
  | .hintVc f v r g n => execHintVc f v r g n s
  | .hintOrd o => execHintOrd o s
  | .hintSched sc => execHintSched sc s
  | .hintOff o => execHintOff o s
  | _ => disabled

/-- The next word of a fragment, tried. -/
def State.tryWord (s : State) (r : Ref) : State :=
  match s.fetchUnit r with
  | .done t => t
  | .run i t => match unit i t with
    | .next u => u
    | _ => t

/-- The unit of a fragment, tried: its hint words and its target (R29). -/
def State.tryUnit (s : State) (r : Ref) : Nat → State
  | 0 => s
  | n + 1 => let t := s.tryWord r; if t.turn = some r then t.tryUnit r n else t

/-- Words of a unit that are tried: each kind of hint stands once in a unit that is not UNDEF (R31). -/
abbrev tryFuel : Nat := 8

/-- What a fragment waits for now: where its unit is tried again, the wait that a trial of it comes to; nothing where it would go on
(R27, R34, R297). -/
def State.waitNow (s : State) (r : Ref) (f : Fragment) : Option Wait :=
  f.wait.bind fun w =>
    if w.retries || f.completing then
      ((s.tryUnit r tryFuel).waitOf r).filter fun v => v.retries || decide (v = w) || (match v with | .copyFrames _ _ _ _ => true | _ => false)
    else some w

/-- The fragments that may issue next on a quadrant (R27, R34, R297): a chain whose next instruction waits for nothing goes on; else
every fragment that each open chain lets issue. A unit that has issued completes whatever chain is open. Where two chains are open, one
begun while the other waited, and neither waits any more, both go on, in any order (DESIGN CHOICE, assumption 127). -/
def State.quadMoves (s : State) (core quad : Nat) : List Ref :=
  let rs := s.residents core quad
  let all := named rs Gang.candidates
  let holders := (named rs Gang.chainHolders).map fun h => (h.1, s.waitNow h.1 h.2)
  let goesOn := all.filter fun p => holders.any fun h => decide (h.1 = p.1) && h.2.isNone
  let allowed := if goesOn.isEmpty then all.filter fun p => p.2.completing || holders.all fun h => chainAllows h p.1 else goesOn
  let others (r : Ref) : Bool :=
    allowed.any fun q => !(decide (q.1.team = r.team) && decide (q.1.gang = r.gang)) && (s.waitNow q.1 q.2).isNone
  (allowed.filter fun p => !(((s.core core).quad quad).gave p.1 p.2.active && others p.1)).map Prod.fst

/-- R295: the unit at which a fragment stands, whose other checks pass and which would be performed, would raise the count above the
budget. -/
def execWatchdog (team gang frag : Nat) (s : State) : Out :=
  match s.fetchUnit ⟨team, gang, frag⟩ with
  | .done _ => disabled
  | .run i t => match t.ctx? with
    | none => disabled
    | some c =>
      let u := c.takeTurn (c.fault i { cls := cWATCHDOG } t)
      match unit i t with
      | .next v => if c.gang.mayCount || decide (v ≠ u) then disabled else .next u
      | _ => disabled

end Sys2Proof.Machine
end

