-- ==== Sys2Proof/Machine/Choose.lean ====
section
/-! DEFINITION. The moves from which the next one comes, where nothing fixes it: units that fragments may issue, steps of the agents
inside the package, and what the outside world does next. Their order is left open within the bounds of the rules (R27, R71, R224,
R256, R297, R304); `Config.pick` takes it. -/

namespace Sys2Proof.Machine

/-- What a step of an agent does: the meaning of its row. -/
def Agent.run (a : Agent) (s : State) : Out :=
  match a with
  | .copyFrameTake team gang frag => execCopyFrameTake team gang frag s
  | .copyElementMove core id => execCopyElementMove core id s
  | .frameReturn core id frame => execFrameReturn core id frame s
  | .copyCompletionRelease core id => execCopyCompletionRelease core id s
  | .tokenWrite core id => execTokenWrite core id s
  | .copyStop core id code => execCopyStop core id code s
  | .faultQueuePost vf => execFaultQueuePost vf s
  | .instructionReplay team gang => execInstructionReplay team gang s
  | .sectorFill core line sector => execSectorFill core line sector s
  | .lineEviction level owner line => execLineEviction level owner line s
  | .releaseCompletion team gang => execReleaseCompletion team gang s
  | .classTStoreAck team gang => execClassTStoreAck team gang s
  | .accUnitsReturn core quad => execAccUnitsReturn core quad s
  | .surgeWindow die => execSurgeWindow die s
  | .surgeRamp team gang frag => execSurgeRamp team gang frag s
  | .rtuOperation die => execRtuOperation die s
  | .compactorMove team gang base => execCompactorMove team gang base s
  | .rcgEpochEnd die => execRcgEpochEnd die s
  | .deadlineExpiry team => execDeadlineExpiry team s
  | .teamEndForFault team cls => execTeamEndForFault team cls s
  | .teamDispatch grid core => execTeamDispatch grid core s
  | .taskDispatch die core => execTaskDispatch die core s
  | .teamRetirement team => execTeamRetirement team s
  | .teamDiscard team code => execTeamDiscard team code s
  | .gridEnd grid => execGridEnd grid s
  | .preempt team => execPreempt team s
  | .teamRestore team core => execTeamRestore team core s
  | .teamMigrate die slot dest => execTeamMigrate die slot dest s
  | .sliceEnd vf core => execSliceEnd vf core s
  | .tlbiDone die => execTlbiDone die s
  | .gpop die => execGpop die s
  | .riscvStep die => Sys2Proof.Machine.riscvStep die s
  | .gateOpenEntry die => execGateOpenEntry die s
  | .gateRouteEntry die => execGateRouteEntry die s
  | .gateFlushEntry die => execGateFlushEntry die s
  | .cellReceive die cell => execCellReceive die cell s
  | .rowDelivery die flow => execRowDelivery die flow s
  | .cellAcknowledged die dest flow seq cidx => execCellAcknowledged die dest flow seq cidx s
  | .invalidationReachesCore id core => execInvalidationReachesCore id core s

/-- A step of an agent comes about in a state. -/
def State.comesAbout (s : State) (a : Agent) : Bool :=
  match a.run s with
  | .next _ => true
  | _ => false

/-- The fragments that may issue: those of functions in STATE ERROR are halted (R377). -/
def State.issueMoves (s : State) : List Move :=
  ((s.busyQuads.flatMap fun q => s.quadMoves q.1 q.2).filter fun r =>
    (s.team? r.team).any fun t => (s.vf t.vf).state != 3).map Move.issue

/-- Steps of the copy engines (R98 to R109). -/
def State.copySteps (s : State) : List Agent :=
  s.cores.flatMap fun c => c.2.copies.flatMap fun p =>
    [.copyElementMove c.1 p.1, .copyStop c.1 p.1 1, .copyStop c.1 p.1 2, .copyCompletionRelease c.1 p.1, .tokenWrite c.1 p.1]
      ++ (List.range (p.2.dst.length + p.2.src.length)).map fun i => .frameReturn c.1 p.1 i

/-- Steps of the caches and the core's quadrants. -/
def State.coreSteps (s : State) : List Agent :=
  s.cores.flatMap fun c =>
    (c.2.requests.flatMap fun r => ((List.range 4).filter (bit r.sectors)).map fun n => .sectorFill c.1 r.num n) ++ (c.2.l1.map fun l => .lineEviction 0 c.1 l.num)
      ++ (c.2.quads.map fun q => .accUnitsReturn c.1 q.1)

/-- Steps that concern one gang. -/
def gangSteps (t g : Nat) (x : Gang) : List Agent :=
  [.releaseCompletion t g, .classTStoreAck t g, .instructionReplay t g]
    ++ (x.frags.map fun f => .copyFrameTake t g f.1)

/-- A team of a cooperative grid whose partition no longer holds it (R305, R356). -/
def State.misfit (s : State) (t : Team) : Bool :=
  t.coop && (match t.own with
    | .task _ _ => false
    | .grid id => (SMap.get? s.grids id).any fun g => !(s.coopFits id g))

/-- Steps in the life of teams and grids (R304 to R316, R352, R377). -/
def State.teamSteps (s : State) : List Agent :=
  (s.teams.flatMap fun t =>
    (t.2.gangs.flatMap fun g => gangSteps t.1 g.1 g.2) ++ [.teamRetirement t.1, .deadlineExpiry t.1]
      ++ (match t.2.stopped with
        | some (.fault c) => [.teamEndForFault t.1 c]
        | some c => [.teamDiscard t.1 c.code]
        | none => [])
      ++ (if (s.vf t.2.vf).state = 3 || s.misfit t.2 then [.preempt t.1] else [])
      ++ (if t.2.status = .saved then (List.range 256).map fun c => .teamRestore t.1 c else [])
      ++ [.compactorMove t.1 (Config.pick s.tick % 34) (Config.pick (s.tick + 1) % 256)])
  ++ s.grids.flatMap fun g => .gridEnd g.1 :: (List.range 256).map fun c => .teamDispatch g.1 c

/-- Cells that a die keeps and that go to a die of the package (R338). -/
def State.cellSteps (s : State) (d : Nat) (x : Die) : List Agent :=
  (x.sent.filter fun c => Cell.dest c % 64 == s.board.pkg).flatMap fun c =>
    if (s.die (Cell.dest c / 64)).cellSeen c then [.cellAcknowledged d (Cell.dest c) (Cell.flow c) (Cell.seq c) (Cell.cidx c)]
    else [.cellReceive (Cell.dest c / 64) c]

/-- Steps of the agents of the dies. -/
def State.dieSteps (s : State) : List Agent :=
  s.dies.flatMap fun d =>
    [.surgeWindow d.1, .rtuOperation d.1, .rcgEpochEnd d.1, .tlbiDone d.1]
      ++ (d.2.surge.map fun x => .surgeRamp x.ref.team x.ref.gang x.ref.frag)
      ++ (d.2.remote.map fun l => .lineEviction 1 d.1 l.num) ++ (d.2.l2.map fun l => .lineEviction 2 d.1 l.num)
      ++ (d.2.cavern.map fun l => .lineEviction 3 d.1 l.num)
      ++ (if d.2.belv.work.isEmpty then [] else [.gateRouteEntry d.1])
      ++ (match d.2.belv.popped with
        | some _ => [.gateOpenEntry d.1, .gateRouteEntry d.1, .gateFlushEntry d.1]
        | none => if !d.2.belv.work.isEmpty || d.2.gate.isEmpty || d.2.closingNow || !d.2.belv.vendor then [] else [.gpop d.1])
      ++ (if d.2.belv.vendor then [] else [.riscvStep d.1])
      ++ s.cellSteps d.1 d.2 ++ ((sortNats (d.2.received.map Cell.flow)).map fun f => .rowDelivery d.1 f)
      ++ (d.2.tasks.flatMap fun t => (List.range 4).map fun e => .teamMigrate d.1 t.1 e)

/-- Steps of the whole package. -/
def State.packageSteps (s : State) : List Agent :=
  (s.vfs.filter fun v => !v.2.fqWaiting.isEmpty).map (fun v => .faultQueuePost v.1)
    ++ (s.icinvs.flatMap fun i => i.2.cores.map fun c => .invalidationReachesCore i.1 c)
    ++ ((List.range 4).flatMap fun d => (List.range 64).map fun c => .taskDispatch d (64 * d + c))
    ++ (s.grids.flatMap fun g => (List.range 4).flatMap fun d => (List.range 4).map fun e => .teamMigrate d (65536 + g.1) e)
    ++ (s.vfs.flatMap fun v => s.cores.map fun c => .sliceEnd v.1 c.1)

/-- Every step of an agent inside the package that might come about; each still has a condition of its own. -/
def State.agentSteps (s : State) : List Agent :=
  s.copySteps ++ s.coreSteps ++ s.teamSteps ++ s.dieSteps ++ s.packageSteps

/-- The moves of which one comes next: while the package is held in reset, the outside world's alone. -/
def State.moves (s : State) : List Move :=
  let outside := if s.inputs.isEmpty then [] else [Move.input]
  if s.board.held then outside
  else s.issueMoves ++ (s.agentSteps.filter s.comesAbout).map Move.agent ++ outside

/-- What the outside world can do to a package that is held in reset (R382, R385): power, a reset, the Kiosk and measurements. -/
def reachesHeld : Instr → Bool
  | .powerOn _ | .powerLoss | .packageReset | .kioskResetRequest | .kioskPowerCap _ | .kioskReport | .spdmGetMeasurements _ => true
  | _ => false

/-- An input that is passed over: an instruction word is nothing that the outside world does, and a package held in reset takes part in
no access (assumption 90). -/
def State.passesOver (s : State) (i : Instr) : Bool := (encode i).isSome || (s.board.held && !(reachesHeld i))

/-- The move that comes next. -/
def State.nextMove (s : State) : Option Move := choose s.moves s.tick

end Sys2Proof.Machine
end

