-- ==== Sys2Proof/Machine/Dispatch.lean ====
section
/-! DEFINITION. The meaning of every instruction and step: one arm per constructor of `Instr`. -/

namespace Sys2Proof.Machine

/-- The meaning of an instruction or step in a state. -/
def exec (i : Instr) (s : State) : Host.Outcome State Fault Refusal :=
  match i with
  | .ill n => Sys2Proof.Machine.execIll n s
  | .br d => Sys2Proof.Machine.execBr d s
  | .brLanes k d => Sys2Proof.Machine.execBrLanes k d s
  | .brAny k d => Sys2Proof.Machine.execBrAny k d s
  | .brAll k d => Sys2Proof.Machine.execBrAll k d s
  | .brNone k d => Sys2Proof.Machine.execBrNone k d s
  | .brsZ a d => Sys2Proof.Machine.execBrsZ a d s
  | .brsNz a d => Sys2Proof.Machine.execBrsNz a d s
  | .brsNeg a d => Sys2Proof.Machine.execBrsNeg a d s
  | .brsNneg a d => Sys2Proof.Machine.execBrsNneg a d s
  | .call d => Sys2Proof.Machine.execCall d s
  | .jr a c => Sys2Proof.Machine.execJr a c s
  | .jrl a c => Sys2Proof.Machine.execJrl a c s
  | .ret c => Sys2Proof.Machine.execRet c s
  | .joinat d => Sys2Proof.Machine.execJoinat d s
  | .yield d n c => Sys2Proof.Machine.execYield d n c s
  | .exit => Sys2Proof.Machine.execExit s
  | .barArrive d a b c => Sys2Proof.Machine.execBarArrive d a b c s
  | .barWait a b c => Sys2Proof.Machine.execBarWait a b c s
  | .barSync a b c => Sys2Proof.Machine.execBarSync a b c s
  | .barQuery d b c => Sys2Proof.Machine.execBarQuery d b c s
  | .trap n => Sys2Proof.Machine.execTrap n s
  | .rte => Sys2Proof.Machine.execRte s
  | .sget d n c => Sys2Proof.Machine.execSget d n c s
  | .sset a n c => Sys2Proof.Machine.execSset a n c s
  | .spawn d a c => Sys2Proof.Machine.execSpawn d a c s
  | .launch d a c => Sys2Proof.Machine.execLaunch d a c s
  | .tabortRetry a c => Sys2Proof.Machine.execTabortRetry a c s
  | .tabortDrop a c => Sys2Proof.Machine.execTabortDrop a c s
  | .depset a b c => Sys2Proof.Machine.execDepset a b c s
  | .depdec d a b c => Sys2Proof.Machine.execDepdec d a b c s
  | .depread d a c => Sys2Proof.Machine.execDepread d a c s
  | .qinit a q c => Sys2Proof.Machine.execQinit a q c s
  | .qpush a q c => Sys2Proof.Machine.execQpush a q c s
  | .qpop d q c => Sys2Proof.Machine.execQpop d q c s
  | .qtry d q c => Sys2Proof.Machine.execQtry d q c s
  | .sadd d a b c => Sys2Proof.Machine.execSadd d a b c s
  | .ssub d a b c => Sys2Proof.Machine.execSsub d a b c s
  | .sand d a b c => Sys2Proof.Machine.execSand d a b c s
  | .sor d a b c => Sys2Proof.Machine.execSor d a b c s
  | .sxor d a b c => Sys2Proof.Machine.execSxor d a b c s
  | .sshl d a b c => Sys2Proof.Machine.execSshl d a b c s
  | .sshr d a b c => Sys2Proof.Machine.execSshr d a b c s
  | .ssra d a b c => Sys2Proof.Machine.execSsra d a b c s
  | .smul d a b c => Sys2Proof.Machine.execSmul d a b c s
  | .smulh d a b c => Sys2Proof.Machine.execSmulh d a b c s
  | .smulhn d a b c => Sys2Proof.Machine.execSmulhn d a b c s
  | .sdiv d a b c => Sys2Proof.Machine.execSdiv d a b c s
  | .sdivn d a b c => Sys2Proof.Machine.execSdivn d a b c s
  | .srem d a b c => Sys2Proof.Machine.execSrem d a b c s
  | .sremn d a b c => Sys2Proof.Machine.execSremn d a b c s
  | .scmp o d a b c => Sys2Proof.Machine.execScmp o d a b c s
  | .smin d a b c => Sys2Proof.Machine.execSmin d a b c s
  | .smax d a b c => Sys2Proof.Machine.execSmax d a b c s
  | .sminn d a b c => Sys2Proof.Machine.execSminn d a b c s
  | .smaxn d a b c => Sys2Proof.Machine.execSmaxn d a b c s
  | .sclz d a c => Sys2Proof.Machine.execSclz d a c s
  | .sctz d a c => Sys2Proof.Machine.execSctz d a c s
  | .spopc d a c => Sys2Proof.Machine.execSpopc d a c s
  | .saddi d a imm c => Sys2Proof.Machine.execSaddi d a imm c s
  | .sandi d a imm c => Sys2Proof.Machine.execSandi d a imm c s
  | .sori d a imm c => Sys2Proof.Machine.execSori d a imm c s
  | .sxori d a imm c => Sys2Proof.Machine.execSxori d a imm c s
  | .sshli d a n c => Sys2Proof.Machine.execSshli d a n c s
  | .sshri d a n c => Sys2Proof.Machine.execSshri d a n c s
  | .ssrai d a n c => Sys2Proof.Machine.execSsrai d a n c s
  | .sld d a imm c => Sys2Proof.Machine.execSld d a imm c s
  | .sst d a imm c => Sys2Proof.Machine.execSst d a imm c s
  | .sldk k a imm c => Sys2Proof.Machine.execSldk k a imm c s
  | .vadd k d a b t c => Sys2Proof.Machine.execVadd k d a b t c s
  | .vaddSat k d a b t c => Sys2Proof.Machine.execVaddSat k d a b t c s
  | .vsub k d a b t c => Sys2Proof.Machine.execVsub k d a b t c s
  | .vsubSat k d a b t c => Sys2Proof.Machine.execVsubSat k d a b t c s
  | .vmul k d a b t c => Sys2Proof.Machine.execVmul k d a b t c s
  | .vmulh k d a b t c => Sys2Proof.Machine.execVmulh k d a b t c s
  | .vmin k d a b t c => Sys2Proof.Machine.execVmin k d a b t c s
  | .vmax k d a b t c => Sys2Proof.Machine.execVmax k d a b t c s
  | .vand k d a b c => Sys2Proof.Machine.execVand k d a b c s
  | .vor k d a b c => Sys2Proof.Machine.execVor k d a b c s
  | .vxor k d a b c => Sys2Proof.Machine.execVxor k d a b c s
  | .vandn k d a b c => Sys2Proof.Machine.execVandn k d a b c s
  | .vmov k d a c => Sys2Proof.Machine.execVmov k d a c s
  | .vshl k d a b t c => Sys2Proof.Machine.execVshl k d a b t c s
  | .vshr k d a b t c => Sys2Proof.Machine.execVshr k d a b t c s
  | .vsra k d a b t c => Sys2Proof.Machine.execVsra k d a b t c s
  | .vmovi k d t imm c => Sys2Proof.Machine.execVmovi k d t imm c s
  | .vaddi k d a imm c => Sys2Proof.Machine.execVaddi k d a imm c s
  | .vshiL k d a n c => Sys2Proof.Machine.execVshiL k d a n c s
  | .vshiR k d a n c => Sys2Proof.Machine.execVshiR k d a n c s
  | .vshiRa k d a n c => Sys2Proof.Machine.execVshiRa k d a n c s
  | .vcmp k d a b o c => Sys2Proof.Machine.execVcmp k d a b o c s
  | .vcmp64 k d a b o c => Sys2Proof.Machine.execVcmp64 k d a b o c s
  | .vsel sc d a b c => Sys2Proof.Machine.execVsel sc d a b c s
  | .vbcast k d a t c => Sys2Proof.Machine.execVbcast k d a t c s
  | .vlane k d c => Sys2Proof.Machine.execVlane k d c s
  | .vsget d a b c => Sys2Proof.Machine.execVsget d a b c s
  | .vsput k d a b c => Sys2Proof.Machine.execVsput k d a b c s
  | .vzipI8 k d a b c => Sys2Proof.Machine.execVzipI8 k d a b c s
  | .vzipI16 k d a b c => Sys2Proof.Machine.execVzipI16 k d a b c s
  | .vzipI32 k d a b c => Sys2Proof.Machine.execVzipI32 k d a b c s
  | .vunzipI8 k d a b c => Sys2Proof.Machine.execVunzipI8 k d a b c s
  | .vunzipI16 k d a b c => Sys2Proof.Machine.execVunzipI16 k d a b c s
  | .vunzipI32 k d a b c => Sys2Proof.Machine.execVunzipI32 k d a b c s
  | .vwiden k d a w c => Sys2Proof.Machine.execVwiden k d a w c s
  | .vnarrow k d a w c => Sys2Proof.Machine.execVnarrow k d a w c s
  | .vclz k d a t c => Sys2Proof.Machine.execVclz k d a t c s
  | .vpopc k d a t c => Sys2Proof.Machine.execVpopc k d a t c s
  | .vbrev k d a t c => Sys2Proof.Machine.execVbrev k d a t c s
  | .vrnenc k d a c => Sys2Proof.Machine.execVrnenc k d a c s
  | .vrndec k d a c => Sys2Proof.Machine.execVrndec k d a c s
  | .vfadd k d a b t c => Sys2Proof.Machine.execVfadd k d a b t c s
  | .vfsub k d a b t c => Sys2Proof.Machine.execVfsub k d a b t c s
  | .vfmul k d a b t c => Sys2Proof.Machine.execVfmul k d a b t c s
  | .vfma k d a b t c => Sys2Proof.Machine.execVfma k d a b t c s
  | .vfmin k d a b t c => Sys2Proof.Machine.execVfmin k d a b t c s
  | .vfmax k d a b t c => Sys2Proof.Machine.execVfmax k d a b t c s
  | .vfminnum k d a b t c => Sys2Proof.Machine.execVfminnum k d a b t c s
  | .vfmaxnum k d a b t c => Sys2Proof.Machine.execVfmaxnum k d a b t c s
  | .vfcmp k d a b o c => Sys2Proof.Machine.execVfcmp k d a b o c s
  | .vfcmpt k d a b t o c => Sys2Proof.Machine.execVfcmpt k d a b t o c s
  | .vfcvt k d a w c => Sys2Proof.Machine.execVfcvt k d a w c s
  | .vsfu k d a f c => Sys2Proof.Machine.execVsfu k d a f c s
  | .vfabs k d a t c => Sys2Proof.Machine.execVfabs k d a t c s
  | .vfneg k d a t c => Sys2Proof.Machine.execVfneg k d a t c s
  | .vfround k d a t c => Sys2Proof.Machine.execVfround k d a t c s
  | .kand k d a b c => Sys2Proof.Machine.execKand k d a b c s
  | .kor k d a b c => Sys2Proof.Machine.execKor k d a b c s
  | .kxor k d a b c => Sys2Proof.Machine.execKxor k d a b c s
  | .kandn k d a b c => Sys2Proof.Machine.execKandn k d a b c s
  | .kmovMask k d a c => Sys2Proof.Machine.execKmovMask k d a c s
  | .kmovFromScalar k d a c => Sys2Proof.Machine.execKmovFromScalar k d a c s
  | .kmovToScalar d a c => Sys2Proof.Machine.execKmovToScalar d a c s
  | .kpop d a c => Sys2Proof.Machine.execKpop d a c s
  | .vshfl k d a b m z c => Sys2Proof.Machine.execVshfl k d a b m z c s
  | .vshfli k d a imm c => Sys2Proof.Machine.execVshfli k d a imm c s
  | .voteAny k d a c => Sys2Proof.Machine.execVoteAny k d a c s
  | .voteAll k d a c => Sys2Proof.Machine.execVoteAll k d a c s
  | .voteEq k d a c => Sys2Proof.Machine.execVoteEq k d a c s
  | .voteBallot k d a c => Sys2Proof.Machine.execVoteBallot k d a c s
  | .xred k d a o t c => Sys2Proof.Machine.execXred k d a o t c s
  | .xscan k d a e o t c => Sys2Proof.Machine.execXscan k d a e o t c s
  | .xmaxi k d a t c => Sys2Proof.Machine.execXmaxi k d a t c s
  | .gwidthW d c => Sys2Proof.Machine.execGwidthW d c s
  | .gwidthSm d c => Sys2Proof.Machine.execGwidthSm d c s
  | .gwidthAm d c => Sys2Proof.Machine.execGwidthAm d c s
  | .gwidthNa d c => Sys2Proof.Machine.execGwidthNa d c s
  | .cmrgPut a x c => Sys2Proof.Machine.execCmrgPut a x c s
  | .cmrgGet d a x c => Sys2Proof.Machine.execCmrgGet d a x c s
  | .cmrgReset a b c => Sys2Proof.Machine.execCmrgReset a b c s
  | .mma p q a v w c => Sys2Proof.Machine.execMma p q a v w c s
  | .mmaZ p q a v w c => Sys2Proof.Machine.execMmaZ p q a v w c s
  | .mmas p q a v w c => Sys2Proof.Machine.execMmas p q a v w c s
  | .mmasZ p q a v w c => Sys2Proof.Machine.execMmasZ p q a v w c s
  | .accZero a r c => Sys2Proof.Machine.execAccZero a r c s
  | .accRel a c => Sys2Proof.Machine.execAccRel a c s
  | .accMov a sc c => Sys2Proof.Machine.execAccMov a sc c s
  | .accoutI32 a d c => Sys2Proof.Machine.execAccoutI32 a d c s
  | .accoutF32 p q a d w sc c => Sys2Proof.Machine.execAccoutF32 p q a d w sc c s
  | .accin a sc f c => Sys2Proof.Machine.execAccin a sc f c s
  | .accst a b g c => Sys2Proof.Machine.execAccst a b g c s
  | .accld a b g c => Sys2Proof.Machine.execAccld a b g c s
  | .ldl k t b o p l n c => Sys2Proof.Machine.execLdl k t b o p l n c s
  | .stl k t b o p l n c => Sys2Proof.Machine.execStl k t b o p l n c s
  | .ldfrag k t b p r h c => Sys2Proof.Machine.execLdfrag k t b p r h c s
  | .stfrag k t b v sc c => Sys2Proof.Machine.execStfrag k t b v sc c s
  | .catom o t b v z sc => Sys2Proof.Machine.execCatom o t b v z sc s
  | .catomExch t b v z sc => Sys2Proof.Machine.execCatomExch t b v z sc s
  | .catomCas t b v z sc => Sys2Proof.Machine.execCatomCas t b v z sc s
  | .gld k t b o f c => Sys2Proof.Machine.execGld k t b o f c s
  | .gldF6p k t b o c => Sys2Proof.Machine.execGldF6p k t b o c s
  | .gst k t b o z c => Sys2Proof.Machine.execGst k t b o z c s
  | .gstF6p k t b o c => Sys2Proof.Machine.execGstF6p k t b o c s
  | .gstFs k t b o sc c => Sys2Proof.Machine.execGstFs k t b o sc c s
  | .gatom o t b v n z sc => Sys2Proof.Machine.execGatom o t b v n z sc s
  | .gexch t b v z sc => Sys2Proof.Machine.execGexch t b v z sc s
  | .gcas t b v z sc => Sys2Proof.Machine.execGcas t b v z sc s
  | .gredF f q u t b v o p => Sys2Proof.Machine.execGredF f q u t b v o p s
  | .gredRn t b v x p => Sys2Proof.Machine.execGredRn t b v x p s
  | .gpf k b o g c => Sys2Proof.Machine.execGpf k b o g c s
  | .tcopy d a c => Sys2Proof.Machine.execTcopy d a c s
  | .tgath d a b x c => Sys2Proof.Machine.execTgath d a b x c s
  | .trag d a c => Sys2Proof.Machine.execTrag d a c s
  | .tstat d a c => Sys2Proof.Machine.execTstat d a c s
  | .tstatGal d a b c => Sys2Proof.Machine.execTstatGal d a b c s
  | .enew d a c => Sys2Proof.Machine.execEnew d a c s
  | .efree a c => Sys2Proof.Machine.execEfree a c s
  | .eins u v sc a b x c => Sys2Proof.Machine.execEins u v sc a b x c s
  | .eapp u v sc a b x c => Sys2Proof.Machine.execEapp u v sc a b x c s
  | .edel sc a b c => Sys2Proof.Machine.execEdel sc a b c s
  | .esplit d a b c => Sys2Proof.Machine.execEsplit d a b c s
  | .ecat d a b c => Sys2Proof.Machine.execEcat d a b c s
  | .emark sc a b c => Sys2Proof.Machine.execEmark sc a b c s
  | .eanch d a b c => Sys2Proof.Machine.execEanch d a b c s
  | .erank d a c => Sys2Proof.Machine.execErank d a c s
  | .erankH d a c => Sys2Proof.Machine.execErankH d a c s
  | .edrop a c => Sys2Proof.Machine.execEdrop a c s
  | .elen d a c => Sys2Proof.Machine.execElen d a c s
  | .einfo d a b c => Sys2Proof.Machine.execEinfo d a b c s
  | .eld k t b o x c => Sys2Proof.Machine.execEld k t b o x c s
  | .est k t b o c => Sys2Proof.Machine.execEst k t b o c s
  | .fenceAcq sc c => Sys2Proof.Machine.execFenceAcq sc c s
  | .fenceRel sc c => Sys2Proof.Machine.execFenceRel sc c s
  | .fenceAcqrel sc c => Sys2Proof.Machine.execFenceAcqrel sc c s
  | .sbind d sc c => Sys2Proof.Machine.execSbind d sc c s
  | .sbindClr sc c => Sys2Proof.Machine.execSbindClr sc c s
  | .swr d a b c => Sys2Proof.Machine.execSwr d a b c s
  | .srd d a b c => Sys2Proof.Machine.execSrd d a b c s
  | .icinv sc c => Sys2Proof.Machine.execIcinv sc c s
  | .hintImm p => Sys2Proof.Machine.execHintImm p s
  | .hintVc f v r g n => Sys2Proof.Machine.execHintVc f v r g n s
  | .hintOrd o => Sys2Proof.Machine.execHintOrd o s
  | .hintSched sc => Sys2Proof.Machine.execHintSched sc s
  | .hintOff o => Sys2Proof.Machine.execHintOff o s
  | .copyFrameTake team gang frag => Sys2Proof.Machine.execCopyFrameTake team gang frag s
  | .copyElementMove core id => Sys2Proof.Machine.execCopyElementMove core id s
  | .frameReturn core id frame => Sys2Proof.Machine.execFrameReturn core id frame s
  | .copyCompletionRelease core id => Sys2Proof.Machine.execCopyCompletionRelease core id s
  | .tokenWrite core id => Sys2Proof.Machine.execTokenWrite core id s
  | .copyStop core id code => Sys2Proof.Machine.execCopyStop core id code s
  | .pageWalk core vf va kind priv => Sys2Proof.Machine.execPageWalk core vf va kind priv s
  | .faultQueuePost vf => Sys2Proof.Machine.execFaultQueuePost vf s
  | .instructionReplay team gang => Sys2Proof.Machine.execInstructionReplay team gang s
  | .sectorFill core line sector => Sys2Proof.Machine.execSectorFill core line sector s
  | .lineEviction level owner line => Sys2Proof.Machine.execLineEviction level owner line s
  | .releaseCompletion team gang => Sys2Proof.Machine.execReleaseCompletion team gang s
  | .classTStoreAck team gang => Sys2Proof.Machine.execClassTStoreAck team gang s
  | .homeSliceAtomic pa size op v cmp => Sys2Proof.Machine.execHomeSliceAtomic pa size op v cmp s
  | .accUnitsReturn core quad => Sys2Proof.Machine.execAccUnitsReturn core quad s
  | .surgeWindow die => Sys2Proof.Machine.execSurgeWindow die s
  | .surgeRamp team gang frag => Sys2Proof.Machine.execSurgeRamp team gang frag s
  | .rlbMissWalk core vf handle rank => Sys2Proof.Machine.execRlbMissWalk core vf handle rank s
  | .rtuOperation die => Sys2Proof.Machine.execRtuOperation die s
  | .compactorMove team gang base => Sys2Proof.Machine.execCompactorMove team gang base s
  | .rcgEpochEnd die => Sys2Proof.Machine.execRcgEpochEnd die s
  | .watchdog team gang frag => Sys2Proof.Machine.execWatchdog team gang frag s
  | .deadlineExpiry team => Sys2Proof.Machine.execDeadlineExpiry team s
  | .handlerEntry team gang frag cls fbyte => Sys2Proof.Machine.execHandlerEntry team gang frag cls fbyte s
  | .teamEndForFault team cls => Sys2Proof.Machine.execTeamEndForFault team cls s
  | .teamDispatch grid core => Sys2Proof.Machine.execTeamDispatch grid core s
  | .taskDispatch die core => Sys2Proof.Machine.execTaskDispatch die core s
  | .teamRetirement team => Sys2Proof.Machine.execTeamRetirement team s
  | .teamDiscard team code => Sys2Proof.Machine.execTeamDiscard team code s
  | .gridEnd grid => Sys2Proof.Machine.execGridEnd grid s
  | .preempt team => Sys2Proof.Machine.execPreempt team s
  | .teamRestore team core => Sys2Proof.Machine.execTeamRestore team core s
  | .teamMigrate die slot dest => Sys2Proof.Machine.execTeamMigrate die slot dest s
  | .sliceEnd vf core => Sys2Proof.Machine.execSliceEnd vf core s
  | .doorbellTailWrite vf tail => Sys2Proof.Machine.execDoorbellTailWrite vf tail s
  | .respRetry vf tag => Sys2Proof.Machine.execRespRetry vf tag s
  | .respFail vf tag => Sys2Proof.Machine.execRespFail vf tag s
  | .fqheadWrite vf head => Sys2Proof.Machine.execFqheadWrite vf head s
  | .tlbictlGo die value => Sys2Proof.Machine.execTlbictlGo die value s
  | .tlbiDone die => Sys2Proof.Machine.execTlbiDone die s
  | .l2partWrite die value => Sys2Proof.Machine.execL2partWrite die value s
  | .qownWrite die core value => Sys2Proof.Machine.execQownWrite die core value s
  | .configBlockWrite vf off size value => Sys2Proof.Machine.execConfigBlockWrite vf off size value s
  | .migctlFlush vf => Sys2Proof.Machine.execMigctlFlush vf s
  | .fsctlClr => Sys2Proof.Machine.execFsctlClr s
  | .registerWrite agent pa size value => Sys2Proof.Machine.execRegisterWrite agent pa size value s
  | .hostLoad vf va size => Sys2Proof.Machine.execHostLoad vf va size s
  | .hostStore vf va size value => Sys2Proof.Machine.execHostStore vf va size value s
  | .hostAtomic vf va size op v cmp => Sys2Proof.Machine.execHostAtomic vf va size op v cmp s
  | .remoteAccess pkg pa size kind v cmp => Sys2Proof.Machine.execRemoteAccess pkg pa size kind v cmp s
  | .railDown rail => Sys2Proof.Machine.execRailDown rail s
  | .packageDeclaredFailed pkg => Sys2Proof.Machine.execPackageDeclaredFailed pkg s
  | .gpop die => Sys2Proof.Machine.execGpop die s
  | .belvedereSpawn die addr => Sys2Proof.Machine.execBelvedereSpawn die addr s
  | .dset die value => Sys2Proof.Machine.execDset die value s
  | .ddec die value => Sys2Proof.Machine.execDdec die value s
  | .belvedereAccess die addr size kind v => Sys2Proof.Machine.execBelvedereAccess die addr size kind v s
  | .gateOpenEntry die => Sys2Proof.Machine.execGateOpenEntry die s
  | .gateRouteEntry die => Sys2Proof.Machine.execGateRouteEntry die s
  | .gateFlushEntry die => Sys2Proof.Machine.execGateFlushEntry die s
  | .cellReceive die cell => Sys2Proof.Machine.execCellReceive die cell s
  | .rowDelivery die flow => Sys2Proof.Machine.execRowDelivery die flow s
  | .cellResend die dest flow seq cidx => Sys2Proof.Machine.execCellResend die dest flow seq cidx s
  | .powerOn images => Sys2Proof.Machine.execPowerOn images s
  | .packageReset => Sys2Proof.Machine.execPackageReset s
  | .spdmGetMeasurements index => Sys2Proof.Machine.execSpdmGetMeasurements index s
  | .kioskResetRequest => Sys2Proof.Machine.execKioskResetRequest s
  | .kioskPowerCap watts => Sys2Proof.Machine.execKioskPowerCap watts s
  | .kioskReport => Sys2Proof.Machine.execKioskReport s
  | .powerLoss => Sys2Proof.Machine.execPowerLoss s
  | .uncorrectableSoftError die pa => Sys2Proof.Machine.execUncorrectableSoftError die pa s
  | .fatalInternalError die detail => Sys2Proof.Machine.execFatalInternalError die detail s
  | .cellAcknowledged die dest flow seq cidx => Sys2Proof.Machine.execCellAcknowledged die dest flow seq cidx s
  | .invalidationReachesCore id core => Sys2Proof.Machine.execInvalidationReachesCore id core s

end Sys2Proof.Machine
end

