-- ==== Sys2Proof/Machine/Step.lean ====
section
/-! DEFINITION. One step of the machine: the move that comes next is made, and then time passes. -/

namespace Sys2Proof.Machine

/-- A fragment issues its next word. -/
def issue (r : Ref) (s : State) : Out :=
  match s.fetchUnit r with
  | .done t => .next t
  | .run i t => exec i t

/-- The first input happens, or is passed over. An input whose condition the state does not meet waits until it does. -/
def takeInput (s : State) : Out :=
  match s.inputs with
  | [] => .next s
  | i :: is =>
    if s.passesOver i then .next { s with inputs := is }
    else match exec i { s with inputs := is } with
      | .fault _ => .next s
      | o => o

/-- Time passes after a move. -/
def andAdvance : Out → Out
  | .next s => .next s.advance
  | o => o

/-- A move is made. -/
def makeMove (s : State) : Option Move → Out
  | some (.issue r) => issue r s
  | some (.agent a) => a.run s
  | some .input => takeInput s
  | none => .next s

/-- One step: the fragment in the middle of a unit goes on, else one of the possible moves is made. -/
def step (s : State) : Host.Outcome State Fault Refusal :=
  andAdvance (match s.turn with
    | some r => issue r s
    | none => makeMove s s.nextMove)

/-- The state in which the next step fetches the word `w` (with zero bits above `nbits`). -/
def State.withFetchWord (s : State) (nbits w : Nat) : State := s.placeCode (toBytes (w % 2 ^ nbits) 4)

end Sys2Proof.Machine
end

