-- ==== Sys2Proof/Safety.lean ====
section
/-! DEFINITION. The terms in which statements are made: when a unit runs, which registers it writes, what it leaves alone, and
the canonical form of memory. -/

namespace Sys2Proof.Machine

/-- The canonical form of the global memory. -/
def State.memOk (s : State) : Bool := Memory.wf s.mem

/-- The unit `i` of the current fragment runs: the fragment can issue (R277, R297), the checks that R37 makes of every unit pass,
and the watchdog budget has room for it (R295). -/
structure Runs (i : Instr) (s : State) (c : Ctx) : Prop where
  ctx : s.ctx? = some c
  gate : gate i c = .go
  budget : c.gang.mayCount = true

/-- The registers that a unit writes with their new values. A register, lane or bit to which it gives no value keeps its own. -/
structure Writes where
  /-- Scalar registers. -/
  s : Nat → Option Word := fun _ => none
  /-- Vector registers by lane. -/
  v : Nat → Nat → Option Word := fun _ _ => none
  /-- Mask registers by lane. -/
  k : Nat → Nat → Option Bool := fun _ _ => none
  /-- Sticky flags that it sets (R157). -/
  flags : Nat := 0
  /-- Whether it is an `sget` of flags, which returns the flags set before it (R158). -/
  flagsRead : Bool := false
  /-- What it changes of the gang besides these. -/
  more : Gang → Gang := id

/-- One scalar register. -/
def Writes.scalar (d : BitVec 5) (x : Word) : Writes := { s := fun n => if n = d.toNat then some x else none }

/-- One vector register in the listed lanes. -/
def vecWrite (d : BitVec 6) (ls : List Nat) (f : Nat → Word) (n l : Nat) : Option Word :=
  if n = d.toNat ∧ l ∈ ls then some (f l) else none

/-- One vector register in the listed lanes. -/
def Writes.vector (d : BitVec 6) (ls : List Nat) (f : Nat → Word) : Writes := { v := vecWrite d ls f }

/-- One mask register in the listed lanes. -/
def maskWrite (d : BitVec 3) (ls : List Nat) (f : Nat → Bool) (n l : Nat) : Option Bool :=
  if n = d.toNat ∧ l ∈ ls then some (f l) else none

/-- One mask register in the listed lanes. -/
def Writes.mask (d : BitVec 3) (ls : List Nat) (f : Nat → Bool) : Writes := { k := maskWrite d ls f }

/-- A gang without its split table. -/
def Gang.noTable (g : Gang) : Gang := { g with entries := [] }

/-- A gang without its scalar, vector and mask registers, flags, split table and watchdog count. -/
def Gang.rest (g : Gang) : Gang := { g with sregs := [], vregs := [], kregs := [], flags := 0, unread := 0, entries := [], wcount := 0 }

/-- The registers of a gang `h` are those of `g` after the writes: s0 reads as zero whatever is written (R133), k0 as every lane
of the width (R134), and a vector register 62 or 63 does not exist (R21). Everything else of the gang but its split table is
what it was, and its unit is counted (R295). -/
structure Writes.Done (w : Writes) (width : Nat) (g h : Gang) : Prop where
  scalars : ∀ n, h.s n = if n = 0 then 0 else (w.s n).getD (g.s n)
  vectors : ∀ n l, n < 62 → l < 64 → h.v n l = (w.v n l).getD (g.v n l)
  masks : ∀ n l, l < width → l < 64 → bit (h.k width n) l = if n = 0 then true else (w.k n l).getD (bit (g.k width n) l)
  flags : h.flags = g.flags ||| BitVec.ofNat 64 w.flags
  unread : h.unread = if w.flagsRead then 0 else g.unread ||| BitVec.ofNat 64 w.flags
  count : h.wcount = g.count.wcount
  rest : h.rest = w.more g.rest

/-- A team without its gangs. -/
def Team.shell (t : Team) : Team := { t with gangs := [] }

/-- What a unit may change outside its gang: each function blanks what it may change, and what is left must be what it was. A
quadrant's loop buffer and the turn given away, which no program can read, may always change. -/
structure Loose where
  state : State → State := id
  core : Core → Core := id
  quad : Quad → Quad := id
  die : Die → Die := id
  vf : Vf → Vf := id
  team : Team → Team := id

/-- A state but for what stands in its maps of dies, cores, virtual functions and teams. -/
def State.bare (s : State) : State := { s with dies := [], cores := [], vfs := [], teams := [], turn := none }

/-- Nothing outside the issuing gang has changed but what is loose: no byte of memory, no other gang's register, no table, queue
or device register. -/
structure Ctx.Kept (c : Ctx) (s t : State) (l : Loose) : Prop where
  rest : l.state t.bare = l.state s.bare
  cores : ∀ n, l.core { t.core n with quads := [] } = l.core { s.core n with quads := [] }
  quads : ∀ n q, l.quad { (t.core n).quad q with loop := none, loopWords := [], yielded := [] } =
    l.quad { (s.core n).quad q with loop := none, loopWords := [], yielded := [] }
  dies : ∀ d, l.die (t.die d) = l.die (s.die d)
  vfs : ∀ v, l.vf (t.vf v) = l.vf (s.vf v)
  teams : ∀ m, m ≠ c.ref.team → t.team? m = s.team? m
  gangs : ∀ g, g ≠ c.ref.gang → t.gang? c.ref.team g = s.gang? c.ref.team g
  shell : (t.team? c.ref.team).map (fun x => l.team x.shell) = some (l.team c.team.shell)

/-- The record that an entry of the split table stands under. -/
def Entry.under : Entry → Option Nat
  | .frag f => f.join
  | .deferred _ _ _ j _ => j
  | .join _ _ _ _ p _ => p

/-- The address at which an entry of the split table has its fragment go on, or join. -/
def Entry.address : Entry → Word
  | .frag f => f.pc
  | .deferred _ _ pc _ _ => pc
  | .join a _ _ _ _ _ => a

/-- Nothing is due in a split table: no deferred entry is to be released and no record is complete (R281, R283). -/
def Gang.Settled (g : Gang) : Prop := g.settleStep = none

/-- A split table as R277 keeps it: 16 numbered entries, and every record that an entry stands under is in the table. -/
structure Gang.TableOk (g : Gang) : Prop where
  rising : SMap.wf g.entries = true
  sixteen : ∀ n e, SMap.get? g.entries n = some e → n < 16
  records : ∀ n e j, SMap.get? g.entries n = some e → e.under = some j →
    ∃ a m ar ex p b, SMap.get? g.entries j = some (.join a m ar ex p b)

/-- The fragment stands under no join and the keys of its gang's split table rise (an entry has one number), so that nothing but
its own unit moves it. -/
def Ctx.Free (c : Ctx) : Prop := c.frag.join = none ∧ SMap.wf c.gang.entries = true

/-- The fragment goes on at an address: it is ready there, with no hint word taken. -/
def Ctx.GoesOn (c : Ctx) (h : Gang) (pc : Word) : Prop :=
  ∃ f, h.frag? c.ref.frag = some f ∧ f.pc = pc ∧ f.wait = none ∧ f.hints = [] ∧ f.join = c.frag.join

/-- The address of the word after the unit (R287). -/
def Ctx.after (c : Ctx) : Word := c.frag.pc + BitVec.ofNat 64 (4 * (c.hints.length + 1))

/-- The state with the unit counted against the watchdog (R295), on which its meaning acts. -/
def Ctx.counted (c : Ctx) (s : State) : State := c.modG s Gang.count

/-- A next state follows in which the gang's registers hold what `w` says, nothing outside the gang has changed but what is
loose, `more` holds of the state and the gang, and the fragment goes on at `pc` where no join takes part. -/
def CompletesAt (i : Instr) (s : State) (c : Ctx) (pc : Word) (w : Writes) (l : Loose) (more : State → Gang → Prop) : Prop :=
  ∃ t h, exec i s = .next t ∧ t.gang? c.ref.team c.ref.gang = some h ∧ w.Done c.w c.gang h ∧ c.Kept s t l ∧ t.turn = none ∧
    (c.Free → c.GoesOn h pc) ∧ more t h

/-- The unit completes, writes registers alone, and the fragment goes on with the word after it. -/
def Completes (i : Instr) (s : State) (c : Ctx) (w : Writes) : Prop :=
  CompletesAt i s c c.after w {} fun _ _ => True

/-- The unit completes with one scalar register written. -/
def GivesScalar (i : Instr) (s : State) (c : Ctx) (d : BitVec 5) (x : Word) : Prop :=
  Runs i s c → Completes i s c (.scalar d x)

/-- The unit completes with one vector register written in the lanes that take part. -/
def GivesVector (i : Instr) (s : State) (c : Ctx) (k : BitVec 3) (d : BitVec 6) (f : Nat → Word) : Prop :=
  Runs i s c → Completes i s c (.vector d (c.lanes k) f)

/-- The unit completes with one mask register written in the lanes that take part (R176). -/
def GivesMask (i : Instr) (s : State) (c : Ctx) (k d : BitVec 3) (f : Nat → Bool) : Prop :=
  Runs i s c → Completes i s c (.mask d (c.lanes k) f)

/-! ### Taking an exception -/

/-- A unit faults: it has the fault taken, and has had its turn in its quadrant (R34, R294, R343). -/
def Ctx.faulted (c : Ctx) (i : Instr) (fi : FaultInfo) (s : State) : State := c.takeTurn (c.fault i fi s)

/-- What a device write of a record may change outside the gang (R43, R46, R53, R269, R345), and the event record, for written bytes of
an absent package that an eviction drops (R376). -/
def recordLoose : Loose where
  state x := { x with mem := [], flow := .reset }
  core x := { x with l1 := [], fifo := [] }
  die x := { x with remote := [], l2 := [], cavern := [], rcgCount := [] }
  team x := { x with seq := 0, stopped := none, staging := { x.staging with addrs := [], bytes := [], writes := [] } }

/-- Record `n` of the team's fault area can be written (R345): the team has one, in its 4 KiB block, and the page of the record
translates for a privileged store. -/
structure Ctx.CanRecord (c : Ctx) (s : State) (n : Nat) (x : Xlat) : Prop where
  gang : c.ref.gang < 32
  block : c.team.faultBlock ≠ none
  aligned : c.team.fbase.toNat % 4096 = 0
  room : c.team.fbase.toNat + 4096 ≤ 2 ^ 64
  pages : s.devPages c.vf kStore true (c.team.recordAddr n).toNat 64 = .ok [x]

/-- Record `n` of the gang holds the bytes, and no other byte of memory has changed but the accessed and dirty bits of the record's
page (R60); no byte that the team has staged changes but those at the record, which give way to it. -/
def Ctx.Recorded (c : Ctx) (s t : State) (n : Nat) (x : Xlat) (bs : List Byte) : Prop :=
  let a := x.pa (c.team.recordAddr n).toNat
  (∀ i, i < 64 → ZMap.get t.mem (a + i) = bs.getD i 0) ∧
  (∀ b, b < a ∨ a + 64 ≤ b → b ∉ x.ptes → ZMap.get t.mem b = ZMap.get s.mem b) ∧
  ∀ y, t.team? c.ref.team = some y → ∀ b,
    let r := (c.team.recordAddr n).toNat
    if r ≤ b ∧ b < r + 64 then b ∉ y.staging.addrs else
      (b ∈ y.staging.addrs ↔ b ∈ c.team.staging.addrs) ∧ ZMap.get y.staging.bytes b = ZMap.get c.team.staging.bytes b

/-- The gang has entered its context's handler for a fault of the fragment (R348): s28 holds the address of record 2g, s29 to s31 and
fpm are zero, their old values are saved, the fragment waits with its chain and latches, and entry 12 holds the handler's
fragment on the same lanes. Nothing else of the gang has changed. -/
structure Ctx.Entered (c : Ctx) (s : State) (h : Gang) : Prop where
  s28 : h.s 28 = c.team.recordAddr (2 * c.ref.gang)
  cleared : h.s 29 = 0 ∧ h.s 30 = 0 ∧ h.s 31 = 0 ∧ h.fpm = 0
  shared : ∀ n, n < 28 → h.s n = c.gang.s n
  kept : h.vregs = c.gang.vregs ∧ h.kregs = c.gang.kregs ∧ h.accs = c.gang.accs ∧ h.flags = c.gang.flags ∧
    h.unread = c.gang.unread ∧ h.bindings = c.gang.bindings ∧ h.lane = c.gang.lane
  saved : ∃ r, h.handler = some r ∧ r.frag = c.ref.frag ∧ r.fpm = c.gang.fpm ∧ r.iaddr = c.frag.pc ∧
    r.record = c.team.recordAddr (2 * c.ref.gang) ∧
    ∀ n, 28 ≤ n → n < 32 → ZMap.get r.saved n = c.gang.s n
  waits : h.frag? c.ref.frag = some { c.frag with wait := some .trapped, hints := [] }
  runs : h.frag? 12 = some (.start (s.vf c.vf).hentry c.active none true)
  others : ∀ m, m ≠ 12 → m ≠ c.ref.frag → SMap.get? h.entries m = SMap.get? c.gang.entries m

/-- A state follows in which the gang has entered its handler, with the fault in record 2g. -/
def Ctx.Enters (c : Ctx) (s t : State) (x : Xlat) (fi : FaultInfo) (word : IWord) (resume : Word) (restart : Bool) : Prop :=
  ∃ h, t.gang? c.ref.team c.ref.gang = some h ∧ c.Entered s h ∧ c.Kept s t recordLoose ∧ t.turn = none ∧
    c.Recorded s t (2 * c.ref.gang) x
      (recordBytes fi word c.frag.pc c.active (c.team.seq + 1) c.ref.gang false restart false resume)

/-! ### Memory -/

/-- What a global access may change outside its gang: memory, the L1 and its FIFO, the remote partitions, which lines the L2 slices
and Caverns hold, the counts of their groups, the TLBs (R43 to R61), and the event record, for an access or a written line of a package
that is absent (R376). -/
def memLoose : Loose where
  state x := { x with mem := [], flow := .reset }
  core x := { x with l1 := [], fifo := [], tlb := [] }
  die x := { x with l2 := [], cavern := [], remote := [], tlb := [], rcgCount := [] }

/-- A byte that a core's L1 or some die's remote partition holds as written (R43, R44): it may reach memory at any time. -/
def State.written (s : State) (core b : Nat) : Prop :=
  ∃ l, (l ∈ (s.core core).l1 ∨ ∃ d, l ∈ (s.die d).remote) ∧ l.num = b / 256 ∧ bit l.dirty (b % 256) = true

/-- A byte that some die's remote partition holds as written (R43): it is in memory once a unit of a die has released at entry 7. -/
def State.heldWritten (s : State) (b : Nat) : Prop :=
  ∃ d, ∃ l ∈ (s.die d).remote, l.num = b / 256 ∧ bit l.dirty (b % 256) = true

/-- Every byte of memory is what it was but for the bytes stored, the accessed and dirty bits of the pages (R60), and bytes that were
written before and come down. -/
def Ctx.MemKept (c : Ctx) (s t : State) (xs : List Xlat) (stored : Nat → Prop) : Prop :=
  ∀ b, ¬ stored b → (∀ x ∈ xs, b ∉ x.ptes) → ¬ s.written c.core b → ZMap.get t.mem b = ZMap.get s.mem b

/-- Every byte of memory is what it was but for accessed and dirty bits (R60) and bytes that were written before and come down. -/
def Ctx.MemMarked (c : Ctx) (s t : State) : Prop :=
  ∀ b, ¬ s.written c.core b → ZMap.get t.mem b = ZMap.get s.mem b ∨ ZMap.get t.mem b = ZMap.get s.mem b ||| 0x20 ∨
    ZMap.get t.mem b = ZMap.get s.mem b ||| 0x60

/-- The address of a lane (R118, R124, R234): the base, the lane's offset register (or the lane number times the size), and
the offset of a hint. -/
def Ctx.laneAddress (c : Ctx) (b : BitVec 5) (o : Option (BitVec 6)) (sz l : Nat) : Nat :=
  (c.s b + (match o with | some v => c.v v l | none => BitVec.ofNat 64 (sz * l)) + BitVec.ofInt 64 (hintOffset c.hints)).toNat

/-- Some of n bytes at an address of a local space lies outside its valid range (R118, R121): past the lane slice, the team's whole Chamber
frames, the Gallery share of a core of the team's group, or the context's Grotto window; or a reserved address bit is set; or the team
has no group. -/
def Ctx.outside (c : Ctx) (s : State) (sp a n : Nat) : Prop :=
  match sp with
  | 0 => c.team.kernel.lane < a + n
  | 1 => (c.team.kernel.chamber + 2047) / 2048 * 2048 < a + n
  | 2 => (∀ l, c.team.group = some l → c.core / 8 * 8 + a / 2 ^ 32 % 8 ∉ l) ∨ 2 ^ 35 ≤ a ∨ a / 2 ^ 19 % 2 ^ 13 ≠ 0 ∨
      c.team.kernel.gallery < a % 2 ^ 19 + n
  | _ => 2 ^ 28 ≤ a ∨ ((s.vf c.vf).grotto (a / 2 ^ 26 % 4)).2 < a % 2 ^ 26 + n

/-- The owner state of the frame that holds an address, where it is not T (R103): in the Chamber and the Gallery. -/
def Ctx.ownerAt (c : Ctx) (s : State) (sp a : Nat) : Option Owner :=
  match sp with
  | 1 => SMap.get? c.team.frames (a / 2048)
  | 2 => SMap.get? (s.core (c.core / 8 * 8 + a / 2 ^ 32 % 8)).galFrames (a % 2 ^ 19 / 2048)
  | _ => none

/-- The lowest of some addresses for which a check fails. -/
def lowestBad (as : List Nat) (bad : Nat → Prop) (a : Nat) : Prop := a ∈ as ∧ bad a ∧ ∀ x ∈ as, bad x → a ≤ x

/-- A byte after stores in order: that of the last store to it, or the one before them. -/
def storedOver (ws : List (Nat × List Byte)) (old : Byte) (b : Nat) : Byte :=
  ws.foldl (fun x w => if w.1 ≤ b ∧ b < w.1 + w.2.length then w.2.getD (b - w.1) 0 else x) old

/-- The stores to a space of those listed by space, lane and address. -/
def inSpace (sp k : Nat) (ws : List (Nat × Nat × List Byte)) (keep : Nat → Bool) (place : Nat → Nat → Nat) :
    List (Nat × List Byte) :=
  if sp = k then (ws.filter fun w => keep w.2.1).map fun w => (place w.1 w.2.1, w.2.2) else []

/-- The four local spaces after stores to one of them (R118): each byte is the last one stored to it, and every other byte is what it
was. -/
structure Ctx.LocalStored (c : Ctx) (s t : State) (h : Gang) (sp : Nat) (ws : List (Nat × Nat × List Byte)) : Prop where
  lane : ∀ b, ZMap.get h.lane b =
    storedOver (inSpace sp 0 ws (fun _ => true) fun l a => 4096 * l + a) (ZMap.get c.gang.lane b) b
  chamber : ∀ x b, t.team? c.ref.team = some x →
    ZMap.get x.chamber b = storedOver (inSpace sp 1 ws (fun _ => true) fun _ a => a) (ZMap.get c.team.chamber b) b
  gallery : ∀ n b, ZMap.get (t.core n).gallery b =
    storedOver (inSpace sp 2 ws (fun a => c.core / 8 * 8 + a / 2 ^ 32 % 8 == n) fun _ a => a % 2 ^ 19) (ZMap.get (s.core n).gallery b) b
  grotto : ∀ d b, ZMap.get (t.die d).grotto b =
    storedOver (inSpace sp 3 ws (fun a => a / 2 ^ 26 % 4 == d) fun _ a => ((s.vf c.vf).grotto d).1 + a % 2 ^ 26)
      (ZMap.get (s.die d).grotto b) b

/-- What stores to the local spaces may change outside the gang. -/
def localLoose : Loose where
  core x := { x with gallery := [], galBase := [], galLog := [] }
  die x := { x with grotto := [] }
  team x := { x with chamber := [] }

/-- The number that n bytes hold at an address of a local space as a lane reads it, lowest address first (R3, R118). -/
def Ctx.localNum (c : Ctx) (s : State) (sp l a n : Nat) : Nat :=
  ((List.range n).map fun i => 256 ^ i * (match sp with
    | 0 => ZMap.get c.gang.lane (4096 * l + a + i)
    | 1 => ZMap.get c.team.chamber (a + i)
    | 2 => ZMap.get (s.core (c.core / 8 * 8 + a / 2 ^ 32 % 8)).gallery (a % 2 ^ 19 + i)
    | _ => ZMap.get (s.die (a / 2 ^ 26 % 4)).grotto (((s.vf c.vf).grotto (a / 2 ^ 26 % 4)).1 + a % 2 ^ 26 + i)).toNat).sum

/-! ### Elastic arrays -/

/-- The elements of an array in rank order, each its bytes, as they stand at their home slices (R67, R68). -/
def elements (s : State) (vf : Nat) (y : EArray) : List (List Byte) :=
  y.leaves.flatMap fun p => (List.range p.2).map fun i => Memory.bytes s.mem (s.slabAddr vf y.die p.1 + y.esize * i) y.esize

/-- An array as R68 keeps it: an element size of R87, its leaves in slabs of their own in the die's pool, which are in use and hold their
elements; no cache holds a written byte of the pool, and the bitmap of R381 lies outside it. -/
structure ArraySound (s : State) (vf core : Nat) (y : EArray) : Prop where
  size : y.size ≤ 4
  pool : ((s.vf vf).slabPool y.die).2 ≤ 2 ^ 25
  own : (y.leaves.map Prod.fst).Nodup
  leaves : ∀ p ∈ y.leaves, 0 < p.2 ∧ p.2 * y.esize ≤ 4096 ∧ p.1 < ((s.vf vf).slabPool y.die).2 ∧ p.1 ∈ (s.vf vf).usedSlabs y.die
  clean : ∀ k b, k < ((s.vf vf).slabPool y.die).2 → s.slabAddr vf y.die k ≤ b → b < s.slabAddr vf y.die k + 4096 →
    ¬ s.written core b ∧ ∀ n, (s.vf vf).cfg 288 8 ≠ 0 → b ≠ (s.vf vf).cfg 288 8 + (s.vf vf).slabBit y.die n / 8

/-- What an array operation may change outside its gang: besides memory and the caches, the tables of arrays, anchors and slabs, and the
rank lookaside buffers. -/
def arrayLoose : Loose := { memLoose with
  core := fun x => { x with l1 := [], fifo := [], tlb := [], rlb := [] }
  vf := fun x => { x with arrays := [], arrGen := [], anchors := [], anchorGen := [], slabs := [] } }

/-- The slabs of a context on a die (R68): those of its pool, and those that are in use or hold a leaf of an array. -/
def State.hasSlab (s : State) (vf die n : Nat) : Prop :=
  n < ((s.vf vf).slabPool die).2 ∨ n ∈ (s.vf vf).usedSlabs die ∨
    ∃ k y, SMap.get? (s.vf vf).arrays k = some y ∧ y.die = die ∧ n ∈ y.leaves.map Prod.fst

/-- Only the listed arrays and anchors of the context change, and, where its arrays' leaves fit their slabs, no byte of memory but in its
slabs on the die and in the bitmap of R381, or that was written before. -/
def Ctx.OnlyArrays (c : Ctx) (s t : State) (die : Nat) (is ids : List Nat) : Prop :=
  (∀ v k, ¬ (v = c.vf ∧ k ∈ is) → SMap.get? (t.vf v).arrays k = SMap.get? (s.vf v).arrays k) ∧
  (∀ v k, ¬ (v = c.vf ∧ k ∈ ids) → SMap.get? (t.vf v).anchors k = SMap.get? (s.vf v).anchors k) ∧
  ((∀ k y, SMap.get? (s.vf c.vf).arrays k = some y → y.size ≤ 4 ∧ ∀ p ∈ y.leaves, p.2 * y.esize ≤ 4096) →
   ∀ b, ¬ s.written c.core b → (∀ n, s.hasSlab c.vf die n → ¬ (s.slabAddr c.vf die n ≤ b ∧ b < s.slabAddr c.vf die n + 4096)) →
    (∀ n, (s.vf c.vf).cfg 288 8 ≠ 0 → b ≠ (s.vf c.vf).cfg 288 8 + (s.vf c.vf).slabBit die n / 8) → ZMap.get t.mem b = ZMap.get s.mem b)

/-! ### Further terms -/

/-- The tree of R208 over a list, by halves, with the flags of its operations. -/
def reductionTree (f : Nat → Nat → FRes) : Nat → List Nat → FRes
  | _, [] => (0, 0)
  | 0, x :: _ => (x, 0)
  | n + 1, x :: xs =>
    let l := x :: xs
    let pairs := (List.range (l.length / 2)).map fun i => f (l.getD (2 * i) 0) (l.getD (2 * i + 1) 0)
    if l.length = 1 then (x, 0)
    else
      let r := reductionTree f n (pairs.map Prod.fst ++ l.drop (2 * pairs.length))
      (r.1, orFlags (pairs.map Prod.snd) ||| r.2)

/-- The unit completes as a branch or a jump to an address: registers as `w` says, nothing outside the gang changed. -/
def JumpsTo (i : Instr) (s : State) (c : Ctx) (w : Writes) (pc : Word) : Prop :=
  CompletesAt i s c pc w {} fun _ _ => True

/-- What an accumulator instruction may change outside its gang: which units of its quadrant drain, and who waits for units (R140, R142). -/
def unitLoose : Loose where
  quad x := { x with draining := [], accQueue := [] }

/-- What a matrix instruction may change outside its gang: which units of its quadrant drain, when the array last worked, ramp mode,
and the arbiter's window, grants and requests (R140, R224, R225). -/
def matrixLoose : Loose where
  quad x := { x with draining := [], lastProduct := none, ramp := false, accQueue := [] }
  die x := { x with window := 0, granted := 0, surge := [], grants := [] }

/-- A load completes: its checks (`r`) answer the translations, and its registers are as `w` says of them. No byte of memory changes but
those of `MemKept`. -/
def LoadsTo (i : Instr) (s : State) (c : Ctx) (r : Except Res (State × List Xlat)) (w : State → List Xlat → Writes) : Prop :=
  ∀ v xs, Runs i s c → r = .ok (v, xs) → CompletesAt i s c c.after (w v xs) memLoose fun t _ => c.MemKept s t xs fun _ => False

/-- A store completes: its checks (`r`) answer the translations. A team that is not staged performs its accesses in order through the
caches, and counts those of class T as unacknowledged; no byte of memory changes but those of `MemKept` and those stored. A staged
team holds the bytes in its staging area, with the digest term of each access, and memory is as it was. -/
def StoresAll (i : Instr) (s : State) (c : Ctx) (r : Except Res (State × List Xlat)) (fl : Nat) (ws : List (Nat × Nat × List Byte)) :
    Prop :=
  ∀ v xs, Runs i s c → c.gang.releases = [] → r = .ok (v, xs) →
    let pa (a : Nat) : Nat := (findXlat xs a).pa a
    (c.team.staged = false →
      CompletesAt i s c c.after
        { flags := fl
          more := fun g => { g with unacked := g.unacked +
            (ws.filter fun w => !(s.absent (pa w.1)) && pteWp (findXlat xs w.1).leaf).length } }
        memLoose fun t _ => c.Kept (ws.foldl (fun t w => c.storeOne t xs w.1 w.2.2) v) t {} ∧
          c.MemKept s t xs fun b => ∃ w ∈ ws, pa w.1 ≤ b ∧ b < pa w.1 + w.2.2.length) ∧
    (c.team.staged = true → (ws.foldl (fun (g : Staging) w => g.store w.1 w.2.1 w.2.2) c.team.staging).size ≤ 4194304 →
      CompletesAt i s c c.after { flags := fl } { memLoose with team := fun x => { x with staging := ⟨[], [], [], [], 0⟩ } } fun t _ =>
        c.MemKept s t xs (fun _ => False) ∧ ∃ x, t.team? c.ref.team = some x ∧
          (∀ b, b ∈ x.staging.addrs ↔ b ∈ c.team.staging.addrs ∨ ∃ w ∈ ws, w.1 ≤ b ∧ b < w.1 + w.2.2.length) ∧
          (∀ b, ZMap.get x.staging.bytes b = storedOver (ws.map fun w => (w.1, w.2.2)) (ZMap.get c.team.staging.bytes b) b) ∧
          x.staging.digest = ws.foldl (fun d w => d + digestTerm w.1 w.2.1 (ofBytes w.2.2)) c.team.staging.digest ∧
          x.staging.writes.filter StagedWrite.isRed = c.team.staging.writes.filter StagedWrite.isRed ∧ x.staging.ops = c.team.staging.ops)

/-- The counter operations of a state: the counter reads `x`, every other counter is as before, and where its count is zero the tasks held
on it, and no others, are ready (R308, R319). -/
def CounterSet (s t : State) (name : Nat) (x : Counter) : Prop :=
  t.counter name = x ∧
  (∀ d n, ¬ (d = name / 2 ^ 16 % 4 ∧ n = name % 2 ^ 16) → SMap.get? (t.die d).counters n = SMap.get? (s.die d).counters n) ∧
  (SMap.wf s.dies = true → (∀ d, SMap.wf (s.die d).tasks = true) → ∀ d n y, SMap.get? (s.die d).tasks n = some y →
    if x.count = 0 ∧ y.state = .held ∧ y.waitc = some name then ∃ q, SMap.get? (t.die d).tasks n = some { y with state := .ready, seq := q }
    else SMap.get? (t.die d).tasks n = some y)

/-- Live lanes of a team: those that have not exited (R291). -/
def Team.liveLanes (t : Team) : Nat := (t.gangs.map fun p => p.2.liveLanes).sum

/-- A team as it stands at its dispatch: each of its gangs has one fragment with every lane at the kernel's entry, and registers, accumulators,
flags, local memories, barriers, queues and the staging area are empty. -/
def StartsTeam (u : Team) (k : Kernel) (gangs : Nat) : Prop :=
  u.kernel = k ∧ u.status = .running ∧ u.stopped = none ∧ u.chamber = [] ∧ u.frames = [] ∧ u.bars = [] ∧ u.queues = [] ∧
  u.staging = ⟨[], [], [], [], 0⟩ ∧ u.gangs.map Prod.fst = List.range gangs ∧
  ∀ n h, SMap.get? u.gangs n = some h → h.core ∈ k.coresAt u.core ∧
    h.entries = [(0, .frag (.start k.entry (fullMask k.width) none false))] ∧ (∀ r, h.s r = 0) ∧ (∀ r l, h.v r l = 0) ∧
    (∀ r, r ≠ 0 → h.k k.width r = 0) ∧ h.accs = [] ∧ h.fpm = 0 ∧ h.flags = 0 ∧ h.unread = 0 ∧ h.handler = none ∧ h.lane = [] ∧ h.wcount = 0 ∧ h.wbudget = 65536

end Sys2Proof.Machine
end

