-- ==== Sys2Proof/Certificates/Slice0/Obligations.lean ====
section
/-! DEFINITION. The statements for the provers. -/

open Sys2Proof Sys2Proof.Machine

/-! ### Scalar instructions -/

/-- R167, R168 with the register, comparison and counting forms: each writes its value to S(sd) and nothing else. A shift amount is
b[5:0]; a comparison writes 1 when it holds and 0 when it does not; a write to s0 is discarded.
R169: the four divisions never fault. A zero divisor gives a quotient of all ones and the dividend as the remainder; the signed
forms truncate toward zero, and -2^63 divided by -1 gives -2^63 with the remainder 0. -/
def Obligations.ScalarArithmetic : Prop :=
  (∀ (d a b : BitVec 5) (cb : BitVec 1) (s : State) (c : Ctx),
    let x := c.s a
    let y := c.s b
    GivesScalar (.sadd d a b cb) s c d (x + y) ∧
    GivesScalar (.ssub d a b cb) s c d (x - y) ∧
    GivesScalar (.sand d a b cb) s c d (x &&& y) ∧
    GivesScalar (.sor d a b cb) s c d (x ||| y) ∧
    GivesScalar (.sxor d a b cb) s c d (x ^^^ y) ∧
    GivesScalar (.sshl d a b cb) s c d (BitVec.ofNat 64 (x.toNat * 2 ^ (y.toNat % 64))) ∧
    GivesScalar (.sshr d a b cb) s c d (BitVec.ofNat 64 (x.toNat / 2 ^ (y.toNat % 64))) ∧
    GivesScalar (.ssra d a b cb) s c d (BitVec.ofInt 64 (x.toInt / 2 ^ (y.toNat % 64))) ∧
    GivesScalar (.smul d a b cb) s c d (BitVec.ofNat 64 (x.toNat * y.toNat)) ∧
    GivesScalar (.smulh d a b cb) s c d (BitVec.ofInt 64 (x.toInt * y.toInt / 2 ^ 64)) ∧
    GivesScalar (.smulhn d a b cb) s c d (BitVec.ofNat 64 (x.toNat * y.toNat / 2 ^ 64)) ∧
    GivesScalar (.smin d a b cb) s c d (BitVec.ofInt 64 (min x.toInt y.toInt)) ∧
    GivesScalar (.smax d a b cb) s c d (BitVec.ofInt 64 (max x.toInt y.toInt)) ∧
    GivesScalar (.sminn d a b cb) s c d (BitVec.ofNat 64 (min x.toNat y.toNat)) ∧
    GivesScalar (.smaxn d a b cb) s c d (BitVec.ofNat 64 (max x.toNat y.toNat)) ∧
    GivesScalar (.scmp 0 d a b cb) s c d (if x = y then 1 else 0) ∧
    GivesScalar (.scmp 1 d a b cb) s c d (if x = y then 0 else 1) ∧
    GivesScalar (.scmp 2 d a b cb) s c d (if x.toInt < y.toInt then 1 else 0) ∧
    GivesScalar (.scmp 3 d a b cb) s c d (if x.toInt ≤ y.toInt then 1 else 0) ∧
    GivesScalar (.scmp 4 d a b cb) s c d (if x.toNat < y.toNat then 1 else 0) ∧
    GivesScalar (.scmp 5 d a b cb) s c d (if x.toNat ≤ y.toNat then 1 else 0) ∧
    GivesScalar (.sclz d a cb) s c d (BitVec.ofNat 64 (((List.range 64).reverse.takeWhile fun i => !(x.getLsbD i)).length)) ∧
    GivesScalar (.sctz d a cb) s c d (BitVec.ofNat 64 (((List.range 64).takeWhile fun i => !(x.getLsbD i)).length)) ∧
    GivesScalar (.spopc d a cb) s c d (BitVec.ofNat 64 (((List.range 64).filter fun i => x.getLsbD i).length))) ∧
  (∀ (d a b : BitVec 5) (cb : BitVec 1) (s : State) (c : Ctx),
    let x := c.s a
    let y := c.s b
    GivesScalar (.sdiv d a b cb) s c d (if y = 0 then BitVec.allOnes 64
      else if x.toInt = -2 ^ 63 ∧ y.toInt = -1 then BitVec.ofInt 64 (-2 ^ 63) else BitVec.ofInt 64 (x.toInt.tdiv y.toInt)) ∧
    GivesScalar (.srem d a b cb) s c d (if y = 0 then x
      else if x.toInt = -2 ^ 63 ∧ y.toInt = -1 then 0 else BitVec.ofInt 64 (x.toInt - y.toInt * x.toInt.tdiv y.toInt)) ∧
    GivesScalar (.sdivn d a b cb) s c d (if y = 0 then BitVec.ofNat 64 (2 ^ 64 - 1) else BitVec.ofNat 64 (x.toNat / y.toNat)) ∧
    GivesScalar (.sremn d a b cb) s c d (if y = 0 then x else BitVec.ofNat 64 (x.toNat % y.toNat)))

/-- R170, R171 with R31: the immediate forms, whose immediate is the 14-bit field sign-extended where no hint extends it, and
the field under the payloads of the unit's `hint.imm` words where one does. The shifts by a constant act as the register shifts. -/
def Obligations.ScalarImmediates : Prop :=
  ∀ (d a : BitVec 5) (i : BitVec 14) (n : BitVec 6) (cb : BitVec 1) (s : State) (c : Ctx),
    let x := c.s a
    let y : Word := BitVec.ofInt 64 (match immHints c.hints with
      | [] => i.toInt
      | [p] => (p ++ i : BitVec 36).toInt
      | p :: q :: _ => (q ++ p ++ i : BitVec 58).toInt)
    GivesScalar (.saddi d a i cb) s c d (x + y) ∧
    GivesScalar (.sandi d a i cb) s c d (x &&& y) ∧
    GivesScalar (.sori d a i cb) s c d (x ||| y) ∧
    GivesScalar (.sxori d a i cb) s c d (x ^^^ y) ∧
    GivesScalar (.sshli d a n cb) s c d (BitVec.ofNat 64 (x.toNat * 2 ^ n.toNat)) ∧
    GivesScalar (.sshri d a n cb) s c d (BitVec.ofNat 64 (x.toNat / 2 ^ n.toNat)) ∧
    GivesScalar (.ssrai d a n cb) s c d (BitVec.ofInt 64 (x.toInt / 2 ^ n.toNat))

/-- R144, R185, R198, R201, R206, R290: the instructions that write to one scalar register what the gang or its team holds:
the width and the fragment's lanes, a mask or a count of it, votes over the lanes that take part, one lane's word,
a system register, and a barrier's state word where the team has the barrier.
R144, R145: the value of each system register 0 to 14: gang, team index, grid identifier (a task reads one that the spec does not
state), place with its three fields, width, allotment, fpm, flags, the budget that remains or 0xFFFF_FFFF, the address of the
capability list, the die's cycle counter, the argument pointer, the tenant, the fault area's base and the slab quota.
R144, R154, R157, R158, R296, R345: `sset` writes fpm and flags as far as their bits exist, and in privileged mode fbase, with bits
11:0 as zero, and slabq, a field of the context's configuration block. Flags that were set since the last `sget` of flags stay
set over an `sset` of flags.
Where the rules leave a point open, the statement follows the model: assumptions 10, 75, 103 (`vsget` of a lane of a slice that a waiting fragment
shares). -/
def Obligations.SystemRegisters : Prop :=
  (∀ (d b5 : BitVec 5) (k ka : BitVec 3) (a : BitVec 6) (cb : BitVec 1) (s : State) (c : Ctx),
    GivesScalar (.gwidthW d cb) s c d (BitVec.ofNat 64 c.team.kernel.width) ∧
    GivesScalar (.gwidthSm d cb) s c d
      (BitVec.ofNat 64 ((List.range 8).map fun i => if c.active &&& sliceLanes i = 0 then 0 else 2 ^ i).sum) ∧
    GivesScalar (.gwidthAm d cb) s c d c.active ∧
    GivesScalar (.gwidthNa d cb) s c d (BitVec.ofNat 64 (lanesOf c.active).length) ∧
    GivesScalar (.kmovToScalar d ka cb) s c d (c.k ka) ∧
    GivesScalar (.kpop d ka cb) s c d (BitVec.ofNat 64 ((lanesOf c.active).filter fun l => bit (c.k ka) l).length) ∧
    GivesScalar (.voteAny k d ka cb) s c d (if ∃ l ∈ c.lanes k, bit (c.k ka) l = true then 1 else 0) ∧
    GivesScalar (.voteAll k d ka cb) s c d (if ∀ l ∈ c.lanes k, bit (c.k ka) l = true then 1 else 0) ∧
    GivesScalar (.voteEq k d a cb) s c d (if ∀ l ∈ c.lanes k, ∀ m ∈ c.lanes k, c.v a l = c.v a m then 1 else 0) ∧
    GivesScalar (.voteBallot k d ka cb) s c d
      (BitVec.ofNat 64 (((c.lanes k).filter fun l => bit (c.k ka) l).map fun l => 2 ^ l).sum) ∧
    GivesScalar (.vsget d a b5 cb) s c d
      (let m := (c.s b5).toNat % c.w
       if m / 8 ∈ slicesOf c.active then c.v a m else 0) ∧
    (b5.toNat < c.team.kernel.bars → GivesScalar (.barQuery d b5 cb) s c d (c.team.bar b5.toNat).word)) ∧
  (∀ (d : BitVec 5) (cb : BitVec 1) (s : State) (c : Ctx),
    let reads (n : BitVec 6) (x : Word) : Prop := Runs (.sget d n cb) s c →
      Completes (.sget d n cb) s c { Writes.scalar d x with flagsRead := decide (n = 7) }
    reads 0 (BitVec.ofNat 64 c.ref.gang) ∧
    reads 1 c.team.index ∧
    (∀ g, c.team.own = .grid g → reads 2 (BitVec.ofNat 64 g)) ∧
    (∀ e n, c.team.own = .task e n → ∃ x, reads 2 x) ∧
    reads 3 (BitVec.ofNat 64 (c.gang.core % 64 + c.gang.core / 64 * 2 ^ 8 + c.gang.quad * 2 ^ 10)) ∧
    reads 4 (BitVec.ofNat 64 c.team.kernel.width) ∧
    reads 5 (BitVec.ofNat 64 c.team.kernel.vregs) ∧
    reads 6 c.gang.fpm ∧
    reads 7 c.gang.flags ∧
    reads 8 (match c.team.budget with | none => 0xFFFFFFFF | some n => BitVec.ofNat 64 n) ∧
    reads 9 s.board.caps ∧
    reads 10 (BitVec.ofNat 64 (s.die (c.gang.core / 64)).cycle) ∧
    reads 11 c.team.argp ∧
    reads 12 (BitVec.ofNat 64 c.team.tenant) ∧
    reads 13 c.team.fbase ∧
    reads 14 (BitVec.ofNat 64 ((s.vf c.vf).cfg 12 4))) ∧
  (∀ (a : BitVec 5) (cb : BitVec 1) (s : State) (c : Ctx),
    (Runs (.sset a 6 cb) s c → Completes (.sset a 6 cb) s c { more := fun g => { g with fpm := c.s a &&& 0xF } }) ∧
    (Runs (.sset a 7 cb) s c →
      ∃ t h, exec (.sset a 7 cb) s = .next t ∧ t.gang? c.ref.team c.ref.gang = some h ∧ c.Kept s t {} ∧
        h.flags = (c.s a &&& 0xFF) ||| c.gang.unread ∧ Writes.Done {} c.w c.gang { h with flags := c.gang.flags } ∧ (c.Free → c.GoesOn h c.after)) ∧
    (Runs (.sset a 13 cb) s c → c.priv = true ∧
      CompletesAt (.sset a 13 cb) s c c.after {} { team := fun x => { x with fbase := 0 } } fun t _ =>
        (t.team? c.ref.team).map Team.fbase = some (c.s a &&& ~~~(0xFFF : Word))) ∧
    (Runs (.sset a 14 cb) s c → c.priv = true ∧
      CompletesAt (.sset a 14 cb) s c c.after {} { vf := fun x => { x with block := [] } } fun t _ =>
        (t.vf c.vf).slabq = (c.s a).toNat % 2 ^ 32 ∧
        ∀ v x, ¬ (v = c.vf ∧ 12 ≤ x ∧ x < 16) → ZMap.get (t.vf v).block x = ZMap.get (s.vf v).block x))

/-! ### Vector instructions -/

/-- R178: wrapping, saturating, high-half, minimum and maximum forms on every sub-element of every lane that takes part. Types 0
to 3 of the wrapping forms are .i8 to .i64, and those of the high-half form are signed from 0 and unsigned from 4; saturating
types are .i8, .i16, .n8, .n16, and those of minimum and maximum .i16, .n16, .i32, .n32. -/
def Obligations.VectorArithmetic : Prop :=
  ∀ (k : BitVec 3) (d a b : BitVec 6) (t : BitVec 2) (h : BitVec 3) (cb : BitVec 1) (s : State) (c : Ctx),
    let w := 8 * 2 ^ t.toNat
    let each (w : Nat) (f : Nat → Nat → Nat) (l : Nat) : Word := mapElems w fun j => f (elem (c.v a l) j w) (elem (c.v b l) j w)
    let sw := if t = 0 ∨ t = 2 then 8 else 16
    let sat (r u : Int) : Nat :=
      if t.toNat < 2 then ((max (-(2 ^ (sw - 1))) (min (2 ^ (sw - 1) - 1) r)) % 2 ^ sw).toNat else (max 0 (min (2 ^ sw - 1) u)).toNat
    let mw := if t.toNat < 2 then 16 else 32
    let le (x y : Nat) : Bool := if t = 0 ∨ t = 2 then decide (sext x mw ≤ sext y mw) else decide (x ≤ y)
    let hw := 8 * 2 ^ (h.toNat % 4)
    GivesVector (.vadd k d a b t cb) s c k d (each w fun x y => (x + y) % 2 ^ w) ∧
    GivesVector (.vsub k d a b t cb) s c k d (each w fun x y => (x + 2 ^ w - y) % 2 ^ w) ∧
    GivesVector (.vmul k d a b t cb) s c k d (each w fun x y => x * y % 2 ^ w) ∧
    GivesVector (.vaddSat k d a b t cb) s c k d (each sw fun x y => sat (sext x sw + sext y sw) (x + y)) ∧
    GivesVector (.vsubSat k d a b t cb) s c k d (each sw fun x y => sat (sext x sw - sext y sw) ((x : Int) - y)) ∧
    GivesVector (.vmulh k d a b h cb) s c k d (each hw fun x y =>
      if h.toNat < 4 then ((sext x hw * sext y hw / 2 ^ hw) % 2 ^ hw).toNat else x * y / 2 ^ hw) ∧
    GivesVector (.vmin k d a b t cb) s c k d (each mw fun x y => if le x y then x else y) ∧
    GivesVector (.vmax k d a b t cb) s c k d (each mw fun x y => if le x y then y else x)

/-- R179 to R183: bitwise forms on whole words, shifts by a register (modulo the sub-element's width) and by a constant, and the
immediates into lanes. -/
def Obligations.VectorBitsAndShifts : Prop :=
  ∀ (k : BitVec 3) (d a b : BitVec 6) (z : BitVec 1) (n : BitVec 7) (t : BitVec 2) (i : BitVec 9) (cb : BitVec 1) (s : State) (c : Ctx),
    let w := if z = 0 then 32 else 64
    let each (w : Nat) (f : Nat → Nat → Nat) (l : Nat) : Word := mapElems w fun j => f (elem (c.v a l) j w) (elem (c.v b l) j w)
    let p : Nat × Nat := if 64 ≤ n.toNat then (64, n.toNat - 64) else if 32 ≤ n.toNat then (32, n.toNat - 32)
      else if 16 ≤ n.toNat then (16, n.toNat - 16) else (8, n.toNat - 8)
    let one (f : Nat → Nat) (l : Nat) : Word := mapElems p.1 fun j => f (elem (c.v a l) j p.1)
    let iw := 8 * 2 ^ t.toNat
    let aw := if i.getLsbD 0 then 32 else 64
    GivesVector (.vand k d a b cb) s c k d (fun l => c.v a l &&& c.v b l) ∧
    GivesVector (.vor k d a b cb) s c k d (fun l => c.v a l ||| c.v b l) ∧
    GivesVector (.vxor k d a b cb) s c k d (fun l => c.v a l ^^^ c.v b l) ∧
    GivesVector (.vandn k d a b cb) s c k d (fun l => c.v a l &&& ~~~(c.v b l)) ∧
    GivesVector (.vmov k d a cb) s c k d (fun l => c.v a l) ∧
    GivesVector (.vshl k d a b z cb) s c k d (each w fun x y => x * 2 ^ (y % w) % 2 ^ w) ∧
    GivesVector (.vshr k d a b z cb) s c k d (each w fun x y => x / 2 ^ (y % w)) ∧
    GivesVector (.vsra k d a b z cb) s c k d (each w fun x y => ((sext x w / 2 ^ (y % w)) % 2 ^ w).toNat) ∧
    GivesVector (.vshiL k d a n cb) s c k d (one fun x => x * 2 ^ p.2 % 2 ^ p.1) ∧
    GivesVector (.vshiR k d a n cb) s c k d (one fun x => x / 2 ^ p.2) ∧
    GivesVector (.vshiRa k d a n cb) s c k d (one fun x => ((sext x p.1 / 2 ^ p.2) % 2 ^ p.1).toNat) ∧
    GivesVector (.vmovi k d t i cb) s c k d (fun _ => mapElems iw fun _ => (immS i c.hints % 2 ^ iw).toNat) ∧
    GivesVector (.vaddi k d a i cb) s c k d
      (fun l => mapElems aw fun j => ((elem (c.v a l) j aw + immS i c.hints / 2) % 2 ^ aw).toNat)

/-- R185 to R189: lane moves, interleaving and gathering, widening and narrowing, counting and reversing bits, and residue
words, whose conversions set RNRANGE (R165). `vsel` acts in every active lane; `vsput` writes one lane where it takes part. -/
def Obligations.VectorRearrangement : Prop :=
  ∀ (k : BitVec 3) (d a b : BitVec 6) (sa sb : BitVec 5) (t : BitVec 2) (w4 : BitVec 4) (w5 : BitVec 5) (cb : BitVec 1)
    (s : State) (c : Ctx),
    let zipW (w l : Nat) : Word := mapElems w fun j => if j % 2 = 0 then elem (c.v a l) (j / 2) w else elem (c.v b l) (j / 2) w
    let unzipW (w l : Nat) : Word :=
      mapElems w fun j => if j < 32 / w then elem (c.v a l) (2 * j) w else elem (c.v b l) (2 * (j - 32 / w)) w
    let w := 8 * 2 ^ t.toNat
    let one (f : Nat → Nat) (l : Nat) : Word := mapElems w fun j => f (elem (c.v a l) j w)
    GivesVector (.vsel k d a b cb) s c 0 d (fun l => if bit (c.k k) l then c.v a l else c.v b l) ∧
    GivesVector (.vbcast k d sa t cb) s c k d (fun _ => mapElems (64 / 2 ^ t.toNat) fun _ => (c.s sa).toNat) ∧
    GivesVector (.vlane k d cb) s c k d (fun l => BitVec.ofNat 64 l) ∧
    (Runs (.vsput k d sa sb cb) s c → Completes (.vsput k d sa sb cb) s c
      (.vector d ((c.lanes k).filter fun l => l == (c.s sb).toNat % c.w) fun _ => c.s sa)) ∧
    GivesVector (.vzipI8 k d a b cb) s c k d (zipW 8) ∧
    GivesVector (.vzipI16 k d a b cb) s c k d (zipW 16) ∧
    GivesVector (.vzipI32 k d a b cb) s c k d (zipW 32) ∧
    GivesVector (.vunzipI8 k d a b cb) s c k d (unzipW 8) ∧
    GivesVector (.vunzipI16 k d a b cb) s c k d (unzipW 16) ∧
    GivesVector (.vunzipI32 k d a b cb) s c k d (unzipW 32) ∧
    GivesVector (.vwiden k d a w4 cb) s c k d (fun l => widen w4.toNat (c.v a l)) ∧
    GivesVector (.vnarrow k d a w5 cb) s c k d (fun l => vnarrowWord w5.toNat (c.v a l) (c.v d l)) ∧
    GivesVector (.vclz k d a t cb) s c k d
      (one fun x => ((List.range w).reverse.takeWhile fun i => !(x.testBit i)).length) ∧
    GivesVector (.vpopc k d a t cb) s c k d (one fun x => ((List.range w).filter fun i => x.testBit i).length) ∧
    GivesVector (.vbrev k d a t cb) s c k d
      (one fun x => ((List.range w).map fun i => if x.testBit i then 2 ^ (w - 1 - i) else 0).sum) ∧
    (Runs (.vrnenc k d a cb) s c → Completes (.vrnenc k d a cb) s c
      { v := vecWrite d (c.lanes k) fun l => mapElems 32 fun j => rnOf (sext (elem (c.v a l) j 32) 32)
        flags := if (c.lanes k).any fun l => !(inRange (sext (elem (c.v a l) 0 32) 32)) || !(inRange (sext (elem (c.v a l) 1 32) 32)) then fRNRANGE else 0 }) ∧
    (Runs (.vrndec k d a cb) s c → Completes (.vrndec k d a cb) s c
      { v := vecWrite d (c.lanes k) fun l => mapElems 32 fun j => ((rndec (elem (c.v a l) j 32)) % 2 ^ 32).toNat
        flags := if (c.lanes k).any fun l => !(rnOk (elem (c.v a l) 0 32)) || !(rnOk (elem (c.v a l) 1 32)) then fRNRANGE else 0 })

/-- R190, R191, R195 to R197: floating-point results of every sub-element of every lane that takes part, under the modes of R155
and the rounding override of the unit's hint; the flags of every element are set together (R157). `vfma` adds vd, or the vc of
its hint.
R192: each result of `vfmin` and `vfmax` is one of the two encodings, and the order of R159 puts it below, or above, the
other; no mode matters and no flag is set. The num forms take the number where one of the two is a NaN.
Where the rules leave a point open, the statement follows the model: assumptions 11, 109, 116 (that `vfma` takes an override is the model's
reading). -/
def Obligations.VectorFloat : Prop :=
  (∀ (k : BitVec 3) (d a b : BitVec 6) (t : BitVec 2) (w : BitVec 6) (fn : BitVec 3) (cb : BitVec 1) (s : State) (c : Ctx),
    let m : Fmt := if t = 0 then f32 else if t = 1 then f16 else bf16
    let gives (i : Instr) (n : Nat) (f : Nat → Nat → FRes) : Prop := Runs i s c → Completes i s c
      { v := vecWrite d (c.lanes k) fun l => mapElems n fun j => (f l j).1
        flags := orFlags ((c.lanes k).flatMap fun l => (List.range (64 / n)).map fun j => (f l j).2) }
    let x (l j : Nat) : Nat := elem (c.v a l) j m.bits
    let y (l j : Nat) : Nat := elem (c.v b l) j m.bits
    gives (.vfadd k d a b t cb) m.bits (fun l j => fadd m c.mode (x l j) (y l j)) ∧
    gives (.vfsub k d a b t cb) m.bits (fun l j => fsub m c.mode (x l j) (y l j)) ∧
    gives (.vfmul k d a b t cb) m.bits (fun l j => fmul m c.mode (x l j) (y l j)) ∧
    gives (.vfma k d a b t cb) m.bits (fun l j => ffma m c.mode (x l j) (y l j)
      (match hintVc c.hints with | some v => elem (c.v v l) j m.bits | none => elem (c.v d l) j m.bits)) ∧
    gives (.vfround k d a t cb) m.bits (fun l j => froundInt m c.mode (x l j)) ∧
    gives (.vsfu k d a fn cb) 32 (fun l j => sfu fn.toNat c.mode (elem (c.v a l) j 32)) ∧
    GivesVector (.vfabs k d a t cb) s c k d (fun l => mapElems m.bits fun j => x l j % 2 ^ (m.bits - 1)) ∧
    GivesVector (.vfneg k d a t cb) s c k d (fun l => mapElems m.bits fun j => (x l j + 2 ^ (m.bits - 1)) % 2 ^ m.bits) ∧
    (Runs (.vfcvt k d a w cb) s c → Completes (.vfcvt k d a w cb) s c
      { v := vecWrite d (c.lanes k) fun l => (convert c.mode w.toNat (c.v a l)).1
        flags := orFlags ((c.lanes k).map fun l => (convert c.mode w.toNat (c.v a l)).2) })) ∧
  (∀ (k : BitVec 3) (d a b : BitVec 6) (z cb : BitVec 1) (s : State) (c : Ctx),
    let w := if z = 0 then 32 else 16
    let m : Fmt := if z = 0 then f32 else f16
    let x (l j : Nat) : Nat := elem (c.v a l) j w
    let y (l j : Nat) : Nat := elem (c.v b l) j w
    let lo (p q : Nat) : Nat := if orderkey w p ≤ orderkey w q then p else q
    let hi (p q : Nat) : Nat := if orderkey w p ≤ orderkey w q then q else p
    let num (f : Nat → Nat → Nat) (p q : Nat) : Nat := if isNan m p = isNan m q then f p q else if isNan m p then q else p
    GivesVector (.vfmin k d a b z cb) s c k d (fun l => mapElems w fun j => lo (x l j) (y l j)) ∧
    GivesVector (.vfmax k d a b z cb) s c k d (fun l => mapElems w fun j => hi (x l j) (y l j)) ∧
    GivesVector (.vfminnum k d a b z cb) s c k d (fun l => mapElems w fun j => num lo (x l j) (y l j)) ∧
    GivesVector (.vfmaxnum k d a b z cb) s c k d (fun l => mapElems w fun j => num hi (x l j) (y l j)))

/-- R176, R184, R193, R194, R198: the instructions that write a mask register write it in the lanes that take part and in no
other. Compare codes 0 to 5 are eq, ne, lt, le, ltn and len; float compares are eq, ne, lt, le and un, and set NV for a NaN (lt
and le) or a signalling NaN alone. -/
def Obligations.MaskWriters : Prop :=
  ∀ (k kd ka kb : BitVec 3) (a b : BitVec 6) (sa : BitVec 5) (o : BitVec 3) (z : BitVec 1) (o2 : BitVec 2) (cb : BitVec 1)
    (s : State) (c : Ctx),
    let holds (x y : Int) (p q : Nat) : Bool := if o = 0 then decide (p = q) else if o = 1 then decide (p ≠ q)
      else if o = 2 then decide (x < y) else if o = 3 then decide (x ≤ y) else if o = 4 then decide (p < q) else decide (p ≤ q)
    let x (l : Nat) : Nat := elem (c.v a l) 0 32
    let y (l : Nat) : Nat := elem (c.v b l) 0 32
    let w := if z = 0 then 32 else 16
    let fz := FMode.of c.gang.fpm 0
    let xf (l : Nat) : Nat := flushIn f32 fz (x l)
    let yf (l : Nat) : Nat := flushIn f32 fz (y l)
    let nan (l : Nat) : Bool := isNan f32 (x l) || isNan f32 (y l)
    let snan (l : Nat) : Bool := isSnan f32 (x l) || isSnan f32 (y l)
    let equal (l : Nat) : Bool := xf l == yf l || (fmag f32 (xf l) == 0 && fmag f32 (yf l) == 0)
    let less (l : Nat) : Bool := decide (orderkey 32 (xf l) < orderkey 32 (yf l)) && !(equal l)
    GivesMask (.vcmp k kd a b o cb) s c k kd (fun l => holds (sext (x l) 32) (sext (y l) 32) (x l) (y l)) ∧
    GivesMask (.vcmp64 k kd a b o cb) s c k kd
      (fun l => holds (c.v a l).toInt (c.v b l).toInt (c.v a l).toNat (c.v b l).toNat) ∧
    (Runs (.vfcmp k kd a b o cb) s c → Completes (.vfcmp k kd a b o cb) s c
      { k := maskWrite kd (c.lanes k) fun l => if o = 0 then !(nan l) && equal l else if o = 1 then nan l || !(equal l)
          else if o = 2 then !(nan l) && less l else if o = 3 then !(nan l) && (less l || equal l) else nan l
        flags := if (c.lanes k).any fun l => if o = 2 ∨ o = 3 then nan l else snan l then fNV else 0 }) ∧
    GivesMask (.vfcmpt k kd a b z o2 cb) s c k kd (fun l =>
      let p := orderkey w (elem (c.v a l) 0 w)
      let q := orderkey w (elem (c.v b l) 0 w)
      if o2 = 0 then decide (p = q) else if o2 = 1 then decide (p < q) else decide (p ≤ q)) ∧
    GivesMask (.kand k kd ka kb cb) s c k kd (fun l => bit (c.k ka) l && bit (c.k kb) l) ∧
    GivesMask (.kor k kd ka kb cb) s c k kd (fun l => bit (c.k ka) l || bit (c.k kb) l) ∧
    GivesMask (.kxor k kd ka kb cb) s c k kd (fun l => bit (c.k ka) l ^^ bit (c.k kb) l) ∧
    GivesMask (.kandn k kd ka kb cb) s c k kd (fun l => bit (c.k ka) l && !(bit (c.k kb) l)) ∧
    GivesMask (.kmovMask k kd ka cb) s c k kd (fun l => bit (c.k ka) l) ∧
    GivesMask (.kmovFromScalar k kd sa cb) s c k kd (fun l => bit (c.s sa) l)

/-! ### Across lanes -/

/-- R202 to R205: a shuffle gives each sub-element that of the lane that its fields name, reduced modulo the width, or its own
where that lane is not active, and k7 receives, in the lanes that take part, whether every source was active. Modes 0 to 3 are
idx, xor, up and down. -/
def Obligations.Shuffles : Prop :=
  ∀ (k : BitVec 3) (d a b : BitVec 6) (m : BitVec 2) (z cb : BitVec 1) (i : BitVec 9) (s : State) (c : Ctx),
    let gives (ins : Instr) (mode n : Nat) (fields : Nat → Nat → Nat × Nat) : Prop :=
      let src (l j : Nat) : Nat × Nat :=
        let f := fields l j
        match mode with
        | 0 => (f.1 % c.w, f.2 % n)
        | 1 => ((l ^^^ f.1) % c.w, (j ^^^ f.2) % n)
        | 2 => ((((l : Int) - f.1) % c.w).toNat, (((j : Int) - f.2) % n).toNat)
        | _ => ((l + f.1) % c.w, (j + f.2) % n)
      Runs ins s c → Completes ins s c
        { v := vecWrite d (c.lanes k) fun l => mapElems (64 / n) fun j =>
            if bit c.active (src l j).1 then elem (c.v a (src l j).1) (src l j).2 (64 / n) else elem (c.v a l) j (64 / n)
          k := maskWrite 7 (c.lanes k) fun l => (List.range n).all fun j => bit c.active (src l j).1 }
    let n := if z = 0 then 2 else 1
    let p := (immS i c.hints).toNat
    gives (.vshfl k d a b m z cb) m.toNat n (fun l j =>
      let x := elem (c.v b l) j (64 / n)
      (x / 256 % 256, x % 256)) ∧
    gives (.vshfli k d a i cb) (i.toNat / 4 % 4) (8 / 2 ^ (i.toNat % 4)) (fun _ _ => (p / 128 % 64, p / 16 % 8))

/-- R207 to R210: `xred` combines the elements of the lanes that take part in one fixed tree, pairs of neighbours level by level,
and writes the result once: sign-extended for .i32, else zero-extended. The operation's flags are set.
R211: `xmaxi` finds an element that no other exceeds, the lowest in ascending (L, j) among equals, NaNs set aside by the num
types where some element is not one, and returns its value, lane and place; with no lane taking part it returns bit 63 alone. -/
def Obligations.Reduction : Prop :=
  (∀ (k : BitVec 3) (d : BitVec 5) (a : BitVec 6) (o t : BitVec 3) (cb : BitVec 1) (s : State) (c : Ctx),
    let b := if t.toNat < 2 ∨ t = 4 then 32 else if t.toNat < 4 then 64 else 16
    let xs := (c.lanes k).flatMap fun l => (List.range (64 / b)).map fun j => elem (c.v a l) j b
    let r := reductionTree (xOp c.mode t.toNat o.toNat) xs.length xs
    Runs (.xred k d a o t cb) s c → Completes (.xred k d a o t cb) s c
      { s := fun n => if n = d.toNat then some (if t = 0 then BitVec.ofInt 64 (sext r.1 32) else BitVec.ofNat 64 r.1) else none
        flags := r.2 }) ∧
  (∀ (k : BitVec 3) (d : BitVec 5) (a : BitVec 6) (t : BitVec 3) (cb : BitVec 1) (s : State) (c : Ctx),
    Runs (.xmaxi k d a t cb) s c →
      let b := if t = 3 ∨ t = 4 ∨ t = 6 then 16 else 32
      let all : List (Nat × Nat × Nat) := (c.lanes k).flatMap fun l => (List.range (64 / b)).map fun j => (l, j, elem (c.v a l) j b)
      let nan (x : Nat) : Bool := isNan (if t = 6 then f16 else f32) x
      let es := if t.toNat ≥ 5 ∧ (∃ e ∈ all, nan e.2.2 = false) then all.filter fun e => !(nan e.2.2) else all
      let key (x : Nat) : Int := if t = 0 then sext x 32 else if t = 1 then x else orderkey b x
      (all = [] ∧ Completes (.xmaxi k d a t cb) s c (.scalar d (BitVec.ofNat 64 (2 ^ 63)))) ∨
      ∃ pre e post, es = pre ++ e :: post ∧ (∀ x ∈ pre, key x.2.2 < key e.2.2) ∧ (∀ x ∈ post, key x.2.2 ≤ key e.2.2) ∧
        Completes (.xmaxi k d a t cb) s c (.scalar d (BitVec.ofNat 64 (e.2.2 + e.1 * 2 ^ 32 + e.2.1 * 2 ^ 40))))

/-- R207, R209, R210: `xscan` walks the elements in ascending (L, j) and gives each place the combination of the elements up to
it, its own included, or with EX the combination of those before it and the identity at the first. -/
def Obligations.Scan : Prop :=
  ∀ (k : BitVec 3) (d a : BitVec 6) (e : BitVec 1) (o t : BitVec 3) (cb : BitVec 1) (s : State) (c : Ctx),
    let b := if t.toNat < 2 ∨ t = 4 then 32 else if t.toNat < 4 then 64 else 16
    let n := 64 / b
    let xs := (c.lanes k).flatMap fun l => (List.range n).map fun j => elem (c.v a l) j b
    let op := xOp c.mode t.toNat o.toNat
    let fold (m : Nat) : Option FRes := (xs.take m).foldl (fun r x => match r with
      | none => some (x, 0)
      | some p => some ((op p.1 x).1, p.2 ||| (op p.1 x).2)) none
    let out (m : Nat) : Nat := if e = 1 then ((fold m).map Prod.fst).getD (xIdentity t.toNat o.toNat)
      else ((fold (m + 1)).map Prod.fst).getD 0
    Runs (.xscan k d a e o t cb) s c → Completes (.xscan k d a e o t cb) s c
      { v := vecWrite d (c.lanes k) fun l => mapElems b fun j => out ((c.lanes k).idxOf l * n + j)
        flags := ((fold xs.length).map Prod.snd).getD 0 }

/-! ### Control flow -/

/-- R20, R31, R279, R286, R287: a branch of the fragment as a whole goes to its own word's address plus four times its
displacement, which the payloads of `hint.imm` extend, where its condition holds, and to the word after the unit where it does
not; `call` also writes the address after the unit to s31. Conditions of `br`: always, any, all, none; of `brs`: z, nz, neg, nneg.
R287: `jr`, `jrl` and `ret` go to the address that a scalar register holds, which `jrl` reads before it writes s31, where its
bits 1:0 are zero. -/
def Obligations.Branches : Prop :=
  (∀ (k : BitVec 3) (a : BitVec 5) (d : BitVec 18) (e : BitVec 17) (s : State) (c : Ctx),
    let from_ : Word := c.frag.pc + BitVec.ofNat 64 (4 * c.hints.length)
    let disp : Int := match immHints c.hints with
      | [] => d.toInt
      | [p] => (p ++ d : BitVec 40).toInt
      | p :: q :: _ => (q ++ p ++ d : BitVec 62).toInt
    let dispS : Int := match immHints c.hints with
      | [] => e.toInt
      | [p] => (p ++ e : BitVec 39).toInt
      | p :: q :: _ => (q ++ p ++ e : BitVec 61).toInt
    let goes (i : Instr) (w : Writes) (x : Int) (cond : Prop) : Prop := Runs i s c →
      (cond → JumpsTo i s c w (from_ + BitVec.ofInt 64 (4 * x))) ∧ (¬ cond → JumpsTo i s c w c.after)
    goes (.br d) {} disp True ∧
    goes (.brAny k d) {} disp (∃ l ∈ lanesOf c.active, bit (c.k k) l = true) ∧
    goes (.brAll k d) {} disp (∀ l ∈ lanesOf c.active, bit (c.k k) l = true) ∧
    goes (.brNone k d) {} disp (∀ l ∈ lanesOf c.active, bit (c.k k) l = false) ∧
    goes (.brsZ a e) {} dispS (c.s a = 0) ∧
    goes (.brsNz a e) {} dispS (c.s a ≠ 0) ∧
    goes (.brsNeg a e) {} dispS ((c.s a).toInt < 0) ∧
    goes (.brsNneg a e) {} dispS (0 ≤ (c.s a).toInt) ∧
    goes (.call d) (.scalar 31 c.after) disp True) ∧
  (∀ (a : BitVec 5) (cb : BitVec 1) (s : State) (c : Ctx),
    (Runs (.jr a cb) s c → (c.s a).toNat % 4 = 0 → JumpsTo (.jr a cb) s c {} (c.s a)) ∧
    (Runs (.jrl a cb) s c → (c.s a).toNat % 4 = 0 → JumpsTo (.jrl a cb) s c (.scalar 31 c.after) (c.s a)) ∧
    (Runs (.ret cb) s c → (c.s 31).toNat % 4 = 0 → JumpsTo (.ret cb) s c {} (c.s 31)))

/-- R280: `br.lanes`, where the entries that it needs are free, writes no register. Where no lane branches the fragment goes on after
the unit; else it goes to the target with its lanes that branch, each slice of both kinds leaves a deferred entry with its lanes
that do not, and the slices with no lane that branches go on after the unit. The lanes that do not branch are the fragment's no
more: it holds those that branch alone, but for what R285 lets it fuse with at the target.
R278, R280, R282: an instruction that needs more entries of the split table than are free in its range performs nothing and
faults with SPLITDEPTH, class 7. -/
def Obligations.SplittingBranch : Prop :=
  (∀ (k : BitVec 3) (d : BitVec 18) (s : State) (c : Ctx), Runs (.brLanes k d) s c →
    let go := c.active &&& c.k k
    let stay := c.active &&& ~~~(c.k k)
    let slices := (List.range 8).filter fun i => decide (c.active &&& sliceLanes i ≠ 0)
    let taken := slices.filter fun i => decide (go &&& sliceLanes i ≠ 0)
    let fall := slices.filter fun i => decide (go &&& sliceLanes i = 0)
    let mixed := taken.filter fun i => decide (stay &&& sliceLanes i ≠ 0)
    let range := (List.range (if c.frag.handler then 16 else 12)).filter fun n => (SMap.get? c.gang.entries n).isNone
    (taken = [] → Completes (.brLanes k d) s c {}) ∧
    (taken ≠ [] → mixed.length + (if fall = [] then 0 else 1) ≤ range.length →
      CompletesAt (.brLanes k d) s c (c.target d) {} {} fun _ h =>
        c.Free →
          (∃ f, h.frag? c.ref.frag = some f ∧ go &&& ~~~f.active = 0 ∧
            (c.team.det = true ∨ (c.after ≠ c.target d ∧ ∀ n e, n ≠ c.ref.frag → SMap.get? c.gang.entries n = some e →
              e.address ≠ c.target d) → f.active = go)) ∧
          (∀ i ∈ mixed, ∃ n m, SMap.get? h.entries n = some (.deferred i m c.after none c.frag.handler) ∧
            m = stay &&& sliceLanes i) ∧
          (fall ≠ [] → ∃ n f, h.frag? n = some f ∧ f.pc = c.after ∧
            ∀ i ∈ fall, (c.active &&& sliceLanes i) &&& ~~~f.active = 0))) ∧
  (∀ (k : BitVec 3) (d : BitVec 18) (s : State) (c : Ctx),
    let range := c.gang.freeEntries c.frag.handler
    let p := splitOf c.active (c.k k)
    (Runs (.brLanes k d) s c → p.taken ≠ [] → range.length < p.mixed.length + (if p.fall = [] then 0 else 1) →
      exec (.brLanes k d) s = .next (c.faulted (.brLanes k d) { cls := 7 } s)) ∧
    (Runs (.joinat d) s c → c.reuses (c.target d) = false → range = [] →
      exec (.joinat d) s = .next (c.faulted (.joinat d) { cls := 7 } s)))

/-- R282, R289: `joinat` writes no register and goes on after the unit. It reuses a record of the same address and lanes, and the
table then keeps each of its other entries, and the fragment its record; else it takes a free entry for a record of its own, with
the fragment's lanes as members, none arrived or exited, and the fragment's record as its parent. (Where the join address is the
address after the unit, the fragment has reached the join, R283.)
R283: where a branch takes a fragment to its join address and every member lane of the record has then arrived or exited, one fragment
goes on at the join with all the lanes that arrived, under the record's parent and at position 1 of a chain; the record's entry and those
of the other fragments that waited at it are free, and every other entry is as it was.
R281: where the arrival leaves no fragment outside the join that holds a lane of a deferred entry's slice, the entry becomes a fragment
with its lanes at its resume address, under its record, and the fragment that came waits at the join with its lanes arrived.
R111, R284: `exit` outside a handler ends the fragment, unless it would end the last gang of a team with copies in flight: its
entry holds no fragment any more, and the gang, where it goes on, keeps its registers. Where copies are in flight, that `exit`
waits, and is tried again.
Where the rules leave a point open, the statement follows the model: assumptions 28, 119. -/
def Obligations.JoinsAndExit : Prop :=
  (∀ (d : BitVec 18) (s : State) (c : Ctx), Runs (.joinat d) s c →
    c.reuses (c.target d) = true ∨ c.gang.freeEntries c.frag.handler ≠ [] →
      ∃ t h, exec (.joinat d) s = .next t ∧ t.gang? c.ref.team c.ref.gang = some h ∧ Writes.Done {} c.w c.gang h ∧ c.Kept s t {} ∧
        (c.reuses (c.target d) = true → c.gang.TableOk → c.gang.Settled → c.target d ≠ c.after →
          (∀ m, m ≠ c.ref.frag → SMap.get? h.entries m = SMap.get? c.gang.entries m) ∧
          ∃ f, h.frag? c.ref.frag = some f ∧ f.join = c.frag.join ∧ f.active = c.active ∧ f.pc = c.after ∧ f.wait = none ∧ f.hints = []) ∧
        (c.reuses (c.target d) = false → c.gang.TableOk → c.active ≠ 0 → c.target d ≠ c.after →
          ∃ j f, SMap.get? c.gang.entries j = none ∧ j < 16 ∧
            SMap.get? h.entries j = some (.join (c.target d) c.active 0 0 c.frag.join c.frag.handler) ∧
            h.frag? c.ref.frag = some f ∧ f.join = some j ∧ f.pc = c.after ∧ f.wait = none ∧
            (c.gang.Settled → ∀ m, m ≠ c.ref.frag → m ≠ j → SMap.get? h.entries m = SMap.get? c.gang.entries m))) ∧
  (∀ (d : BitVec 18) (s : State) (c : Ctx) (j : Nat) (m ar ex : Mask) (p : Option Nat) (b : Bool), Runs (.br d) s c → c.gang.TableOk →
    c.gang.Settled → c.frag.join = some j → SMap.get? c.gang.entries j = some (.join (c.target d) m ar ex p b) →
    let arrives (n : Nat) : Prop := n = c.ref.frag ∨ ∃ f, c.gang.frag? n = some f ∧ f.wait = some (.join j)
    let starts (f : Fragment) : Prop := f.wait = none ∧ f.pos = 1 ∧ f.v0 = false ∧ f.v1 = false ∧ f.hints = []
    ((∀ n sl x pc q r, SMap.get? c.gang.entries n ≠ some (.deferred sl x pc q r)) →
      (∀ q e, p = some q → SMap.get? c.gang.entries q = some e → e.address ≠ c.target d) →
      (c.team.det = true ∨ ∀ n f, n ≠ c.ref.frag → c.gang.frag? n = some f → f.pc = c.target d → f.wait ≠ none) →
      (ar ||| c.active) ||| ex = m →
      ∃ t h n f, exec (.br d) s = .next t ∧ t.gang? c.ref.team c.ref.gang = some h ∧ arrives n ∧ h.frag? n = some f ∧
        f.pc = c.target d ∧ f.active = ar ||| c.active ∧ f.join = p ∧ starts f ∧ SMap.get? h.entries j = none ∧
        (∀ k, arrives k → k ≠ n → SMap.get? h.entries k = none) ∧
        ∀ k, k ≠ j → ¬ arrives k → SMap.get? h.entries k = SMap.get? c.gang.entries k) ∧
    ∀ k sl x pc, SMap.get? c.gang.entries k = some (.deferred sl x pc (some j) c.frag.handler) →
      (∀ n sl x pc q r, SMap.get? c.gang.entries n = some (.deferred sl x pc q r) → n = k) →
      (∀ n f, n ≠ c.ref.frag → c.gang.frag? n = some f → f.handler = c.frag.handler → f.active &&& sliceLanes sl ≠ 0 →
        f.wait = some (.join j)) → pc ≠ c.target d → (ar ||| c.active) ||| ex ≠ m →
      ∃ t h f g, exec (.br d) s = .next t ∧ t.gang? c.ref.team c.ref.gang = some h ∧ h.frag? k = some f ∧ f.pc = pc ∧ f.active = x ∧
        f.join = some j ∧ starts f ∧ h.frag? c.ref.frag = some g ∧ g.pc = c.target d ∧ g.active = c.active ∧ g.wait = some (.join j) ∧
        SMap.get? h.entries j = some (.join (c.target d) m (ar ||| c.active) ex p b) ∧
        ∀ n, n ≠ j → n ≠ k → n ≠ c.ref.frag → SMap.get? h.entries n = SMap.get? c.gang.entries n) ∧
  (∀ (s : State) (c : Ctx), Runs .exit s c → c.gang.handler = none → c.frag.handler = false →
    let last : Prop := (c.gang.exitFrag c.ref.frag).over = true ∧ ∀ g ∈ c.team.gangs, g.1 = c.ref.gang
    let flying : Prop := ∃ p ∈ s.cores, ∃ y ∈ p.2.copies, y.2.team = c.ref.team
    (¬ (last ∧ flying) → ∃ t, exec .exit s = .next t ∧ ∀ h, t.gang? c.ref.team c.ref.gang = some h →
      h.frag? c.ref.frag = none ∧ Writes.Done {} c.w c.gang h) ∧
    (last → flying → exec .exit s = .next (c.park s .copies)))

/-- R290 to R292: an arrival that is counted writes the phase in S(sd), and the barrier's count grows by the fragment's lanes. The phase
completes where the count has reached the expected one, or, with the default count, the team's live lanes: the next phase then
stands with nothing counted, and every fragment of the team that waited for the phase waits for it no more. Else the barrier
keeps the count, with the expected count that the phase's first arrival fixed.
R291, R292: an arrival at a barrier that the team does not have, with a count above 1,024, with another count than the phase's,
or with more lanes than the phase expects faults with PROT, reason 7, and performs nothing; so do a wait and a query of a
barrier that the team does not have.
R292: a wait on a phase that has completed is over, writes no register and no byte of memory, and a sync whose arrival completes the
phase goes on; otherwise each fragment waits for the phase, with its unit performed. -/
def Obligations.Barriers : Prop :=
  (∀ (d a b : BitVec 5) (cb : BitVec 1) (s : State) (c : Ctx),
    let faults (i : Instr) : Prop := exec i s = .next (c.faulted i { cls := 10, fbyte := 7 } s)
    let x := c.team.bar b.toNat
    let e := (c.s a).toNat
    let fresh : Prop := x.cnt = 0 ∧ x.exp = 0 ∧ x.dflt = false
    let bad : Prop := c.team.kernel.bars ≤ b.toNat ∨ 1024 < e ∨ (¬ fresh ∧ x.dflt ≠ decide (e = 0)) ∨
      (¬ fresh ∧ e ≠ 0 ∧ x.exp ≠ e) ∨ (e ≠ 0 ∧ e < x.cnt + popcount c.active)
    let cnt := x.cnt + popcount c.active
    let complete : Prop := (e ≠ 0 ∧ cnt = e) ∨ (e = 0 ∧ c.team.liveLanes ≤ cnt)
    let arrived (t : State) (u : Team) : Prop :=
      (∀ n, n ≠ b.toNat → u.bar n = c.team.bar n) ∧
      (¬ complete → u.bar b.toNat = ⟨x.phase, cnt, if x.dflt then x.exp else e, decide (e = 0)⟩) ∧
      (complete → u.bar b.toNat = ⟨x.phase + 1, 0, 0, false⟩ ∧
        ((∀ g h, SMap.get? c.team.gangs g = some h → SMap.wf h.entries = true) →
          ∀ g h n f, t.gang? c.ref.team g = some h → h.frag? n = some f → f.wait ≠ some (.barrier b.toNat x.phase)))
    (Runs (.barArrive d a b cb) s c → bad → faults (.barArrive d a b cb)) ∧
    (Runs (.barSync a b cb) s c → bad → faults (.barSync a b cb)) ∧
    (Runs (.barWait a b cb) s c → c.team.kernel.bars ≤ b.toNat → faults (.barWait a b cb)) ∧
    (Runs (.barQuery d b cb) s c → c.team.kernel.bars ≤ b.toNat → faults (.barQuery d b cb)) ∧
    (Runs (.barArrive d a b cb) s c → ¬ bad →
      ∃ t h u, exec (.barArrive d a b cb) s = .next t ∧ t.gang? c.ref.team c.ref.gang = some h ∧ t.team? c.ref.team = some u ∧
        (∀ n, h.s n = if n = 0 then 0 else if n = d.toNat then x.phase.setWidth 64 else c.gang.s n) ∧
        h.vregs = c.gang.vregs ∧ h.kregs = c.gang.kregs ∧ h.flags = c.gang.flags ∧ h.accs = c.gang.accs ∧ arrived t u) ∧
    (Runs (.barSync a b cb) s c → ¬ bad →
      ∃ t h u, exec (.barSync a b cb) s = .next t ∧ t.gang? c.ref.team c.ref.gang = some h ∧ t.team? c.ref.team = some u ∧
        h.sregs = c.gang.sregs ∧ h.vregs = c.gang.vregs ∧ h.kregs = c.gang.kregs ∧
        (complete → arrived t u ∧ (c.Free → c.GoesOn h c.after)) ∧
        (¬ complete → arrived t u ∧ ∃ f, h.frag? c.ref.frag = some f ∧ f.pc = c.after ∧
          f.wait = some (.barrier b.toNat x.phase)))) ∧
  (∀ (a b : BitVec 5) (cb : BitVec 1) (s : State) (c : Ctx), b.toNat < c.team.kernel.bars →
    (Runs (.barWait a b cb) s c → (c.team.bar b.toNat).phase ≠ (c.s a).setWidth 32 →
      CompletesAt (.barWait a b cb) s c c.after {} { core := fun x => { x with l1 := [] } } fun _ _ => True) ∧
    (Runs (.barWait a b cb) s c → (c.team.bar b.toNat).phase = (c.s a).setWidth 32 →
      ∃ t h f, exec (.barWait a b cb) s = .next t ∧ t.gang? c.ref.team c.ref.gang = some h ∧ h.frag? c.ref.frag = some f ∧
        f.wait = some (.barrier b.toNat (c.team.bar b.toNat).phase) ∧ f.pc = c.after ∧ Writes.Done {} c.w c.gang h ∧ c.Kept s t {}))

/-- R294: `yield` gives the gang a budget of 64 n units, with none counted, and writes what remains of the team's budget, or
0xFFFF_FFFF where it has none; where the budget has run out the team's gangs are stopped and nothing of the yield is performed.
Where the rules leave a point open, the statement follows the model: assumption 17. -/
def Obligations.Yield : Prop :=
  ∀ (d : BitVec 5) (n : BitVec 14) (cb : BitVec 1) (s : State) (c : Ctx), Runs (.yield d n cb) s c →
    (c.team.budget ≠ some 0 →
      let rem : Word := match c.team.budget with | none => 0xFFFFFFFF | some b => BitVec.ofNat 64 b
      ∃ t h, exec (.yield d n cb) s = .next t ∧ t.gang? c.ref.team c.ref.gang = some h ∧ c.Kept s t {} ∧
        h.wbudget = 64 * (immS n c.hints).toNat ∧ h.wcount = 0 ∧ (c.Free → c.GoesOn h c.after) ∧
        Writes.Done (.scalar d rem) c.w c.gang { h with wcount := c.gang.count.wcount, wbudget := c.gang.wbudget }) ∧
    (c.team.budget = some 0 →
      ∃ t u, exec (.yield d n cb) s = .next t ∧ t.team? c.ref.team = some u ∧ u.stopped = some .expired ∧ u.gangs.map Prod.fst =
        c.team.gangs.map Prod.fst ∧ ∀ h, t.gang? c.ref.team c.ref.gang = some h → h.sregs = c.gang.sregs ∧ h.wbudget = c.gang.wbudget)

/-- R29 to R35: a hint word is taken into the unit of the fragment, which goes on with its next word and changes nothing else; a
payload that is UNDEF makes the whole unit so. -/
def Obligations.HintWords : Prop :=
  ∀ (p : BitVec 22) (f : BitVec 1) (v r g : BitVec 6) (n : BitVec 3) (o : BitVec 2) (w : BitVec 1) (s : State) (c : Ctx),
    s.ctx? = some c →
    let takes (i : Instr) (h : Hint) : Prop :=
      ∃ t x, exec i s = .next t ∧ t.turn = some c.ref ∧ t.gang? c.ref.team c.ref.gang = some x ∧ c.Kept s t {} ∧
        x.noTable = c.gang.noTable ∧
        x.frag? c.ref.frag = some { c.frag with hints := (if fieldsOk i then h else .bad) :: c.frag.hints } ∧
        ∀ m, m ≠ c.ref.frag → SMap.get? x.entries m = SMap.get? c.gang.entries m
    takes (.hintImm p) (.imm p) ∧ takes (.hintVc f v r g n) (.vc f v r g n) ∧ takes (.hintOrd o) (.ord o) ∧
    takes (.hintSched w) (.sched w) ∧ takes (.hintOff p) (.off p)

/-! ### Exceptions and checks -/

/-- R343, R346, R348: a fault of any unit outside a handler, but for WATCHDOG and COMPAT, enters the context's handler with its class
and what it says in record 2g, and with RESUME at the unit itself; the record's SCOPE byte is that of the unit.
R346, R348, R353, R355: `trap n` and every `ill` enter the context's handler: class 0 with FBYTE n, resuming after the unit, and
class 2, resuming at it.
Where the rules leave a point open, the statement follows the model: assumption 71. -/
def Obligations.FaultEntry : Prop :=
  (∀ (i : Instr) (fi : FaultInfo) (s : State) (c : Ctx) (x : Xlat),
    s.ctx? = some c → c.CanRecord s (2 * c.ref.gang) x → c.gang.handler = none → c.ref.frag ≠ 12 → (s.vf c.vf).hentry ≠ 0 →
    fi.cls ≠ 16 → fi.cls ≠ 20 →
      c.Enters s (c.faulted i fi s) x (c.withScope s i fi) (wordOf i) c.frag.pc true) ∧
  (∀ (n : BitVec 6) (m : BitVec 25) (s : State) (c : Ctx) (x : Xlat),
    c.CanRecord s (2 * c.ref.gang) x → c.gang.handler = none → c.ref.frag ≠ 12 → (s.vf c.vf).hentry ≠ 0 →
    (Runs (.trap n) s c → ∃ t, exec (.trap n) s = .next t ∧
      c.Enters s t x { cls := 0, fbyte := BitVec.ofNat 64 n.toNat } (wordOf (.trap n)) c.after false) ∧
    (Runs (.ill m) s c → ∃ t, exec (.ill m) s = .next t ∧ c.Enters s t x { cls := 2 } (wordOf (.ill m)) c.frag.pc true))

/-- R348, R351, R352: a WATCHDOG, and a fault of a context without a handler, end the team with the fault in record 2g; a fault or a
`trap` of the fragment of a handler of the context's own ends it as DOUBLE, class 21, with the inner class in FBYTE of record
2g + 1, and leaves record 2g as it was. A fault's record says RESTART and resumes at the unit (R346); that of a `trap`, class 0,
does not, and resumes after it (R353). No handler is entered.
R349: a unit of another fragment that faults in handler mode is dropped, and its fragment stands at it as before. -/
def Obligations.TeamEndingFaults : Prop :=
  ∀ (i : Instr) (fi : FaultInfo) (m : BitVec 6) (s : State) (c : Ctx) (x : Xlat), s.ctx? = some c →
    let ends (t : State) (n cls : Nat) (bs : List Byte) : Prop := ∃ h u, t.team? c.ref.team = some u ∧ u.stopped = some (.fault cls) ∧
      t.gang? c.ref.team c.ref.gang = some h ∧ h.handler = c.gang.handler ∧ h.sregs = c.gang.sregs ∧
      h.vregs = c.gang.vregs ∧ h.kregs = c.gang.kregs ∧ h.fpm = c.gang.fpm ∧ c.Kept s t recordLoose ∧ c.Recorded s t n x bs
    let bytes (fi : FaultInfo) (word : IWord) (double restart : Bool) (resume : Word) : List Byte :=
      recordBytes (if double then { fi with cls := 21, fbyte := BitVec.ofNat 64 fi.cls } else fi) word c.frag.pc c.active
        (c.team.seq + 1) c.ref.gang double restart false resume
    (c.CanRecord s (2 * c.ref.gang) x → c.gang.handler = none → fi.cls ≠ 20 → fi.cls = 16 ∨ (s.vf c.vf).hentry = 0 →
      ends (c.faulted i fi s) (2 * c.ref.gang) fi.cls (bytes (c.withScope s i fi) (wordOf i) false true c.frag.pc)) ∧
    (∀ h, c.gang.handler = some h →
      (c.frag.handler = true → c.CanRecord s (2 * c.ref.gang + 1) x →
        (h.compat = false → ends (c.faulted i fi s) (2 * c.ref.gang + 1) 21 (bytes (c.withScope s i fi) (wordOf i) true true c.frag.pc)) ∧
        (Runs (.trap m) s c → ∃ t, exec (.trap m) s = .next t ∧
          ends t (2 * c.ref.gang + 1) 21 (bytes { cls := 0, fbyte := BitVec.ofNat 64 m.toNat } (wordOf (.trap m)) true false c.after))) ∧
      (c.frag.handler = false → ∃ y, (c.faulted i fi s).gang? c.ref.team c.ref.gang = some y ∧ y.noTable = c.gang.noTable ∧
        c.Kept s (c.faulted i fi s) {} ∧ y.frag? c.ref.frag = some { c.frag with hints := [] } ∧
        ∀ n, n ≠ c.ref.frag → SMap.get? y.entries n = SMap.get? c.gang.entries n))

/-- R354: `rte` of the one fragment of a handler, with record 2g of its trap readable and an aligned RESUME, ends handler mode: s28 to s31 and fpm
have the gang's own values again, every other register is kept, the handler's entries are free, and the trapped fragment goes
on at RESUME, with its chain and latches where that is IADDR and at the start of a chain where it is not.
R376, R379: where the record lies in an absent package the load gives an error response, which is logged, and the `rte` faults with PROT and
the record's address.
Where the rules leave a point open, the statement follows the model: assumptions 74, 105. -/
def Obligations.ReturnFromException : Prop :=
  ∀ (s : State) (c : Ctx) (r : Handler) (f : Fragment) (xs : List Xlat), Runs .rte s c → c.gang.handler = some r →
    c.gang.handlerParts = 1 → c.gang.frag? r.frag = some f → f.handler = false → f.active ≠ 0 → f.join = none →
    SMap.wf c.gang.entries = true →
      let u := c.counted s
      let a := r.record.toNat
      let p := findXlat xs a
      let ms := ((u.useXlats c.core c.vf kLoad xs).coreLoad c.core c.vf (p.pa a) 64 p.leaf).2
      let bs := if c.team.staged then c.team.staging.overlay a ms else ms
      let iaddr : Word := BitVec.ofNat 64 (ofBytes ((bs.drop 8).take 8))
      let resume : Word := BitVec.ofNat 64 (ofBytes ((bs.drop 56).take 8))
      u.translate c.core c.vf kLoad true [⟨a, 64, 0⟩] = .ok xs →
      (u.absent (p.pa a) = true → exec .rte s = .next (c.faulted .rte { cls := 10, fbyte := BitVec.ofNat 64 a }
        ((c.uncount (u.useXlats c.core c.vf kLoad xs)).event 1 c.die c.vf 10 13 a 0))) ∧
      (u.absent (p.pa a) = false → resume.toNat % 4 = 0 →
        ∃ t h, exec .rte s = .next t ∧ t.gang? c.ref.team c.ref.gang = some h ∧ h.handler = none ∧ h.fpm = r.fpm ∧
          (∀ n, 28 ≤ n → n < 32 → h.s n = ZMap.get r.saved n) ∧ (∀ n, n < 28 → h.s n = c.gang.s n) ∧
          h.vregs = c.gang.vregs ∧ h.kregs = c.gang.kregs ∧ h.accs = c.gang.accs ∧ h.flags = c.gang.flags ∧
          h.unread = c.gang.unread ∧ h.frag? r.frag = some { (if resume = iaddr then f else f.endChain) with pc := resume, wait := none, hints := [] } ∧
          ∀ n e, SMap.get? h.entries n = some e → e.inHandler = false)

/-- R21, R23, R26, R37: the checks that precede a vector instruction's own, in their order, on a unit without hints: a destination 63
is UNDEF (1), a register at or above the allotment REGRANGE (4), a source that names an invalid latch LATCH (5); a unit that
passes them runs.
R37, R40, R144, R273, R347: outside handler mode `sset` of fbase or slabq and `rte` are PRIV (3), and so is `swr` of entry 0 or 7
in any mode, once the registers that they read are there.
R295: a unit that would raise the count above the gang's budget, and that passes every other check, is not performed and faults
with WATCHDOG, class 16: stated of `sadd`, also where it is the unit at which a fragment stands, whose team then ends with the fault in
record 2g. That step is there for a unit that faults so when it is performed and for no other: not for one that waits, nor for one whose
own check fails.
Where the rules leave a point open, the statement follows the model: assumptions 57 and 70 (that a step that is not
there answers notEnabled is the model's choice). -/
def Obligations.UnitChecks : Prop :=
  (∀ (k : BitVec 3) (d a b : BitVec 6) (cb : BitVec 1) (s : State) (c : Ctx), s.ctx? = some c → c.hints = [] →
    let i := Instr.vand k d a b cb
    let high (v : BitVec 6) : Prop := v.toNat < 62 ∧ c.team.kernel.vregs ≤ v.toNat
    let stale (v : BitVec 6) : Prop := (v = 62 ∧ c.frag.v0 = false) ∨ (v = 63 ∧ c.frag.v1 = false)
    (d = 63 → exec i s = .next (c.faulted i { cls := 1 } s)) ∧
    (d ≠ 63 → high d ∨ high a ∨ high b → exec i s = .next (c.faulted i { cls := 4 } s)) ∧
    (d ≠ 63 → ¬ (high d ∨ high a ∨ high b) → stale a ∨ stale b → exec i s = .next (c.faulted i { cls := 5 } s)) ∧
    (d ≠ 63 → ¬ (high d ∨ high a ∨ high b) → ¬ (stale a ∨ stale b) → c.gang.mayCount = true → Runs i s c)) ∧
  (∀ (a b d : BitVec 5) (cb : BitVec 1) (n : BitVec 6) (s : State) (c : Ctx), s.ctx? = some c → c.hints = [] → c.gang.awaits c.frag.handler = [] → c.gang.inRtu = false →
    (c.gang.handler = none → n = 13 ∨ n = 14 → exec (.sset a n cb) s = .next (c.faulted (.sset a n cb) { cls := 3 } s)) ∧
    (c.gang.handler = none → exec .rte s = .next (c.faulted .rte { cls := 3 } s)) ∧
    (c.s a = 0 ∨ c.s a = 7 → exec (.swr d a b cb) s = .next (c.faulted (.swr d a b cb) { cls := 3 } s))) ∧
  ((∀ (d a b : BitVec 5) (cb : BitVec 1) (s : State) (c : Ctx), s.ctx? = some c → gate (.sadd d a b cb) c = .go →
    c.gang.handler = none → c.gang.wbudget ≤ c.gang.wcount →
      exec (.sadd d a b cb) s = .next (c.faulted (.sadd d a b cb) { cls := 16 } s)) ∧
  (∀ (team gang frag : Nat) (d a b : BitVec 5) (cb : BitVec 1) (s t : State) (c : Ctx) (x : Xlat), let i := Instr.sadd d a b cb
    s.fetchUnit ⟨team, gang, frag⟩ = .run i t → t.ctx? = some c → gate i c = .go → c.gang.handler = none → c.gang.wbudget ≤ c.gang.wcount →
    c.CanRecord t (2 * c.ref.gang) x → ∃ w u, exec (.watchdog team gang frag) s = .next w ∧ w.team? c.ref.team = some u ∧
      u.stopped = some (.fault 16) ∧ c.Kept t w recordLoose ∧ c.Recorded t w (2 * c.ref.gang) x
        (recordBytes (c.withScope t i { cls := 16 }) (wordOf i) c.frag.pc c.active (c.team.seq + 1) c.ref.gang false true false c.frag.pc)) ∧
  ∀ (team gang frag : Nat) (s t : State) (i : Instr) (c : Ctx), s.fetchUnit ⟨team, gang, frag⟩ = .run i t → t.ctx? = some c →
    (c.gang.mayCount = true → exec (.watchdog team gang frag) s = .fault .notEnabled) ∧
    (c.gang.mayCount = false → exec i t ≠ .next (c.faulted i { cls := 16 } t) → exec (.watchdog team gang frag) s = .fault .notEnabled) ∧
    (c.gang.mayCount = false → exec i t = .next (c.faulted i { cls := 16 } t) → exec (.watchdog team gang frag) s = exec i t))

/-- R24 to R26, R174: a performed unit with its chain bit set, at a position below 8, goes on at the next position; its vector result
becomes latch 0 and latch 0 latch 1, in every lane of the fragment's slices, those that took no part holding the destination's
word. A unit without the bit, or at position 8, ends its chain and makes both latches invalid. Stated of `vand`.
Where the rules leave a point open, the statement follows the model: assumption 28. -/
def Obligations.ChainsAndLatches : Prop :=
  ∀ (k : BitVec 3) (d a b : BitVec 6) (cb : BitVec 1) (s : State) (c : Ctx), Runs (.vand k d a b cb) s c → c.Free →
    ∃ t h f, exec (.vand k d a b cb) s = .next t ∧ t.gang? c.ref.team c.ref.gang = some h ∧ h.frag? c.ref.frag = some f ∧
      (cb = 1 → c.frag.pos < 8 → f.pos = c.frag.pos + 1 ∧ f.v0 = true ∧ f.v1 = c.frag.v0 ∧ f.l1 = c.frag.l0 ∧
        ∀ l, l ∈ lanesOf (wholeSlices c.active) →
          (l ∈ c.lanes k → ZMap.get f.l0 l = c.v a l &&& c.v b l) ∧
          (l ∉ c.lanes k → ZMap.get f.l0 l = if d = 62 then 0 else c.gang.v d.toNat l)) ∧
      (cb = 0 ∨ 8 ≤ c.frag.pos → f.pos = 1 ∧ f.v0 = false ∧ f.v1 = false)

/-- R56, R63, R64, R235: the faults of global accesses, lowest address first: ALIGN (8) for one that is not aligned to its size, PAGE (9) for one
that is not canonical. Where pages fail and the fault queue is off the unit faults with the lowest failing byte and the class of the page
that holds it, 9 where that page was not present or malformed and 10 where it was denied (an error response that a table gave is logged); where it is on the gang is suspended and the queue gets an entry for each failing page, with a tag of its own. Nothing is performed. Stated of `gld`
and `gst`.
R103, R105, R121, R128: the faults of local accesses, lowest address first: ALIGN (8) for one that is not aligned to its size, PROT
(10) for one out of its range, and OWNER (11) for a store or a Chamber atomic to a frame that an engine writes or reads; a load of a frame that is
being written waits and is tried again, and so does one that reads several frames of which one is not a thread's. Nothing is
performed. Stated of `ldl` and `stl` in the four spaces, of `ldfrag` and `stfrag`, whose base must be a multiple of 256, and of `catom`.
R217, R219, R223, R233: the checks of the matrix instructions in their order, and their faults: MSPLIT (6) where lanes of the gang
are missing; PROT (10) with reason 1 for a slot without a format, 2 for slots of two classes, 3 for a name bound in the other
mode; for an image ALIGN (8) where its base is no multiple of 256, PROT where a byte lies out of range, OWNER for `accst` to a frame
that an engine writes or reads, and for `accld` PROT with reason 4 where the image is malformed. Nothing is performed.
Where the rules leave a point open, the statement follows the model: assumptions 71, 134. -/
def Obligations.AccessFaults : Prop :=
  (∀ (k : BitVec 3) (d : BitVec 6) (b : BitVec 5) (o : BitVec 6) (f : BitVec 4) (z : BitVec 2) (cb : BitVec 1) (s : State) (c : Ctx),
    let faults (i : Instr) (sz kind : Nat) : Prop := Runs i s c →
      let as := (c.lanes k).map (c.laneAddress b (if o = 63 then none else some o) sz)
      let fault (cls a : Nat) : Prop := exec i s = .next (c.faulted i { cls := cls, fbyte := BitVec.ofNat 64 a } s)
      let lowest (bad : Nat → Prop) (a : Nat) : Prop := a ∈ as ∧ bad a ∧ ∀ x ∈ as, bad x → a ≤ x
      (∀ a, lowest (fun x => x % sz ≠ 0) a → fault 8 a) ∧
      ((∀ x ∈ as, x % sz = 0) → ∀ a, lowest (fun x => x / 2 ^ 54 ≠ 0 ∧ x / 2 ^ 54 ≠ 1023) a → fault 9 a) ∧
      ∀ bad, (∀ x ∈ as, x % sz = 0 ∧ (x / 2 ^ 54 = 0 ∨ x / 2 ^ 54 = 1023)) →
        (c.counted s).translate c.core c.vf kind c.priv (as.map fun a => ⟨a, sz, 0⟩) = .error bad →
          ((s.vf c.vf).fqen = false → exec i s = .next (c.faulted i (failInfo bad (as.map fun a => ⟨a, sz, 0⟩)) (s.logFails c.die c.vf bad)) ∧
            ∃ y a, y ∈ bad ∧ a ∈ as ∧ failInfo bad (as.map fun a => ⟨a, sz, 0⟩) = { cls := y.cls, fbyte := BitVec.ofNat 64 a } ∧
              a / 2 ^ 16 = y.va / 2 ^ 16 ∧ ∀ z ∈ bad, ∀ b ∈ as, b / 2 ^ 16 = z.va / 2 ^ 16 → a ≤ b) ∧
          ((s.vf c.vf).fqen = true → (s.vf c.vf).tagsInUse.length + bad.length < 2 ^ 40 → ∃ t tags h fr, exec i s = .next t ∧ tags.length = bad.length ∧ tags.Nodup ∧
            (∀ x ∈ tags, x ∉ (s.vf c.vf).tagsInUse ∧ x < 2 ^ 48) ∧
            t.gang? c.ref.team c.ref.gang = some h ∧ h.frag? c.ref.frag = some fr ∧
            fr = { c.frag with wait := some (.pageFault tags), hints := [] } ∧ h.noTable = c.gang.noTable ∧
            (t.vf c.vf).fqWaiting = (s.vf c.vf).fqWaiting ++ ((bad.zip tags).map fun p =>
              ({ va := BitVec.ofNat 64 p.1.va, vf := c.vf, origin := c.core, unit := c.gang.quad * 32 + c.ref.gang, kind,
                 reason := p.1.reason, level := p.1.level, plane := p.1.plane, tag := p.2 } : FqEntry)) ∧
            c.Kept (s.logFails c.die c.vf bad) t { vf := fun x => { x with fqWaiting := [], suspended := [] } })
    faults (.gld k d b o f cb) (2 ^ (f.toNat / 2)) kLoad ∧ faults (.gst k d b o z cb) (2 ^ z.toNat) kStore) ∧
  (∀ (k : BitVec 3) (d : BitVec 6) (b : BitVec 5) (o : BitVec 6) (p : BitVec 2) (l n cb : BitVec 1) (s : State) (c : Ctx) (a : Nat),
    let sz := if n = 1 then 4 else 8
    let as := (c.lanes k).map (c.laneAddress b (if l = 1 then none else some o) sz)
    let sp := p.toNat
    let faults (i : Instr) (cls : Nat) : Prop := exec i s = .next (c.faulted i { cls := cls, fbyte := BitVec.ofNat 64 a } s)
    (∀ i ∈ [Instr.ldl k d b o p l n cb, .stl k d b o p l n cb], Runs i s c →
      (lowestBad as (fun x => x % sz ≠ 0) a → faults i 8) ∧
      ((∀ x ∈ as, x % sz = 0) → lowestBad as (fun x => c.outside s sp x sz) a → faults i 10)) ∧
    ((∀ x ∈ as, x % sz = 0 ∧ ¬ c.outside s sp x sz) →
      (Runs (.stl k d b o p l n cb) s c →
        (c.team.staged = true → p = 3 → lowestBad as (fun _ => True) a → faults (.stl k d b o p l n cb) 10) ∧
        (lowestBad as (fun x => c.ownerAt s sp x ≠ none) a → faults (.stl k d b o p l n cb) 11)) ∧
      (Runs (.ldl k d b o p l n cb) s c →
        (∃ x ∈ as, ∃ w, c.ownerAt s sp x = some w ∧ (w.ew = true ∨ ∃ y ∈ as, c.frameOf sp y ≠ c.frameOf sp x)) →
          exec (.ldl k d b o p l n cb) s = .next (c.park s .frame)))) ∧
  (∀ (k m : BitVec 3) (d v : BitVec 6) (b : BitVec 5) (p : BitVec 2) (r h y z cb : BitVec 1) (op : BitVec 3) (s : State) (c : Ctx) (a : Nat),
    let base := (c.s b + BitVec.ofInt 64 (hintOffset c.hints)).toNat
    let faults (i : Instr) (cls : Nat) : Prop := exec i s = .next (c.faulted i { cls := cls, fbyte := BitVec.ofNat 64 a } s)
    let reads := (c.lanes k).flatMap fun l => (List.range 2).map fun j => fragAddr c.w base j l (r == 1) (h == 1)
    let slot := if y = 1 then some (c.team.slot m.toNat) else none
    let es := match slot with | some w => storeSize (slotFmt w) | none => 4
    let writes := (c.fragStores k d base es slot).map Prod.fst
    let sz := if z = 1 then 8 else 4
    let as := (lanesOf c.active).map (c.laneAddress b (some v) sz)
    let ld := Instr.ldfrag k d b p r h cb
    let st := Instr.stfrag k d b y m cb
    (Runs ld s c → (base % 256 ≠ 0 → a = base → faults ld 8) ∧
      (base % 256 = 0 → lowestBad reads (fun x => c.outside s p.toNat x 8) a → faults ld 10) ∧
      (base % 256 = 0 → (∀ x ∈ reads, ¬ c.outside s p.toNat x 8) →
        (∃ x ∈ reads, ∃ w, c.ownerAt s p.toNat x = some w ∧ (w.ew = true ∨ ∃ y ∈ reads, c.frameOf p.toNat y ≠ c.frameOf p.toNat x)) →
          exec ld s = .next (c.park s .frame))) ∧
    (Runs st s c → ((∃ w, slot = some w ∧ storeFmt (slotFmt w) = none) → a = base → faults st 10) ∧
      ((∀ w, slot = some w → storeFmt (slotFmt w) ≠ none) →
        (base % 256 ≠ 0 → a = base → faults st 8) ∧
        (base % 256 = 0 → lowestBad writes (fun x => c.outside s 1 x es) a → faults st 10) ∧
        (base % 256 = 0 → (∀ x ∈ writes, ¬ c.outside s 1 x es) → lowestBad writes (fun x => c.ownerAt s 1 x ≠ none) a → faults st 11))) ∧
    (∀ i ∈ [Instr.catom op d b v z m, .catomExch d b v z m, .catomCas d b v z m], Runs i s c → c.stale (c.counted s) m = none →
      (lowestBad as (fun x => x % sz ≠ 0) a → faults i 8) ∧
      ((∀ x ∈ as, x % sz = 0) → lowestBad as (fun x => c.outside s 1 x sz) a → faults i 10) ∧
      ((∀ x ∈ as, x % sz = 0 ∧ ¬ c.outside s 1 x sz) → lowestBad as (fun x => c.ownerAt s 1 x ≠ none) a → faults i 11))) ∧
  (∀ (p q a : BitVec 3) (v w d : BitVec 6) (b : BitVec 5) (e g f cb : BitVec 1) (s : State) (c : Ctx),
    let faults (i : Instr) (cls n : Nat) : Prop := exec i s = .next (c.faulted i { cls := cls, fbyte := BitVec.ofNat 64 n } s)
    let ca := fmtClass (slotFmt (c.team.slot p.toNat))
    let cb' := fmtClass (slotFmt (c.team.slot q.toNat))
    let old := SMap.get? c.gang.accs a.toNat
    let base := (c.s b + BitVec.ofInt 64 (hintOffset c.hints)).toNat
    let sp := if g = 1 then 2 else 1
    let as := (List.range (c.w / 2 * (c.w / 2))).map fun n => base + 8 * n
    (∀ i ∈ [Instr.mma p q a v w cb, .mmaZ p q a v w cb, .mmas p q a v w cb, .mmasZ p q a v w cb], Runs i s c →
      (c.active ≠ fullMask c.w → faults i 6 0) ∧
      (c.active = fullMask c.w → ca = 0 ∨ cb' = 0 → faults i 10 1) ∧
      (c.active = fullMask c.w → ca ≠ 0 → cb' ≠ 0 → ca ≠ cb' → faults i 10 2)) ∧
    (∀ i ∈ [Instr.mma p q a v w cb, .mmas p q a v w cb], Runs i s c → c.active = fullMask c.w → ca ≠ 0 → ca = cb' →
      ∀ x, old = some x → x.residue ≠ decide (ca = 1) → faults i 10 3) ∧
    (∀ i ∈ [Instr.accoutI32 a d cb, .accoutF32 p q a d w e cb, .accin a v f cb], Runs i s c → c.active ≠ fullMask c.w → faults i 6 0) ∧
    (∀ x, Runs (.accoutI32 a d cb) s c → c.active = fullMask c.w → old = some x → x.residue = false → faults (.accoutI32 a d cb) 10 3) ∧
    (∀ i ∈ [Instr.accst a b g cb, .accld a b g cb], Runs i s c → (base % 256 ≠ 0 → faults i 8 base) ∧
      ∀ x, base % 256 = 0 → lowestBad as (fun x => c.outside s sp x 8) x → faults i 10 x) ∧
    (base % 256 = 0 → (∀ x ∈ as, ¬ c.outside s sp x 8) →
      (∀ x, Runs (.accst a b g cb) s c → lowestBad as (fun x => c.ownerAt s sp x ≠ none) x → faults (.accst a b g cb) 11 x) ∧
      (Runs (.accld a b g cb) s c → c.loadWaits s sp as = false →
        (∃ x ∈ as, let y := c.localNum s sp 0 x 8
          let kind := y / 2 ^ 48 % 256
          kind ≠ c.localNum s sp 0 base 8 / 2 ^ 48 % 256 ∨ 2 < kind ∨ y / 2 ^ 56 ≠ 0 ∨ (kind ≠ 1 ∧ y / 2 ^ 32 % 2 ^ 16 ≠ 0) ∨
            (kind = 2 ∧ y % 2 ^ 32 ≠ 0) ∨ (kind = 1 ∧ rnOk (y % 2 ^ 32) = false)) → faults (.accld a b g cb) 10 4)))

/-! ### The matrix array -/

/-- R216 to R222, R227, R228: a product of a whole gang whose slots are of one class goes on where units are to be had and, for a Z
form, the arbiter lets it start. Each element of the tile that takes part gets the sum of its products and of what it held (of
nothing under Z, or where the name was unbound); a masked element keeps that. Residue products add one count each and set
RNCLAMP where an input is clamped and RNRANGE where a count passes 512. Only the name changes.
Where the rules leave a point open, the statement follows the model: assumption 12. -/
def Obligations.TileProducts : Prop :=
  ∀ (p q a : BitVec 3) (v w : BitVec 6) (cb : BitVec 1) (s : State) (c : Ctx),
    let slotA := c.team.slot p.toNat
    let slotB := c.team.slot q.toNat
    let cls := fmtClass (slotFmt slotA)
    let half := c.w / 2
    let old := SMap.get? c.gang.accs a.toNat
    let u := c.counted s
    let gives (i : Instr) (seg z : Bool) : Prop := ∀ us, Runs i s c → c.active = fullMask c.w → cls ≠ 0 →
      fmtClass (slotFmt slotB) = cls → (z = false → ∀ x, old = some x → x.residue = decide (cls = 1)) →
      (if z then c.takeUnits u else (old.map Acc.units).orElse fun _ => c.takeUnits u) = some us →
      (z = true → ∃ g, c.surge u s = .ok g) →
        ∃ x fl, CompletesAt i s c c.after { flags := fl, more := fun g => { g with accs := SMap.set g.accs a.toNat x } }
            matrixLoose (fun _ _ => True) ∧
          x.residue = decide (cls = 1) ∧ x.units = us ∧
          let before (n : Nat) : Nat := if z then 0 else (ZMap.get ((old.map Acc.val).getD []) n).toNat
          let count (n : Nat) : Nat := if z then 0 else (ZMap.get ((old.map Acc.count).getD []) n).toNat
          let code (v : BitVec 6) (r k : Nat) : Nat :=
            if cls = 3 then elem (c.vg v (k / 8) (r + k % 8 / 4 * half)) (k % 4) 16
            else elem (c.vg v (k / 16) (r + k % 16 / 8 * half)) (k % 8) 8
          let id (v : BitVec 6) (r : Nat) : Nat := elem (c.v v (r / 4)) (r % 4) 16
          let keep (i j : Nat) : Bool := !seg || (id (hintSeg c.hints).1 i == id (hintSeg c.hints).2 j &&
            id (hintSeg c.hints).1 i != 0xFFFF)
          let ins (i j : Nat) : List ((Int × Bool) × (Int × Bool)) := (List.range 32).map fun k =>
            (rnin (code v i k) (slotFmt slotA == 7), rnin (code w j k) (slotFmt slotB == 7))
          (∀ i j, i < half → j < half →
            let n := i * half + j
            (keep i j = false → (ZMap.get x.val n).toNat = before n ∧ (ZMap.get x.count n).toNat = count n) ∧
            (keep i j = true → cls = 1 → (ZMap.get x.count n).toNat = min (count n + 32) 65535 ∧
              ZMap.get x.val n = BitVec.ofNat 32 ((ins i j).foldl (fun y e => rnMac y e.1.1 e.2.1) (before n))) ∧
            (keep i j = true → cls ≠ 1 → (ZMap.get x.count n).toNat = count n ∧ ZMap.get x.val n = BitVec.ofNat 32 (sumTerms (fval f32 (before n) ::
              (List.range (if cls = 3 then 16 else 32)).map fun k => mulTerm (inputVal (slotFmt slotA) (code v i k))
                (inputVal (slotFmt slotB) (code w j k)) (slotScale slotA) (slotScale slotB))))) ∧
          fl = if cls ≠ 1 then 0 else
            let places := ((List.range half).flatMap fun i => (List.range half).map fun j => (i, j)).filter fun e => keep e.1 e.2
            (if places.any fun e => (ins e.1 e.2).any fun y => y.1.2 || y.2.2 then fRNCLAMP else 0) |||
              (if places.any fun e => decide (count (e.1 * half + e.2) ≤ 512 ∧ 512 < count (e.1 * half + e.2) + 32) then fRNRANGE else 0)
    gives (.mma p q a v w cb) false false ∧ gives (.mmaZ p q a v w cb) false true ∧
    gives (.mmas p q a v w cb) true false ∧ gives (.mmasZ p q a v w cb) true true

/-- R139, R140, R229: `acc.zero` binds its name to units that no name holds, in the mode of RN with every element and count zero;
`acc.rel` unbinds it; `acc.mov` moves the contents of a bound name, and of an unbound one the lack of any; of a name to itself it is UNDEF. What the name held before
drains.
R220, R230: `accout` of a whole gang writes the whole tile to the registers from vd on, in every lane and no other register, and
leaves the name as it is. An unbound name reads as zeros. `.i32` gives the signed number of each residue element; `.f32` gives one
rounding of it times the scales of the slots and of its column, a float element bit for bit without column scales, and one rounding
of the element times its column scale with them. -/
def Obligations.AccumulatorNames : Prop :=
  (∀ (a o : BitVec 3) (r cb : BitVec 1) (s : State) (c : Ctx),
    let units (n : BitVec 3) : List Nat := ((SMap.get? c.gang.accs n.toNat).map Acc.units).getD []
    let gives (i : Instr) (f : SMap Acc → SMap Acc) : Prop :=
      CompletesAt i s c c.after { more := fun g => { g with accs := f g.accs } } unitLoose fun t _ =>
        ∀ n q, ((t.core n).quad q).draining = ((s.core n).quad q).draining ++
          (if n = c.core ∧ q = c.gang.quad then (units a).map fun u => (u, some (c.ref.team, c.ref.gang)) else [])
    (∀ us, Runs (.accZero a r cb) s c → c.takeUnits (c.counted s) = some us →
      (∀ u ∈ us, u < 128 ∧ (∀ g ∈ s.quadGangs c.core c.gang.quad, u ∉ g.2.2.2.units) ∧
        u ∉ ((s.core c.core).quad c.gang.quad).draining.map Prod.fst) ∧
      us.length = c.w / 8 ∧
      gives (.accZero a r cb) fun m => SMap.set m a.toNat ⟨r == 1, us, [], []⟩) ∧
    (Runs (.accRel a cb) s c → gives (.accRel a cb) fun m => SMap.erase m a.toNat) ∧
    (Runs (.accMov a o cb) s c → SMap.get? c.gang.accs o.toNat = none → gives (.accMov a o cb) fun m => SMap.erase m a.toNat) ∧
    (∀ x, Runs (.accMov a o cb) s c → SMap.get? c.gang.accs o.toNat = some x → a ≠ o → units a ≠ x.units ∨ x.units = [] →
      gives (.accMov a o cb) fun m => SMap.erase (SMap.set m a.toNat x) o.toNat) ∧
    (s.ctx? = some c → exec (.accMov a a cb) s = .next (c.faulted (.accMov a a cb) { cls := 1 } s))) ∧
  (∀ (p q a : BitVec 3) (d w : BitVec 6) (e cb : BitVec 1) (s : State) (c : Ctx),
    let old := SMap.get? c.gang.accs a.toNat
    let gives (i : Instr) (f : Nat → Nat → Nat) : Prop := Runs i s c → c.active = fullMask c.w → Completes i s c
      { v := fun n l => if d.toNat ≤ n ∧ n < d.toNat + c.w / 8 ∧ l < c.w then
          some (mapElems 32 fun t => f (4 * (n - d.toNat) + l / (c.w / 4)) (2 * (l % (c.w / 4)) + t)) else none }
    let val (x : Acc) (i j : Nat) : Nat := (ZMap.get x.val (i * (c.w / 2) + j)).toNat
    let scale (j : Nat) : FVal := if e = 1 then fval f32 (elem (c.v w (j / 2)) (j % 2) 32) else .fin false 1 1
    let number (x : Acc) (i j : Nat) : FVal := .fin (decide (rndec (val x i j) < 0)) (rndec (val x i j)).natAbs 1
    0 < c.w / 8 →
    (old = none → gives (.accoutI32 a d cb) (fun _ _ => 0) ∧ gives (.accoutF32 p q a d w e cb) fun _ _ => 0) ∧
    (∀ x, old = some x → x.residue = true →
      gives (.accoutI32 a d cb) (fun i j => (rndec (val x i j) % 2 ^ 32).toNat) ∧
      gives (.accoutF32 p q a d w e cb) fun i j =>
        outF32 (mulTerm (number x i j) (scale j) (slotScale (c.team.slot p.toNat)) (slotScale (c.team.slot q.toNat)))) ∧
    (∀ x, old = some x → x.residue = false → e = 0 → gives (.accoutF32 p q a d w e cb) (val x)) ∧
    (∀ x, old = some x → x.residue = false → e = 1 → gives (.accoutF32 p q a d w e cb)
      fun i j => outF32 (mulTerm (fval f32 (val x i j)) (scale j) (1, 1) (1, 1))))

/-- R220, R231 to R233: `accin` of a whole gang and `accld` of a well-formed image bind their name, in its own units where it is bound,
to the elements that the group or the image holds; an image of KIND 2 unbinds it. `accin.i32` gives each element the residue word
of its number with a count of its magnitude over 16,129 rounded up, and sets RNRANGE as R231 says; `accld` takes values (in
canonical form) and counts as they stand. No lane register changes.
R118, R232, R233: `accst` writes the image of its name, eight bytes an element: the value with KIND 0 or 1 and the count of a
residue element, or KIND 2 throughout for an unbound name. The name and every register stay, and no other byte of a local space
changes.
Where the rules leave a point open, the statement follows the model: assumption 14. -/
def Obligations.AccumulatorMemory : Prop :=
  (∀ (a : BitVec 3) (v : BitVec 6) (b : BitVec 5) (g f cb : BitVec 1) (s : State) (c : Ctx) (us : List Nat),
    let half := c.w / 2
    let old := SMap.get? c.gang.accs a.toNat
    let u := c.counted s
    let binds (i : Instr) (fl : Nat) (res : Bool) (val : Nat → BitVec 32) (count : Nat → BitVec 16) : Prop :=
      (old.map Acc.units).orElse (fun _ => c.takeUnits u) = some us →
        ∃ x, CompletesAt i s c c.after { flags := fl, more := fun g => { g with accs := SMap.set g.accs a.toNat x } } unitLoose (fun _ _ => True) ∧
          x.residue = res ∧ x.units = us ∧ ∀ n, n < half * half → ZMap.get x.val n = val n ∧ ZMap.get x.count n = count n
    let el (n : Nat) : Nat := elem (c.vg v (n / half / 4) (n / half % 4 * (c.w / 4) + n % half / 2)) (n % half % 2) 32
    let num (n : Nat) : Int := sext (el n) 32
    let places (n : Nat) : Nat := ((num n).natAbs + 16128) / 16129
    let was (n : Nat) : Nat := match old with | some x => if x.residue then (ZMap.get x.count n).toNat else 0 | none => 0
    let sp := if g = 1 then 2 else 1
    let base := (c.s b + BitVec.ofInt 64 (hintOffset c.hints)).toNat
    let image (n : Nat) : Nat := c.localNum s sp 0 (base + 8 * n) 8
    let kind := image 0 / 2 ^ 48
    let all := List.range (half * half)
    (Runs (.accin a v f cb) s c → c.active = fullMask c.w →
      (f = 1 → binds (.accin a v f cb) 0 false (fun n => BitVec.ofNat 32 (el n)) fun _ => 0) ∧
      (f = 0 → binds (.accin a v f cb)
        (if ∃ n ∈ all, (num n < -8388480 ∨ 8388479 < num n) ∨ (512 < min (places n) 65535 ∧ was n ≤ 512) then fRNRANGE else 0)
        true (fun n => BitVec.ofNat 32 (rnOf (num n))) fun n => BitVec.ofNat 16 (min (places n) 65535))) ∧
    (Runs (.accld a b g cb) s c → 0 < half → base % 256 = 0 → c.localCheck u sp 8 1 (all.map fun n => base + 8 * n) = none →
      c.loadWaits u sp (all.map fun n => base + 8 * n) = false → (∀ n ∈ all, image n / 2 ^ 48 = kind) →
      (kind = 0 → (∀ n ∈ all, image n < 2 ^ 32) →
        binds (.accld a b g cb) 0 false (fun n => BitVec.ofNat 32 (image n)) fun _ => 0) ∧
      (kind = 1 → (∀ n ∈ all, rnOk (image n % 2 ^ 32) = true) →
        binds (.accld a b g cb) 0 true (fun n => BitVec.ofNat 32 (canon (image n % 2 ^ 32))) fun n => BitVec.ofNat 16 (image n / 2 ^ 32)) ∧
      (kind = 2 → (∀ n ∈ all, image n = 2 * 2 ^ 48) → CompletesAt (.accld a b g cb) s c c.after
        { more := fun g => { g with accs := SMap.erase g.accs a.toNat } } unitLoose fun _ _ => True))) ∧
  (∀ (a : BitVec 3) (b : BitVec 5) (g cb : BitVec 1) (s : State) (c : Ctx),
    let half := c.w / 2
    let u := c.counted s
    let sp := if g = 1 then 2 else 1
    let base := (c.s b + BitVec.ofInt 64 (hintOffset c.hints)).toNat
    let as := (List.range (half * half)).map fun n => base + 8 * n
    let word (n : Nat) : Nat := match SMap.get? c.gang.accs a.toNat with
      | none => 2 * 2 ^ 48
      | some x => if x.residue then 2 ^ 48 + (ZMap.get x.count n).toNat * 2 ^ 32 + (ZMap.get x.val n).toNat else (ZMap.get x.val n).toNat
    Runs (.accst a b g cb) s c → base % 256 = 0 → c.localCheck u sp 8 1 as = none → c.ownerFault u sp as = none → c.gang.releases = [] →
      CompletesAt (.accst a b g cb) s c c.after {} localLoose fun t h =>
        c.LocalStored s t h sp ((List.range (half * half)).map fun n => (0, base + 8 * n, toBytes (word n) 8)))

/-! ### Local and global memory -/

/-- R124, R126, R128: `ldl` gives each lane that takes part the word of 8 or 4 bytes at its address, and `ldfrag` the two registers of a
fragment, rows of 64 bytes with their 16-byte parts in order or swizzled by the row, where the addresses are aligned and in range
and no frame is being written. Codes of the space: 0 lane slice, 1 Chamber, 2 Gallery, 3 Grotto.
R124, R127, R128: `stl` stores the low 8 or 4 bytes of each lane that takes part at its address, and `stfrag` the accumulator output
layout of a group to the Chamber, row by row, in f32 or through a slot, whose invalid values set NVSTORE. No register but a flag
changes, and no other byte of a local space. -/
def Obligations.LocalAccesses : Prop :=
  (∀ (k : BitVec 3) (d : BitVec 6) (b : BitVec 5) (o : BitVec 6) (p : BitVec 2) (f n cb : BitVec 1) (s : State) (c : Ctx),
    let u := c.counted s
    let sz := if n = 1 then 4 else 8
    let ad (l : Nat) : Nat := c.laneAddress b (if f = 1 then none else some o) sz l
    let base := (c.s b + BitVec.ofInt 64 (hintOffset c.hints)).toNat
    let at_ (j l : Nat) : Nat :=
      let row := l % (c.w / 2)
      let x := (if n = 1 then 32 else 0) + 16 * j + 8 * (l / (c.w / 2))
      base + 64 * row + (if f = 1 then x else 16 * ((x / 16) ^^^ (row % 4)) + x % 16)
    (Runs (.ldl k d b o p f n cb) s c → c.localCheck u p.toNat sz sz ((c.lanes k).map ad) = none →
      c.loadWaits u p.toNat ((c.lanes k).map ad) = false →
        Completes (.ldl k d b o p f n cb) s c (.vector d (c.lanes k) fun l => BitVec.ofNat 64 (c.localNum s p.toNat l (ad l) sz))) ∧
    (Runs (.ldfrag k d b p f n cb) s c → base % 256 = 0 →
      let as := (c.lanes k).flatMap fun l => [at_ 0 l, at_ 1 l]
      c.localCheck u p.toNat 8 1 as = none → c.loadWaits u p.toNat as = false →
        Completes (.ldfrag k d b p f n cb) s c
          { v := fun r l => if d.toNat ≤ r ∧ r < d.toNat + 2 ∧ l ∈ c.lanes k then
              some (BitVec.ofNat 64 (c.localNum s p.toNat l (at_ (r - d.toNat) l) 8)) else none })) ∧
  (∀ (k : BitVec 3) (d : BitVec 6) (b : BitVec 5) (o : BitVec 6) (p : BitVec 2) (l n cb : BitVec 1) (e : BitVec 3) (s : State) (c : Ctx),
    let u := c.counted s
    let sz := if n = 1 then 4 else 8
    let ad (x : Nat) : Nat := c.laneAddress b (if l = 1 then none else some o) sz x
    let base := (c.s b + BitVec.ofInt 64 (hintOffset c.hints)).toNat
    let slot := c.team.slot e.toNat
    let es := if n = 1 then storeSize (slotFmt slot) else 4
    let el (x : Nat) : Nat × Bool := if n = 1 then narrow x slot else (x, false)
    let places : List (Nat × Nat × Nat) := (c.lanes k).flatMap fun x => (List.range (c.w / 8)).flatMap fun j => [(x, j, 0), (x, j, 1)]
    let src (y : Nat × Nat × Nat) : Nat := elem (c.vg d y.2.1 y.1) y.2.2 32
    let place (y : Nat × Nat × Nat) : Nat :=
      base + ((4 * y.2.1 + y.1 / (c.w / 4)) * (c.w / 2) + 2 * (y.1 % (c.w / 4)) + y.2.2) * es
    (Runs (.stl k d b o p l n cb) s c → c.localCheck u p.toNat sz sz ((c.lanes k).map ad) = none →
      c.team.staged = false ∨ p ≠ 3 ∨ c.lanes k = [] → c.ownerFault u p.toNat ((c.lanes k).map ad) = none → c.gang.releases = [] →
        ∃ m, CompletesAt (.stl k d b o p l n cb) s c c.after { more := fun g => { g with lane := m } } localLoose fun t h =>
          c.LocalStored s t h p.toNat ((c.lanes k).map fun x => (x, ad x, toBytes (c.v d x).toNat sz))) ∧
    (Runs (.stfrag k d b n e cb) s c → n = 0 ∨ (storeFmt (slotFmt slot)).isSome → base % 256 = 0 →
      c.localCheck u 1 es 1 (places.map place) = none → c.ownerFault u 1 (places.map place) = none → c.gang.releases = [] →
        CompletesAt (.stfrag k d b n e cb) s c c.after
          { flags := if places.any fun y => (el (src y)).2 then fNVSTORE else 0 } localLoose fun t h =>
            c.LocalStored s t h 1 (places.map fun y => (y.1, place y, toBytes (el (src y)).1 es))))

/-- R33, R128, R243, R244: a Chamber atomic takes every active lane in ascending order, whatever its mask registers: the lane's register
receives the word that the Chamber held, and the Chamber the result of the operation on it (add, min, max, minn, maxn, and, or,
xor; the exchange; the swap where the word equals the vc operand). Without an ordering hint nothing else changes; with one the
caches may be drained or discarded. -/
def Obligations.ChamberAtomics : Prop :=
  ∀ (o : BitVec 3) (d : BitVec 6) (b : BitVec 5) (v : BitVec 6) (z : BitVec 1) (p : BitVec 3) (s : State) (c : Ctx),
    let u := c.counted s
    let sz := if z = 1 then 8 else 4
    let bits := 8 * sz
    let ad (l : Nat) : Nat := c.laneAddress b (some v) sz l
    let as := (lanesOf c.active).map ad
    let arg (l : Nat) : Nat := (c.v d l).toNat % 2 ^ bits
    let gives (i : Instr) (f : Nat → Nat → Nat) (ret : Nat → Word) : Prop := Runs i s c → c.stale u p = none →
      c.localCheck u 1 sz sz as = none → c.ownerFault u 1 as = none → c.gang.releases = [] →
        let run := (lanesOf c.active).foldl (fun (r : Memory × List (Nat × Word)) l =>
          let old := ofBytes (Memory.bytes r.1 (ad l) sz)
          (Memory.store r.1 (ad l) (toBytes (f l old) sz), r.2 ++ [(l, ret old)])) (c.team.chamber, [])
        let ordered : Loose := { memLoose with team := fun x => { x with chamber := [] } }
        let plain : Loose := { team := fun x => { x with chamber := [] } }
        ∃ n, CompletesAt i s c c.after
          { v := fun r l => if r = d.toNat then (run.2.find? fun q => q.1 == l).map Prod.snd else none
            more := fun g => { g with unacked := n } } (if hintOrd c.hints = 0 then plain else ordered) fun t _ =>
              (∀ x a, t.team? c.ref.team = some x → ZMap.get x.chamber a = ZMap.get run.1 a) ∧
              (hintOrd c.hints < 2 → n = c.gang.unacked) ∧ c.MemKept s t [] fun _ => False
    gives (.catom o d b v z p)
      (fun l old =>
        let x := arg l
        match o.toNat with
        | 0 => (old + x) % 2 ^ bits
        | 1 => if sext old bits ≤ sext x bits then old else x
        | 2 => if sext old bits ≤ sext x bits then x else old
        | 3 => min old x
        | 4 => max old x
        | 5 => old &&& x
        | 6 => old ||| x
        | _ => old ^^^ x)
      (fun old => if z = 0 ∧ (o = 1 ∨ o = 2) then BitVec.ofInt 64 (sext old 32) else BitVec.ofNat 64 old) ∧
    gives (.catomExch d b v z p) (fun l _ => arg l) (BitVec.ofNat 64) ∧
    gives (.catomCas d b v z p) (fun l old => if old = arg l then (c.vc l).toNat % 2 ^ bits else old) (BitVec.ofNat 64)

/-- R62, R172, R173, R236, R239, R248: a load whose addresses pass the checks of R235 gives each lane, in order, the bytes that the core
holds or fetches, under the team's own staged bytes: `sld` a scalar register, `sldk` a mask register in the active lanes, `gld` one
of eight sizes, zero-extended or sign-extended, and `gld.f6p` eight containers of a nibble and two bits. `gpf` asks for the sectors
of each line that translates and writes no register; an error response that a table gives is logged (R376), and nothing else is.
Where the rules leave a point open, the statement follows the model: assumptions 73, 105 (staged bytes overlap by virtual address). -/
def Obligations.GlobalLoads : Prop :=
  ∀ (k : BitVec 3) (d : BitVec 6) (ds b : BitVec 5) (o : BitVec 6) (f : BitVec 4) (g : BitVec 2) (i : BitVec 14) (cb : BitVec 1)
    (s : State) (c : Ctx),
    let u := c.counted s
    let one := (c.s b + BitVec.ofInt 64 (immS i c.hints)).toNat
    let sz := 2 ^ (f.toNat / 2)
    let vo := if o = 63 then none else some o
    let as := (c.lanes k).map fun l => (l, c.laneAddress b vo sz l)
    let ext (x : Nat) : Word := if f.toNat % 2 = 1 then BitVec.ofInt 64 (sext x (8 * sz)) else BitVec.ofNat 64 x
    let e (l : Nat) : Nat := if o = 63 then 8 * l else (c.v o l).toNat
    let nib (l : Nat) : Nat := (c.s b + BitVec.ofNat 64 (e l / 2)).toNat
    let top (l : Nat) : Nat := (c.gang.s (b.toNat + 1) + BitVec.ofNat 64 (e l / 4)).toNat
    let of (l : Nat) (vs : List (Nat × Nat)) : Option Nat := (vs.find? fun p => p.1 == l).map Prod.snd
    let line (a : Nat) : Except PageFail Xlat := u.xlate c.core c.vf a kLoad c.priv
    let asks (a : Nat) : List Request := if canonical a then match line a with
      | .ok x => [⟨c.vf, a, x.pa a / 256, 15, x.leaf, g.toNat, false⟩]
      | .error _ => [] else []
    LoadsTo (.sld ds b i cb) s c (c.reach u kLoad 8 [one]) (fun v xs =>
      .scalar ds (BitVec.ofNat 64 (ofBytes (c.loadOne v xs one 8).2))) ∧
    LoadsTo (.sldk k b i cb) s c (c.reach u kLoad 8 [one]) (fun v xs =>
      .mask k (lanesOf c.active) fun l => (ofBytes (c.loadOne v xs one 8).2).testBit l) ∧
    LoadsTo (.gld k d b o f cb) s c (c.reach u kLoad sz (as.map Prod.snd)) (fun v xs =>
      { v := fun n l => if n = d.toNat then (of l (c.loadAll v xs sz as).2).map ext else none }) ∧
    LoadsTo (.gldF6p k d b o cb) s c (c.reachPlanes u b kLoad ((c.lanes k).map fun l => (e l, nib l, top l))) (fun v xs =>
      let ns := c.loadAll v xs 4 ((c.lanes k).map fun l => (l, nib l))
      let ts := c.loadAll ns.1 xs 2 ((c.lanes k).map fun l => (l, top l))
      { v := vecWrite d (c.lanes k) fun l => mapElems 8 fun j =>
          ((of l ts.2).getD 0 / 4 ^ j % 4) * 16 + (of l ns.2).getD 0 / 16 ^ j % 16 }) ∧
    (Runs (.gpf k b o g cb) s c → CompletesAt (.gpf k b o g cb) s c c.after {}
      { state := fun x => { x with flow := .reset }, core := fun x => { x with requests := [] } } fun t _ =>
      (∀ n, (t.core n).requests = (s.core n).requests ++
        if n = c.core then (c.lanes k).flatMap (fun l => asks (c.laneAddress b vo 256 l)) else []) ∧
      ((∀ l ∈ c.lanes k, let a := c.laneAddress b vo 256 l
        canonical a = true → ∀ e, line a = .error e → e.bus = none) → t.flow = s.flow))

/-- R172, R235, R237 to R239, R265, R362: stores whose addresses pass the checks store the low bytes of their register at each address: `sst`
eight of a scalar register, `gst` 1 to 8 of each lane that takes part, `gst.fsN` both f32 sub-elements through the slot, whose
invalid values set NVSTORE, and `gst.f6p` the nibble and two-bit planes of eight containers. No register but a flag changes.
Where the rules leave a point open, the statement follows the model: assumptions 14, 20, 23, 118 (the order of the bytes of planes that overlap). -/
def Obligations.GlobalStores : Prop :=
  ∀ (k : BitVec 3) (d : BitVec 6) (ds b : BitVec 5) (o : BitVec 6) (z : BitVec 2) (n : BitVec 3) (i : BitVec 14) (cb : BitVec 1)
    (s : State) (c : Ctx),
    let u := c.counted s
    let one := (c.s b + BitVec.ofInt 64 (immS i c.hints)).toNat
    let sz := 2 ^ z.toNat
    let vo := if o = 63 then none else some o
    let ad (sz l : Nat) : Nat := c.laneAddress b vo sz l
    let slot := c.team.slot n.toNat
    let es := storeSize (slotFmt slot)
    let part (l j : Nat) : Nat × Bool := narrow (elem (c.v d l) j 32) slot
    let e (l : Nat) : Nat := if o = 63 then 8 * l else (c.v o l).toNat
    let nib (l : Nat) : Nat := (c.s b + BitVec.ofNat 64 (e l / 2)).toNat
    let top (l : Nat) : Nat := (c.gang.s (b.toNat + 1) + BitVec.ofNat 64 (e l / 4)).toNat
    StoresAll (.sst ds b i cb) s c (c.reach u kStore 8 [one]) 0 [(one, 255, toBytes (c.s ds).toNat 8)] ∧
    StoresAll (.gst k d b o z cb) s c (c.reach u kStore sz ((c.lanes k).map (ad sz))) 0
      ((c.lanes k).map fun l => (ad sz l, 2 ^ sz - 1, toBytes (c.v d l).toNat sz)) ∧
    ((storeFmt (slotFmt slot)).isSome → StoresAll (.gstFs k d b o n cb) s c (c.reach u kStore (2 * es) ((c.lanes k).map (ad (2 * es))))
      (if (c.lanes k).any fun l => (part l 0).2 || (part l 1).2 then fNVSTORE else 0)
      ((c.lanes k).map fun l => (ad (2 * es) l, 2 ^ (2 * es) - 1, toBytes (part l 0).1 es ++ toBytes (part l 1).1 es))) ∧
    StoresAll (.gstF6p k d b o cb) s c (c.reachPlanes u b kStore ((c.lanes k).map fun l => (e l, nib l, top l))) 0
      ((c.lanes k).flatMap fun l =>
        [(nib l, 15, toBytes (((List.range 8).map fun j => elem (c.v d l) j 8 % 16 * 16 ^ j).sum) 4),
         (top l, 3, toBytes (((List.range 8).map fun j => elem (c.v d l) j 8 / 16 % 4 * 4 ^ j).sum) 2)])

/-- R33, R235, R240 to R247: atomics and reductions of a team that is not staged take every active lane in ascending order at the home
slice, whatever its mask registers: the word there becomes the operation's result, and a form that returns gives each lane the word
before, sign-extended for the signed minimum and maximum of 32 bits. The lanes of a reduction count as unacknowledged (R267). `gred.rn` sets RNRANGE for a malformed operand, and of a staged
team it is kept for the commit: word by word in `.x2`, each with a digest term of its own and charged as four bytes.
Where the rules leave a point open, the statement follows the model: assumptions 14, 20, 26 (the words, the charge and the terms of
a staged `gred.rn` are the model's choice). -/
def Obligations.GlobalAtomics : Prop :=
  ∀ (o : BitVec 3) (d : BitVec 6) (b : BitVec 5) (v : BitVec 6) (nr z f q m : BitVec 1) (o2 : BitVec 2) (p : BitVec 3) (s : State) (c : Ctx),
    let u := c.counted s
    let arg (l sz : Nat) : Nat := (c.v d l).toNat % 2 ^ (8 * sz)
    let lanes := (lanesOf c.active).length
    let gives (i : Instr) (sz fl acks : Nat) (fn : Nat → Nat → Option Nat) (ret : Option (Nat → Word)) : Prop :=
      ∀ w xs, Runs i s c → c.stale u p = none → c.team.staged = false → c.gang.releases = [] →
        let as := (lanesOf c.active).map fun l => (l, c.laneAddress b (some v) sz l)
        c.reachAtomic u sz (as.map Prod.snd) = .ok (w, xs) →
        let run := c.atomicAll (c.ordRelease w p) xs sz as fn
        ∃ n, CompletesAt i s c c.after
          { v := fun r l => match ret with
              | some g => if r = d.toNat then (run.2.find? fun x => x.1 == l).map fun x => g x.2 else none
              | none => none
            flags := fl
            more := fun g => { g with unacked := n } } memLoose fun t _ =>
              c.Kept (c.ordAcquire run.1 (w.latch c.vf c.core p.toNat)) t {} ∧ n = (if hintOrd c.hints < 2 then c.gang.unacked else if (w.latch c.vf c.core p.toNat).level = 0 then c.gang.unacked else 0) + acks ∧
              c.MemKept s t xs fun a => ∃ x ∈ as, let pa := (findXlat xs x.2).pa x.2; pa ≤ a ∧ a < pa + sz
    let sz := if z = 1 then 8 else 4
    let bits := 8 * sz
    let x (l : Nat) : Nat := arg l sz
    let fl (y : Nat) : Nat := if f = 1 ∧ isSub f32 y then y / 2 ^ 31 % 2 * 2 ^ 31 else y
    let red (x0 y0 : Nat) : Nat :=
      let x := fl x0
      let y := fl y0
      let lo := if orderkey 32 x ≤ orderkey 32 y then x else y
      let hi := if orderkey 32 x ≤ orderkey 32 y then y else x
      let sum := (fadd f32 .plain x y).1
      let r := if o2 = 0 then (if isNan f32 x then x ||| 0x400000 else if isNan f32 y then y ||| 0x400000
          else if isInf f32 x ∧ isInf f32 y ∧ x / 2 ^ 31 % 2 ≠ y / 2 ^ 31 % 2 then 0x7FC00000
          else if m = 1 ∧ isInf f32 sum ∧ ¬ isInf f32 x ∧ ¬ isInf f32 y then sum - 0x7F800000 + 0x7F7FFFFF else sum)
        else if o2 = 1 then lo else if o2 = 2 then hi
        else if isNan f32 x = isNan f32 y then hi else if isNan f32 x then y else x
      fl (if q = 1 ∧ isNan f32 r then 0x7FC00000 else r)
    let word (l j : Nat) : Nat := elem (c.v d l) j 32
    let rnWords (l : Nat) : List (Nat × Nat) := (if z = 1 then [0, 1] else [0]).map fun j => (c.laneAddress b (some v) sz l + 4 * j, word l j)
    let bad : Nat := if ((lanesOf c.active).flatMap rnWords).any fun w => !(rnOk w.2) then fRNRANGE else 0
    gives (.gatom o d b v nr z p) sz 0 0
      (fun l old => some (match o.toNat with
        | 0 => (old + x l) % 2 ^ bits
        | 1 => if sext old bits ≤ sext (x l) bits then old else x l
        | 2 => if sext old bits ≤ sext (x l) bits then x l else old
        | 3 => min old (x l)
        | 4 => max old (x l)
        | 5 => old &&& x l
        | 6 => old ||| x l
        | _ => old ^^^ x l))
      (if nr = 1 then none
        else some fun old => if z = 0 ∧ (o = 1 ∨ o = 2) then BitVec.ofInt 64 (sext old 32) else BitVec.ofNat 64 old) ∧
    gives (.gexch d b v z p) sz 0 0 (fun l _ => some (x l)) (some (BitVec.ofNat 64)) ∧
    gives (.gcas d b v z p) sz 0 0 (fun l old => if old = x l then some ((c.vc l).toNat % 2 ^ bits) else none) (some (BitVec.ofNat 64)) ∧
    (c.team.det = false ∨ o2 ≠ 0 → gives (.gredF f q m d b v o2 p) 4 0 lanes (fun l old => some (red old (word l 0))) none) ∧
    gives (.gredRn d b v z p) sz bad lanes (fun l old => some (rnadd (old % 2 ^ 32) (word l 0) +
        (if z = 1 then 2 ^ 32 * rnadd (old / 2 ^ 32) (word l 1) else 0))) none ∧
    (∀ w xs, Runs (.gredRn d b v z p) s c → c.stale u p = none → c.team.staged = true → c.gang.releases = [] →
      c.reachAtomic u sz ((lanesOf c.active).map fun l => c.laneAddress b (some v) sz l) = .ok (w, xs) →
      let ws := (lanesOf c.active).flatMap rnWords
      c.team.staging.addrs.length + 4 * (c.team.staging.writes.countP StagedWrite.isRed + ws.length) ≤ 4194304 →
        ∃ n, CompletesAt (.gredRn d b v z p) s c c.after { flags := bad, more := fun g => { g with unacked := n } }
          { memLoose with team := fun x => { x with staging := ⟨[], [], [], [], 0⟩ } } fun t _ =>
            (hintOrd c.hints < 2 → n = c.gang.unacked) ∧ c.MemKept s t xs (fun _ => False) ∧
            (t.team? c.ref.team).map Team.staging = some { c.team.staging with
              writes := c.team.staging.writes ++ ws.map fun w => .red w.1 (canon w.2)
              digest := ws.foldl (fun g w => g + digestTerm w.1 15 (canon w.2)) c.team.staging.digest })

/-- R43, R44, R46, R240, R241, R265 to R267: what a core sees of memory. A load within one sector, where the L1 and the die's remote partition
need give up no line, reads each byte from the L1, else from the remote partition (from the line of its own set, else from what another
set holds written), else from the home slice, and leaves memory as it was; a store within one line reads back on its core; a class T store also stands at the home slice, and
no other byte of memory changes but one that was written before and comes down; an atomic reads and writes the
home slice with the written bytes of its sector that the core's L1 holds, under whichever context, and the die's there before it, and leaves
them no copy of it.
Where the rules leave a point open, the statement follows the model: assumptions 14, 16, 18, 73, 122 (what a load brings of a sector
that the L1 does not hold is the model's reading). -/
def Obligations.CoreMemory : Prop :=
  ∀ (s : State) (core vf pa n : Nat) (leaf : Word),
    let die := core / 64
    let l1 := getLine (s.core core).l1 vf (pa / 256)
    let rem := s.remoteLine die vf (pa / 256)
    let byte (i : Nat) : Byte :=
      match l1.bind fun l => l.byte? ((pa + i) % 256) with
      | some x => x
      | none => match rem.bind fun l => l.byte? ((pa + i) % 256) with
        | some x => x
        | none => s.dieByte die (pa + i)
    (0 < n → pa % 64 + n ≤ 64 → l1.isSome ∨ (s.core core).l1.length < 512 →
      rem.isSome ∨ ((s.die die).remoteMates (pa / 256) (l2Set (s.die die).tbits (s.vf vf).pix (pa / 256 * 256))).length < (s.die die).rways →
        (s.coreLoad core vf pa n leaf).1.mem = s.mem ∧
        (s.coreLoad core vf pa n leaf).2 = (List.range n).map byte) ∧
    (∀ bs, pa % 256 + bs.length ≤ 256 → s.absent pa = false →
      let t := s.coreStore core vf pa leaf bs
      (∀ i, i < bs.length → t.l1Byte core vf (pa + i) = bs.getD i 0 ∧ (pteWp leaf = true → ZMap.get t.mem (pa + i) = bs.getD i 0)) ∧
      ∀ a, a < pa ∨ pa + bs.length ≤ a → ¬ s.written core a → ZMap.get t.mem a = ZMap.get s.mem a) ∧
    (∀ f : Nat → Option Nat, n = 4 ∨ n = 8 → pa % n = 0 → s.absent pa = false →
      let u := s.beforeAtomic core vf pa n
      let t := (u.atomicAt vf pa n leaf f).1
      let old := (u.atomicAt vf pa n leaf f).2
      let last (ls : List Line) (i : Nat) : Option Byte :=
        (ls.reverse.find? fun l => decide (l.num = pa / 256) && bit l.dirty ((pa + i) % 256)).map fun l => ZMap.get l.data ((pa + i) % 256)
      let own := (s.core core).l1.filter fun l => decide (l.vf = vf)
      let others := (s.core core).l1.filter fun l => decide (l.vf ≠ vf)
      (∀ i, i < n → old / 256 ^ i % 256 = ((((last own i).orElse fun _ => last others i).orElse fun _ => last (s.die die).remote i).getD
        (ZMap.get s.mem (pa + i))).toNat) ∧
      (∀ y, f old = some y → ∀ i, i < n → (ZMap.get t.mem (pa + i)).toNat = y / 256 ^ i % 256) ∧
      (f old = none → ∀ i, i < n → (ZMap.get t.mem (pa + i)).toNat = old / 256 ^ i % 256) ∧
      ∀ i, i < n → ∀ l, l ∈ (t.core core).l1 ∨ l ∈ (t.die die).remote → l.num = pa / 256 → l.byte? ((pa + i) % 256) = none)

/-! ### The copy engine -/

/-- R95, R97, R103, R104, R108, R110, R114 to R117: a copy whose record is well formed, whose sides are in range and aligned, whose pages
translate and whose frames are free is in flight after its issue: its destination frames are EW, each source frame has one more
reader and no other frame changes, its scope is latched, nothing has moved, and its token register awaits the token. `tstat` gives
two bits for each of 32 frames: T, EW, ER, or 3 where there is no such frame. Where a frame is not free the copy waits for its frames at its
issue, and where the core has 32 copies the issue waits for one of them to end; nothing has moved.
R97, R110: the faults of a copy's issue in their order, with nothing moved: a record that is no multiple of 64 ALIGN (8) with its address; a
malformed record PROT (10) with the address of the lowest byte that is wrong; a copy to a far space of a staged team PROT with the
record's address; a byte out of its local range PROT with the lowest such byte; and a strided side that is not aligned ALIGN with its
base.
Where the rules leave a point open, the statement follows the model: assumptions 25, 27, 84, 114, 133 (the code 3 of `tstat.gal` for a
core that is not of the group, and which bytes of a shared frame offend, are the model's). -/
def Obligations.CopyIssue : Prop :=
  ∀ (d a b : BitVec 5) (v : BitVec 6) (cb : BitVec 1) (s : State) (c : Ctx),
    let u := c.counted s
    let issues (i : Instr) (kind n : Nat) (ready : State → Shape → Prop) (plan : State → Shape → RowPlan) : Prop :=
      ∀ w bs y, Runs i s c → c.gang.releases = [] → (s.core c.core).copies.length < 32 →
        SMap.wf (s.core c.core).copies = true → c.readRecord u (c.s a).toNat 128 = .ok (w, bs) →
        let x := Shape.parse kind bs
        let p := plan w x
        let slot := c.team.slot x.slot
        let ms := (List.range (moveCount x kind p.rows.length p.sides.length)).map fun q => moveAt x slot kind p.rows p.sides q
        let es := if x.planar then 1 else if x.stridedSource then x.srcSize else x.dstSize slot
        let dst := distinct (ms.flatMap fun m => m.dst.frames c.ref.team c.core x.mcast)
        let src := distinct (ms.flatMap fun m => m.src.toList.flatMap fun z => z.frames c.ref.team c.core 0)
        shapeBad kind bs x slot c.team.group c.core c.w n = [] → c.team.staged = false ∨ spaceFar x.dspace = false → ready w x →
        c.nearBad w x ms ++ p.bad ++ (if kind = 2 then sideShares x slot p else []) = [] →
        x.stridedBase % es = 0 → (∀ st ∈ x.strides, st % (es : Int) = 0) →
        c.copyPages w x.planar ms (fun sp => x.localSpace == sp) = .ok y →
        let cp : Copy := {
          team := c.ref.team, gang := c.ref.gang, sd := d.toNat, kind := kind, shape := x, rows := p.rows, sides := p.sides, next := 0
          dst := dst, src := src, scope := ⟨x.scope, 0, 0, [], 0⟩, bytes := 0, count := p.count, status := 0
          released := !(spaceFar x.dspace), written := [], vf := c.vf, banked := c.priv, nth := (c.gang.handler.map Handler.nth).getD 0 }
        let free : Prop := (∀ f ∈ dst, y.owner? f = none) ∧ ∀ f ∈ src, y.frameEW f = false
        (¬ free → exec i s = .next (c.park (c.uncount y) (.copyFrames cp (wordOf i) c.next (cb == 1)))) ∧
        (free →
          CompletesAt i s c c.after { more := fun g => { g with pending := g.pending ++ (if d = 0 then [] else [d.toNat]) } }
            { memLoose with
              core := fun z => { z with l1 := [], fifo := [], tlb := [], copies := [], galFrames := [] }
              team := fun z => { z with frames := [] } } fun t _ =>
            (∀ f, (f ∈ dst → f ∉ src → t.owner? f = some ⟨true, 0⟩) ∧
              (f ∈ src → f ∉ dst → ∃ o, t.owner? f = some o ∧ o.ew = false ∧
                o.readers = ((s.owner? f).map Owner.readers).getD 0 + 1) ∧
              (f ∉ dst → f ∉ src → t.owner? f = s.owner? f)) ∧
            (∃ id, SMap.get? (s.core c.core).copies id = none ∧
              SMap.get? (t.core c.core).copies id = some { cp with scope := s.latch c.vf c.core x.scope } ∧
              ∀ k, k ≠ id → SMap.get? (t.core c.core).copies k = SMap.get? (s.core c.core).copies k) ∧
            c.MemMarked s t)
    let faults (i : Instr) (kind n : Nat) (ready : State → Shape → Prop) (plan : State → Shape → RowPlan) : Prop :=
      Runs i s c → c.gang.releases = [] → (s.core c.core).copies.length < 32 →
      let fault (v : State) (cls a : Nat) : Prop := exec i s = .next (c.faulted i { cls := cls, fbyte := BitVec.ofNat 64 a } v)
      let ra := (c.s a).toNat
      (ra % 64 ≠ 0 → fault s 8 ra) ∧
      ∀ w bs, c.readRecord u ra 128 = .ok (w, bs) →
        let x := Shape.parse kind bs
        let p := plan w x
        let slot := c.team.slot x.slot
        let ms := (List.range (moveCount x kind p.rows.length p.sides.length)).map fun q => moveAt x slot kind p.rows p.sides q
        let es := if x.planar then 1 else if x.stridedSource then x.srcSize else x.dstSize slot
        let wrong := shapeBad kind bs x slot c.team.group c.core c.w n
        let out := c.nearBad w x ms ++ p.bad ++ (if kind = 2 then sideShares x slot p else [])
        (∀ o, lowestBad wrong (fun _ => True) o → fault (c.uncount w) 10 (ra + o)) ∧
        (wrong = [] →
          (c.team.staged = true → spaceFar x.dspace = true → fault (c.uncount w) 10 ra) ∧
          (c.team.staged = false ∨ spaceFar x.dspace = false → ready w x →
            (∀ o, lowestBad out (fun _ => True) o → fault (c.uncount w) 10 o) ∧
            (out = [] → x.stridedBase % es ≠ 0 ∨ (∃ st ∈ x.strides, st % (es : Int) ≠ 0) → fault (c.uncount w) 8 x.stridedBase)))
    let list (x : Shape) : List Nat := bytesFrom (x.aux % 2 ^ 32) (8 * (x.aux / 2 ^ 32))
    let status (f : Nat → Nat) : Word := BitVec.ofNat 64 (((List.range 32).map fun i => f ((c.s a).toNat + i) * 4 ^ i).sum)
    let code (f : FrameId) : Nat := match s.owner? f with | none => 0 | some o => if o.ew then 1 else 2
    let read (w : State) (x : Shape) : Prop := (∀ m ∈ list x, m < c.team.chamberBytes) ∧ c.loadWaits w 1 (list x) = false
    issues (.tcopy d a cb) 0 0 (fun _ _ => True) (fun _ _ => ⟨[], [], 0, []⟩) ∧
    issues (.tgath d a b v cb) 1 (c.s b).toNat (fun _ _ => True) (fun _ x => c.gatherRows x v (c.s b).toNat) ∧
    issues (.trag d a cb) 2 0 read (fun w x => ragRows x (c.segments w x)) ∧
    faults (.tcopy d a cb) 0 0 (fun _ _ => True) (fun _ _ => ⟨[], [], 0, []⟩) ∧
    faults (.tgath d a b v cb) 1 (c.s b).toNat (fun _ _ => True) (fun _ x => c.gatherRows x v (c.s b).toNat) ∧
    faults (.trag d a cb) 2 0 read (fun w x => ragRows x (c.segments w x)) ∧
    (∀ i ∈ [Instr.tcopy d a cb, .tgath d a b v cb, .trag d a cb], Runs i s c → c.gang.releases = [] → 32 ≤ (s.core c.core).copies.length →
      exec i s = .next (c.park s (.copyIssue d.toNat))) ∧
    GivesScalar (.tstat d a cb) s c d (status fun n => if n < c.team.chamberBytes / 2048 then code ⟨false, c.ref.team, n⟩ else 3) ∧
    (∀ l, c.team.group = some l → (c.s b).toNat < 8 → GivesScalar (.tstatGal d a b cb) s c d (status fun n =>
      let core := c.core / 8 * 8 + (c.s b).toNat
      if n < c.team.kernel.gallery / 2048 ∧ core ∈ l then code ⟨true, core, n⟩ else 3))

/-- R95, R98, R100, R104, R106 to R109: the steps of the engine. A copy begins once those of its core that issued earlier have begun. A waiting copy takes its frames once they are free and its fragment
goes on; each move reads its source bytes, or has zeros or given ones, converts and writes them; a move that cannot be made stops the
copy with its code and writes nothing; a frame that no move left touches returns; a finished copy to global memory releases what it
wrote to the cores of its scope; and once every frame has returned the token tells the bytes and the fill count, or the status, and
the copy is over.
R104, R108, R295, R348, R349: a copy whose issue waited for its frames takes them when every one is free: it is in flight, and its fragment goes
on with the word after the unit; a handler of its gang does not hold it up. Its token register awaits the token while it waits as well: a unit
that names the register waits. Of s28 to s31 a handler's copies write those of the run of the handler in which they issued, and others the
values that the handler keeps for its gang. A copy whose next move reaches host memory may be stopped with code 2 (R107, R376).
Where the rules leave a point open, the statement follows the model: assumptions 70, 82, 85, 97, 102, 126 (what a step that is not enabled
answers, what a register that awaits a result holds up, a token of an earlier run of the handler, the token's fields modulo their widths, a window moved in
flight and planes that overlap are the model's choice). -/
def Obligations.CopyEngine : Prop :=
  (∀ (core id : Nat) (s : State) (cp : Copy), s.copy? core id = some cp →
    let m := moveAt cp.shape (s.copySlot cp) cp.kind cp.rows cp.sides cp.next
    let copies : Nat := if m.dst.space = 2 ∧ cp.shape.mcast ≠ 0 then (mcastCores cp.shape.mcast core).length else 1
    let first : Prop := ∀ y ∈ (s.core core).copies, y.1 < id → y.2.next ≠ 0 ∨ y.2.done = true
    let moved (v : State) (bs : List Byte) (nv : Bool) : Prop := ∀ w secs, cp.done = false → first →
      v.engineWrites core cp m.dst.space (m.dst.addrs.zip bs) = .ok (w, secs) →
        exec (.copyElementMove core id) s = .next ((if nv then w.modGang cp.team cp.gang fun g => g.raise fNVSTORE else w).modCopy
          core id fun c => { c with
            next := c.next + 1
            bytes := if m.counted then c.bytes + copies * bs.length else c.bytes
            written := secs.foldl (fun l x => SMap.set l x.1 (SMap.getD l x.1 0 ||| x.2)) c.written })
    (∀ x v bs, m.src = some x → s.engineReads core cp x.space x.addrs = .ok (v, bs) →
      moved v (cp.convert (s.copySlot cp) bs).1 (cp.convert (s.copySlot cp) bs).2) ∧
    (m.src = none → moved s m.fill false) ∧
    (cp.done = false → first → exec (.copyStop core id 3) s = .next (s.modCopy core id fun c => { c with status := 3 })) ∧
    (cp.done = false → ¬ first → exec (.copyElementMove core id) s = .fault .notEnabled) ∧
    (∀ e, cp.done = false → first →
      (s.nextMoveOf core id cp = .error e ∧ e ≠ 3) ∨ (e = 2 ∧ (∃ v a, s.nextMoveOf core id cp = .ok v ∧ s.hostByte core cp = some a)) →
      ∃ t, exec (.copyStop core id e) s = .next t ∧ t.copy? core id = some { cp with status := e } ∧ t.mem = s.mem ∧ t.teams = s.teams ∧
        t.dies = s.dies ∧ ∀ n, (t.core n).gallery = (s.core n).gallery ∧ (t.core n).l1 = (s.core n).l1) ∧
    (∀ n f, (cp.dst ++ cp.src)[n]? = some f →
      (spaceFar cp.shape.dspace = false → s.frameBusy core cp f = false →
        exec (.frameReturn core id n) s = .next ((s.setOwner f none).modCopy core id fun c => { c with dst := c.dst.erase f })) ∧
      (spaceFar cp.shape.dspace = true → cp.done = true → cp.released = true → ∀ o, s.owner? f = some o →
        exec (.frameReturn core id n) s = .next ((s.setOwner f (if o.readers ≤ 1 then none else some ⟨false, o.readers - 1⟩)).modCopy
          core id fun c => { c with src := c.src.erase f }))) ∧
    (cp.done = true → cp.released = false → ∃ t, exec (.copyCompletionRelease core id) s = .next t ∧
      t.copy? core id = some { cp with released := true } ∧ t.teams = s.teams ∧ t.vfs = s.vfs ∧
      (∀ n, n ∈ s.cores.map Prod.fst → bit cp.scope.cores n = true → ∀ l ∈ (t.core n).l1, ∀ m o, SMap.get? cp.written l.num = some m →
        o < 256 → bit m o = true → bit l.valid (o / 64) = false) ∧
      ∀ b, ZMap.get t.mem b = ZMap.get s.mem b ∨ ∃ m, SMap.get? cp.written (b / 256) = some m ∧ bit m (b % 256) = true ∧
        ∃ l ∈ (s.die (core / 64)).remote, l.num = b / 256 ∧
          bit l.dirty (b % 256) = true ∧ ZMap.get t.mem b = ZMap.get l.data (b % 256)) ∧
    (∀ u g, cp.done = true → cp.released = true → cp.dst = [] → cp.src = [] → s.team? cp.team = some u → u.gangs ≠ [] →
      s.gang? cp.team cp.gang = some g → g.handler = none → cp.banked = false → ∃ t h, exec (.tokenWrite core id) s = .next t ∧
        t.copy? core id = none ∧ t.mem = s.mem ∧ t.gang? cp.team cp.gang = some h ∧
        (∀ n, h.s n = if n = cp.sd ∧ n ≠ 0 then (if cp.status = 0 then BitVec.ofNat 64 (cp.bytes % 2 ^ 48 + cp.count % 2 ^ 15 * 2 ^ 48)
          else BitVec.ofNat 64 (cp.bytes % 2 ^ 48 + 2 ^ 63 + cp.status % 128 * 2 ^ 56)) else g.s n) ∧
        h.vregs = g.vregs ∧ h.kregs = g.kregs ∧ h.accs = g.accs ∧ h.entries = g.entries ∧
        h.pending = (if cp.sd = 0 then g.pending else g.pending.erase cp.sd)) ∧
    (∀ u g r, cp.done = true → cp.released = true → cp.dst = [] → cp.src = [] → s.team? cp.team = some u → u.gangs ≠ [] →
      s.gang? cp.team cp.gang = some g → g.handler = some r → 28 ≤ cp.sd → cp.sd < 32 → ∃ t h q, exec (.tokenWrite core id) s = .next t ∧
        t.copy? core id = none ∧ t.gang? cp.team cp.gang = some h ∧ h.handler = some q ∧
        (cp.banked = false → h.sregs = g.sregs ∧ h.pending = g.pending ∧ ZMap.get q.saved cp.sd = cp.token) ∧
        (cp.banked = true → r.nth = cp.nth → h.s cp.sd = cp.token ∧ q = r) ∧ (cp.banked = true → r.nth ≠ cp.nth → h = g))) ∧
  (∀ (team gang frag : Nat) (s : State) (u : Team) (g : Gang) (f : Fragment) (cp : Copy) (word : IWord) (nxt : Word) (ch : Bool),
    s.team? team = some u → s.gang? team gang = some g → g.frag? frag = some f → f.wait = some (.copyFrames cp word nxt ch) →
    u.status = .running → u.stopped = none → g.handler = none → s.framesFree cp = true → g.mayCount = true →
    (s.core g.core).copies.length < 32 → SMap.wf (s.core g.core).copies = true → f.join = none → SMap.wf g.entries = true → cp.team = team → cp.gang = gang →
      ∃ t h x id, exec (.copyFrameTake team gang frag) s = .next t ∧ t.gang? team gang = some h ∧ h.frag? frag = some x ∧
        x.pc = nxt ∧ x.wait = none ∧ x.active = f.active ∧ h.wcount = g.count.wcount ∧ h.sregs = g.sregs ∧ h.vregs = g.vregs ∧
        h.kregs = g.kregs ∧ h.accs = g.accs ∧ t.mem = s.mem ∧ SMap.get? (s.core g.core).copies id = none ∧
        t.copy? g.core id = some { cp with scope := s.latch cp.vf g.core cp.scope.entry } ∧
        (∀ y ∈ cp.dst, y ∉ cp.src → (y.gal = true ∨ y.owner = team) → t.owner? y = some ⟨true, 0⟩) ∧
        (cp.sd ≠ 0 → cp.sd ∈ h.pending)) ∧
  (∀ (team gang frag : Nat) (s : State) (u : Team) (g : Gang) (r : Handler) (f : Fragment) (cp : Copy) (word : IWord) (nxt : Word) (ch : Bool),
    s.team? team = some u → s.gang? team gang = some g → g.frag? frag = some f → f.wait = some (.copyFrames cp word nxt ch) →
    u.status = .running → u.stopped = none → g.handler = some r → r.compat = false → f.handler = false →
    s.framesFree cp = true → g.mayCount = true → (s.core g.core).copies.length < 32 → SMap.wf (s.core g.core).copies = true →
    f.join = none → SMap.wf g.entries = true → cp.team = team → cp.gang = gang → cp.banked = false → 28 ≤ cp.sd →
      ∃ t h x q id, exec (.copyFrameTake team gang frag) s = .next t ∧ t.gang? team gang = some h ∧ h.frag? frag = some x ∧
        x.pc = nxt ∧ x.wait = none ∧ SMap.get? (s.core g.core).copies id = none ∧
        t.copy? g.core id = some { cp with scope := s.latch cp.vf g.core cp.scope.entry } ∧ h.sregs = g.sregs ∧ h.pending = g.pending ∧
        h.handler = some q ∧ cp.sd ∈ q.pending ∧ q.saved = r.saved) ∧
  (∀ (d a b : BitVec 5) (cb : BitVec 1) (s : State) (c : Ctx) (n : Nat) (f : Fragment) (w : Wait), s.ctx? = some c → c.hints = [] →
    c.gang.frag? n = some f → f.handler = c.frag.handler → f.wait = some w →
    w = .copyIssue d.toNat ∨ (∃ cp word nxt ch, w = .copyFrames cp word nxt ch ∧ cp.sd = d.toNat) → d ≠ 0 →
      exec (.sadd d a b cb) s = .next (c.park s .scoreboard))

/-! ### Order and scopes -/

/-- R256 to R258, R261, R262, R266, R271: a fence whose entry is not stale latches its scope and writes no register. `fence.rel` above core
level leaves a pending release and changes nothing else; at core level it is complete. An acquire above core level leaves the core's L1
its written bytes alone, and above die level the remote partitions of its dies. A pending release completes once the gang's class T stores
are acknowledged, which come one by one; with it, what the core's L1 had written in a line that its FIFO lists stands at the L2 level, and above
die level at the home slice, where no other context or die has written the line.
Where the rules leave a point open, the statement follows the model: assumptions 14, 42. -/
def Obligations.Fences : Prop :=
  ∀ (n : BitVec 3) (cb : BitVec 1) (s : State) (c : Ctx),
    let l := s.latch c.vf c.core n.toNat
    let clean (t : State) : Prop := l.level ≠ 0 → (∀ x ∈ (t.core c.core).l1, x.valid = 0) ∧
      (l.level ≠ 1 → ∀ d ∈ l.dies, ∀ x ∈ (t.die d).remote, x.valid = 0)
    let loose : Loose := if l.level = 0 then {} else memLoose
    (c.stale (c.counted s) n = none →
      (Runs (.fenceRel n cb) s c → l.level ≠ 0 →
        Completes (.fenceRel n cb) s c { more := fun g => { g with releases := g.releases ++ [l] } }) ∧
      (Runs (.fenceRel n cb) s c → l.level = 0 → Completes (.fenceRel n cb) s c {}) ∧
      (Runs (.fenceAcq n cb) s c → CompletesAt (.fenceAcq n cb) s c c.after {} loose fun t _ => t.mem = s.mem ∧ clean t) ∧
      (Runs (.fenceAcqrel n cb) s c → CompletesAt (.fenceAcqrel n cb) s c c.after
        { more := fun g => { g with unacked := if l.level = 0 then g.unacked else 0 } } loose fun t _ => clean t ∧
          c.MemKept s t [] fun _ => False)) ∧
    ∀ (team gang : Nat) (g : Gang), s.gang? team gang = some g →
      (0 < g.unacked → exec (.classTStoreAck team gang) s = .next (s.modGang team gang fun g => { g with unacked := g.unacked - 1 })) ∧
      (∀ r rest, g.releases = r :: rest → g.unacked = 0 → ∃ t h, exec (.releaseCompletion team gang) s = .next t ∧
        t.gang? team gang = some h ∧ h = { g with releases := rest } ∧
        (∀ x, (x ∈ (s.core g.core).l1 ∨ ∃ d, x ∈ (s.die d).remote) → ∀ y, (y ∈ (s.core g.core).l1 ∨ ∃ d, y ∈ (s.die d).remote) →
          x.num = y.num → x.vf = y.vf) →
        ∀ x b, getLine (s.core g.core).l1 x.vf x.num = some x → fifoKey x.vf x.num ∈ (s.core g.core).fifo → x.vf < 16 →
          b / 256 = x.num → bit x.dirty (b % 256) = true → r.level ≠ 0 →
            s.absent b = false →
            (∀ d, d ≠ g.core / 64 → ∀ y ∈ (s.die d).remote, y.num = x.num → bit y.dirty (b % 256) = false) →
            t.l2Byte (g.core / 64) x.vf b = ZMap.get x.data (b % 256) ∧
            (2 ≤ r.level → g.core / 64 ∈ r.dies → ZMap.get t.mem b = ZMap.get x.data (b % 256)))

/-- R252, R253, R255, R257, R272 to R275: `sbind` gives an entry's generation and holds the gang's binding to it, `sbind.clr` drops the
binding. `swr` of entry 1 to 6 with a well-formed image replaces the entry as one step: its fields from the image, its generation advanced by
one, its meeting level computed; every other entry stays. It gives the new generation once no operation holds the old one, and
waits until then. `srd` gives one of the eight words of an entry's image. `icinv` completes where its scope has no core and waits for the
cores of its scope otherwise; a core that it reaches has no instruction cached, nor does its die's remote partition hold a byte that was
not written there, and no core of the scope has one cached when it completes.
Where the rules leave a point open, the statement follows the model: assumptions 41, 42. -/
def Obligations.ScopeTable : Prop :=
  ∀ (n : BitVec 3) (d a b : BitVec 5) (cb : BitVec 1) (s : State) (c : Ctx),
    let u := c.counted s
    let e := s.scope c.vf c.core n.toNat
    (Runs (.sbind d n cb) s c → Completes (.sbind d n cb) s c
      { s := fun m => if m = d.toNat then some (e.gen.setWidth 64) else none
        more := fun g => { g with bindings := SMap.set g.bindings n.toNat e.gen } }) ∧
    (Runs (.sbindClr n cb) s c → Completes (.sbindClr n cb) s c
      { more := fun g => { g with bindings := SMap.erase g.bindings n.toNat } }) ∧
    (Runs (.srd d a b cb) s c → (c.s a).toNat < 8 → (c.s b).toNat < 8 →
      Completes (.srd d a b cb) s c (.scalar d (let x := s.scope c.vf c.core (c.s a).toNat
        BitVec.ofNat 64 ((x.cores.toNat + x.pkgs.toNat * 2 ^ 256 + x.rpart.toNat * 2 ^ 320 + (if x.host then 2 ^ 324 else 0) +
          x.gen.toNat * 2 ^ 328 + (if x.valid then 2 ^ 336 else 0) + x.meet.toNat * 2 ^ 337) / 2 ^ (64 * (c.s b).toNat))))) ∧
    (∀ v bs, Runs (.swr d a b cb) s c → 1 ≤ (c.s a).toNat → (c.s a).toNat ≤ 6 → c.team.staged = false →
      c.readRecord u (c.s b).toNat 64 = .ok (v, bs) → let x := ofBytes bs
      x / 2 ^ 340 = 0 → x / 2 ^ 325 % 8 = 0 →
        let m := (c.s a).toNat
        let n := (SMap.getD (s.vf c.vf).scope m .empty).writes + 1
        let gen : BitVec 8 := BitVec.ofNat 8 n
        let loose : Loose := { memLoose with
          core := fun y => { y with l1 := [], fifo := [], tlb := [], rlb := [] }
          vf := fun y => { y with scope := [] } }
        let written (t : State) : Prop := c.MemMarked s t ∧
          (∃ y, SMap.get? (t.vf c.vf).scope m = some y ∧ y.cores = BitVec.ofNat 256 x ∧ y.pkgs = BitVec.ofNat 64 (x / 2 ^ 256) ∧
            y.rpart = BitVec.ofNat 4 (x / 2 ^ 320) ∧ y.host = x.testBit 324 ∧ y.valid = x.testBit 336 ∧ y.writes = n ∧
            y.meet.toNat = scopeLevel s.board.pkg y) ∧
          (∀ w k, ¬ (w = c.vf ∧ k = m) → SMap.get? (t.vf w).scope k = SMap.get? (s.vf w).scope k) ∧
          ∀ k r, r ∈ (t.core k).rlb → r ∈ (s.core k).rlb
        (s.oldGen c.vf m n = false →
          CompletesAt (.swr d a b cb) s c c.after (.scalar d (gen.setWidth 64)) loose fun t _ => written t) ∧
        (s.oldGen c.vf m n = true →
          ∃ t h f, exec (.swr d a b cb) s = .next t ∧ t.gang? c.ref.team c.ref.gang = some h ∧ h.frag? c.ref.frag = some f ∧
            f.wait = some (.scopeWrite m d.toNat n) ∧ f.pc = c.after ∧ Writes.Done {} c.w c.gang h ∧ c.Kept s t loose ∧ written t)) ∧
    (Runs (.icinv n cb) s c → c.stale u n = none → SMap.wf s.icinvs = true →
      let cores := (List.range 256).filter fun k => !e.valid || bit e.pkgs s.board.pkg || bit e.cores k
      let l := s.latch c.vf c.core n.toNat
      let w : Writes := { more := fun g => { g with unacked := if l.level = 0 then g.unacked else 0 } }
      (cores = [] → CompletesAt (.icinv n cb) s c c.after w memLoose fun t _ => c.MemKept s t [] fun _ => False) ∧
      (cores ≠ [] → ∃ t h f id, exec (.icinv n cb) s = .next t ∧ t.gang? c.ref.team c.ref.gang = some h ∧ h.frag? c.ref.frag = some f ∧
        f.wait = some (.icinv id) ∧ f.pc = c.after ∧ w.Done c.w c.gang h ∧ SMap.get? s.icinvs id = none ∧
        SMap.get? t.icinvs id = some ⟨c.vf, l, cores, cores⟩ ∧ (∀ k, k ≠ id → SMap.get? t.icinvs k = SMap.get? s.icinvs k) ∧
        c.Kept s t { memLoose with state := fun x => { x with mem := [], flow := .reset, icinvs := [] } } ∧ c.MemKept s t [] fun _ => False)) ∧
    (∀ id core x, SMap.get? s.icinvs id = some x → core ∈ x.cores → ∃ t, exec (.invalidationReachesCore id core) s = .next t ∧
      (t.core core).icache = [] ∧ (∀ q, q ∈ (t.core core).quads → q.2.loop = none ∧ q.2.loopWords = []) ∧ t.mem = s.mem ∧
      (∀ l ∈ (t.die (core / 64)).remote, l.valid = 0) ∧
      let left := x.cores.filter fun k => k != core
      (left ≠ [] → SMap.get? t.icinvs id = some { x with cores := left } ∧ t.teams = s.teams) ∧
      (left = [] → (∀ k ∈ x.all, (t.core k).icache = []) ∧ SMap.get? t.icinvs id = none ∧ ∀ m g p y k f, s.team? m = some y → SMap.get? y.gangs g = some k →
        k.frag? p = some f → f.wait = some (.icinv id) → f.join = none → SMap.wf k.entries = true →
          ∃ h z, t.gang? m g = some h ∧ h.frag? p = some z ∧ z.wait = none ∧ z.pc = f.pc))

/-! ### Tasks, counters, queues and merge units -/

/-- R307, R308, R309, R317: `spawn` of a well-formed record, whose kernel header can be read and where the die's table has room, gives a handle
of the die, a generation and a slot that no task has, whose task holds the record's fields and its spawner's attributes: held where its
counter is not zero, else ready. A staged team withholds the task until its commit.
R308, R317, R318: `tabort` of a handle that names no live task of the context does nothing; of one that has not been dispatched `retry` does
nothing, and `drop` takes it out of the table; the team of one that has been dispatched is stopped for the cause, a discard taking the place of a return, unless it retires already, having
completed. Of no handle in a
grid's gang, and of a malformed one, it faults with PROT, reason 9.
Where the rules leave a point open, the statement follows the model: assumptions 5, 44, 45, 114, 131. -/
def Obligations.Tasks : Prop :=
  (∀ (d a : BitVec 5) (cb : BitVec 1) (s : State) (c : Ctx) (v w : State) (bs : List Byte) (k : Kernel) (slot gen : Nat),
    Runs (.spawn d a cb) s c → c.readRecord (c.counted s) (c.s a).toNat 64 = .ok (v, bs) →
    readKernel c.reader v (fieldAt bs 0 8) = (w, some k) → taskBad (s.vf c.vf) c.team.tenant (some k) bs = [] →
    w.freeSlot c.die = some (slot, gen) →
      let handle : Word := BitVec.ofNat 64 (c.die * 2 ^ 32 + gen * 2 ^ 16 + slot)
      let waitc := (counterField (s.vf c.vf) (fieldAt bs 16 4)).join
      let is (y : Task) : Prop := y.gen = gen ∧ y.vf = c.vf ∧ y.kernel = k ∧ y.argp = BitVec.ofNat 64 (fieldAt bs 8 8) ∧ y.waitc = waitc ∧
        y.decc = (counterField (s.vf c.vf) (fieldAt bs 20 4)).join ∧
        y.budget = (if fieldAt bs 24 4 = 0xFFFFFFFF then none else some (fieldAt bs 24 4)) ∧ y.prio = fieldAt bs 28 1 ∧
        y.gangs = fieldAt bs 29 1 ∧ y.tenant = c.team.tenant ∧ y.qsel = fieldAt bs 31 1 ∧ y.lidx = BitVec.ofNat 64 (fieldAt bs 32 8) ∧
        y.stat = BitVec.ofNat 64 (fieldAt bs 40 8) ∧ y.slots = c.team.slots ∧ y.det = c.team.det ∧ y.home = c.die
      let ready (y : Task) : Prop := y.state = (match waitc with
        | some n => if (s.counter n).count = 0 then .ready else .held
        | none => .ready)
      SMap.get? (s.die c.die).tasks slot = none ∧ gen = SMap.getD (s.die c.die).taskGen slot 0 % 65535 + 1 ∧
      (c.team.staged = false → CompletesAt (.spawn d a cb) s c c.after
        { s := fun n => if n = d.toNat then some handle else none, more := fun g => { g with unacked := 0 } }
        { memLoose with die := fun x =>
            { x with l2 := [], cavern := [], remote := [], tlb := [], rcgCount := [], tasks := [], taskGen := [] } } fun t _ =>
          c.MemMarked s t ∧ (∃ y, SMap.get? (t.die c.die).tasks slot = some y ∧ is y ∧ ready y) ∧
          ∀ m n, ¬ (m = c.die ∧ n = slot) → SMap.get? (t.die m).tasks n = SMap.get? (s.die m).tasks n ∧
            SMap.get? (t.die m).taskGen n = SMap.get? (s.die m).taskGen n) ∧
      (c.team.staged = true → CompletesAt (.spawn d a cb) s c c.after (.scalar d handle)
        { memLoose with
          die := fun x => { x with l2 := [], cavern := [], remote := [], tlb := [], rcgCount := [], taskGen := [] }
          team := fun x => { x with staging := ⟨[], [], [], [], 0⟩ } } fun t _ => c.MemMarked s t ∧
            ∃ y, is y ∧ (t.team? c.ref.team).map Team.staging =
              some { c.team.staging with ops := c.team.staging.ops ++ [.spawn c.die slot (s.die c.die).ref y] })) ∧
  (∀ (a : BitVec 5) (cb : BitVec 1) (s : State) (c : Ctx),
    let h := c.s a
    let die := h.toNat / 2 ^ 32 % 4
    let slot := h.toNat % 2 ^ 16
    let live (y : Task) : Prop := y.gen = h.toNat / 2 ^ 16 % 2 ^ 16 ∧ y.vf = c.vf
    let each (i : Instr) (cause : StopCause) : Prop := Runs i s c →
      let ended (u : Team) : StopCause := if u.stopped = some .retry ∧ cause = .dropped then .dropped else u.stopped.getD cause
      (h ≠ 0 → h.toNat < 2 ^ 34 → (∀ y, SMap.get? (s.die die).tasks slot = some y → ¬ live y) → Completes i s c {}) ∧
      (h ≠ 0 → h.toNat < 2 ^ 34 → ∀ y m, SMap.get? (s.die die).tasks slot = some y → live y → y.state = .running ∨ y.state = .suspended →
        s.teamOfTask die slot = some m → m ≠ c.ref.team → ∀ u, s.team? m = some u →
        (u.gangs ≠ [] ∨ s.teamCopies m = true → ∃ t g, exec i s = .next t ∧ t.gang? c.ref.team c.ref.gang = some g ∧
          Writes.Done {} c.w c.gang g ∧ t.team? m = some { u with stopped := some (ended u) } ∧
          (∀ n, n ≠ m → n ≠ c.ref.team → t.team? n = s.team? n) ∧ t.mem = s.mem ∧ t.dies = s.dies ∧ (c.Free → c.GoesOn g c.after)) ∧
        (u.gangs = [] → s.teamCopies m = false → Completes i s c {})) ∧
      (∀ g, h = 0 → c.team.own = .grid g → exec i s = .next (c.faulted i { cls := 10, fbyte := 9 } s)) ∧
      (2 ^ 34 ≤ h.toNat → exec i s = .next (c.faulted i { cls := 10, fbyte := 9 } s))
    each (.tabortRetry a cb) .retry ∧ each (.tabortDrop a cb) .dropped ∧
    (∀ y, h ≠ 0 → h.toNat < 2 ^ 34 → SMap.get? (s.die die).tasks slot = some y → live y → y.state = .held ∨ y.state = .ready →
      (Runs (.tabortRetry a cb) s c → Completes (.tabortRetry a cb) s c {}) ∧
      (Runs (.tabortDrop a cb) s c → y.stat = 0 →
        CompletesAt (.tabortDrop a cb) s c c.after {} { die := fun x => { x with tasks := [] } } fun t _ =>
          SMap.get? (t.die die).tasks slot = none ∧
          ∀ m n, ¬ (m = die ∧ n = slot) → SMap.get? (t.die m).tasks n = SMap.get? (s.die m).tasks n)))

/-- R302, R303, R309, R317: `launch` of a record that R303 accepts gives an identifier that is not zero and that no grid has and no withheld
launch has reserved, whose grid holds the record's fields; of one that it refuses gives 0, and starts no grid. A staged team withholds
the launch with its record and identifier, or the refusal with its status address and code, until its commit, and reads the same.
Where the rules leave a point open, the statement follows the model: assumptions 5, 43, 51, 131, 132 (that a record whose header or
image cannot be read is malformed, and which of several codes is given, are the model's choice). -/
def Obligations.LaunchOfGrid : Prop :=
  ∀ (d a : BitVec 5) (cb : BitVec 1) (s : State) (c : Ctx) (v w : State) (bs : List Byte) (x : LaunchIn),
    Runs (.launch d a cb) s c → c.readRecord (c.counted s) (c.s a).toNat 256 = .ok (v, bs) → readLaunch c.reader v bs = (w, x) →
      let code := w.launchCode c.vf x
      let loose : Loose := { memLoose with
        state := fun x => { x with mem := [], grids := [], flow := .reset }
        core := fun y => { y with l1 := [], fifo := [], tlb := [], rlb := [] }
        vf := fun y => { y with scope := [] } }
      let f := fieldAt bs
      let free (id : Nat) : Prop := id ≠ 0 ∧ SMap.get? s.grids id = none ∧
        ∀ y ∈ s.teams, ∀ o ∈ y.2.staging.ops, ∀ g l, o ≠ .launch id g l
      let asRecord (g : Grid) : Prop := ∃ k, x.kernel = some k ∧ g.vf = c.vf ∧ g.die = c.die ∧ g.kernel = k ∧ g.teams = f 8 4 ∧
        g.gangs = f 12 1 ∧ g.clgrp = f 19 1 ∧ g.argp = BitVec.ofNat 64 (f 32 8) ∧ g.statusAddr = BitVec.ofNat 64 (f 40 8) ∧
        g.prio = f 57 1 ∧ g.tenant = f 58 1 ∧ g.det = (f 60 4).testBit 0 ∧ g.staged = (f 60 4).testBit 1 ∧
        g.coop = (f 60 4).testBit 2 ∧ g.twin = (f 60 4).testBit 3 ∧ g.cluster = (f 60 4).testBit 4 ∧
        g.slots = ((List.range 8).map fun i => BitVec.ofNat 64 (f (64 + 8 * i) 8)) ∧ g.finished = 0 ∧ g.next = 0
      (c.team.staged = false → code = 0 → ∃ id, free id ∧ CompletesAt (.launch d a cb) s c c.after
          { s := fun n => if n = d.toNat then some (BitVec.ofNat 64 id) else none, more := fun g => { g with unacked := 0 } } loose fun t _ =>
            c.MemMarked s t ∧ (∀ n, n ≠ id → SMap.get? t.grids n = SMap.get? s.grids n) ∧
            ∃ g, SMap.get? t.grids id = some g ∧ asRecord g) ∧
      (c.team.staged = false → code ≠ 0 → ∃ t h, exec (.launch d a cb) s = .next t ∧ t.gang? c.ref.team c.ref.gang = some h ∧
        h.s d.toNat = 0 ∧ (∀ n, n ≠ d.toNat → h.s n = c.gang.s n) ∧ h.vregs = c.gang.vregs ∧ h.kregs = c.gang.kregs ∧
        h.accs = c.gang.accs ∧ h.flags = c.gang.flags ∧ t.grids = s.grids ∧ (c.Free → c.GoesOn h c.after)) ∧
      (c.team.staged = true → ∃ id o, CompletesAt (.launch d a cb) s c c.after (.scalar d (BitVec.ofNat 64 id))
        { memLoose with team := fun x => { x with staging := ⟨[], [], [], [], 0⟩ } } fun t _ => c.MemMarked s t ∧
          (t.team? c.ref.team).map Team.staging = some { c.team.staging with ops := c.team.staging.ops ++ [o] } ∧
          (code = 0 → free id ∧ ∃ g, o = .launch id g (x.images.getD []) ∧ asRecord g) ∧
          (code ≠ 0 → id = 0 ∧ o = .refused (BitVec.ofNat 64 (f 40 8)) code))

/-- R309, R319: `depset` gives a counter of the context its value with UF clear, `depdec` gives the word before and subtracts S(sb), or 1 where sb
is s0, leaving 0 with UF set where the count is less, and `depread` gives the word. A counter that becomes 0 makes its held tasks ready. A
staged team withholds the first two. A name of 2^18 or more, or one whose index is below the context's first or past its last (so the
first less 1 and the first plus the count), faults with PROT, reason 10, and so does a `depset` of a value of 2^32 or more. -/
def Obligations.DependenceCounters : Prop :=
  ∀ (d a b : BitVec 5) (cb : BitVec 1) (s : State) (c : Ctx) (name : Nat),
    let x := s.counter name
    let word : Word := BitVec.ofNat 64 (x.count.toNat + if x.uf then 2 ^ 32 else 0)
    let value := if b = 0 then 1 else (c.s b).toNat % 2 ^ 32
    let lo := (s.vf c.vf).counters.1
    let names : Prop := c.s a = BitVec.ofNat 64 name ∧ name < 2 ^ 18 ∧ lo ≤ name % 2 ^ 16 ∧ name % 2 ^ 16 < lo + (s.vf c.vf).counters.2
    let loose : Loose := { memLoose with die := fun x =>
      { x with l2 := [], cavern := [], remote := [], tlb := [], rcgCount := [], counters := [], tasks := [] } }
    let staged : Loose := { team := fun x => { x with staging := ⟨[], [], [], [], 0⟩ } }
    let holds (t : State) (o : StagedOp) : Prop := (t.team? c.ref.team).map Team.staging =
      some { c.team.staging with ops := c.team.staging.ops ++ [o] }
    let idle : Writes := { more := fun g => { g with unacked := 0 } }
    (∀ i ∈ [Instr.depset a b cb, .depdec d a b cb, .depread d a cb], Runs i s c →
      2 ^ 18 ≤ (c.s a).toNat ∨ (c.s a).toNat % 2 ^ 16 < lo ∨ lo + (s.vf c.vf).counters.2 ≤ (c.s a).toNat % 2 ^ 16 →
        exec i s = .next (c.faulted i { cls := 10, fbyte := 10 } s)) ∧ (names →
    (Runs (.depset a b cb) s c → 2 ^ 32 ≤ (c.s b).toNat →
      exec (.depset a b cb) s = .next (c.faulted (.depset a b cb) { cls := 10, fbyte := 10 } s)) ∧
    (Runs (.depset a b cb) s c → (c.s b).toNat < 2 ^ 32 →
      (c.team.staged = false → CompletesAt (.depset a b cb) s c c.after idle loose fun t _ =>
        c.MemMarked s t ∧ CounterSet s t name ⟨BitVec.ofNat 32 (c.s b).toNat, false⟩) ∧
      (c.team.staged = true → CompletesAt (.depset a b cb) s c c.after {} staged fun t _ => holds t (.depset name (c.s b).toNat))) ∧
    (Runs (.depdec d a b cb) s c →
      (c.team.staged = false → CompletesAt (.depdec d a b cb) s c c.after { idle with s := (Writes.scalar d word).s } loose fun t _ =>
        c.MemMarked s t ∧
        CounterSet s t name (if x.count.toNat < value then ⟨0, true⟩ else ⟨BitVec.ofNat 32 (x.count.toNat - value), x.uf⟩)) ∧
      (c.team.staged = true → CompletesAt (.depdec d a b cb) s c c.after (.scalar d word) staged fun t _ => holds t (.depdec name value))) ∧
    (Runs (.depread d a cb) s c → CompletesAt (.depread d a cb) s c c.after (.scalar d word) memLoose fun t _ => t.mem = s.mem))

/-- R320, R321, R328: Chamber queues are rings of eight-byte entries. `qinit` makes a queue empty over its ring; `qpush` to one that is not full
stores its word behind the newest; `qpop` of one that is not empty, and `qtry`, take the oldest; `qtry` of an empty one gives two
zeros. A `qpush` to a full queue, a `qpop` of an empty one and one of an entry in an EW frame wait (R105). `qpush` to the gate queue adds an entry with the context and the attributes of the gang's grid.
R212 to R214: `cmrg.put` of a gang that has not contributed to an open slot adds the partial of each lane (an empty one for a lane that is
not active), and with the last of the N contributions the slot merges them in the order of their keys; `cmrg.get` of a merged slot
gives the partials and N, and of one that lacks contributions waits; `cmrg.reset` opens a slot for N with none, and a `get` of its group that waits on it ends with 0 in its own
gang's register, where the waiting gangs' watchdog budgets have room for their units, and where that register awaits no other result:
else once that has come.
Where the rules leave a point open, the statement follows the model: assumptions 13, 79, 80, 95, 117 (that a merge which overflows gives
an infinity and an exact cancellation +0, and that the 0 of a `get` whose gang runs a
handler goes to the register that the handler has saved is the model's reading). -/
def Obligations.QueuesAndMerges : Prop :=
  (∀ (d a q : BitVec 5) (cb : BitVec 1) (s : State) (c : Ctx),
    let n := q.toNat
    let w := (c.s a).toNat
    let team : Loose := { memLoose with team := fun x => { x with chamber := [], queues := [] } }
    let only (t : State) (x : Queue) : Prop := ∀ u, t.team? c.ref.team = some u → SMap.get? u.queues n = some x ∧
      ∀ m, m ≠ n → SMap.get? u.queues m = SMap.get? c.team.queues m
    let chamber (t : State) (ws : List (Nat × List Byte)) : Prop := c.MemMarked s t ∧ ∀ u b, t.team? c.ref.team = some u →
      ZMap.get u.chamber b = storedOver ws (ZMap.get c.team.chamber b) b
    let released : Nat := if c.team.twin.isSome then 0 else c.gang.unacked
    (Runs (.qpush a 15 cb) s c → c.team.staged = false → (s.die c.die).gate.length < 1024 →
      CompletesAt (.qpush a 15 cb) s c c.after { more := fun g => { g with unacked := 0 } }
        { memLoose with die := fun x => { x with l2 := [], cavern := [], remote := [], tlb := [], rcgCount := [], gate := [] } } fun t _ =>
          c.MemMarked s t ∧ ∀ m, (t.die m).gate = (s.die m).gate ++
            (if m = c.die then [⟨c.s a, c.vf, ⟨c.team.slots, c.team.det, c.team.tenant⟩⟩] else [])) ∧
    (Runs (.qpush a 15 cb) s c → c.team.staged = false → 1024 ≤ (s.die c.die).gate.length →
      exec (.qpush a 15 cb) s = .next (c.park s (.queue 15))) ∧
    (n < 8 → n < c.team.kernel.queues →
    (Runs (.qinit a q cb) s c → w < 2 ^ 36 → w / 2 ^ 19 % 2 ^ 13 = 0 → w % 8 = 0 → 1 ≤ w / 2 ^ 32 → w / 2 ^ 32 ≤ 12 →
      w % 2 ^ 19 + 8 * 2 ^ (w / 2 ^ 32) ≤ c.team.chamberBytes → c.team.waitsOn n = false →
        CompletesAt (.qinit a q cb) s c c.after {} { team := fun x => { x with queues := [] } } fun t _ =>
          only t ⟨w % 2 ^ 19, 2 ^ (w / 2 ^ 32), 0, 0⟩) ∧
    (∀ x, SMap.get? c.team.queues n = some x →
      (Runs (.qpush a q cb) s c → x.tail - x.head < x.cap →
        let o := x.off + 8 * (x.tail % x.cap)
        SMap.get? c.team.frames (o / 2048) = none →
          CompletesAt (.qpush a q cb) s c c.after { more := fun g => { g with unacked := released } } team fun t _ =>
            only t { x with tail := x.tail + 1 } ∧ chamber t [(o, toBytes w 8)]) ∧
      (Runs (.qpush a q cb) s c → x.cap ≤ x.tail - x.head → exec (.qpush a q cb) s = .next (c.park s (.queue n))) ∧
      (∀ y, Runs (.qpop d q cb) s c → x.head < x.tail → SMap.get? c.team.frames ((x.off + 8 * (x.head % x.cap)) / 2048) = some y → y.ew = true →
        exec (.qpop d q cb) s = .next (c.park s .frame)) ∧
      (Runs (.qpop d q cb) s c → x.tail ≤ x.head → exec (.qpop d q cb) s = .next (c.park s (.queue n))) ∧
      (let o := x.off + 8 * (x.head % x.cap)
        let word : Word := BitVec.ofNat 64 (c.localNum s 1 0 o 8)
        x.head < x.tail → (∀ y, SMap.get? c.team.frames (o / 2048) = some y → y.ew = false) →
          (Runs (.qpop d q cb) s c → CompletesAt (.qpop d q cb) s c c.after (.scalar d word) team fun t _ =>
            only t { x with head := x.head + 1 } ∧ chamber t []) ∧
          (Runs (.qtry d q cb) s c → CompletesAt (.qtry d q cb) s c c.after
            { s := fun m => if m = d.toNat then some word else if m = d.toNat + 1 then some 1 else none } team fun t _ =>
              only t { x with head := x.head + 1 } ∧ chamber t [])) ∧
      (Runs (.qtry d q cb) s c → x.tail ≤ x.head → Completes (.qtry d q cb) s c
        { s := fun m => if m = d.toNat ∨ m = d.toNat + 1 then some 0 else none })))) ∧
  (∀ (d a b : BitVec 5) (x : BitVec 6) (cb : BitVec 1) (s : State) (c : Ctx) (n : Nat), c.mergeSlot (c.s a) = some n →
    let slot (t : State) : Option MergeSlot := SMap.get? (t.die (n / 128)).merge n
    let key := c.team.index.toNat * 32 + c.ref.gang
    let put : List (BitVec 32 × BitVec 32 × BitVec 32 × BitVec 32) := (List.range c.w).map fun l =>
      let e (j t : Nat) : BitVec 32 := BitVec.ofNat 32 (elem (c.vg x j l) t 32)
      if bit c.active l then (e 0 0, e 0 1, e 1 0, e 1 1) else Partial.empty.tuple
    (∀ m, Runs (.cmrgPut a x cb) s c → slot s = some m → m.puts.length < m.n → SMap.get? m.puts key = none →
      m.puts = [] ∨ m.width = c.w →
        CompletesAt (.cmrgPut a x cb) s c c.after {} { die := fun y => { y with merge := [] } } fun t _ =>
          (∃ y, slot t = some y ∧ y.n = m.n ∧ y.width = c.w ∧ y.puts = SMap.set m.puts key put ∧
            (m.puts.length + 1 = m.n → y.result = mergeAll c.w y.puts)) ∧
          ∀ i j, ¬ (i = n / 128 ∧ j = n) → SMap.get? (t.die i).merge j = SMap.get? (s.die i).merge j) ∧
    (∀ m, Runs (.cmrgGet d a x cb) s c → slot s = some m → m.n ≤ m.puts.length → m.puts = [] ∨ m.width = c.w →
      let r (l : Nat) := (m.result[l]?).getD Partial.empty.tuple
      Completes (.cmrgGet d a x cb) s c
        { v := fun q l => if l ∈ lanesOf c.active then
              (if q = x.toNat then some (BitVec.ofNat 64 ((r l).1.toNat + 2 ^ 32 * (r l).2.1.toNat))
              else if q = x.toNat + 1 then some (BitVec.ofNat 64 ((r l).2.2.1.toNat + 2 ^ 32 * (r l).2.2.2.toNat)) else none) else none
          s := (Writes.scalar d (BitVec.ofNat 64 m.n)).s }) ∧
    (∀ m, Runs (.cmrgGet d a x cb) s c → slot s = some m → m.puts.length < m.n → m.puts = [] ∨ m.width = c.w →
      exec (.cmrgGet d a x cb) s = .next
        (c.park s (.merge n d.toNat (wordOf (.cmrgGet d a x cb)) c.next (cb == 1) (hintSched c.hints)))) ∧
    (Runs (.cmrgReset a b cb) s c → 1 ≤ (c.s b).toNat → (c.s b).toNat ≤ 16 →
      (∀ m g k p f sd word nxt ch sw, s.gang? m g = some k → k.frag? p = some f → f.wait = some (.merge n sd word nxt ch sw) →
        k.wcount + k.entries.length ≤ k.wbudget) →
      ∃ t, exec (.cmrgReset a b cb) s = .next t ∧ slot t = some ⟨(c.s b).toNat, 0, [], []⟩ ∧ t.mem = s.mem ∧ t.vfs = s.vfs ∧
        (∀ i j, ¬ (i = n / 128 ∧ j = n) → SMap.get? (t.die i).merge j = SMap.get? (s.die i).merge j) ∧
        ∀ m g k, s.gang? m g = some k → ∃ h, t.gang? m g = some h ∧ h.vregs = k.vregs ∧ h.kregs = k.kregs ∧ h.accs = k.accs ∧
          ((∀ p f sd word nxt ch sw, k.frag? p = some f → f.wait ≠ some (.merge n sd word nxt ch sw)) →
            h.sregs = k.sregs ∧ (¬ (m = c.ref.team ∧ g = c.ref.gang) → h = k) ∧
            (m = c.ref.team → g = c.ref.gang → c.Free → c.GoesOn h c.after)) ∧
          ∀ u p f sd word nxt ch sw, s.team? m = some u → u.own = c.team.own → u.group = c.team.group → u.status = .running →
            k.frag? p = some f → f.wait = some (.merge n sd word nxt ch sw) → f.join = none → SMap.wf k.entries = true →
              (sd = 0 ∨ sd ∉ k.awaits f.handler →
                (k.handler = none ∨ f.handler = true ∨ sd < 28 → h.s sd = 0) ∧
                (∀ r, k.handler = some r → f.handler = false → 28 ≤ sd → ∃ y, h.handler = some y ∧ ZMap.get y.saved sd = 0) ∧
                ∃ z, h.frag? p = some z ∧ z.wait = none ∧ z.pc = nxt) ∧
              (sd ≠ 0 → sd ∈ k.awaits f.handler →
                ∃ z, h.frag? p = some z ∧ z.wait = some (.getReset sd word nxt ch sw) ∧ z.pc = f.pc)))

/-! ### Elastic arrays -/

/-- R71 to R77, R83, R86 to R93: the operations on an array of the issuing gang's own die whose bound scope holds the core. Insertion, deletion,
splitting and joining give anchors that keep their places, a new version and the result of their rule; an insertion or deletion of nothing
changes nothing. `emark` and `eanch` make anchors at a rank and return the first token; `erank`,
`erank.h`, `elen` and `einfo` read; `edrop` releases an ID; `enew` makes an empty array and `efree` ends one.
R69, R70, R85, R87, R92: `enew` on the issuing gang's die gives the handle of an array without elements, anchors or slabs under an index
that no array has; `erank` and `erank.h` of a live anchor give its rank and the handle of its array; `edrop` releases the ID of a live
or dead anchor; the other forms of `eapp` return the token of a new anchor.
Where the rules leave a point open, the statement follows the model: assumptions 5, 30, 31, 34, 36, 81, 112, 128. -/
def Obligations.ElasticOperations : Prop :=
  (∀ (d a b : BitVec 5) (x : BitVec 6) (an da cb : BitVec 1) (s : State) (c : Ctx) (i : Nat) (y : EArray),
    let u := c.counted s
    let may (ins : Instr) (st : Bool) (y : EArray) : Prop := Runs ins s c ∧ y.die = c.die ∧
      bit (c.latchArray u y.bound).cores c.core = true ∧ (st = true → c.team.staged = false ∧ c.gang.releases = [])
    let gives (ins : Instr) (y : EArray) (st : Bool) (w : Writes) (more : State → Prop) : Prop := CompletesAt ins s c c.after
      { w with more := fun g => { g with unacked := if st ∧ (c.latchArray u y.bound).level ≠ 0 then 0 else g.unacked } } arrayLoose fun t _ => more t
    let res (v : Nat) : Writes := .scalar d (BitVec.ofNat 64 v)
    let n := (c.s d).toNat
    let r := (c.s b).toNat
    let len := (y.leaves.map Prod.snd).sum
    let new (t : State) (k : Nat) (f : EArray → Prop) : Prop := ∃ z, SMap.get? (t.vf c.vf).arrays k = some z ∧ f z
    let same (z : EArray) : Prop := z.gen = y.gen ∧ z.die = y.die ∧ z.scope = y.scope ∧ z.size = y.size ∧ z.creator = y.creator
    let quiet (t : State) : Prop := c.OnlyArrays s t y.die [] [] ∧ ∀ v, t.vf v = s.vf v
    let token (id : Nat) : Nat := (SMap.getD (s.vf c.vf).anchorGen id 0 + 1).toNat * 2 ^ 28 + id
    let shifted (r n : Nat) (ids : List Nat) : List (Nat × Nat) :=
      let p := y.anchors.countP fun e => decide (e.2 < r)
      y.anchors.take p ++ ids.map (fun k => (k, r)) ++ (y.anchors.drop p).map fun e => (e.1, e.2 + n)
    let inserted (r : Nat) := y.inserted (u.leafParts c.vf y) (u.leafLimit y) r ((List.range n).map (c.newElement y.esize (da == 1) x))
    s.array? c.vf (c.s a) = some (i, y) →
    (may (.elen d a cb) false y → gives (.elen d a cb) y false (res len) quiet) ∧
    (may (.einfo d a b cb) false y → r ≤ 7 → gives (.einfo d a b cb) y false (res (match r with
      | 0 => 4 * 2 ^ y.size
      | 1 => y.version.toNat
      | 2 => (s.vf c.vf).anchors.countP fun p => p.2 == .live i || p.2 == .dead (some i)
      | 3 => y.scope
      | 4 => y.die
      | 5 => (y.leaves.map Prod.fst ++ y.nodes).length
      | 6 => ((s.vf c.vf).slabs.map fun p => p.2.length).sum
      | _ => (s.vf c.vf).slabq)) quiet) ∧
    (may (.efree a cb) true y → gives (.efree a cb) y true {} fun t => SMap.get? (t.vf c.vf).arrays i = none ∧
      (∀ k, SMap.get? (s.vf c.vf).anchors k = some (.live i) → SMap.get? (t.vf c.vf).anchors k = some (.dead none)) ∧
      (∀ k ∈ y.leaves.map Prod.fst ++ y.nodes, k ∉ (t.vf c.vf).usedSlabs y.die) ∧
      ∀ k, k ≠ i → SMap.get? (t.vf c.vf).arrays k = SMap.get? (s.vf c.vf).arrays k) ∧
    (∀ ins ∈ [Instr.eins an da d a b x cb, .edel d a b cb, .emark d a b cb], may ins true y → n = 0 →
      r ≤ len → (ins = .eins an da d a b x cb → y.anchors.length < 4096) → len ≤ 2 ^ 40 →
        gives ins y true (res (if ins = .edel d a b cb then len else if ins = .eins an da d a b x cb ∧ an = 0 then r else 0)) quiet) ∧
    (may (.eins an da d a b x cb) true y → 0 < n → r ≤ len → n + len ≤ 2 ^ 40 → (da = 1 → n ≤ c.w) →
      u.slabCheck c.vf y.die (leafNeed (inserted r).1 + (nodeSlabs (inserted r).2 - y.nodes.length)) = none → ∀ id,
      (an = 1 → y.anchors.length < 4096 ∧ (s.vf c.vf).findRun s.tick 1 = some id) →
        gives (.eins an da d a b x cb) y true (res (if an = 1 then token id else r)) fun t =>
          c.OnlyArrays s t y.die [i] (if an = 1 then [id] else []) ∧ new t i fun z => same z ∧ z.version = y.version + 1 ∧
            z.anchors = shifted r n (if an = 1 then [id] else [])) ∧
    (∀ id q, may (.eapp 0 da d a b x cb) true y → 0 < n → n + len ≤ 2 ^ 40 → (da = 1 → n ≤ c.w) →
      s.anchor? c.vf (c.s b) = some (id, .live i) → (y.anchors.find? fun e => e.1 == id) = some (id, q) →
      u.slabCheck c.vf y.die (leafNeed (inserted q).1 + (nodeSlabs (inserted q).2 - y.nodes.length)) = none →
        gives (.eapp 0 da d a b x cb) y true (res q) fun t => c.OnlyArrays s t y.die [i] [] ∧ new t i fun z => same z ∧
          z.version = y.version + 1 ∧
          z.anchors = (y.anchors.takeWhile fun e => decide (e.1 ≠ id)) ++
            ((y.anchors.dropWhile fun e => decide (e.1 ≠ id)).map fun e => (e.1, e.2 + n))) ∧
    (may (.edel d a b cb) true y → 0 < n → r + n ≤ len → gives (.edel d a b cb) y true (res (len - n)) fun t =>
      let dead := (y.anchors.filter fun e => decide (r < e.2 ∧ e.2 < r + n)).map Prod.fst
      c.OnlyArrays s t y.die [i] dead ∧ new t i fun z => same z ∧ z.version = y.version + 1 ∧
        (∀ k ∈ dead, SMap.get? (t.vf c.vf).anchors k = some (.dead (some i))) ∧
        z.anchors = (y.anchors.filter fun e => !(dead.contains e.1)).map (fun e => (e.1, if e.2 ≤ r then e.2 else e.2 - n))) ∧
    (∀ ins k st, (ins = .emark d a b cb ∧ k = n) ∨ (ins = .eanch d a b cb ∧ k = 1) → may ins true y → 0 < k → k ≤ 4096 → r ≤ len →
      y.anchors.length + k ≤ 4096 → (s.vf c.vf).findRun s.tick k = some st →
        gives ins y true (res (token st)) fun t => c.OnlyArrays s t y.die [i] ((List.range k).map fun j => st + j) ∧
          (∀ j, j < k → SMap.get? (t.vf c.vf).anchors (st + j) = some (.live i)) ∧
          new t i fun z => same z ∧ z.version = y.version + 1 ∧ z.leaves = y.leaves ∧
            z.anchors = shifted r 0 ((List.range k).map fun j => st + j)) ∧
    (∀ ps, may (.esplit d a b cb) true y → r ≤ len → splitParts (u.leafParts c.vf y) r = ps →
      let xs := balanced (u.leafLimit y) ps.1
      let ys := balanced (u.leafLimit y) ps.2
      let above (ps : List (Sys2Proof.Machine.Part (List Byte))) := upToRoot (shrinkLevels y.levels (ps.map Part.parent))
      u.slabCheck c.vf y.die (leafNeed ys + (nodeSlabs (above ys) - (y.nodes.length - nodeSlabs (above xs)))) = none →
      (s.vf c.vf).arrays.length < 65536 → SMap.wf (s.vf c.vf).arrays = true →
        ∃ j, SMap.get? (s.vf c.vf).arrays j = none ∧ let gen := SMap.getD (s.vf c.vf).arrGen j 0 % 255 + 1
          gives (.esplit d a b cb) y true (res (gen * 2 ^ 18 + y.die * 2 ^ 16 + j)) fun t =>
            let moved := y.anchors.filter fun e => decide (r ≤ e.2)
            c.OnlyArrays s t y.die [i, j] (moved.map Prod.fst) ∧ (r = len → ∀ k, (t.core k).rlb = (s.core k).rlb) ∧
            (new t i fun z => same z ∧ z.version = y.version + 1 ∧ z.anchors = (y.anchors.filter fun e => decide (e.2 < r))) ∧
            new t j fun z => z.gen = gen ∧ z.die = y.die ∧ z.scope = y.scope ∧ z.size = y.size ∧ z.version = 0 ∧
              z.anchors = moved.map (fun e => (e.1, e.2 - r))) ∧
    (∀ j z, may (.ecat d a b cb) true y → s.array? c.vf (c.s b) = some (j, z) → bit (c.latchArray u z.bound).cores c.core = true →
      z.size = y.size → z.die = y.die → z.scope = y.scope → i ≠ j → len + (z.leaves.map Prod.snd).sum ≤ 2 ^ 40 →
      let above := y.catLevels z
      let parts := if z.leaves = [] then u.leafParts c.vf y else markLast (u.leafParts c.vf y) ++ markFirst (u.leafParts c.vf z)
      let ps := balanced (u.leafLimit y) (((List.range parts.length).zip parts).map fun p =>
        { p.2 with parent := parentOf (above.head?.getD []) p.1 })
      u.slabCheck c.vf y.die (nodeSlabs (upToRoot (shrinkLevels above (ps.map Part.parent))) - (y.nodes ++ z.nodes).length) = none →
      y.anchors.length + z.anchors.length ≤ 4096 →
        gives (.ecat d a b cb) y true (res (len + (z.leaves.map Prod.snd).sum)) fun t =>
          c.OnlyArrays s t y.die [i, j] (z.anchors.map Prod.fst) ∧ (z.leaves = [] → ∀ k, (t.core k).rlb = (s.core k).rlb) ∧
          (new t j fun e => e.leaves = [] ∧ e.anchors = [] ∧ e.version = z.version + 1) ∧
          new t i fun e => same e ∧ e.version = y.version + 1 ∧ e.anchors = y.anchors ++ z.anchors.map (fun p => (p.1, p.2 + len)))) ∧
  (∀ (d a b : BitVec 5) (x : BitVec 6) (da cb : BitVec 1) (s : State) (c : Ctx),
    let u := c.counted s
    let w := (c.s a).toNat
    let gives (ins : Instr) (l : Latched) (st : Bool) (w : Writes) (more : State → Prop) : Prop := CompletesAt ins s c c.after
      { w with more := fun g => { g with unacked := if st ∧ l.level ≠ 0 then 0 else g.unacked } } arrayLoose fun t _ => more t
    (Runs (.enew d a cb) s c → c.team.staged = false → c.gang.releases = [] → w < 2 ^ 11 → w / 2 ^ 7 % 2 = 0 → w / 2 ^ 3 % 2 = 0 →
      w % 8 ≤ 4 → (w / 2 ^ 8 % 2 = 1 → w / 2 ^ 9 = c.die) → (s.vf c.vf).arrays.length < 65536 → SMap.wf (s.vf c.vf).arrays = true →
      let l := c.latchArray u ⟨c.die, w / 2 ^ 4 % 8, c.core⟩
      bit l.cores c.core = true → ∃ i, SMap.get? (s.vf c.vf).arrays i = none ∧ i < 65536 ∧
        let gen := SMap.getD (s.vf c.vf).arrGen i 0 % 255 + 1
        gives (.enew d a cb) l true (.scalar d (BitVec.ofNat 64 (gen * 2 ^ 18 + c.die * 2 ^ 16 + i))) fun t =>
          c.OnlyArrays s t c.die [i] [] ∧ SMap.get? (t.vf c.vf).arrays i = some ⟨gen, c.die, w / 2 ^ 4 % 8, c.core, w % 8, 0, [], [], [], []⟩) ∧
    (∀ id i y q, s.anchor? c.vf (c.s a) = some (id, .live i) → SMap.get? (s.vf c.vf).arrays i = some y → y.die = c.die →
      (y.anchors.find? fun e => e.1 == id) = some (id, q) → let l := c.latchArray u y.bound
      bit l.cores c.core = true →
        (Runs (.erank d a cb) s c → gives (.erank d a cb) l false (.scalar d (BitVec.ofNat 64 q)) fun t => ∀ v, t.vf v = s.vf v) ∧
        (Runs (.erankH d a cb) s c → gives (.erankH d a cb) l false
          (.scalar d (BitVec.ofNat 64 (y.gen * 2 ^ 18 + y.die * 2 ^ 16 + i))) fun t => ∀ v, t.vf v = s.vf v) ∧
        (Runs (.edrop a cb) s c → c.team.staged = false → c.gang.releases = [] → gives (.edrop a cb) l true {} fun t =>
          SMap.get? (t.vf c.vf).anchors id = none ∧ c.OnlyArrays s t c.die [i] [id] ∧
          SMap.get? (t.vf c.vf).arrays i = some { y with anchors := (y.anchors.filter fun e => e.1 != id), version := y.version + 1 })) ∧
    (∀ id, s.anchor? c.vf (c.s a) = some (id, .dead none) → Runs (.edrop a cb) s c → c.team.staged = false → c.gang.releases = [] →
      CompletesAt (.edrop a cb) s c c.after {} { vf := fun x => { x with anchors := [] } } fun t _ =>
        SMap.get? (t.vf c.vf).anchors id = none ∧ c.OnlyArrays s t c.die [] [id]) ∧
    (∀ i y id q new, s.array? c.vf (c.s a) = some (i, y) → y.die = c.die → s.anchor? c.vf (c.s b) = some (id, .live i) →
      (y.anchors.find? fun e => e.1 == id) = some (id, q) → y.anchors.length < 4096 → (s.vf c.vf).findRun s.tick 1 = some new →
      Runs (.eapp 1 da d a b x cb) s c → c.team.staged = false → c.gang.releases = [] → 0 < (c.s d).toNat →
      (c.s d).toNat + y.len ≤ 2 ^ 40 → (da = 1 → (c.s d).toNat ≤ c.w) →
      let ins := y.inserted (u.leafParts c.vf y) (u.leafLimit y) q ((List.range (c.s d).toNat).map (c.newElement y.esize (da == 1) x))
      u.slabCheck c.vf y.die (leafNeed ins.1 + (nodeSlabs ins.2 - y.nodes.length)) = none →
      let l := c.latchArray u y.bound
      bit l.cores c.core = true → gives (.eapp 1 da d a b x cb) l true
        (.scalar d (BitVec.ofNat 64 ((SMap.getD (s.vf c.vf).anchorGen new 0 + 1).toNat * 2 ^ 28 + new))) fun t =>
          c.OnlyArrays s t c.die [i] [new] ∧ SMap.get? (t.vf c.vf).anchors new = some (.live i)))

/-- R68, R73, R74, R76, R77, R89 to R91: the elements in rank order after a structural operation that an array has been changed by, for an
array that stands as R68 keeps it: new elements stand at their rank, before those that had it; the elements of the deleted ranks are
gone; a split leaves those below the rank and the new array takes those from it; a join appends those of the second array.
Where the rules leave a point open, the statement follows the model: assumptions 30, 31, 34, 81, 112, 128. -/
def Obligations.ElasticContents : Prop :=
  ∀ (d a b : BitVec 5) (x : BitVec 6) (an da cb : BitVec 1) (s t : State) (c : Ctx) (i : Nat) (y z : EArray),
    let n := (c.s d).toNat
    let r := (c.s b).toNat
    let es := elements s c.vf y
    let items : List (List Byte) := (List.range n).map fun j =>
      toBytes (if da = 1 ∧ bit c.active j then (c.v x j).toNat else 0) (min y.esize 8) ++ List.replicate (y.esize - 8) 0
    let changes (ins : Instr) : Prop := Runs ins s c ∧ exec ins s = .next t
    s.array? c.vf (c.s a) = some (i, y) → y.die = c.die → ArraySound s c.vf c.core y →
    SMap.get? (t.vf c.vf).arrays i = some z → z.version = y.version + 1 →
    (changes (.eins an da d a b x cb) → elements t c.vf z = es.take r ++ items ++ es.drop r) ∧
    (∀ id q, changes (.eapp an da d a b x cb) → s.anchor? c.vf (c.s b) = some (id, .live i) →
      (y.anchors.find? fun e => e.1 == id) = some (id, q) → q ≤ es.length → elements t c.vf z = es.take q ++ items ++ es.drop q) ∧
    (changes (.edel d a b cb) → elements t c.vf z = es.take r ++ es.drop (r + n)) ∧
    (changes (.esplit d a b cb) → SMap.wf (s.vf c.vf).arrays = true → elements t c.vf z = es.take r ∧
      ∀ j e, SMap.get? (s.vf c.vf).arrays j = none → SMap.get? (t.vf c.vf).arrays j = some e → elements t c.vf e = es.drop r) ∧
    (∀ j e, changes (.ecat d a b cb) → s.array? c.vf (c.s b) = some (j, e) → ArraySound s c.vf c.core e →
      (∀ p ∈ y.leaves, ∀ q ∈ e.leaves, p.1 ≠ q.1) → elements t c.vf z = es ++ elements s c.vf e)

/-- R78, R79, R82, R94: element loads and stores whose checks pass. `eld` gives each lane that takes part the words of its element as
the core reads them, zero-extended or, for the signed form of 4 bytes, sign-extended, in one register or in a group; `est` stores
them in lane order as class T stores. Where no entry of the lookaside buffer names the array and no cache holds a line of the pool,
the words are those of `elements`, and the stores replace its elements.
R71, R79, R133, R348, R349: the Rank Tree Unit of another die. An operation on an array whose home is another die goes into the queue of that
die's unit with its operands as they stand, and its fragment waits; no unit issued later reaches its register before the result has come, and a later load, store,
atomic, fence or array operation of the gang waits for it (R83, R260, R262, R400). The unit performs the oldest of its queue on those operands, and
for `elen` the register then holds the length: where a handler runs that is not the fragment's, the gang's own; a stop of the team holds nothing up (R352). A walk at the unit
fills an entry of a lookaside buffer with the rank's leaf: its first rank, count and slab.
R84: the faults of `eld` and `est` on any die's array, in order: `est` of a staged team PROT with reason 8; no live array ERANK with
reason 4; a core outside the array's bound scope ESCOPE with reason 1; and a lane whose rank is no element's ERANK with reason 1 and that
rank, of the lowest such lane. HANDLE is the operand. The same of `eins`, `edel`, `esplit`, `emark`, `eanch` and `efree` of the own die's
array, or of none, with the rank operand if any, and of `elen` and `einfo`, which a staged team may issue; a selector of
`einfo` above 7 is ERANK with reason 5. Nothing is performed.
Where the rules leave a point open, the statement follows the model: assumptions 14, 36, 68, 95, 110, 113, 125, 129, 130 (a result that goes to
the register that a handler has saved is the model's reading). -/
def Obligations.ElasticAccess : Prop :=
  (∀ (k : BitVec 3) (vt : BitVec 6) (b : BitVec 5) (vo : BitVec 6) (sx cb : BitVec 1) (s : State) (c : Ctx) (y : EArray),
    let u := c.counted s
    let n := if y.esize ≤ 8 then 1 else y.esize / 8
    let r (l : Nat) : Nat := (c.v vo l).toNat
    let loads := (c.lanes k).foldl (fun (p : State × List (Nat × List Byte)) l =>
      let x := c.elementLoad p.1 (c.s b) y (r l)
      (x.1, p.2 ++ [(l, x.2)])) (u, [])
    let word (bs : List Byte) (j : Nat) : Word :=
      let x := ofBytes ((bs.drop (8 * j)).take 8)
      if y.size = 0 ∧ sx = 1 then BitVec.ofInt 64 (sext x 32) else BitVec.ofNat 64 x
    let data (l : Nat) : List Byte :=
      if n = 1 then toBytes (c.v vt l).toNat y.esize else (List.range n).flatMap fun j => toBytes (c.vg vt j l).toNat 8
    let apart : Prop := ArraySound s c.vf c.core y ∧ (∀ e ∈ (s.core c.core).rlb, ¬ (e.vf = c.vf ∧ e.handle = c.s b)) ∧
      ∀ l n, (l ∈ (s.core c.core).l1 ∨ ∃ d, l ∈ (s.die d).remote) → n < ((s.vf c.vf).slabPool y.die).2 →
        l.num * 256 + 256 ≤ s.slabAddr c.vf y.die n ∨ s.slabAddr c.vf y.die n + 4096 ≤ l.num * 256
    let loose : Loose := { memLoose with core := fun x => { x with l1 := [], fifo := [], tlb := [], rlb := [] } }
    (∀ a i o g e n, ∀ ins ∈ [Instr.eld k vt b vo sx cb, .est k vt b vo cb, .elen b a cb, .sld b a i cb, .gld k vt b vo g cb, .gst k vt b vo o cb,
        .gatom e vt b vo 0 0 n, .fenceAcq n cb, .fenceRel n cb],
      s.ctx? = some c → fieldsOk ins = true → (use ins).hintsOk c.hints = true → valuesOk ins c.hints = true → c.gang.inRtu = true →
        exec ins s = .next (c.park s .scoreboard)) ∧
    (Runs (.eld k vt b vo sx cb) s c → c.eaAccess u false k vt b vo (sx == 1) = .ok y →
      CompletesAt (.eld k vt b vo sx cb) s c c.after
        { v := fun m l => if vt.toNat ≤ m ∧ m < vt.toNat + n then
            (loads.2.find? fun p => p.1 == l).map fun p => word p.2 (m - vt.toNat) else none } loose fun t _ =>
        c.MemKept s t [] fun _ => False) ∧
    (c.eaAccess u false k vt b vo (sx == 1) = .ok y → apart →
      loads.2 = (c.lanes k).map fun l => (l, ((elements s c.vf y)[r l]?).getD [])) ∧
    (Runs (.est k vt b vo cb) s c → c.gang.releases = [] → c.eaAccess u true k vt b vo false = .ok y →
      CompletesAt (.est k vt b vo cb) s c c.after { more := fun g => { g with unacked := g.unacked + (c.lanes k).length } } loose fun t _ =>
        c.Kept ((c.lanes k).foldl (fun t l => c.elementStore t (c.s b) y (r l) (data l)) u) t {} ∧
        (apart → c.OnlyArrays s t y.die [] [] ∧
          elements t c.vf y = (c.lanes k).foldl (fun es l => es.set (r l) (data l)) (elements s c.vf y))) ∧
    (∀ ins st, (ins = .eld k vt b vo sx cb ∧ st = false) ∨ (ins = .est k vt b vo cb ∧ st = true) → Runs ins s c →
      let fault (cls reason : Nat) (rank : Word) : Prop := exec ins s = .next
        (c.faulted ins { cls := cls, fbyte := BitVec.ofNat 64 reason, handle := c.s b, rank := rank } s)
      (st = true → c.team.staged = true → fault 10 8 0) ∧
      (st = false ∨ c.team.staged = false →
        (s.array? c.vf (c.s b) = none → fault 13 4 0) ∧
        ∀ i z, s.array? c.vf (c.s b) = some (i, z) → (st = false → sx = 0 ∨ z.size = 0) → z.esize ≤ 8 →
          (bit (c.latchArray u z.bound).cores c.core = false → fault 12 1 0) ∧
          (bit (c.latchArray u z.bound).cores c.core = true → ∀ before l after, c.lanes k = before ++ l :: after →
            (∀ m ∈ before, r m < (z.leaves.map Prod.snd).sum) → (z.leaves.map Prod.snd).sum ≤ r l → fault 13 1 (c.v vo l))))) ∧
  ((∀ (d a : BitVec 5) (cb : BitVec 1) (s : State) (c : Ctx) (i : Nat) (y : EArray), s.array? c.vf (c.s a) = some (i, y) →
    y.die ≠ c.die → Runs (.elen d a cb) s c → ∃ t h l m, exec (.elen d a cb) s = .next t ∧
      (∀ n, (t.die n).rtu = (s.die n).rtu ++ if n = y.die then [c.ref] else []) ∧ t.gang? c.ref.team c.ref.gang = some h ∧
      h.frag? c.ref.frag = some { c.frag with wait := some (.rtu (.elen d a cb) l m c.gang.sregs []) } ∧ t.mem = s.mem ∧
      l = c.latchArray s y.bound ∧ h.sregs = c.gang.sregs ∧ (d ≠ 0 → d.toNat ∈ h.awaits c.frag.handler)) ∧
  (∀ (die : Nat) (d a : BitVec 5) (cb : BitVec 1) (s w : State) (c : Ctx) (i : Nat) (y : EArray) (r : Ref) (rest : List Ref) (l m : Latched)
    (f : Fragment) (sregs : ZMap 64), (s.die die).rtu = r :: rest → (s.gang? r.team r.gang).bind (fun g => g.frag? r.frag) = some f →
    f.wait = some (.rtu (.elen d a cb) l m sregs []) →
    w = ({ s.modDie die (fun x => { x with rtu := rest }) with cur := r }).modFrag r (fun f => { f with wait := none }) →
    w.rtuCtx? r = some c → (c.gang.forUnit c.frag.handler).mayCount = true →
    w.array? c.vf (if a = 0 then 0 else ZMap.get sregs a.toNat) = some (i, y) → bit l.cores c.core = true →
      let len : Word := BitVec.ofNat 64 (y.leaves.map Prod.snd).sum
      ∃ t h, exec (.rtuOperation die) s = .next t ∧ (t.die die).rtu = rest ∧ t.gang? r.team r.gang = some h ∧ t.mem = s.mem ∧
        ((c.gang.handler = none ∨ c.frag.handler = true → (Writes.scalar d len).Done c.w c.gang h) ∧
          (c.Free → c.GoesOn h c.after)) ∧
        (∀ k, c.gang.handler = some k → c.frag.handler = false →
          (∀ n, h.s n = if n = d.toNat ∧ n ≠ 0 ∧ n < 28 then len else c.gang.s n) ∧
          ∃ k', h.handler = some k' ∧ ∀ n, 28 ≤ n → n < 32 → ZMap.get k'.saved n = if n = d.toNat then len else ZMap.get k.saved n)) ∧
  (∀ (d a b : BitVec 5) (x : BitVec 6) (an da cb : BitVec 1) (s : State) (c : Ctx) (ins : Instr) (st : Bool) (rank : Word),
    let u := c.counted s
    let ranked := [Instr.eins an da d a b x cb, .edel d a b cb, .esplit d a b cb, .emark d a b cb, .eanch d a b cb]
    let fault (cls reason : Nat) : Prop := exec ins s = .next
      (c.faulted ins { cls := cls, fbyte := BitVec.ofNat 64 reason, handle := c.s a, rank := rank } s)
    (ins ∈ ranked ∧ st = true ∧ rank = c.s b) ∨ (ins = .efree a cb ∧ st = true ∧ rank = 0) ∨
      (ins ∈ [Instr.elen d a cb, .einfo d a b cb] ∧ st = false ∧ rank = 0) →
    Runs ins s c → (∀ i y, s.array? c.vf (c.s a) = some (i, y) → y.die = c.die) →
      (st = true → c.team.staged = true → fault 10 8) ∧
      (st = false ∨ c.team.staged = false →
        (s.array? c.vf (c.s a) = none → fault 13 4) ∧
        ∀ i y, s.array? c.vf (c.s a) = some (i, y) →
          let len := (y.leaves.map Prod.snd).sum
          (bit (c.latchArray u y.bound).cores c.core = false → fault 12 1) ∧
          (bit (c.latchArray u y.bound).cores c.core = true →
            (ins ∈ ranked → len < (c.s b).toNat → fault 13 1) ∧
            (ins = .edel d a b cb → len < (c.s b).toNat + (c.s d).toNat → fault 13 1) ∧
            (ins = .einfo d a b cb → 7 < (c.s b).toNat → fault 13 5)))) ∧
  ∀ (core vf : Nat) (h k : BitVec 64) (s : State) (i : Nat) (y : EArray) (before after : List (Nat × Nat)) (leaf : Nat × Nat),
    s.array? vf h = some (i, y) → y.leaves = before ++ leaf :: after → (before.map Prod.snd).sum ≤ k.toNat →
    k.toNat < (before.map Prod.snd).sum + leaf.2 →
    (∀ e ∈ (s.core core).rlb, e.vf = vf → e.handle = h → ¬ (e.lo ≤ k.toNat ∧ k.toNat < e.lo + e.count)) →
      exec (.rlbMissWalk core vf h k) s = .next (s.modCore core fun x =>
        { x with rlb := (⟨vf, h, y.version, (before.map Prod.snd).sum, leaf.2, leaf.1⟩ :: x.rlb).take 256 }))

/-! ### Walks, caches, arbiters and the fault queue -/

/-- R41, R56 to R61: a walk for a canonical address that no buffer of the core or its die holds. Where the tables lead through valid pointer
entries to a valid leaf of 64 KiB, 2 MiB (32 entries in a run) or 1 GiB (two entries) whose reserved fields are zero, which allows
the access and whose address lies in a region that exists, the translation is installed in both buffers and bit A, with bit D for a
store or an atomic, is set in its entries; no other byte changes. Every other walk leaves the state as it was, but for the event of an entry
in an absent package, which reads as not present (R376, R379).
R61, R65, R66: GO starts an invalidation of the range that the registers then give, where none is under way, and is ignored where one is. It
does not end while a prefetch that was translated in the range is still to be performed; it then ends with no translation of the
context in any buffer that overlaps the 2^NPOW pages from the aligned address, or none at all of the context where NPOW is 31, and
every other translation kept; DONE is then 1.
Where the rules leave a point open, the statement follows the model: assumptions 15, 19, 56, 70, 92, 98 (that DONE waits for prefetches, that the
range is the one that GO found, what a step that is not enabled answers, and that a page whose table is in an absent package is not
present are the model's choice). -/
def Obligations.PageWalk : Prop :=
  (∀ (core vf : Nat) (va : BitVec 64) (kind : BitVec 2) (priv : Bool) (s : State),
    let a := va.toNat
    let p (x : Nat) : Nat := if s.absent x then 0 else ofBytes (Memory.bytes s.mem x 8)
    let fr (e : Nat) : Nat := e / 2 ^ 16 % 2 ^ 36
    let ptr (e : Nat) : Prop := e % 4 = 1 ∧ e / 2 ^ 60 = 0
    let writes : Prop := kind = 2 ∨ kind = 3
    let good (e sz : Nat) : Prop := e % 4 = 3 ∧ e / 2 ^ 60 = 0 ∧ e / 2 ^ 14 % 4 = 0 ∧ (kind = 0 → e.testBit 3 = true) ∧
      (writes → e.testBit 2 = true) ∧ (e.testBit 4 = true → priv = true) ∧
      (let r := (fr e * 2 ^ 16 + a % sz) / 2 ^ 40 % 64
       (r = 0 ∧ (fr e * 2 ^ 16 + a % sz) / 2 ^ 39 % 2 = 0) ∨ (16 ≤ r ∧ r < 32))
    let a3 := (s.vf vf).root * 2 ^ 16 + 8 * (a / 2 ^ 42 % 8192)
    let e3 := p a3
    let t2 := fr e3 * 2 ^ 16
    let i2 := a / 2 ^ 29 % 8192
    let e2 := p (t2 + 8 * i2)
    let t1 := fr e2 * 2 ^ 16
    let i1 := a / 2 ^ 16 % 8192
    let at1 (j : Nat) : Nat := t1 + 8 * (i1 - i1 % 32 + j)
    let run : Prop := p (at1 0) % 4 = 3 ∧ fr (p (at1 0)) % 32 = 0 ∧ ∀ j, j < 32 → p (at1 j) = p (at1 0) + j * 2 ^ 16
    let pair (j : Nat) : Nat := t2 + 8 * (i2 - i2 % 2 + j)
    let twin : Prop := ptr e3 ∧ e2 % 4 = 3 ∧ p (pair 0) % 4 = 3 ∧ fr (p (pair 0)) % 2 ^ 14 = 0 ∧ p (pair 1) = p (pair 0) + 2 ^ 29
    let low : Prop := ptr e3 ∧ ptr e2 ∧ p (t1 + 8 * i1) % 2 = 1
    let isPtr (e : Nat) : Bool := e % 4 == 1 && e / 2 ^ 60 == 0
    let bus : Option Nat := if s.absent a3 then some a3 else if !(isPtr e3) then none
      else if s.absent (t2 + 8 * i2) then some (t2 + 8 * i2) else if !(isPtr e2) then none
      else if s.absent (t1 + 8 * i1) then some (t1 + 8 * i1) else none
    let gives (leaf sz : Nat) (ptes : List Nat) : Prop := ∃ t, exec (.pageWalk core vf va kind priv) s = .next t ∧
      (let x : Tlb := ⟨vf, a - a % sz, sz, BitVec.ofNat 64 leaf ||| if kind = 2 ∨ kind = 3 then 0x60 else 0x20⟩
       (t.core core).tlb.head? = some x ∧ (t.die (core / 64)).tlb.head? = some x) ∧
      (∀ b, ZMap.get t.mem b = if b ∈ ptes then ZMap.get s.mem b ||| (if kind = 2 ∨ kind = 3 then 0x60 else 0x20) else ZMap.get s.mem b) ∧
      (∀ n, { t.core n with tlb := [] } = { s.core n with tlb := [] } ∧ (n ≠ core → t.core n = s.core n)) ∧
      (∀ n, { t.die n with tlb := [] } = { s.die n with tlb := [] } ∧ (n ≠ core / 64 → t.die n = s.die n)) ∧
      t.teams = s.teams ∧ t.vfs = s.vfs
    (a < 2 ^ 54 ∨ 2 ^ 64 - 2 ^ 54 ≤ a) →
    (∀ e, e ∈ (s.core core).tlb ∨ e ∈ (s.die (core / 64)).tlb → ¬ (e.vf = vf ∧ e.base ≤ a ∧ a < e.base + e.size)) →
    (low → run → good (p (at1 0)) (2 ^ 21) → gives (p (at1 0)) (2 ^ 21) ((List.range 32).map at1)) ∧
    (low → ¬ run → good (p (t1 + 8 * i1)) (2 ^ 16) → gives (p (t1 + 8 * i1)) (2 ^ 16) [t1 + 8 * i1]) ∧
    (twin → good (p (pair 0)) (2 ^ 30) → gives (p (pair 0)) (2 ^ 30) [pair 0, pair 1]) ∧
    (¬ (low ∧ run ∧ good (p (at1 0)) (2 ^ 21)) → ¬ (low ∧ ¬ run ∧ good (p (t1 + 8 * i1)) (2 ^ 16)) →
      ¬ (twin ∧ good (p (pair 0)) (2 ^ 30)) → exec (.pageWalk core vf va kind priv) s = .next (match bus with
        | none => s
        | some x => s.event 1 (core / 64) vf 0 0 x 0))) ∧
  (∀ (die : Nat) (value : BitVec 32) (s : State),
    let d := s.die die
    let with_ (x : Die) : Prop := ∃ t, exec (.tlbictlGo die value) s = .next t ∧ t.die die = x ∧
      (∀ n, n ≠ die → t.die n = s.die n) ∧ t.cores = s.cores ∧ t.mem = s.mem ∧ t.teams = s.teams
    (bit value 31 = true → bit d.tlbictl 30 = true →
      with_ { d with tlbictl := value &&& 0x0FFF001F, tlbi := some (value.toNat / 2 ^ 16 % 2 ^ 12, d.tlbiva.toNat, value.toNat % 32) }) ∧
    (bit value 31 = true → bit d.tlbictl 30 = false → with_ d) ∧
    (bit value 31 = false → with_ { d with tlbictl := (value &&& 0x0FFF001F) ||| (d.tlbictl &&& 0x40000000) }) ∧
    ∀ ctx va npow, d.tlbi = some (ctx, va, npow) → bit d.tlbictl 30 = false →
      let len := 2 ^ npow * 2 ^ 16
      let lo := va / len * len
      let hit (vf base size : Nat) : Prop := vf = ctx ∧ (npow = 31 ∨ (base % 2 ^ 55 < lo + len ∧ lo < base % 2 ^ 55 + size))
      (∀ n q, q ∈ (s.core n).requests → hit q.vf q.va 1 → exec (.tlbiDone die) s = .fault .notEnabled) ∧
      ((∀ n c, (n, c) ∈ s.cores → ∀ q ∈ c.requests, ¬ hit q.vf q.va 1) → ∃ t, exec (.tlbiDone die) s = .next t ∧
        bit (t.die die).tlbictl 30 = true ∧ (∀ n x, x ∈ (t.core n).tlb ↔ x ∈ (s.core n).tlb ∧ ¬ hit x.vf x.base x.size) ∧
        (∀ n x, x ∈ (t.die n).tlb ↔ x ∈ (s.die n).tlb ∧ ¬ hit x.vf x.base x.size) ∧
        t.mem = s.mem ∧ t.teams = s.teams ∧ t.vfs = s.vfs))

/-- R43, R44, R46, R48, R54: the steps of the caches. A sector that was asked for fills under the byte mask, so that written bytes keep their
values; an evicted line leaves its cache, an L1 line with its written bytes in the level below, a line of a remote partition with
them in memory unless its package is absent, and a line of a home L2 or of a Cavern changes no byte: one of a home L2 leaves its written
bytes in the Cavern, merged under their mask, where that has room. A request to an absent package ends with an event (R376).
R53 to R55, R140, R142, R224, R225: steps of units and arbiters. Units that drain return to their quadrant's free list; a window of 32
cycles has 16 grants in all, and as many requests leave the queue as it has left; a request that has waited 128 cycles goes on in
ramp mode and stays queued; and at the end of an epoch the count of each group moves to RCGCNT, which stops at its greatest value,
and a group in MODE auto whose standing has been against its threshold for HYST epochs changes it.
Where the rules leave a point open, the statement follows the model: assumptions 16, 18, 64, 66, 111. -/
def Obligations.CachesAndUnits : Prop :=
  (∀ (core owner line sector : Nat) (s : State),
    let first (α : Type) (evp : α → Nat) (x : α) (mates : List α) : Prop :=
      evp x = 2 ∨ ((∀ y ∈ mates, evp y ≠ 2) ∧ (evp x ≠ 1 ∨ ∀ y ∈ mates, evp y = 1))
    (∀ r, ((s.core core).requests.find? fun r => decide (r.num = line) && decide (sector < 4) && bit r.sectors sector) = some r →
      (s.absent (line * 256) = true → exec (.sectorFill core line sector) s = .next
        ((s.modCore core fun c => { c with requests := c.requests.erase r }).event 1 (core / 64) r.vf 0 0 r.va 0)) ∧
      (s.absent (line * 256) = false → ∃ t, exec (.sectorFill core line sector) s = .next t ∧
        (let left := r.sectors &&& ~~~(BitVec.ofNat 4 (2 ^ sector))
         (t.core core).requests = (if left = 0 then [] else [{ r with sectors := left, reached := true }]) ++
           (s.core core).requests.erase r) ∧ t.teams = s.teams ∧ t.vfs = s.vfs) ∧
      (let old := lineOf (s.core core).l1 r.vf line r.leaf
       s.absent (line * 256) = false → r.level = 0 → pteClv r.leaf = 0 → bit old.valid sector = false →
       s.remoteHeld (core / 64) (line * 256) r.leaf = false →
       (getLine (s.core core).l1 r.vf line).isSome = true ∨ (s.core core).l1.length < 512 →
         ∃ t l, exec (.sectorFill core line sector) s = .next t ∧ getLine (t.core core).l1 r.vf line = some l ∧
           bit l.valid sector = true ∧ l.dirty = old.dirty ∧ t.mem = s.mem ∧
           ∀ i, i < 64 → let o := 64 * sector + i
             ZMap.get l.data o = if bit old.dirty o = true then ZMap.get old.data o else s.l2Byte (core / 64) r.vf (line * 256 + o))) ∧
    (∀ l, ((s.core owner).l1.find? fun l => decide (l.num = line)) = some l → ∃ t, exec (.lineEviction 0 owner line) s = .next t ∧
      (∀ x ∈ (t.core owner).l1, ¬ (x.vf = l.vf ∧ x.num = line ∧ x.set = l.set)) ∧ (l.dirty = 0 → t.mem = s.mem) ∧
      ∀ o, o < 256 → bit l.dirty o = true → s.absent (line * 256) = false → t.l2Byte (owner / 64) l.vf (line * 256 + o) = ZMap.get l.data o) ∧
    (∀ l, ((s.die owner).remote.find? fun l => decide (l.num = line)) = some l →
      first Line (fun x => pteEvp x.leaf) l ((s.die owner).remote.filter fun x =>
        decide (l2Slice (x.num * 256) = l2Slice (line * 256)) && decide (x.set = l.set)) →
        ∃ t, exec (.lineEviction 1 owner line) s = .next t ∧
          (∀ x ∈ (t.die owner).remote, ¬ (x.vf = l.vf ∧ x.num = line ∧ x.set = l.set)) ∧
          ∀ b, ZMap.get t.mem b =
            if s.absent (line * 256) = false ∧ b / 256 = line ∧ bit l.dirty (b % 256) = true then ZMap.get l.data (b % 256) else ZMap.get s.mem b) ∧
    (∀ h ∈ (s.die owner).l2, h.num = line → (∀ x ∈ (s.die owner).l2, x.num = line → x = h) →
      first Held (fun x => x.evp.toNat) h ((s.die owner).l2.filter fun x => x.slice == h.slice && x.set == h.set) →
        ∃ t, exec (.lineEviction 2 owner line) s = .next t ∧ (t.die owner).l2 = (s.die owner).l2.filter (fun x => x.num != line) ∧
          t.mem = s.mem ∧ t.cores = s.cores ∧ (h.dirty = 0 → (t.die owner).cavern = (s.die owner).cavern) ∧
          let at_ (x : Held) : Prop := x.num = line ∧ x.slice = 0 ∧ x.set = 0
          (h.dirty ≠ 0 → h.evp ≠ 3 → (∃ x ∈ (s.die owner).cavern, at_ x) ∨
            ((s.die owner).cavern.filter fun x => paStack (x.num * 256) == paStack (line * 256)).length < 2 ^ 23 →
              ∃ x ∈ (t.die owner).cavern, at_ x ∧ ∀ o, bit h.dirty o = true → bit x.dirty o = true)) ∧
    ((evictFirst (fun x => x.evp.toNat) ((s.die owner).cavernVictims (paStack (line * 256)) 0)).any (fun h => decide (h.num = line)) = true →
      (∀ x ∈ (s.die owner).cavern, x.num = line → x.slice = 0 ∧ x.set = 0) →
      exec (.lineEviction 3 owner line) s = .next (s.modDie owner fun d => { d with cavern := d.cavern.filter fun x => x.num != line }))) ∧
  ((∀ (core quad : Nat) (s : State), ((s.core core).quad quad).draining ≠ [] →
    exec (.accUnitsReturn core quad) s = .next (s.modQuad core quad fun q => { q with draining := [] })) ∧
  (∀ (die : Nat) (s : State), let g := if (s.die die).window = (s.die die).cycle / 32 then (s.die die).granted else 0
    (s.die die).surge ≠ [] → g < 16 → ∃ t, exec (.surgeWindow die) s = .next t ∧ (t.die die).window = (s.die die).cycle / 32 ∧
      (t.die die).cycle = (s.die die).cycle ∧ (t.die die).granted = g + min (s.die die).surge.length (16 - g) ∧
      (t.die die).surge.length = (s.die die).surge.length - (16 - g) ∧
      (∀ x ∈ (t.die die).surge, x ∈ (s.die die).surge) ∧ t.teams = s.teams ∧ t.mem = s.mem) ∧
  (∀ (team gang frag : Nat) (s : State) (g : Gang) (x : Surge), s.gang? team gang = some g →
    let r : Ref := ⟨team, gang, frag⟩
    let d := g.core / 64
    ((s.die d).surge.find? fun x => decide (x.ref = r) && !x.ramped) = some x → x.since + 128 ≤ (s.die d).cycle →
      ∃ t, exec (.surgeRamp team gang frag) s = .next t ∧ (t.die d).grants = (s.die d).grants ++ [r] ∧
        (t.die d).surge = (s.die d).surge.map (fun y => if y.ref = r ∧ y.ramped = false then { y with ramped := true } else y) ∧
        ((t.core g.core).quad g.quad).ramp = true ∧ t.teams = s.teams ∧ t.mem = s.mem) ∧
  ∀ (die : Nat) (s : State), let d := s.die die
    let len := 2 ^ (d.cavctl.toNat % 32)
    d.epoch + len ≤ d.ref → ∃ t, exec (.rcgEpochEnd die) s = .next t ∧ (t.die die).epoch = d.epoch + len ∧
      (∀ g, ZMap.get (t.die die).rcgCount g = 0) ∧ t.mem = s.mem ∧ t.teams = s.teams ∧
      ∀ g, 0 < g → g < 256 →
        let ctl := SMap.getD d.rcgctl g 0x100
        let n := (ZMap.get d.rcgCount g).toNat
        let hot : Bool := decide (ctl.toNat % 2 ^ 16 ≤ n)
        let runs := if hot = bit ctl 29 then 0 else (ZMap.get d.rcgHyst g).toNat + 1
        ZMap.get (t.die die).rcgcnt g = BitVec.ofNat 32 (min n 0xFFFFFFFF) ∧
        SMap.getD (t.die die).rcgctl g 0x100 =
          if ctl.toNat / 2 ^ 30 = 0 ∧ d.cavctl.toNat / 2 ^ 8 % 16 ≤ runs then ctl ^^^ 0x20000000 else ctl)

/-- R63, R375: the oldest waiting entry of a context is posted in the slot of the ring at its tail, with the fields of R63 in their places, where
the ring has a free slot, and waits where it has none; FQHEAD takes what the host writes, and nothing else of the block. In an
absent package, or at an address that names no byte of memory, the slot's bytes are dropped, with an event (R376, R379).
R63, R64, R66, R343, R346, R348, R375: a RETRY answers one posted page of a suspended fragment; once all are answered the fragment performs its
unit again, and the translations of its context that its core and die held are dropped. A FAIL enters the handler with the recorded
fault. An answer to a tag that no posted entry holds is logged as an event of type 8 and changes nothing else. A unit that faults
enters the handler in the same way.
Where the rules leave a point open, the statement follows the model: assumptions 22, 53, 54, 55, 70, 128 (what a post to a full ring
answers, what becomes of one at an address that names no byte of memory, the DIE, ADDR and AUX of an ignored
answer's event, and that every entry must be answered, are the model's choice). -/
def Obligations.FaultQueue : Prop :=
  (∀ (vf head : Nat) (s : State),
    let v := s.vf vf
    let slots := 2 ^ v.cfg 40 1
    let full : Prop := slots ≤ (v.fqTail.toNat + 2 ^ 32 - v.cfg 44 4 % 2 ^ 32) % 2 ^ 32
    let slot := v.cfg 32 8 + 32 * (v.fqTail.toNat % slots)
    let there (a : Nat) : Prop := ((a / 2 ^ 40 % 64 = 0 ∧ a / 2 ^ 39 % 2 = 0) ∨ (16 ≤ a / 2 ^ 40 % 64 ∧ a / 2 ^ 40 % 64 < 32)) ∧ s.absent a = false
    let fine : Prop := slot + 32 ≤ 2 ^ 52 ∧ there slot ∧ there (slot + 31)
    (∀ e rest, v.fqWaiting = e :: rest → ¬ full → ¬ fine → exec (.faultQueuePost vf) s = .next
      ((s.event 1 0 vf 0 0 slot 0).modVf vf fun v => { v with fqWaiting := rest, fqTail := v.fqTail + 1 })) ∧
    (∀ e rest, v.fqWaiting = e :: rest → ¬ full → fine → ∃ t, exec (.faultQueuePost vf) s = .next t ∧
      (let a := slot
       let field (o n x : Nat) : Prop := ofBytes (Memory.bytes t.mem (a + o) n) = x % 256 ^ n
       field 0 8 e.va.toNat ∧ field 8 2 e.vf ∧ field 10 1 e.origin ∧ field 11 1 e.unit ∧ field 12 1 e.kind ∧ field 13 1 e.reason ∧
       field 14 1 e.level ∧ field 15 1 e.plane ∧ field 16 8 e.tag ∧ field 24 8 0 ∧
       ∀ b, b < a ∨ a + 32 ≤ b → ZMap.get t.mem b = ZMap.get s.mem b) ∧
      t.vf vf = { v with fqWaiting := rest, fqTail := v.fqTail + 1 } ∧ (∀ n, n ≠ vf → t.vf n = s.vf n) ∧ t.teams = s.teams ∧
      t.cores = s.cores ∧ t.dies = s.dies) ∧
    (full → exec (.faultQueuePost vf) s = .fault .notEnabled) ∧
    ∃ t, exec (.fqheadWrite vf head) s = .next t ∧ (t.vf vf).cfg 44 4 = head % 2 ^ 32 ∧
      (∀ b, b < 44 ∨ 48 ≤ b → ZMap.get (t.vf vf).block b = ZMap.get v.block b) ∧
      { t.vf vf with block := [] } = { v with block := [] } ∧ (∀ n, n ≠ vf → t.vf n = s.vf n) ∧ t.teams = s.teams ∧ t.mem = s.mem) ∧
  ((∀ (vf tag : Nat) (s : State), let v := s.vf vf
    (((v.fqWaiting.any fun e => e.tag == tag) = true ∨ ∀ y ∈ v.suspended, tag ∉ y.tags) →
      exec (.respRetry vf tag) s = .next (s.event 8 0 vf 0 (tag % 2 ^ 32) 0 0) ∧
      exec (.respFail vf tag) s = .next (s.event 8 0 vf 0 (tag % 2 ^ 32) 0 0)) ∧
    ∀ x, (v.fqWaiting.any fun e => e.tag == tag) = false → (v.suspended.find? fun y => y.tags.contains tag) = some x →
      exec (.respRetry vf tag) s = .next (s.modVf vf fun v => { v with
        suspended := v.suspended.map fun y => if y = x then { y with tags := y.tags.filter fun n => n != tag } else y }) ∧
      (let w := s.modVf vf fun v => { v with suspended := v.suspended.erase x }
       ∀ u g f p, s.team? x.ref.team = some u → s.gang? x.ref.team x.ref.gang = some g → g.frag? x.ref.frag = some f → u.vf = vf →
        let c : Ctx := ⟨x.ref, u, g, f⟩
        c.CanRecord s (2 * c.ref.gang) p → g.handler = none → x.ref.frag ≠ 12 → (s.vf vf).hentry ≠ 0 → x.cls ≠ 16 → x.cls ≠ 20 →
          ∃ t, exec (.respFail vf tag) s = .next t ∧
            c.Enters w t p { cls := x.cls, fbyte := x.fbyte, plane := x.plane, scope := x.scope, sgen := x.sgen } x.word f.pc true)) ∧
  (∀ (team gang : Nat) (s : State) (u : Team) (g : Gang) (f : Fragment) (x : Suspended), s.team? team = some u →
    s.gang? team gang = some g → u.status = .running → g.frag? x.ref.frag = some f →
    ((s.vf u.vf).suspended.find? fun y => decide (y.ref.team = team) && decide (y.ref.gang = gang) && y.tags.isEmpty) = some x →
      ∃ t h, exec (.instructionReplay team gang) s = .next t ∧ t.gang? team gang = some h ∧
        h = g.setFrag x.ref.frag { f with wait := none } ∧ (t.vf u.vf).suspended = (s.vf u.vf).suspended.erase x ∧
        (t.core g.core).tlb = (s.core g.core).tlb.filter (fun y => y.vf != u.vf) ∧
        (t.die (g.core / 64)).tlb = (s.die (g.core / 64)).tlb.filter (fun y => y.vf != u.vf) ∧ t.mem = s.mem ∧
        (∀ m, m ≠ team → t.team? m = s.team? m) ∧ ∀ m, m ≠ gang → t.gang? team m = s.gang? team m) ∧
  ∀ (team gang frag cls : Nat) (fbyte : BitVec 64) (s t : State) (i : Instr) (c : Ctx) (x : Xlat),
    s.fetchUnit ⟨team, gang, frag⟩ = .run i t → t.ctx? = some c → c.CanRecord t (2 * c.ref.gang) x → c.gang.handler = none →
    c.ref.frag ≠ 12 → (t.vf c.vf).hentry ≠ 0 → cls ≤ 18 → cls ≠ 16 →
      ∃ w, exec (.handlerEntry team gang frag cls fbyte) s = .next w ∧
        c.Enters t w x { cls := cls, fbyte := fbyte } (wordOf i) (if cls = 0 then c.after else c.frag.pc) (cls ≠ 0))

/-! ### The life of a team -/

/-- R136, R304 to R308, R365, R403: where a grid's next team comes next on a die, its scopes are written and there is room at a core of its, it
is dispatched there with the grid's attributes, and the grid's count moves on; so is the task that comes next, staged, which then
runs: first the one whose turn it is in a task set that runs serially, from whichever die it waits on.
Where the rules leave a point open, the statement follows the model: assumptions 32, 46, 47, 78, 96, 115, 124 (which cores form a cluster
group, and that a serial set's task is dispatched from
whichever die it waits on, are the model's). -/
def Obligations.Dispatch : Prop :=
  ∀ (grid core die : Nat) (s : State), SMap.wf s.teams = true →
    (∀ g i bud q p, SMap.get? s.grids grid = some g → s.scopesDone g = true → g.det = false → g.coop = false → g.serial = false →
      s.nextWork (core / 64) = some (.team grid) → (s.sitesOf g (core / 64)).contains core = true →
      g.nextOn (core / 64) = some (i, bud, q) → s.roomForGrid grid g core = some p →
        ∃ t n u, exec (.teamDispatch grid core) s = .next t ∧ s.team? n = none ∧ t.team? n = some u ∧ StartsTeam u g.kernel g.gangs ∧
          u.own = .grid grid ∧ u.index = BitVec.ofNat 64 i ∧ u.core = core ∧ u.vf = g.vf ∧ u.argp = g.argp ∧ u.tenant = g.tenant ∧
          u.slots = g.slots ∧ u.det = false ∧ u.staged = g.staged ∧ u.coop = false ∧ u.budget = bud ∧ u.prio = g.prio ∧
          (∀ m, m ≠ n → t.team? m = s.team? m) ∧ t.mem = s.mem ∧
          u.group = (if g.cluster then clusterGroup core g.clgrp else none) ∧
          ∃ saved, (g.cluster = false → saved = g.savedGroups) ∧
            SMap.get? t.grids grid = some { (if g.waiting.any (fun w => w.index == i)
              then { g with waiting := g.waiting.filter fun w => w.index != i } else { g with next := g.next + 1 }) with
                savedGroups := saved }) ∧
    (∀ d n y p, core / 64 = die → SMap.get? (s.die d).tasks n = some y → y.state = .ready →
      (s.serialSet y = true ∧ s.serialTask core = some (d, n)) ∨ (s.serialSet y = false ∧ s.serialTask core = none ∧
        s.nextWork die = some (.task d n) ∧ y.home = die ∧ (s.taskSites y die).contains core = true) →
      s.roomAt y.vf core 0 y.kernel y.gangs = some p →
        ∃ t m u, exec (.taskDispatch die core) s = .next t ∧ s.team? m = none ∧ t.team? m = some u ∧ StartsTeam u y.kernel y.gangs ∧
          u.own = .task d n ∧ u.index = y.lidx ∧ u.core = core ∧ u.vf = y.vf ∧ u.argp = y.argp ∧ u.tenant = y.tenant ∧ u.slots = y.slots ∧
          u.det = y.det ∧ u.staged = true ∧ u.budget = y.budget ∧ u.prio = y.prio ∧ (∀ k, k ≠ m → t.team? k = s.team? k) ∧
          t.mem = s.mem ∧ SMap.get? (t.die d).tasks n = some { y with state := .running, home := die })

/-- R241, R247, R308 to R316, R319, R352, R363: the ends of teams and grids. A staged team that has exited retires: its stores and residue
reductions are performed in program order, then each control instruction that it withheld, in program order; it leaves the machine, and
its grid counts it, where it is deterministic with its digest; a task's counter is decremented by 1, its status word says code 0 and its logical index, and its slot is free.
A stopped team, once its copies and the operations that it has issued into RTUs' queues have completed, leaves it with the code of its cause, and is entered again where the cause is `tabort.retry`; one that is ended
for a fault is logged. Its grid counts it, with the least index among the teams that ended badly and that team's code. A grid of which
every team has finished ends: its status word says its code, its bad teams and the first of them, and its counter is decremented by 1,
after a release at entry 7.
Where the rules leave a point open, the statement follows the model: assumptions 33, 35, 43, 48, 49, 70, 125 (the place of DMODE, status
words written without privilege, and what a team that is still busy answers, are the model's). -/
def Obligations.TeamsEnd : Prop :=
  let less (x : Counter) : Counter := if x.count = 0 then ⟨0, true⟩ else ⟨x.count - 1, x.uf⟩
  let num (m : Nat → Byte) (a n : Nat) : Nat := ((List.range n).map fun i => 256 ^ i * (m (a + i)).toNat).sum
  (∀ (team : Nat) (s : State) (u : Team), s.team? team = some u →
    (s.teamBusy team u = true → ∀ n, exec (.teamDiscard team n) s = .fault .notEnabled ∧ exec (.teamEndForFault team n) s = .fault .notEnabled) ∧
    (s.teamBusy team u = false →
    let counts (t : State) (code : Nat) : Prop := t.team? team = none ∧ (∀ m, m ≠ team → t.team? m = s.team? m) ∧
      ∀ id g, u.own = .grid id → SMap.get? s.grids id = some g → ∃ saved, (u.group = none → saved = g.savedGroups) ∧
        SMap.get? t.grids id = some { (if code = 0
        then { g with finished := g.finished + 1 }
        else { g with
          finished := g.finished + 1
          nbad := g.nbad + 1
          firstBad := if g.nbad = 0 ∨ u.index.toNat < g.firstBad then u.index.toNat else g.firstBad
          badCode := if g.nbad = 0 ∨ u.index.toNat < g.firstBad then code else g.badCode }) with savedGroups := saved }
    let g := u.staging
    let stored := (stagedRuns g.writes).foldl (fun s x => s.commitWrite u x) (s.recorded u).1
    let ordered := stored.releaseNow u.core (stored.latch u.vf u.core 7)
    let r := g.ops.foldl (fun s o => match o with
      | .spawn die slot issued x => s.enterTask die slot { x with budget := x.budget.map fun n => n - ((s.die die).ref - issued) }
      | .launch id g images => s.acceptGrid id g images
      | .refused status code => s.writeStatus (u.core / 64) u.vf status code 0 0
      | .depset n v => s.depSet n v
      | .depdec n v => s.depDec n v) ordered
    (u.staged = true → u.gangs = [] → u.stopped = none → u.status = .running →
      ((s.recorded u).2 = none ∨ (s.recorded u).2 = some g.digest) →
        (∀ id, u.own = .grid id → g.ops = [] → u.det = false → ∃ t, exec (.teamRetirement team) s = .next t ∧ counts t 0) ∧
        (∀ id, u.own = .grid id → ∃ t, exec (.teamRetirement team) s = .next t ∧ t.team? team = none ∧
          (∀ m, m ≠ team → t.team? m = s.team? m) ∧ (∀ n, t.counter n = r.counter n) ∧
          (∀ d n, SMap.get? (t.die d).tasks n = SMap.get? (r.die d).tasks n) ∧
          (∀ n, n ≠ id → SMap.get? t.grids n = SMap.get? r.grids n) ∧
          ∀ x, SMap.get? r.grids id = some x → ∃ saved, (u.group = none → saved = x.savedGroups) ∧ SMap.get? t.grids id = some { x with
            finished := x.finished + 1
            digest := if u.det then x.digest + g.digest * (2 * u.index + 1) else x.digest
            savedGroups := saved }) ∧
        (∀ die slot y, u.own = .task die slot → SMap.get? (r.die die).tasks slot = some y → ∃ t, exec (.teamRetirement team) s = .next t ∧
          t.team? team = none ∧ (∀ m, m ≠ team → t.team? m = s.team? m) ∧ SMap.get? (t.die die).tasks slot = none ∧
          (y.decc = none → ∀ n, t.counter n = r.counter n) ∧ (∀ n, y.decc = some n → t.counter n = less (r.counter n)) ∧
          ∀ x, g.writes = [] → g.ops = [] → u.det = false → y.set = none → (∀ b, ¬ s.written u.core b) → y.stat ≠ 0 → y.stat.toNat % 8 = 0 →
            s.devPages y.vf 2 false y.stat.toNat 8 = .ok [x] →
              ofBytes (Memory.bytes t.mem (x.pa y.stat.toNat) 8) = y.lidx.toNat % 2 ^ 32 ∧
              ∀ b, b < x.pa y.stat.toNat ∨ x.pa y.stat.toNat + 8 ≤ b → b ∉ x.ptes → ZMap.get t.mem b = ZMap.get s.mem b) ∧
        (∀ id (pa : Nat → Nat), u.own = .grid id → u.det = false → (∀ st code, StagedOp.refused st code ∉ g.ops) →
          (∀ va, va % 256 ≠ 255 → pa (va + 1) = pa va + 1) →
          (∀ w ∈ g.writes, ∃ x, x.ptes = [] ∧ match w with
            | .byte va _ => s.xlate u.core u.vf va 2 true = .ok x ∧ x.pa va = pa va ∧ s.absent (pa va) = false
            | .red va _ => s.xlate u.core u.vf va 3 true = .ok x ∧ x.pa va = pa va ∧ s.absent (pa va) = false ∧
                ∀ i, i < 4 → ¬ s.written u.core (pa va + i)) →
            ∃ t, exec (.teamRetirement team) s = .next t ∧ ∀ b, ¬ s.written u.core b → ZMap.get t.mem b =
              g.writes.foldl (fun (m : Nat → Byte) w => match w with
                | .byte va x => fun a => if a = pa va then x else m a
                | .red va x => fun a => if pa va ≤ a ∧ a < pa va + 4
                    then BitVec.ofNat 8 (rnadd (num m (pa va) 4) x / 256 ^ (a - pa va)) else m a) (ZMap.get s.mem) b)) ∧
    (∀ c code, (c = .expired ∧ code = 4) ∨ (c = .dropped ∧ code = 6) → u.stopped = some c → ∀ id, u.own = .grid id →
      ∃ t, exec (.teamDiscard team code) s = .next t ∧ counts t code) ∧
    (u.stopped = some .retry → ∀ id g, u.own = .grid id → SMap.get? s.grids id = some g → ∃ t saved, exec (.teamDiscard team 0) s = .next t ∧
      t.team? team = none ∧ (∀ m, m ≠ team → t.team? m = s.team? m) ∧ (u.group = none → saved = g.savedGroups) ∧
      SMap.get? t.grids id = some { g with
        waiting := g.waiting ++ [⟨u.index.toNat, u.core / 64, u.budget, g.arrival⟩]
        savedGroups := saved }) ∧
    (∀ cls, u.stopped = some (.fault cls) → ∀ id, u.own = .grid id → ∃ t, exec (.teamEndForFault team cls) s = .next t ∧ counts t 5 ∧
      t.flow = (s.event 4 (u.core / 64) u.vf cls (u.index.toNat % 2 ^ 32) 0 0).flow) ∧
    (∀ die slot y, u.own = .task die slot → SMap.get? (s.die die).tasks slot = some y → y.stat = 0 → u.stopped = some .dropped →
      ∃ t, exec (.teamDiscard team 6) s = .next t ∧ t.team? team = none ∧ SMap.get? (t.die die).tasks slot = none))) ∧
  ∀ (grid : Nat) (s : State) (g : Grid), SMap.get? s.grids grid = some g → g.teams ≤ g.finished →
    (g.det = false ∨ (s.vf g.vf).cfg 284 4 = 0) → (s.vf g.vf).head = (s.vf g.vf).tail →
      (g.statusAddr = 0 → g.donec = none →
        exec (.gridEnd grid) s = .next { (s.freeClusters grid) with grids := SMap.erase s.grids grid }) ∧
      (g.statusAddr = 0 → ∀ n, g.donec = some n → ∃ t, exec (.gridEnd grid) s = .next t ∧ t.counter n = less (s.counter n) ∧
        SMap.get? t.grids grid = none ∧ (∀ m, m ≠ grid → SMap.get? t.grids m = SMap.get? s.grids m) ∧ t.teams = s.teams ∧
        ∀ b, ¬ s.heldWritten b → ZMap.get t.mem b = ZMap.get s.mem b) ∧
      ∀ x, g.statusAddr ≠ 0 → g.statusAddr.toNat % 8 = 0 → s.releaseDies.devPages g.vf 2 false g.statusAddr.toNat 8 = .ok [x] →
        ∃ t, exec (.gridEnd grid) s = .next t ∧ (∀ n, g.donec = some n → t.counter n = less (s.counter n)) ∧
          t.grids = SMap.erase s.grids grid ∧ t.teams = s.teams ∧
          ofBytes (Memory.bytes t.mem (x.pa g.statusAddr.toNat) 8) =
            (g.badCode * 2 ^ 56 + min g.nbad (2 ^ 24 - 1) * 2 ^ 32 + g.firstBad % 2 ^ 32) % 2 ^ 64 ∧
          ∀ b, b < x.pa g.statusAddr.toNat ∨ x.pa g.statusAddr.toNat + 8 ≤ b → b ∉ x.ptes → ¬ s.heldWritten b → ZMap.get t.mem b = ZMap.get s.mem b

/-- R121, R138, R212, R305, R312, R314, R356 to R358, R378: moves of teams. A team that stands at unit boundaries is saved with its registers, its
earlier writes performed, its accumulator units returned and no byte of memory written but in its function's save area, with every other team of its cooperative grid or cluster group; restored at
a core where there is room it has every value again, and a cluster group returns together to one cluster; at the end of a slice the
teams that held the cores longer which a waiting team needs (one, the pair of a twin or the cores of a group) are saved, and the team that
waited, of a grid or saved before, or the task, is placed; a task, also one that runs or is suspended, or a team that
has not been dispatched goes from an overloaded die to one with free slots with 2,000 ns less of its budget; where a request fails for
fragmentation alone, and nowhere else, the compactor moves a register range, a Chamber block or a block of lane slices to a free place
and changes no value; and a budget that has run out changes nothing by itself.
Where the rules leave a point open, the statement follows the model: assumptions 32, 49, 50, 52, 57, 70, 72, 115, 123, 124 (which cores
form a group, what a step that is not enabled answers, that a cluster group is
saved and returns with its own place in a cluster, and what the save area takes, are the model's). -/
def Obligations.TeamMoves : Prop :=
  ∀ (team : Nat) (s : State) (u : Team), s.team? team = some u →
    (u.coop = false → u.status = .running → u.stopped = none → s.teamCopies team = false → s.turn = none → u.gangs ≠ [] →
      (∀ n g, (n, g) ∈ u.gangs → ((s.core g.core).quad g.quad).draining = [] ∧ ∀ f ∈ g.frags, match f.2.wait with
        | some (.rtu _ _ _ _ _) | some (.copyFrames _ _ _ _) | some (.scopeWrite _ _ _) | some (.icinv _) | some (.getReset _ _ _ _ _) => False
        | _ => True) → u.group = none →
        ∃ t, exec (.preempt team) s = .next t ∧ t.team? team = some { u with
            status := .saved
            gangs := SMap.mapVals u.gangs fun _ g => { g with
              releases := []
              unacked := 0
              accs := SMap.mapVals g.accs fun _ a => { a with units := [] } } } ∧
          (∀ m, m ≠ team → t.team? m = s.team? m) ∧
          (∀ b, (∀ n ∈ u.kernel.coresAt u.core, ¬ s.written n b) →
            ¬ ((s.vf u.vf).cfg 72 8 ≤ b ∧ b < (s.vf u.vf).cfg 72 8 + (s.vf u.vf).cfg 80 8) → ZMap.get t.mem b = ZMap.get s.mem b) ∧
          ∀ die slot y, u.own = .task die slot → SMap.get? (s.die die).tasks slot = some y →
            SMap.get? (t.die die).tasks slot = some { y with state := .suspended }) ∧
    (∀ core p, u.status = .saved → u.stopped = none → u.coop = false → u.group = none → (s.restoreSites u).contains core = true →
      s.roomToRestore u core = some p → (∀ x ∈ u.gangs, x.2.accs = []) →
        ∃ t v, exec (.teamRestore team core) s = .next t ∧ t.team? team = some v ∧ v.status = .running ∧ v.core = core ∧
          v.chamber = u.chamber ∧ v.bars = u.bars ∧ v.queues = u.queues ∧ v.staging = u.staging ∧ v.budget = u.budget ∧
          (∀ n g, SMap.get? u.gangs n = some g → ∃ h, SMap.get? v.gangs n = some h ∧ h.core ∈ u.kernel.coresAt core ∧
            { h with core := 0, quad := 0, regBase := 0, regSize := 0 } = { g with core := 0, quad := 0, regBase := 0, regSize := 0 }) ∧
          (∀ m, m ≠ team → t.team? m = s.team? m) ∧ t.mem = s.mem) ∧
    ((∀ x ∈ s.savedWith team u, s.canSave x.1 x.2 = true) → ∃ t, exec (.preempt team) s = .next t ∧
      ∀ x ∈ s.savedWith team u, (t.team? x.1).map Team.status = some .saved) ∧
    (∀ id g old core v, u.own = .grid id → u.group = some old → u.status = .saved → u.stopped = none → u.coop = false →
      SMap.get? s.grids id = some g →
      let cs := old.map fun c => core / 8 * 8 + c % 8
      let mates := s.mates u.own u.group
      (s.groupSites id g old).contains cs = true → s.restoreGroup id g old cs mates = some v →
        exec (.teamRestore team core) s = .next v ∧ ∀ n ∈ mates, ∃ x, v.team? n = some x ∧ x.status = .running ∧ x.group = some cs ∧ x.core ∈ cs) ∧
    (∀ vf core (cs : List Nat),
      let saved (cs : List Nat) : State := (s.sliceTeams vf cs).foldl (fun v x => v.saveTeam x.1 x.2) s
      let v := saved cs
      let room (g : Grid) : List Nat := (if g.cluster then (clusterGroup core g.clgrp).getD [] else []) ++
        if g.twin then [core, core + 1] else [core]
      let plain (g : Grid) : Prop := g.vf = vf ∧ g.det = false ∧ g.coop = false ∧ g.serial = false
      (team, u) ∈ s.sliceTeams vf cs → (∀ x ∈ s.sliceTeams vf cs, s.canSave x.1 x.2 = true) →
        (∃ id g h x, SMap.get? s.grids id = some g ∧ plain g ∧ s.roomForGrid id g core = none ∧ cs = distinct (room g) ∧
          SMap.get? v.grids id = some h ∧ plain h ∧ v.scopesDone h = true ∧
          (v.sitesOf h (core / 64)).contains core = true ∧ h.nextOn (core / 64) = some x ∧ (v.roomForGrid id h core).isSome = true) ∨
        (∃ id w, s.team? id = some w ∧ w.vf = vf ∧ w.status = .saved ∧ w.stopped = none ∧ w.coop = false ∧ w.group = none ∧
          (∀ x ∈ w.gangs, x.2.accs = []) ∧ s.roomToRestore w core = none ∧
          cs = (if w.kernel.twin then [core, core + 1] else [core]) ∧ v.team? id = some w ∧
          (v.restoreSites w).contains core = true ∧ (v.roomToRestore w core).isSome = true) ∨
        (∃ d n y z, SMap.get? (s.die d).tasks n = some y ∧ y.state = .ready ∧ s.roomAt y.vf core 0 y.kernel y.gangs = none ∧
          cs = (if y.kernel.twin then [core, core + 1] else [core]) ∧ SMap.get? (v.die d).tasks n = some z ∧ z.vf = vf ∧ z.state = .ready ∧
          v.serialSet z = false ∧ z.home = core / 64 ∧ (v.taskSites z (core / 64)).contains core = true ∧
          (v.roomAt z.vf core 0 z.kernel z.gangs).isSome = true) →
            ∃ t a, exec (.sliceEnd vf core) s = .next t ∧ a ∈ s.attempts ∧ s.sliceTeams vf (a.needs core s) ≠ [] ∧
              a.run core (saved (a.needs core s)) = .next t) ∧
    (∀ die slot dest y, dest < 4 → slot < 65536 → SMap.get? (s.die die).tasks slot = some y → y.home ≠ dest → s.serialSet y = false →
      s.overloaded y.home = true → s.freeSlots (s.taskSites y dest) = true →
      let lost (b : Option Nat) : Option Nat := b.map fun n => n - 2000
      let moved (t : State) (y : Task) : Prop := SMap.get? (t.die die).tasks slot = some y ∧
        ∀ m k, ¬ (m = die ∧ k = slot) → SMap.get? (t.die m).tasks k = SMap.get? (s.die m).tasks k
      (y.state = .held → ∃ t, exec (.teamMigrate die slot dest) s = .next t ∧ moved t { y with home := dest, budget := lost y.budget } ∧
        t.teams = s.teams ∧ t.mem = s.mem) ∧
      (y.state = .ready → ∃ t n, exec (.teamMigrate die slot dest) s = .next t ∧
        moved t { y with home := dest, budget := lost y.budget, seq := n } ∧ t.teams = s.teams ∧ t.mem = s.mem) ∧
      (s.teamOfTask die slot = some team → u.own = .task die slot →
        (y.state = .running ∧ s.canSave team u = true) ∨ (y.state = .suspended ∧ u.stopped = none) → ∃ t n,
          exec (.teamMigrate die slot dest) s = .next t ∧ moved t { y with state := .ready, home := dest, budget := lost u.budget, seq := n } ∧
          t.team? team = none ∧ ∀ m, m ≠ team → t.team? m = s.team? m)) ∧
    (∀ die id dest g i bud q, die ≠ dest → dest < 4 → SMap.get? s.grids id = some g → g.det = false → s.overloaded die = true →
      s.freeSlots (s.sitesOf g dest) = true → g.nextOn die = some (i, bud, q) → exec (.teamMigrate die (65536 + id) dest) s =
        .next { s with grids := SMap.set s.grids id { g with
          next := if g.waiting.any (fun w => w.index == i) then g.next else g.next + 1
          waiting := (g.waiting.filter fun w => w.index != i) ++ [⟨i, dest, bud.map fun b => b - 2000, g.arrival⟩] } }) ∧
    (let fits (old size base : Nat) : Prop := size ≠ 0 ∧ base % size = 0 ∧ base + size ≤ 256 ∧ base ≠ old ∧
       (bit (s.core u.core).qown 63 = true → base / 64 = old / 64) ∧
       ∀ b ∈ (s.core u.core).shareBlock ++ s.blocks u.core, b ≠ (old, size) → b.1 + b.2 ≤ base ∨ base + size ≤ b.1
     ∀ base, u.status = .running →
      (fits u.chBase u.chSize base → u.frames = [] → s.fragmented u.core = true →
        exec (.compactorMove team 32 base) s = .next (s.modTeam team fun x => { x with chBase := base })) ∧
      (fits u.laneBase u.laneSize base → s.fragmented u.core = true →
        exec (.compactorMove team 33 base) s = .next (s.modTeam team fun x => { x with laneBase := base })) ∧
      (s.fragmented u.core = false → ∀ n, n = 32 ∨ n = 33 → exec (.compactorMove team n base) s = .fault .notEnabled) ∧
      ∀ gang g, gang < 32 → SMap.get? u.gangs gang = some g →
        (g.regSize ≠ 0 → base % g.regSize = 0 → base + g.regSize ≤ 128 → base ≠ g.regBase →
          (∀ r ∈ s.ranges, r.1 = g.core → r.2.1 = g.quad → r.2.2.1 ≠ g.regBase → r.2.2.1 + r.2.2.2 ≤ base ∨ base + g.regSize ≤ r.2.2.1) →
          s.fragmented g.core = true →
            exec (.compactorMove team gang base) s = .next (s.modGang team gang fun x => { x with regBase := base })) ∧
        (s.fragmented g.core = false → exec (.compactorMove team gang base) s = .fault .notEnabled)) ∧
    (u.budget = some 0 → exec (.deadlineExpiry team) s = .next s)

/-! ### The host, the package and the board -/

/-- R252, R303, R374, R384: a write of TAIL that would hold more entries than the ring has slots is logged and changes nothing else; one of
HEAD takes nothing; and the one entry of a ring whose record can be read and is accepted becomes a grid with the record's fields, under an
identifier that is not zero and that no grid has, and HEAD passes it.
R373, R377, R381, R384: a write of the PF to a field of a configuration block changes that field alone while the block is not locked, and the
fields that stay writable while it is; in LOCKED or RUN any other write is dropped, sets STATE to ERROR and is logged; ERROR is left for
UNLOCKED alone; an access of a size that the field has not is an error. A flush of a context brings its written bytes home from every
L1 and remote partition, and no other value changes.
Where the rules leave a point open, the statement follows the model: assumptions 18, 22, 35, 37, 38, 53, 65 (the places of the block's
fields, the DIE of the events and the TAIL in
DETAIL are the model's choice). -/
def Obligations.HostConfiguration : Prop :=
  (∀ (vf tail : Nat) (s : State),
    let v := s.vf vf
    let x : BitVec 32 := BitVec.ofNat 32 tail
    (2 ^ v.cfg 24 1 < (x - v.head).toNat → exec (.doorbellTailWrite vf tail) s = .next (s.event 8 0 vf 0 (tail % 2 ^ 32) 0 0)) ∧
    (x = v.head → exec (.doorbellTailWrite vf tail) s = .next (s.modVf vf fun v => { v with tail := x })) ∧
    ∀ w bs y z g, x = v.head + 1 → (s.modVf vf fun v => { v with tail := x }).ringRecord vf v.head.toNat = (w, .ok bs) →
      v.cfg 284 4 = 0 → readLaunch (devReader (w.ringDie vf) vf) w bs = (y, z) → y.launchCode vf z = 0 →
      y.gridFor vf (w.ringDie vf) z = some g → ∃ t n k l, exec (.doorbellTailWrite vf tail) s = .next t ∧ n ≠ 0 ∧
        SMap.get? s.grids n = none ∧ SMap.get? t.grids n = some { g with arrival := k, scopes := l } ∧
        (∀ m, m ≠ n → SMap.get? t.grids m = SMap.get? s.grids m) ∧ (t.vf vf).head = x ∧ (t.vf vf).tail = x ∧ t.teams = s.teams) ∧
  (∀ (vf off n value : Nat) (s : State), s.board.pkg < 64 → vf < 16 →
    let v := s.vf vf
    let wrote (t : State) (off n x : Nat) : Prop := (∀ i, i < n → ZMap.get (t.vf vf).block (off + i) = BitVec.ofNat 8 (x / 256 ^ i)) ∧
      (∀ b, b < off ∨ off + n ≤ b → ZMap.get (t.vf vf).block b = ZMap.get v.block b) ∧
      { t.vf vf with block := [] } = { v with block := [] } ∧ (∀ m, m ≠ vf → t.vf m = s.vf m) ∧ t.teams = s.teams ∧ t.mem = s.mem ∧
      t.cores = s.cores ∧ t.dies = s.dies
    let open_ : Prop := off ∈ [10, 12, 44, 288, 296, 304]
    let locked : Prop := v.cfg 10 1 = 1 ∨ v.cfg 10 1 = 2
    ((off, n) ∈ blockFields → off ≠ 10 → off ≠ 296 → (locked → open_) → ∃ t, exec (.configBlockWrite vf off n value) s = .next t ∧
      wrote t off n (value % 2 ^ 64) ∧ t.hostError = false) ∧
    ((off, n) ∈ blockFields → locked → ¬ open_ → ∃ t, exec (.configBlockWrite vf off n value) s = .next t ∧ wrote t 10 1 3 ∧
      t.flow = (s.event 9 0 vf 0 0 (s.board.pkg * 2 ^ 46 + 0x3F * 2 ^ 40 + 2 ^ 35 + 0x1000 * vf + off) 0).flow) ∧
    (off = 10 → n = 1 → value < 4 → (v.cfg 10 1 = 3 → value = 0) → ∃ t, exec (.configBlockWrite vf off n value) s = .next t ∧
      wrote t 10 1 value) ∧
    (off = 10 → n = 1 → v.cfg 10 1 = 3 → 0 < value → value < 4 → ∃ t, exec (.configBlockWrite vf off n value) s = .next t ∧
      t.vf vf = v) ∧
    (off < 4096 → (∃ f ∈ blockFields, f.1 = off ∧ f.2 ≠ n) → (off, n) ∉ blockFields → ∃ t,
      exec (.configBlockWrite vf off n value) s = .next t ∧ t.hostError = true ∧ t.vfs = s.vfs) ∧
    ∃ t, exec (.migctlFlush vf) s = .next t ∧ (∀ m, ∀ l ∈ (t.core m).l1, l.vf = vf → l.dirty = 0) ∧
      (∀ d, ∀ l ∈ (t.die d).remote, l.dirty = 0) ∧ t.teams = s.teams ∧ t.vfs = s.vfs ∧
      (∀ b, (∀ m, ¬ s.written m b) → ZMap.get t.mem b = ZMap.get s.mem b) ∧
      ∀ m l o, l ∈ (s.core m).l1 → l.vf = vf → o < 256 → bit l.dirty o = true → s.absent (l.num * 256) = false →
        (∀ k x, (x ∈ (s.core k).l1 ∨ ∃ d, x ∈ (s.die d).remote) → x.num = l.num → x = l ∨ x.dirty = 0) →
          ZMap.get t.mem (l.num * 256 + o) = ZMap.get l.data o)

/-- R52, R55, R365, R370, R373, R376, R378, R384: writes of the package's registers by the agents that reach them. L2PART takes effect once every line
of the die's L2 is written back and invalid; RTUCFG ignores a limit of 1; CAVCTL and RCGCTL keep a field whose new value is reserved,
PINNED follows MODE, and a change of MODE starts the count of epochs anew; QOWN takes effect once the core's teams are saved, and those of
a group to whose Gallery share the core lends frames; FSCTL with CLR ends the freeze and clears the count of lost
events. Another agent, another size or an offset without a register is an error that is logged, and nothing is written.
Where the rules leave a point open, the statement follows the model: assumptions 22, 58, 64, 107 (the DIE and DETAIL of a refused access's
event, and the teams of a share that the core lends, are the model's choice). -/
def Obligations.PackageRegisters : Prop :=
  ∀ (die core agent size pa : Nat) (value : BitVec 64) (s : State), s.board.pkg < 64 → die < 4 →
    let d := s.die die
    let x := value.toNat
    let at_ (o : Nat) : Nat := s.board.pkg * 2 ^ 46 + 0x3F * 2 ^ 40 + die * 2 ^ 32 + o
    let cav : BitVec 32 :=
      let c := d.cavctl.toNat
      BitVec.ofNat 32 ((if x / 2 ^ 12 % 16 ≤ 12 then x / 2 ^ 12 % 16 else c / 2 ^ 12 % 16) * 2 ^ 12 +
        (if x / 2 ^ 8 % 16 = 0 then c / 2 ^ 8 % 16 else x / 2 ^ 8 % 16) * 2 ^ 8 +
        if 10 ≤ x % 32 ∧ x % 32 ≤ 30 then x % 32 else c % 32)
    let rcg (g : Nat) : BitVec 32 :=
      let c := (SMap.getD d.rcgctl g 0x100).toNat
      let m := if x / 2 ^ 30 % 4 = 3 then c / 2 ^ 30 % 4 else x / 2 ^ 30 % 4
      BitVec.ofNat 32 (m * 2 ^ 30 + (if m = 1 then 1 else if m = 2 then 0 else c / 2 ^ 29 % 2) * 2 ^ 29 + x % 2 ^ 16)
    let sets (i : Instr) (f : Die) : Prop := ∃ t, exec i s = .next t ∧ t.die die = f ∧ (∀ n, n ≠ die → t.die n = s.die n) ∧
      t.mem = s.mem ∧ t.cores = s.cores ∧ t.teams = s.teams ∧ t.vfs = s.vfs ∧ t.hostError = false
    ((∀ l ∈ d.remote, ∀ o, o < 256 → s.homeDie (l.num * 256 + o) ≠ some die) →
      ∃ t, exec (.l2partWrite die (value.setWidth 32)) s = .next t ∧ (t.die die).l2part = value.setWidth 32 &&& 0xF ∧ (t.die die).l2 = [] ∧
        (t.die die).remote = [] ∧ t.cores = s.cores ∧ t.teams = s.teams ∧
        (∀ b, (∀ l ∈ d.remote, l.num = b / 256 → bit l.dirty (b % 256) = false) → ZMap.get t.mem b = ZMap.get s.mem b) ∧
        ∀ l ∈ d.remote, (∀ y ∈ d.remote, y.num = l.num → y = l) → s.absent (l.num * 256) = false → ∀ o, o < 256 → bit l.dirty o = true →
          ZMap.get t.mem (l.num * 256 + o) = ZMap.get l.data o) ∧
    (agent ≤ 1 → sets (.registerWrite agent (at_ 0x1000) 4 value)
      (if x % 2 ^ 13 = 1 then d else { d with rtucfg := BitVec.ofNat 32 (x % 2 ^ 13) })) ∧
    (let done := if agent = 0 then d.belv else { d.belv with accessFault := false }
     agent = 0 ∨ agent = 16 + die →
      sets (.registerWrite agent (at_ 0x10800) 4 value) { d with cavctl := cav, belv := done } ∧
      ∀ g, g < 256 → sets (.registerWrite agent (at_ (0x10000 + 4 * g)) 4 value)
        { d with
          rcgctl := SMap.set d.rcgctl g (rcg g)
          rcgHyst := if x / 2 ^ 30 % 4 = 3 ∨ x / 2 ^ 30 % 4 = (SMap.getD d.rcgctl g 0x100).toNat / 2 ^ 30 % 4
            then d.rcgHyst else ZMap.set d.rcgHyst g 0
          belv := done }) ∧
    (sets (.registerWrite 0 (at_ 0x20000) 8 value) { d with tlbiva := value &&& 0x007FFFFFFFFF0000 }) ∧
    let lends (u : Team) : Prop := (s.core (64 * die + core)).galShare ≠ 0 ∧ ∃ cs, u.group = some cs ∧ 64 * die + core ∈ cs
    ((∀ p ∈ s.teams, p.2.status = .running → p.2.core ≠ 64 * die + core ∧ p.2.twin ≠ some (64 * die + core) ∧ ¬ lends p.2) →
      (∃ t, exec (.qownWrite die core value) s = .next t ∧ (t.core (64 * die + core)).qown = value &&& 0x80000000000FFFFF ∧
        (∀ n, n ≠ 64 * die + core → (t.core n).qown = (s.core n).qown) ∧ t.teams = s.teams ∧ t.mem = s.mem) ∧
      (SMap.get? (s.die ((64 * die + core) / 64)).mergeGrid ((64 * die + core) / 8) = none → exec (.qownWrite die core value) s =
        .next (s.modCore (64 * die + core) fun c => { c with qown := value &&& 0x80000000000FFFFF }))) ∧
    (∀ team u, s.teams = [(team, u)] → u.core = 64 * die + core ∨ u.twin = some (64 * die + core) ∨ lends u → s.canSave team u = true →
      ∃ t, exec (.qownWrite die core value) s = .next t ∧ (t.core (64 * die + core)).qown = value &&& 0x80000000000FFFFF ∧
        (t.team? team).map Team.status = some .saved) ∧
    exec .fsctlClr s = .next { s with flow := { s.flow with frozen := false, lost := 0 } } ∧
    (s.reachReg agent pa size = none → ∃ t, exec (.registerWrite agent pa size value) s = .next t ∧ t.hostError = true ∧
      t = (let e := { (s.event 1 0 (if 32 ≤ agent then agent - 32 else 255) 0 0 pa 0) with hostError := true }
        if 16 ≤ agent ∧ agent < 20 then e.modDie (agent - 16) fun x => { x with belv := { x.belv with accessFault := true } } else e)) ∧
    (∀ r, pa < 2 ^ 64 → s.reachReg agent pa size = some r → ∃ t, exec (.hostLoad (16 + agent) (BitVec.ofNat 64 pa) size) s = .next t ∧
      t.hostResult = s.readReg r size ∧ t.hostError = false ∧ t.mem = s.mem ∧ t.teams = s.teams ∧ t.vfs = s.vfs) ∧
    (∀ o, 0x10400 ≤ o → o < 0x10800 → o % 4 = 0 → agent = 0 → ∃ t, exec (.registerWrite agent (at_ o) 4 value) s = .next t ∧
      t = { s with hostError := false })

/-- R41, R240, R242, R243, R269, R376, R379: accesses from outside. A host load through a function's window answers the bytes at their home, a store writes
them there, and an atomic reads and writes there where the page allows it (SYSAT) and is dropped and logged where it does not; an access that
no page serves is an error. A load, a store or an atomic lane from another package of the domain is performed at home.
R240, R243 to R247: an atomic lane of 4 or 8 bytes that comes to its home slice reads the number there and stores what its operation makes
of it, in one step: the aligned bytes at the address alone change, and the answer is the number that was there; so does a residue
add, and a float reduction by the function of R245 that GlobalAtomics gives. Beside it, only what the home die's L2 and Cavern hold
and count may change.
Where the rules leave a point open, the statement follows the model: the DIE and DETAIL of the events (assumption 22), the leaf of an
access translated outside (assumption 108), and assumptions 21, 58. -/
def Obligations.OutsideAccesses : Prop :=
  (∀ (vf pkg pa size op : Nat) (va v cmp : BitVec 64) (s : State) (x : Xlat),
    let a := va.toNat
    let p := x.pa a
    let old (p : Nat) : Nat := ofBytes (Memory.bytes s.mem p size)
    let bits := 8 * size
    let y := v.toNat % 2 ^ bits
    let new (p : Nat) : Nat := match op with
      | 0 => (old p + y) % 2 ^ bits
      | 1 => if sext (old p) bits ≤ sext y bits then old p else y
      | 2 => if sext (old p) bits ≤ sext y bits then y else old p
      | 3 => min (old p) y
      | 4 => max (old p) y
      | 5 => old p &&& y
      | 6 => old p ||| y
      | 7 => old p ^^^ y
      | 8 => y
      | 9 => if old p = cmp.toNat % 2 ^ bits then y else old p
      | 10 => rnadd (old p % 2 ^ 32) (y % 2 ^ 32) + if size = 8 then 2 ^ 32 * rnadd (old p / 2 ^ 32) (y / 2 ^ 32) else 0
      | _ => gredFn ((op - 16).testBit 2) ((op - 16).testBit 3) ((op - 16).testBit 4) (op % 4) (old p) y
    let lane : Prop := (op ≤ 10 ∧ (size = 4 ∨ size = 8)) ∨ (16 ≤ op ∧ op < 48 ∧ size = 4)
    let stored (t : State) (p z : Nat) (ptes : List Nat) : Prop :=
      (∀ i, i < size → ZMap.get t.mem (p + i) = BitVec.ofNat 8 (z / 256 ^ i)) ∧
      (∀ b, b < p ∨ p + size ≤ b → b ∉ ptes → ZMap.get t.mem b = ZMap.get s.mem b) ∧ t.teams = s.teams ∧ t.cores = s.cores ∧ t.vfs = s.vfs
    let here : Prop := ∀ i, i < size → s.absent (x.pa (a + i)) = false
    let apart : Prop := ∀ i, i < size → p + i ∉ x.ptes
    (vf < 16 → 1 ≤ size → size ≤ 8 → here →
      (s.devPages vf 1 true a size = .ok [x] → ∃ t, exec (.hostLoad vf va size) s = .next t ∧ t.hostResult = BitVec.ofNat 64 (old p) ∧
        t.hostError = false ∧ (apart → stored t p (old p) x.ptes)) ∧
      (s.devPages vf 2 true a size = .ok [x] → ∃ t, exec (.hostStore vf va size v) s = .next t ∧ t.hostError = false ∧
        stored t p v.toNat x.ptes) ∧
      (s.devPages vf 3 true a size = .ok [x] → size = 4 ∨ size = 8 → a % size = 0 → op ≤ 9 → apart → bit x.leaf 13 = true →
        ∃ t, exec (.hostAtomic vf va size op v cmp) s = .next t ∧ t.hostResult = BitVec.ofNat 64 (old p) ∧ t.hostError = false ∧
          stored t p (new p) x.ptes) ∧
      (s.devPages vf 3 true a size = .ok [x] → size = 4 ∨ size = 8 → a % size = 0 → op ≤ 9 → bit x.leaf 13 = false →
        exec (.hostAtomic vf va size op v cmp) s = .next { (s.event 2 0 vf 0 0 a 0) with hostError := true })) ∧
    (∀ e, vf < 16 → 1 ≤ size → size ≤ 8 → s.devPages vf 1 true a size = .error e → exec (.hostLoad vf va size) s =
      .next { (s.event 1 0 vf 0 0 a 0) with hostError := true, hostResult := BitVec.ofNat 64 (2 ^ (8 * size) - 1) }) ∧
    (∀ e, vf < 16 → 1 ≤ size → size ≤ 8 → s.devPages vf 2 true a size = .error e → exec (.hostStore vf va size v) s =
      .next { (s.event 1 0 vf 0 0 a 0) with hostError := true }) ∧
    (pkg ≠ s.board.pkg → bit s.board.domain pkg = true → bit s.board.failed pkg = false → 1 ≤ size → size ≤ 8 →
      pa / 2 ^ 46 % 64 = s.board.pkg → pa / 2 ^ 40 % 64 = 0 → pa / 2 ^ 39 % 2 = 0 →
        (2 ^ 39 < pa % 2 ^ 39 + size → ∀ kind, exec (.remoteAccess pkg pa size kind v cmp) s =
          .next { (s.event 1 0 255 0 0 pa 0) with hostError := true }) ∧
        (pa % 2 ^ 39 + size ≤ 2 ^ 39 →
        (∃ t, exec (.remoteAccess pkg pa size 0 v cmp) s = .next t ∧ t.hostResult = BitVec.ofNat 64 (old pa) ∧ t.hostError = false ∧
          t.mem = s.mem) ∧
        (∃ t, exec (.remoteAccess pkg pa size 1 v cmp) s = .next t ∧ t.hostError = false ∧ stored t pa v.toNat []) ∧
        (lane → pa % size = 0 → ∃ t, exec (.remoteAccess pkg pa size (op + 2) v cmp) s = .next t ∧
          t.hostResult = BitVec.ofNat 64 (old pa) ∧ t.hostError = false ∧ stored t pa (new pa) []))) ∧
    (pkg = s.board.pkg ∨ bit s.board.domain pkg = false ∨ bit s.board.failed pkg = true →
      ∀ kind, exec (.remoteAccess pkg pa size kind v cmp) s = .next { (s.event 1 0 255 0 0 pa 0) with hostError := true })) ∧
  (∀ (pa size op : Nat) (v cmp : BitVec 64) (s : State),
    let bits := 8 * size
    let old := ofBytes (Memory.bytes s.mem pa size)
    let x := v.toNat % 2 ^ bits
    let new : Nat := match op with
      | 0 => (old + x) % 2 ^ bits
      | 1 => if sext old bits ≤ sext x bits then old else x
      | 2 => if sext old bits ≤ sext x bits then x else old
      | 3 => min old x
      | 4 => max old x
      | 5 => old &&& x
      | 6 => old ||| x
      | 7 => old ^^^ x
      | 8 => x
      | 9 => if old = cmp.toNat % 2 ^ bits then x else old
      | 10 => rnadd (old % 2 ^ 32) (x % 2 ^ 32) + if size = 8 then 2 ^ 32 * rnadd (old / 2 ^ 32) (x / 2 ^ 32) else 0
      | _ => gredFn ((op - 16).testBit 2) ((op - 16).testBit 3) ((op - 16).testBit 4) (op % 4) old x
    (op ≤ 10 ∧ (size = 4 ∨ size = 8)) ∨ (16 ≤ op ∧ op < 48 ∧ size = 4) → pa % size = 0 → pa / 2 ^ 40 % 64 = 0 → pa / 2 ^ 39 % 2 = 0 →
      pa / 2 ^ 46 % 64 = s.board.pkg →
      ∃ t, exec (.homeSliceAtomic pa size op v cmp) s = .next t ∧ t.hostResult = BitVec.ofNat 64 old ∧ t.hostError = false ∧
        (∀ i, i < size → ZMap.get t.mem (pa + i) = BitVec.ofNat 8 (new / 256 ^ i)) ∧
        (∀ b, b < pa ∨ pa + size ≤ b → ZMap.get t.mem b = ZMap.get s.mem b) ∧
        t = { s with mem := t.mem, dies := t.dies, hostResult := t.hostResult, hostError := false } ∧
        ∀ d, { t.die d with l2 := [], cavern := [], rcgCount := [] } = { s.die d with l2 := [], cavern := [], rcgCount := [] })

/-- R118, R254, R269, R326 to R328, R376, R404: the registers and accesses of a Belvedere core. A read of gpop takes the oldest entry of the gate
queue, with its context in ginfo, and an entry of KIND 1 brings its attributes; on an empty queue it reads 0. Loads and stores reach
the scratchpad, the context's windows of the G-space, a store there after a release at entry 7, and its pages, a load of a page with what
the core's die holds written, and a page of package registers as R373 lets the core reach them; one that is out of range, or whose page
fails, faults in the core, is logged and changes nothing else. The other registers read as they were
written, sattr in its two bits alone, and those that act do what the core does by name.
R307, R319, R327, R404: a spawn by the core of a well-formed record of its scratchpad enters the task, with the attribute set that gctx and
sattr name, and clears the refusal bit of ginfo, and waits while the task table is full; of any other record, or of one that is not
aligned or lies outside, it sets that bit and enters nothing. `dset` and `ddec` act on the counter that depn names in context gctx as
`depset` and `depdec` do; a `dset` of 2^32 or more and a name that is not one of the context perform nothing.
Where the rules leave a point open, the statement follows the model: assumptions 39, 70, 76 (a spawn that finds the table full answers
notEnabled, as the model chooses). -/
def Obligations.BelvedereCore : Prop :=
  (∀ (die n size : Nat) (a v : BitVec 64) (s : State),
    let d := s.die die
    let b := d.belv
    let vf := b.gctx.toNat
    let x := a.toNat
    let is (i : Instr) (f : Belvedere) : Prop := exec i s = .next (s.modDie die fun d => { d with belv := f })
    let faults (i : Instr) : Prop := exec i s =
      .next ((s.event 1 die vf 0 0 x 0).modDie die fun d => { d with belv := { d.belv with accessFault := true } })
    let held (p : Nat) : Byte := match d.remote.find? fun l => decide (l.num = p / 256) && bit l.dirty (p % 256) with
      | some l => ZMap.get l.data (p % 256)
      | none => ZMap.get s.mem p
    let num (f : Nat → Byte) (p : Nat) : Nat := ((List.range size).map fun i => 256 ^ i * (f (p + i)).toNat).sum
    (d.gate = [] → is (.gpop die) { b with ginfo := b.ginfo &&& 0x4000000000000FFF, popped := none, result := 0 }) ∧
    (∀ e rest, d.gate = e :: rest → exec (.gpop die) s = .next (s.modDie die fun d => { d with
      gate := rest
      attrs := if e.word.toNat / 4 % 16 = 1 then SMap.set d.attrs (4 * e.vf + e.word.toNat % 4) e.attrs else d.attrs
      belv := { b with
        ginfo := (b.ginfo &&& 0x4000000000000000) ||| 0x8000000000000000 ||| BitVec.ofNat 64 e.vf
        popped := some e
        result := e.word } })) ∧
    (size ∈ [1, 2, 4, 8] →
      (x + size ≤ 262144 →
        is (.belvedereAccess die a size 0 v) { b with
          result := BitVec.ofNat 64 (ofBytes (Memory.bytes b.scratch x size))
          accessFault := false } ∧
        is (.belvedereAccess die a size 1 v) { b with
          scratch := Memory.store b.scratch x (toBytes v.toNat size)
          accessFault := false }) ∧
      (∀ kind, kind < 2 → x < 2 ^ 63 → 262144 < x + size → faults (.belvedereAccess die a size kind v)) ∧
      (x / 2 ^ 62 = 3 → let g := x / 2 ^ 26 % 4
        let w := (s.vf vf).grotto g
        (x % 2 ^ 26 + size ≤ w.2 →
          is (.belvedereAccess die a size 0 v) { b with
            result := BitVec.ofNat 64 (ofBytes (Memory.bytes (s.die g).grotto (w.1 + x % 2 ^ 26) size))
            accessFault := false } ∧
          exec (.belvedereAccess die a size 1 v) s = .next ((s.releaseDies.modDie g fun y => { y with
            grotto := Memory.store y.grotto (w.1 + x % 2 ^ 26) (toBytes v.toNat size) }).modDie die fun y =>
              { y with belv := { y.belv with accessFault := false } })) ∧
        (∀ kind, kind < 2 → w.2 < x % 2 ^ 26 + size → faults (.belvedereAccess die a size kind v))) ∧
      (x / 2 ^ 62 = 2 → let va := x % 2 ^ 63
        (∀ y, s.devPages vf 1 false va size = .ok [y] → ∃ t, exec (.belvedereAccess die a size 0 v) s = .next t ∧
          (t.die die).belv = { b with result := BitVec.ofNat 64 (num held (y.pa va)), accessFault := false } ∧
          (∀ p, p ∉ y.ptes → ZMap.get t.mem p = ZMap.get s.mem p) ∧ t.teams = s.teams ∧ t.vfs = s.vfs) ∧
        (∀ e z, s.devPages vf 2 false va size = .ok z → s.releaseDies.devPages vf 2 false va size = .error e →
          faults (.belvedereAccess die a size 1 v)) ∧
        (∀ y z, s.devPages vf 2 false va size = .ok z → s.releaseDies.devPages vf 2 false va size = .ok [y] →
          ∃ t, exec (.belvedereAccess die a size 1 v) s = .next t ∧
          (t.die die).belv = { b with accessFault := false } ∧
          (∀ i, i < size → ZMap.get t.mem (y.pa va + i) = BitVec.ofNat 8 (v.toNat / 256 ^ i)) ∧
          (∀ p, p < y.pa va ∨ y.pa va + size ≤ p → p ∉ y.ptes → ¬ s.heldWritten p → ZMap.get t.mem p = ZMap.get s.mem p) ∧
          t.teams = s.teams ∧ t.vfs = s.vfs) ∧
        (∀ kind e, kind < 2 → s.devPages vf (kind + 1) false va size true = .error e → faults (.belvedereAccess die a size kind v)) ∧
        ∀ kind y, kind < 2 → s.devPages vf (kind + 1) false va size true = .ok [y] → y.pa va / 2 ^ 40 % 64 = 63 →
          (s.reachReg (16 + die) (y.pa va) size = none → faults (.belvedereAccess die a size kind v)) ∧
          ∀ r, s.reachReg (16 + die) (y.pa va) size = some r →
            (kind = 0 → ∃ t, exec (.belvedereAccess die a size 0 v) s = .next t ∧
              (t.die die).belv = { b with result := BitVec.ofNat 64 (s.readReg r size).toNat, accessFault := false } ∧
              (∀ p, p ∉ y.ptes → ZMap.get t.mem p = ZMap.get s.mem p) ∧ t.teams = s.teams ∧ t.vfs = s.vfs) ∧
            ∀ w, kind = 1 → writeReg r size (BitVec.ofNat 64 (v.toNat % 256 ^ size)) (s.useWalks 2 [y]) = .next w →
              exec (.belvedereAccess die a size 1 v) s = .next (w.modDie die fun d => { d with belv := { d.belv with accessFault := false } }))) ∧
    (let reads (k : Nat) (x : Word) : Prop := is (.belvedereAccess die (BitVec.ofNat 64 k) n 2 v) { b with result := x, accessFault := false }
     let sets (k : Nat) (f : Belvedere) : Prop := is (.belvedereAccess die (BitVec.ofNat 64 k) n 3 v) f
     reads 0xCC1 b.ginfo ∧ reads 0xCC2 (BitVec.ofNat 64 d.gate.length) ∧ reads 0x8C0 b.gctx ∧ reads 0x8C2 b.depn ∧ reads 0x8C5 b.ctx ∧
     reads 0x8C6 b.crx ∧ reads 0x8C7 b.sattr ∧ sets 0x8C0 { b with gctx := v } ∧ sets 0x8C2 { b with depn := v } ∧
     sets 0x8C5 { b with ctx := v } ∧ sets 0x8C6 { b with crx := v } ∧ sets 0x8C7 { b with sattr := v &&& 3 } ∧
     exec (.belvedereAccess die 0xCC0 n 2 v) s = exec (.gpop die) s ∧
     exec (.belvedereAccess die 0x8C1 n 3 v) s = exec (.belvedereSpawn die v.toNat) s ∧
     exec (.belvedereAccess die 0x8C3 n 3 v) s = exec (.dset die v) s ∧ exec (.belvedereAccess die 0x8C4 n 3 v) s = exec (.ddec die v) s)) ∧
  (∀ (die addr name : Nat) (value : BitVec 64) (s w : State) (k : Option Kernel),
    let b := (s.die die).belv
    let vf := b.gctx.toNat
    let at_ := (s.die die).attrSet vf (b.sattr.toNat % 4)
    let bs := Memory.bytes b.scratch addr 64
    let refusal (t : State) : Bool := bit (t.die die).belv.ginfo 62
    let lo := (s.vf vf).counters.1
    let dec := value.toNat % 2 ^ 32
    (addr % 64 ≠ 0 ∨ 262144 < addr + 64 → exec (.belvedereSpawn die addr) s = .next (s.modDie die fun d => { d with belv := { d.belv with
      ginfo := (b.ginfo &&& 0x8000000000000FFF) ||| 0x4000000000000000 } })) ∧
    (addr % 64 = 0 → addr + 64 ≤ 262144 → readKernel (recordReader die vf) s (fieldAt bs 0 8) = (w, k) →
      (taskBad (w.vf vf) at_.tenant k bs ≠ [] → ∃ t, exec (.belvedereSpawn die addr) s = .next t ∧ refusal t = true ∧
        ∀ m, (t.die m).tasks = (s.die m).tasks) ∧
      (taskBad (w.vf vf) at_.tenant k bs = [] → w.freeSlot die = none → exec (.belvedereSpawn die addr) s = .fault .notEnabled) ∧
      (∀ slot gen, taskBad (w.vf vf) at_.tenant k bs = [] → w.freeSlot die = some (slot, gen) →
        ∃ t y, exec (.belvedereSpawn die addr) s = .next t ∧ refusal t = false ∧ SMap.get? (s.die die).tasks slot = none ∧
          SMap.get? (t.die die).tasks slot = some y ∧ some y.kernel = k ∧ y.gen = gen ∧ y.vf = vf ∧ y.home = die ∧
          y.argp = BitVec.ofNat 64 (fieldAt bs 8 8) ∧ y.prio = fieldAt bs 28 1 ∧ y.gangs = fieldAt bs 29 1 ∧ y.qsel = fieldAt bs 31 1 ∧
          y.lidx = BitVec.ofNat 64 (fieldAt bs 32 8) ∧ y.stat = BitVec.ofNat 64 (fieldAt bs 40 8) ∧ y.slots = at_.slots ∧
          y.det = at_.det ∧ y.tenant = at_.tenant ∧ y.set = none ∧
          ∀ m j, ¬ (m = die ∧ j = slot) → SMap.get? (t.die m).tasks j = SMap.get? (s.die m).tasks j)) ∧
    (b.depn = BitVec.ofNat 64 name → name < 2 ^ 18 → lo ≤ name % 2 ^ 16 → name % 2 ^ 16 < lo + (s.vf vf).counters.2 →
      (value.toNat < 2 ^ 32 → ∃ t, exec (.dset die value) s = .next t ∧ CounterSet s t name ⟨BitVec.ofNat 32 value.toNat, false⟩ ∧
        ∀ p, ¬ s.heldWritten p → ZMap.get t.mem p = ZMap.get s.mem p) ∧
      (2 ^ 32 ≤ value.toNat → exec (.dset die value) s = .next s) ∧
      ∃ t, exec (.ddec die value) s = .next t ∧ (∀ p, ¬ s.heldWritten p → ZMap.get t.mem p = ZMap.get s.mem p) ∧ CounterSet s t name
        (if (s.counter name).count.toNat < dec then ⟨0, true⟩
         else ⟨(s.counter name).count - BitVec.ofNat 32 dec, (s.counter name).uf⟩)) ∧
    (2 ^ 18 ≤ b.depn.toNat ∨ b.depn.toNat % 2 ^ 16 < lo ∨ lo + (s.vf vf).counters.2 ≤ b.depn.toNat % 2 ^ 16 →
      exec (.dset die value) s = .next s ∧ exec (.ddec die value) s = .next s))

/-- R329 to R331, R333 to R336: entries of the gate queue that have been popped. An open entry of a well-formed record whose counter is zero opens
its session with the counter at 2^30 and its flows at SEQ 0, and drops the cells of them that no other session is still to take; of any
other record it opens none; a
route entry of an open session with K = 1 writes its record in the list of the expert of the greatest logit, and where that fills a
tile, the spawn of the tile's task is the firmware's next step, before which it takes up nothing else; an entry of a session whose
flush has come is dropped; a flush entry ends the round where the flush cells of every sender have come: expert by
expert it fills the partial tile with fill records and spawns its task, and then takes 2^30 less the tasks spawned from the counter and
closes the session, while every other entry waits; every other entry is dropped: counted in its session where that is open, else logged.
R337, R338: cells. A cell of 256 bytes whose CRC, kind, length, flow and destination are right and that has not come before is kept, and any
other is dropped. The flush cell of a flow counts for its package, and the last of them ends the round in the same way; a row whose cells have come lands at RXBASE, and its record enters its
expert's list, or is dropped and counted where there is no such expert or RXBASE cannot be written. A cell that is reported lost is sent again, and the sender keeps
a cell until it is acknowledged. R327: a cell for a die with replacement firmware enters the receive ring that crx names, and that acknowledges it.
Where the rules leave a point open, the statement follows the model: the DETAIL of the type 5 event (assumption 22), sessions, cells
and their order (40, 59), what a step answers that is not enabled (assumption 70), the layout of the ring (89) and what a window moved in
flight holds (97). -/
def Obligations.GateAndCells : Prop :=
  (∀ (die : Nat) (s : State) (e : GateEntry), (s.die die).belv.popped = some e → (s.die die).belv.vendor = true →
    (s.die die).belv.work = [] →
    let kind := e.word.toNat / 4 % 16
    let sess := e.word.toNat % 4
    let key := 4 * e.vf + sess
    let u := s.takeEntry die e
    let drops (i : Instr) : Prop :=
      (∀ x, SMap.get? (s.die die).sessions key = some x → exec i s = .next (u.modSession die key fun y =>
        { y with drop := min (y.drop + 1) (2 ^ 24 - 1) })) ∧
      (SMap.get? (s.die die).sessions key = none → exec i s = .next (u.event 5 die e.vf 0 sess (gateAddr e.word) 0))
    let isOpen : Prop := ∃ x, SMap.get? (s.die die).sessions key = some x
    let busy : Prop := ∃ p ∈ (s.die die).sessions, p.2.closing ≠ 0
    let holds (a : Nat) : Prop := a % 2 ^ 26 + 16 ≤ ((s.vf e.vf).grotto (a / 2 ^ 26 % 4)).2
    let sameMem (w t : State) : Prop := ∀ q, ¬ w.heldWritten q → ZMap.get t.mem q = ZMap.get w.mem q
    (busy → (kind = 1 → exec (.gateOpenEntry die) s = .fault .notEnabled) ∧
      (kind ≠ 1 → kind ≠ 2 → exec (.gateRouteEntry die) s = .fault .notEnabled)) ∧
    (¬ busy → kind = 1 → gateToken e.word ≠ 0 ∨ isOpen → drops (.gateOpenEntry die)) ∧
    (∀ w, ¬ busy → kind = 1 → gateToken e.word = 0 → ¬ isOpen → belvReader die e.vf 128 u (gateAddr e.word) = (w, none) →
      exec (.gateOpenEntry die) s = .next (w.event 5 die e.vf 0 sess (gateAddr e.word) 0)) ∧
    (∀ w b v width, ¬ busy → kind = 1 → gateToken e.word = 0 → ¬ isOpen → belvReader die e.vf 128 u (gateAddr e.word) = (w, some b) →
      let r := parseSession b
      w.templateWidth die e.vf r.taskt = (v, width) → r.stat = 0 →
      (v.sessionBad die e.vf b width = true ∨ (v.counter r.combc).count ≠ 0 → exec (.gateOpenEntry die) s = .next v) ∧
      (v.sessionBad die e.vf b width = false → (v.counter r.combc).count = 0 → ∃ t, exec (.gateOpenEntry die) s = .next t ∧
        SMap.get? (t.die die).sessions key = some ⟨r, [], 0, 0, [], false, 0, 0, []⟩ ∧ t.counter r.combc = ⟨1073741824, false⟩ ∧
        (t.die die).belv.popped = none ∧ (t.die die).belv.gctx = BitVec.ofNat 64 e.vf ∧
        (t.die die).belv.depn = BitVec.ofNat 64 r.combc ∧ sameMem v t ∧ t.teams = s.teams ∧
        (let takes (k : Nat) (q : SessRec) (c : Cell) : Prop := fieldAt c 4 2 / 64 % 4 = k % 4 ∧ bit q.senders (fieldAt c 4 2 / 1024) = true
         let old (c : Cell) : Prop := takes key r c ∧ ∀ p ∈ (s.die die).sessions, takes p.1 p.2.rcd c → p.2.past c = true
         (∀ c, c ∈ (t.die die).received ↔ c ∈ (s.die die).received ∧ ¬ old c) ∧
         ∀ d c, c ∈ (t.die d).sent ↔ c ∈ (s.die d).sent ∧ ¬ (fieldAt c 6 1 = die * 64 + s.board.pkg ∧ old c)))) ∧
    (¬ busy → 3 ≤ kind ∨ (kind = 0 ∧ ¬ isOpen) → drops (.gateRouteEntry die)) ∧
    (∀ x, ¬ busy → kind = 0 → SMap.get? (s.die die).sessions key = some x → x.flushed = true → drops (.gateRouteEntry die)) ∧
    (∀ x w b, ¬ busy → kind = 0 → SMap.get? (s.die die).sessions key = some x → x.flushed = false →
      belvReader die e.vf (4 * x.rcd.nexp) u (gateAddr e.word) = (w, some b) → x.rcd.k = 1 → x.rcd.expmap = 0 →
      let logit (n : Nat) : Nat := fieldAt b (4 * n) 4
      ∀ n, n < x.rcd.nexp → (∀ m, m < x.rcd.nexp → m ≠ n → orderkey 32 (logit m) < orderkey 32 (logit n) ∨
        (orderkey 32 (logit m) = orderkey 32 (logit n) ∧ n < m)) →
      let p := SMap.getD x.lists n 0
      let a := x.rcd.gbase + 16 * (n * x.rcd.cap * x.rcd.tw + p)
      p < x.rcd.cap * x.rcd.tw → holds a →
        ∃ t y q, exec (.gateRouteEntry die) s = .next t ∧ SMap.get? (t.die die).sessions key = some y ∧
          y = { x with lists := SMap.set x.lists n (p + 1) } ∧
          (t.die die).belv.work = (if (p + 1) % x.rcd.tw = 0 then [.tile key n (p / x.rcd.tw) x.rcd.tw] else []) ∧
          t.gspaceRead e.vf a 16 =
            toBytes (gateToken e.word) 4 ++ toBytes n 2 ++ toBytes 0 2 ++ toBytes q 4 ++ toBytes p 4 ∧ sameMem w t) ∧
    (¬ busy → kind = 2 → ¬ isOpen ∨ gateToken e.word ≠ 0 ∨ gateAddr e.word ≠ 0 → drops (.gateFlushEntry die)) ∧
    (∀ x, kind = 2 → SMap.get? (s.die die).sessions key = some x →
      let flow := s.board.pkg * 2 ^ 10 + die * 2 ^ 8 + sess * 2 ^ 6
      let r := x.rcd
      let left (y : Session) (t : State) : Prop := SMap.get? (t.die die).sessions key = some y ∧ t.mem = s.mem ∧ t.teams = s.teams
      (¬ busy → x.flushed = true → drops (.gateFlushEntry die)) ∧
      (¬ busy → gateToken e.word = 0 → gateAddr e.word = 0 → x.flushed = false → ∃ t, exec (.gateFlushEntry die) s = .next t ∧
        (t.die die).sent = (s.die die).sent ++ x.sendSeq.map (fun p => mkCell p.2.toNat flow p.1 0 0 1 []) ∧
        (r.senders &&& ~~~x.flushCells = 0 → left { x with flushed := true, closing := 1 } t ∧ (t.die die).belv.popped = some e) ∧
        (r.senders &&& ~~~x.flushCells ≠ 0 → left { x with flushed := true } t ∧ (t.die die).belv.popped = none)) ∧
      (∀ n, x.closing = 2 * n + 1 →
        (n < r.nexp → SMap.getD x.lists n 0 % r.tw = 0 →
          exec (.gateFlushEntry die) s = .next (s.modSession die key fun y => { y with closing := 2 * n + 3 })) ∧
        (n < r.nexp → SMap.getD x.lists n 0 % r.tw ≠ 0 → r.tw ≤ 32 → (s.freeSlot die).isSome = true →
          (∀ i, i < r.tw - SMap.getD x.lists n 0 % r.tw → holds (r.gbase + 16 * (n * r.cap * r.tw + (SMap.getD x.lists n 0 + i)))) →
          ∃ t y, exec (.gateFlushEntry die) s = .next t ∧ SMap.get? (t.die die).sessions key = some y ∧
            (y = { x with closing := 2 * n + 3, ntask := x.ntask + 1 } ∨
              y = { x with closing := 2 * n + 3, drop := min (x.drop + 1) (2 ^ 24 - 1) }) ∧
            let p := SMap.getD x.lists n 0
            ∀ i, i < r.tw - p % r.tw → t.gspaceRead e.vf (r.gbase + 16 * (n * r.cap * r.tw + (p + i))) 16 =
              toBytes 0xFFFFFFFF 4 ++ toBytes n 2 ++ toBytes 0xFFFF 2 ++ toBytes 0 4 ++ toBytes (p + i) 4) ∧
        (r.nexp ≤ n → r.rcgb = 0 → r.stat = 0 →
          let c := s.counter r.combc
          let m := 2 ^ 30 - x.ntask
          ∃ t, exec (.gateFlushEntry die) s = .next t ∧ SMap.get? (t.die die).sessions key = none ∧ (t.die die).belv.popped = none ∧
            t.counter r.combc = (if c.count.toNat < m then ⟨0, true⟩ else ⟨c.count - BitVec.ofNat 32 m, c.uf⟩) ∧ sameMem s t ∧
            t.teams = s.teams)))) ∧
  (∀ (die flow : Nat) (s : State) (w : BelvWork) (ws : List BelvWork), (s.die die).belv.work = w :: ws → (s.die die).belv.vendor = true →
    exec (.gateOpenEntry die) s = .fault .notEnabled ∧ exec (.gateFlushEntry die) s = .fault .notEnabled ∧
    exec (.rowDelivery die flow) s = .fault .notEnabled ∧
    (∀ key e t' n x, w = .tile key e t' n → SMap.get? (s.die die).sessions key = some x → (s.freeSlot die).isSome = true →
      ∃ t y, exec (.gateRouteEntry die) s = .next t ∧ SMap.get? (t.die die).sessions key = some y ∧ (t.die die).belv.work = ws ∧
        (y = { x with ntask := x.ntask + 1 } ∨ y = { x with drop := min (x.drop + 1) (2 ^ 24 - 1) })) ∧
    ∀ key token slot e weight x, w = .record key token slot e weight → SMap.get? (s.die die).sessions key = some x →
      x.rcd.expmap = 0 → x.rcd.cap * x.rcd.tw ≤ SMap.getD x.lists e 0 →
        ∃ t, exec (.gateRouteEntry die) s = .next t ∧ (t.die die).belv.work = ws ∧ t.mem = s.mem ∧
          SMap.get? (t.die die).sessions key = some { x with drop := min (x.drop + 1) (2 ^ 24 - 1) }) ∧
  (∀ (die flow dest seq cidx : Nat) (cell : List (BitVec 8)) (s : State),
    let d := s.die die
    let good : Prop := crc16 (cell.take 14 ++ (cell.drop 16).take (fieldAt cell 12 1)) = fieldAt cell 14 2 ∧ fieldAt cell 13 1 ≤ 1 ∧
      fieldAt cell 12 1 ≤ 240 ∧ fieldAt cell 6 1 = die * 64 + s.board.pkg ∧ fieldAt cell 4 2 % 64 = 0 ∧ d.cellSeen cell = false
    (d.belv.vendor = true → cell.length = 256 → good → exec (.cellReceive die cell) s = .next (s.modDie die fun d => { d with received := d.received ++ [cell] })) ∧
    (d.belv.vendor = true → cell.length = 256 → ¬ good → exec (.cellReceive die cell) s = .next s) ∧
    (let a := d.belv.crx.toNat % 2 ^ 32
     let n := d.belv.crx.toNat / 2 ^ 32
     let word (k : Nat) : BitVec 32 := BitVec.ofNat 32 (ofBytes (Memory.bytes d.belv.scratch (a + k) 4))
     d.belv.vendor = false → cell.length = 256 → fieldAt cell 6 1 = die * 64 + s.board.pkg → n ≠ 0 → a + 256 * (n + 1) ≤ 262144 →
       (word 4 - word 0).toNat < n → ∃ t, exec (.cellReceive die cell) s = .next t ∧
         Memory.bytes (t.die die).belv.scratch (a + 256 * ((word 4).toNat % n + 1)) 256 = cell ∧
         Memory.bytes (t.die die).belv.scratch (a + 4) 4 = toBytes (word 4 + 1).toNat 4 ∧
         (∀ m, (t.die m).sent = (s.die m).sent.erase cell) ∧ t.mem = s.mem ∧ t.teams = s.teams) ∧
    (∀ key x, d.belv.vendor = true → d.belv.popped = none → d.belv.work = [] → (∀ p ∈ d.sessions, p.2.closing = 0) →
      d.openSession flow = some (key, x) → d.received = [cell] → fieldAt cell 4 2 = flow →
      BitVec.ofNat 32 (fieldAt cell 0 4) = x.flowNext flow →
      let body := (cell.drop 16).take (fieldAt cell 12 1)
      let e := fieldAt body 4 2
      let p := SMap.getD x.lists e 0
      let r := x.rcd
      let passed (y : Session) : Session := { y with recvSeq := SMap.set y.recvSeq flow (x.flowNext flow + 1) }
      let u := (s.modDie die fun d => { d with received := [] }).modSession die key passed
      let ends (t : State) (y : Session) : Prop := (t.die die).received = [] ∧
        SMap.get? (t.die die).sessions key = some (passed y) ∧ t.teams = s.teams
      let cells := x.flushCells ||| BitVec.ofNat 64 (2 ^ (flow / 1024))
      (fieldAt cell 13 1 = 1 → x.flushed = false ∨ r.senders &&& ~~~cells ≠ 0 → ∃ t, exec (.rowDelivery die flow) s = .next t ∧
        t.mem = s.mem ∧ ends t { x with flushCells := cells }) ∧
      (fieldAt cell 13 1 = 1 → x.flushed = true → r.senders &&& ~~~cells = 0 →
        exec (.rowDelivery die flow) s = .next (s.modSession die key fun _ => { x with flushCells := cells, closing := 2 })) ∧
      (fieldAt cell 13 1 = 0 → r.rowbytes ≤ 224 → r.nexp ≤ e → ∃ t, exec (.rowDelivery die flow) s = .next t ∧ t.mem = s.mem ∧
        ends t { x with drop := min (x.drop + 1) (2 ^ 24 - 1) }) ∧
      (fieldAt cell 13 1 = 0 → r.rowbytes ≤ 224 → e < r.nexp → p < r.cap * r.tw →
        u.dieWrite die (key / 4) false (r.rxbase + (e * r.cap * r.tw + p) * r.rowbytes) (body.drop 16) = none →
          ∃ t, exec (.rowDelivery die flow) s = .next t ∧ t.mem = s.mem ∧ ends t { x with drop := min (x.drop + 1) (2 ^ 24 - 1) }) ∧
      (∀ w, fieldAt cell 13 1 = 0 → r.rowbytes ≤ 224 → e < r.nexp → p < r.cap * r.tw →
        (let a := r.gbase + 16 * (e * r.cap * r.tw + p)
         a % 2 ^ 26 + 16 ≤ ((s.vf (key / 4)).grotto (a / 2 ^ 26 % 4)).2) →
        u.dieWrite die (key / 4) false (r.rxbase + (e * r.cap * r.tw + p) * r.rowbytes) (body.drop 16) = some w →
          ∃ t, exec (.rowDelivery die flow) s = .next t ∧ (∀ q, ¬ w.heldWritten q → ZMap.get t.mem q = ZMap.get w.mem q) ∧ ends t { x with lists := SMap.set x.lists e (p + 1) } ∧
            (t.die die).belv.work = (if (p + 1) % r.tw = 0 then [.tile key e (p / r.tw) r.tw] else []) ∧
            t.gspaceRead (key / 4) (r.gbase + 16 * (e * r.cap * r.tw + p)) 16 =
              toBytes (fieldAt body 0 4) 4 ++ toBytes e 2 ++ toBytes (fieldAt body 6 2) 2 ++ toBytes (fieldAt body 8 4) 4 ++ toBytes p 4)) ∧
    (∀ key x n, d.belv.vendor = true → d.belv.popped = none → d.belv.work = [] → d.openSession flow = some (key, x) → d.received = [cell] →
      fieldAt cell 13 1 = 1 → fieldAt cell 4 2 = flow → BitVec.ofNat 32 (fieldAt cell 0 4) = x.flowNext flow → x.closing = 2 * n + 2 →
      (n < x.rcd.nexp → SMap.getD x.lists n 0 % x.rcd.tw = 0 →
        exec (.rowDelivery die flow) s = .next (s.modSession die key fun y => { y with closing := 2 * n + 4 })) ∧
      (x.rcd.nexp ≤ n → x.rcd.rcgb = 0 → x.rcd.stat = 0 → ∃ t, exec (.rowDelivery die flow) s = .next t ∧
        SMap.get? (t.die die).sessions key = none ∧ (t.die die).received = [] ∧
        (∀ q, ¬ s.heldWritten q → ZMap.get t.mem q = ZMap.get s.mem q) ∧ t.teams = s.teams)) ∧
    ∀ c, (d.sent.find? fun c => fieldAt c 6 1 == dest && fieldAt c 4 2 == flow && fieldAt c 0 4 == seq && fieldAt c 7 1 == cidx) = some c →
      exec (.cellResend die dest flow seq cidx) s = .next s ∧
      exec (.cellAcknowledged die dest flow seq cidx) s = .next (s.modDie die fun d => { d with sent := d.sent.erase c }))

/-- R15, R379, R380, R384, R385: a rail that goes down and a package that is declared failed are recorded, logged, and the latter interrupts the
host; no register and no byte of memory changes. An uncorrectable error and a fatal one are logged with the cycle of their die and freeze
the record; a frozen record counts what it loses, up to its greatest count. The Kiosk's cap lowers frequencies and raises none; its
report ends with FSCTL and the record's events.
R39, R54, R65, R252, R326, R327, R366, R367, R370, R377, R378, R382 to R385: a reset, by the board or at the Kiosk's request, leaves no team, no
grid and every register at its reset value, each Belvedere core's verified firmware in its scratchpad, and in memory the four entries of the
capability list and nothing else, and keeps the record and the flash; a loss of power erases memory and the record and holds the package;
power holds it on until four images verify, whose counters then rise to their versions, and marks as emulated no major opcode that the
table has. Until then nothing else that the outside world does has an effect. A measurement is the digest of what its index names, with its signature.
Where the rules leave a point open, the statement follows the model: the DIE, VF and DETAIL of the events of types 10, 12
and 13 (assumption 22), and assumptions 8, 60, 61, 62, 63, 67, 76, 77, 87, 90. -/
def Obligations.BoardAndResets : Prop :=
  (∀ (rail pkg die detail pa watts : Nat) (s : State),
    (rail < 16 → bit s.board.railsDown rail = false → ∃ t, exec (.railDown rail) s = .next t ∧
      t = ({ s with board := { s.board with railsDown := s.board.railsDown ||| BitVec.ofNat 16 (2 ^ rail) } }).event 10 (rail / 4) 255 0 rail 0 0) ∧
    (pkg ≠ s.board.pkg → bit s.board.domain pkg = true → bit s.board.failed pkg = false → ∃ t, exec (.packageDeclaredFailed pkg) s = .next t ∧
      bit t.board.failed pkg = true ∧ (∀ n, n ≠ pkg → bit t.board.failed n = bit s.board.failed n) ∧ t.board.hostIrq = s.board.hostIrq + 1 ∧
      t.mem = s.mem ∧ t.teams = s.teams ∧ t.cores = s.cores ∧ t.dies = s.dies ∧ t.vfs = s.vfs ∧
      ∀ a, a / 2 ^ 46 % 64 = pkg → t.absent a = true) ∧
    (let logs (i : Instr) (e : Event) : Prop :=
      (s.flow.frozen = false → exec i s = .next { s with flow := { s.flow with
        events := SMap.set s.flow.events s.flow.next.toNat e
        next := s.flow.next + 1
        frozen := true } }) ∧
      (s.flow.frozen = true → exec i s = .next { s with flow := { s.flow with
        lost := if s.flow.lost.toNat = 65535 then s.flow.lost else s.flow.lost + 1 } })
     logs (.uncorrectableSoftError die pa) ⟨(s.die die).cycle, die, 13, 255, 0, 0, pa, 0⟩ ∧
     logs (.fatalInternalError die detail) ⟨(s.die die).cycle, die, 12, 255, 0, detail, 0, 0⟩) ∧
    (∃ t, exec (.kioskPowerCap watts) s = .next t ∧ t.board.cap = some watts ∧
      (∀ n, n < 36 → ∃ g, SMap.get? t.board.freq n = some g ∧ ∀ f, SMap.get? s.board.freq n = some f → g ≤ f) ∧
      { t with board := s.board } = s ∧ { t.board with cap := none, freq := [] } = { s.board with cap := none, freq := [] }) ∧
    ∃ t l, exec .kioskReport s = .next t ∧ { t with board := s.board } = s ∧ { t.board with report := [] } = { s.board with report := [] } ∧
      l.length = 72 ∧ t.board.report = l ++ (List.range 36).map (fun i => BitVec.ofNat 64 ((SMap.get? s.board.freq i).getD 0)) ++
        [if s.board.held then 1 else 0,
        BitVec.ofNat 64 (s.flow.next.toNat + s.flow.lost.toNat * 2 ^ 16 + if s.flow.frozen then 2 ^ 62 else 0)] ++
        s.flow.events.flatMap fun p => [BitVec.ofNat 64 p.2.time, p.2.word 1, BitVec.ofNat 64 p.2.addr, BitVec.ofNat 64 p.2.aux]) ∧
  (∀ (i : Instr) (is : List Instr) (s : State), s.board.held = true → s.turn = none → s.inputs = i :: is → reachesHeld i = false →
    step s = andAdvance (.next { s with inputs := is })) ∧
  ((∀ (s : State), let cleared (t : State) : Prop := t.teams = [] ∧ t.grids = [] ∧ t.icinvs = [] ∧ t.turn = none ∧
      (∀ d, 4 ≤ d → t.die d = Die.reset) ∧ (∀ d, d < 4 → t.die d = { Die.reset with belv := match if t.board.held then none else SMap.get? t.board.images 1 with
        | none => Belvedere.reset
        | some x => { Belvedere.reset with
          scratch := Memory.store [] 0 (x.bytes.take 262144)
          vendor := Config.vendorFirmware x.bytes } }) ∧
      (∀ n, n < 36 → SMap.get? t.board.freq n = some 2800) ∧ (∀ c, t.core c = Core.reset) ∧ (∀ v, t.vf v = Vf.reset) ∧ t.board.failed = 0 ∧ t.board.railsDown = 0 ∧
      t.board.cap = none
    let listed (t : State) : Prop :=
      let entry (id len : Nat) (next : Word) : List Byte := toBytes id 2 ++ toBytes 1 2 ++ toBytes len 4 ++ toBytes next.toNat 8
      let p := t.board.caps
      Memory.bytes t.mem t.board.capsPa 104 =
        entry 1 24 (p + 24) ++ (toBytes 0x9400 2 ++ toBytes 4 1 ++ toBytes 8 1 ++ toBytes 256 2 ++ toBytes 0 2) ++
        entry 2 32 (p + 56) ++ toBytes t.emulated.toNat 16 ++ entry 3 24 (p + 80) ++ toBytes 2686976 8 ++ entry 4 24 0 ++ toBytes 1 8 ∧
      ∀ b, b < t.board.capsPa ∨ t.board.capsPa + 104 ≤ b → ZMap.get t.mem b = 0
    (∀ i ∈ [Instr.packageReset, .kioskResetRequest], ∃ t, exec i s = .next t ∧ cleared t ∧ listed t ∧ t.emulated = s.emulated ∧ t.flow = s.flow ∧
      t.board.images = s.board.images ∧ t.board.held = s.board.held) ∧
    (∃ t, exec .powerLoss s = .next t ∧ cleared t ∧ t.mem = [] ∧ t.flow = ⟨[], false, 0, 0⟩ ∧ t.board.images = s.board.images ∧ t.board.held = true) ∧
    ∀ (a b c d : List (BitVec 8) × List (BitVec 8) × Nat), s.board.held = true →
      let count (n : Nat) : Nat := ((SMap.get? s.board.images n).map Image.counter).getD 0
      let ok (n : Nat) (x : List (BitVec 8) × List (BitVec 8) × Nat) : Prop := Config.verify x.2.1 (Config.sha3 x.1) = true ∧ count n ≤ x.2.2
      let all : Prop := ok 0 a ∧ ok 1 b ∧ ok 2 c ∧ ok 3 d
      ∃ t, exec (.powerOn [a, b, c, d]) s = .next t ∧ cleared t ∧ listed t ∧ t.flow = s.flow ∧ (t.board.held = false ↔ all) ∧
        (all → ∀ n, n < 128 → bit t.emulated n = true → decode (BitVec.ofNat 32 (n * 2 ^ 25)) = .error .absentMajor) ∧
        (all → ∀ n x, [a, b, c, d][n]? = some x → SMap.get? t.board.images n = some ⟨x.1, x.2.2⟩)) ∧
  ∀ (index : Nat) (s : State),
    let gives (bs : List Byte) : Prop := exec (.spdmGetMeasurements index) s = .next { s with board := { s.board with
      measured := toBytes (Config.sha3 bs).toNat 32 ++ Config.sign s.board.key (Config.sha3 bs) } }
    (1 ≤ index → index ≤ 4 → gives (((SMap.get? s.board.images (index - 1)).map Image.bytes).getD [])) ∧
    (16 ≤ index → index < 32 → let v := s.vf (index - 16)
      (v.cfg 10 1 = 1 ∨ v.cfg 10 1 = 2) → gives ((blockFields.filter fun f => !([10, 12, 44, 288, 296, 304].contains f.1)).flatMap fun f =>
        Memory.bytes v.block f.1 f.2)))

/-! ### The step, the encodings, memory and reset -/

/-- R29, R37, R59, R270, R298, R312: where a fragment is in hand that waits for nothing, its word's page translates, and neither its loop buffer, its
instruction cache nor the die's remote partition holds the line, and the four bytes there decode to an instruction, a step is `exec`
of it at the state after the fetch, in which no team and no context has changed, and then time passes. Time passing changes budgets,
cycle and reference counters, and nothing else.
Where the rules leave a point open, the statement follows the model: assumptions 6, 7. -/
def Obligations.StepRunsDecodedInstruction : Prop :=
  (∀ (s : State) (r : Ref) (c : Ctx) (i : Instr) (xs : List Xlat), s.turn = some r → ({ s with cur := r, turn := none }).ctx? = some c →
    SMap.wf s.teams = true → SMap.wf c.team.gangs = true → SMap.wf c.gang.entries = true →
    let a := c.at.toNat
    let pa := (findXlat xs a).pa a
    ((s.core c.core).quad c.gang.quad).loopWord c.vf a = none → (a < 2 ^ 54 ∨ 2 ^ 64 - 2 ^ 54 ≤ a) →
    s.translate c.core c.vf 0 c.priv [⟨a, 4, 0⟩] = .ok xs → s.absent pa = false → pa % 4 = 0 → (∀ x ∈ xs, ∀ k, k < 4 → pa + k ∉ x.ptes) →
    (∀ l ∈ (s.core c.core).icache, l.num ≠ pa / 256) → (∀ l ∈ (s.die c.die).remote, l.num ≠ pa / 256) →
    decode (BitVec.ofNat 32 (ofBytes (Memory.bytes s.mem pa 4))) = .ok i →
      ∃ t, step s = andAdvance (exec i t) ∧ t.ctx? = some c ∧ t.turn = none ∧ t.teams = s.teams ∧ t.vfs = s.vfs ∧ t.grids = s.grids ∧
        t.tick = s.tick ∧ c.MemMarked s t) ∧
  ∀ (t : State), ∃ u, andAdvance (.next t) = .next u ∧ u.tick = t.tick + 1 ∧ u.mem = t.mem ∧ u.cores = t.cores ∧ u.vfs = t.vfs ∧
    u.flow = t.flow ∧ u.board = t.board ∧ u.turn = t.turn ∧ u.inputs = t.inputs ∧ u.icinvs = t.icinvs ∧
    (∀ n, (u.team? n).map (fun x => { x with budget := none }) = (t.team? n).map fun x => { x with budget := none }) ∧
    (∀ n x y, t.team? n = some x → u.team? n = some y → (x.budget = none → y.budget = none) ∧
      ∀ b, x.budget = some b → ∃ e, y.budget = some e ∧ e ≤ b) ∧
    ∀ d, { u.die d with cycle := 0, ref := 0, tasks := [] } = { t.die d with cycle := 0, ref := 0, tasks := [] } ∧
      (d < 4 → (t.die d).cycle < (u.die d).cycle) ∧ (t.die d).ref ≤ (u.die d).ref

/-- R17, R19 to R22, R32, R36: decoding and encoding agree, every operand at every value that its encoding admits. A well-formed instruction that has
a word decodes from it, and every instruction that a word decodes to is well formed and
has that word. -/
def Obligations.EncodingRoundTrip : Prop :=
  (∀ (i : Instr) (w : IWord), i.wf = true → encode i = some w → decode w = .ok i) ∧
  ∀ (w : IWord) (i : Instr), decode w = .ok i → i.wf = true ∧ encode i = some w

/-- R17, R19, R29, R36: words written out bit by bit from the encodings of their instructions decode to them: major opcode 31:25, then the fields
of each, as the chapters print them. -/
def Obligations.DecodedWords : Prop :=
  decode 0b0010000000_00011_00011_00010_000000_0#32 = .ok (.sadd 3 3 2 0) ∧
  decode 0b0000001_001_001_000000000000000100_0#32 = .ok (.brLanes 1 4) ∧
  decode 0b0100000_001_000010_000000_000001_0_11_0#32 = .ok (.vadd 1 2 0 1 3 0) ∧
  decode 0b1000010_000_0_00101_000_010_000000001_0#32 = .ok (.voteAll 0 5 2 0) ∧
  decode 0b1001000_001_001_000_001010_001100_001_0#32 = .ok (.mmaZ 1 1 0 10 12 0) ∧
  decode 0b1011010_100_000101_00110_000100_0_0_010#32 = .ok (.gatom 4 5 6 4 0 0 2) ∧
  decode 0b1110000010000000000000000000_010_0#32 = .ok (.fenceRel 2 0) ∧
  decode 0b1100101_0_1_1_00101_00010_00011_000100_0#32 = .ok (.eapp 0 1 5 2 3 4 0) ∧
  decode 0b0001100000_00011_00100_00000000000_0#32 = .ok (.spawn 3 4 0) ∧
  decode 0b0001001000000000000000000_000101_0#32 = .ok (.trap 5) ∧
  decode 0b1111111000_0000000000010010001101#32 = .ok (.hintImm 0x48D)

/-- R249 and the canonical form of memory: every step of the machine, from any state, keeps the addresses that memory lists rising and lists
no byte that is zero, so that equal memories are equal data.
Where the rules leave a point open, the statement follows the model: assumption 1. -/
def Obligations.MemoryInvariant : Prop :=
  ∀ (s t : State), s.memOk = true → step s = .next t → t.memOk = true

/-- R52, R55, R65, R252, R327, R370, R374, R377, R378, R384: the machine right after reset. No team, grid, task, cached line or event exists; L2PART
has RWAYS 01, CAVCTL has PINMAX 8, HYST 4 and EPOCH 20, TLBICTL has DONE 1, RTUCFG, QOWN, the doorbells and every register of a Belvedere
core are 0; in each configuration block SRLOG and FQLOG are 4 and all else is 0; and memory has its canonical form and holds the four
entries of the capability list (R366, R367) and nothing else.
Where the rules leave a point open, the statement follows the model: where the list stands (assumption 87), and assumptions 3, 67. -/
def Obligations.ResetState : Prop :=
  (let entry (id len next : Nat) : List Byte := toBytes id 2 ++ toBytes 1 2 ++ toBytes len 4 ++ toBytes next 8
   let p := State.reset.board.caps.toNat
   let pa := State.reset.board.capsPa
   Memory.bytes State.reset.mem pa 104 =
     entry 1 24 (p + 24) ++ (toBytes 0x9400 2 ++ toBytes 4 1 ++ toBytes 8 1 ++ toBytes 256 2 ++ toBytes 0 2) ++
     entry 2 32 (p + 56) ++ toBytes State.reset.emulated.toNat 16 ++ entry 3 24 (p + 80) ++ toBytes 2686976 8 ++ entry 4 24 0 ++ toBytes 1 8 ∧
   ∀ b, b < pa ∨ pa + 104 ≤ b → ZMap.get State.reset.mem b = 0) ∧
  State.reset.teams = [] ∧ State.reset.grids = [] ∧ State.reset.flow = ⟨[], false, 0, 0⟩ ∧ State.reset.memOk = true ∧
  (∀ d, let x := State.reset.die d
    x.l2part = 4 ∧ x.cavctl.toNat / 2 ^ 12 = 8 ∧ x.cavctl.toNat / 2 ^ 8 % 16 = 4 ∧ x.cavctl.toNat % 32 = 20 ∧ bit x.tlbictl 30 = true ∧
    x.rtucfg = 0 ∧ x.tasks = [] ∧ x.gate = [] ∧ x.l2 = [] ∧ x.cavern = [] ∧ x.remote = [] ∧ x.tlb = [] ∧ x.belv.ginfo = 0 ∧ x.belv.gctx = 0 ∧
    x.belv.depn = 0 ∧ x.belv.ctx = 0 ∧ x.belv.crx = 0 ∧ x.belv.sattr = 0) ∧
  (∀ c, (State.reset.core c).qown = 0 ∧ (State.reset.core c).l1 = [] ∧ (State.reset.core c).icache = [] ∧ (State.reset.core c).tlb = []) ∧
  ∀ v, (State.reset.vf v).cfg 24 1 = 4 ∧ (State.reset.vf v).cfg 40 1 = 4 ∧ (State.reset.vf v).tail = 0 ∧ (State.reset.vf v).head = 0 ∧
    (∀ b, b ≠ 24 → b ≠ 40 → ZMap.get (State.reset.vf v).block b = 0) ∧
    ∀ core n, 1 ≤ n → n ≤ 6 → (State.reset.scope v core n).valid = false
end

