-- ==== Sys2Proof/Laws/Maps.lean ====
section
/-! SUPPORT. The laws of the finite maps and of memory: a read after a write, the keys that a write leaves alone, and the
canonical form, which every operation keeps. -/

namespace Sys2Proof.Machine

/-! ### Records -/

theorem SMap.get?_set {α : Type} (m : SMap α) (j k : Nat) (v : α) :
    SMap.get? (SMap.set m j v) k = if j = k then some v else SMap.get? m k := by
  induction m with
  | nil => simp [SMap.set, SMap.get?]
  | cons p m ih =>
    obtain ⟨i, w⟩ := p
    simp only [SMap.set]
    by_cases h1 : j = i
    · subst h1; simp only [if_true, SMap.get?]; split <;> rfl
    · simp only [h1, if_false]
      by_cases h2 : j < i
      · simp only [h2, if_true, SMap.get?]
      · simp only [h2, if_false, SMap.get?, ih]
        by_cases h3 : i = k
        · have : j ≠ k := by omega
          simp [h3, this]
        · simp [h3]

theorem SMap.get?_set_self {α : Type} (m : SMap α) (j : Nat) (v : α) : SMap.get? (SMap.set m j v) j = some v := by
  simp [SMap.get?_set]

theorem SMap.getD_set {α : Type} (m : SMap α) (j k : Nat) (v d : α) :
    SMap.getD (SMap.set m j v) k d = if j = k then v else SMap.getD m k d := by
  simp only [SMap.getD, SMap.get?_set]; split <;> rfl

theorem SMap.get?_erase {α : Type} (m : SMap α) (j k : Nat) :
    SMap.get? (SMap.erase m j) k = if j = k then none else SMap.get? m k := by
  induction m with
  | nil => simp [SMap.erase, SMap.get?]
  | cons p m ih =>
    obtain ⟨i, w⟩ := p
    simp only [SMap.erase]
    by_cases h1 : i = j
    · subst h1
      simp only [if_true, ih, SMap.get?]
      split <;> rfl
    · simp only [h1, if_false, SMap.get?, ih]
      by_cases h3 : i = k
      · have : j ≠ k := by omega
        simp [h3, this]
      · simp [h3]

theorem SMap.get?_modify {α : Type} (m : SMap α) (j k : Nat) (f : α → α) :
    SMap.get? (SMap.modify m j f) k = if j = k then (SMap.get? m k).map f else SMap.get? m k := by
  induction m with
  | nil => simp [SMap.modify, SMap.get?]
  | cons p m ih =>
    obtain ⟨i, w⟩ := p
    simp only [SMap.modify, List.map_cons] at ih ⊢
    by_cases h1 : i = j
    · subst h1
      simp only [if_true, SMap.get?]
      by_cases h2 : i = k
      · simp [h2]
      · simp only [h2, if_false] at ih ⊢; exact ih
    · simp only [h1, if_false, SMap.get?]
      by_cases h3 : i = k
      · have : j ≠ k := by omega
        simp [h3, this]
      · simp only [h3, if_false]; exact ih

theorem SMap.get?_mapVals {α : Type} (m : SMap α) (k : Nat) (f : Nat → α → α) :
    SMap.get? (SMap.mapVals m f) k = (SMap.get? m k).map (f k) := by
  induction m with
  | nil => simp [SMap.mapVals, SMap.get?]
  | cons p m ih =>
    obtain ⟨i, w⟩ := p
    simp only [SMap.mapVals, List.map_cons, SMap.get?] at ih ⊢
    by_cases h3 : i = k
    · subst h3; simp
    · simp only [h3, if_false]; exact ih

/-- All keys of a map in the rising form are at least the first and the rest of it rises too. -/
theorem SMap.wf_cons {α : Type} (k : Nat) (v : α) (m : SMap α) :
    SMap.wf ((k, v) :: m) = true ↔ SMap.wf m = true ∧ ∀ p ∈ m, k < p.1 := by
  induction m generalizing k v with
  | nil => simp [SMap.wf]
  | cons p m ih =>
    obtain ⟨i, w⟩ := p
    simp only [SMap.wf, Bool.and_eq_true, decide_eq_true_eq, List.mem_cons, forall_eq_or_imp]
    constructor
    · rintro ⟨h, hw⟩
      refine ⟨hw, h, fun q hq => ?_⟩
      have := ((ih i w).1 hw).2 q hq
      omega
    · rintro ⟨hw, h, _⟩; exact ⟨h, hw⟩

theorem SMap.mem_set {α : Type} (m : SMap α) (j : Nat) (v : α) (p : Nat × α) (h : p ∈ SMap.set m j v) :
    p = (j, v) ∨ p ∈ m := by
  induction m with
  | nil => simpa [SMap.set] using h
  | cons q m ih =>
    obtain ⟨i, w⟩ := q
    simp only [SMap.set] at h
    split at h
    · rcases List.mem_cons.1 h with h | h
      · exact .inl h
      · exact .inr (List.mem_cons_of_mem _ h)
    · split at h
      · rcases List.mem_cons.1 h with h | h
        · exact .inl h
        · exact .inr h
      · rcases List.mem_cons.1 h with h | h
        · exact .inr (h ▸ List.mem_cons_self)
        · rcases ih h with h | h
          · exact .inl h
          · exact .inr (List.mem_cons_of_mem _ h)

theorem SMap.wf_set {α : Type} (m : SMap α) (j : Nat) (v : α) (h : SMap.wf m = true) : SMap.wf (SMap.set m j v) = true := by
  induction m with
  | nil => simp [SMap.set, SMap.wf]
  | cons q m ih =>
    obtain ⟨i, w⟩ := q
    have hc := (SMap.wf_cons i w m).1 h
    simp only [SMap.set]
    by_cases h1 : j = i
    · subst h1
      rw [if_pos rfl, SMap.wf_cons]; exact ⟨hc.1, hc.2⟩
    · rw [if_neg h1]
      by_cases h2 : j < i
      · rw [if_pos h2, SMap.wf_cons]
        refine ⟨h, fun p hp => ?_⟩
        rcases List.mem_cons.1 hp with hp | hp
        · rw [hp]; exact h2
        · have := hc.2 p hp; omega
      · rw [if_neg h2, SMap.wf_cons]
        refine ⟨ih hc.1, fun p hp => ?_⟩
        rcases SMap.mem_set m j v p hp with hp | hp
        · rw [hp]; show i < j; omega
        · exact hc.2 p hp

theorem SMap.mem_erase {α : Type} (m : SMap α) (j : Nat) (p : Nat × α) (h : p ∈ SMap.erase m j) : p ∈ m ∧ p.1 ≠ j := by
  induction m with
  | nil => simp [SMap.erase] at h
  | cons q m ih =>
    obtain ⟨i, w⟩ := q
    simp only [SMap.erase] at h
    split at h
    · have := ih h; exact ⟨List.mem_cons_of_mem _ this.1, this.2⟩
    · rcases List.mem_cons.1 h with h | h
      · subst h; exact ⟨List.mem_cons_self, by assumption⟩
      · have := ih h; exact ⟨List.mem_cons_of_mem _ this.1, this.2⟩

theorem SMap.wf_erase {α : Type} (m : SMap α) (j : Nat) (h : SMap.wf m = true) : SMap.wf (SMap.erase m j) = true := by
  induction m with
  | nil => rfl
  | cons q m ih =>
    obtain ⟨i, w⟩ := q
    have hc := (SMap.wf_cons i w m).1 h
    simp only [SMap.erase]
    split
    · exact ih hc.1
    · rw [SMap.wf_cons]
      exact ⟨ih hc.1, fun p hp => hc.2 p (SMap.mem_erase m j p hp).1⟩

/-- In a map whose keys rise, each entry is the one that its key names. -/
theorem SMap.get?_of_mem {α : Type} (m : SMap α) (h : SMap.wf m = true) (p : Nat × α) (hp : p ∈ m) :
    SMap.get? m p.1 = some p.2 := by
  induction m with
  | nil => simp at hp
  | cons q m ih =>
    obtain ⟨i, w⟩ := q
    have hc := (SMap.wf_cons i w m).1 h
    rcases List.mem_cons.1 hp with hp | hp
    · subst hp; simp [SMap.get?]
    · have := hc.2 p hp
      simp only [SMap.get?]
      rw [if_neg (by omega)]
      exact ih hc.1 hp

/-! ### Bit vectors and memory -/

theorem ZMap.get_drop {w : Nat} (m : ZMap w) (j k : Nat) : ZMap.get (ZMap.drop m j) k = if j = k then 0 else ZMap.get m k := by
  induction m with
  | nil => simp [ZMap.drop, ZMap.get]
  | cons p m ih =>
    obtain ⟨i, u⟩ := p
    simp only [ZMap.drop]
    by_cases h1 : i = j
    · subst h1
      simp only [if_true, ih, ZMap.get]
      split <;> rfl
    · simp only [h1, if_false, ZMap.get, ih]
      by_cases h3 : i = k
      · have : j ≠ k := by omega
        simp [h3, this]
      · simp [h3]

theorem ZMap.get_put {w : Nat} (m : ZMap w) (j k : Nat) (v : BitVec w) :
    ZMap.get (ZMap.put m j v) k = if j = k then v else ZMap.get m k := by
  induction m with
  | nil => simp [ZMap.put, ZMap.get]
  | cons p m ih =>
    obtain ⟨i, u⟩ := p
    simp only [ZMap.put]
    by_cases h1 : j = i
    · subst h1; simp only [if_true, ZMap.get]; split <;> rfl
    · simp only [h1, if_false]
      by_cases h2 : j < i
      · simp only [h2, if_true, ZMap.get]
      · simp only [h2, if_false, ZMap.get, ih]
        by_cases h3 : i = k
        · have : j ≠ k := by omega
          simp [h3, this]
        · simp [h3]

/-- A read after a write, in any state of the map. -/
theorem ZMap.get_set {w : Nat} (m : ZMap w) (j k : Nat) (v : BitVec w) :
    ZMap.get (ZMap.set m j v) k = if j = k then v else ZMap.get m k := by
  simp only [ZMap.set]
  split
  · next h => rw [ZMap.get_drop, h]
  · rw [ZMap.get_put]

theorem ZMap.get_set_self {w : Nat} (m : ZMap w) (j : Nat) (v : BitVec w) : ZMap.get (ZMap.set m j v) j = v := by
  simp [ZMap.get_set]

theorem ZMap.get_set_ne {w : Nat} (m : ZMap w) (j k : Nat) (v : BitVec w) (h : j ≠ k) :
    ZMap.get (ZMap.set m j v) k = ZMap.get m k := by
  simp [ZMap.get_set, h]

theorem ZMap.wf_cons {w : Nat} (k : Nat) (v : BitVec w) (m : ZMap w) :
    ZMap.wf ((k, v) :: m) = true ↔ v ≠ 0 ∧ ZMap.wf m = true ∧ ∀ p ∈ m, k < p.1 := by
  induction m generalizing k v with
  | nil => simp [ZMap.wf]
  | cons p m ih =>
    obtain ⟨i, u⟩ := p
    simp only [ZMap.wf, Bool.and_eq_true, decide_eq_true_eq, List.mem_cons, forall_eq_or_imp]
    constructor
    · rintro ⟨⟨hv, h⟩, hw⟩
      refine ⟨hv, hw, h, fun q hq => ?_⟩
      have := ((ih i u).1 hw).2.2 q hq
      omega
    · rintro ⟨hv, hw, h, _⟩; exact ⟨⟨hv, h⟩, hw⟩

theorem ZMap.mem_drop {w : Nat} (m : ZMap w) (j : Nat) (p : Nat × BitVec w) (h : p ∈ ZMap.drop m j) : p ∈ m := by
  induction m with
  | nil => simp [ZMap.drop] at h
  | cons q m ih =>
    obtain ⟨i, u⟩ := q
    simp only [ZMap.drop] at h
    split at h
    · exact List.mem_cons_of_mem _ (ih h)
    · rcases List.mem_cons.1 h with h | h
      · exact h ▸ List.mem_cons_self
      · exact List.mem_cons_of_mem _ (ih h)

theorem ZMap.wf_drop {w : Nat} (m : ZMap w) (j : Nat) (h : ZMap.wf m = true) : ZMap.wf (ZMap.drop m j) = true := by
  induction m with
  | nil => rfl
  | cons q m ih =>
    obtain ⟨i, u⟩ := q
    have hc := (ZMap.wf_cons i u m).1 h
    simp only [ZMap.drop]
    split
    · exact ih hc.2.1
    · rw [ZMap.wf_cons]
      exact ⟨hc.1, ih hc.2.1, fun p hp => hc.2.2 p (ZMap.mem_drop m j p hp)⟩

theorem ZMap.mem_put {w : Nat} (m : ZMap w) (j : Nat) (v : BitVec w) (p : Nat × BitVec w) (h : p ∈ ZMap.put m j v) :
    p = (j, v) ∨ p ∈ m := by
  induction m with
  | nil => simpa [ZMap.put] using h
  | cons q m ih =>
    obtain ⟨i, u⟩ := q
    simp only [ZMap.put] at h
    split at h
    · rcases List.mem_cons.1 h with h | h
      · exact .inl h
      · exact .inr (List.mem_cons_of_mem _ h)
    · split at h
      · rcases List.mem_cons.1 h with h | h
        · exact .inl h
        · exact .inr h
      · rcases List.mem_cons.1 h with h | h
        · exact .inr (h ▸ List.mem_cons_self)
        · rcases ih h with h | h
          · exact .inl h
          · exact .inr (List.mem_cons_of_mem _ h)

theorem ZMap.wf_put {w : Nat} (m : ZMap w) (j : Nat) (v : BitVec w) (hv : v ≠ 0) (h : ZMap.wf m = true) :
    ZMap.wf (ZMap.put m j v) = true := by
  induction m with
  | nil => simpa [ZMap.put, ZMap.wf] using hv
  | cons q m ih =>
    obtain ⟨i, u⟩ := q
    have hc := (ZMap.wf_cons i u m).1 h
    simp only [ZMap.put]
    by_cases h1 : j = i
    · subst h1
      rw [if_pos rfl, ZMap.wf_cons]; exact ⟨hv, hc.2.1, hc.2.2⟩
    · rw [if_neg h1]
      by_cases h2 : j < i
      · rw [if_pos h2, ZMap.wf_cons]
        refine ⟨hv, h, fun p hp => ?_⟩
        rcases List.mem_cons.1 hp with hp | hp
        · rw [hp]; exact h2
        · have := hc.2.2 p hp; omega
      · rw [if_neg h2, ZMap.wf_cons]
        refine ⟨hc.1, ih hc.2.1, fun p hp => ?_⟩
        rcases ZMap.mem_put m j v p hp with hp | hp
        · rw [hp]; show i < j; omega
        · exact hc.2.2 p hp

/-- A write keeps the canonical form. -/
theorem ZMap.wf_set {w : Nat} (m : ZMap w) (j : Nat) (v : BitVec w) (h : ZMap.wf m = true) : ZMap.wf (ZMap.set m j v) = true := by
  simp only [ZMap.set]
  split
  · exact ZMap.wf_drop m j h
  · next hv => exact ZMap.wf_put m j v hv h

theorem ZMap.wf_setAll {w : Nat} (l : List (Nat × BitVec w)) (m : ZMap w) (h : ZMap.wf m = true) :
    ZMap.wf (ZMap.setAll m l) = true := by
  induction l generalizing m with
  | nil => exact h
  | cons p l ih => exact ih _ (ZMap.wf_set m p.1 p.2 h)

/-- A store of bytes keeps the canonical form of memory. -/
theorem Memory.wf_store (bs : List Byte) (m : Memory) (a : Nat) (h : Memory.wf m = true) : Memory.wf (Memory.store m a bs) = true := by
  induction bs generalizing m a with
  | nil => exact h
  | cons b bs ih => exact ih _ _ (ZMap.wf_set m a b h)

/-- In canonical form, equal readings are equal data. -/
theorem ZMap.eq_of_get {w : Nat} (m n : ZMap w) (hm : ZMap.wf m = true) (hn : ZMap.wf n = true)
    (h : ∀ k, ZMap.get m k = ZMap.get n k) : m = n := by
  have low {l : ZMap w} {k : Nat} (hl : ∀ p ∈ l, k < p.1) : ZMap.get l k = 0 := by
    induction l with
    | nil => rfl
    | cons q l ih =>
      obtain ⟨i, u⟩ := q
      have := hl (i, u) List.mem_cons_self
      simp only [ZMap.get]
      rw [if_neg (by simp at this; omega)]
      exact ih fun p hp => hl p (List.mem_cons_of_mem _ hp)
  induction m generalizing n with
  | nil =>
    cases n with
    | nil => rfl
    | cons q n =>
      obtain ⟨i, u⟩ := q
      have := h i
      simp [ZMap.get] at this
      exact absurd this.symm ((ZMap.wf_cons i u n).1 hn).1
  | cons p m ih =>
    obtain ⟨i, u⟩ := p
    have hm' := (ZMap.wf_cons i u m).1 hm
    cases n with
    | nil =>
      have := h i
      simp [ZMap.get] at this
      exact absurd this hm'.1
    | cons q n =>
      obtain ⟨j, v⟩ := q
      have hn' := (ZMap.wf_cons j v n).1 hn
      have hij : i = j := by
        rcases Nat.lt_trichotomy i j with hlt | heq | hgt
        · have := h i
          simp only [ZMap.get, if_true] at this
          rw [if_neg (by omega), low (fun p hp => Nat.lt_trans hlt (hn'.2.2 p hp))] at this
          exact absurd this hm'.1
        · exact heq
        · have := h j
          simp only [ZMap.get, if_true] at this
          rw [if_neg (by omega), low (fun p hp => Nat.lt_trans hgt (hm'.2.2 p hp))] at this
          exact absurd this.symm hn'.1
      subst hij
      have huv : u = v := by have := h i; simpa [ZMap.get] using this
      subst huv
      congr 1
      refine ih n hm'.2.1 hn'.2.1 fun k => ?_
      by_cases hk : i = k
      · subst hk; rw [low hm'.2.2, low hn'.2.2]
      · have := h k; simpa [ZMap.get, hk] using this

end Sys2Proof.Machine
end

