-- ==== Sys2Proof/Laws/State.lean ====
section
/-! SUPPORT. What each update of the state leaves of each field, and what reading a changed part gives. -/

namespace Sys2Proof.Machine

/-! ### `modDie` -/

@[simp] theorem State.modDie_mem (s : State) (d : Nat) (f : Die → Die) : (s.modDie d f).mem = s.mem := rfl
@[simp] theorem State.modDie_cores (s : State) (d : Nat) (f : Die → Die) : (s.modDie d f).cores = s.cores := rfl
@[simp] theorem State.modDie_vfs (s : State) (d : Nat) (f : Die → Die) : (s.modDie d f).vfs = s.vfs := rfl
@[simp] theorem State.modDie_teams (s : State) (d : Nat) (f : Die → Die) : (s.modDie d f).teams = s.teams := rfl
@[simp] theorem State.modDie_grids (s : State) (d : Nat) (f : Die → Die) : (s.modDie d f).grids = s.grids := rfl
@[simp] theorem State.modDie_icinvs (s : State) (d : Nat) (f : Die → Die) : (s.modDie d f).icinvs = s.icinvs := rfl
@[simp] theorem State.modDie_emulated (s : State) (d : Nat) (f : Die → Die) : (s.modDie d f).emulated = s.emulated := rfl
@[simp] theorem State.modDie_flow (s : State) (d : Nat) (f : Die → Die) : (s.modDie d f).flow = s.flow := rfl
@[simp] theorem State.modDie_board (s : State) (d : Nat) (f : Die → Die) : (s.modDie d f).board = s.board := rfl
@[simp] theorem State.modDie_hostResult (s : State) (d : Nat) (f : Die → Die) : (s.modDie d f).hostResult = s.hostResult := rfl
@[simp] theorem State.modDie_hostError (s : State) (d : Nat) (f : Die → Die) : (s.modDie d f).hostError = s.hostError := rfl
@[simp] theorem State.modDie_cur (s : State) (d : Nat) (f : Die → Die) : (s.modDie d f).cur = s.cur := rfl
@[simp] theorem State.modDie_turn (s : State) (d : Nat) (f : Die → Die) : (s.modDie d f).turn = s.turn := rfl
@[simp] theorem State.modDie_inputs (s : State) (d : Nat) (f : Die → Die) : (s.modDie d f).inputs = s.inputs := rfl
@[simp] theorem State.modDie_tick (s : State) (d : Nat) (f : Die → Die) : (s.modDie d f).tick = s.tick := rfl

/-! ### `modCore` -/

@[simp] theorem State.modCore_mem (s : State) (n : Nat) (f : Core → Core) : (s.modCore n f).mem = s.mem := rfl
@[simp] theorem State.modCore_dies (s : State) (n : Nat) (f : Core → Core) : (s.modCore n f).dies = s.dies := rfl
@[simp] theorem State.modCore_vfs (s : State) (n : Nat) (f : Core → Core) : (s.modCore n f).vfs = s.vfs := rfl
@[simp] theorem State.modCore_teams (s : State) (n : Nat) (f : Core → Core) : (s.modCore n f).teams = s.teams := rfl
@[simp] theorem State.modCore_grids (s : State) (n : Nat) (f : Core → Core) : (s.modCore n f).grids = s.grids := rfl
@[simp] theorem State.modCore_icinvs (s : State) (n : Nat) (f : Core → Core) : (s.modCore n f).icinvs = s.icinvs := rfl
@[simp] theorem State.modCore_emulated (s : State) (n : Nat) (f : Core → Core) : (s.modCore n f).emulated = s.emulated := rfl
@[simp] theorem State.modCore_flow (s : State) (n : Nat) (f : Core → Core) : (s.modCore n f).flow = s.flow := rfl
@[simp] theorem State.modCore_board (s : State) (n : Nat) (f : Core → Core) : (s.modCore n f).board = s.board := rfl
@[simp] theorem State.modCore_hostResult (s : State) (n : Nat) (f : Core → Core) : (s.modCore n f).hostResult = s.hostResult := rfl
@[simp] theorem State.modCore_hostError (s : State) (n : Nat) (f : Core → Core) : (s.modCore n f).hostError = s.hostError := rfl
@[simp] theorem State.modCore_cur (s : State) (n : Nat) (f : Core → Core) : (s.modCore n f).cur = s.cur := rfl
@[simp] theorem State.modCore_turn (s : State) (n : Nat) (f : Core → Core) : (s.modCore n f).turn = s.turn := rfl
@[simp] theorem State.modCore_inputs (s : State) (n : Nat) (f : Core → Core) : (s.modCore n f).inputs = s.inputs := rfl
@[simp] theorem State.modCore_tick (s : State) (n : Nat) (f : Core → Core) : (s.modCore n f).tick = s.tick := rfl

/-! ### `modVf` -/

@[simp] theorem State.modVf_mem (s : State) (v : Nat) (f : Vf → Vf) : (s.modVf v f).mem = s.mem := rfl
@[simp] theorem State.modVf_dies (s : State) (v : Nat) (f : Vf → Vf) : (s.modVf v f).dies = s.dies := rfl
@[simp] theorem State.modVf_cores (s : State) (v : Nat) (f : Vf → Vf) : (s.modVf v f).cores = s.cores := rfl
@[simp] theorem State.modVf_teams (s : State) (v : Nat) (f : Vf → Vf) : (s.modVf v f).teams = s.teams := rfl
@[simp] theorem State.modVf_grids (s : State) (v : Nat) (f : Vf → Vf) : (s.modVf v f).grids = s.grids := rfl
@[simp] theorem State.modVf_icinvs (s : State) (v : Nat) (f : Vf → Vf) : (s.modVf v f).icinvs = s.icinvs := rfl
@[simp] theorem State.modVf_emulated (s : State) (v : Nat) (f : Vf → Vf) : (s.modVf v f).emulated = s.emulated := rfl
@[simp] theorem State.modVf_flow (s : State) (v : Nat) (f : Vf → Vf) : (s.modVf v f).flow = s.flow := rfl
@[simp] theorem State.modVf_board (s : State) (v : Nat) (f : Vf → Vf) : (s.modVf v f).board = s.board := rfl
@[simp] theorem State.modVf_hostResult (s : State) (v : Nat) (f : Vf → Vf) : (s.modVf v f).hostResult = s.hostResult := rfl
@[simp] theorem State.modVf_hostError (s : State) (v : Nat) (f : Vf → Vf) : (s.modVf v f).hostError = s.hostError := rfl
@[simp] theorem State.modVf_cur (s : State) (v : Nat) (f : Vf → Vf) : (s.modVf v f).cur = s.cur := rfl
@[simp] theorem State.modVf_turn (s : State) (v : Nat) (f : Vf → Vf) : (s.modVf v f).turn = s.turn := rfl
@[simp] theorem State.modVf_inputs (s : State) (v : Nat) (f : Vf → Vf) : (s.modVf v f).inputs = s.inputs := rfl
@[simp] theorem State.modVf_tick (s : State) (v : Nat) (f : Vf → Vf) : (s.modVf v f).tick = s.tick := rfl

/-! ### `modQuad` -/

@[simp] theorem State.modQuad_mem (s : State) (n q : Nat) (f : Quad → Quad) : (s.modQuad n q f).mem = s.mem := rfl
@[simp] theorem State.modQuad_dies (s : State) (n q : Nat) (f : Quad → Quad) : (s.modQuad n q f).dies = s.dies := rfl
@[simp] theorem State.modQuad_vfs (s : State) (n q : Nat) (f : Quad → Quad) : (s.modQuad n q f).vfs = s.vfs := rfl
@[simp] theorem State.modQuad_teams (s : State) (n q : Nat) (f : Quad → Quad) : (s.modQuad n q f).teams = s.teams := rfl
@[simp] theorem State.modQuad_grids (s : State) (n q : Nat) (f : Quad → Quad) : (s.modQuad n q f).grids = s.grids := rfl
@[simp] theorem State.modQuad_icinvs (s : State) (n q : Nat) (f : Quad → Quad) : (s.modQuad n q f).icinvs = s.icinvs := rfl
@[simp] theorem State.modQuad_emulated (s : State) (n q : Nat) (f : Quad → Quad) : (s.modQuad n q f).emulated = s.emulated := rfl
@[simp] theorem State.modQuad_flow (s : State) (n q : Nat) (f : Quad → Quad) : (s.modQuad n q f).flow = s.flow := rfl
@[simp] theorem State.modQuad_board (s : State) (n q : Nat) (f : Quad → Quad) : (s.modQuad n q f).board = s.board := rfl
@[simp] theorem State.modQuad_hostResult (s : State) (n q : Nat) (f : Quad → Quad) : (s.modQuad n q f).hostResult = s.hostResult := rfl
@[simp] theorem State.modQuad_hostError (s : State) (n q : Nat) (f : Quad → Quad) : (s.modQuad n q f).hostError = s.hostError := rfl
@[simp] theorem State.modQuad_cur (s : State) (n q : Nat) (f : Quad → Quad) : (s.modQuad n q f).cur = s.cur := rfl
@[simp] theorem State.modQuad_turn (s : State) (n q : Nat) (f : Quad → Quad) : (s.modQuad n q f).turn = s.turn := rfl
@[simp] theorem State.modQuad_inputs (s : State) (n q : Nat) (f : Quad → Quad) : (s.modQuad n q f).inputs = s.inputs := rfl
@[simp] theorem State.modQuad_tick (s : State) (n q : Nat) (f : Quad → Quad) : (s.modQuad n q f).tick = s.tick := rfl

/-! ### `modTeam` -/

@[simp] theorem State.modTeam_mem (s : State) (t : Nat) (f : Team → Team) : (s.modTeam t f).mem = s.mem := rfl
@[simp] theorem State.modTeam_dies (s : State) (t : Nat) (f : Team → Team) : (s.modTeam t f).dies = s.dies := rfl
@[simp] theorem State.modTeam_cores (s : State) (t : Nat) (f : Team → Team) : (s.modTeam t f).cores = s.cores := rfl
@[simp] theorem State.modTeam_vfs (s : State) (t : Nat) (f : Team → Team) : (s.modTeam t f).vfs = s.vfs := rfl
@[simp] theorem State.modTeam_grids (s : State) (t : Nat) (f : Team → Team) : (s.modTeam t f).grids = s.grids := rfl
@[simp] theorem State.modTeam_icinvs (s : State) (t : Nat) (f : Team → Team) : (s.modTeam t f).icinvs = s.icinvs := rfl
@[simp] theorem State.modTeam_emulated (s : State) (t : Nat) (f : Team → Team) : (s.modTeam t f).emulated = s.emulated := rfl
@[simp] theorem State.modTeam_flow (s : State) (t : Nat) (f : Team → Team) : (s.modTeam t f).flow = s.flow := rfl
@[simp] theorem State.modTeam_board (s : State) (t : Nat) (f : Team → Team) : (s.modTeam t f).board = s.board := rfl
@[simp] theorem State.modTeam_hostResult (s : State) (t : Nat) (f : Team → Team) : (s.modTeam t f).hostResult = s.hostResult := rfl
@[simp] theorem State.modTeam_hostError (s : State) (t : Nat) (f : Team → Team) : (s.modTeam t f).hostError = s.hostError := rfl
@[simp] theorem State.modTeam_cur (s : State) (t : Nat) (f : Team → Team) : (s.modTeam t f).cur = s.cur := rfl
@[simp] theorem State.modTeam_turn (s : State) (t : Nat) (f : Team → Team) : (s.modTeam t f).turn = s.turn := rfl
@[simp] theorem State.modTeam_inputs (s : State) (t : Nat) (f : Team → Team) : (s.modTeam t f).inputs = s.inputs := rfl
@[simp] theorem State.modTeam_tick (s : State) (t : Nat) (f : Team → Team) : (s.modTeam t f).tick = s.tick := rfl

/-! ### `modGang` -/

@[simp] theorem State.modGang_mem (s : State) (t g : Nat) (f : Gang → Gang) : (s.modGang t g f).mem = s.mem := rfl
@[simp] theorem State.modGang_dies (s : State) (t g : Nat) (f : Gang → Gang) : (s.modGang t g f).dies = s.dies := rfl
@[simp] theorem State.modGang_cores (s : State) (t g : Nat) (f : Gang → Gang) : (s.modGang t g f).cores = s.cores := rfl
@[simp] theorem State.modGang_vfs (s : State) (t g : Nat) (f : Gang → Gang) : (s.modGang t g f).vfs = s.vfs := rfl
@[simp] theorem State.modGang_grids (s : State) (t g : Nat) (f : Gang → Gang) : (s.modGang t g f).grids = s.grids := rfl
@[simp] theorem State.modGang_icinvs (s : State) (t g : Nat) (f : Gang → Gang) : (s.modGang t g f).icinvs = s.icinvs := rfl
@[simp] theorem State.modGang_emulated (s : State) (t g : Nat) (f : Gang → Gang) : (s.modGang t g f).emulated = s.emulated := rfl
@[simp] theorem State.modGang_flow (s : State) (t g : Nat) (f : Gang → Gang) : (s.modGang t g f).flow = s.flow := rfl
@[simp] theorem State.modGang_board (s : State) (t g : Nat) (f : Gang → Gang) : (s.modGang t g f).board = s.board := rfl
@[simp] theorem State.modGang_hostResult (s : State) (t g : Nat) (f : Gang → Gang) : (s.modGang t g f).hostResult = s.hostResult := rfl
@[simp] theorem State.modGang_hostError (s : State) (t g : Nat) (f : Gang → Gang) : (s.modGang t g f).hostError = s.hostError := rfl
@[simp] theorem State.modGang_cur (s : State) (t g : Nat) (f : Gang → Gang) : (s.modGang t g f).cur = s.cur := rfl
@[simp] theorem State.modGang_turn (s : State) (t g : Nat) (f : Gang → Gang) : (s.modGang t g f).turn = s.turn := rfl
@[simp] theorem State.modGang_inputs (s : State) (t g : Nat) (f : Gang → Gang) : (s.modGang t g f).inputs = s.inputs := rfl
@[simp] theorem State.modGang_tick (s : State) (t g : Nat) (f : Gang → Gang) : (s.modGang t g f).tick = s.tick := rfl

/-! ### `modFrag` -/

@[simp] theorem State.modFrag_mem (s : State) (r : Ref) (f : Fragment → Fragment) : (s.modFrag r f).mem = s.mem := rfl
@[simp] theorem State.modFrag_dies (s : State) (r : Ref) (f : Fragment → Fragment) : (s.modFrag r f).dies = s.dies := rfl
@[simp] theorem State.modFrag_cores (s : State) (r : Ref) (f : Fragment → Fragment) : (s.modFrag r f).cores = s.cores := rfl
@[simp] theorem State.modFrag_vfs (s : State) (r : Ref) (f : Fragment → Fragment) : (s.modFrag r f).vfs = s.vfs := rfl
@[simp] theorem State.modFrag_grids (s : State) (r : Ref) (f : Fragment → Fragment) : (s.modFrag r f).grids = s.grids := rfl
@[simp] theorem State.modFrag_icinvs (s : State) (r : Ref) (f : Fragment → Fragment) : (s.modFrag r f).icinvs = s.icinvs := rfl
@[simp] theorem State.modFrag_emulated (s : State) (r : Ref) (f : Fragment → Fragment) : (s.modFrag r f).emulated = s.emulated := rfl
@[simp] theorem State.modFrag_flow (s : State) (r : Ref) (f : Fragment → Fragment) : (s.modFrag r f).flow = s.flow := rfl
@[simp] theorem State.modFrag_board (s : State) (r : Ref) (f : Fragment → Fragment) : (s.modFrag r f).board = s.board := rfl
@[simp] theorem State.modFrag_hostResult (s : State) (r : Ref) (f : Fragment → Fragment) : (s.modFrag r f).hostResult = s.hostResult := rfl
@[simp] theorem State.modFrag_hostError (s : State) (r : Ref) (f : Fragment → Fragment) : (s.modFrag r f).hostError = s.hostError := rfl
@[simp] theorem State.modFrag_cur (s : State) (r : Ref) (f : Fragment → Fragment) : (s.modFrag r f).cur = s.cur := rfl
@[simp] theorem State.modFrag_turn (s : State) (r : Ref) (f : Fragment → Fragment) : (s.modFrag r f).turn = s.turn := rfl
@[simp] theorem State.modFrag_inputs (s : State) (r : Ref) (f : Fragment → Fragment) : (s.modFrag r f).inputs = s.inputs := rfl
@[simp] theorem State.modFrag_tick (s : State) (r : Ref) (f : Fragment → Fragment) : (s.modFrag r f).tick = s.tick := rfl

/-! ### Gangs -/

@[simp] theorem Gang.setFrag_vregs (g : Gang) (n : Nat) (f : Fragment) : (g.setFrag n f).vregs = g.vregs := rfl
@[simp] theorem Gang.setFrag_sregs (g : Gang) (n : Nat) (f : Fragment) : (g.setFrag n f).sregs = g.sregs := rfl
@[simp] theorem Gang.setFrag_kregs (g : Gang) (n : Nat) (f : Fragment) : (g.setFrag n f).kregs = g.kregs := rfl
@[simp] theorem Gang.setFrag_accs (g : Gang) (n : Nat) (f : Fragment) : (g.setFrag n f).accs = g.accs := rfl
@[simp] theorem Gang.setFrag_fpm (g : Gang) (n : Nat) (f : Fragment) : (g.setFrag n f).fpm = g.fpm := rfl
@[simp] theorem Gang.setFrag_flags (g : Gang) (n : Nat) (f : Fragment) : (g.setFrag n f).flags = g.flags := rfl
@[simp] theorem Gang.setFrag_unread (g : Gang) (n : Nat) (f : Fragment) : (g.setFrag n f).unread = g.unread := rfl
@[simp] theorem Gang.setFrag_handler (g : Gang) (n : Nat) (f : Fragment) : (g.setFrag n f).handler = g.handler := rfl
@[simp] theorem Gang.setFrag_bindings (g : Gang) (n : Nat) (f : Fragment) : (g.setFrag n f).bindings = g.bindings := rfl
@[simp] theorem Gang.setFrag_pending (g : Gang) (n : Nat) (f : Fragment) : (g.setFrag n f).pending = g.pending := rfl
@[simp] theorem Gang.setFrag_wcount (g : Gang) (n : Nat) (f : Fragment) : (g.setFrag n f).wcount = g.wcount := rfl
@[simp] theorem Gang.setFrag_wbudget (g : Gang) (n : Nat) (f : Fragment) : (g.setFrag n f).wbudget = g.wbudget := rfl
@[simp] theorem Gang.setFrag_lane (g : Gang) (n : Nat) (f : Fragment) : (g.setFrag n f).lane = g.lane := rfl
@[simp] theorem Gang.setFrag_releases (g : Gang) (n : Nat) (f : Fragment) : (g.setFrag n f).releases = g.releases := rfl
@[simp] theorem Gang.setFrag_unacked (g : Gang) (n : Nat) (f : Fragment) : (g.setFrag n f).unacked = g.unacked := rfl
@[simp] theorem Gang.setFrag_core (g : Gang) (n : Nat) (f : Fragment) : (g.setFrag n f).core = g.core := rfl
@[simp] theorem Gang.setFrag_quad (g : Gang) (n : Nat) (f : Fragment) : (g.setFrag n f).quad = g.quad := rfl
@[simp] theorem Gang.setFrag_regBase (g : Gang) (n : Nat) (f : Fragment) : (g.setFrag n f).regBase = g.regBase := rfl
@[simp] theorem Gang.setFrag_regSize (g : Gang) (n : Nat) (f : Fragment) : (g.setFrag n f).regSize = g.regSize := rfl

@[simp] theorem Gang.setV_sregs (g : Gang) (n l : Nat) (v : Word) : (g.setV n l v).sregs = g.sregs := rfl
@[simp] theorem Gang.setV_kregs (g : Gang) (n l : Nat) (v : Word) : (g.setV n l v).kregs = g.kregs := rfl
@[simp] theorem Gang.setV_accs (g : Gang) (n l : Nat) (v : Word) : (g.setV n l v).accs = g.accs := rfl
@[simp] theorem Gang.setV_fpm (g : Gang) (n l : Nat) (v : Word) : (g.setV n l v).fpm = g.fpm := rfl
@[simp] theorem Gang.setV_flags (g : Gang) (n l : Nat) (v : Word) : (g.setV n l v).flags = g.flags := rfl
@[simp] theorem Gang.setV_unread (g : Gang) (n l : Nat) (v : Word) : (g.setV n l v).unread = g.unread := rfl
@[simp] theorem Gang.setV_entries (g : Gang) (n l : Nat) (v : Word) : (g.setV n l v).entries = g.entries := rfl
@[simp] theorem Gang.setV_handler (g : Gang) (n l : Nat) (v : Word) : (g.setV n l v).handler = g.handler := rfl
@[simp] theorem Gang.setV_bindings (g : Gang) (n l : Nat) (v : Word) : (g.setV n l v).bindings = g.bindings := rfl
@[simp] theorem Gang.setV_pending (g : Gang) (n l : Nat) (v : Word) : (g.setV n l v).pending = g.pending := rfl
@[simp] theorem Gang.setV_wcount (g : Gang) (n l : Nat) (v : Word) : (g.setV n l v).wcount = g.wcount := rfl
@[simp] theorem Gang.setV_wbudget (g : Gang) (n l : Nat) (v : Word) : (g.setV n l v).wbudget = g.wbudget := rfl
@[simp] theorem Gang.setV_lane (g : Gang) (n l : Nat) (v : Word) : (g.setV n l v).lane = g.lane := rfl
@[simp] theorem Gang.setV_releases (g : Gang) (n l : Nat) (v : Word) : (g.setV n l v).releases = g.releases := rfl
@[simp] theorem Gang.setV_unacked (g : Gang) (n l : Nat) (v : Word) : (g.setV n l v).unacked = g.unacked := rfl
@[simp] theorem Gang.setV_core (g : Gang) (n l : Nat) (v : Word) : (g.setV n l v).core = g.core := rfl
@[simp] theorem Gang.setV_quad (g : Gang) (n l : Nat) (v : Word) : (g.setV n l v).quad = g.quad := rfl
@[simp] theorem Gang.setV_regBase (g : Gang) (n l : Nat) (v : Word) : (g.setV n l v).regBase = g.regBase := rfl
@[simp] theorem Gang.setV_regSize (g : Gang) (n l : Nat) (v : Word) : (g.setV n l v).regSize = g.regSize := rfl

@[simp] theorem Gang.setS_vregs (g : Gang) (n : Nat) (v : Word) : (g.setS n v).vregs = g.vregs := by
  simp only [Gang.setS]; split <;> rfl
@[simp] theorem Gang.setS_kregs (g : Gang) (n : Nat) (v : Word) : (g.setS n v).kregs = g.kregs := by
  simp only [Gang.setS]; split <;> rfl
@[simp] theorem Gang.setS_accs (g : Gang) (n : Nat) (v : Word) : (g.setS n v).accs = g.accs := by
  simp only [Gang.setS]; split <;> rfl
@[simp] theorem Gang.setS_fpm (g : Gang) (n : Nat) (v : Word) : (g.setS n v).fpm = g.fpm := by
  simp only [Gang.setS]; split <;> rfl
@[simp] theorem Gang.setS_flags (g : Gang) (n : Nat) (v : Word) : (g.setS n v).flags = g.flags := by
  simp only [Gang.setS]; split <;> rfl
@[simp] theorem Gang.setS_unread (g : Gang) (n : Nat) (v : Word) : (g.setS n v).unread = g.unread := by
  simp only [Gang.setS]; split <;> rfl
@[simp] theorem Gang.setS_entries (g : Gang) (n : Nat) (v : Word) : (g.setS n v).entries = g.entries := by
  simp only [Gang.setS]; split <;> rfl
@[simp] theorem Gang.setS_handler (g : Gang) (n : Nat) (v : Word) : (g.setS n v).handler = g.handler := by
  simp only [Gang.setS]; split <;> rfl
@[simp] theorem Gang.setS_bindings (g : Gang) (n : Nat) (v : Word) : (g.setS n v).bindings = g.bindings := by
  simp only [Gang.setS]; split <;> rfl
@[simp] theorem Gang.setS_pending (g : Gang) (n : Nat) (v : Word) : (g.setS n v).pending = g.pending := by
  simp only [Gang.setS]; split <;> rfl
@[simp] theorem Gang.setS_wcount (g : Gang) (n : Nat) (v : Word) : (g.setS n v).wcount = g.wcount := by
  simp only [Gang.setS]; split <;> rfl
@[simp] theorem Gang.setS_wbudget (g : Gang) (n : Nat) (v : Word) : (g.setS n v).wbudget = g.wbudget := by
  simp only [Gang.setS]; split <;> rfl
@[simp] theorem Gang.setS_lane (g : Gang) (n : Nat) (v : Word) : (g.setS n v).lane = g.lane := by
  simp only [Gang.setS]; split <;> rfl
@[simp] theorem Gang.setS_releases (g : Gang) (n : Nat) (v : Word) : (g.setS n v).releases = g.releases := by
  simp only [Gang.setS]; split <;> rfl
@[simp] theorem Gang.setS_unacked (g : Gang) (n : Nat) (v : Word) : (g.setS n v).unacked = g.unacked := by
  simp only [Gang.setS]; split <;> rfl
@[simp] theorem Gang.setS_core (g : Gang) (n : Nat) (v : Word) : (g.setS n v).core = g.core := by
  simp only [Gang.setS]; split <;> rfl
@[simp] theorem Gang.setS_quad (g : Gang) (n : Nat) (v : Word) : (g.setS n v).quad = g.quad := by
  simp only [Gang.setS]; split <;> rfl
@[simp] theorem Gang.setS_regBase (g : Gang) (n : Nat) (v : Word) : (g.setS n v).regBase = g.regBase := by
  simp only [Gang.setS]; split <;> rfl
@[simp] theorem Gang.setS_regSize (g : Gang) (n : Nat) (v : Word) : (g.setS n v).regSize = g.regSize := by
  simp only [Gang.setS]; split <;> rfl

@[simp] theorem Gang.setK_vregs (g : Gang) (w n : Nat) (ls v : Mask) : (g.setK w n ls v).vregs = g.vregs := by
  simp only [Gang.setK]; split <;> rfl
@[simp] theorem Gang.setK_sregs (g : Gang) (w n : Nat) (ls v : Mask) : (g.setK w n ls v).sregs = g.sregs := by
  simp only [Gang.setK]; split <;> rfl
@[simp] theorem Gang.setK_accs (g : Gang) (w n : Nat) (ls v : Mask) : (g.setK w n ls v).accs = g.accs := by
  simp only [Gang.setK]; split <;> rfl
@[simp] theorem Gang.setK_fpm (g : Gang) (w n : Nat) (ls v : Mask) : (g.setK w n ls v).fpm = g.fpm := by
  simp only [Gang.setK]; split <;> rfl
@[simp] theorem Gang.setK_flags (g : Gang) (w n : Nat) (ls v : Mask) : (g.setK w n ls v).flags = g.flags := by
  simp only [Gang.setK]; split <;> rfl
@[simp] theorem Gang.setK_unread (g : Gang) (w n : Nat) (ls v : Mask) : (g.setK w n ls v).unread = g.unread := by
  simp only [Gang.setK]; split <;> rfl
@[simp] theorem Gang.setK_entries (g : Gang) (w n : Nat) (ls v : Mask) : (g.setK w n ls v).entries = g.entries := by
  simp only [Gang.setK]; split <;> rfl
@[simp] theorem Gang.setK_handler (g : Gang) (w n : Nat) (ls v : Mask) : (g.setK w n ls v).handler = g.handler := by
  simp only [Gang.setK]; split <;> rfl
@[simp] theorem Gang.setK_bindings (g : Gang) (w n : Nat) (ls v : Mask) : (g.setK w n ls v).bindings = g.bindings := by
  simp only [Gang.setK]; split <;> rfl
@[simp] theorem Gang.setK_pending (g : Gang) (w n : Nat) (ls v : Mask) : (g.setK w n ls v).pending = g.pending := by
  simp only [Gang.setK]; split <;> rfl
@[simp] theorem Gang.setK_wcount (g : Gang) (w n : Nat) (ls v : Mask) : (g.setK w n ls v).wcount = g.wcount := by
  simp only [Gang.setK]; split <;> rfl
@[simp] theorem Gang.setK_wbudget (g : Gang) (w n : Nat) (ls v : Mask) : (g.setK w n ls v).wbudget = g.wbudget := by
  simp only [Gang.setK]; split <;> rfl
@[simp] theorem Gang.setK_lane (g : Gang) (w n : Nat) (ls v : Mask) : (g.setK w n ls v).lane = g.lane := by
  simp only [Gang.setK]; split <;> rfl
@[simp] theorem Gang.setK_releases (g : Gang) (w n : Nat) (ls v : Mask) : (g.setK w n ls v).releases = g.releases := by
  simp only [Gang.setK]; split <;> rfl
@[simp] theorem Gang.setK_unacked (g : Gang) (w n : Nat) (ls v : Mask) : (g.setK w n ls v).unacked = g.unacked := by
  simp only [Gang.setK]; split <;> rfl
@[simp] theorem Gang.setK_core (g : Gang) (w n : Nat) (ls v : Mask) : (g.setK w n ls v).core = g.core := by
  simp only [Gang.setK]; split <;> rfl
@[simp] theorem Gang.setK_quad (g : Gang) (w n : Nat) (ls v : Mask) : (g.setK w n ls v).quad = g.quad := by
  simp only [Gang.setK]; split <;> rfl
@[simp] theorem Gang.setK_regBase (g : Gang) (w n : Nat) (ls v : Mask) : (g.setK w n ls v).regBase = g.regBase := by
  simp only [Gang.setK]; split <;> rfl
@[simp] theorem Gang.setK_regSize (g : Gang) (w n : Nat) (ls v : Mask) : (g.setK w n ls v).regSize = g.regSize := by
  simp only [Gang.setK]; split <;> rfl

@[simp] theorem Gang.count_vregs (g : Gang)  : (g.count ).vregs = g.vregs := by
  simp only [Gang.count]; split <;> rfl
@[simp] theorem Gang.count_sregs (g : Gang)  : (g.count ).sregs = g.sregs := by
  simp only [Gang.count]; split <;> rfl
@[simp] theorem Gang.count_kregs (g : Gang)  : (g.count ).kregs = g.kregs := by
  simp only [Gang.count]; split <;> rfl
@[simp] theorem Gang.count_accs (g : Gang)  : (g.count ).accs = g.accs := by
  simp only [Gang.count]; split <;> rfl
@[simp] theorem Gang.count_fpm (g : Gang)  : (g.count ).fpm = g.fpm := by
  simp only [Gang.count]; split <;> rfl
@[simp] theorem Gang.count_flags (g : Gang)  : (g.count ).flags = g.flags := by
  simp only [Gang.count]; split <;> rfl
@[simp] theorem Gang.count_unread (g : Gang)  : (g.count ).unread = g.unread := by
  simp only [Gang.count]; split <;> rfl
@[simp] theorem Gang.count_entries (g : Gang)  : (g.count ).entries = g.entries := by
  simp only [Gang.count]; split <;> rfl
@[simp] theorem Gang.count_handler (g : Gang)  : (g.count ).handler = g.handler := by
  simp only [Gang.count]; split <;> rfl
@[simp] theorem Gang.count_bindings (g : Gang)  : (g.count ).bindings = g.bindings := by
  simp only [Gang.count]; split <;> rfl
@[simp] theorem Gang.count_pending (g : Gang)  : (g.count ).pending = g.pending := by
  simp only [Gang.count]; split <;> rfl
@[simp] theorem Gang.count_wbudget (g : Gang)  : (g.count ).wbudget = g.wbudget := by
  simp only [Gang.count]; split <;> rfl
@[simp] theorem Gang.count_lane (g : Gang)  : (g.count ).lane = g.lane := by
  simp only [Gang.count]; split <;> rfl
@[simp] theorem Gang.count_releases (g : Gang)  : (g.count ).releases = g.releases := by
  simp only [Gang.count]; split <;> rfl
@[simp] theorem Gang.count_unacked (g : Gang)  : (g.count ).unacked = g.unacked := by
  simp only [Gang.count]; split <;> rfl
@[simp] theorem Gang.count_core (g : Gang)  : (g.count ).core = g.core := by
  simp only [Gang.count]; split <;> rfl
@[simp] theorem Gang.count_quad (g : Gang)  : (g.count ).quad = g.quad := by
  simp only [Gang.count]; split <;> rfl
@[simp] theorem Gang.count_regBase (g : Gang)  : (g.count ).regBase = g.regBase := by
  simp only [Gang.count]; split <;> rfl
@[simp] theorem Gang.count_regSize (g : Gang)  : (g.count ).regSize = g.regSize := by
  simp only [Gang.count]; split <;> rfl

@[simp] theorem Gang.setVs_sregs (vals : List (Nat × Word)) (n : Nat) (g : Gang) : (g.setVs n vals).sregs = g.sregs := by
  induction vals generalizing g with
  | nil => rfl
  | cons p vals ih => exact ih (g.setV n p.1 p.2)
@[simp] theorem Gang.setVs_kregs (vals : List (Nat × Word)) (n : Nat) (g : Gang) : (g.setVs n vals).kregs = g.kregs := by
  induction vals generalizing g with
  | nil => rfl
  | cons p vals ih => exact ih (g.setV n p.1 p.2)
@[simp] theorem Gang.setVs_accs (vals : List (Nat × Word)) (n : Nat) (g : Gang) : (g.setVs n vals).accs = g.accs := by
  induction vals generalizing g with
  | nil => rfl
  | cons p vals ih => exact ih (g.setV n p.1 p.2)
@[simp] theorem Gang.setVs_fpm (vals : List (Nat × Word)) (n : Nat) (g : Gang) : (g.setVs n vals).fpm = g.fpm := by
  induction vals generalizing g with
  | nil => rfl
  | cons p vals ih => exact ih (g.setV n p.1 p.2)
@[simp] theorem Gang.setVs_flags (vals : List (Nat × Word)) (n : Nat) (g : Gang) : (g.setVs n vals).flags = g.flags := by
  induction vals generalizing g with
  | nil => rfl
  | cons p vals ih => exact ih (g.setV n p.1 p.2)
@[simp] theorem Gang.setVs_unread (vals : List (Nat × Word)) (n : Nat) (g : Gang) : (g.setVs n vals).unread = g.unread := by
  induction vals generalizing g with
  | nil => rfl
  | cons p vals ih => exact ih (g.setV n p.1 p.2)
@[simp] theorem Gang.setVs_entries (vals : List (Nat × Word)) (n : Nat) (g : Gang) : (g.setVs n vals).entries = g.entries := by
  induction vals generalizing g with
  | nil => rfl
  | cons p vals ih => exact ih (g.setV n p.1 p.2)
@[simp] theorem Gang.setVs_handler (vals : List (Nat × Word)) (n : Nat) (g : Gang) : (g.setVs n vals).handler = g.handler := by
  induction vals generalizing g with
  | nil => rfl
  | cons p vals ih => exact ih (g.setV n p.1 p.2)
@[simp] theorem Gang.setVs_bindings (vals : List (Nat × Word)) (n : Nat) (g : Gang) : (g.setVs n vals).bindings = g.bindings := by
  induction vals generalizing g with
  | nil => rfl
  | cons p vals ih => exact ih (g.setV n p.1 p.2)
@[simp] theorem Gang.setVs_pending (vals : List (Nat × Word)) (n : Nat) (g : Gang) : (g.setVs n vals).pending = g.pending := by
  induction vals generalizing g with
  | nil => rfl
  | cons p vals ih => exact ih (g.setV n p.1 p.2)
@[simp] theorem Gang.setVs_wcount (vals : List (Nat × Word)) (n : Nat) (g : Gang) : (g.setVs n vals).wcount = g.wcount := by
  induction vals generalizing g with
  | nil => rfl
  | cons p vals ih => exact ih (g.setV n p.1 p.2)
@[simp] theorem Gang.setVs_wbudget (vals : List (Nat × Word)) (n : Nat) (g : Gang) : (g.setVs n vals).wbudget = g.wbudget := by
  induction vals generalizing g with
  | nil => rfl
  | cons p vals ih => exact ih (g.setV n p.1 p.2)
@[simp] theorem Gang.setVs_lane (vals : List (Nat × Word)) (n : Nat) (g : Gang) : (g.setVs n vals).lane = g.lane := by
  induction vals generalizing g with
  | nil => rfl
  | cons p vals ih => exact ih (g.setV n p.1 p.2)
@[simp] theorem Gang.setVs_releases (vals : List (Nat × Word)) (n : Nat) (g : Gang) : (g.setVs n vals).releases = g.releases := by
  induction vals generalizing g with
  | nil => rfl
  | cons p vals ih => exact ih (g.setV n p.1 p.2)
@[simp] theorem Gang.setVs_unacked (vals : List (Nat × Word)) (n : Nat) (g : Gang) : (g.setVs n vals).unacked = g.unacked := by
  induction vals generalizing g with
  | nil => rfl
  | cons p vals ih => exact ih (g.setV n p.1 p.2)
@[simp] theorem Gang.setVs_core (vals : List (Nat × Word)) (n : Nat) (g : Gang) : (g.setVs n vals).core = g.core := by
  induction vals generalizing g with
  | nil => rfl
  | cons p vals ih => exact ih (g.setV n p.1 p.2)
@[simp] theorem Gang.setVs_quad (vals : List (Nat × Word)) (n : Nat) (g : Gang) : (g.setVs n vals).quad = g.quad := by
  induction vals generalizing g with
  | nil => rfl
  | cons p vals ih => exact ih (g.setV n p.1 p.2)
@[simp] theorem Gang.setVs_regBase (vals : List (Nat × Word)) (n : Nat) (g : Gang) : (g.setVs n vals).regBase = g.regBase := by
  induction vals generalizing g with
  | nil => rfl
  | cons p vals ih => exact ih (g.setV n p.1 p.2)
@[simp] theorem Gang.setVs_regSize (vals : List (Nat × Word)) (n : Nat) (g : Gang) : (g.setVs n vals).regSize = g.regSize := by
  induction vals generalizing g with
  | nil => rfl
  | cons p vals ih => exact ih (g.setV n p.1 p.2)

/-! ### Reading what was changed -/

theorem State.die_modDie (s : State) (d e : Nat) (f : Die → Die) : (s.modDie d f).die e = if d = e then f (s.die d) else s.die e := by
  simp only [State.modDie, State.die, SMap.getD_set]

theorem State.core_modCore (s : State) (n m : Nat) (f : Core → Core) :
    (s.modCore n f).core m = if n = m then f (s.core n) else s.core m := by
  simp only [State.modCore, State.core, SMap.getD_set]

theorem State.vf_modVf (s : State) (v w : Nat) (f : Vf → Vf) : (s.modVf v f).vf w = if v = w then f (s.vf v) else s.vf w := by
  simp only [State.modVf, State.vf, SMap.getD_set]

theorem State.team?_modTeam (s : State) (t u : Nat) (f : Team → Team) :
    (s.modTeam t f).team? u = if t = u then (s.team? u).map f else s.team? u := SMap.get?_modify ..

theorem State.gang?_modTeam (s : State) (t u g : Nat) (f : Team → Team) (hf : ∀ x, (f x).gangs = x.gangs) :
    (s.modTeam t f).gang? u g = s.gang? u g := by
  simp only [State.gang?, State.team?_modTeam]
  split
  · cases s.team? u <;> simp [hf]
  · rfl

theorem State.team?_modGang (s : State) (t u g : Nat) (f : Gang → Gang) :
    (s.modGang t g f).team? u =
      if t = u then (s.team? u).map fun x => { x with gangs := SMap.modify x.gangs g f } else s.team? u := by
  simp only [State.modGang, State.team?_modTeam]

theorem State.gang?_modGang (s : State) (t u g h : Nat) (f : Gang → Gang) :
    (s.modGang t g f).gang? u h = if t = u ∧ g = h then (s.gang? u h).map f else s.gang? u h := by
  simp only [State.gang?, State.team?_modGang]
  by_cases h1 : t = u
  · subst h1
    simp only [if_true, true_and]
    cases s.team? t with
    | none => simp
    | some x => simp [SMap.get?_modify]
  · simp [h1]

@[simp] theorem State.die_modGang (s : State) (t g d : Nat) (f : Gang → Gang) : (s.modGang t g f).die d = s.die d := rfl
@[simp] theorem State.core_modGang (s : State) (t g n : Nat) (f : Gang → Gang) : (s.modGang t g f).core n = s.core n := rfl
@[simp] theorem State.vf_modGang (s : State) (t g v : Nat) (f : Gang → Gang) : (s.modGang t g f).vf v = s.vf v := rfl
@[simp] theorem State.die_modTeam (s : State) (t d : Nat) (f : Team → Team) : (s.modTeam t f).die d = s.die d := rfl
@[simp] theorem State.core_modTeam (s : State) (t n : Nat) (f : Team → Team) : (s.modTeam t f).core n = s.core n := rfl
@[simp] theorem State.vf_modTeam (s : State) (t v : Nat) (f : Team → Team) : (s.modTeam t f).vf v = s.vf v := rfl

theorem Core.quad_set (c : Core) (q r : Nat) (x : Quad) :
    ({ c with quads := SMap.set c.quads q x } : Core).quad r = if q = r then x else c.quad r := by
  simp only [Core.quad, SMap.getD_set]

/-! ### Registers -/

theorem Gang.s_setS (g : Gang) (d n : Nat) (v : Word) : (g.setS d v).s n = if n = 0 then 0 else if n = d then v else g.s n := by
  simp only [Gang.setS, Gang.s]
  by_cases h : n = 0
  · simp [h]
  · by_cases hd : d = 0
    · have : n ≠ d := by omega
      simp [h, hd]
    · by_cases hn : n = d
      · subst hn; simp [h, ZMap.get_set_self]
      · have : d ≠ n := fun e => hn e.symm
        simp [h, hd, hn, ZMap.get_set_ne _ _ _ _ this]

theorem Gang.v_setV (g : Gang) (d n l m : Nat) (v : Word) (hl : l < 64) (hm : m < 64) :
    (g.setV d l v).v n m = if n = d ∧ m = l then v else g.v n m := by
  simp only [Gang.setV, Gang.v, ZMap.get_set]
  by_cases h : n = d ∧ m = l
  · obtain ⟨rfl, rfl⟩ := h; simp
  · have : 64 * d + l ≠ 64 * n + m := by omega
    simp [h, this]

theorem Gang.s_zero (g : Gang) : g.s 0 = 0 := rfl

/-- A write of one vector register in distinct lanes below 64. -/
theorem Gang.v_setVs (ls : List Nat) (f : Nat → Word) (g : Gang) (d n m : Nat) (hls : ∀ l ∈ ls, l < 64) (hm : m < 64) :
    (g.setVs d (ls.map fun l => (l, f l))).v n m = if n = d ∧ m ∈ ls then f m else g.v n m := by
  induction ls generalizing g with
  | nil => simp [Gang.setVs]
  | cons l ls ih =>
    have hl : l < 64 := hls l List.mem_cons_self
    have := ih (g.setV d l (f l)) (fun k hk => hls k (List.mem_cons_of_mem _ hk))
    simp only [Gang.setVs, List.map_cons, List.foldl_cons] at this ⊢
    rw [this, Gang.v_setV _ _ _ _ _ _ hl hm]
    by_cases h1 : n = d
    · by_cases h2 : m ∈ ls
      · simp [h1, h2]
      · by_cases h3 : m = l
        · subst h3; simp [h1, h2]
        · simp [h1, h2, h3]
    · simp [h1]

theorem lanesOf_lt (m : Mask) (l : Nat) (h : l ∈ lanesOf m) : l < 64 := by
  simp only [lanesOf, List.mem_filter, List.mem_range] at h; exact h.1

theorem mem_lanesOf (m : Mask) (l : Nat) : l ∈ lanesOf m ↔ bit m l = true := by
  simp only [lanesOf, List.mem_filter, List.mem_range, bit]
  constructor
  · exact fun h => h.2
  · intro h
    exact ⟨by by_contra hl; rw [BitVec.getLsbD_of_ge _ _ (by omega)] at h; simp at h, h⟩

end Sys2Proof.Machine
end

