-- ==== Sys2Proof/Laws/Agents.lean ====
section
/-! SUPPORT. What the updates of a Belvedere core, a session and a copy leave of the state, and what reading the changed part gives. -/

namespace Sys2Proof.Machine

/-! ### `modBelv` -/

@[simp] theorem State.modBelv_mem (s : State) (d : Nat) (f : Belvedere → Belvedere) : (s.modBelv d f).mem = s.mem := rfl
@[simp] theorem State.modBelv_cores (s : State) (d : Nat) (f : Belvedere → Belvedere) : (s.modBelv d f).cores = s.cores := rfl
@[simp] theorem State.modBelv_vfs (s : State) (d : Nat) (f : Belvedere → Belvedere) : (s.modBelv d f).vfs = s.vfs := rfl
@[simp] theorem State.modBelv_teams (s : State) (d : Nat) (f : Belvedere → Belvedere) : (s.modBelv d f).teams = s.teams := rfl
@[simp] theorem State.modBelv_grids (s : State) (d : Nat) (f : Belvedere → Belvedere) : (s.modBelv d f).grids = s.grids := rfl
@[simp] theorem State.modBelv_icinvs (s : State) (d : Nat) (f : Belvedere → Belvedere) : (s.modBelv d f).icinvs = s.icinvs := rfl
@[simp] theorem State.modBelv_emulated (s : State) (d : Nat) (f : Belvedere → Belvedere) : (s.modBelv d f).emulated = s.emulated := rfl
@[simp] theorem State.modBelv_flow (s : State) (d : Nat) (f : Belvedere → Belvedere) : (s.modBelv d f).flow = s.flow := rfl
@[simp] theorem State.modBelv_board (s : State) (d : Nat) (f : Belvedere → Belvedere) : (s.modBelv d f).board = s.board := rfl
@[simp] theorem State.modBelv_hostResult (s : State) (d : Nat) (f : Belvedere → Belvedere) : (s.modBelv d f).hostResult = s.hostResult := rfl
@[simp] theorem State.modBelv_hostError (s : State) (d : Nat) (f : Belvedere → Belvedere) : (s.modBelv d f).hostError = s.hostError := rfl
@[simp] theorem State.modBelv_cur (s : State) (d : Nat) (f : Belvedere → Belvedere) : (s.modBelv d f).cur = s.cur := rfl
@[simp] theorem State.modBelv_turn (s : State) (d : Nat) (f : Belvedere → Belvedere) : (s.modBelv d f).turn = s.turn := rfl
@[simp] theorem State.modBelv_inputs (s : State) (d : Nat) (f : Belvedere → Belvedere) : (s.modBelv d f).inputs = s.inputs := rfl
@[simp] theorem State.modBelv_tick (s : State) (d : Nat) (f : Belvedere → Belvedere) : (s.modBelv d f).tick = s.tick := rfl

/-! ### `modSession` -/

@[simp] theorem State.modSession_mem (s : State) (d k : Nat) (f : Session → Session) : (s.modSession d k f).mem = s.mem := rfl
@[simp] theorem State.modSession_cores (s : State) (d k : Nat) (f : Session → Session) : (s.modSession d k f).cores = s.cores := rfl
@[simp] theorem State.modSession_vfs (s : State) (d k : Nat) (f : Session → Session) : (s.modSession d k f).vfs = s.vfs := rfl
@[simp] theorem State.modSession_teams (s : State) (d k : Nat) (f : Session → Session) : (s.modSession d k f).teams = s.teams := rfl
@[simp] theorem State.modSession_grids (s : State) (d k : Nat) (f : Session → Session) : (s.modSession d k f).grids = s.grids := rfl
@[simp] theorem State.modSession_icinvs (s : State) (d k : Nat) (f : Session → Session) : (s.modSession d k f).icinvs = s.icinvs := rfl
@[simp] theorem State.modSession_emulated (s : State) (d k : Nat) (f : Session → Session) : (s.modSession d k f).emulated = s.emulated := rfl
@[simp] theorem State.modSession_flow (s : State) (d k : Nat) (f : Session → Session) : (s.modSession d k f).flow = s.flow := rfl
@[simp] theorem State.modSession_board (s : State) (d k : Nat) (f : Session → Session) : (s.modSession d k f).board = s.board := rfl
@[simp] theorem State.modSession_hostResult (s : State) (d k : Nat) (f : Session → Session) : (s.modSession d k f).hostResult = s.hostResult := rfl
@[simp] theorem State.modSession_hostError (s : State) (d k : Nat) (f : Session → Session) : (s.modSession d k f).hostError = s.hostError := rfl
@[simp] theorem State.modSession_cur (s : State) (d k : Nat) (f : Session → Session) : (s.modSession d k f).cur = s.cur := rfl
@[simp] theorem State.modSession_turn (s : State) (d k : Nat) (f : Session → Session) : (s.modSession d k f).turn = s.turn := rfl
@[simp] theorem State.modSession_inputs (s : State) (d k : Nat) (f : Session → Session) : (s.modSession d k f).inputs = s.inputs := rfl
@[simp] theorem State.modSession_tick (s : State) (d k : Nat) (f : Session → Session) : (s.modSession d k f).tick = s.tick := rfl

/-! ### `modCopy` -/

@[simp] theorem State.modCopy_mem (s : State) (n k : Nat) (f : Copy → Copy) : (s.modCopy n k f).mem = s.mem := rfl
@[simp] theorem State.modCopy_dies (s : State) (n k : Nat) (f : Copy → Copy) : (s.modCopy n k f).dies = s.dies := rfl
@[simp] theorem State.modCopy_vfs (s : State) (n k : Nat) (f : Copy → Copy) : (s.modCopy n k f).vfs = s.vfs := rfl
@[simp] theorem State.modCopy_teams (s : State) (n k : Nat) (f : Copy → Copy) : (s.modCopy n k f).teams = s.teams := rfl
@[simp] theorem State.modCopy_grids (s : State) (n k : Nat) (f : Copy → Copy) : (s.modCopy n k f).grids = s.grids := rfl
@[simp] theorem State.modCopy_icinvs (s : State) (n k : Nat) (f : Copy → Copy) : (s.modCopy n k f).icinvs = s.icinvs := rfl
@[simp] theorem State.modCopy_emulated (s : State) (n k : Nat) (f : Copy → Copy) : (s.modCopy n k f).emulated = s.emulated := rfl
@[simp] theorem State.modCopy_flow (s : State) (n k : Nat) (f : Copy → Copy) : (s.modCopy n k f).flow = s.flow := rfl
@[simp] theorem State.modCopy_board (s : State) (n k : Nat) (f : Copy → Copy) : (s.modCopy n k f).board = s.board := rfl
@[simp] theorem State.modCopy_hostResult (s : State) (n k : Nat) (f : Copy → Copy) : (s.modCopy n k f).hostResult = s.hostResult := rfl
@[simp] theorem State.modCopy_hostError (s : State) (n k : Nat) (f : Copy → Copy) : (s.modCopy n k f).hostError = s.hostError := rfl
@[simp] theorem State.modCopy_cur (s : State) (n k : Nat) (f : Copy → Copy) : (s.modCopy n k f).cur = s.cur := rfl
@[simp] theorem State.modCopy_turn (s : State) (n k : Nat) (f : Copy → Copy) : (s.modCopy n k f).turn = s.turn := rfl
@[simp] theorem State.modCopy_inputs (s : State) (n k : Nat) (f : Copy → Copy) : (s.modCopy n k f).inputs = s.inputs := rfl
@[simp] theorem State.modCopy_tick (s : State) (n k : Nat) (f : Copy → Copy) : (s.modCopy n k f).tick = s.tick := rfl

/-! ### Reading what was changed -/

theorem State.die_modBelv (s : State) (d n : Nat) (f : Belvedere → Belvedere) :
    (s.modBelv d f).die n = if d = n then { s.die d with belv := f (s.die d).belv } else s.die n := by
  simp only [State.modBelv, State.die_modDie]

theorem State.session?_modSession (s : State) (d k n j : Nat) (f : Session → Session) :
    (s.modSession d k f).session? n j = if d = n ∧ k = j then (s.session? d k).map f else s.session? n j := by
  simp only [State.modSession, State.session?, State.die_modDie]
  by_cases h : d = n
  · subst h
    by_cases hk : k = j <;> simp [SMap.get?_modify, hk]
  · simp [h]

theorem State.copy?_modCopy (s : State) (n k m j : Nat) (f : Copy → Copy) :
    (s.modCopy n k f).copy? m j = if n = m ∧ k = j then (s.copy? n k).map f else s.copy? m j := by
  simp only [State.modCopy, State.copy?, State.core_modCore]
  by_cases h : n = m
  · subst h
    by_cases hk : k = j <;> simp [SMap.get?_modify, hk]
  · simp [h]

end Sys2Proof.Machine
end

