-- ==== Sys2Proof/Laws/Caches.lean ====
section
/-! SUPPORT. What the caches' operations can do: an access at a home slice changes no byte of memory, and every operation of the caches
leaves functions, teams, grids, board, inputs and the fragment in hand as they are, and memory in its canonical form. -/

namespace Sys2Proof.Machine

/-- What an operation of the caches leaves of the state, and that it keeps memory's canonical form. -/
structure State.CacheStep (s t : State) : Prop where
  vfs : t.vfs = s.vfs
  teams : t.teams = s.teams
  grids : t.grids = s.grids
  icinvs : t.icinvs = s.icinvs
  emulated : t.emulated = s.emulated
  board : t.board = s.board
  hostResult : t.hostResult = s.hostResult
  hostError : t.hostError = s.hostError
  cur : t.cur = s.cur
  turn : t.turn = s.turn
  inputs : t.inputs = s.inputs
  tick : t.tick = s.tick
  mem : Memory.wf s.mem = true → Memory.wf t.mem = true

theorem State.CacheStep.refl (s : State) : s.CacheStep s :=
  ⟨rfl, rfl, rfl, rfl, rfl, rfl, rfl, rfl, rfl, rfl, rfl, rfl, id⟩

theorem State.CacheStep.trans {s t u : State} (h : s.CacheStep t) (k : t.CacheStep u) : s.CacheStep u :=
  ⟨k.vfs.trans h.vfs, k.teams.trans h.teams, k.grids.trans h.grids, k.icinvs.trans h.icinvs, k.emulated.trans h.emulated,
    k.board.trans h.board, k.hostResult.trans h.hostResult, k.hostError.trans h.hostError, k.cur.trans h.cur,
    k.turn.trans h.turn, k.inputs.trans h.inputs, k.tick.trans h.tick, fun w => k.mem (h.mem w)⟩

theorem State.CacheStep.foldl {α : Type} {f : State → α → State} (h : ∀ (s : State) (a : α), s.CacheStep (f s a))
    (l : List α) (s : State) :
    s.CacheStep (l.foldl f s) := by
  induction l generalizing s with
  | nil => exact .refl s
  | cons a l ih => exact (h s a).trans (ih _)

theorem State.CacheStep.modDie (s : State) (d : Nat) (f : Die → Die) : s.CacheStep (s.modDie d f) :=
  ⟨rfl, rfl, rfl, rfl, rfl, rfl, rfl, rfl, rfl, rfl, rfl, rfl, id⟩

theorem State.CacheStep.modCore (s : State) (n : Nat) (f : Core → Core) : s.CacheStep (s.modCore n f) :=
  ⟨rfl, rfl, rfl, rfl, rfl, rfl, rfl, rfl, rfl, rfl, rfl, rfl, id⟩

theorem State.CacheStep.setMem (s : State) (m : Memory) (h : Memory.wf s.mem = true → Memory.wf m = true) :
    s.CacheStep { s with mem := m } :=
  ⟨rfl, rfl, rfl, rfl, rfl, rfl, rfl, rfl, rfl, rfl, rfl, rfl, h⟩

/-! ### The home slice -/

theorem State.cavernPut_eq (s : State) (die num : Nat) (secs : BitVec 4) (mask : BitVec 256) (evp rcg : Nat) :
    ∃ f, s.cavernPut die num secs mask evp rcg = s.modDie die f ∨ s.cavernPut die num secs mask evp rcg = s := by
  unfold State.cavernPut
  split
  · exact ⟨id, .inr rfl⟩
  · exact ⟨_, .inl rfl⟩

theorem State.cavernPut_step (s : State) (die num : Nat) (secs : BitVec 4) (mask : BitVec 256) (evp rcg : Nat) :
    s.CacheStep (s.cavernPut die num secs mask evp rcg) ∧ (s.cavernPut die num secs mask evp rcg).mem = s.mem := by
  obtain ⟨f, h | h⟩ := s.cavernPut_eq die num secs mask evp rcg <;> rw [h]
  · exact ⟨.modDie _ _ _, rfl⟩
  · exact ⟨.refl s, rfl⟩

theorem State.countRcg_step (s : State) (die g : Nat) :
    s.CacheStep (s.countRcg die g) ∧ (s.countRcg die g).mem = s.mem := by
  unfold State.countRcg
  split
  · exact ⟨.refl s, rfl⟩
  · exact ⟨.modDie _ _ _, rfl⟩

theorem State.reachCavern_step (s : State) (die num : Nat) (secs : BitVec 4) (mask : BitVec 256) (leaf : Word) :
    s.CacheStep (s.reachCavern die num secs mask leaf) ∧ (s.reachCavern die num secs mask leaf).mem = s.mem := by
  unfold State.reachCavern
  obtain ⟨h, hm⟩ := s.countRcg_step die (pteRcg leaf)
  dsimp only
  split
  · exact ⟨h, hm⟩
  · exact ⟨h.trans (cavernPut_step ..).1, (cavernPut_step ..).2.trans hm⟩

theorem State.evictHome_step (s : State) (die : Nat) (h : Held) :
    s.CacheStep (s.evictHome die h) ∧ (s.evictHome die h).mem = s.mem := by
  unfold State.evictHome
  dsimp only
  split
  · exact ⟨.modDie _ _ _, rfl⟩
  · exact ⟨((CacheStep.modDie _ _ _).trans (countRcg_step ..).1).trans (cavernPut_step ..).1,
      (cavernPut_step ..).2.trans (countRcg_step ..).2⟩

/-- An access of a line at its home slice changes lines and counts of dies alone: memory has every byte that it had. -/
theorem State.homeTouch_step (s : State) (vf num : Nat) (secs : BitVec 4) (mask : BitVec 256) (leaf : Word) :
    s.CacheStep (s.homeTouch vf num secs mask leaf) ∧ (s.homeTouch vf num secs mask leaf).mem = s.mem := by
  have both {a b c : State} (h : a.CacheStep b ∧ b.mem = a.mem) (k : b.CacheStep c ∧ c.mem = b.mem) :
      a.CacheStep c ∧ c.mem = a.mem := ⟨h.1.trans k.1, k.2.trans h.2⟩
  unfold State.homeTouch
  split
  · exact ⟨.refl s, rfl⟩
  · split
    · exact ⟨.refl s, rfl⟩
    · split
      · exact s.reachCavern_step _ _ _ _ _
      · dsimp only
        split <;> split <;>
          first
          | exact ⟨.modDie _ _ _, rfl⟩
          | exact both ⟨.modDie _ _ _, rfl⟩ (State.reachCavern_step _ _ _ _ _ _)
          | exact both (s.evictHome_step _ _) ⟨.modDie _ _ _, rfl⟩
          | exact both (both (s.evictHome_step _ _) ⟨.modDie _ _ _, rfl⟩) (State.reachCavern_step _ _ _ _ _ _)

@[simp] theorem State.homeTouch_mem (s : State) (vf num : Nat) (secs : BitVec 4) (mask : BitVec 256) (leaf : Word) :
    (s.homeTouch vf num secs mask leaf).mem = s.mem := (s.homeTouch_step vf num secs mask leaf).2

@[simp] theorem State.homeRead_mem (s : State) (vf pa n : Nat) (leaf : Word) : (s.homeRead vf pa n leaf).mem = s.mem :=
  s.homeTouch_mem _ _ _ _ _

theorem State.homeRead_step (s : State) (vf pa n : Nat) (leaf : Word) : s.CacheStep (s.homeRead vf pa n leaf) :=
  (s.homeTouch_step _ _ _ _ _).1

theorem Memory.wf_setAll (l : List (Nat × Byte)) (base : Nat) (m : Memory) (h : Memory.wf m = true) :
    Memory.wf (l.foldl (fun m p => ZMap.set m (base + p.1) p.2) m) = true := by
  induction l generalizing m with
  | nil => exact h
  | cons p l ih => exact ih _ (ZMap.wf_set _ _ _ h)

/-- An event goes to the record alone. -/
theorem State.event_step (s : State) (ty die vf cls detail addr aux : Nat) : s.CacheStep (s.event ty die vf cls detail addr aux) := by
  unfold State.event State.log
  dsimp only
  repeat' split
  all_goals exact ⟨rfl, rfl, rfl, rfl, rfl, rfl, rfl, rfl, rfl, rfl, rfl, rfl, id⟩

@[simp] theorem State.event_mem (s : State) (ty die vf cls detail addr aux : Nat) :
    (s.event ty die vf cls detail addr aux).mem = s.mem := by
  unfold State.event State.log
  dsimp only
  repeat' split
  all_goals rfl

/-- The memory after bytes of a line have reached the home slice: those of an absent package are dropped. -/
theorem State.homeBytes_mem (s : State) (vf num : Nat) (leaf : Word) (bs : List (Nat × Byte)) :
    (s.homeBytes vf num leaf bs).mem =
      if s.absent (num * 256) then s.mem else bs.foldl (fun m p => ZMap.set m (num * 256 + p.1) p.2) s.mem := by
  unfold State.homeBytes
  split
  · simp_all
  · split <;> simp

theorem State.homeBytes_step (s : State) (vf num : Nat) (leaf : Word) (bs : List (Nat × Byte)) :
    s.CacheStep (s.homeBytes vf num leaf bs) := by
  have h := CacheStep.setMem s _ (Memory.wf_setAll bs (num * 256) s.mem)
  unfold State.homeBytes
  split
  · exact .refl s
  · split
    · exact s.event_step ..
    · exact h.trans (State.homeTouch_step _ _ _ _ _ _).1

/-! ### The levels above it -/

theorem State.evictRemote_step (s : State) (die : Nat) (l : Line) : s.CacheStep (s.evictRemote die l) :=
  (s.homeBytes_step _ _ _ _).trans (.modDie _ _ _)

theorem State.remoteRoom_step (s : State) (die vf pa : Nat) : s.CacheStep (s.remoteRoom die vf pa) := by
  unfold State.remoteRoom
  dsimp only
  split
  · exact .refl s
  · split
    · exact s.evictRemote_step _ _
    · exact .refl s

theorem State.fillRemote_step (s : State) (die vf num : Nat) (secs : BitVec 4) (leaf : Word) :
    s.CacheStep (s.fillRemote die vf num secs leaf) := by
  unfold State.fillRemote
  dsimp only
  split
  · split
    · exact s.remoteRoom_step _ _ _
    · exact ((s.remoteRoom_step _ _ _).trans (.modDie _ _ _)).trans (State.homeTouch_step ..).1
  · exact (s.homeTouch_step ..).1

theorem State.l2Write_step (s : State) (die vf num : Nat) (leaf : Word) (bs : List (Nat × Byte)) :
    s.CacheStep (s.l2Write die vf num leaf bs) := by
  unfold State.l2Write
  split
  · exact .refl s
  · dsimp only
    split
    · exact (s.remoteRoom_step _ _ _).trans (.modDie _ _ _)
    · exact (s.homeBytes_step _ _ _ _).trans (.modDie _ _ _)

theorem State.drainLine_step (s : State) (core : Nat) (l : Line) : s.CacheStep (s.drainLine core l) :=
  (CacheStep.modCore s _ _).trans (State.l2Write_step _ _ _ _ _ _)

theorem State.l1Room_step (s : State) (core vf num : Nat) : s.CacheStep (s.l1Room core vf num) := by
  unfold State.l1Room
  dsimp only
  split
  · exact .refl s
  · split
    · exact (s.drainLine_step _ _).trans (.modCore _ _ _)
    · exact .refl s

theorem State.fillOwn_step (s : State) (core vf num : Nat) (secs : BitVec 4) (leaf : Word) :
    s.CacheStep (s.fillOwn core vf num secs leaf) := by
  unfold State.fillOwn
  exact (s.l1Room_step core vf num).trans (.modCore ..)

theorem State.fillL1_step (s : State) (core vf num : Nat) (secs : BitVec 4) (leaf : Word) :
    s.CacheStep (s.fillL1 core vf num secs leaf) := by
  unfold State.fillL1
  split
  · exact s.fillRemote_step ..
  · dsimp only
    split
    · exact .refl s
    · exact (s.fillRemote_step ..).trans (State.fillOwn_step ..)

theorem State.fifoPush_step (s : State) (core vf num : Nat) : s.CacheStep (s.fifoPush core vf num) := by
  unfold State.fifoPush
  dsimp only
  split
  · exact .refl s
  · refine .trans ?_ (.modCore _ _ _)
    split
    · split
      · exact .refl s
      · split
        · exact s.drainLine_step _ _
        · exact .refl s
    · exact .refl s

/-- A load of a core leaves memory in its form, and all but dies and cores as they are. -/
theorem State.coreLoad_step (s : State) (core vf pa n : Nat) (leaf : Word) : s.CacheStep (s.coreLoad core vf pa n leaf).1 :=
  .foldl (fun s _ => s.fillL1_step ..) _ s

theorem State.storeThrough_step (s : State) (core vf pa : Nat) (leaf : Word) (bs : List Byte) :
    s.CacheStep (s.storeThrough core vf pa leaf bs) :=
  .foldl (fun s _ => ((CacheStep.modCore s _ _).trans (.modDie _ _ _)).trans (State.homeBytes_step _ _ _ _ _)) _ s

theorem State.dieStore_step (s : State) (die vf pa : Nat) (leaf : Word) (bs : List Byte) :
    s.CacheStep (s.dieStore die vf pa leaf bs) :=
  .foldl (fun s _ => (CacheStep.modDie s _ _).trans (State.homeBytes_step _ _ _ _ _)) _ s

theorem State.storeBack_step (s : State) (core vf pa : Nat) (leaf : Word) (bs : List Byte) :
    s.CacheStep (s.storeBack core vf pa leaf bs) := by
  unfold State.storeBack
  split
  · exact s.storeThrough_step _ _ _ _ _
  · refine .foldl (fun s p => ?_) _ s
    dsimp only
    split
    · exact ((s.l1Room_step _ _ _).trans (State.fifoPush_step _ _ _ _)).trans (.modCore _ _ _)
    · exact (CacheStep.modCore s _ _).trans (State.l2Write_step _ _ _ _ _ _)

/-- A store of a core leaves memory in its form, and all but dies and cores as they are. -/
theorem State.coreStore_step (s : State) (core vf pa : Nat) (leaf : Word) (bs : List Byte) :
    s.CacheStep (s.coreStore core vf pa leaf bs) := by
  unfold State.coreStore
  split
  · exact .refl s
  · split
    · exact s.storeThrough_step _ _ _ _ _
    · exact s.storeBack_step _ _ _ _ _

theorem State.giveUpL1_step (s : State) (core sec : Nat) (l : Line) : s.CacheStep (s.giveUpL1 core sec l) :=
  (s.homeBytes_step ..).trans (.modCore ..)

theorem State.giveUpRemote_step (s : State) (die sec : Nat) (l : Line) : s.CacheStep (s.giveUpRemote die sec l) :=
  (s.homeBytes_step ..).trans (.modDie ..)

theorem State.giveUpDie_step (s : State) (die a : Nat) : s.CacheStep (s.giveUpDie die a) :=
  .foldl (fun s _ => s.giveUpRemote_step ..) _ s

theorem State.beforeAtomic_step (s : State) (core vf pa n : Nat) : s.CacheStep (s.beforeAtomic core vf pa n) :=
  .foldl (fun s _ => (s.giveUpDie_step ..).trans (.foldl (fun s _ => s.giveUpL1_step ..) _ _)) _ s

theorem State.drainL1_step (s : State) (core : Nat) : s.CacheStep (s.drainL1 core) :=
  .foldl (fun s k => by
    split
    · exact s.drainLine_step _ _
    · exact .refl s) _ s

theorem State.drainRemote_step (s : State) (die : Nat) : s.CacheStep (s.drainRemote die) :=
  .foldl (fun s l => by
    split
    · exact .refl s
    · exact (s.homeBytes_step _ _ _ _).trans (.modDie _ _ _)) _ s

/-- A release's drain and an acquire's discard leave memory in its form, and all but dies and cores as they are. -/
theorem State.drainAt_step (s : State) (core level : Nat) (dies : List Nat) : s.CacheStep (s.drainAt core level dies) := by
  unfold State.drainAt
  split
  · exact .refl s
  · dsimp only
    split
    · exact s.drainL1_step _
    · exact (s.drainL1_step _).trans (.foldl (fun s d => s.drainRemote_step d) _ _)

theorem State.discardAt_step (s : State) (core level : Nat) (dies : List Nat) : s.CacheStep (s.discardAt core level dies) := by
  unfold State.discardAt
  split
  · exact .refl s
  · dsimp only
    split
    · exact .modCore _ _ _
    · exact (CacheStep.modCore s _ _).trans (.foldl (fun s d => .modDie s d _) _ _)

end Sys2Proof.Machine
end

