-- ==== Sys2Proof/Laws/Table.lean ====
section
/-! SUPPORT. The split table: arrivals at a join, releases of deferred entries and completions of joins (R281, R283) change a
gang's table and nothing else of it, and move no fragment that is ready. -/

namespace Sys2Proof.Machine

theorem Gang.noTable_setFrag (g : Gang) (n : Nat) (f : Fragment) : (g.setFrag n f).noTable = g.noTable := rfl

theorem Gang.noTable_arrive (g : Gang) (n : Nat) : (g.arrive n).noTable = g.noTable := by
  simp only [Gang.arrive]
  repeat' (first | rfl | split)

theorem Gang.noTable_settleStep {g g' : Gang} (h : g.settleStep = some g') : g'.noTable = g.noTable := by
  simp only [Gang.settleStep] at h
  split at h
  · cases h; exact Gang.noTable_arrive ..
  · split at h
    · cases h
    · split at h
      · cases h; rfl
      · cases h; exact Gang.noTable_arrive ..

theorem Gang.noTable_settle (k : Nat) (g : Gang) : (g.settle k).noTable = g.noTable := by
  induction k generalizing g with
  | zero => rfl
  | succ k ih =>
    simp only [Gang.settle]
    split
    · next h => rw [ih, Gang.noTable_settleStep h]
    · rfl

theorem Gang.frag?_setFrag (g : Gang) (n m : Nat) (f : Fragment) :
    (g.setFrag n f).frag? m = if n = m then some f else g.frag? m := by
  simp only [Gang.frag?, Gang.setFrag, SMap.get?_set]
  by_cases h : n = m <;> simp [h]

/-- Two gangs agree on the entry `n`. -/
def sameEntry (n : Nat) (g h : Gang) : Prop := SMap.get? h.entries n = SMap.get? g.entries n

/-- The arrival of another fragment leaves an entry alone, unless it is the join that is reached. -/
theorem Gang.arrive_keeps (g : Gang) (n m : Nat) (f : Fragment) (hm : g.frag? m = some f) (hnm : n ≠ m) (hw : SMap.wf g.entries = true) :
    (g.arrive n).frag? m = some f ∧ SMap.wf (g.arrive n).entries = true := by
  simp only [Gang.arrive]
  split
  · exact ⟨hm, hw⟩
  · next x hx =>
    split
    · exact ⟨hm, hw⟩
    · next j hj =>
      split
      · next a mm ar ex p hh he =>
        split
        · have hjm : j ≠ m := by
            rintro rfl
            simp [Gang.frag?, he] at hm
          constructor
          · simp only [Gang.frag?, Gang.setFrag, SMap.get?_set, if_neg hjm, if_neg hnm]
            exact hm
          · exact SMap.wf_set _ _ _ (SMap.wf_set _ _ _ hw)
        · exact ⟨hm, hw⟩
      · exact ⟨hm, hw⟩

theorem Gang.eraseAll_keeps {α β : Type} (l : List (Nat × β)) (e : SMap α) (m : Nat) (h : ∀ x ∈ l, x.1 ≠ m) (hw : SMap.wf e = true) :
    SMap.get? (l.foldl (fun e x => SMap.erase e x.1) e) m = SMap.get? e m ∧
      SMap.wf (l.foldl (fun e x => SMap.erase e x.1) e) = true := by
  induction l generalizing e with
  | nil => exact ⟨rfl, hw⟩
  | cons x l ih =>
    have := ih (SMap.erase e x.1) (fun y hy => h y (List.mem_cons_of_mem _ hy)) (SMap.wf_erase _ _ hw)
    simp only [List.foldl_cons]
    rw [this.1, SMap.get?_erase, if_neg (h x List.mem_cons_self)]
    exact ⟨rfl, this.2⟩

theorem Gang.mem_deferredGroup (g : Gang) (hw : SMap.wf g.entries = true) (x : Nat × Mask × Word × Option Nat × Bool)
    (h : x ∈ g.deferredGroup) : ∃ sl m pc j b, SMap.get? g.entries x.1 = some (.deferred sl m pc j b) := by
  simp only [Gang.deferredGroup] at h
  split at h
  · simp at h
  · next d ds hd =>
    have hx := List.mem_of_mem_filter h
    obtain ⟨⟨n, e⟩, hne, he⟩ := List.mem_filterMap.1 hx
    cases e with
    | deferred sl m pc j b =>
      simp only at he
      split at he
      · cases he
        exact ⟨sl, m, pc, j, b, SMap.get?_of_mem _ hw _ hne⟩
      · cases he
    | frag f => cases he
    | join => cases he

theorem Gang.mem_frags (g : Gang) (hw : SMap.wf g.entries = true) (x : Nat × Fragment) (h : x ∈ g.frags) :
    g.frag? x.1 = some x.2 := by
  simp only [Gang.frags] at h
  obtain ⟨⟨n, e⟩, hne, he⟩ := List.mem_filterMap.1 h
  cases e with
  | frag f => cases he; simp [Gang.frag?, SMap.get?_of_mem _ hw _ hne]
  | deferred => cases he
  | join => cases he

theorem Gang.completeJoin?_entry (g : Gang) (hw : SMap.wf g.entries = true) {j : Nat} {a : Word} {ar : Mask} {p : Option Nat}
    (h : g.completeJoin? = some (j, a, ar, p)) : ∃ m ex b, SMap.get? g.entries j = some (.join a m ar ex p b) := by
  simp only [Gang.completeJoin?] at h
  obtain ⟨⟨n, e⟩, hne, he⟩ := List.exists_of_findSome?_eq_some h
  cases e with
  | join a' m' ar' ex' p' b' =>
    simp only at he
    split at he
    · cases he; exact ⟨m', ex', b', SMap.get?_of_mem _ hw _ hne⟩
    · cases he
  | frag => cases he
  | deferred => cases he

/-- A release or completion moves no fragment that is ready. -/
theorem Gang.settleStep_keeps (g g' : Gang) (n : Nat) (f : Fragment) (hs : g.settleStep = some g') (hf : g.frag? n = some f)
    (hwait : f.wait = none) (hw : SMap.wf g.entries = true) : g'.frag? n = some f ∧ SMap.wf g'.entries = true := by
  have hget : SMap.get? g.entries n = some (.frag f) := by
    simp only [Gang.frag?] at hf
    split at hf
    · cases hf; assumption
    · cases hf
  simp only [Gang.settleStep] at hs
  split at hs
  · next d m pc j b rest hg =>
    have hne : ∀ x ∈ (d, m, pc, j, b) :: rest, x.1 ≠ n := by
      intro x hx
      rw [← hg] at hx
      obtain ⟨sl, m, pc, j, b, he⟩ := Gang.mem_deferredGroup g hw x hx
      rintro rfl
      rw [hget] at he; cases he
    have hd : d ≠ n := hne _ List.mem_cons_self
    have hk := Gang.eraseAll_keeps rest g.entries n (fun x hx => hne x (List.mem_cons_of_mem _ hx)) hw
    cases hs
    refine Gang.arrive_keeps _ d n f ?_ hd ?_
    · rw [Gang.frag?_setFrag, if_neg hd]
      simp only [Gang.frag?, hk.1, hget]
    · exact SMap.wf_set _ _ _ hk.2
  · split at hs
    · cases hs
    · next j a ar p hj =>
      obtain ⟨mm, ex, b, he⟩ := Gang.completeJoin?_entry g hw hj
      have hjn : j ≠ n := by rintro rfl; rw [hget] at he; cases he
      have hne : ∀ x ∈ g.frags.filter (fun x => x.2.wait == some (.join j)), x.1 ≠ n := by
        intro x hx
        have hx' := List.mem_filter.1 hx
        have := Gang.mem_frags g hw x hx'.1
        rintro rfl
        rw [hf] at this; cases this
        rw [hwait] at hx'; simp at hx'
      have hk := Gang.eraseAll_keeps (g.frags.filter fun x => x.2.wait == some (.join j)) (SMap.erase g.entries j) n hne
        (SMap.wf_erase _ _ hw)
      rw [SMap.get?_erase, if_neg hjn] at hk
      split at hs
      · next hnil =>
        cases hs
        rw [hnil] at hk
        exact ⟨by simp only [Gang.frag?]; rw [hnil]; simp only [hk.1, hget], by rw [hnil]; exact hk.2⟩
      · next k x r hcons =>
        have hkn : k ≠ n := hne _ (by rw [hcons]; exact List.mem_cons_self)
        cases hs
        refine Gang.arrive_keeps _ k n f ?_ hkn ?_
        · rw [Gang.frag?_setFrag, if_neg hkn]
          simp only [Gang.frag?]
          rw [hk.1, hget]
        · exact SMap.wf_set _ _ _ hk.2

theorem Gang.settle_keeps (k : Nat) (g : Gang) (n : Nat) (f : Fragment) (hf : g.frag? n = some f) (hwait : f.wait = none)
    (hw : SMap.wf g.entries = true) : (g.settle k).frag? n = some f ∧ SMap.wf (g.settle k).entries = true := by
  induction k generalizing g with
  | zero => exact ⟨hf, hw⟩
  | succ k ih =>
    simp only [Gang.settle]
    split
    · next g' h =>
      have := Gang.settleStep_keeps g g' n f h hf hwait hw
      exact ih g' this.1 this.2
    · exact ⟨hf, hw⟩

end Sys2Proof.Machine
end

