-- ==== Sys2Proof/Laws/Unit.lean ====
section
/-! SUPPORT. What performing a unit comes to once its checks have passed: the next state, the gang's registers after it, what is
kept outside the gang, and where the fragment goes on. One lemma for each way in which a meaning answers. -/

namespace Sys2Proof.Machine

/-! ### The context -/

theorem ctx?_spec {s : State} {c : Ctx} (h : s.ctx? = some c) :
    s.team? c.ref.team = some c.team ∧ s.gang? c.ref.team c.ref.gang = some c.gang ∧ c.gang.frag? c.ref.frag = some c.frag ∧
      c.frag.wait = none ∧ c.ref = s.cur ∧ c.team.status = .running ∧ c.team.stopped = none := by
  simp only [State.ctx?] at h
  split at h
  · cases h
  · next t ht =>
    split at h
    · cases h
    · next g hg =>
      split at h
      · cases h
      · next f hf =>
        split at h
        · next hc => cases h; exact ⟨ht, by simp [State.gang?, ht, hg], hf, hc.1, rfl, hc.2.1, hc.2.2⟩
        · cases h

theorem perform_go {i : Instr} {s : State} {c : Ctx} (body : Ctx → State → Res) (hc : s.ctx? = some c) (hg : gate i c = .go) :
    perform i body s = .next (c.finish i (body c (c.counted s)) s) := by
  simp only [perform, hc, hg]; rfl

/-! ### What is kept -/

theorem Ctx.Kept.refl {s : State} {c : Ctx} (h : s.ctx? = some c) (l : Loose) : c.Kept s s l :=
  ⟨rfl, fun _ => rfl, fun _ _ => rfl, fun _ => rfl, fun _ => rfl, fun _ _ => rfl, fun _ _ => rfl, by simp [(ctx?_spec h).1]⟩

/-- A change of the issuing gang is outside nothing. -/
theorem Ctx.Kept.modGang {c : Ctx} {s u : State} {l : Loose} (h : c.Kept s u l) (f : Gang → Gang) :
    c.Kept s (u.modGang c.ref.team c.ref.gang f) l := by
  refine ⟨h.rest, h.cores, h.quads, h.dies, h.vfs, fun m hm => ?_, fun g hg => ?_, ?_⟩
  · rw [State.team?_modGang, if_neg (fun e => hm e.symm)]; exact h.teams m hm
  · rw [State.gang?_modGang, if_neg (fun e => hg e.2.symm)]; exact h.gangs g hg
  · rw [State.team?_modGang, if_pos rfl, ← h.shell]
    cases u.team? c.ref.team <;> rfl

theorem Ctx.Kept.turn {c : Ctx} {s u : State} {l : Loose} (h : c.Kept s u l) (o : Option Ref) : c.Kept s { u with turn := o } l :=
  ⟨h.rest, h.cores, h.quads, h.dies, h.vfs, h.teams, h.gangs, h.shell⟩

/-- Loop buffers and given turns may change. -/
theorem Ctx.Kept.modQuad {c : Ctx} {s u : State} {l : Loose} (h : c.Kept s u l) (n q : Nat) (f : Quad → Quad)
    (hf : ∀ x, { f x with loop := none, loopWords := [], yielded := [] } = { x with loop := none, loopWords := [], yielded := [] }) :
    c.Kept s (u.modQuad n q f) l := by
  have hcore (m : Nat) : { (u.modQuad n q f).core m with quads := [] } = { u.core m with quads := [] } := by
    simp only [State.modQuad, State.core_modCore]; split
    · next e => rw [e]
    · rfl
  have hquad (m r : Nat) : { ((u.modQuad n q f).core m).quad r with loop := none, loopWords := [], yielded := [] } =
      { (u.core m).quad r with loop := none, loopWords := [], yielded := [] } := by
    simp only [State.modQuad, State.core_modCore]
    split
    · next e =>
      subst e
      rw [Core.quad_set]; split
      · next e => subst e; exact hf _
      · rfl
    · rfl
  refine ⟨h.rest, fun m => ?_, fun m r => ?_, h.dies, h.vfs, h.teams, h.gangs, h.shell⟩
  · rw [hcore]; exact h.cores m
  · rw [hquad]; exact h.quads m r

/-- A turn taken changes turns that were given away alone. -/
theorem Ctx.Kept.takeTurn {c : Ctx} {s u : State} {l : Loose} (h : c.Kept s u l) (n q : Nat) (r : Ref) (m : Mask) :
    c.Kept s (u.takeTurn n q r m) l := by
  simp only [State.takeTurn]; split
  · exact h
  · exact h.modQuad _ _ _ fun _ => rfl

/-- A turn given away changes no more of a quadrant than which lanes gave theirs. -/
theorem Ctx.Kept.giveTurn {c : Ctx} {s u : State} {l : Loose} (h : c.Kept s u l) (n q : Nat) (r : Ref) (m : Mask) :
    c.Kept s (u.giveTurn n q r m) l :=
  h.modQuad _ _ _ fun x => by simp only [Quad.giveTurn]; split <;> rfl

theorem Ctx.Kept.schedule {c : Ctx} {s u : State} {l : Loose} (h : c.Kept s u l) (i : Instr) : c.Kept s (c.schedule u i) l := by
  simp only [Ctx.schedule, Ctx.takeTurn]; split
  · exact (h.takeTurn ..).giveTurn ..
  · exact h.takeTurn ..

theorem Ctx.Kept.counted {c : Ctx} {s : State} (h : s.ctx? = some c) (l : Loose) : c.Kept s (c.counted s) l :=
  (Ctx.Kept.refl h l).modGang _

theorem gang?_counted {s : State} {c : Ctx} (h : s.ctx? = some c) :
    (c.counted s).gang? c.ref.team c.ref.gang = some c.gang.count := by
  simp [Ctx.counted, Ctx.modG, State.gang?_modGang, (ctx?_spec h).2.1]

theorem gang?_modG {u : State} {c : Ctx} {g : Gang} (h : u.gang? c.ref.team c.ref.gang = some g) (f : Gang → Gang) :
    (c.modG u f).gang? c.ref.team c.ref.gang = some (f g) := by
  simp [Ctx.modG, State.gang?_modGang, h]

@[simp] theorem Gang.entries_count (g : Gang) : g.count.entries = g.entries := by simp only [Gang.count]; split <;> rfl

@[simp] theorem State.takeTurn_gang? (u : State) (n q : Nat) (r : Ref) (m : Mask) (t g : Nat) :
    (u.takeTurn n q r m).gang? t g = u.gang? t g := by
  simp only [State.takeTurn]; split <;> rfl

@[simp] theorem State.takeTurn_turn (u : State) (n q : Nat) (r : Ref) (m : Mask) : (u.takeTurn n q r m).turn = u.turn := by
  simp only [State.takeTurn]; split <;> rfl

theorem schedule_gang? (c : Ctx) (u : State) (i : Instr) (t g : Nat) : (c.schedule u i).gang? t g = u.gang? t g := by
  simp only [Ctx.schedule, Ctx.takeTurn]; split
  · exact State.takeTurn_gang? ..
  · exact State.takeTurn_gang? ..

theorem schedule_turn (c : Ctx) (u : State) (i : Instr) : (c.schedule u i).turn = u.turn := by
  simp only [Ctx.schedule, Ctx.takeTurn]; split
  · exact State.takeTurn_turn ..
  · exact State.takeTurn_turn ..

theorem latchFrag_join (g : Gang) (f : Fragment) (ch : Bool) (v : Option (BitVec 6 × List (Nat × Word))) :
    (g.latchFrag f ch v).join = f.join := by
  simp only [Gang.latchFrag]; split
  · rfl
  · split <;> rfl

/-! ### Retiring -/

/-- The gang once the vector result of a unit is written. -/
def Gang.withResult (g : Gang) : Option (BitVec 6 × List (Nat × Word)) → Gang
  | some (d, vals) => if d.toNat < 62 then g.setVs d.toNat vals else g
  | none => g

theorem Gang.withResult_entries (g : Gang) (v : Option (BitVec 6 × List (Nat × Word))) : (g.withResult v).entries = g.entries := by
  simp only [Gang.withResult]; split
  · split <;> simp
  · rfl

/-- Retiring a unit of the fragment writes the vector result, moves the fragment to `pc` and touches nothing else. -/
theorem retire_spec {s u : State} {c : Ctx} {g : Gang} {l : Loose} (hc : s.ctx? = some c) (hu : u.gang? c.ref.team c.ref.gang = some g)
    (he : g.entries = c.gang.entries) (hk : c.Kept s u l) (ch : Bool) (pc : Word) (v : Option (BitVec 6 × List (Nat × Word))) :
    ∃ h, (c.retire u ch pc v none).gang? c.ref.team c.ref.gang = some h ∧ h.noTable = (g.withResult v).noTable ∧
      c.Kept s (c.retire u ch pc v none) l ∧ (c.retire u ch pc v none).turn = none ∧
      (c.Free → c.GoesOn h pc ∧ SMap.wf h.entries = true) := by
  have hs := ctx?_spec hc
  have hf : g.frag? c.ref.frag = some c.frag := by simp only [Gang.frag?, he]; exact hs.2.2.1
  let g1 := g.withResult v
  let f1 : Fragment := { g1.latchFrag c.frag ch v with pc := pc, hints := [], wait := none }
  let g2 := g1.setFrag c.ref.frag f1
  have hg : (c.retire u ch pc v none).gang? c.ref.team c.ref.gang = some ((g2.arrive c.ref.frag).settle settleFuel) := by
    simp only [Ctx.retire, State.gang?_modGang, and_self, if_true]
    have : ({ u with turn := none } : State).gang? c.ref.team c.ref.gang = some g := hu
    rw [this, Option.map_some, hf]
    rfl
  refine ⟨_, hg, ?_, (hk.turn none).modGang _, rfl, fun hfree => ?_⟩
  · rw [Gang.noTable_settle, Gang.noTable_arrive, Gang.noTable_setFrag]
  · have hj : f1.join = none := (latchFrag_join ..).trans hfree.1
    have hw : SMap.wf g2.entries = true :=
      SMap.wf_set _ _ _ (by rw [Gang.withResult_entries, he]; exact hfree.2)
    have hfr : g2.frag? c.ref.frag = some f1 := by rw [Gang.frag?_setFrag, if_pos rfl]
    have ha : g2.arrive c.ref.frag = g2 := by simp only [Gang.arrive, hfr, hj]
    rw [ha]
    have := Gang.settle_keeps settleFuel g2 c.ref.frag f1 hfr rfl hw
    exact ⟨⟨f1, this.1, rfl, rfl, rfl, hj.trans hfree.1.symm⟩, this.2⟩

/-! ### Completing -/

/-- Whether registers were written depends on no entry of the split table. -/
theorem Writes.Done.congr {w : Writes} {n : Nat} {g h h' : Gang} (he : h.noTable = h'.noTable) (hd : w.Done n g h') : w.Done n g h := by
  have e {α : Type} (f : Gang → α) (hf : ∀ x : Gang, f x.noTable = f x) : f h = f h' := by rw [← hf h, he, hf h']
  refine ⟨fun m => ?_, fun m l hm hl => ?_, fun m l hl h6 => ?_, ?_, ?_, ?_, ?_⟩
  · rw [e (fun x => x.s m) fun _ => rfl]; exact hd.scalars m
  · rw [e (fun x => x.v m l) fun _ => rfl]; exact hd.vectors m l hm hl
  · rw [e (fun x => x.k n m) fun _ => rfl]; exact hd.masks m l hl h6
  · rw [e (fun x => x.flags) fun _ => rfl]; exact hd.flags
  · rw [e (fun x => x.unread) fun _ => rfl]; exact hd.unread
  · rw [e (fun x => x.wcount) fun _ => rfl]; exact hd.count
  · rw [e (fun x => x.rest) fun _ => rfl]; exact hd.rest

/-- A unit whose meaning answers with a state completes there. -/
theorem unit_next {i : Instr} {s u : State} {c : Ctx} {g : Gang} {l : Loose} {w : Writes} {body : Ctx → State → Res} (hr : Runs i s c)
    (hb : body c (c.counted s) = .next u) (hu : u.gang? c.ref.team c.ref.gang = some g) (he : g.entries = c.gang.entries)
    (hk : c.Kept s u l) (hd : w.Done c.w c.gang g) :
    ∃ t h, perform i body s = .next t ∧ t.gang? c.ref.team c.ref.gang = some h ∧ w.Done c.w c.gang h ∧ c.Kept s t l ∧ t.turn = none ∧
      (c.Free → c.GoesOn h c.after) := by
  obtain ⟨h, h1, h2, h3, h4, h5⟩ := retire_spec hr.ctx hu he hk ((use i).chain == some 1) c.next none
  refine ⟨_, h, ?_, ?_, hd.congr h2, h3.schedule i, (schedule_turn ..).trans h4, fun hf => (h5 hf).1⟩
  · exact (perform_go body hr.ctx hr.gate).trans (by rw [hb]; simp only [Ctx.finish, Ctx.complete, hr.budget, if_true])
  · rw [schedule_gang?]; exact h1

/-- A unit whose meaning answers with a vector result completes with it written. -/
theorem unit_vec {i : Instr} {s u : State} {c : Ctx} {g : Gang} {l : Loose} {w : Writes} {body : Ctx → State → Res} {d : BitVec 6}
    {vals : List (Nat × Word)} (hr : Runs i s c)
    (hb : body c (c.counted s) = .vec u d vals) (hu : u.gang? c.ref.team c.ref.gang = some g) (he : g.entries = c.gang.entries)
    (hk : c.Kept s u l) (hd : w.Done c.w c.gang (g.withResult (some (d, vals)))) :
    ∃ t h, perform i body s = .next t ∧ t.gang? c.ref.team c.ref.gang = some h ∧ w.Done c.w c.gang h ∧ c.Kept s t l ∧ t.turn = none ∧
      (c.Free → c.GoesOn h c.after) := by
  obtain ⟨h, h1, h2, h3, h4, h5⟩ := retire_spec hr.ctx hu he hk ((use i).chain == some 1) c.next (some (d, vals))
  refine ⟨_, h, ?_, ?_, hd.congr h2, h3.schedule i, (schedule_turn ..).trans h4, fun hf => (h5 hf).1⟩
  · exact (perform_go body hr.ctx hr.gate).trans (by rw [hb]; simp only [Ctx.finish, Ctx.complete, hr.budget, if_true])
  · rw [schedule_gang?]; exact h1

/-! ### Registers written -/

theorem bit_fullMask (w l : Nat) (h1 : l < w) (h2 : l < 64) : bit (fullMask w) l = true := by
  simp [bit, fullMask, BitVec.getLsbD_ofNat, h1, h2]

theorem Gang.k_zero (g : Gang) (w l : Nat) (h1 : l < w) (h2 : l < 64) : bit (g.k w 0) l = true := by
  have := bit_fullMask w l h1 h2
  simp only [bit] at this
  simp [Gang.k, bit, this]

theorem Gang.count_regs (g : Gang) : ∃ n, g.count = { g with wcount := n } := by
  simp only [Gang.count]; split
  · exact ⟨g.wcount, rfl⟩
  · exact ⟨g.wcount + 1, rfl⟩

/-- The gang counted, and nothing written. -/
theorem done_count (w : Nat) (g : Gang) : Writes.Done {} w g g.count := by
  obtain ⟨n, hn⟩ := Gang.count_regs g
  refine ⟨fun m => ?_, fun m l _ _ => ?_, fun m l h1 h2 => ?_, ?_, ?_, rfl, ?_⟩
  · rw [hn]; by_cases h : m = 0
    · simp [h, Gang.s]
    · simp [h, Gang.s]
  · rw [hn]; rfl
  · by_cases h : m = 0
    · subst h; simp [Gang.k_zero _ _ _ h1 h2]
    · rw [hn, if_neg h]; rfl
  · rw [hn]; simp
  · rw [hn]; simp
  · rw [hn]; rfl

theorem Writes.Done.setS {w : Writes} {n : Nat} {g h : Gang} (hd : w.Done n g h) (hs : w.s = fun _ => none) (d : Nat) (x : Word) :
    Writes.Done { w with s := fun m => if m = d then some x else none } n g (h.setS d x) := by
  refine ⟨fun m => ?_, fun m l hm hl => ?_, fun m l h1 h2 => ?_, ?_, ?_, ?_, ?_⟩
  · rw [Gang.s_setS]
    by_cases h0 : m = 0
    · simp [h0]
    · by_cases h1 : m = d
      · simp [h1]
      · have := hd.scalars m; rw [hs] at this
        simpa [h0, h1] using this
  · have : (h.setS d x).v m l = h.v m l := by simp [Gang.v]
    rw [this]; exact hd.vectors m l hm hl
  · have : (h.setS d x).k n m = h.k n m := by simp [Gang.k]
    rw [this]; exact hd.masks m l h1 h2
  · simpa using hd.flags
  · simpa using hd.unread
  · simpa using hd.count
  · have : (h.setS d x).rest = h.rest := by simp only [Gang.setS]; split <;> rfl
    rw [this]; exact hd.rest

theorem Writes.Done.setVs {w : Writes} {n : Nat} {g h : Gang} (hd : w.Done n g h) (hv : w.v = fun _ _ => none) (d : BitVec 6)
    (ls : List Nat) (f : Nat → Word) (hl : ∀ l ∈ ls, l < 64) :
    Writes.Done { w with v := vecWrite d ls f } n g (h.withResult (some (d, ls.map fun l => (l, f l)))) := by
  simp only [Gang.withResult]
  split
  · refine ⟨fun m => ?_, fun m l hm h6 => ?_, fun m l h1 h2 => ?_, ?_, ?_, ?_, ?_⟩
    · have : (h.setVs d.toNat (ls.map fun l => (l, f l))).s m = h.s m := by simp [Gang.s]
      rw [this]; exact hd.scalars m
    · rw [Gang.v_setVs _ _ _ _ _ _ hl h6]
      have := hd.vectors m l hm h6; rw [hv] at this
      simp only [vecWrite]
      split
      · rfl
      · exact this
    · have : (h.setVs d.toNat (ls.map fun l => (l, f l))).k n m = h.k n m := by simp [Gang.k]
      rw [this]; exact hd.masks m l h1 h2
    · simpa using hd.flags
    · simpa using hd.unread
    · simpa using hd.count
    · have : (h.setVs d.toNat (ls.map fun l => (l, f l))).rest = h.rest := by simp [Gang.rest]
      rw [this]; exact hd.rest
  · next hd62 =>
    refine ⟨hd.scalars, fun m l hm h6 => ?_, hd.masks, hd.flags, hd.unread, hd.count, hd.rest⟩
    have := hd.vectors m l hm h6; rw [hv] at this
    simp only [vecWrite]
    rw [if_neg (by rintro ⟨rfl, _⟩; exact hd62 hm)]
    exact this

theorem Gang.bit_setK (g : Gang) (w d n l : Nat) (ls v : Mask) (h1 : l < w) (h2 : l < 64) (hn : n ≠ 0) :
    bit ((g.setK w d ls v).k w n) l = if n = d then (if bit ls l then bit v l else bit (g.k w n) l) else bit (g.k w n) l := by
  have hf := bit_fullMask w l h1 h2
  simp only [bit] at hf
  by_cases hd : d = 0
  · have : n ≠ d := by omega
    simp [Gang.setK, hd, hn]
  · by_cases hnd : n = d
    · subst hnd
      simp only [Gang.setK, if_neg hd, Gang.k, ZMap.get_set_self, bit, if_true, BitVec.getLsbD_and, BitVec.getLsbD_or,
        BitVec.getLsbD_not, hf, Bool.and_true, h2, decide_true, Bool.true_and]
      cases ls.getLsbD l <;> cases v.getLsbD l <;> simp
    · have : d ≠ n := fun e => hnd e.symm
      simp [Gang.setK, hd, Gang.k, ZMap.get_set_ne _ _ _ _ this, hnd]

theorem Writes.Done.setK {w : Writes} {n : Nat} {g h : Gang} (hd : w.Done n g h) (hk : w.k = fun _ _ => none) (d : BitVec 3)
    (ls : List Nat) (f : Nat → Bool) (mask v : Mask) (hm : ∀ l, l < 64 → (bit mask l = true ↔ l ∈ ls))
    (hv : ∀ l ∈ ls, bit v l = f l) : Writes.Done { w with k := maskWrite d ls f } n g (h.setK n d.toNat mask v) := by
  refine ⟨fun m => ?_, fun m l hm hl => ?_, fun m l h1 h2 => ?_, ?_, ?_, ?_, ?_⟩
  · have : (h.setK n d.toNat mask v).s m = h.s m := by simp [Gang.s]
    rw [this]; exact hd.scalars m
  · have : (h.setK n d.toNat mask v).v m l = h.v m l := by simp [Gang.v]
    rw [this]; exact hd.vectors m l hm hl
  · by_cases h0 : m = 0
    · subst h0; rw [if_pos rfl]; exact Gang.k_zero _ _ _ h1 h2
    · rw [if_neg h0, Gang.bit_setK _ _ _ _ _ _ _ h1 h2 h0]
      have := hd.masks m l h1 h2
      rw [hk, if_neg h0] at this
      simp only [maskWrite]
      by_cases hmd : m = d.toNat
      · by_cases hb : l ∈ ls
        · simp [hmd, hb, (hm l h2).2 hb, hv l hb]
        · have : bit mask l = false := by
            cases hx : bit mask l
            · rfl
            · exact absurd ((hm l h2).1 hx) hb
          simp_all
      · simpa [hmd] using this
  · simpa using hd.flags
  · simpa using hd.unread
  · simpa using hd.count
  · have : (h.setK n d.toNat mask v).rest = h.rest := by simp only [Gang.setK]; split <;> rfl
    rw [this]; exact hd.rest

theorem Writes.Done.setFlags {w : Writes} {n : Nat} {g h : Gang} (hd : w.Done n g h) (hf : w.flags = 0) (hs : w.flagsRead = false) (fl : Nat) :
    Writes.Done { w with flags := fl } n g (h.raise fl) := by
  refine ⟨hd.scalars, hd.vectors, hd.masks, ?_, ?_, hd.count, hd.rest⟩
  · have := hd.flags
    simp [hf] at this
    simp [Gang.raise, this]
  · have := hd.unread
    simp [hf, hs] at this
    simp [Gang.raise, hs, this]

theorem bit_maskOf (ls : List Nat) (l : Nat) (h : l < 64) : bit (maskOf ls) l = decide (l ∈ ls) := by
  have key : ∀ (ls : List Nat) (m : Mask), bit (ls.foldl (fun m i => m ||| laneBit i) m) l = (bit m l || decide (l ∈ ls)) := by
    intro ls
    induction ls with
    | nil => simp
    | cons i ls ih =>
      intro m
      rw [List.foldl_cons, ih]
      simp only [bit, BitVec.getLsbD_or, laneBit, BitVec.getLsbD_ofNat, h, decide_true, Bool.true_and, Nat.testBit_two_pow,
        List.mem_cons, Bool.or_assoc]
      congr 1
      by_cases hi : i = l
      · simp [hi]
      · have : ¬ l = i := fun e => hi e.symm
        simp [hi, this]
  rw [maskOf, key]; simp [bit]

/-! ### Meanings by their shape -/

theorem gives_scalar {i : Instr} {s : State} {c : Ctx} {d : BitVec 5} {x : Word} (f : Ctx → Word) (hx : f c = x)
    (he : exec i s = scalarOp i d f s) : GivesScalar i s c d x := fun hr => by
  obtain ⟨t, h, h1, h2, h3, h4, h5, h6⟩ := unit_next (w := .scalar d x) (l := {}) (g := c.gang.count.setS d.toNat x) hr
    (body := fun c t => .next (c.setS t d (f c))) rfl (by rw [hx]; exact gang?_modG (gang?_counted hr.ctx) _) (by simp)
    ((Ctx.Kept.counted hr.ctx _).modGang _) ((done_count _ _).setS rfl _ _)
  exact ⟨t, h, he.trans h1, h2, h3, h4, h5, h6, trivial⟩

theorem gives_vector {i : Instr} {s : State} {c : Ctx} {k : BitVec 3} {d : BitVec 6} {f : Nat → Word} (f' : Ctx → Nat → Word)
    (hf : ∀ l ∈ c.lanes k, f' c l = f l) (he : exec i s = vectorOp i k d f' s) : GivesVector i s c k d f := fun hr => by
  have hm : (c.lanes k).map (fun l => (l, f' c l)) = (c.lanes k).map (fun l => (l, f l)) :=
    List.map_congr_left fun l hl => by rw [hf l hl]
  obtain ⟨t, h, h1, h2, h3, h4, h5, h6⟩ := unit_vec (w := .vector d (c.lanes k) f) (l := {}) hr
    (body := fun c t => .vec t d ((c.lanes k).map fun l => (l, f' c l))) rfl (gang?_counted hr.ctx) (by simp)
    (Ctx.Kept.counted hr.ctx _) (by rw [hm]; exact (done_count _ _).setVs rfl d _ f fun l hl => lanesOf_lt _ _ hl)
  exact ⟨t, h, he.trans h1, h2, h3, h4, h5, h6, trivial⟩

theorem mem_lanes (c : Ctx) (k : BitVec 3) (l : Nat) : bit (c.active &&& c.k k) l = true ↔ l ∈ c.lanes k :=
  (mem_lanesOf _ _).symm

theorem gives_mask {i : Instr} {s : State} {c : Ctx} {k d : BitVec 3} {f : Nat → Bool} (f' : Ctx → Nat → Bool)
    (hf : ∀ l ∈ c.lanes k, f' c l = f l) (he : exec i s = maskOp i k d f' s) : GivesMask i s c k d f := fun hr => by
  obtain ⟨t, h, h1, h2, h3, h4, h5, h6⟩ := unit_next (w := .mask d (c.lanes k) f) (l := {}) hr
    (body := fun c t => .next (c.setMask t k d (f' c))) rfl (gang?_modG (gang?_counted hr.ctx) _) (by simp)
    ((Ctx.Kept.counted hr.ctx _).modGang _)
    ((done_count _ _).setK rfl d (c.lanes k) f _ _ (fun l _ => mem_lanes c k l) fun l hl => by
      rw [bit_maskOf _ _ (lanesOf_lt _ _ hl)]
      simp [List.mem_filter, hl, hf l hl])
  exact ⟨t, h, he.trans h1, h2, h3, h4, h5, h6, trivial⟩

end Sys2Proof.Machine
end

