-- ==== Sys2Proof/Tests/Slice0.lean ====
section
/-! SUPPORT. Tests of decoding, of well-formedness and of single steps, and the witnesses of the hypotheses of the statements. -/

namespace Sys2Proof.Tests

set_option Elab.async false

open Sys2Proof Sys2Proof.Machine

/-! ### Small states -/

/-- A kernel of a width, with 62 vector registers and every local resource. -/
def kernelOf (w : Nat) : Kernel := { loadKernel with width := w, gallery := 2048 }

/-- A gang of width w at virtual address 0x100 with some registers set. -/
def gangOf (w : Nat) : Gang := { Gang.start (kernelOf w) 0x100 0 0 0 16 with
  sregs := [(1, 0xFFFFFFFFFFFFFFFF), (2, 7), (3, 0x8000000000000000), (4, 0x100), (5, 3)]
  vregs := [(64 * 10, 5), (64 * 10 + 1, 6), (64 * 11, 0xFFFFFFFFFFFFFFFF), (64 * 12, 0x40)]
  kregs := [(1, 5)] }

/-- The fragment of `gangOf`. -/
def fragOf (w : Nat) : Fragment := .start 0x100 (fullMask w) none false

/-- A one-gang team of virtual function 0 on core 0. -/
def teamOf (w : Nat) : Team := { Team.start (.grid 1) 0 (kernelOf w) 0 with
  chSize := 64, laneBase := 64, laneSize := 128, fbase := 0x5000, faultBlock := some 0 }

/-- The context of a fragment in a gang of a team: the first of each. -/
def ctxOf (t : Team) (g : Gang) (f : Fragment) : Ctx :=
  let g' : Gang := { g with entries := [(0, .frag f)] }
  ⟨⟨0, 0, 0⟩, { t with gangs := [(0, g')] }, g', f⟩

/-- A grid of one team that has been dispatched. -/
def oneTeamGrid (k : Kernel) : Grid := {
  vf := 0, die := 0, kernel := k, teams := 1, gangs := 1, clgrp := 0, argp := 0, statusAddr := 0,
  prio := 0, tenant := 0, det := false, staged := false, coop := false, twin := false, cluster := false,
  slots := List.replicate 8 0, donec := none, budget := none, next := 1, logical := [], detNext := [],
  waiting := [], scopes := [], finished := 0, nbad := 0, firstBad := 0, badCode := 0,
  arrival := 0, digest := 0, serial := false, savedGroups := [] }

/-- Page tables for one page: 64 KiB at virtual address 0 stand at 0x100000, writable, executable and user, with bits A and D set. -/
def tables : Memory := Memory.store (Memory.store (Memory.store [] 0x10000 (toBytes 0x20001 8)) 0x20000 (toBytes 0x30001 8)) 0x30000
  (toBytes 0x10006F 8)

/-- A configuration block: the tables, a handler at 0x3000, 64 KiB of each Grotto, 16 slabs at 0x200000 of die 0, four counters and every
core. -/
def vfOf : Vf := ((((((((Vf.reset.setCfg 0 8 0x10000).setCfg 12 4 16).setCfg 64 8 0x3000).setCfg 136 8 1).setCfg 192 8 0x200000).setCfg 200 8
  16).setCfg 260 4 4).setCfg 320 32 (2 ^ 256 - 1))

/-- A core whose translation buffer holds the page of `tables`. -/
def coreOf : Core := { Core.reset with tlb := [⟨0, 0, 65536, 0x10006F⟩] }

/-- The state whose one team is that of the context. -/
def stateOf (c : Ctx) : State := { State.reset with
  mem := tables
  teams := [(0, c.team)]
  cur := c.ref
  turn := some c.ref
  grids := [(1, oneTeamGrid c.team.kernel)]
  vfs := [(0, vfOf)]
  cores := [(0, coreOf)] }

/-- The state with numbers stored in the page at virtual address 0: address, bytes and value of each. -/
def withBytes (s : State) (l : List (Nat × Nat × Nat)) : State :=
  { s with mem := l.foldl (fun m p => Memory.store m (0x100000 + p.1) (toBytes p.2.2 p.2.1)) s.mem }

/-- A context of width w, changed. -/
def cx (w : Nat) (t : Team → Team := id) (g : Gang → Gang := id) (f : Fragment → Fragment := id) : Ctx :=
  ctxOf (t (teamOf w)) (g (gangOf w)) (f (fragOf w))

/-- What `Runs` asks, as a test. -/
def runs (s : State) (c : Ctx) (i : Instr) : Bool :=
  decide (s.ctx? = some c) && decide (gate i c = .go) && c.gang.mayCount

theorem runs_of {s : State} {c : Ctx} {i : Instr} (h : runs s c i = true) : Runs i s c := by
  simp only [runs, Bool.and_eq_true, decide_eq_true_eq] at h
  exact ⟨h.1.1, h.1.2, h.2⟩

theorem runs_each {s : State} {c : Ctx} {l : List Instr} (h : l.all (runs s c) = true) : ∀ i ∈ l, Runs i s c :=
  fun i hi => runs_of (List.all_eq_true.mp h i hi)

/-- The scalar register that the gang holds after a meaning. -/
def sAfter (o : Host.Outcome State Fault Refusal) (n : Nat) : Word :=
  match o with
  | .next t => ((t.gang? 0 0).map fun g => g.s n).getD 0
  | _ => 0

/-- A vector register's lane after a meaning. -/
def vAfter (o : Host.Outcome State Fault Refusal) (n l : Nat) : Word :=
  match o with
  | .next t => ((t.gang? 0 0).map fun g => g.v n l).getD 0
  | _ => 0

/-! ### Witnesses: scalar instructions -/

theorem witness_scalar_arithmetic : ∀ i ∈ [Instr.sadd 6 1 2 0, .ssub 0 1 2 1, .sand 31 1 2 0, .sor 6 1 2 0, .sxor 6 1 2 0, .sshl 6 1 2 0,
    .sshr 6 1 2 0, .ssra 6 1 2 0, .smul 6 1 2 0, .smulh 6 1 2 0, .smulhn 6 1 2 0, .smin 6 1 2 0, .smax 6 1 2 0, .sminn 6 1 2 0,
    .smaxn 6 1 2 0, .scmp 0 6 1 2 0, .scmp 1 6 1 2 0, .scmp 2 6 1 2 0, .scmp 3 6 1 2 0, .scmp 4 6 1 2 0, .scmp 5 6 1 2 0,
    .sclz 6 1 0, .sctz 6 1 0, .spopc 6 1 0, .sdiv 6 1 0 0, .srem 6 3 1 0, .sdivn 6 1 2 0, .sremn 6 1 0 0],
    Runs i (stateOf (cx 16)) (cx 16) := runs_each (by decide +kernel)

/-- A unit with one `hint.imm` word, and one with two. -/
def hint1 : Ctx := cx 16 (f := fun f => { f with hints := [.imm 0x15] })
def hint2 : Ctx := cx 16 (f := fun f => { f with hints := [.imm 0x3FFFFF, .imm 0x15] })

def immForms : List Instr := [.saddi 5 0 0x3FFF 0, .sandi 5 1 0x2000 0, .sori 5 1 0x1FFF 0, .sxori 0 1 0 1]

theorem witness_scalar_immediates : (∀ i ∈ immForms ++ [.sshli 5 2 63 0, .sshri 5 3 63 0, .ssrai 5 3 0 0], Runs i (stateOf (cx 16)) (cx 16)) ∧
    (∀ i ∈ immForms, Runs i (stateOf hint1) hint1) ∧ ∀ i ∈ immForms, Runs i (stateOf hint2) hint2 :=
  ⟨runs_each (by decide +kernel), runs_each (by decide +kernel), runs_each (by decide +kernel)⟩

/-- A gang in handler mode, whose trapped fragment has entry 1, at the start of its handler. -/
def handled : Handler := { frag := 1, saved := [(28, 9), (31, 8)], fpm := 3, iaddr := 0x200, compat := false, pending := [], record := 0x5000, word := 0, nth := 1 }

def trapped : Fragment := { fragOf 16 with pc := 0x200, wait := some .trapped }

def inHandler : Ctx :=
  let g : Gang := { gangOf 16 with
    handler := some handled
    entries := [(1, .frag trapped), (12, .frag (.start 0x100 (fullMask 16) none true))] }
  ⟨⟨0, 0, 12⟩, { teamOf 16 with gangs := [(0, g)] }, g, .start 0x100 (fullMask 16) none true⟩

def inHandlerState : State := stateOf inHandler

theorem witness_system_registers : (∀ i ∈ [Instr.gwidthW 6 0, .gwidthSm 6 0, .gwidthAm 0 0, .gwidthNa 6 1, .kmovToScalar 6 0 0, .kpop 6 1 0,
      .voteAny 1 6 1 0, .voteAll 0 6 1 0, .voteEq 7 6 10 0, .voteBallot 1 6 0 0, .vsget 6 10 2 0, .sget 6 0 0, .sget 6 14 0,
      .barQuery 6 31 0, .sset 1 6 0, .sset 1 7 0], Runs i (stateOf (cx 64)) (cx 64)) ∧ (31 : BitVec 5).toNat < (cx 64).team.kernel.bars ∧
    (∀ i ∈ [Instr.sset 1 13 0, .sset 1 14 0], Runs i inHandlerState inHandler) :=
  ⟨runs_each (by decide +kernel), by decide, runs_each (by decide +kernel)⟩

/-- The team of a task. -/
def ofTask : Ctx := cx 16 (t := fun t => { t with own := .task 0 3 })

theorem witness_each_system_register : (∀ i ∈ (List.range 15).map fun n => Instr.sget 6 (BitVec.ofNat 6 n) 0, Runs i (stateOf (cx 16)) (cx 16)) ∧
    Runs (.sget 6 2 0) (stateOf ofTask) ofTask ∧ (cx 16).team.own = .grid 1 ∧ ofTask.team.own = .task 0 3 ∧ inHandler.priv = true :=
  ⟨runs_each (by decide +kernel), runs_of (by decide +kernel), by decide +kernel⟩

/-! ### Witnesses: vector instructions -/

theorem witness_vector_arithmetic : ∀ i ∈ [Instr.vadd 0 6 10 11 0 0, .vadd 1 61 10 11 3 1, .vsub 0 6 10 11 1 0, .vmul 0 6 10 11 3 0,
    .vaddSat 0 6 10 11 0 0, .vaddSat 0 6 10 11 3 0, .vsubSat 0 6 10 11 2 0, .vmulh 0 6 10 11 0 0, .vmulh 7 6 10 11 7 0, .vmin 0 6 10 11 0 0,
    .vmin 0 62 10 11 3 1, .vmax 0 6 10 11 2 0], Runs i (stateOf (cx 64)) (cx 64) := runs_each (by decide +kernel)

theorem witness_vector_bits : ∀ i ∈ [Instr.vand 0 6 10 11 0, .vor 0 6 10 11 0, .vxor 0 6 10 11 0, .vandn 0 6 10 11 0, .vmov 0 6 10 0,
    .vshl 0 6 10 11 0 0, .vshr 0 6 10 11 1 0, .vsra 0 6 10 11 1 0, .vshiL 0 6 10 8 0, .vshiL 0 6 10 127 0, .vshiR 0 6 10 16 0,
    .vshiRa 0 6 10 63 0, .vmovi 0 6 0 0x100 0, .vmovi 0 6 3 0xFF 0, .vaddi 0 6 10 0x1FF 0, .vaddi 0 6 10 0 0],
    Runs i (stateOf (cx 16)) (cx 16) := runs_each (by decide +kernel)

theorem witness_vector_rearrangement : ∀ i ∈ [Instr.vsel 1 6 10 11 0, .vbcast 0 6 1 0 0, .vbcast 0 6 1 3 0, .vlane 0 6 0, .vsput 0 6 1 2 0,
    .vzipI8 0 6 10 11 0, .vzipI16 0 6 10 11 0, .vzipI32 0 6 10 11 0, .vunzipI8 0 6 10 11 0, .vunzipI16 0 6 10 11 0, .vunzipI32 0 6 10 11 0,
    .vwiden 0 6 10 0 0, .vwiden 0 6 10 14 0, .vnarrow 0 6 10 0 0, .vnarrow 0 6 10 22 0, .vclz 0 6 10 0 0, .vpopc 0 6 10 3 0,
    .vbrev 0 6 10 2 0, .vrnenc 0 6 10 0, .vrndec 0 6 10 0], Runs i (stateOf (cx 16)) (cx 16) := runs_each (by decide +kernel)

theorem witness_vector_float : ∀ i ∈ [Instr.vfadd 0 6 10 11 0 0, .vfadd 0 6 10 11 2 0, .vfsub 0 6 10 11 1 0, .vfmul 0 6 10 11 0 0,
    .vfma 0 6 10 11 0 0, .vfabs 0 6 10 0 0, .vfneg 0 6 10 2 0, .vfround 0 6 10 0 0, .vfround 0 6 10 2 0, .vsfu 0 6 10 0 0, .vsfu 0 6 10 6 0,
    .vfcvt 0 6 10 0 0, .vfmin 0 6 10 11 0 0, .vfmax 0 6 10 11 1 0, .vfminnum 0 6 10 11 0 0, .vfmaxnum 0 6 10 11 1 0],
    Runs i (stateOf (cx 16)) (cx 16) := runs_each (by decide +kernel)

theorem witness_mask_writers : ∀ i ∈ [Instr.vcmp 0 1 10 11 0 0, .vcmp 0 7 10 11 5 0, .vcmp64 1 2 10 11 4 0, .vfcmp 0 1 10 11 0 0,
    .vfcmp 0 1 10 11 4 0, .vfcmpt 0 1 10 11 0 0 0, .vfcmpt 0 1 10 11 1 2 0, .kand 0 1 1 0 0, .kor 0 1 1 2 0, .kxor 0 1 1 2 0,
    .kandn 0 1 1 2 0, .kmovMask 0 2 1 0, .kmovFromScalar 1 7 1 0], Runs i (stateOf (cx 16)) (cx 16) := runs_each (by decide +kernel)

theorem witness_across_lanes : ∀ i ∈ [Instr.vshfl 0 6 10 11 0 0 0, .vshfl 1 6 10 11 3 1 0, .vshfli 0 6 10 12 0, .vshfli 0 6 10 3 0,
    .xred 0 6 10 0 0 0, .xred 1 6 10 2 4 0, .xscan 0 6 10 0 0 0 0, .xscan 0 6 10 1 0 2 0, .xmaxi 0 6 10 0 0, .xmaxi 7 6 10 6 0],
    Runs i (stateOf (cx 16)) (cx 16) := runs_each (by decide +kernel)

/-! ### Witnesses: control flow, exceptions and checks -/

theorem witness_branches : (∀ i ∈ [Instr.br 0x1FFFF, .brAny 1 0x20000, .brAll 1 0, .brNone 1 1, .brsZ 0 0xFFFF, .brsNz 1 0x10000,
      .brsNeg 1 0, .brsNneg 2 1, .call 0x3FFFF, .jr 4 0, .jrl 4 0, .ret 0, .brLanes 1 5, .brLanes 2 5, .joinat 4, .exit],
      Runs i (stateOf (cx 64)) (cx 64)) ∧ (∀ i ∈ [Instr.br 0x1FFFF, .call 0], Runs i (stateOf hint1) hint1) ∧
    Runs (.brsZ 0 3) (stateOf hint2) hint2 ∧
    ((cx 64).s 4).toNat % 4 = 0 ∧ ((cx 64).s 31).toNat % 4 = 0 ∧
    (splitOf (cx 64).active ((cx 64).k 1)).taken ≠ [] ∧ (splitOf (cx 64).active ((cx 64).k 1)).fall ≠ [] ∧
    (splitOf (cx 64).active ((cx 64).k 1)).mixed ≠ [] ∧ (splitOf (cx 64).active ((cx 64).k 2)).taken = [] ∧
    (cx 64).gang.freeEntries false ≠ [] ∧ (cx 64).reuses ((cx 64).target (4 : BitVec 18)) = false ∧ (cx 64).active ≠ 0 ∧ (cx 64).target (4 : BitVec 18) ≠ (cx 64).after :=
  ⟨runs_each (by decide +kernel), runs_each (by decide +kernel), runs_of (by decide +kernel), by decide +kernel⟩

theorem witness_free : (cx 64).Free := ⟨rfl, by decide +kernel⟩

theorem witness_table : (cx 64).gang.TableOk where
  rising := by decide +kernel
  sixteen n e h := by
    have : n = 0 := by
      by_contra hn
      simp [cx, ctxOf, SMap.get?] at h
      omega
    omega
  records n e j h hu := by
    have : n = 0 := by
      by_contra hn
      simp [cx, ctxOf, SMap.get?] at h
      omega
    subst this
    simp [cx, ctxOf, SMap.get?, fragOf, Fragment.start] at h
    subst h
    simp [Entry.under] at hu

/-- A gang whose split table is full. -/
def fullTable : Ctx :=
  let d (n : Nat) : Nat × Entry := (n, .deferred 0 1 0x400 none false)
  let g : Gang := { gangOf 16 with entries := (0, .frag (fragOf 16)) :: (List.range 11).map fun n => d (n + 1) }
  ⟨⟨0, 0, 0⟩, { teamOf 16 with gangs := [(0, g)] }, g, fragOf 16⟩

/-- A fragment under a record for the address 0x110, in entry 1. -/
def joined : Ctx :=
  let f : Fragment := { fragOf 16 with join := some 1 }
  let g : Gang := { gangOf 16 with entries := [(0, .frag f), (1, .join 0x110 0xFFFF 0 0 none false)] }
  ⟨⟨0, 0, 0⟩, { teamOf 16 with gangs := [(0, g)] }, g, f⟩

theorem witness_full_table : (∀ i ∈ [Instr.brLanes 1 5, .joinat 5], Runs i (stateOf fullTable) fullTable) ∧
    (splitOf fullTable.active (fullTable.k 1)).taken ≠ [] ∧ fullTable.gang.freeEntries false = [] ∧
    (splitOf fullTable.active (fullTable.k 1)).mixed ≠ [] ∧ fullTable.reuses (fullTable.target (5 : BitVec 18)) = false ∧
    Runs (.joinat 4) (stateOf joined) joined ∧ joined.reuses (joined.target (4 : BitVec 18)) = true :=
  ⟨runs_each (by decide +kernel), by decide +kernel, by decide +kernel, by decide +kernel, by decide +kernel, runs_of (by decide +kernel),
    by decide +kernel⟩

theorem witness_joined_table : joined.gang.TableOk where
  rising := by decide +kernel
  sixteen n e h := by
    obtain rfl | rfl : n = 0 ∨ n = 1 := by
      by_contra hn
      simp [joined, SMap.get?, Ne.symm (not_or.mp hn).1, Ne.symm (not_or.mp hn).2] at h
    all_goals omega
  records n e j h hu := by
    obtain rfl | rfl : n = 0 ∨ n = 1 := by
      by_contra hn
      simp [joined, SMap.get?, Ne.symm (not_or.mp hn).1, Ne.symm (not_or.mp hn).2] at h
    · simp [joined, SMap.get?] at h
      subst h
      simp [Entry.under] at hu
      subst hu
      exact ⟨_, _, _, _, _, _, rfl⟩
    · simp [joined, SMap.get?] at h
      subst h
      simp [Entry.under] at hu

/-- A team with a barrier in its first phase, half of whose 32 lanes have arrived. -/
def atBarrier : Ctx := cx 16 (t := fun t => { t with bars := [(2, ⟨5, 16, 32, false⟩), (3, ⟨4294967295, 0, 0, false⟩)], gangs := [] })

theorem witness_barriers : (∀ i ∈ [Instr.barArrive 6 4 31 0, .barArrive 6 0 2 0, .barArrive 6 0 3 0, .barSync 0 3 0, .barWait 5 2 0, .barWait 1 3 0, .barQuery 6 31 0,
      .yield 6 1 0, .yield 6 0x1FFF 0], Runs i (stateOf atBarrier) atBarrier) ∧
    (atBarrier.team.arrival 3 0 16 = .counted ⟨4294967295, 16, 0, true⟩ true ∨ ∃ x d, atBarrier.team.arrival 3 0 16 = .counted x d) ∧
    (∃ x, atBarrier.team.arrival 2 32 16 = .counted x true) ∧ (∃ x, atBarrier.team.arrival 3 32 16 = .counted x false) ∧
    (atBarrier.team.bar 2).phase ≠ (atBarrier.s 5).setWidth 32 ∧ (atBarrier.team.bar 3).phase = (atBarrier.s 1).setWidth 32 ∧
    atBarrier.team.budget ≠ some 0 :=
  ⟨runs_each (by decide +kernel), .inr ⟨_, _, rfl⟩, ⟨_, rfl⟩, ⟨_, rfl⟩, by decide +kernel⟩

/-- A team with three barriers, of which the last holds 1,008 arrivals of 1,024. -/
def barred : Ctx := cx 16 (t := fun t => { t with kernel := { kernelOf 16 with bars := 3 }, bars := [(1, ⟨9, 16, 0, true⟩), (2, ⟨5, 1008, 1024, false⟩)] })
  (g := fun g => { g with sregs := [(1, 0), (2, 1024), (3, 1025), (4, 15), (5, 16)] })

theorem witness_barrier_cases : (∀ i ∈ [Instr.barArrive 6 2 3 0, .barSync 2 3 0, .barWait 2 3 0, .barQuery 6 3 0, .barArrive 6 3 0 0, .barArrive 6 4 0 0,
      .barSync 5 2 0, .barSync 1 2 0, .barArrive 6 2 1 0, .barArrive 6 2 2 0, .barSync 2 2 0, .barSync 2 0 0, .barArrive 6 5 0 0, .barArrive 6 1 1 0],
      Runs i (stateOf barred) barred) ∧ barred.team.kernel.bars = 3 ∧ (barred.s 3).toNat = 1025 ∧ (barred.s 4).toNat < popcount barred.active ∧
    (barred.team.bar 2).exp ≠ 16 ∧ (barred.team.bar 2).cnt + popcount barred.active = 1024 ∧ (barred.team.bar 0) = ⟨0, 0, 0, false⟩ ∧
    popcount barred.active = 16 ∧ (barred.team.bar 1).dflt = true ∧ barred.team.liveLanes = 16 ∧ SMap.wf barred.gang.entries = true :=
  ⟨runs_each (by decide +kernel), by decide +kernel⟩

theorem witness_yield_expired : Runs (.yield 0 1 0) (stateOf (cx 16 (t := fun t => { t with budget := some 0 })))
    (cx 16 (t := fun t => { t with budget := some 0 })) := runs_of (by decide +kernel)

theorem witness_hint_words : (stateOf (cx 16)).ctx? = some (cx 16) ∧ fieldsOk (.hintImm 0x15) = true ∧ fieldsOk (.hintVc 0 7 0 0 0) = false := by
  decide +kernel

/-- The page that `tables` gives. -/
def page0 : Xlat := ⟨0, 65536, 0x10006F, [0x30000]⟩

theorem recordable (c : Ctx) (n : Nat) (h : (decide (c.ref.gang < 32) && decide (c.team.faultBlock ≠ none) &&
    decide (c.team.fbase.toNat % 4096 = 0) && decide (c.team.fbase.toNat + 4096 ≤ 2 ^ 64) &&
    (match (stateOf c).devPages c.vf kStore true (c.team.recordAddr n).toNat 64 with
      | .ok l => decide (l = [page0])
      | .error _ => false)) = true) : c.CanRecord (stateOf c) n page0 := by
  simp only [Bool.and_eq_true, decide_eq_true_eq] at h
  obtain ⟨⟨⟨⟨h1, h2⟩, h3⟩, h4⟩, h5⟩ := h
  refine ⟨h1, h2, h3, h4, ?_⟩
  split at h5
  · next l hl => rw [hl]; simp at h5; rw [h5]
  · simp at h5

theorem witness_fault_entry : (cx 16).CanRecord (stateOf (cx 16)) 0 page0 ∧ (cx 16).gang.handler = none ∧ (cx 16).ref.frag ≠ 12 ∧
    ((stateOf (cx 16)).vf 0).hentry ≠ 0 ∧ Runs (.trap 0) (stateOf (cx 16)) (cx 16) ∧ Runs (.trap 63) (stateOf (cx 16)) (cx 16) ∧
    Runs (.ill 0) (stateOf (cx 16)) (cx 16) :=
  ⟨recordable _ _ (by decide +kernel), by decide, by decide, by decide +kernel, runs_of (by decide +kernel), runs_of (by decide +kernel),
    runs_of (by decide +kernel)⟩

/-- A state of which no context has a handler. -/
def noHandler (c : Ctx) : State := { stateOf c with vfs := [(0, vfOf.setCfg 64 8 0)] }

theorem witness_team_ending_faults : (cx 16).CanRecord (stateOf (cx 16)) 0 page0 ∧ (cx 16).gang.handler = none ∧
    (noHandler (cx 16)).ctx? = some (cx 16) ∧ ((noHandler (cx 16)).vf 0).hentry = 0 ∧
    inHandler.CanRecord (stateOf inHandler) 1 page0 ∧ (stateOf inHandler).ctx? = some inHandler ∧ inHandler.gang.handler = some handled ∧
    handled.compat = false :=
  ⟨recordable _ _ (by decide +kernel), by decide, by decide +kernel, by decide +kernel, recordable _ _ (by decide +kernel),
    by decide +kernel, rfl, rfl⟩

/-- A fragment of a gang in handler mode that is not the handler's. -/
def besideHandler : Ctx :=
  let g : Gang := { gangOf 16 with handler := some handled, entries := [(1, .frag trapped), (2, .frag (fragOf 16))] }
  ⟨⟨0, 0, 2⟩, { teamOf 16 with gangs := [(0, g)] }, g, fragOf 16⟩

theorem witness_faults_in_handler : Runs (.trap 63) (stateOf inHandler) inHandler ∧ inHandler.frag.handler = true ∧
    inHandler.CanRecord (stateOf inHandler) 1 page0 ∧
    (stateOf besideHandler).ctx? = some besideHandler ∧ besideHandler.gang.handler = some handled ∧ besideHandler.frag.handler = false :=
  ⟨runs_of (by decide +kernel), rfl, recordable _ _ (by decide +kernel), by decide +kernel⟩

theorem witness_return_from_exception : Runs .rte (stateOf inHandler) inHandler ∧ inHandler.gang.handler = some handled ∧
    inHandler.gang.handlerParts = 1 ∧ inHandler.gang.frag? 1 = some trapped ∧ trapped.handler = false ∧ trapped.active ≠ 0 ∧
    trapped.join = none ∧ SMap.wf inHandler.gang.entries = true ∧
    (match (inHandler.counted (stateOf inHandler)).translate 0 0 kLoad true [⟨handled.record.toNat, 64, 0⟩] with
      | .ok xs => !((stateOf inHandler).absent ((findXlat xs handled.record.toNat).pa handled.record.toNat))
      | .error _ => false) = true :=
  ⟨runs_of (by decide +kernel), by decide +kernel⟩

/-- A handler whose record lies in package 1, which is not in the domain. -/
def awayHandler : State := { stateOf inHandler with
  mem := Memory.store tables 0x30000 (toBytes (2 ^ 46 + 0x10006F) 8)
  cores := [(0, { coreOf with tlb := [⟨0, 0, 65536, BitVec.ofNat 64 (2 ^ 46 + 0x10006F)⟩] })] }

theorem witness_absent_record : Runs .rte awayHandler inHandler ∧
    (match (inHandler.counted awayHandler).translate 0 0 kLoad true [⟨handled.record.toNat, 64, 0⟩] with
      | .ok xs => awayHandler.absent ((findXlat xs handled.record.toNat).pa handled.record.toNat)
      | .error _ => false) = true :=
  ⟨runs_of (by decide +kernel), by decide +kernel⟩

/-- A gang whose register allotment is 16. -/
def allotted : Ctx := cx 16 (t := fun t => { t with kernel := { kernelOf 16 with vregs := 16 } })

/-- A fragment at position 2 of a chain with latch 0 valid, and one at position 8. -/
def chained (n : Nat) : Ctx := cx 16 (f := fun f => { f with pos := n, v0 := true, l0 := [(1, 7)] })

theorem witness_unit_checks : (stateOf allotted).ctx? = some allotted ∧ allotted.hints = [] ∧ allotted.team.kernel.vregs ≤ 16 ∧
    allotted.frag.v0 = false ∧ allotted.gang.mayCount = true ∧ (chained 2).frag.v0 = true ∧ allotted.gang.awaits false = [] ∧ allotted.gang.inRtu = false ∧
    allotted.gang.handler = none ∧ allotted.s 0 = 0 ∧ allotted.s 2 = 7 := by decide +kernel

theorem witness_unit_checks_runs : Runs (.vand 0 15 10 11 0) (stateOf allotted) allotted ∧
    Runs (.vand 0 62 62 11 1) (stateOf (chained 2)) (chained 2) := ⟨runs_of (by decide +kernel), runs_of (by decide +kernel)⟩

/-- A gang whose budget has run out. -/
def overBudget : Ctx := cx 16 (g := fun g => { g with wcount := 65536 })

/-- The same with its next word, `sadd s3, s3, s2`, in memory. -/
def overBudgetState : State := { stateOf overBudget with mem := Memory.store tables 0x100100 (toBytes 0x20063100 4) }

theorem witness_watchdog : (stateOf overBudget).ctx? = some overBudget ∧ gate (.sadd 3 3 2 0) overBudget = .go ∧
    overBudget.gang.handler = none ∧ overBudget.gang.wbudget ≤ overBudget.gang.wcount ∧
    (match overBudgetState.fetchUnit ⟨0, 0, 0⟩ with
      | .run i t => decide (i = .sadd 3 3 2 0) && decide (t.ctx? = some overBudget) && (match t.devPages 0 kStore true 0x5000 64 with
        | .ok l => decide (l = [page0])
        | .error _ => false)
      | .done _ => false) = true := by decide +kernel

/-- The step is there for it, and not for a unit that waits for its register, nor for one with room in the budget. -/
theorem test_watchdog : (∀ p ∈ [(overBudget, true), (cx 16 (g := fun g => { g with wcount := 65536, pending := [3] }), false), (cx 16, false)],
    (match exec (.watchdog 0 0 0) { stateOf p.1 with mem := Memory.store tables 0x100100 (toBytes 0x20063100 4) } with
      | .next _ => true
      | _ => false) = p.2) := by decide +kernel

theorem witness_chains : Runs (.vand 1 6 10 62 1) (stateOf (chained 7)) (chained 7) ∧ Runs (.vand 1 6 10 62 1) (stateOf (chained 8)) (chained 8) ∧
    Runs (.vand 1 62 10 62 0) (stateOf (chained 2)) (chained 2) ∧ (chained 7).frag.join = none ∧
    SMap.wf (chained 7).gang.entries = true :=
  ⟨runs_of (by decide +kernel), runs_of (by decide +kernel), runs_of (by decide +kernel), rfl, by decide +kernel⟩

/-! ### Witnesses: faults of accesses, and the matrix array -/

/-- Whether a check passed. -/
def passes {ε α : Type} : Except ε α → Bool
  | .ok _ => true
  | .error _ => false

/-- The addresses of a global or local access. -/
def addressesOf (c : Ctx) (k : BitVec 3) (b : BitVec 5) (o : Option (BitVec 6)) (sz : Nat) : List Nat := (c.lanes k).map (c.laneAddress b o sz)

/-- A state whose fault queue is on. -/
def queued (c : Ctx) : State := { stateOf c with vfs := [(0, vfOf.setCfg 11 1 1)] }

/-- s6 is not canonical, s7 is canonical and not mapped. -/
def faulting : Ctx := cx 16 (g := fun g => { g with sregs := [(2, 7), (4, 0x100), (6, 0x7000000000000000), (7, 0x40000), (8, 0x20000)] })

theorem witness_global_faults : (∀ i ∈ [Instr.gld 0 6 2 63 6 0, .gst 0 6 2 63 3 0, .gld 0 6 6 63 0 0, .gst 0 6 6 63 0 0, .gld 1 6 7 63 6 0, .gst 0 6 7 63 3 0],
      Runs i (stateOf faulting) faulting) ∧ Runs (.gld 1 6 7 63 6 0) (queued faulting) faulting ∧
    (addressesOf faulting 0 2 none 8).min? = some 7 ∧ (7 : Nat) % 8 ≠ 0 ∧
    (addressesOf faulting 0 6 none 1).min? = some 0x7000000000000000 ∧ 0x7000000000000000 / 2 ^ 54 ≠ 0 ∧ 0x7000000000000000 / 2 ^ 54 ≠ 1023 ∧
    ((addressesOf faulting 1 7 none 8).all fun x => decide (x % 8 = 0 ∧ (x / 2 ^ 54 = 0 ∨ x / 2 ^ 54 = 1023))) = true ∧
    passes ((faulting.counted (stateOf faulting)).translate 0 0 kLoad false ((addressesOf faulting 1 7 none 8).map fun a => ⟨a, 8, 0⟩)) = false ∧
    passes ((faulting.counted (queued faulting)).translate 0 0 kStore false ((addressesOf faulting 0 7 none 8).map fun a => ⟨a, 8, 0⟩)) = false ∧
    ((stateOf faulting).vf 0).fqen = false ∧ ((queued faulting).vf 0).fqen = true ∧ ((queued faulting).vf 0).tagsInUse = [] :=
  ⟨runs_each (by decide +kernel), runs_of (by decide +kernel), by decide +kernel⟩

/-- A team one of whose frames is written by an engine and one of whose frames is read. -/
def framed : Ctx := cx 16 (t := fun t => { t with frames := [(0, ⟨true, 0⟩), (1, ⟨false, 2⟩)] })
  (g := fun g => { g with sregs := [(2, 7), (4, 0x800), (6, 131072), (7, 4096)] })

theorem witness_local_faults : (∀ i ∈ [Instr.ldl 0 6 2 0 1 1 0 0, .stl 0 6 2 0 1 1 1 0, .ldl 0 6 6 0 1 1 0 0, .stl 0 6 6 0 1 1 0 0,
      .ldl 0 6 7 12 0 0 0 0, .stl 0 6 7 12 0 0 0 0, .stl 0 6 4 0 1 1 0 0, .ldl 0 6 0 0 1 1 0 0], Runs i (stateOf framed) framed) ∧
    (addressesOf framed 0 2 none 8).min? = some 7 ∧ (addressesOf framed 0 6 none 8).min? = some 131072 ∧
    (framed.team.kernel.chamber + 2047) / 2048 * 2048 < 131072 + 8 ∧ (addressesOf framed 0 7 (some 12) 8).min? = some 4096 ∧
    framed.team.kernel.lane < 4096 + 8 ∧ (addressesOf framed 0 4 none 8).min? = some 0x800 ∧ SMap.get? framed.team.frames (0x800 / 2048) ≠ none ∧
    0 ∈ addressesOf framed 0 0 none 8 ∧ SMap.get? framed.team.frames 0 = some ⟨true, 0⟩ :=
  ⟨runs_each (by decide +kernel), by decide +kernel⟩

/-- A gang of width 16, of which slot 0 is i8, slot 1 n8, slot 2 f16 and slot 3 the first f8, slot 4 has no format, a1 is bound in residue mode and
a2 in float mode. -/
def tiled : Ctx := cx 16 (t := fun t => { t with slots := [6, 7, 1, 3, 0, 0, 0, 0] })
  (g := fun g => { g with
    sregs := [(4, 0x100), (5, 0x101)]
    accs := [(1, ⟨true, [0, 1], [(0, 2)], [(0, 500)]⟩), (2, ⟨false, [2, 3], [], []⟩)] })

/-- The same gang split: its fragment has half of the lanes. -/
def halfTiled : Ctx := ctxOf tiled.team tiled.gang { fragOf 16 with active := 0xFF }

/-- The same two with the segment registers of a `hint.vc`. -/
def segs (c : Ctx) : Ctx := ctxOf c.team c.gang { c.frag with hints := [.vc 0 0 20 21 0] }

theorem witness_matrix_faults : (∀ i ∈ [Instr.mma 0 1 0 10 12 0, .mmaZ 0 1 0 10 12 0, .accoutI32 1 10 0, .accoutF32 0 1 1 10 0 0 0,
      .accin 1 10 1 0], Runs i (stateOf halfTiled) halfTiled) ∧
    (∀ i ∈ [Instr.mmas 0 1 0 10 12 0, .mmasZ 0 1 0 10 12 0], Runs i (stateOf (segs halfTiled)) (segs halfTiled)) ∧
    (∀ i ∈ [Instr.mmas 0 4 0 10 12 0, .mmas 0 2 0 10 12 0, .mmas 0 1 2 10 12 0], Runs i (stateOf (segs tiled)) (segs tiled)) ∧
    (∀ i ∈ [Instr.mma 0 4 0 10 12 0, .mma 0 2 0 10 12 0, .mma 0 1 2 10 12 0, .accoutI32 2 10 0, .accst 1 5 0 0, .accld 1 5 1 0],
      Runs i (stateOf tiled) tiled) ∧
    halfTiled.active ≠ fullMask halfTiled.w ∧ tiled.active = fullMask tiled.w ∧ fmtClass (slotFmt (tiled.team.slot 4)) = 0 ∧
    fmtClass (slotFmt (tiled.team.slot 0)) ≠ fmtClass (slotFmt (tiled.team.slot 2)) ∧
    fmtClass (slotFmt (tiled.team.slot 0)) = fmtClass (slotFmt (tiled.team.slot 1)) ∧ (tiled.s 5).toNat % 256 ≠ 0 :=
  ⟨runs_each (by decide +kernel), runs_each (by decide +kernel), runs_each (by decide +kernel), runs_each (by decide +kernel),
    by decide +kernel⟩

theorem witness_tile_products : (∀ i ∈ [Instr.mma 0 1 1 10 12 0, .mma 2 2 2 10 12 0, .mma 3 3 0 10 12 0, .mmaZ 0 0 1 10 12 1, .mmaZ 2 2 7 10 12 0],
      Runs i (stateOf tiled) tiled) ∧
    (∀ i ∈ [Instr.mmas 0 1 1 10 12 0, .mmasZ 0 1 1 10 12 0], Runs i (stateOf (segs tiled)) (segs tiled)) ∧
    tiled.active = fullMask tiled.w ∧ fmtClass (slotFmt (tiled.team.slot 0)) = 1 ∧ fmtClass (slotFmt (tiled.team.slot 2)) = 3 ∧
    fmtClass (slotFmt (tiled.team.slot 3)) = 2 ∧ (SMap.get? tiled.gang.accs 1).map Acc.residue = some true ∧
    (SMap.get? tiled.gang.accs 2).map Acc.residue = some false ∧ SMap.get? tiled.gang.accs 0 = none ∧
    (tiled.takeUnits (tiled.counted (stateOf tiled))).isSome = true ∧ passes (tiled.surge (tiled.counted (stateOf tiled)) (stateOf tiled)) = true ∧
    passes ((segs tiled).surge ((segs tiled).counted (stateOf (segs tiled))) (stateOf (segs tiled))) = true :=
  ⟨runs_each (by decide +kernel), runs_each (by decide +kernel), by decide +kernel⟩

theorem witness_accumulator_names : (∀ i ∈ [Instr.accZero 0 1 0, .accZero 1 0 0, .accRel 0 0, .accRel 1 0, .accMov 0 7 0, .accMov 0 1 0, .accMov 1 2 0,
      .accoutI32 1 20 0, .accoutI32 0 20 0, .accoutF32 0 1 1 20 0 0 0, .accoutF32 0 1 1 20 10 1 0, .accoutF32 2 2 2 20 0 0 0,
      .accoutF32 2 2 2 20 10 1 0], Runs i (stateOf tiled) tiled) ∧ tiled.active = fullMask tiled.w ∧ 0 < tiled.w / 8 ∧
    SMap.get? tiled.gang.accs 7 = none ∧ SMap.get? tiled.gang.accs 0 = none ∧ (SMap.get? tiled.gang.accs 1).isSome = true ∧
    ((SMap.get? tiled.gang.accs 2).map Acc.units).getD [] ≠ ((SMap.get? tiled.gang.accs 1).map Acc.units).getD [] ∧
    (tiled.takeUnits (tiled.counted (stateOf tiled))).isSome = true :=
  ⟨runs_each (by decide +kernel), by decide +kernel⟩

/-- The 64 addresses of an accumulator's image of a gang of width 16 at an offset. -/
def imageAt (base : Nat) : List Nat := (List.range 64).map fun n => base + 8 * n

/-- A gang with the bases of three images in s4 to s6. -/
def imaged : Ctx := cx 16 (g := fun g => { g with sregs := [(4, 0), (5, 0x200), (6, 0x600)] })

theorem witness_accumulator_memory : (∀ i ∈ [Instr.accin 1 20 0 0, .accin 0 20 1 0, .accld 0 4 0 0, .accld 0 5 0 0, .accld 0 6 0 0, .accst 7 4 0 0],
      Runs i (stateOf imaged) imaged) ∧ Runs (.accst 1 4 1 0) (stateOf tiled) tiled ∧ imaged.active = fullMask imaged.w ∧ 0 < imaged.w / 2 ∧
    (imaged.takeUnits (imaged.counted (stateOf imaged))).isSome = true ∧
    (∀ base ∈ [0, 0x200, 0x600], base % 256 = 0 ∧ imaged.localCheck (imaged.counted (stateOf imaged)) 1 8 1 (imageAt base) = none ∧
      imaged.loadWaits (imaged.counted (stateOf imaged)) 1 (imageAt base) = false ∧
      imaged.ownerFault (imaged.counted (stateOf imaged)) 1 (imageAt base) = none) ∧ imaged.gang.releases = [] :=
  ⟨runs_each (by decide +kernel), runs_of (by decide +kernel), by decide +kernel⟩

/-- A team whose Chamber holds one image, at 0. -/
def imagedWith (m : Memory) : Ctx := cx 16 (t := fun t => { t with chamber := m })

theorem witness_float_image : ∀ n ∈ List.range 64, (imagedWith []).localNum (stateOf (imagedWith [])) 1 0 (8 * n) 8 = 0 := by decide +kernel

def residueImage : Memory := (List.range 64).flatMap fun n => [(8 * n + 4, 1), (8 * n + 6, 1)]

theorem witness_residue_image : rnOk 0 = true ∧ ∀ n ∈ List.range 64,
    (imagedWith residueImage).localNum (stateOf (imagedWith residueImage)) 1 0 (8 * n) 8 = 2 ^ 48 + 2 ^ 32 := by decide +kernel

def unboundImage : Memory := (List.range 64).map fun n => (8 * n + 6, 2)

theorem witness_unbound_image : ∀ n ∈ List.range 64,
    (imagedWith unboundImage).localNum (stateOf (imagedWith unboundImage)) 1 0 (8 * n) 8 = 2 * 2 ^ 48 := by decide +kernel

/-! ### Witnesses: memory -/

/-- Word offsets in v12: zero in every lane but lane 0, which has 0x40; s6 is the last 16 words of the Chamber. -/
def localWords : Ctx := cx 16 (t := fun t => { t with slots := [1, 7, 0, 0, 0, 0, 0, 0] })
  (g := fun g => { g with sregs := [(4, 0x100), (6, 131072 - 128), (7, 4096 - 72)] })

/-- The same in width 16, for fragments. -/
def local16 : Ctx := cx 16 (t := fun t => { t with slots := [1, 7, 0, 0, 0, 0, 0, 0] }) (g := fun g => { g with sregs := [(4, 0x100)] })

theorem witness_local_accesses : (∀ i ∈ [Instr.ldl 0 6 7 12 0 0 0 0, .ldl 1 6 6 0 1 1 0 0, .ldl 0 6 4 0 1 1 1 0, .stl 0 10 7 12 0 0 0 0, .stl 0 10 6 0 1 1 0 0],
      Runs i (stateOf localWords) localWords) ∧
    (∀ i ∈ [Instr.ldfrag 0 20 4 1 1 0 0, .ldfrag 0 20 4 1 0 1 0, .stfrag 0 20 4 0 0 0, .stfrag 0 20 4 1 0 0], Runs i (stateOf local16) local16) ∧
    (let u := localWords.counted (stateOf localWords)
     localWords.localCheck u 0 8 8 (addressesOf localWords 0 7 (some 12) 8) = none ∧ localWords.localCheck u 1 8 8 (addressesOf localWords 0 6 none 8) = none ∧
     localWords.localCheck u 1 4 4 (addressesOf localWords 0 4 none 4) = none ∧ localWords.loadWaits u 1 (addressesOf localWords 0 6 none 8) = false ∧
     localWords.ownerFault u 1 (addressesOf localWords 0 6 none 8) = none) ∧
    localWords.team.staged = false ∧ localWords.gang.releases = [] ∧ (storeFmt (slotFmt (local16.team.slot 0))).isSome = true ∧
    (let u := local16.counted (stateOf local16)
     (local16.s 4).toNat % 256 = 0 ∧ local16.localCheck u 1 8 1 ((List.range 64).map fun n => 0x100 + 8 * n) = none ∧
     local16.localCheck u 1 2 1 ((List.range 64).map fun n => 0x100 + 2 * n) = none) :=
  ⟨runs_each (by decide +kernel), runs_each (by decide +kernel), by decide +kernel⟩

/-- A unit with an ordering hint. -/
def ordered (c : Ctx) : Ctx := ctxOf c.team c.gang { c.frag with hints := [.ord 3] }

theorem witness_chamber_atomics : (∀ i ∈ [Instr.catom 0 10 4 12 0 0, .catom 7 10 4 12 1 0, .catom 1 10 4 12 0 0, .catomExch 10 4 12 1 0],
      Runs i (stateOf localWords) localWords) ∧ Runs (.catom 0 10 4 12 0 7) (stateOf (ordered localWords)) (ordered localWords) ∧
    (let c := ctxOf localWords.team localWords.gang { localWords.frag with hints := [.vc 1 11 0 0 0] }
     Runs (.catomCas 10 4 12 1 0) (stateOf c) c) ∧
    localWords.stale (localWords.counted (stateOf localWords)) 7 = none ∧
    localWords.localCheck (localWords.counted (stateOf localWords)) 1 8 8 (addressesOf localWords 0 4 (some 12) 8) = none ∧
    localWords.ownerFault (localWords.counted (stateOf localWords)) 1 (addressesOf localWords 0 4 (some 12) 8) = none ∧ localWords.gang.releases = [] :=
  ⟨runs_each (by decide +kernel), runs_of (by decide +kernel), runs_of (by decide +kernel), by decide +kernel⟩

/-- s4 and s5 are the two plane bases. -/
def planes : Ctx := cx 16 (t := fun t => { t with slots := [1, 7, 0, 0, 0, 0, 0, 0] })
  (g := fun g => { g with sregs := [(4, 0x100), (5, 0x200), (6, 0xFFF8)] })

/-- The same in a staged team. -/
def staged (c : Ctx) : Ctx := ctxOf { c.team with staged := true } c.gang c.frag

theorem witness_global_loads : (∀ i ∈ [Instr.sld 6 6 0 0, .sld 0 4 0x1FF8 0, .sldk 7 4 0 0, .gld 0 6 4 63 0 0, .gld 1 6 4 12 6 0, .gld 0 6 4 63 5 1, .gldF6p 0 6 4 63 0,
      .gpf 0 4 63 0 0, .gpf 0 4 12 2 0], Runs i (stateOf planes) planes) ∧
    (let u := planes.counted (stateOf planes)
     passes (planes.reach u kLoad 8 [0xFFF8]) = true ∧ passes (planes.reach u kLoad 8 [0x100]) = true ∧
     passes (planes.reach u kLoad 8 (addressesOf planes 1 4 (some 12) 8)) = true ∧
     passes (planes.reach u kLoad 1 (addressesOf planes 0 4 none 1)) = true ∧
     passes (planes.reachPlanes u 4 kLoad ((planes.lanes 0).map fun l => (8 * l, 0x100 + 4 * l, 0x200 + 2 * l))) = true) :=
  ⟨runs_each (by decide +kernel), by decide +kernel⟩

def storeForms : List Instr := [.sst 4 6 0 0, .gst 0 10 4 63 0 0, .gst 1 10 4 12 3 0, .gstFs 0 10 4 63 0 0, .gstF6p 0 10 4 63 0]

theorem witness_global_stores : (∀ i ∈ storeForms, Runs i (stateOf planes) planes) ∧
    (∀ i ∈ storeForms, Runs i (stateOf (staged planes)) (staged planes)) ∧ planes.gang.releases = [] ∧
    (storeFmt (slotFmt (planes.team.slot 0))).isSome = true ∧
    (let u := planes.counted (stateOf planes)
     passes (planes.reach u kStore 8 [0xFFF8]) = true ∧ passes (planes.reach u kStore 8 (addressesOf planes 1 4 (some 12) 8)) = true ∧
     passes (planes.reach u kStore 4 (addressesOf planes 0 4 none 4)) = true ∧
     passes (planes.reachPlanes u 4 kStore ((planes.lanes 0).map fun l => (8 * l, 0x100 + 4 * l, 0x200 + 2 * l))) = true) ∧
    (let u := (staged planes).counted (stateOf (staged planes))
     passes ((staged planes).reach u kStore 8 [0xFFF8]) = true) ∧ (staged planes).team.staging.size + 64 ≤ 4194304 :=
  ⟨runs_each (by decide +kernel), runs_each (by decide +kernel), by decide +kernel⟩

theorem witness_global_atomics : (∀ i ∈ [Instr.gatom 0 10 4 12 0 0 0, .gatom 7 10 4 12 1 1 0, .gexch 10 4 12 1 0, .gredF 0 0 0 10 4 12 0 0,
      .gredF 1 1 1 10 4 12 3 7, .gredRn 10 4 12 0 0, .gredRn 10 4 12 1 0], Runs i (stateOf planes) planes) ∧
    (let c := ctxOf planes.team planes.gang { planes.frag with hints := [.vc 1 11 0 0 0] }
     Runs (.gcas 10 4 12 1 0) (stateOf c) c) ∧
    Runs (.gatom 0 10 4 12 0 0 7) (stateOf (ordered planes)) (ordered planes) ∧
    Runs (.gredRn 10 4 12 1 0) (stateOf (staged planes)) (staged planes) ∧ planes.team.det = false ∧ planes.team.staged = false ∧
    planes.gang.releases = [] ∧ planes.stale (planes.counted (stateOf planes)) 7 = none ∧
    (let u := planes.counted (stateOf planes)
     passes (planes.reachAtomic u 8 (addressesOf planes 0 4 (some 12) 8)) = true ∧ passes (planes.reachAtomic u 4 (addressesOf planes 0 4 (some 12) 4)) = true) ∧
    passes ((staged planes).reachAtomic ((staged planes).counted (stateOf (staged planes))) 8 (addressesOf planes 0 4 (some 12) 8)) = true :=
  ⟨runs_each (by decide +kernel), runs_of (by decide +kernel), runs_of (by decide +kernel), runs_of (by decide +kernel), by decide +kernel⟩

theorem witness_core_memory : (stateOf planes).absent 0x100000 = false ∧ (0x100000 : Nat) % 64 + 64 ≤ 64 ∧
    ((stateOf planes).core 0).l1.length < 512 ∧ ((stateOf planes).die 0).remote.length < ((stateOf planes).die 0).rways ∧
    pteWp 0x10006F = false ∧ pteWp 0x10026F = true := by decide +kernel

/-- A team of a cluster group of two cores, some of whose frames engines write or read. s1 is not aligned, s2 and s3 lie outside every range of the
Chamber, s4 and s5 in a frame that is read, the latter over its end, s6 in one that is written, s7 outside the group's Galleries and s8 outside the Grotto. -/
def guarded : Ctx := cx 16 (t := fun t => { t with group := some [0, 1], frames := [(0, ⟨true, 0⟩), (1, ⟨false, 2⟩)] })
  (g := fun g => { g with sregs := [(1, 7), (2, 131072), (3, 4096), (4, 0x800), (5, 0xF00), (7, 0x200000000), (8, 0x10000), (9, 0xFC0)] })

/-- The state, where a frame of the core's own Gallery is read. -/
def guardedState : State := { stateOf guarded with cores := [(0, { coreOf with galShare := 2048, galFrames := [(0, ⟨false, 1⟩)] })] }

theorem witness_other_local_faults : (∀ i ∈ [Instr.ldl 0 6 1 0 2 1 0 0, .stl 0 6 1 0 3 1 0 0, .ldl 0 6 7 0 2 1 0 0, .stl 0 6 8 0 3 1 0 0, .stl 0 6 0 0 2 1 0 0,
      .ldl 0 6 9 0 1 1 0 0, .ldl 0 6 6 0 1 1 0 0], Runs i guardedState guarded) ∧
    Runs (.stl 0 6 0 0 3 1 0 0) (stateOf (staged guarded)) (staged guarded) ∧ (staged guarded).team.staged = true ∧
    (guarded.outside guardedState 2 0x200000000 8) ∧ guarded.outside guardedState 3 0x10000 8 ∧ ¬ guarded.outside guardedState 3 0 8 ∧
    ¬ guarded.outside guardedState 2 0 8 ∧ guarded.ownerAt guardedState 2 0 = some ⟨false, 1⟩ ∧
    0xFC0 ∈ addressesOf guarded 0 9 none 8 ∧ 0x1000 ∈ addressesOf guarded 0 9 none 8 ∧ guarded.ownerAt guardedState 1 0xFC0 = some ⟨false, 2⟩ ∧ guarded.frameOf 1 0xFC0 ≠ guarded.frameOf 1 0x1000 := by
  refine ⟨runs_each (by decide +kernel), runs_of (by decide +kernel), rfl, ?_, ?_, ?_, ?_, by decide +kernel⟩
  · left
    intro l h
    obtain rfl : [0, 1] = l := Option.some.inj h
    decide +kernel
  · right; decide +kernel
  · rintro (h | h) <;> revert h <;> decide +kernel
  · rintro (h | h)
    · exact absurd (h _ rfl) (by decide +kernel)
    · revert h; decide +kernel

theorem witness_fragment_faults : (∀ i ∈ [Instr.ldfrag 0 20 1 1 0 0 0, .ldfrag 0 20 2 1 0 0 0, .ldfrag 0 20 5 1 0 0 0, .ldfrag 0 20 6 1 0 0 0,
      .stfrag 0 20 4 1 0 0, .stfrag 0 20 1 0 0 0, .stfrag 0 20 2 0 0 0, .stfrag 0 20 4 0 0 0, .catom 0 10 1 12 0 0, .catomExch 10 2 13 1 0,
      .catom 0 10 4 13 1 0, .accst 1 1 0 0, .accld 1 1 1 0, .accst 1 2 0 0, .accld 1 8 1 0, .accst 1 4 0 0], Runs i guardedState guarded) ∧
    (let c := ctxOf guarded.team guarded.gang { guarded.frag with hints := [.vc 1 11 0 0 0] }
     Runs (.catomCas 10 1 12 1 0) (stateOf c) c ∧ c.stale (c.counted (stateOf c)) 0 = none) ∧
    storeFmt (slotFmt (guarded.team.slot 0)) = none ∧ (guarded.s 1).toNat % 256 ≠ 0 ∧
    (let at_ (n : BitVec 5) (l j : Nat) : Nat := fragAddr guarded.w (guarded.s n).toNat j l false false
     0x20000 ∈ (List.range 16).flatMap (fun l => (List.range 2).map fun j => at_ 2 l j) ∧
     0xF00 ∈ (List.range 16).flatMap (fun l => (List.range 2).map fun j => at_ 5 l j) ∧
     0x1000 ∈ (List.range 16).flatMap (fun l => (List.range 2).map fun j => at_ 5 l j)) ∧
    guarded.stale (guarded.counted guardedState) 0 = none := by
  exact ⟨runs_each (by decide +kernel), ⟨runs_of (by decide +kernel), by decide +kernel⟩, by decide +kernel⟩

/-- Images that are malformed: of KIND 3, of a KIND that is not the first element's, of a count outside residue mode, with a low word in
an unbound name, with bits above 55, and with a residue word out of range. -/
def malformed : List (Nat → Byte) := [fun b => if b % 8 = 6 then 3 else 0, fun b => if b = 14 then 1 else 0, fun b => if b = 4 then 1 else 0,
  fun b => if b % 8 = 6 then 2 else if b = 504 then 1 else 0, fun b => if b = 7 then 1 else 0, fun b => if b % 8 = 6 then 1 else if b = 3 then 255 else 0]

def imageOf (f : Nat → Byte) : Memory := ((List.range 512).map fun b => (b, f b)).filter fun p => p.2 != 0

theorem witness_malformed_images : ∀ m ∈ malformed, let c := imagedWith (imageOf m)
    runs (stateOf c) c (.accld 1 0 0 0) = true ∧ c.loadWaits (stateOf c) 1 (imageAt 0) = false ∧ c.localCheck (c.counted (stateOf c)) 1 8 1 (imageAt 0) = none ∧
    (imageAt 0).any (fun x => let y := c.localNum (stateOf c) 1 0 x 8
      let kind := y / 2 ^ 48 % 256
      decide (kind ≠ c.localNum (stateOf c) 1 0 0 8 / 2 ^ 48 % 256 ∨ 2 < kind ∨ y / 2 ^ 56 ≠ 0 ∨ (kind ≠ 1 ∧ y / 2 ^ 32 % 2 ^ 16 ≠ 0) ∨
        (kind = 2 ∧ y % 2 ^ 32 ≠ 0) ∨ (kind = 1 ∧ rnOk (y % 2 ^ 32) = false))) = true := by
  decide +kernel

/-! ### Witnesses: the copy engine -/

/-- Three shape records: a copy of 16 bytes to the Chamber at 0x400, a gather of rows of 64 bytes at 0x480 and a ragged copy of rows of 32 bytes
at 0x500, whose segment list stands at 0x4000 of the Chamber. -/
def copyRecords : List (Nat × Nat × Nat) := [(0x400, 8, 0x1000), (0x410, 8, 0x81), (0x420, 4, 16), (0x424, 8, 1),
  (0x480, 8, 0x1000), (0x490, 8, 0x882), (0x498, 8, 6), (0x4A0, 4, 64), (0x4A4, 8, 1), (0x4AC, 4, 1), (0x4B0, 8, 64),
  (0x500, 8, 0x1000), (0x510, 8, 0x82), (0x518, 8, 0x100004000), (0x520, 4, 32), (0x524, 8, 1), (0x52C, 4, 2), (0x530, 8, 64), (0x538, 4, 0x5000)]

/-- A gang whose v10 names rows 5 and 0 in lane 0, with the segment (0, 1). -/
def copying : Ctx := cx 16 (t := fun t => { t with chamber := [(0x4004, 1)], group := some [0, 1] })
  (g := fun g => { g with sregs := [(2, 1), (4, 0x400), (5, 0x480), (6, 0x500), (7, 3), (8, 4)] })

def copyState : State := withBytes (stateOf copying) copyRecords

/-- The conditions under which `CopyIssue` says what a copy does. -/
def issuable (c : Ctx) (s : State) (a kind n : Nat) (ready : State → Shape → Bool) (plan : State → Shape → RowPlan) : Bool :=
  match c.readRecord (c.counted s) a 128 with
  | .error _ => false
  | .ok (w, bs) =>
    let x := Shape.parse kind bs
    let p := plan w x
    let slot := c.team.slot x.slot
    let ms := (List.range (moveCount x kind p.rows.length p.sides.length)).map fun q => moveAt x slot kind p.rows p.sides q
    let es := if x.planar then 1 else if x.stridedSource then x.srcSize else x.dstSize slot
    let dst := distinct (ms.flatMap fun m => m.dst.frames c.ref.team c.core x.mcast)
    let src := distinct (ms.flatMap fun m => m.src.toList.flatMap fun z => z.frames c.ref.team c.core 0)
    decide (shapeBad kind bs x slot c.team.group c.core c.w n = []) && !c.team.staged && ready w x &&
      decide (c.nearBad w x ms ++ p.bad ++ (if kind = 2 then sideShares x slot p else []) = []) &&
      decide (x.stridedBase % es = 0) && (x.strides.all fun st => decide (st % (es : Int) = 0)) &&
      (match c.copyPages w x.planar ms (fun sp => x.localSpace == sp) with
       | .error _ => false
       | .ok y => decide (dst ≠ []) && (dst.all fun f => decide (y.owner? f = none)) && src.all fun f => !(y.frameEW f))

theorem witness_copy_issue : (∀ i ∈ [Instr.tcopy 9 4 0, .tcopy 0 4 0, .tgath 9 5 2 10 0, .trag 9 6 0, .tstat 9 2 0, .tstatGal 9 0 7 0],
      Runs i copyState copying) ∧ copying.gang.releases = [] ∧ (copyState.core 0).copies = [] ∧ copying.team.group = some [0, 1] ∧
    (copying.s 7).toNat < 8 ∧
    issuable copying copyState 0x400 0 0 (fun _ _ => true) (fun _ _ => ⟨[], [], 0, []⟩) = true ∧
    issuable copying copyState 0x480 1 1 (fun _ _ => true) (fun _ x => copying.gatherRows x 10 1) = true :=
  ⟨runs_each (by decide +kernel), by decide +kernel⟩

theorem witness_ragged_copy : issuable copying copyState 0x500 2 0
    (fun w x => (bytesFrom (x.aux % 2 ^ 32) (8 * (x.aux / 2 ^ 32))).all (fun m => decide (m < copying.team.chamberBytes)) &&
      !(copying.loadWaits w 1 (bytesFrom (x.aux % 2 ^ 32) (8 * (x.aux / 2 ^ 32)))))
    (fun w x => ragRows x (copying.segments w x)) = true := by decide +kernel

/-- Which of the checks of a copy's issue a record fails: the malformed offsets, the bytes out of range, and whether the strided side is aligned. -/
def issueChecks (c : Ctx) (s : State) (a kind n : Nat) (plan : State → Shape → RowPlan) : Option (List Nat × List Nat × Bool) :=
  match c.readRecord (c.counted s) a 128 with
  | .error _ => none
  | .ok (w, bs) =>
    let x := Shape.parse kind bs
    let p := plan w x
    let slot := c.team.slot x.slot
    let ms := (List.range (moveCount x kind p.rows.length p.sides.length)).map fun q => moveAt x slot kind p.rows p.sides q
    let es := if x.planar then 1 else if x.stridedSource then x.srcSize else x.dstSize slot
    some (shapeBad kind bs x slot c.team.group c.core c.w n, c.nearBad w x ms ++ p.bad ++ (if kind = 2 then sideShares x slot p else []),
      decide (x.stridedBase % es = 0) && x.strides.all fun st => decide (st % (es : Int) = 0))

/-- The rows of the three forms. -/
def noRows : State → Shape → RowPlan := fun _ _ => ⟨[], [], 0, []⟩
def gathered : State → Shape → RowPlan := fun _ x => copying.gatherRows x 10 1
def ragged : State → Shape → RowPlan := fun w x => ragRows x (copying.segments w x)

/-- The records with some fields changed. -/
def recordsWith (l : List (Nat × Nat × Nat)) : State := withBytes (stateOf copying) (copyRecords ++ l)

theorem witness_copy_issue_faults : (copying.s 2).toNat % 64 ≠ 0 ∧ (∀ i ∈ [Instr.tcopy 9 2 0, .tgath 9 2 2 10 0, .trag 9 2 0], Runs i copyState copying) ∧
    (issueChecks copying (recordsWith [(0x413, 1, 1)]) 0x400 0 0 noRows).map Prod.fst = some [19] ∧
    (issueChecks copying (recordsWith [(0x493, 1, 4), (0x4A0, 4, 0)]) 0x480 1 1 gathered).map Prod.fst = some [19, 32] ∧
    (issueChecks copying (recordsWith [(0x518, 1, 4)]) 0x500 2 0 ragged).map Prod.fst = some [24] ∧
    (issueChecks copying (recordsWith [(0x408, 8, 0x1FFF8)]) 0x400 0 0 noRows).map (fun p => (p.1, p.2.1.head?)) = some ([], some 0x20000) ∧
    (issueChecks copying (recordsWith [(0x488, 8, 0x20000)]) 0x480 1 1 gathered).map (fun p => (p.1, p.2.1.head?)) = some ([], some 0x20000) ∧
    (issueChecks copying (recordsWith [(0x508, 8, 0x1FFF0)]) 0x500 2 0 ragged).map (fun p => (p.1, p.2.1.head?)) = some ([], some 0x20000) ∧
    (issueChecks copying (recordsWith [(0x411, 1, 0x20), (0x400, 8, 0x1001)]) 0x400 0 0 noRows) = some ([], [], false) ∧
    (issueChecks copying (recordsWith [(0x491, 1, 0x28), (0x4A0, 4, 32), (0x4A4, 1, 3)]) 0x480 1 1 gathered) = some ([], [], false) ∧
    (issueChecks copying (recordsWith [(0x511, 1, 0x20), (0x520, 4, 32), (0x524, 1, 3)]) 0x500 2 0 ragged) = some ([], [], false) :=
  ⟨by decide, runs_each (by decide +kernel), by decide +kernel⟩

/-- The state with every frame of the team owned by an engine that writes it, and the one with 32 copies in flight on the core. -/
def busyFrames : State := copyState.modTeam 0 fun t => { t with frames := (List.range 64).map fun n => (n, ⟨true, 0⟩) }
def fullEngine : State := copyState.modCore 0 fun c => { c with copies := (List.range 32).map fun n => (n, {
  team := 0, gang := 0, sd := 9, kind := 0, shape := Shape.parse 0 [], rows := [], sides := [], next := 0, dst := [], src := []
  scope := copyState.latch 0 0 0, bytes := 0, count := 0, status := 0, released := true, written := [], vf := 0, banked := false, nth := 0 }) }

theorem witness_copy_waits : (match busyFrames.ctx? with
      | some c => c.gang.releases.isEmpty && runs busyFrames c (.tcopy 9 4 0) &&
          decide (issueChecks c busyFrames 0x400 0 0 noRows = some ([], [], true))
      | none => false) = true ∧
    (match exec (.tcopy 9 4 0) busyFrames with
      | .next t => match ((t.gang? 0 0).bind fun g => g.frag? 0).bind Fragment.wait with | some (.copyFrames _ _ _ _) => true | _ => false
      | _ => false) = true ∧
    (fullEngine.core 0).copies.length = 32 ∧ (match fullEngine.ctx? with | some c => runs fullEngine c (.tcopy 9 4 0) | none => false) = true ∧
    (match exec (.tcopy 9 4 0) fullEngine with
      | .next t => ((t.gang? 0 0).bind fun g => g.frag? 0).bind Fragment.wait == some (.copyIssue 9)
      | _ => false) = true := by decide +kernel

/-- A copy of a staged team from the Chamber to global memory. -/
theorem witness_staged_copy : (let c := staged copying
    let s := withBytes (stateOf c) [(0x408, 8, 0x1000), (0x410, 8, 0x11), (0x420, 4, 16), (0x424, 8, 1)]
    runs s c (.tcopy 9 4 0) = true ∧ c.team.staged = true ∧ (issueChecks c s 0x400 0 0 noRows).map Prod.fst = some [] ∧
    (match c.readRecord (c.counted s) 0x400 128 with | .ok (_, bs) => spaceFar (Shape.parse 0 bs).dspace | _ => false) = true) := by
  decide +kernel

/-- A copy of 16 bytes from global memory to the Chamber, at its first move. -/
def nearCopy : Copy := {
  team := 0, gang := 0, sd := 9, kind := 0, shape := { (Shape.parse 0 []) with sbase := 0x1000, dspace := 1, ndim := 1, sizes := [16], strides := [1] },
  rows := [], sides := [], next := 0, dst := [⟨false, 0, 0⟩], src := [], scope := (stateOf copying).latch 0 0 0, bytes := 0, count := 0, status := 0,
  released := true, written := [], vf := 0, banked := false, nth := 0 }

/-- A copy of 16 bytes from the Chamber to global memory that has made its moves. -/
def farCopy : Copy := { nearCopy with
  shape := { nearCopy.shape with sbase := 0, dbase := 0x1000, dspace := 0, sspace := 1 }
  next := 16, dst := [], src := [⟨false, 0, 0⟩], released := false, bytes := 16, written := [(0x1010, 0xFFFF)] }

/-- The same that cannot make its first move, for its page is not mapped, and a ragged copy at a row of zeros. -/
def lostCopy : Copy := { farCopy with shape := { farCopy.shape with dbase := 0x40000 }, next := 0 }
def zeroCopy : Copy := { nearCopy with
  kind := 2, shape := { nearCopy.shape with ndim := 2, sizes := [16, 1], strides := [1, 16] }, rows := [none], sides := [] }

/-- Copies in flight on core 0, with the frames that they hold. -/
def flying (l : List Copy) (ew : Bool) (n : Nat) : State :=
  { stateOf (cx 16 (t := fun t => { t with frames := [(0, ⟨ew, n⟩)] })) with
    cores := [(0, { coreOf with copies := (List.range l.length).zip l })] }

theorem witness_copy_engine : (flying [nearCopy] true 0).copy? 0 0 = some nearCopy ∧ nearCopy.done = false ∧
    (let m := moveAt nearCopy.shape ((flying [nearCopy] true 0).copySlot nearCopy) 0 [] [] 0
     m.src.isSome = true ∧ (match m.src with
       | none => false
       | some x => match (flying [nearCopy] true 0).engineReads 0 nearCopy x.space x.addrs with
         | .error _ => false
         | .ok (v, bs) => passes (v.engineWrites 0 nearCopy m.dst.space (m.dst.addrs.zip bs))) = true) ∧
    (let m := moveAt zeroCopy.shape ((flying [zeroCopy] true 0).copySlot zeroCopy) 2 [none] [] 0
     m.src = none ∧ passes ((flying [zeroCopy] true 0).engineWrites 0 zeroCopy m.dst.space (m.dst.addrs.zip m.fill)) = true) ∧
    lostCopy.done = false ∧ (match (flying [lostCopy] false 1).nextMoveOf 0 0 lostCopy with | .error e => decide (e ≠ 3) | .ok _ => false) = true ∧
    (let x := { nearCopy with next := 16 }
     spaceFar x.shape.dspace = false ∧ x.dst[0]? = some ⟨false, 0, 0⟩ ∧ (flying [x] true 0).frameBusy 0 x ⟨false, 0, 0⟩ = false) ∧
    farCopy.done = true ∧ farCopy.released = false ∧ spaceFar farCopy.shape.dspace = true ∧
    ((flying [farCopy] false 1).owner? ⟨false, 0, 0⟩) = some ⟨false, 1⟩ ∧
    (let x := { farCopy with released := true, src := [] }
     x.done = true ∧ x.dst = [] ∧ x.banked = false ∧ (flying [x] false 1).copy? 0 0 = some x ∧
     ((flying [x] false 1).gang? 0 0).isSome = true) := by decide +kernel

/-- A gang whose fragment waits for the frames of a copy. -/
def framesWait : Ctx := cx 16 (f := fun f => { f with wait := some (.copyFrames nearCopy 0 0x104 false) })

theorem witness_copy_frame_take : (stateOf framesWait).team? 0 = some framesWait.team ∧ (stateOf framesWait).gang? 0 0 = some framesWait.gang ∧
    framesWait.gang.frag? 0 = some framesWait.frag ∧ framesWait.team.status = .running ∧ framesWait.team.stopped = none ∧
    framesWait.gang.handler = none ∧ (stateOf framesWait).framesFree nearCopy = true ∧
    framesWait.gang.mayCount = true ∧ ((stateOf framesWait).core 0).copies = [] ∧ framesWait.frag.join = none ∧
    SMap.wf framesWait.gang.entries = true ∧ nearCopy.team = 0 ∧ nearCopy.gang = 0 := by decide +kernel

/-- The fragment of a team's only gang, while a copy of the team is in flight. -/
def exiting : State := { stateOf (cx 16) with cores := [(0, { coreOf with copies := [(0, nearCopy)] })] }

theorem witness_joins_and_exit : joined.gang.Settled ∧ joined.target (4 : BitVec 18) ≠ joined.after ∧ (cx 64).gang.Settled ∧
    (cx 64).gang.handler = none ∧ (cx 64).frag.handler = false ∧ (∀ p ∈ (stateOf (cx 64)).cores, p.2.copies = []) ∧
    Runs .exit exiting (cx 16) ∧ ((cx 16).gang.exitFrag (cx 16).ref.frag).over = true ∧ (∀ g ∈ (cx 16).team.gangs, g.1 = (cx 16).ref.gang) ∧
    (∃ p ∈ exiting.cores, ∃ y ∈ p.2.copies, y.2.team = (cx 16).ref.team) :=
  ⟨rfl, by decide +kernel, rfl, rfl, rfl, by decide +kernel, runs_of (by decide +kernel), by decide +kernel,
    by decide +kernel, by decide +kernel⟩

/-- Two copies in flight, of which the first, or neither, has begun. -/
theorem witness_copy_order : (flying [nearCopy, farCopy] true 0).copy? 0 1 = some farCopy ∧
    (∀ y ∈ ((flying [nearCopy, nearCopy] true 0).core 0).copies, y.1 < 0 → y.2.next ≠ 0 ∨ y.2.done = true) ∧
    nearCopy.done = false ∧ (∃ y ∈ ((flying [nearCopy, nearCopy] true 0).core 0).copies, y.1 < 1 ∧ ¬ (y.2.next ≠ 0 ∨ y.2.done = true)) ∧
    (let c := cx 16 (g := fun g => { g with pending := [9] }) (f := fun f => { f with wait := some (.copyFrames nearCopy 0 0x104 false) })
     (stateOf c).gang? 0 0 = some c.gang ∧ c.gang.frag? 0 = some c.frag ∧ nearCopy.sd ≠ 0 ∧ nearCopy.sd ∈ c.gang.pending) := by decide +kernel

/-- A copy that issued before its gang's handler began waits for its frames; fragment 1 is the trapped one. -/
def bankedCopy : Copy := { nearCopy with sd := 28 }
def framesBeside : Ctx :=
  let f : Fragment := { fragOf 16 with wait := some (.copyFrames bankedCopy 0 0x104 false) }
  let g : Gang := { gangOf 16 with handler := some handled, entries := [(1, .frag trapped), (2, .frag f)] }
  ⟨⟨0, 0, 2⟩, { teamOf 16 with gangs := [(0, g)] }, g, f⟩

theorem witness_frames_beside_handler : (stateOf framesBeside).team? 0 = some framesBeside.team ∧ (stateOf framesBeside).gang? 0 0 = some framesBeside.gang ∧
    framesBeside.gang.frag? 2 = some framesBeside.frag ∧ framesBeside.team.status = .running ∧ framesBeside.team.stopped = none ∧
    framesBeside.gang.handler = some handled ∧ handled.compat = false ∧ framesBeside.frag.handler = false ∧
    (stateOf framesBeside).framesFree bankedCopy = true ∧ framesBeside.gang.mayCount = true ∧ ((stateOf framesBeside).core 0).copies = [] ∧
    SMap.wf framesBeside.gang.entries = true ∧ bankedCopy.banked = false ∧ 28 ≤ bankedCopy.sd := by decide +kernel

/-- Finished copies that give their token beside a handler: one of the gang's, one of the handler's, and one of a handler before it. -/
theorem witness_token_beside_handler : (∀ x ∈ [{ bankedCopy with next := 16, dst := [] }, { bankedCopy with next := 16, dst := [], banked := true, nth := 1 },
      { bankedCopy with next := 16, dst := [], banked := true }],
    let s := { stateOf inHandler with cores := [(0, { coreOf with copies := [(0, x)] })] }
    s.copy? 0 0 = some x ∧ x.done = true ∧ x.released = true ∧ x.src = [] ∧ s.gang? 0 0 = some inHandler.gang ∧ (s.team? 0).isSome = true) := by decide +kernel

/-- A unit that names the token register of a copy that waits at its issue. -/
def besideIssue (w : Wait) : Ctx :=
  let f : Fragment := { fragOf 16 with active := 0xFF }
  let g : Gang := { gangOf 16 with entries := [(0, .frag f), (2, .frag { fragOf 16 with active := 0xFF00, wait := some w })] }
  ⟨⟨0, 0, 0⟩, { teamOf 16 with gangs := [(0, g)] }, g, f⟩

theorem witness_token_register : ∀ w ∈ [Wait.copyIssue 9, .copyFrames nearCopy 0 0x104 false], let c := besideIssue w
    (stateOf c).ctx? = some c ∧ c.hints = [] ∧ (c.gang.frag? 2).map Fragment.wait = some (some w) ∧ c.frag.handler = false ∧
    (match exec (.sadd 9 2 2 0) (stateOf c) with
      | .next t => ((t.gang? 0 0).bind fun g => g.frag? 0).map Fragment.wait
      | _ => none) = some (some .scoreboard) := by decide +kernel

/-! ### Witnesses: arrivals at joins -/

/-- What `TableOk` asks, as a test. -/
def tableOk (g : Gang) : Bool := SMap.wf g.entries && g.entries.all fun p => decide (p.1 < 16) && match p.2.under with
  | none => true
  | some j => match SMap.get? g.entries j with
    | some (.join _ _ _ _ _ _) => true
    | _ => false

theorem get?_mem {α : Type} (m : SMap α) (k : Nat) (v : α) (h : SMap.get? m k = some v) : (k, v) ∈ m := by
  induction m with
  | nil => simp [SMap.get?] at h
  | cons p m ih =>
    simp only [SMap.get?] at h
    split at h
    · next e => cases h; subst e; exact List.mem_cons_self
    · exact List.mem_cons_of_mem _ (ih h)

theorem tableOk_of {g : Gang} (h : tableOk g = true) : g.TableOk := by
  simp only [tableOk, Bool.and_eq_true, List.all_eq_true, decide_eq_true_eq] at h
  refine ⟨h.1, fun n e hn => (h.2 _ (get?_mem _ _ _ hn)).1, fun n e j hn hu => ?_⟩
  have hm := (h.2 _ (get?_mem _ _ _ hn)).2
  simp only [show e.under = some j from hu] at hm
  match hj : SMap.get? g.entries j with
  | some (.join a m ar ex p b) => exact ⟨a, m, ar, ex, p, b, rfl⟩
  | none | some (.frag _) | some (.deferred _ _ _ _ _) => simp [hj] at hm

/-- A gang of which fragment 0, with the low four lanes, stands under the record of entry 1 for 0x110, which stands under that of entry 3. -/
def tabled (es : List (Nat × Entry)) : Ctx :=
  let f : Fragment := { fragOf 16 with active := 0x0F, join := some 1 }
  let g : Gang := { gangOf 16 with entries := (0, .frag f) :: es }
  ⟨⟨0, 0, 0⟩, { teamOf 16 with gangs := [(0, g)] }, g, f⟩

/-- Fragment 2 waits at the join with four lanes more, eight lanes have exited, and fragment 4 runs under the outer record. -/
def meeting : Ctx := tabled [(1, .join 0x110 0xFFF 0xF0 0xF00 (some 3) false),
  (2, .frag { fragOf 16 with active := 0xF0, join := some 1, pc := 0x110, wait := some (.join 1) }), (3, .join 0x200 0xFFFF 0 0xF00 none false),
  (4, .frag { fragOf 16 with active := 0xF000, join := some 3, pc := 0x180 })]

/-- Four lanes more of the first slice are deferred under the record. -/
def deferring : Ctx := tabled [(1, .join 0x110 0xFF 0 0 none false), (2, .deferred 0 0xF0 0x200 (some 1) false)]

theorem witness_arrivals : (∀ c ∈ [meeting, deferring], runs (stateOf c) c (.br 4) = true ∧ tableOk c.gang = true ∧ c.gang.settleStep = none ∧
      c.frag.join = some 1 ∧ c.target (4 : BitVec 18) = 0x110) ∧
    SMap.get? meeting.gang.entries 1 = some (.join 0x110 0xFFF 0xF0 0xF00 (some 3) false) ∧ (0xF0 ||| meeting.active) ||| 0xF00 = 0xFFF ∧
    (meeting.gang.entries.all fun e => match e.2 with | .deferred _ _ _ _ _ => false | _ => true) = true ∧
    (SMap.get? meeting.gang.entries 3).map Entry.address = some 0x200 ∧
    (∀ e ∈ meeting.gang.frags, e.1 ≠ 0 → e.2.pc = 0x110 → e.2.wait ≠ none) ∧
    SMap.get? deferring.gang.entries 1 = some (.join 0x110 0xFF 0 0 none false) ∧ (0 ||| deferring.active) ||| 0 ≠ 0xFF ∧
    SMap.get? deferring.gang.entries 2 = some (.deferred 0 0xF0 0x200 (some 1) false) ∧ deferring.gang.frags.length = 1 := by decide +kernel

/-- What the fragments of gang 0 of a state are: pc, active lanes, record. -/
def fragsAfter : Host.Outcome State Fault Refusal → List (Nat × Word × Mask × Option Nat)
  | .next t => match t.gang? 0 0 with
    | some g => g.frags.map fun p => (p.1, p.2.pc, p.2.active, p.2.join)
    | none => []
  | _ => []

/-- R283: the lanes of both fragments go on at the join. -/
theorem test_lastArrival : fragsAfter (exec (.br 4) (stateOf meeting)) = [(0, 0x110, 0xFF, some 3), (4, 0x180, 0xF000, some 3)] := by
  decide +kernel

/-- R281: the deferred lanes go on where they were to. -/
theorem test_release : fragsAfter (exec (.br 4) (stateOf deferring)) = [(0, 0x110, 0x0F, some 1), (2, 0x200, 0xF0, some 1)] := by
  decide +kernel

/-! ### Witnesses: order and scopes -/

/-- A scope table of which entry 1 holds the cores 0 and 1, entry 2 a core of another die and entry 3 no core; entries 4 to 6 are not written. -/
def withScopes (s : State) : State := { s with vfs := [(0, { vfOf with scope := [
  (1, ⟨3, 0, 0, false, true, 1, 1⟩), (2, ⟨2 ^ 64 + 1, 0, 0, false, true, 2, 3⟩), (3, ⟨0, 0, 0, false, true, 255, 0⟩)] })] }

/-- A gang bound to entry 1, with scope images at 0x400 and words for `swr` and `srd`. -/
def bound : Ctx := cx 16 (g := fun g => { g with bindings := [(1, 1)], sregs := [(2, 1), (3, 6), (4, 0x400), (5, 7), (6, 3)] })

def boundState : State := withBytes (withScopes (stateOf bound)) [(0x400, 8, 3), (0x428, 8, 0x10000)]

theorem witness_fences : (∀ i ∈ [Instr.fenceRel 0 0, .fenceRel 1 0, .fenceRel 7 1, .fenceAcq 2 0, .fenceAcqrel 1 0], Runs i boundState bound) ∧
    (∀ n ∈ [(0 : BitVec 3), 1, 2, 7], bound.stale (bound.counted boundState) n = none) ∧
    (boundState.latch 0 0 0).level = 0 ∧ (boundState.latch 0 0 1).level ≠ 0 ∧ (boundState.latch 0 0 2).level ≠ 1 ∧ (boundState.latch 0 0 7).level ≠ 0 :=
  ⟨runs_each (by decide +kernel), by decide +kernel⟩

/-- A gang with a release that is pending, a written byte in its L1 at PA 0x101000 and n stores not yet acknowledged. -/
def releasing (n : Nat) : State := { stateOf (cx 16 (g := fun g => { g with unacked := n, releases := [⟨7, 0, 5, [0, 1, 2, 3], 2 ^ 256 - 1⟩] })) with
  cores := [(0, { coreOf with
    l1 := [⟨0, 0x1010, 0x10006F, 0, 1, [(0, 5)], 0⟩]
    fifo := [fifoKey 0 0x1010] })] }

theorem witness_releases : ((releasing 1).gang? 0 0).map Gang.unacked = some 1 ∧ ((releasing 0).gang? 0 0).map Gang.unacked = some 0 ∧
    ((releasing 0).gang? 0 0).map (fun g => g.releases.length) = some 1 ∧
    getLine ((releasing 0).core 0).l1 0 0x1010 = some ⟨0, 0x1010, 0x10006F, 0, 1, [(0, 5)], 0⟩ ∧ fifoKey 0 0x1010 ∈ ((releasing 0).core 0).fifo ∧
    bit (1 : BitVec 256) (0x101000 % 256) = true ∧ ((releasing 0).die 0).remote = [] := by decide +kernel

/-- The cores of an entry, as R275 counts them. -/
def icinvCores (n : Nat) : List Nat :=
  let e := boundState.scope 0 0 n
  (List.range 256).filter fun k => !e.valid || bit e.pkgs boundState.board.pkg || bit e.cores k

theorem witness_scope_table : (∀ i ∈ [Instr.sbind 9 1 0, .sbind 9 7 0, .sbindClr 1 0, .srd 9 5 5 0, .srd 9 0 0 0, .swr 9 2 4 0, .swr 9 3 4 0,
      .icinv 3 0, .icinv 1 0, .icinv 4 0], Runs i boundState bound) ∧ (bound.s 5).toNat < 8 ∧ 1 ≤ (bound.s 2).toNat ∧ (bound.s 3).toNat ≤ 6 ∧
    bound.team.staged = false ∧
    (match bound.readRecord (bound.counted boundState) 0x400 64 with
      | .ok (_, bs) => decide (ofBytes bs / 2 ^ 340 = 0 ∧ ofBytes bs / 2 ^ 325 % 8 = 0)
      | .error _ => false) = true ∧ boundState.oldGen 0 1 2 = false ∧
    (∀ n ∈ [(1 : BitVec 3), 3, 4], bound.stale (bound.counted boundState) n = none) ∧ SMap.wf boundState.icinvs = true ∧
    icinvCores 3 = [] ∧ icinvCores 1 = [0, 1] ∧ (icinvCores 4).length = 256 :=
  ⟨runs_each (by decide +kernel), by decide +kernel⟩

/-- A release that latched the generation that a write of entry 1 ends, and an invalidation that core 0 has yet to see. -/
def oldRelease : Ctx := cx 16 (g := fun g => { g with sregs := [(2, 1), (4, 0x400)], releases := [⟨1, 1, 1, [0], 3⟩] })

theorem witness_old_generation : (let s := withBytes (withScopes (stateOf oldRelease)) [(0x400, 8, 3), (0x428, 8, 0x10000)]
    runs s oldRelease (.swr 9 2 4 0) = true ∧ s.oldGen 0 1 2 = true ∧ passes (oldRelease.readRecord (oldRelease.counted s) 0x400 64) = true) ∧
    (let s := { boundState with icinvs := [(0, ⟨0, boundState.latch 0 0 1, [0, 1], [0, 1]⟩)] }
     SMap.get? s.icinvs 0 = some ⟨0, boundState.latch 0 0 1, [0, 1], [0, 1]⟩ ∧ 0 ∈ [0, 1] ∧ ([0, 1].filter fun k => k != 0) ≠ []) := by decide +kernel

/-! ### Witnesses: tasks, launches, counters, queues and merges -/

/-- A kernel header at 0x600, a task record at 0x640 and a launch record at 0x700. -/
def launchRecords : List (Nat × Nat × Nat) := [(0x600, 4, 0x4B495331), (0x608, 8, 0x100), (0x610, 1, 16), (0x611, 1, 16),
  (0x640, 8, 0x600), (0x650, 4, 0x80000000), (0x654, 4, 0x80000000), (0x658, 4, 0xFFFFFFFF), (0x65D, 1, 1),
  (0x700, 8, 0x600), (0x708, 4, 1), (0x70C, 1, 1), (0x70D, 1, 16), (0x70E, 1, 16), (0x71C, 4, 0xFFFFFFFF), (0x780, 4, 0x80000000)]

/-- s4 names the task record, s5 the launch record, s6 and s7 launch records that are refused: the header is none, or the address is that of the
task record. -/
def launching : Ctx := cx 16 (g := fun g => { g with sregs := [(2, 3), (3, 0x20000), (4, 0x640), (5, 0x700), (6, 0x800), (7, 0x40000)] })

def launchState : State := withBytes (stateOf launching) launchRecords
def stagedLaunchState : State := withBytes (stateOf (staged launching)) launchRecords

theorem witness_spawn : Runs (.spawn 9 4 0) launchState launching ∧ Runs (.spawn 9 4 0) stagedLaunchState (staged launching) ∧
    (match launching.readRecord (launching.counted launchState) 0x640 64 with
      | .error _ => false
      | .ok (v, bs) => let r := readKernel launching.reader v (fieldAt bs 0 8)
        r.2.isSome && decide (taskBad (launchState.vf 0) 0 r.2 bs = []) && (r.1.freeSlot 0).isSome) = true :=
  ⟨runs_of (by decide +kernel), runs_of (by decide +kernel), by decide +kernel⟩

/-- The code that a launch of the record at an address has (R303). -/
def codeAt (c : Ctx) (s : State) (a : Nat) : Option Nat :=
  match c.readRecord (c.counted s) a 256 with
  | .error _ => none
  | .ok (v, bs) => let r := readLaunch c.reader v bs
    some (r.1.launchCode 0 r.2)

theorem witness_launch : (∀ i ∈ [Instr.launch 9 5 0, .launch 9 6 0], Runs i launchState launching) ∧
    (∀ i ∈ [Instr.launch 9 5 0, .launch 9 6 0], Runs i stagedLaunchState (staged launching)) ∧
    (∀ p ∈ [(launching, launchState), (staged launching, stagedLaunchState)],
      codeAt p.1 p.2 0x700 = some 0 ∧ (codeAt p.1 p.2 0x800).isSome = true ∧ codeAt p.1 p.2 0x800 ≠ some 0) :=
  ⟨runs_each (by decide +kernel), runs_each (by decide +kernel), by decide +kernel⟩

/-- Two tasks of die 0: slot 2 waits to be dispatched, slot 3 runs as team 1. -/
def bareTask (gen : Nat) (t : TaskState) : Task := {
  gen := gen, vf := 0, kernel := kernelOf 16, argp := 0, waitc := none, decc := none, budget := none, prio := 0, gangs := 1, tenant := 0, qsel := 0,
  lidx := 0, stat := 0, slots := [], det := false, set := none, state := t, home := 0, seq := 0 }

/-- s4 names the first task, s5 the second, s6 no task; s7 is malformed. -/
def aborting : Ctx := cx 16 (g := fun g => { g with sregs := [(4, 0x10002), (5, 0x20003), (6, 0x30002), (7, 2 ^ 34)] })

def abortState : State := { stateOf aborting with
  teams := [(0, aborting.team), (1, { Team.start (.task 0 3) 0 (kernelOf 16) 1 with gangs := [(0, gangOf 16)] })]
  dies := [(0, { Die.reset with tasks := [(2, bareTask 1 .ready), (3, bareTask 2 .running)] })] }

theorem witness_tabort : (∀ i ∈ [Instr.tabortRetry 4 0, .tabortDrop 4 0, .tabortRetry 5 0, .tabortDrop 5 0, .tabortRetry 6 0, .tabortDrop 6 0, .tabortRetry 7 0,
      .tabortDrop 0 0], Runs i abortState aborting) ∧ aborting.team.own = .grid 1 ∧ abortState.teamOfTask 0 3 = some 1 ∧
    SMap.get? (abortState.die 0).tasks 2 = some (bareTask 1 .ready) ∧ SMap.get? (abortState.die 0).tasks 3 = some (bareTask 2 .running) ∧
    (aborting.s 4).toNat < 2 ^ 34 ∧ 2 ^ 34 ≤ (aborting.s 7).toNat ∧ (aborting.s 6).toNat / 2 ^ 16 % 2 ^ 16 ≠ 1 :=
  ⟨runs_each (by decide +kernel), by decide +kernel⟩

/-- The names of the first and the last counter of the context, and one that is out of range. -/
def counting : Ctx := cx 16 (g := fun g => { g with sregs := [(2, 3), (4, 0), (5, 3), (6, 0x40000)] })

theorem witness_dependence_counters : (∀ i ∈ [Instr.depset 5 2 0, .depdec 9 5 0 0, .depdec 9 4 2 0, .depread 9 4 0, .depset 6 2 0, .depdec 9 6 2 0,
      .depread 9 6 0], Runs i (stateOf counting) counting) ∧
    (∀ i ∈ [Instr.depset 5 2 0, .depdec 9 5 0 0], Runs i (stateOf (staged counting)) (staged counting)) ∧
    (counting.s 2).toNat < 2 ^ 32 ∧ ((stateOf counting).vf 0).counters = (0, 4) ∧ 2 ^ 18 ≤ (counting.s 6).toNat :=
  ⟨runs_each (by decide +kernel), runs_each (by decide +kernel), by decide +kernel⟩

/-- A context whose counters are 1 to 4 of each die: s4 names the first, s5 the one below it, s6 the one above the last, s7 the last of die
1 and s8 none; s2 is a value of 2^32. -/
def ranged : Ctx := cx 16 (g := fun g => { g with sregs := [(2, 0x100000000), (4, 1), (5, 0), (6, 5), (7, 0x10004), (8, 0x40001)] })
def rangedState : State := { stateOf ranged with vfs := [(0, vfOf.setCfg 256 4 1)] }

theorem witness_counter_range : (∀ i ∈ [Instr.depset 5 4 0, .depdec 9 6 4 0, .depread 9 8 0, .depset 4 2 0, .depset 7 2 0], Runs i rangedState ranged) ∧
    (rangedState.vf 0).counters = (1, 4) ∧ (ranged.s 5).toNat % 2 ^ 16 < 1 ∧ 1 + 4 ≤ (ranged.s 6).toNat % 2 ^ 16 ∧ 2 ^ 18 ≤ (ranged.s 8).toNat ∧
    2 ^ 32 ≤ (ranged.s 2).toNat ∧ ranged.s 7 = BitVec.ofNat 64 0x10004 := ⟨runs_each (by decide +kernel), by decide +kernel⟩

/-- A team with a queue of two entries that holds one, an empty one and a full one. s4 is the word of a ring of 2 entries at 0x100, s5 that of a
ring of 4,096 entries at 0x18000. -/
def queueing : Ctx := cx 16 (t := fun t => { t with queues := [(0, ⟨0, 2, 4, 5⟩), (1, ⟨16, 2, 5, 5⟩), (7, ⟨32, 2, 0, 2⟩)] })
  (g := fun g => { g with sregs := [(4, 0x100000100), (5, 0xC00018000)] })

theorem witness_queues : (∀ i ∈ [Instr.qinit 4 0 0, .qinit 5 7 0, .qpush 4 0 0, .qpush 4 1 0, .qpush 4 15 0, .qpop 9 0 0, .qpop 9 7 0, .qtry 6 0 0, .qtry 6 1 0],
      Runs i (stateOf queueing) queueing) ∧ queueing.team.kernel.queues = 8 ∧ queueing.team.staged = false ∧
    (0xC00018000 : Nat) / 2 ^ 32 = 12 ∧ 0xC00018000 % 2 ^ 19 + 8 * 2 ^ 12 ≤ queueing.team.chamberBytes ∧
    (0x100000100 : Nat) / 2 ^ 32 = 1 ∧ queueing.team.waitsOn 0 = false ∧ queueing.team.waitsOn 7 = false ∧
    SMap.get? queueing.team.frames 0 = none ∧ ((stateOf queueing).die 0).gate.length < 1024 :=
  ⟨runs_each (by decide +kernel), by decide +kernel⟩

/-- A gang of a cluster group of two cores; unit slot 0 is open with one contribution missing, slot 1 is merged. -/
def merging : Ctx := cx 16 (t := fun t => { t with group := some [0, 1] }) (g := fun g => { g with sregs := [(1, 1), (2, 16)] })

def mergeState : State := { stateOf merging with
  dies := [(0, { Die.reset with merge := [(0, ⟨1, 0, [], []⟩), (1, ⟨0, 0, [], []⟩)] })] }

theorem witness_merges : (∀ i ∈ [Instr.cmrgPut 0 10 0, .cmrgGet 9 1 20 0, .cmrgReset 0 2 0, .cmrgReset 1 1 0], Runs i mergeState merging) ∧
    merging.mergeSlot (merging.s 0) = some 0 ∧ merging.mergeSlot (merging.s 1) = some 1 ∧
    SMap.get? (mergeState.die 0).merge 0 = some ⟨1, 0, [], []⟩ ∧ SMap.get? (mergeState.die 0).merge 1 = some ⟨0, 0, [], []⟩ ∧
    1 ≤ (merging.s 1).toNat ∧ (merging.s 2).toNat ≤ 16 :=
  ⟨runs_each (by decide +kernel), by decide +kernel⟩

/-- A gang of the group waits in the handler's absence, and one in its presence, for the slot that is reset. -/
def mergeWaiter (sd : Nat) (h : Option Handler) : Gang := { gangOf 16 with handler := h
                                                                           entries := [(2, .frag { fragOf 16 with wait := some (.merge 0 sd 0 0x104 false false) })] }

def waiting : State := { mergeState with teams := [(0, { merging.team with gangs := [(0, merging.gang), (1, mergeWaiter 9 none), (2, mergeWaiter 28 (some handled))] })] }

theorem witness_merge_reset : (let c : Ctx := { merging with team := { merging.team with gangs := [(0, merging.gang), (1, mergeWaiter 9 none), (2, mergeWaiter 28 (some handled))] } }
     runs waiting c (.cmrgReset 0 2 0) = true ∧ c.mergeSlot (c.s 0) = some 0) ∧
    (∀ g ∈ [1, 2], (waiting.gang? 0 g).map (fun k => decide (k.wcount + k.entries.length ≤ k.wbudget) && SMap.wf k.entries) = some true) ∧
    (((waiting.gang? 0 1).bind fun k => k.frag? 2).map fun f => (f.wait, f.join)) = some (some (.merge 0 9 0 0x104 false false), none) ∧
    ((waiting.gang? 0 2).map fun k => k.handler) = some (some handled) ∧ ((waiting.team? 0).map Team.status) = some .running := by decide +kernel

/-- A gate queue of 1,024 entries. -/
def fullGate : State := { stateOf queueing with dies := [(0, { Die.reset with gate := List.replicate 1024 ⟨0, 0, ⟨[], false, 0⟩⟩ })] }

theorem witness_queue_waits : (∀ i ∈ [Instr.qpush 4 7 0, .qpop 9 1 0], Runs i (stateOf queueing) queueing) ∧
    SMap.get? queueing.team.queues 7 = some ⟨32, 2, 0, 2⟩ ∧ SMap.get? queueing.team.queues 1 = some ⟨16, 2, 5, 5⟩ ∧
    Runs (.qpush 4 15 0) fullGate queueing ∧ 1024 ≤ (fullGate.die 0).gate.length ∧
    Runs (.cmrgGet 9 0 20 0) mergeState merging :=
  ⟨runs_each (by decide +kernel), rfl, rfl, runs_of (by decide +kernel), by decide +kernel, runs_of (by decide +kernel)⟩

/-- A queue whose oldest entry stands in a frame that is being written. -/
theorem witness_queue_frame : (let c := ctxOf { queueing.team with frames := [(0, ⟨true, 0⟩)] } queueing.gang queueing.frag
    runs (stateOf c) c (.qpop 9 0 0) = true ∧ SMap.get? c.team.queues 0 = some ⟨0, 2, 4, 5⟩ ∧ SMap.get? c.team.frames ((0 + 8 * (4 % 2)) / 2048) = some ⟨true, 0⟩) := by
  decide +kernel

theorem witness_awaited_get : (let k : Gang := { mergeWaiter 9 none with pending := [9] }
    let c : Ctx := { merging with team := { merging.team with gangs := [(0, merging.gang), (1, k)] } }
    runs { mergeState with teams := [(0, c.team)] } c (.cmrgReset 0 2 0) = true ∧ 9 ∈ k.awaits false ∧ k.wcount + k.entries.length ≤ k.wbudget) := by
  decide +kernel

/-- A task whose team a `tabort.retry` has stopped, and one whose team has exited. -/
theorem witness_tabort_again : (let s := abortState.modTeam 1 fun u => { u with stopped := some .retry }
    (s.team? 1).map Team.stopped = some (some .retry) ∧ runs s aborting (.tabortDrop 5 0) = true ∧ s.teamOfTask 0 3 = some 1) ∧
    (let s := abortState.modTeam 1 fun u => { u with gangs := [] }
     (s.team? 1).map Team.gangs = some [] ∧ s.teamCopies 1 = false ∧ runs s aborting (.tabortRetry 5 0) = true ∧ s.teamOfTask 0 3 = some 1) := by
  decide +kernel

/-! ### Witnesses: elastic arrays -/

/-- An array of four elements of 8 bytes in slab 3 with an anchor at rank 2, an array of two in slab 4, one of another die, and a dead anchor. -/
def arrayA : EArray := ⟨1, 0, 0, 0, 1, 7, [(3, 4)], [], [], [(5, 2)]⟩
def arrayB : EArray := ⟨1, 0, 0, 0, 1, 0, [(4, 2)], [], [], []⟩
def arrayC : EArray := ⟨1, 1, 0, 0, 1, 0, [], [], [], []⟩

def arrays (s : State) : State := { s with vfs := [(0, { vfOf with
  arrays := [(0, arrayA), (1, arrayB), (2, arrayC)]
  arrGen := [(0, 1), (1, 1), (2, 1)]
  anchors := [(5, .live 0), (6, .dead none)]
  anchorGen := [(5, 1), (6, 1)]
  slabs := [(0, [3, 4])] })] }

/-- s4 to s6 are their handles and s7 and s8 the tokens; s1 is a count or rank of 0, s2 of 1, s3 of 4 and s9 of 2; s10 is an attribute word. -/
def indexing : Ctx := cx 16 (g := fun g => { g with
  sregs := [(2, 1), (3, 4), (4, 0x40000), (5, 0x40001), (6, 0x50002), (7, 0x10000005), (8, 0x10000006), (9, 2), (10, 1), (11, 7)]
  vregs := [(64 * 13 + 1, 1), (64 * 13 + 2, 3)] })

def arrayState : State := arrays (stateOf indexing)

theorem witness_elastic_operations : (∀ i ∈ [Instr.elen 20 4 0, .einfo 20 4 1 0, .einfo 20 4 11 0, .efree 4 0, .eins 0 1 1 4 1 10 0, .eins 0 1 2 4 3 10 0,
      .eins 1 1 2 4 1 10 0, .eins 0 0 2 4 9 0 0, .eapp 0 1 2 4 7 10 0, .eapp 1 1 2 4 7 10 0, .edel 1 4 3 0, .edel 2 4 1 0, .edel 9 4 9 0, .emark 1 4 1 0,
      .emark 2 4 3 0, .eanch 20 4 3 0, .esplit 20 4 2 0, .esplit 20 4 3 0, .ecat 20 4 5 0, .enew 20 10 0, .erank 20 7 0, .erankH 20 7 0,
      .edrop 7 0, .edrop 8 0], Runs i arrayState indexing) ∧
    arrayState.array? 0 0x40000 = some (0, arrayA) ∧ arrayState.array? 0 0x40001 = some (1, arrayB) ∧ arrayA.die = indexing.die ∧
    bit (indexing.latchArray (indexing.counted arrayState) arrayA.bound).cores 0 = true ∧
    bit (indexing.latchArray (indexing.counted arrayState) arrayB.bound).cores 0 = true ∧
    bit (indexing.latchArray (indexing.counted arrayState) ⟨0, 0, 0⟩).cores 0 = true ∧ indexing.team.staged = false ∧ indexing.gang.releases = [] ∧
    arrayState.anchor? 0 0x10000005 = some (5, .live 0) ∧ arrayState.anchor? 0 0x10000006 = some (6, .dead none) ∧
    (arrayA.anchors.find? fun e => e.1 == 5) = some (5, 2) ∧ SMap.wf (arrayState.vf 0).arrays = true ∧ (arrayState.vf 0).arrays.length < 65536 :=
  ⟨runs_each (by decide +kernel), by decide +kernel⟩

theorem witness_elastic_room : (∀ r ∈ [0, 2, 4], ∀ n ∈ [1, 16],
      let ins := arrayA.inserted ((indexing.counted arrayState).leafParts 0 arrayA) ((indexing.counted arrayState).leafLimit arrayA) r
        ((List.range n).map (indexing.newElement 8 true 10))
      (indexing.counted arrayState).slabCheck 0 0 (leafNeed ins.1 + (nodeSlabs ins.2 - arrayA.nodes.length)) = none) ∧
    (let u := indexing.counted arrayState
     let above (l : List (List Nat)) (ps : List (Sys2Proof.Machine.Part (List Byte))) := upToRoot (shrinkLevels l (ps.map Part.parent))
     (∀ r ∈ [0, 1, 4], let ps := splitParts (u.leafParts 0 arrayA) r
       let xs := balanced (u.leafLimit arrayA) ps.1
       let ys := balanced (u.leafLimit arrayA) ps.2
       u.slabCheck 0 0 (leafNeed ys + (nodeSlabs (above arrayA.levels ys) - (arrayA.nodes.length - nodeSlabs (above arrayA.levels xs)))) = none) ∧
     (let l := arrayA.catLevels arrayB
      let parts := markLast (u.leafParts 0 arrayA) ++ markFirst (u.leafParts 0 arrayB)
      let ps := balanced (u.leafLimit arrayA) (((List.range parts.length).zip parts).map fun p => { p.2 with parent := parentOf (l.head?.getD []) p.1 })
      u.slabCheck 0 0 (nodeSlabs (above l ps) - (arrayA.nodes ++ arrayB.nodes).length) = none)) := by decide +kernel

theorem witness_anchor_room : ((arrayState.vf 0).findRun arrayState.tick 1).isSome = true := by
  unfold Vf.findRun
  dsimp only
  split
  · rfl
  · decide +kernel

theorem witness_elastic_contents : ArraySound arrayState 0 0 arrayA ∧ ArraySound arrayState 0 0 arrayB where
  left := {
    size := by decide
    pool := by decide +kernel
    own := by decide
    leaves := by decide +kernel
    clean := fun _ _ _ _ _ => ⟨by
      rintro ⟨l, h | ⟨d, h⟩, _⟩
      · simp [arrayState, arrays, stateOf, State.core, SMap.getD, SMap.get?, coreOf, Core.reset] at h
      · simp [arrayState, arrays, stateOf, State.die, SMap.getD, SMap.get?, State.reset, Die.reset] at h,
      fun n h => absurd (by decide +kernel : (arrayState.vf 0).cfg 288 8 = 0) h⟩ }
  right := {
    size := by decide
    pool := by decide +kernel
    own := by decide
    leaves := by decide +kernel
    clean := fun _ _ _ _ _ => ⟨by
      rintro ⟨l, h | ⟨d, h⟩, _⟩
      · simp [arrayState, arrays, stateOf, State.core, SMap.getD, SMap.get?, coreOf, Core.reset] at h
      · simp [arrayState, arrays, stateOf, State.die, SMap.getD, SMap.get?, State.reset, Die.reset] at h,
      fun n h => absurd (by decide +kernel : (arrayState.vf 0).cfg 288 8 = 0) h⟩ }

/-- The version of the first array after a meaning. -/
def versionAfter (o : Host.Outcome State Fault Refusal) : BitVec 32 :=
  match o with
  | .next t => ((SMap.get? (t.vf 0).arrays 0).map EArray.version).getD 0
  | _ => 0

theorem witness_elastic_changes : (∀ i ∈ [Instr.edel 2 4 1 0, .ecat 20 4 5 0], versionAfter (exec i arrayState) = 8) ∧
    ∀ p ∈ arrayA.leaves, ∀ q ∈ arrayB.leaves, p.1 ≠ q.1 := by decide +kernel

/-- The lookaside entries of core 0 after an operation, with one of the first array before it, beside a second array of some leaves. -/
def lookasideAfter (i : Instr) (ls : List (Nat × Nat)) : Option Nat :=
  let s := (arrayState.modCore 0 fun c => { c with rlb := [⟨0, 0x40000, 0, 0, 1, 3⟩] }).modVf 0 fun v => v.setArray 1 { arrayB with leaves := ls }
  match exec i s with
  | .next t => some (t.core 0).rlb.length
  | _ => none

/-- A split at the length and a join of an empty array move no element and keep what cores hold of the array (R79). -/
theorem test_lookaside_kept : lookasideAfter (.esplit 20 4 3 0) [(4, 2)] = some 1 ∧ lookasideAfter (.esplit 20 4 2 0) [(4, 2)] = some 0 ∧
    lookasideAfter (.ecat 20 4 5 0) [] = some 1 ∧ lookasideAfter (.ecat 20 4 5 0) [(4, 2)] = some 0 := by decide +kernel

theorem witness_elastic_accesses : (∀ i ∈ [Instr.eld 0 20 4 13 0 0, .eld 1 20 4 13 0 0, .est 0 10 4 13 0], Runs i arrayState indexing) ∧
    (let u := indexing.counted arrayState
     (match indexing.eaAccess u false 0 20 4 13 false with | .ok y => decide (y = arrayA) | .error _ => false) = true ∧
     (match indexing.eaAccess u true 0 10 4 13 false with | .ok y => decide (y = arrayA) | .error _ => false) = true) ∧
    (arrayState.core 0).rlb = [] ∧ (arrayState.core 0).l1 = [] :=
  ⟨runs_each (by decide +kernel), by decide +kernel⟩

theorem witness_remote_array : Runs (.elen 20 6 0) arrayState indexing ∧ arrayState.array? 0 0x50002 = some (2, arrayC) ∧ arrayC.die ≠ indexing.die ∧
    arrayState.array? 0 0x40000 = some (0, arrayA) ∧ arrayA.leaves = [] ++ (3, 4) :: [] ∧ (3 : Nat) < 0 + 4 :=
  ⟨runs_of (by decide +kernel), by decide +kernel⟩

/-- A fragment whose operation waits in the queue of die 0's unit. -/
def queuedOp : Ctx := cx 16 (g := fun _ => indexing.gang) (f := fun f => { f with wait := some (.rtu (.elen 20 4 0) (arrayState.latch 0 0 0) (arrayState.latch 0 0 0) indexing.gang.sregs []) })

def queuedOpState : State := { arrays (stateOf queuedOp) with dies := [(0, { Die.reset with rtu := [⟨0, 0, 0⟩] })] }

theorem witness_rtu_operation : (queuedOpState.die 0).rtu = ⟨0, 0, 0⟩ :: [] ∧
    ((queuedOpState.gang? 0 0).bind fun g => g.frag? 0) = some queuedOp.frag ∧
    (let w := ({ queuedOpState.modDie 0 (fun x => { x with rtu := [] }) with cur := ⟨0, 0, 0⟩ }).modFrag ⟨0, 0, 0⟩ (fun f => { f with wait := none })
     (w.rtuCtx? ⟨0, 0, 0⟩).isSome = true ∧ ((w.rtuCtx? ⟨0, 0, 0⟩).map fun c => c.s 4) = some 0x40000 ∧ w.array? 0 0x40000 = some (0, arrayA)) ∧
    bit (arrayState.latch 0 0 0).cores 0 = true ∧ queuedOp.gang.mayCount = true := by decide +kernel

/-- An operation of a fragment that waits beside a running handler. -/
def besideOp : Ctx :=
  let g : Gang := { indexing.gang with handler := some handled, entries := [(1, .frag trapped), (2, .frag { fragOf 16 with wait := some (.rtu (.elen 28 4 0) (arrayState.latch 0 0 0) (arrayState.latch 0 0 0) indexing.gang.sregs []) })] }
  ⟨⟨0, 0, 2⟩, { teamOf 16 with gangs := [(0, g)] }, g, { fragOf 16 with wait := some (.rtu (.elen 28 4 0) (arrayState.latch 0 0 0) (arrayState.latch 0 0 0) indexing.gang.sregs []) }⟩

theorem witness_rtu_beside_handler : (let s := { arrays (stateOf besideOp) with dies := [(0, { Die.reset with rtu := [⟨0, 0, 2⟩] })] }
    (s.die 0).rtu = ⟨0, 0, 2⟩ :: [] ∧ ((s.gang? 0 0).bind fun g => g.frag? 2) = some besideOp.frag ∧
    (let w := ({ s.modDie 0 (fun x => { x with rtu := [] }) with cur := ⟨0, 0, 2⟩ }).modFrag ⟨0, 0, 2⟩ (fun f => { f with wait := none })
     ((w.rtuCtx? ⟨0, 0, 2⟩).map fun c => (c.gang.mayCount, c.gang.handler, c.frag.handler)) = some (true, some handled, false) ∧
     w.array? 0 (ZMap.get indexing.gang.sregs 4) = some (0, arrayA))) := by decide +kernel

/-- The forms that take a rank operand. -/
def ranked : List Instr := [.eins 1 1 2 4 3 10 0, .edel 2 4 3 0, .esplit 2 4 3 0, .emark 2 4 3 0, .eanch 2 4 3 0]

/-- The first array, bound to core 5 alone. -/
def foreign : State := arrayState.modVf 0 fun v => { v with arrays := SMap.set v.arrays 0 { arrayA with creator := 5 } }

/-- s1 is the handle 0 of no array; lane 2 of v13 and s11 hold ranks that the array of four elements does not have, and s3 is four. -/
def outranked : Ctx := cx 16 (g := fun _ => { indexing.gang with vregs := [(64 * 13 + 1, 1), (64 * 13 + 2, 4)] })

theorem witness_elastic_faults : (∀ i ∈ [Instr.eld 0 20 4 13 0 0, .est 0 10 4 13 0, .elen 20 4 0, .einfo 20 4 11 0, .efree 4 0, .efree 1 0, .elen 20 1 0] ++ ranked,
      Runs i (arrays (stateOf outranked)) outranked) ∧
    (∀ i ∈ [Instr.est 0 10 4 13 0, .efree 4 0] ++ ranked, Runs i (arrays (stateOf (staged outranked))) (staged outranked)) ∧
    outranked.gang.inRtu = false ∧ (arrays (stateOf outranked)).array? 0 (outranked.s 1) = none ∧
    foreign.array? 0 0x40000 = some (0, { arrayA with creator := 5 }) ∧ runs foreign indexing (.eld 0 20 4 13 0 0) = true ∧
    bit (indexing.latchArray (indexing.counted foreign) ⟨0, 0, 5⟩).cores indexing.core = false ∧
    bit (outranked.latchArray (outranked.counted (arrays (stateOf outranked))) arrayA.bound).cores outranked.core = true ∧
    outranked.lanes 0 = [0, 1] ++ 2 :: (outranked.lanes 0).drop 3 ∧ (∀ m ∈ [0, 1], (outranked.v 13 m).toNat < 4) ∧ 4 ≤ (outranked.v 13 2).toNat ∧
    4 < (outranked.s 11).toNat ∧ 4 < (outranked.s 3).toNat + (outranked.s 2).toNat :=
  ⟨runs_each (by decide +kernel), runs_each (by decide +kernel), by decide +kernel⟩

/-- A gang of which another fragment's operation is in flight. -/
def besideQueued : Ctx :=
  let g : Gang := { indexing.gang with entries := [(0, .frag { fragOf 16 with active := 0xFF }),
    (2, .frag { fragOf 16 with active := 0xFF00, wait := some (.rtu (.elen 20 6 0) (arrayState.latch 0 0 0) (arrayState.latch 0 0 0) indexing.gang.sregs []) })] }
  ⟨⟨0, 0, 0⟩, { teamOf 16 with gangs := [(0, g)] }, g, { fragOf 16 with active := 0xFF }⟩

theorem witness_elastic_waits : (arrays (stateOf besideQueued)).ctx? = some besideQueued ∧ besideQueued.gang.inRtu = true ∧
    ∀ i ∈ [Instr.eld 0 21 4 13 0 0, .est 0 10 4 13 0, .elen 21 4 0, .sld 21 4 0 0, .gld 0 10 4 13 0 0, .gst 0 10 4 13 0 0, .gatom 0 10 4 13 0 0 0,
      .fenceAcq 0 0, .fenceRel 0 0], fieldsOk i = true ∧ (use i).hintsOk besideQueued.hints = true ∧ valuesOk i besideQueued.hints = true := by decide +kernel

/-! ### Witnesses: walks, caches, units and the fault queue -/

/-- Tables whose entry for address 0 is a leaf of 64 KiB, of 2 MiB in 32 entries, and of 1 GiB in two. -/
def tables2M : Memory := [(0x10000, 1), (0x10002, 2), (0x20000, 1), (0x20002, 3)] ++
  (List.range 32).flatMap fun j => [(0x30000 + 8 * j, 0xF), (0x30000 + 8 * j + 2, BitVec.ofNat 8 (0x20 + j))]
def tables1G : Memory := [(0x10000, 1), (0x10002, 2), (0x20000, 0xF), (0x20008, 0xF), (0x2000B, 0x20)]

/-- The state of the tables, with no translation buffered. -/
def walking (m : Memory) : State := { State.reset with mem := m, vfs := [(0, vfOf)] }

/-- An entry of a table in memory. -/
def pte (m : Memory) (x : Nat) : Nat := ofBytes (Memory.bytes m x 8)

theorem witness_page_walk : ((walking tables).vf 0).root * 2 ^ 16 = 0x10000 ∧ pte tables 0x10000 = 0x20001 ∧ pte tables 0x20000 = 0x30001 ∧
    pte tables 0x30000 = 0x10006F ∧ pte tables 0x30008 = 0 ∧ pte tables2M 0x30000 = 0x20000F ∧ (0x20000F / 2 ^ 16 % 2 ^ 36) % 32 = 0 ∧
    (∀ j ∈ List.range 32, pte tables2M (0x30000 + 8 * j) = 0x20000F + j * 2 ^ 16) ∧ pte tables1G 0x20000 = 0xF ∧
    pte tables1G 0x20008 = 0xF + 2 ^ 29 ∧ pte [] 0x10000 = 0 ∧ ((walking tables).core 0).tlb = [] ∧ ((walking tables).die 0).tlb = [] := by decide +kernel

theorem witness_tlb_invalidation : (let d (go done : Bool) : State := { State.reset with
      dies := [(0, { Die.reset with
        tlbictl := (if done then 0x40000000 else 0)
        tlbi := if done then none else some (0, 0x10000, if go then 31 else 1) })]
      cores := [(0, { coreOf with requests := if go then [] else [⟨0, 0x1FFFF, 0x1010, 2, 0x10006F, 0, false⟩, ⟨0, 0x20000, 0x1010, 4, 0x10006F, 0, false⟩] })] }
    bit ((d false true).die 0).tlbictl 30 = true ∧ bit ((d false false).die 0).tlbictl 30 = false ∧ bit ((d true false).die 0).tlbictl 30 = false ∧
    ((d true false).die 0).tlbi = some (0, 0x10000, 31) ∧ ((d false false).die 0).tlbi = some (0, 0x10000, 1) ∧
    ((d true false).core 0).requests = [] ∧ ((d false false).core 0).requests.length = 2) ∧ bit (0x80000003 : BitVec 32) 31 = true ∧ bit (3 : BitVec 32) 31 = false := by decide +kernel

/-- Core 0 has asked for a sector of PA 0x101000 and its L1 has a line with a written byte; the remote partition has a written line, the L2 and
the Cavern hold a line. -/
def caching : State := { stateOf (cx 16) with
  cores := [(0, { coreOf with
    requests := [⟨0, 0x1040, 0x1010, 2, 0x10006F, 0, false⟩]
    l1 := [⟨0, 0x1010, 0x10006F, 0, 2 ^ 64, [(64, 9)], 0⟩, ⟨0, 0x1020, 0x10006F, 1, 1, [(0, 5)], 0⟩] })]
  dies := [(0, { Die.reset with
    remote := [⟨0, 0x1030, 0x10006F, 1, 1, [(0, 6)], 0⟩]
    l2 := [⟨0x1040, 1, 0, 0, 0, 3, 4⟩]
    cavern := [⟨0x1050, 1, 0, 0, 0, 0, 0⟩] })] }

theorem witness_caches : ((caching.core 0).requests.find? fun r => decide (r.num = 0x1010) && decide (1 < 4) && bit r.sectors 1) = some ⟨0, 0x1040, 0x1010, 2, 0x10006F, 0, false⟩ ∧
    pteClv 0x10006F = 0 ∧ bit (lineOf (caching.core 0).l1 0 0x1010 0x10006F).valid 1 = false ∧
    caching.remoteHeld 0 (0x1010 * 256 + 64) 0x10006F = false ∧ (getLine (caching.core 0).l1 0 0x1010).isSome = true ∧
    (((caching.core 0).l1.find? fun l => decide (l.num = 0x1020)).map Line.dirty) = some 1 ∧
    (((caching.die 0).remote.find? fun l => decide (l.num = 0x1030)).map Line.dirty) = some 1 ∧
    ((caching.die 0).l2.find? fun h => decide (h.num = 0x1040)).isSome = true ∧
    ((evictFirst (fun x => x.evp.toNat) ((caching.die 0).cavernVictims (paStack (0x1050 * 256)) 0)).any (fun h => decide (h.num = 0x1050))) = true := by
  decide +kernel

theorem witness_cache_mates : (∀ x ∈ (caching.die 0).l2, x.num = 0x1040 → x = ⟨0x1040, 1, 0, 0, 0, 3, 4⟩) ∧ (⟨0x1040, 1, 0, 0, 0, 3, 4⟩ : Held) ∈ (caching.die 0).l2 ∧
    (∀ x ∈ (caching.die 0).l2, x.evp.toNat ≠ 2 ∧ x.evp.toNat ≠ 1) ∧ (∀ x ∈ (caching.die 0).cavern, x.num = 0x1050 → x.slice = 0 ∧ x.set = 0) ∧
    (∀ x ∈ (caching.die 0).remote, pteEvp x.leaf ≠ 2 ∧ pteEvp x.leaf ≠ 1) := by decide +kernel

/-- Units that drain in quadrant 0, twenty surge requests that came at cycle 0, and an epoch that has ended. -/
def arbiting : State := { stateOf (cx 16) with
  cores := [(0, { coreOf with quads := [(0, ⟨[(5, none), (6, none)], none, false, none, [], [], []⟩)] })]
  dies := [(0, { Die.reset with
    cycle := 128, surge := [⟨⟨0, 0, 0⟩, 0, 0, 0, 0, false⟩, ⟨⟨1, 0, 0⟩, 0, 1, 0, 0, false⟩], granted := 15, window := 4, ref := 2 ^ 20
    rcgCount := [(1, 300)] })] }

theorem witness_arbiters : ((arbiting.core 0).quad 0).draining ≠ [] ∧ (arbiting.die 0).surge ≠ [] ∧ (arbiting.die 0).window = (arbiting.die 0).cycle / 32 ∧
    (arbiting.die 0).granted < 16 ∧ ((arbiting.die 0).surge.find? fun x => decide (x.ref = ⟨0, 0, 0⟩) && !x.ramped) = some ⟨⟨0, 0, 0⟩, 0, 0, 0, 0, false⟩ ∧
    0 + 128 ≤ (arbiting.die 0).cycle ∧ (arbiting.gang? 0 0).isSome = true ∧
    (arbiting.die 0).epoch + 2 ^ ((arbiting.die 0).cavctl.toNat % 32) ≤ (arbiting.die 0).ref := by decide +kernel

/-- A waiting entry with tag 7, and a fragment that waits on tag 9 alone, which is posted, and then on none. -/
def failed (tags : List Nat) : Ctx := cx 16 (f := fun f => { f with wait := some (.pageFault tags) })

def failedState (tags : List Nat) : State := { stateOf (failed tags) with vfs := [(0, { vfOf with
  fqWaiting := [⟨0x40000, 0, 0, 0, 1, 0, 2, 0, 7⟩]
  suspended := [⟨⟨0, 0, 0⟩, 9, 0x40000, 0, 0xA0000000, none, 0, tags⟩] })] }

theorem witness_fault_queue : (let v := (failedState [9]).vf 0
    v.fqWaiting.length = 1 ∧ (v.fqTail.toNat + 2 ^ 32 - v.cfg 44 4 % 2 ^ 32) % 2 ^ 32 < 2 ^ v.cfg 40 1 ∧
    (v.fqWaiting.any fun e => e.tag == 9) = false ∧ (v.suspended.find? fun y => y.tags.contains 9).isSome = true ∧
    (v.fqWaiting.any fun e => e.tag == 7) = true ∧ v.hentry ≠ 0 ∧
    (let slot := v.cfg 32 8 + 32 * (v.fqTail.toNat % 2 ^ v.cfg 40 1)
     slot + 32 ≤ 2 ^ 52 ∧ ∀ a ∈ [slot, slot + 31], a / 2 ^ 40 % 64 = 0 ∧ a / 2 ^ 39 % 2 = 0 ∧ (failedState [9]).absent a = false)) ∧
    (failedState [9]).team? 0 = some (failed [9]).team ∧ (failed [9]).gang.handler = none ∧
    (((failedState []).vf 0).suspended.find? fun y => decide (y.ref.team = 0) && decide (y.ref.gang = 0) && y.tags.isEmpty).isSome = true ∧
    (match (failedState [9]).devPages 0 kStore true ((failed [9]).team.recordAddr 0).toNat 64 with
      | .ok l => decide (l = [page0])
      | .error _ => false) = true := by decide +kernel

theorem witness_full_fault_queue : (let v := ({ vfOf with fqTail := 16, fqWaiting := [⟨0x40000, 0, 0, 0, 1, 0, 2, 0, 7⟩] } : Vf)
    2 ^ v.cfg 40 1 ≤ (v.fqTail.toNat + 2 ^ 32 - v.cfg 44 4 % 2 ^ 32) % 2 ^ 32) := by decide +kernel

/-- A ring whose slot names no byte of memory (assumption 128): the entry is dropped with an event. -/
theorem test_lost_post : (let s := (failedState [9]).modVf 0 fun v => v.setCfg 32 8 (2 ^ 39)
    match exec (.faultQueuePost 0) s with
    | .next t => decide (t.mem = s.mem ∧ (t.vf 0).fqTail = 1 ∧ (t.vf 0).fqWaiting = [] ∧ t.flow.next = s.flow.next + 1)
    | _ => false) = true := by decide +kernel

/-- A state whose fragment stands at `sadd s3, s3, s2`. -/
def fetching : State := { stateOf (cx 16) with mem := Memory.store tables 0x100100 (toBytes 0x20063100 4) }

theorem witness_handler_entry : (match fetching.fetchUnit ⟨0, 0, 0⟩ with
    | .run i t => decide (i = .sadd 3 3 2 0) && decide (t.ctx? = some (cx 16)) && decide ((t.vf 0).hentry ≠ 0) &&
        (match t.devPages 0 kStore true 0x5000 64 with
          | .ok l => decide (l = [page0])
          | .error _ => false)
    | .done _ => false) = true ∧ (18 : Nat) ≤ 18 ∧ (0 : Nat) ≠ 16 := by decide +kernel

/-- The address of an entry in package 1, which is absent from the domain of `walking`. -/
def awayPa : Nat := 2 ^ 46 + 0x10000

theorem witness_absent_tables : (let s := walking (Memory.store [] 0x10000 (toBytes (2 ^ 46 + 0x20001) 8))
    s.absent awayPa = true ∧ s.absent 0x10000 = false ∧ pte s.mem 0x10000 = 2 ^ 46 + 0x20001 ∧ s.absent (2 ^ 46 + 0x20000) = true) := by
  decide +kernel

/-- Lines of the absent package: a request for one and a written one, and a written line of the home L2 whose EVP lets the Cavern hold it. -/
def awayLine : Nat := awayPa / 256
def cachingAway : State := { caching with
  cores := [(0, { coreOf with requests := [⟨0, 0x1040, awayLine, 2, 0x10006F, 0, false⟩] })]
  dies := [(0, { Die.reset with
    remote := [⟨0, awayLine, 0x10006F, 1, 1, [(0, 6)], 0⟩]
    l2 := [⟨0x1040, 1, 1, 0, 0, 3, 4⟩] })] }

theorem witness_absent_lines : ((cachingAway.core 0).requests.find? fun r => decide (r.num = awayLine) && decide (1 < 4) && bit r.sectors 1) =
      some ⟨0, 0x1040, awayLine, 2, 0x10006F, 0, false⟩ ∧ cachingAway.absent (awayLine * 256) = true ∧
    (((cachingAway.die 0).remote.find? fun l => decide (l.num = awayLine)).map Line.dirty) = some 1 ∧
    (∀ h ∈ (cachingAway.die 0).l2, h.num = 0x1040 ∧ h.dirty ≠ 0 ∧ h.evp ≠ 3 ∧ h.evp.toNat ≠ 2 ∧ h.evp.toNat ≠ 1) ∧ (cachingAway.die 0).l2.length = 1 ∧
    (cachingAway.die 0).cavern = [] := by decide +kernel

theorem test_cavern_merge : (match exec (.lineEviction 2 0 0x1040) cachingAway with
    | .next t => (t.die 0).cavern.map fun x => (x.num, x.dirty.toNat)
    | _ => []) = [(0x1040, 1)] := by decide +kernel

/-- A ring of the fault queue in an absent package. -/
theorem witness_absent_ring : (let s := (failedState [9]).modVf 0 fun v => v.setCfg 32 8 awayPa
    let v := s.vf 0
    s.absent (v.cfg 32 8 + 32 * (v.fqTail.toNat % 2 ^ v.cfg 40 1)) = true ∧ v.fqWaiting.length = 1 ∧
    (v.fqTail.toNat + 2 ^ 32 - v.cfg 44 4 % 2 ^ 32) % 2 ^ 32 < 2 ^ v.cfg 40 1) := by decide +kernel

/-- A copy to host memory, at its first move. -/
def hostCopy : Copy := { farCopy with next := 0, shape := { farCopy.shape with dbase := 0x2000 } }
def hostCopying : State := { flying [hostCopy] false 1 with
  mem := Memory.store tables 0x30000 (toBytes (2 ^ 44 + 0x10006F) 8)
  cores := [(0, { (flying [hostCopy] false 1).core 0 with tlb := [⟨0, 0, 65536, BitVec.ofNat 64 (2 ^ 44 + 0x10006F)⟩] })] }

theorem witness_host_copy : hostCopying.copy? 0 0 = some hostCopy ∧ hostCopy.done = false ∧ passes (hostCopying.nextMoveOf 0 0 hostCopy) = true ∧
    (hostCopying.hostByte 0 hostCopy).isSome = true := by decide +kernel

/-! ### Witnesses: the life of a team -/

/-- A grid of two teams of which none has been dispatched, on core 0 alone. -/
def smallKernel : Kernel := { entry := 0x100, width := 16, vregs := 16, bars := 1, queues := 0, lane := 0, twin := false, chamber := 2048, gallery := 0 }

def dispatching : State := { State.reset with
  mem := tables
  vfs := [(0, vfOf.setCfg 320 32 1)]
  grids := [(1, { oneTeamGrid smallKernel with teams := 2, next := 0 })] }

theorem witness_team_dispatch : SMap.wf dispatching.teams = true ∧ (let g := { oneTeamGrid smallKernel with teams := 2, next := 0 }
    SMap.get? dispatching.grids 1 = some g ∧ dispatching.scopesDone g = true ∧ g.det = false ∧ g.coop = false ∧ g.serial = false ∧
    dispatching.nextWork 0 = some (.team 1) ∧ (dispatching.sitesOf g 0).contains 0 = true ∧ g.nextOn 0 = some (0, none, 0) ∧
    (dispatching.roomForGrid 1 g 0).isSome = true) := by decide +kernel

/-- A die with one ready task. -/
def readyTask : Task := { bareTask 1 .ready with kernel := smallKernel }

def taskState : State := { dispatching with grids := [], dies := [(0, { Die.reset with tasks := [(65535, readyTask)] })] }

theorem witness_task_dispatch : SMap.wf taskState.teams = true ∧ taskState.nextWork 0 = some (.task 0 65535) ∧
    SMap.get? (taskState.die 0).tasks 65535 = some readyTask ∧ taskState.serialTask 0 = none ∧
    readyTask.state = .ready ∧ taskState.serialSet readyTask = false ∧ readyTask.home = 0 ∧
    (taskState.taskSites readyTask 0).contains 0 = true ∧ (taskState.roomAt 0 0 0 smallKernel 1).isSome = true := by decide +kernel

/-- A task of the set of a grid that runs serially, whose turn it is. -/
def serialState : State := { dispatching with
  grids := [(1, { oneTeamGrid smallKernel with det := true, serial := true, finished := 1, teams := 2, next := 1, logical := [0], detNext := [(0, 2)] })]
  dies := [(2, { Die.reset with tasks := [(7, { readyTask with set := some 1, det := true, lidx := 1, home := 2 })] })] }
theorem witness_serial_task : serialState.serialTask 0 = some (2, 7) ∧ serialState.serialSet { readyTask with set := some 1, det := true, lidx := 1, home := 2 } = true ∧
    (serialState.roomAt 0 0 0 smallKernel 1).isSome = true := by decide +kernel

/-- A team of grid 1 without gangs that has staged one byte, and one that has staged none. -/
def retiring (l : List Nat) : State := { stateOf (cx 16) with teams := [(0, { teamOf 16 with
  staged := true
  gangs := []
  staging := ⟨l, l.map fun a => (a, 5), l.map fun a => .byte a 5, [], 0⟩ })] }

/-- A team that has been stopped for a cause. -/
def stopped (x : StopCause) : State := { stateOf (cx 16) with teams := [(0, { (cx 16).team with stopped := some x })] }

theorem witness_ends_of_teams : ((retiring [0x800]).team? 0).isSome = true ∧ (retiring [0x800]).teamCopies 0 = false ∧
    (match (retiring [0x800]).xlate 0 0 0x800 2 false with
      | .ok x => decide (x.pa 0x800 = 0x100800)
      | .error _ => false) = true ∧ (retiring [0x800]).absent 0x100800 = false ∧
    (∀ x ∈ [StopCause.expired, .dropped, .retry, .fault 9], ((stopped x).team? 0).isSome = true ∧ (stopped x).teamBusy 0 (cx 16).team = false ∧
      (SMap.get? (stopped x).grids 1).isSome = true) ∧ (cx 16).team.own = .grid 1 := by decide +kernel

/-- A team stopped for a fault while an operation that it has issued waits in the queue of die 0's unit: it ends once that has been performed. -/
def stoppedOp : State := { queuedOpState with teams := [(0, { queuedOp.team with stopped := some (.fault 9) })] }

theorem test_stop_waits_for_operation : stoppedOp.teamBusy 0 queuedOp.team = true ∧
    (match exec (.teamEndForFault 0 9) stoppedOp, exec (.rtuOperation 0) stoppedOp with
      | .fault .notEnabled, .next t => decide (sAfter (.next t) 20 = 4) && match exec (.teamEndForFault 0 9) t with
        | .next u => (u.team? 0).isNone
        | _ => false
      | _, _ => false) = true := by decide +kernel

/-- A grid that has ended, with a status word at 0x800. -/
def endedGrid (a : Word) : Grid := { oneTeamGrid smallKernel with finished := 1, nbad := 1, firstBad := 0, badCode := 5, statusAddr := a }
def endedGridState (a : Word) : State := { walking tables with grids := [(1, endedGrid a)] }

theorem witness_grid_end : SMap.get? (endedGridState 0).grids 1 = some (endedGrid 0) ∧ (endedGrid 0).teams ≤ (endedGrid 0).finished ∧
    ((endedGridState 0).vf 0).head = ((endedGridState 0).vf 0).tail := by decide +kernel

theorem witness_grid_end_status : SMap.get? (endedGridState 0x800).grids 1 = some (endedGrid 0x800) ∧
    (endedGrid 0x800).teams ≤ (endedGrid 0x800).finished ∧ ((endedGridState 0x800).vf 0).head = ((endedGridState 0x800).vf 0).tail ∧
    (match (endedGridState 0x800).devPages 0 2 false 0x800 8 with
      | .ok l => decide (l = [page0])
      | .error _ => false) = true := by decide +kernel

/-- A staged team of grid 1 without gangs, with writes and withheld operations. -/
def retiringWith (own : Owning) (ws : List StagedWrite) (ops : List StagedOp) : State := { stateOf (cx 16) with
  grids := [(1, { oneTeamGrid (kernelOf 16) with det := true, donec := some 3 })]
  dies := [(0, { Die.reset with tasks := [(3, { bareTask 2 .running with decc := some 2, stat := 0x800 })], counters := [(2, ⟨5, false⟩)] })]
  cores := [(0, { coreOf with tlb := [⟨0, 0, 65536, 0x10006F⟩] })]
  teams := [(0, { teamOf 16 with
    own := own
    staged := true
    gangs := []
    staging := ⟨[], [], ws, ops, 0⟩ })] }

/-- The team of a state can retire, and each of its writes reaches the page at 0x100000 without a change of its entry. -/
def retires (s : State) : Bool :=
  match s.team? 0 with
  | none => false
  | some u => u.staged && u.gangs.isEmpty && decide (u.stopped = none) && decide (u.status = .running) && decide ((s.recorded u).2 = none) &&
      !(s.teamCopies 0) && u.staging.writes.all fun w =>
        let p : Nat × Nat := match w with | .byte va _ => (va, 2) | .red va _ => (va, 3)
        !(s.absent (0x100000 + p.1)) && match s.xlate 0 0 p.1 p.2 false with
          | .ok x => decide (x.ptes = [] ∧ x.pa p.1 = 0x100000 + p.1)
          | .error _ => false

theorem witness_retirements : ([Owning.grid 1, .task 0 3].all fun own =>
      [[], [StagedOp.depset 1 7, .refused 0 2, .depdec 1 1, .spawn 0 9 0 (bareTask 4 .held)]].all fun ops =>
      [[], [StagedWrite.byte 0x800 5, .red 0x802 0x00606060, .byte 0x803 7]].all fun ws => retires (retiringWith own ws ops)) = true ∧
    SMap.get? ((retiringWith (.task 0 3) [] []).die 0).tasks 3 = some { bareTask 2 .running with decc := some 2, stat := 0x800 } ∧
    (match (retiringWith (.task 0 3) [] []).devPages 0 2 false 0x800 8 with
      | .ok l => decide (l = [page0])
      | .error _ => false) = true ∧ (retiringWith (.task 0 3) [] []).dies.length = 1 ∧ ((retiringWith (.task 0 3) [] []).core 0).l1 = [] := by decide +kernel

/-- A deterministic team whose digest a replay compares, and a task of a grid's set. -/
theorem witness_discards : (let s := { stopped .dropped with teams := [(0, { (cx 16).team with own := .task 0 3, stopped := some .dropped })], dies := [(0, { Die.reset with tasks := [(3, bareTask 2 .running)] })] }
    SMap.get? (s.die 0).tasks 3 = some (bareTask 2 .running) ∧ (bareTask 2 .running).stat = 0 ∧ s.teamCopies 0 = false) ∧
    (let g := { endedGrid 0 with donec := some 3 }
     let s : State := { endedGridState 0 with grids := [(1, g)] }
     SMap.get? s.grids 1 = some g ∧ g.teams ≤ g.finished ∧ g.det = false ∧ (s.vf 0).head = (s.vf 0).tail) := by decide +kernel

/-- The same team, whose turn it is not. -/
def idle : State := { stateOf (cx 16) with turn := none }
def savedTeam : Team := { teamOf 16 with
  kernel := smallKernel, status := .saved, chSize := 1, laneBase := 0, laneSize := 0
  gangs := [(0, { (cx 16).gang with regSize := 4 })] }
def savedState : State := { dispatching with teams := [(0, savedTeam)] }

theorem witness_team_moves : idle.team? 0 = some (cx 16).team ∧ idle.canSave 0 (cx 16).team = true ∧ savedState.team? 0 = some savedTeam ∧
    (savedState.restoreSites savedTeam).contains 0 = true ∧ (savedState.roomToRestore savedTeam 0).isSome = true ∧
    (∀ x ∈ savedTeam.gangs, x.2.accs = []) ∧ (taskState.die 0).tasks.length = 1 ∧ readyTask.home ≠ 3 ∧
    ({ oneTeamGrid smallKernel with teams := 2, next := 0 } : Grid).nextOn 0 = some (0, none, 0) ∧
    (let u := (cx 16).team
     u.chSize = 64 ∧ 0 % u.chSize = 0 ∧ 192 + 64 ≤ 256 - (idle.core 0).galShare / 2048 ∧ u.frames = [] ∧ bit (idle.core 0).qown 63 = false ∧
     ∀ b ∈ idle.blocks 0, b ≠ (u.chBase, u.chSize) → b.1 + b.2 ≤ 192 ∨ 192 + u.chSize ≤ b.1) ∧
    (cx 16).gang.regSize = 16 ∧ (∀ r ∈ idle.ranges, r.1 = 0 → r.2.1 = 0 → r.2.2.1 ≠ (cx 16).gang.regBase → r.2.2.1 + r.2.2.2 ≤ 112 ∨ 112 + 16 ≤ r.2.2.1) := by
  decide +kernel

/-- A team of function 0 whose slice of one microsecond has ended, while a team of a grid of function 1, or one of it that is saved, waits for
its place. -/
def wideKernel : Kernel := { smallKernel with chamber := 131072, lane := 1024 }
def waitingGrid : Grid := { oneTeamGrid wideKernel with vf := 1, next := 0, gangs := 16 }
def waitingTeam : Team := { savedTeam with vf := 1, own := .grid 2, kernel := wideKernel, chSize := 64, laneSize := 128 }
def slicing (saved : Bool) : State := { idle with
  vfs := [(0, vfOf.setCfg 304 4 1), (1, vfOf.setCfg 320 32 1)]
  grids := idle.grids ++ [(2, if saved then { waitingGrid with next := 1 } else waitingGrid)]
  teams := idle.teams ++ if saved then [(1, waitingTeam)] else []
  dies := [(0, { Die.reset with cycle := 2800 })] }

/-- The state with the teams of the slice saved. -/
def sliced (saved : Bool) : State := ((slicing saved).sliceTeams 1 [0]).foldl (fun v x => v.saveTeam x.1 x.2) (slicing saved)

theorem witness_slice_end : (∀ b ∈ [false, true], (0, (cx 16).team) ∈ (slicing b).sliceTeams 1 [0] ∧
      (∀ x ∈ (slicing b).sliceTeams 1 [0], (slicing b).canSave x.1 x.2 = true)) ∧
    (let g := waitingGrid
     SMap.get? (slicing false).grids 2 = some g ∧ g.vf = 1 ∧ g.det = false ∧ g.coop = false ∧ g.serial = false ∧
     (slicing false).roomForGrid 2 g 0 = none ∧
     [0] = distinct ((if g.cluster then (clusterGroup 0 g.clgrp).getD [] else []) ++ if g.twin then [0, 0 + 1] else [0]) ∧
     SMap.get? (sliced false).grids 2 = some g ∧ (sliced false).scopesDone g = true ∧ (sliced false).nextWork 0 = some (.team 2) ∧
     ((sliced false).sitesOf g 0).contains 0 = true ∧ (g.nextOn 0).isSome = true ∧ ((sliced false).roomForGrid 2 g 0).isSome = true) ∧
    (let w := waitingTeam
     (slicing true).team? 1 = some w ∧ w.vf = 1 ∧ w.status = .saved ∧ w.stopped = none ∧ w.coop = false ∧ w.group = none ∧
     (∀ x ∈ w.gangs, x.2.accs = []) ∧ (slicing true).roomToRestore w 0 = none ∧ w.kernel.twin = false ∧
     (sliced true).team? 1 = some w ∧ ((sliced true).restoreSites w).contains 0 = true ∧
     ((sliced true).roomToRestore w 0).isSome = true) := by decide +kernel

/-- A task of function 1 that is ready waits for the place of the team of function 0. -/
def waitingTask : Task := { bareTask 1 .ready with vf := 1, kernel := wideKernel, gangs := 16 }
def slicingTask : State := { slicing false with
  grids := idle.grids
  dies := [(0, { Die.reset with cycle := 2800, tasks := [(5, waitingTask)] })] }

theorem witness_slice_end_task : (let v := (slicingTask.sliceTeams 1 [0]).foldl (fun v x => v.saveTeam x.1 x.2) slicingTask
    (0, (cx 16).team) ∈ slicingTask.sliceTeams 1 [0] ∧ (∀ x ∈ slicingTask.sliceTeams 1 [0], slicingTask.canSave x.1 x.2 = true) ∧
    SMap.get? (slicingTask.die 0).tasks 5 = some waitingTask ∧ slicingTask.roomAt 1 0 0 wideKernel 16 = none ∧
    SMap.get? (v.die 0).tasks 5 = some waitingTask ∧ v.serialSet waitingTask = false ∧ (v.taskSites waitingTask 0).contains 0 = true ∧
    (v.roomAt 1 0 0 wideKernel 16).isSome = true) := by decide +kernel

/-- A team whose function gives its save area 2 bytes at 0x100900. -/
theorem witness_save_area : (let s := idle.modVf 0 fun v => (v.setCfg 72 8 0x100900).setCfg 80 8 2
    s.canSave 0 (cx 16).team = true ∧ (s.vf 0).cfg 72 8 = 0x100900 ∧ (s.vf 0).cfg 80 8 = 2) := by decide +kernel

/-- A task that no core of its die has room for, while one team stands on core 0, and a core of die 1 is free; slot 1 is held, slot 2 ready. -/
def largeTask : Task := { readyTask with kernel := { smallKernel with chamber := 131072, lane := 1024 }, gangs := 16 }

def crowded (own : Owning) (x : TaskState) : State := { idle with
  vfs := [(0, vfOf.setCfg 320 32 (2 ^ 64 + 1))]
  grids := [(1, { oneTeamGrid smallKernel with teams := 2, next := 0 })]
  teams := [(0, { (cx 16).team with own := own, status := if x = .suspended then .saved else .running })] ++
    if x = .suspended then [(1, (cx 16).team)] else []
  dies := [(0, { Die.reset with tasks := [(0, { bareTask 1 x with kernel := kernelOf 16 }), (1, { largeTask with state := .held }), (2, largeTask)] })] }

theorem witness_migrations : (∀ x ∈ [TaskState.running, .suspended],
      (crowded (.task 0 0) x).overloaded 0 = true ∧ (crowded (.task 0 0) x).freeSlots ((crowded (.task 0 0) x).taskSites { bareTask 1 x with kernel := kernelOf 16 } 1) = true ∧
      (crowded (.task 0 0) x).teamOfTask 0 0 = some 0 ∧ (crowded (.task 0 0) x).serialSet { bareTask 1 x with kernel := kernelOf 16 } = false ∧
      SMap.get? ((crowded (.task 0 0) x).die 0).tasks 0 = some { bareTask 1 x with kernel := kernelOf 16 }) ∧
    (crowded (.task 0 0) .running).canSave 0 { (cx 16).team with own := .task 0 0 } = true ∧
    (let s := crowded (.grid 1) .running
     let g : Grid := { oneTeamGrid smallKernel with teams := 2, next := 0 }
     s.overloaded 0 = true ∧ s.freeSlots (s.taskSites largeTask 1) = true ∧ s.serialSet largeTask = false ∧ largeTask.home = 0 ∧
     SMap.get? (s.die 0).tasks 1 = some { largeTask with state := .held } ∧ SMap.get? (s.die 0).tasks 2 = some largeTask ∧
     SMap.get? s.grids 1 = some g ∧ g.det = false ∧ s.freeSlots (s.sitesOf g 1) = true ∧ g.nextOn 0 = some (0, none, 0)) := by decide +kernel

/-- A core on which a task's lane slices find no block of 128 frames, though 128 frames are free. -/
def scattered : Team := { (cx 16).team with chBase := 64, laneBase := 192, laneSize := 64 }
def fragmentedState : State := { idle with
  vfs := [(0, vfOf.setCfg 320 32 1)]
  teams := [(0, scattered)]
  dies := [(0, { Die.reset with tasks := [(2, { readyTask with kernel := { smallKernel with chamber := 0, lane := 1024 }, gangs := 16 })] })] }

theorem witness_compactor : fragmentedState.fragmented 0 = true ∧ idle.fragmented 0 = false ∧ scattered.core = 0 ∧
    bit (fragmentedState.core 0).qown 63 = false ∧ scattered.frames = [] ∧
    (∀ b ∈ (fragmentedState.core 0).shareBlock ++ fragmentedState.blocks 0, (b ≠ (64, 64) → b.1 + b.2 ≤ 0 ∨ 0 + 64 ≤ b.1) ∧ (b ≠ (192, 64) → b.1 + b.2 ≤ 128 ∨ 128 + 64 ≤ b.1)) ∧
    (cx 16).gang.regSize = 16 ∧ (cx 16).gang.regBase = 0 ∧
    (∀ r ∈ fragmentedState.ranges, r.1 = 0 → r.2.1 = 0 → r.2.2.1 ≠ (cx 16).gang.regBase → r.2.2.1 + r.2.2.2 ≤ 112 ∨ 112 + 16 ≤ r.2.2.1) := by decide +kernel

/-- R138: a core whose top quarter is lent as a Gallery share and whose block of one frame at 0 leaves no block of 128 frames; moved to frame 128
it leaves one. -/
def lending : State := { idle with
  vfs := [(0, vfOf.setCfg 320 32 1)]
  cores := [(0, { coreOf with galShare := 131072, galTop := 256 })]
  teams := [(0, { (cx 16).team with chBase := 0, chSize := 1, laneBase := 0, laneSize := 0 })]
  dies := [(0, { Die.reset with tasks := [(2, { readyTask with kernel := { smallKernel with chamber := 0, lane := 1024 }, gangs := 16 })] })] }

theorem test_compactor_beside_share : lending.fragmented 0 = true ∧ (match exec (.compactorMove 0 32 128) lending with
    | .next t => (t.team? 0).map Team.chBase
    | _ => none) = some 128 := by decide +kernel

/-- A kernel of a cluster group, and its teams on cores 0 and 1. -/
def groupKernel : Kernel := { smallKernel with gallery := 2048 }
def groupTeam : Team := { (cx 16).team with kernel := groupKernel, group := some [0, 1], chSize := 1, laneBase := 0, laneSize := 0, gangs := [(0, { (cx 16).gang with regSize := 4 })] }
def grouped : State := { idle with
  grids := [(1, { oneTeamGrid groupKernel with cluster := true, teams := 2, next := 2, clgrp := 2 })]
  cores := [(0, { coreOf with galShare := 2048, galTop := 256 }), (1, { Core.reset with galShare := 2048 })]
  dies := [(0, { Die.reset with mergeGrid := [(0, 1)] })]
  teams := [(0, groupTeam), (1, { groupTeam with core := 1, index := 1, gangs := [(0, { (cx 16).gang with core := 1, regSize := 4 })] })] }

theorem witness_group_restore : (∀ x ∈ grouped.savedWith 0 groupTeam, grouped.canSave x.1 x.2 = true) ∧ (grouped.savedWith 0 groupTeam).length = 2 ∧
    ([0, 8].all fun core => match exec (.preempt 0) grouped with
      | .next t => match SMap.get? t.grids 1, t.team? 0 with
        | some g, some u =>
          let cs := [0, 1].map fun c => core / 8 * 8 + c % 8
          decide (u.own = .grid 1 ∧ u.group = some [0, 1] ∧ u.status = .saved ∧ u.stopped = none ∧ u.coop = false) &&
            (t.groupSites 1 g [0, 1]).contains cs && (t.restoreGroup 1 g [0, 1] cs (t.mates u.own u.group)).isSome
        | _, _ => false
      | _ => false) = true := by decide +kernel

/-! ### Witnesses: the host, outside agents, the Belvedere core and the board -/

/-- A function whose partition is core 0, with a ring of 16 slots at 0x800 whose first names the launch record at 0x700. -/
def ringing : State := withBytes { State.reset with
  mem := tables
  vfs := [(0, (vfOf.setCfg 320 32 1).setCfg 16 8 0x800)] } (launchRecords ++ [(0x800, 8, 0x700)])

theorem witness_ring : (let v := ringing.vf 0
    2 ^ v.cfg 24 1 < ((17 : BitVec 32) - v.head).toNat ∧ (0 : BitVec 32) = v.head ∧ (1 : BitVec 32) = v.head + 1 ∧ v.cfg 284 4 = 0) ∧
    (match (ringing.modVf 0 fun v => { v with tail := 1 }).ringRecord 0 0 with
    | (_, .error _) => false
    | (w, .ok bs) =>
      let r := readLaunch (devReader (w.ringDie 0) 0) w bs
      decide (r.1.launchCode 0 r.2 = 0) && (r.1.gridFor 0 (w.ringDie 0) r.2).isSome) = true := by decide +kernel

theorem witness_config_block : ringing.board.pkg < 64 ∧ (12, 4) ∈ blockFields ∧ (136, 8) ∈ blockFields ∧ (10, 1) ∈ blockFields ∧
    (136, 4) ∉ blockFields ∧ (∃ f ∈ blockFields, f.1 = 136 ∧ f.2 ≠ 4) ∧ (ringing.vf 0).cfg 10 1 = 0 ∧
    ∀ k ∈ [1, 2, 3], (vfOf.setCfg 10 1 k).cfg 10 1 = k := by decide +kernel

theorem witness_flush : (⟨0, 0x1020, 0x10006F, 1, 1, [(0, 5)], 0⟩ : Line) ∈ (caching.core 0).l1 ∧
    ∀ k x, (x ∈ (caching.core k).l1 ∨ ∃ d, x ∈ (caching.die d).remote) → x.num = 0x1020 → x = ⟨0, 0x1020, 0x10006F, 1, 1, [(0, 5)], 0⟩ := by
  refine ⟨by decide +kernel, fun k x h hx => ?_⟩
  obtain h | ⟨d, h⟩ := h
  · by_cases hk : k = 0 <;> simp [caching, stateOf, State.core, SMap.getD, SMap.get?, Core.reset, hk] at h
    · obtain rfl | rfl := h
      · simp at hx
      · rfl
    · simp [Ne.symm hk] at h
  · by_cases hd : d = 0 <;> simp [caching, State.die, SMap.getD, SMap.get?, Die.reset, hd] at h
    · subst h; simp at hx
    · simp [Ne.symm hd] at h

theorem witness_package_registers : (let s : State := { idle with dies := [(0, { Die.reset with
      remote := [⟨0, 0x20000000, 0x6F, 1, 1, [(0, 5)], 0⟩] })] }
    s.board.pkg < 64 ∧ (∀ l ∈ (s.die 0).remote, ∀ o ∈ List.range 256, s.homeDie (l.num * 256 + o) = some 1) ∧
    (∀ p ∈ s.teams, p.2.core ≠ 64 * 0 + 1 ∧ p.2.twin ≠ some (64 * 0 + 1))) ∧ (cx 16).team.core = 64 * 0 + 0 ∧
    idle.canSave 0 (cx 16).team = true ∧ idle.teams = [(0, (cx 16).team)] ∧ idle.reachReg 1 0x3F0000010800 4 = none ∧
    idle.reachReg 0 0x3F0000010800 8 = none ∧ idle.reachReg 0 0x3F0000010804 4 = none := by decide +kernel

/-- The page at address 0, its accesses from outside allowed and not. -/
def outside (leaf : Nat) : State := { walking (Memory.store tables 0x30000 (toBytes leaf 8)) with
  board := { State.reset.board with domain := 3 } }

theorem witness_outside_accesses : (∀ leaf ∈ [0x10006F, 0x10206F], ∀ kind ∈ [1, 2, 3], (match (outside leaf).devPages 0 kind true 0x800 8 with
      | .ok l => decide (l = [⟨0, 65536, leaf, [0x30000]⟩])
      | .error _ => false) = true) ∧
    (∀ kind ∈ [1, 2], (match (outside 0x10006F).devPages 0 kind true 0x20000 8 with
      | .ok _ => false
      | .error _ => true) = true) ∧ bit (0x10006F : Word) 13 = false ∧ bit (0x10206F : Word) 13 = true ∧
    (∀ i ∈ List.range 8, (outside 0x10206F).absent ((⟨0, 65536, 0x10206F, [0x30000]⟩ : Xlat).pa (0x800 + i)) = false ∧ 0x100800 + i ≠ 0x30000) ∧
    (let b := (outside 0).board
     (1 : Nat) ≠ b.pkg ∧ bit b.domain 1 = true ∧ bit b.failed 1 = false ∧ bit b.domain 2 = false ∧ 0x100800 / 2 ^ 46 % 64 = b.pkg) ∧
    0x100800 / 2 ^ 40 % 64 = 0 ∧ 0x100800 / 2 ^ 39 % 2 = 0 ∧ 0x100800 % 8 = 0 := by decide +kernel

/-- A Belvedere core whose gate queue holds an entry of KIND 1 and whose scratchpad holds the task record of `launchRecords` at 0x40 and no
record at 0x80. -/
def belvState : State := withBytes { State.reset with
  mem := tables
  vfs := [(0, vfOf)]
  dies := [(0, { Die.reset with
    gate := [⟨0x904, 0, ⟨List.replicate 8 0, false, 0⟩⟩]
    belv := { Die.reset.belv with
      scratch := Memory.bytes (withBytes { State.reset with mem := [] } launchRecords).mem 0x100640 64 |> Memory.store [] 0x40 } })] } launchRecords

theorem witness_belvedere : (belvState.die 1).gate = [] ∧ (belvState.die 0).gate = [⟨0x904, 0, ⟨List.replicate 8 0, false, 0⟩⟩] ∧
    (0x904 / 4 % 16 : Nat) = 1 ∧ (belvState.die 0).belv.gctx.toNat = 0 ∧
    (let a : BitVec 64 := 0x8000000000000800
     a.toNat / 2 ^ 62 = 2 ∧ (match belvState.devPages 0 1 false (a.toNat % 2 ^ 63) 8 with
      | .ok l => decide (l = [page0])
      | .error _ => false) = true) ∧
    (∀ i ∈ List.range 8, belvState.absent (page0.pa (0x800 + i)) = false) ∧
    (let a : BitVec 64 := 0xC000000000000800
     a.toNat / 2 ^ 62 = 3 ∧ a.toNat % 2 ^ 26 + 8 ≤ ((belvState.vf 0).grotto (a.toNat / 2 ^ 26 % 4)).2) ∧
    (∀ addr ∈ [0x40, 0x80], addr + 64 ≤ 262144 ∧
      (let bs := Memory.bytes (belvState.die 0).belv.scratch addr 64
       let r := readKernel (recordReader 0 0) belvState (fieldAt bs 0 8)
       if addr = 0x40 then taskBad (r.1.vf 0) ((belvState.die 0).attrSet 0 0).tenant r.2 bs = [] ∧ (r.1.freeSlot 0).isSome = true
       else taskBad (r.1.vf 0) ((belvState.die 0).attrSet 0 0).tenant r.2 bs ≠ [])) ∧
    (belvState.die 0).belv.depn = BitVec.ofNat 64 0 ∧ (belvState.vf 0).counters = (0, 4) := by decide +kernel

theorem witness_belvedere_accesses : (let v := belvState.vf 0
    (∀ a ∈ [(0x40000 : Nat), 0x3FFFD, 0x7FFFFFFFFFFFFFFF], a < 2 ^ 63 ∧ 262144 < a + 8) ∧
    (let a := 0xC000000000000000
     a / 2 ^ 62 = 3 ∧ a / 2 ^ 26 % 4 = 0 ∧ a % 2 ^ 26 + 8 ≤ (v.grotto 0).2 ∧ (v.grotto 0).2 < (a + (v.grotto 0).2 - 7) % 2 ^ 26 + 8)) ∧
    (match belvState.devPages 0 2 false 0x800 8 with
      | .ok l => decide (l = [page0])
      | .error _ => false) = true ∧
    (∀ kind ∈ [0, 1], (match belvState.devPages 0 (kind + 1) false 0x20000 8 with
      | .ok _ => false
      | .error _ => true) = true) := by decide +kernel

/-- The core's tables lead address 0 to the page of package registers that holds CAVCTL of die 0. -/
def registerPage : State := { belvState with mem := Memory.store tables 0x30000 (toBytes 0x3F000001006F 8) }

theorem witness_belvedere_registers : (∀ kind ∈ [1, 2], (match registerPage.devPages 0 kind false 0x800 4 true with
      | .ok l => decide (l = [⟨0, 65536, 0x3F000001006F, [0x30000]⟩])
      | .error _ => false) = true) ∧ (⟨0, 65536, 0x3F000001006F, [0x30000]⟩ : Xlat).pa 0x800 / 2 ^ 40 % 64 = 63 ∧
    (registerPage.reachReg 16 0x3F0000010800 4).isSome = true ∧ registerPage.reachReg 16 0x3F0000010804 4 = none := by decide +kernel

/-- R327, R373: the core reads CAVCTL; R56: an access of which a byte is not canonical faults. -/
theorem test_belvedere_pages : (∀ p ∈ [((0x8000000000000800 : BitVec 64), 4, false, 0x8414), (0x803FFFFFFFFFFFFC, 8, true, 0)],
    (match exec (.belvedereAccess 0 p.1 p.2.1 0 0) registerPage with
      | .next t => decide (((t.die 0).belv.accessFault, (t.die 0).belv.result.toNat) = p.2.2)
      | _ => false) = true) := by decide +kernel

/-- A core whose depn holds a name, in context 0. -/
def depNamed (n : Word) : State := { belvState with dies := [(0, { belvState.die 0 with belv := { (belvState.die 0).belv with depn := n } })] }

theorem witness_belvedere_counters : ((depNamed 0x40000).die 0).belv.depn.toNat = 2 ^ 18 ∧ ((depNamed 4).die 0).belv.depn.toNat = 4 ∧
    ((depNamed 3).die 0).belv.depn = BitVec.ofNat 64 3 ∧ ((depNamed 3).vf 0).counters = (0, 4) ∧ ((depNamed 3).die 0).belv.gctx = 0 := by decide +kernel

/-- A session of one expert with tiles of eight records. -/
def rcd : SessRec := ⟨0, 0x640, 0, 1, 1, 8, 1, 0, 0, 0, 0, 0, 0, 0, 0⟩
def opened : Session := ⟨rcd, [], 0, 0, [], false, 0, 0, []⟩

/-- An entry with the token, address, kind and session has been popped; the session's record stands at 0x900. -/
def gating (w : Nat) (x : List (Nat × Session)) : State := withBytes { State.reset with
  mem := tables
  vfs := [(0, vfOf)]
  dies := [(0, { Die.reset with
    sessions := x
    belv := { Die.reset.belv with popped := some ⟨BitVec.ofNat 64 w, 0, ⟨[], false, 0⟩⟩ } })] }
  (launchRecords ++ [(0x908, 8, 0x640), (0x914, 2, 1), (0x916, 1, 1), (0x917, 1, 8), (0x918, 4, 1)])

theorem witness_gate_entries : (∀ k ∈ [0, 1, 2, 3], ((gating (0x900 + 4 * k) []).die 0).belv.popped = some ⟨BitVec.ofNat 64 (0x900 + 4 * k), 0, ⟨[], false, 0⟩⟩ ∧
      (BitVec.ofNat 64 (0x900 + 4 * k)).toNat / 4 % 16 = k ∧ gateToken (BitVec.ofNat 64 (0x900 + 4 * k)) = 0 ∧
      gateAddr (BitVec.ofNat 64 (0x900 + 4 * k)) = 0x900 ∧ SMap.get? ((gating (0x900 + 4 * k) []).die 0).sessions 0 = none) ∧
    (let s := gating 0x904 []
     let e : GateEntry := ⟨0x904, 0, ⟨[], false, 0⟩⟩
     match belvReader 0 0 128 (s.takeEntry 0 e) 0x900 with
     | (w, some b) =>
       let x := w.templateWidth 0 0 0x640
       decide (parseSession b = rcd) && !x.1.sessionBad 0 0 b x.2 && decide ((x.1.counter 0).count = 0)
     | _ => false) = true ∧
    (let s := gating 0xA04 []
     match belvReader 0 0 128 (s.takeEntry 0 ⟨0xA04, 0, ⟨[], false, 0⟩⟩) 0xA00 with
     | (w, some b) =>
       let x := w.templateWidth 0 0 (parseSession b).taskt
       decide ((parseSession b).stat = 0) && x.1.sessionBad 0 0 b x.2
     | _ => false) = true := by decide +kernel

theorem witness_open_sessions : (let s := gating 0xA00 [(0, opened)]
     SMap.get? (s.die 0).sessions 0 = some opened ∧ opened.flushed = false ∧ rcd.k = 1 ∧ rcd.expmap = 0 ∧
     (belvReader 0 0 (4 * rcd.nexp) (s.takeEntry 0 ⟨0xA00, 0, ⟨[], false, 0⟩⟩) 0xA00).2.isSome = true ∧ 0 < rcd.cap * rcd.tw ∧ (0 + 1) % rcd.tw ≠ 0) ∧
    (let s := gating 8 [(0, opened)]
     SMap.get? (s.die 0).sessions 0 = some opened ∧ gateToken 8 = 0 ∧ gateAddr 8 = 0 ∧ opened.rcd.senders = 0 ∧ opened.sendSeq = [] ∧
     (∀ n ∈ List.range rcd.nexp, SMap.getD opened.lists n 0 % rcd.tw = 0) ∧ rcd.rcgb = 0 ∧ rcd.stat = 0) ∧
    SMap.get? ((gating 0xA04 [(0, opened)]).die 0).sessions 0 = some opened := by
  decide +kernel

/-- A row of an expert of the session of rows of 16 bytes at RXBASE 0xC00, its flush cell, and a cell with another CRC. -/
def rowCell (e : Nat) : Cell := mkCell 0 0x400 0 0 5 0 (toBytes 7 4 ++ toBytes e 2 ++ toBytes 0 2 ++ toBytes 0x3F800000 4 ++ toBytes 0 4 ++ List.replicate 16 9)
def flushCell : Cell := mkCell 0 0x400 0 0 0 1 []

def receiving (l : List Cell) : State := { State.reset with
  mem := tables
  vfs := [(0, vfOf)]
  dies := [(0, { Die.reset with
    sessions := [(0, { opened with rcd := { rcd with expmap := 0xB00, senders := 2, rowbytes := 16, rxbase := 0xC00 } })]
    received := l
    sent := l })] }

theorem witness_cells : (∀ c ∈ [rowCell 0, rowCell 1, flushCell], c.length = 256 ∧ crc16 (c.take 14 ++ (c.drop 16).take (fieldAt c 12 1)) = fieldAt c 14 2 ∧
      fieldAt c 13 1 ≤ 1 ∧ fieldAt c 12 1 ≤ 240 ∧ fieldAt c 6 1 = 0 ∧ fieldAt c 4 2 = 0x400 ∧ ((receiving []).die 0).cellSeen c = false ∧
      (((receiving [c]).die 0).openSession 0x400).any (fun p => decide (BitVec.ofNat 32 (fieldAt c 0 4) = p.2.flowNext 0x400)) = true ∧
      (((receiving [c]).die 0).sent.find? fun c => fieldAt c 6 1 == 0 && fieldAt c 4 2 == 0x400 && fieldAt c 0 4 == 0 && fieldAt c 7 1 == 0) = some c) ∧
    fieldAt (rowCell 0) 13 1 = 0 ∧ fieldAt flushCell 13 1 = 1 ∧ fieldAt ((rowCell 1).drop 16) 4 2 = 1 ∧ 0 < rcd.cap * rcd.tw ∧ (0 + 1) % rcd.tw ≠ 0 ∧
    (List.replicate 256 (0 : Byte)).length = 256 ∧ fieldAt (List.replicate 256 (0 : Byte)) 14 2 ≠ crc16 (List.replicate 14 0) ∧
    ((((receiving [rowCell 0]).modDie 0 fun d => { d with received := [] }).modSession 0 0 fun y => { y with recvSeq := SMap.set y.recvSeq 0x400 1 }).dieWrite 0 0 false 0xC00
      (List.replicate 16 9)).isSome = true := by decide +kernel

/-- A cell of a round before leaves where a session opens, but for one that a session of another context is still to take. -/
theorem test_open_cells : (let r : SessRec := { rcd with senders := 2 }
    let cells (l : List (Nat × Session)) (x : SessRec) : List Cell :=
      ((({ State.reset with dies := [(0, { Die.reset with received := [rowCell 0], sessions := l })] } : State).openFlows 0 0 x).die 0).received
    cells [] r = [] ∧ cells [] rcd = [rowCell 0] ∧ cells [(4, { opened with rcd := r })] r = [rowCell 0] ∧
    cells [(4, { opened with rcd := r, recvSeq := [(0x400, 1)] })] r = []) := by decide +kernel

/-- A session whose flush is under way. -/
def closing (n lists : Nat) : Session := { opened with flushed := true, closing := n, lists := [(0, lists)] }

theorem witness_flush_steps : ((gating 8 [(0, closing 1 8)]).die 0).belv.vendor = true ∧
    (∃ p ∈ ((gating 8 [(0, closing 1 8)]).die 0).sessions, p.2.closing ≠ 0) ∧
    (∀ x ∈ [closing 1 8, closing 1 7, closing 3 8], SMap.get? ((gating 8 [(0, x)]).die 0).sessions 0 = some x) ∧ (closing 1 8).closing = 2 * 0 + 1 ∧
    (closing 3 8).closing = 2 * 1 + 1 ∧ rcd.nexp ≤ 1 ∧ SMap.getD (closing 1 8).lists 0 0 % rcd.tw = 0 ∧ SMap.getD (closing 1 7).lists 0 0 % rcd.tw ≠ 0 ∧ rcd.tw ≤ 32 ∧
    ((gating 8 [(0, closing 1 7)]).freeSlot 0).isSome = true ∧ rcd.senders &&& ~~~(closing 1 8).flushCells = 0 ∧
    ({ opened with rcd := { rcd with senders := 3 } } : Session).rcd.senders &&& ~~~(1 : BitVec 64) ≠ 0 := by decide +kernel

/-- The last flush cell of a round that waits for it, and the step after it. -/
def lastFlush (n : Nat) : State := (receiving [flushCell]).modSession 0 0 fun x => { x with flushed := true, closing := n, rcd := { x.rcd with senders := 2 } }

theorem witness_flush_cells : (∀ n ∈ [0, 2, 4], ((lastFlush n).die 0).belv.vendor = true ∧ ((lastFlush n).die 0).belv.popped = none ∧ ((lastFlush n).die 0).received = [flushCell] ∧
      (((lastFlush n).die 0).openSession 0x400).any (fun p => decide (BitVec.ofNat 32 (fieldAt flushCell 0 4) = p.2.flowNext 0x400)) = true) ∧
    (∀ p ∈ ((lastFlush 0).die 0).sessions, p.2.closing = 0 ∧ p.2.flushed = true ∧
      p.2.rcd.senders &&& ~~~(p.2.flushCells ||| BitVec.ofNat 64 (2 ^ (0x400 / 1024))) = 0) ∧
    (∀ p ∈ ((lastFlush 2).die 0).sessions, p.2.closing = 2 * 0 + 2 ∧ SMap.getD p.2.lists 0 0 % p.2.rcd.tw = 0) ∧
    (∀ p ∈ ((lastFlush 4).die 0).sessions, p.2.closing = 2 * 1 + 2 ∧ p.2.rcd.nexp ≤ 1) := by decide +kernel

theorem witness_board : bit State.reset.board.railsDown 3 = false ∧ (let b := (outside 0).board
    (1 : Nat) ≠ b.pkg ∧ bit b.domain 1 = true ∧ bit b.failed 1 = false) ∧ State.reset.flow.frozen = false ∧
    ({ State.reset.flow with frozen := true } : Flowstone).frozen = true ∧ ({ State.reset.board with held := true } : Board).held = true ∧
    (vfOf.setCfg 10 1 2).cfg 10 1 = 2 ∧ ({ State.reset.board with freq := [(0, 900)] } : Board).freq = [(0, 900)] := by decide +kernel

/-- A package held in reset, whose next input is a doorbell. -/
theorem witness_held : (let s : State := { State.reset with board := { State.reset.board with held := true }, inputs := [.doorbellTailWrite 0 1] }
    s.board.held = true ∧ s.turn = none ∧ s.inputs = .doorbellTailWrite 0 1 :: [] ∧ reachesHeld (.doorbellTailWrite 0 1) = false ∧
    s.passesOver (.doorbellTailWrite 0 1) = true) := by decide +kernel

theorem witness_register_reads : (idle.reachReg 0 0x3F0000010800 4).isSome = true ∧ (idle.reachReg 16 0x3F0000010800 4).isSome = true ∧
    idle.reachReg 16 0x3F0000010804 4 = none ∧ SMap.get? (idle.die 0).mergeGrid 0 = none := by decide +kernel

/-- A core that lends frames to the Gallery share of a group that stands on other cores too. -/
theorem witness_lent_frames : (let s : State := { grouped with teams := [(0, { groupTeam with core := 1, group := some [0, 1], gangs := [(0, { (cx 16).gang with core := 1, regSize := 4 })] })] }
    (s.core 0).galShare ≠ 0 ∧ (∀ p ∈ s.teams, p.2.group = some [0, 1] ∧ p.2.core ≠ 0 ∧ p.2.twin ≠ some 0 ∧ s.canSave p.1 p.2 = true) ∧
    (s.core 2).galShare = 0 ∧ s.board.pkg < 64) := by decide +kernel

/-- An atomic lane that adds residue words, and a float reduction. -/
theorem witness_lane_operations : (∀ op ∈ [10, 16, 47], (op ≤ 10 ∧ (4 = 4 ∨ 4 = 8)) ∨ (16 ≤ op ∧ op < 48 ∧ 4 = 4)) ∧ 0x100800 % 4 = 0 ∧
    0x100800 / 2 ^ 40 % 64 = 0 ∧ 0x100800 / 2 ^ 39 % 2 = 0 ∧ 0x100800 / 2 ^ 46 % 64 = (outside 0).board.pkg := by decide +kernel

theorem witness_nothing_awaited : (cx 16).gang.awaits false = [] ∧ framesWait.gang.awaits false = [9] ∧
    (gating 0x900 []).die 0 = { (gating 0x900 []).die 0 with belv := { ((gating 0x900 []).die 0).belv with work := [], vendor := true } } := by decide +kernel

/-- Route entries of an open session of one expert: at a session whose flush has come, at a list that fills a tile, and where it is full. -/
theorem witness_route_entries : (let s := gating 0xA00 [(0, { opened with flushed := true })]
      (s.die 0).belv.work = [] ∧ SMap.get? (s.die 0).sessions 0 = some { opened with flushed := true } ∧ (0xA00 / 4 % 16 : Nat) = 0) ∧
    (let s := gating 0xA00 [(0, { opened with lists := [(0, 7)] })]
     (s.die 0).belv.work = [] ∧ (7 + 1) % rcd.tw = 0 ∧ 7 < rcd.cap * rcd.tw ∧
     rcd.gbase + 16 * 7 + 16 ≤ ((s.vf 0).grotto 0).2) ∧
    (let s := gating 0xFFF04 []
     (belvReader 0 0 128 (s.takeEntry 0 ⟨0xFFF04, 0, ⟨[], false, 0⟩⟩) 0xFFF00).2.isNone = true ∧ gateToken 0xFFF04 = 0 ∧ gateAddr 0xFFF04 = 0xFFF00) ∧
    (let s := gating 8 [(0, { opened with closing := 1, flushed := true, lists := [(0, 7)] })]
     rcd.gbase + 16 * 7 + 16 ≤ ((s.vf 0).grotto 0).2 ∧ (s.freeSlot 0).isSome = true) := by decide +kernel

/-- Work of the firmware: the spawn of a tile, and a record of a session whose list is full. -/
def working (w : BelvWork) : State := (gating 0x900 [(0, { opened with lists := [(0, 8)] })]).modDie 0 fun d => { d with belv := { d.belv with
  popped := none
  work := [w] } }

theorem witness_belvedere_work : (∀ w ∈ [BelvWork.tile 0 0 0 8, .record 0 5 0 0 0], ((working w).die 0).belv.work = [w] ∧
      ((working w).die 0).belv.vendor = true ∧ SMap.get? ((working w).die 0).sessions 0 = some { opened with lists := [(0, 8)] } ∧
      ((working w).freeSlot 0).isSome = true) ∧ rcd.expmap = 0 ∧ rcd.cap * rcd.tw ≤ 8 := by decide +kernel

/-- A row that fills a tile, and one whose page is not mapped. -/
theorem witness_row_delivery : (∀ p ∈ [(0xC00, true), (0x40000, false)],
    let s := (receiving [rowCell 0]).modSession 0 0 fun x => { x with lists := [(0, 7)], rcd := { x.rcd with rxbase := p.1 } }
    (((s.modDie 0 fun d => { d with received := [] }).modSession 0 0 fun y => { y with recvSeq := SMap.set y.recvSeq 0x400 1 }).dieWrite 0 0 false (p.1 + 7 * 16)
      (List.replicate 16 9)).isSome = p.2 ∧ (s.die 0).belv.work = [] ∧ 0 + 16 * 7 + 16 ≤ ((s.vf 0).grotto 0).2) := by decide +kernel

/-- Replacement firmware with a receive ring of two cells at 0x100. -/
def ringed : State := { State.reset with dies := [(0, { Die.reset with belv := { Die.reset.belv with vendor := false, crx := 0x200000100 } })] }

theorem witness_receive_ring : ((ringed.die 0).belv.vendor = false ∧ (rowCell 0).length = 256 ∧ fieldAt (rowCell 0) 6 1 = 0 * 64 + ringed.board.pkg ∧
    (0x200000100 / 2 ^ 32 : Nat) ≠ 0 ∧ 0x100 + 256 * (2 + 1) ≤ 262144) := by decide +kernel

theorem test_receive_ring : (match exec (.cellReceive 0 (rowCell 0)) ringed with
    | .next t => decide (Memory.bytes (t.die 0).belv.scratch 0x200 256 = rowCell 0 ∧ Memory.bytes (t.die 0).belv.scratch 0x104 4 = [1, 0, 0, 0])
    | _ => false) = true := by decide +kernel

/-! ### Witnesses: the step -/

theorem witness_step : fetching.turn = some ⟨0, 0, 0⟩ ∧ ({ fetching with cur := ⟨0, 0, 0⟩, turn := none } : State).ctx? = some (cx 16) ∧
    SMap.wf fetching.teams = true ∧ SMap.wf (cx 16).team.gangs = true ∧ SMap.wf (cx 16).gang.entries = true ∧ (cx 16).at.toNat = 0x100 ∧
    ((fetching.core 0).quad (cx 16).gang.quad).loopWord 0 0x100 = none ∧
    (match fetching.translate 0 0 0 (cx 16).priv [⟨0x100, 4, 0⟩] with
      | .ok xs => decide ((findXlat xs 0x100).pa 0x100 = 0x100100) && xs.all fun x => (List.range 4).all fun k => !x.ptes.contains (0x100100 + k)
      | .error _ => false) = true ∧ 0x100100 % 4 = 0 ∧ (fetching.core 0).icache = [] ∧ (fetching.die 0).remote = [] ∧
    decode (BitVec.ofNat 32 (ofBytes (Memory.bytes fetching.mem 0x100100 4))) = .ok (.sadd 3 3 2 0) := by decide +kernel

theorem witness_encoding : (Instr.sadd 3 3 2 0).wf = true ∧ encode (.sadd 3 3 2 0) = some 0x20063100 ∧ decode 0x20063100 = .ok (.sadd 3 3 2 0) := by
  decide +kernel

theorem witness_memory : fetching.memOk = true ∧ (match step fetching with | .next t => t.memOk | _ => false) = true := by decide +kernel

/-! ### Decoding -/

/-- A word decodes to the instruction, and the instruction has that word. -/
def decodes (p : IWord × Instr) : Bool := decide (decode p.1 = .ok p.2) && decide (encode p.2 = some p.1)

/-- The words that the chapters print (R29, R126, R168, R178 and the worked programs). -/
theorem test_decode_published : [
      (0x20063100, Instr.sadd 3 3 2 0), (0x02480008, .brLanes 1 4), (0x0427FFFC, .brsNz 2 0x1FFFE), (0x40420016, .vadd 1 2 0 1 3 0),
      (0x52030A28, .vshiRa 0 3 2 20 0), (0x4E010C10, .vmovi 0 1 3 8 0), (0x56010014, .vcmp64 0 1 0 1 2 0), (0x58000004, .vlane 0 0 0),
      (0x8203090C, .vshfli 0 3 2 134 0), (0x84050802, .voteAll 0 5 2 0), (0x86040400, .xred 0 4 1 0 0 0), (0x8C8C0000, .gwidthAm 6 0),
      (0x904828C2, .mmaZ 1 1 0 10 12 0), (0x94000002, .accRel 0 0), (0x9A012000, .accst 1 4 0 0), (0xB5053082, .gatom 4 5 6 4 0 0 2),
      (0xCACA2188, .eapp 0 1 5 2 3 4 0), (0xC012A000, .tcopy 9 10 0), (0xC218D728, .tgath 12 13 14 20 0), (0xE0800004, .fenceRel 2 0),
      (0xE2020008, .sbind 1 4 0), (0xE4064280, .swr 3 4 5 0), (0xE600000E, .icinv 7 0), (0x18064000, .spawn 3 4 0), (0x184A6000, .launch 5 6 0),
      (0x1A002180, .depset 2 3 0), (0x1C002080, .qinit 2 1 0), (0x1CCC0080, .qtry 6 1 0), (0x1200000A, .trap 5), (0x12400000, .rte),
      (0x0C000008, .yield 0 4 0), (0x0C300008, .yield 3 4 0), (0x14020016, .sget 1 11 0), (0x1440000E, .sset 0 7 0), (0x1080000A, .barSync 0 5 0),
      (0x0E000000, .exit), (0x08005000, .jr 5 0), (0x08800000, .ret 0), (0x28500ACE, .saddi 5 0 0x567 0), (0xFE4028A8, .hintVc 0 0 20 21 0),
      (0xFE800002, .hintOrd 2), (0xFE00048D, .hintImm 0x48D)].all decodes = true := by decide +kernel

theorem test_decode_branches_and_joins : [
      (0b0000000_0000000101011010111011001, .ill 177625),
      (0b0000001_000000_101011010111011001_0, .br 177625),
      (0b0000001_101_001_010101101001110011_0, .brLanes 5 88691),
      (0b0000001_101_010_010101101001110011_0, .brAny 5 88691),
      (0b0000001_101_011_010101101001110011_0, .brAll 5 88691),
      (0b0000001_101_100_010101101001110011_0, .brNone 5 88691),
      (0b0000010_01010_00_10101101001110011_0, .brsZ 10 88691),
      (0b0000010_01010_01_10101101001110011_0, .brsNz 10 88691),
      (0b0000010_01010_10_10101101001110011_0, .brsNeg 10 88691),
      (0b0000010_01010_11_10101101001110011_0, .brsNneg 10 88691),
      (0b0000011_000000_101011010111011001_0, .call 177625),
      (0b0000100_00000000_01010_00000000000_1, .jr 10 1),
      (0b0000100_00100000_01010_00000000000_1, .jrl 10 1),
      (0b0000100_010000000000000000000000_1, .ret 1),
      (0b0000101_000000_101011010111011001_0, .joinat 177625),
      (0b0000110_01010_00000_01101001110011_1, .yield 10 6771 1),
      (0b0000111_0000000000000000000000000, .exit)].all decodes = true := by decide +kernel

theorem test_decode_units_and_tasks : [
      (0b0001000_000_01010_01100_000000_10011_1, .barArrive 10 12 19 1),
      (0b0001000_00100000_01010_000000_01100_1, .barWait 10 12 1),
      (0b0001000_01000000_01010_000000_01100_1, .barSync 10 12 1),
      (0b0001000_011_01010_00000000000_01100_1, .barQuery 10 12 1),
      (0b0001001_000000000000000000_101010_0, .trap 42),
      (0b0001001_0010000000000000000000000, .rte),
      (0b0001010_000_01010_0000000000_001011_1, .sget 10 11 1),
      (0b0001010_00100000_01010_00000_001101_1, .sset 10 13 1),
      (0b0001100_000_01010_01100_00000000000_1, .spawn 10 12 1),
      (0b0001100_001_01010_01100_00000000000_1, .launch 10 12 1),
      (0b0001100_01000000_01010_00000000000_1, .tabortRetry 10 1),
      (0b0001100_01100000_01010_00000000000_1, .tabortDrop 10 1),
      (0b0001101_00000000_01010_01100_000000_1, .depset 10 12 1),
      (0b0001101_001_01010_01100_10011_000000_1, .depdec 10 12 19 1),
      (0b0001101_010_01010_01100_00000000000_1, .depread 10 12 1),
      (0b0001110_00000000_01010_01001_000000_1, .qinit 10 9 1),
      (0b0001110_00100000_01010_01001_000000_1, .qpush 10 9 1),
      (0b0001110_010_01010_00000_01001_000000_1, .qpop 10 9 1),
      (0b0001110_011_01110_00000_01001_000000_1, .qtry 14 9 1)].all decodes = true := by decide +kernel

theorem test_decode_scalar : [
      (0b0010000_000_01010_01100_10011_000000_1, .sadd 10 12 19 1),
      (0b0010000_001_01010_01100_10011_000000_1, .ssub 10 12 19 1),
      (0b0010000_010_01010_01100_10011_000000_1, .sand 10 12 19 1),
      (0b0010000_011_01010_01100_10011_000000_1, .sor 10 12 19 1),
      (0b0010000_100_01010_01100_10011_000000_1, .sxor 10 12 19 1),
      (0b0010000_101_01010_01100_10011_000000_1, .sshl 10 12 19 1),
      (0b0010000_110_01010_01100_10011_000000_1, .sshr 10 12 19 1),
      (0b0010000_111_01010_01100_10011_000000_1, .ssra 10 12 19 1),
      (0b0010001_000_01010_01100_10011_000000_1, .smul 10 12 19 1),
      (0b0010001_001_01010_01100_10011_000000_1, .smulh 10 12 19 1),
      (0b0010001_010_01010_01100_10011_000000_1, .smulhn 10 12 19 1),
      (0b0010001_011_01010_01100_10011_000000_1, .sdiv 10 12 19 1),
      (0b0010001_100_01010_01100_10011_000000_1, .sdivn 10 12 19 1),
      (0b0010001_101_01010_01100_10011_000000_1, .srem 10 12 19 1),
      (0b0010001_110_01010_01100_10011_000000_1, .sremn 10 12 19 1),
      (0b0010010_100_01010_01100_10011_000000_1, .scmp 4 10 12 19 1),
      (0b0010011_000_01010_01100_10011_000000_1, .smin 10 12 19 1),
      (0b0010011_001_01010_01100_10011_000000_1, .smax 10 12 19 1),
      (0b0010011_010_01010_01100_10011_000000_1, .sminn 10 12 19 1),
      (0b0010011_011_01010_01100_10011_000000_1, .smaxn 10 12 19 1),
      (0b0010011_100_01010_01100_00000000000_1, .sclz 10 12 1),
      (0b0010011_101_01010_01100_00000000000_1, .sctz 10 12 1),
      (0b0010011_110_01010_01100_00000000000_1, .spopc 10 12 1),
      (0b0010100_01010_01100_11010111011001_1, .saddi 10 12 13785 1),
      (0b0010101_01010_01100_11010111011001_1, .sandi 10 12 13785 1),
      (0b0010110_01010_01100_11010111011001_1, .sori 10 12 13785 1),
      (0b0010111_01010_01100_11010111011001_1, .sxori 10 12 13785 1),
      (0b0011000_01010_01100_00000000_011001_1, .sshli 10 12 25 1),
      (0b0011000_01010_01100_00000001_011001_1, .sshri 10 12 25 1),
      (0b0011000_01010_01100_00000010_011001_1, .ssrai 10 12 25 1),
      (0b0011001_01010_01100_11010111011001_1, .sld 10 12 13785 1),
      (0b0011010_01010_01100_11010111011001_1, .sst 10 12 13785 1),
      (0b0011011_00_101_01100_11010111011001_1, .sldk 5 12 13785 1)].all decodes = true := by decide +kernel

theorem test_decode_vector_integer : [
      (0b0100000_101_100101_011001_001011_0_10_1, .vadd 5 37 25 11 2 1),
      (0b0100000_101_100101_011001_001011_1_10_1, .vaddSat 5 37 25 11 2 1),
      (0b0100001_101_100101_011001_001011_0_10_1, .vsub 5 37 25 11 2 1),
      (0b0100001_101_100101_011001_001011_1_10_1, .vsubSat 5 37 25 11 2 1),
      (0b0100010_101_100101_011001_001011_0_10_1, .vmul 5 37 25 11 2 1),
      (0b0100011_101_100101_011001_001011_010_1, .vmulh 5 37 25 11 2 1),
      (0b0100100_101_100101_011001_001011_10_0_1, .vmin 5 37 25 11 2 1),
      (0b0100100_101_100101_011001_001011_10_1_1, .vmax 5 37 25 11 2 1),
      (0b0100101_101_100101_011001_001011_000_1, .vand 5 37 25 11 1),
      (0b0100101_101_100101_011001_001011_001_1, .vor 5 37 25 11 1),
      (0b0100101_101_100101_011001_001011_010_1, .vxor 5 37 25 11 1),
      (0b0100101_101_100101_011001_001011_011_1, .vandn 5 37 25 11 1),
      (0b0100101_101_100101_011001_000000100_1, .vmov 5 37 25 1),
      (0b0100110_101_100101_011001_001011_00_1_1, .vshl 5 37 25 11 1 1),
      (0b0100110_101_100101_011001_001011_01_1_1, .vshr 5 37 25 11 1 1),
      (0b0100110_101_100101_011001_001011_10_1_1, .vsra 5 37 25 11 1 1),
      (0b0100111_101_100101_0000_10_001110011_1, .vmovi 5 37 2 115 1),
      (0b0101000_101_100101_011001_001110011_1, .vaddi 5 37 25 115 1),
      (0b0101001_101_100101_011001_00_0101101_1, .vshiL 5 37 25 45 1),
      (0b0101001_101_100101_011001_01_0101101_1, .vshiR 5 37 25 45 1),
      (0b0101001_101_100101_011001_10_0101101_1, .vshiRa 5 37 25 45 1),
      (0b0101010_101_000_110_011001_001011_100_1, .vcmp 5 6 25 11 4 1),
      (0b0101011_101_000_110_011001_001011_100_1, .vcmp64 5 6 25 11 4 1),
      (0b0101100_101_100101_011001_001011_000_1, .vsel 5 37 25 11 1),
      (0b0101100_101_100101_0_10011_0000_01_001_1, .vbcast 5 37 19 1 1),
      (0b0101100_101_100101_000000000000010_1, .vlane 5 37 1),
      (0b0101100_0000_01010_100101_0_10011_011_1, .vsget 10 37 19 1),
      (0b0101100_101_100101_0_10011_0_10110_100_1, .vsput 5 37 19 22 1)].all decodes = true := by decide +kernel

theorem test_decode_vector_rearranging : [
      (0b0101101_101_100101_011001_001011_000_1, .vzipI8 5 37 25 11 1),
      (0b0101101_101_100101_011001_001011_001_1, .vzipI16 5 37 25 11 1),
      (0b0101101_101_100101_011001_001011_010_1, .vzipI32 5 37 25 11 1),
      (0b0101101_101_100101_011001_001011_011_1, .vunzipI8 5 37 25 11 1),
      (0b0101101_101_100101_011001_001011_100_1, .vunzipI16 5 37 25 11 1),
      (0b0101101_101_100101_011001_001011_101_1, .vunzipI32 5 37 25 11 1),
      (0b0101101_101_100101_011001_00_1001_110_1, .vwiden 5 37 25 9 1),
      (0b0101101_101_100101_011001_0_10110_111_1, .vnarrow 5 37 25 22 1),
      (0b0101110_101_100101_011001_0000_01_000_1, .vclz 5 37 25 1 1),
      (0b0101110_101_100101_011001_0000_01_001_1, .vpopc 5 37 25 1 1),
      (0b0101110_101_100101_011001_0000_01_010_1, .vbrev 5 37 25 1 1),
      (0b0101111_101_100101_011001_000000000_1, .vrnenc 5 37 25 1),
      (0b0101111_101_100101_011001_000000001_1, .vrndec 5 37 25 1),
      (0b0110000_101_100101_011001_001011_0_10_1, .vfadd 5 37 25 11 2 1),
      (0b0110001_101_100101_011001_001011_0_10_1, .vfsub 5 37 25 11 2 1),
      (0b0110010_101_100101_011001_001011_0_10_1, .vfmul 5 37 25 11 2 1)].all decodes = true := by decide +kernel

theorem test_decode_float_and_mask : [
      (0b0110011_101_100101_011001_001011_0_10_1, .vfma 5 37 25 11 2 1),
      (0b0110100_101_100101_011001_001011_1_00_1, .vfmin 5 37 25 11 1 1),
      (0b0110100_101_100101_011001_001011_1_01_1, .vfmax 5 37 25 11 1 1),
      (0b0110100_101_100101_011001_001011_1_10_1, .vfminnum 5 37 25 11 1 1),
      (0b0110100_101_100101_011001_001011_1_11_1, .vfmaxnum 5 37 25 11 1 1),
      (0b0110101_101_000_110_011001_001011_100_1, .vfcmp 5 6 25 11 4 1),
      (0b0110110_101_000_110_011001_001011_1_10_1, .vfcmpt 5 6 25 11 1 2 1),
      (0b0110111_101_100101_011001_001001_000_1, .vfcvt 5 37 25 9 1),
      (0b0111000_101_100101_011001_000000_101_1, .vsfu 5 37 25 5 1),
      (0b0111001_101_100101_011001_0000_10_000_1, .vfabs 5 37 25 2 1),
      (0b0111001_101_100101_011001_0000_10_001_1, .vfneg 5 37 25 2 1),
      (0b0111001_101_100101_011001_0000_10_010_1, .vfround 5 37 25 2 1),
      (0b0111010_101_000_110_000_001_000_100_000_1, .kand 5 6 1 4 1),
      (0b0111010_101_000_110_000_001_000_100_001_1, .kor 5 6 1 4 1),
      (0b0111010_101_000_110_000_001_000_100_010_1, .kxor 5 6 1 4 1),
      (0b0111010_101_000_110_000_001_000_100_011_1, .kandn 5 6 1 4 1),
      (0b0111010_101_000_110_000_001_000000100_1, .kmovMask 5 6 1 1),
      (0b0111010_101_000_110_0_10011_000000101_1, .kmovFromScalar 5 6 19 1),
      (0b0111010_0000_01010_000_110_000000110_1, .kmovToScalar 10 6 1),
      (0b0111010_0000_01010_000_110_000000111_1, .kpop 10 6 1)].all decodes = true := by decide +kernel

theorem test_decode_cross_lane : [
      (0b1000000_101_100101_011001_001011_10_1_1, .vshfl 5 37 25 11 2 1 1),
      (0b1000001_101_100101_011001_001110011_1, .vshfli 5 37 25 115 1),
      (0b1000010_101_0_01100_000_001_000000000_1, .voteAny 5 12 1 1),
      (0b1000010_101_0_01100_000_001_000000001_1, .voteAll 5 12 1 1),
      (0b1000010_101_0_01100_011001_000000010_1, .voteEq 5 12 25 1),
      (0b1000010_101_0_01100_000_001_000000011_1, .voteBallot 5 12 1 1),
      (0b1000011_101_0_01100_011001_000_110_101_1, .xred 5 12 25 6 5 1),
      (0b1000100_101_100101_011001_00_1_110_101_1, .xscan 5 37 25 1 6 5 1),
      (0b1000101_101_0_01100_011001_000000_101_1, .xmaxi 5 12 25 5 1),
      (0b1000110_000_01010_0000000000000000_1, .gwidthW 10 1),
      (0b1000110_001_01010_0000000000000000_1, .gwidthSm 10 1),
      (0b1000110_010_01010_0000000000000000_1, .gwidthAm 10 1),
      (0b1000110_011_01010_0000000000000000_1, .gwidthNa 10 1),
      (0b1000111_00000000_01010_00000_100101_1, .cmrgPut 10 37 1),
      (0b1000111_001_01010_01100_00000_011001_1, .cmrgGet 10 12 25 1),
      (0b1000111_01000000_01010_01100_000000_1, .cmrgReset 10 12 1)].all decodes = true := by decide +kernel

theorem test_decode_matrix : [
      (0b1001000_101_110_001_001011_010101_000_1, .mma 5 6 1 11 21 1),
      (0b1001000_101_110_001_001011_010101_001_1, .mmaZ 5 6 1 11 21 1),
      (0b1001001_101_110_001_001011_010101_000_1, .mmas 5 6 1 11 21 1),
      (0b1001001_101_110_001_001011_010101_001_1, .mmasZ 5 6 1 11 21 1),
      (0b1001010_000000_101_000000000000_1_00_1, .accZero 5 1 1),
      (0b1001010_000000_101_000000000000001_1, .accRel 5 1),
      (0b1001010_000000_001_000_100_000000010_1, .accMov 1 4 1),
      (0b1001011_000000_101_100101_000000000_1, .accoutI32 5 37 1),
      (0b1001011_101_110_001_001011_101100_0_1_1_1, .accoutF32 5 6 1 11 44 1 1),
      (0b1001100_000000_101_100101_00000000_1_1, .accin 5 37 1 1),
      (0b1001101_000000_101_01100_00000000_1_0_1, .accst 5 12 1 1),
      (0b1001101_000000_101_01100_00000000_1_1_1, .accld 5 12 1 1)].all decodes = true := by decide +kernel

theorem test_decode_local_memory : [
      (0b1010000_101_100101_10011_100101_01_0_1_1, .ldl 5 37 19 37 1 0 1 1),
      (0b1010001_101_100101_10011_100101_01_0_1_1, .stl 5 37 19 37 1 0 1 1),
      (0b1010010_101_100101_10011_000000_10_1_1_1, .ldfrag 5 37 19 2 1 1 1),
      (0b1010011_101_100101_10011_000000_1_101_1, .stfrag 5 37 19 1 5 1),
      (0b1010100_101_100101_10011_001011_1_0_011, .catom 5 37 19 11 1 3),
      (0b1010100_000_101010_01100_011001_1_1_010, .catomExch 42 12 25 1 2),
      (0b1010100_001_101010_01100_011001_1_1_010, .catomCas 42 12 25 1 2)].all decodes = true := by decide +kernel

theorem test_decode_global_memory : [
      (0b1011000_101_100101_10011_001011_0101_1, .gld 5 37 19 11 5 1),
      (0b1011000_101_100101_01100_011001_0111_1, .gldF6p 5 37 12 25 1),
      (0b1011001_101_100101_10011_001011_00_10_1, .gst 5 37 19 11 2 1),
      (0b1011001_101_100101_10011_001011_0100_1, .gstF6p 5 37 19 11 1),
      (0b1011001_101_100101_10011_001011_1_010_1, .gstFs 5 37 19 11 2 1),
      (0b1011010_101_100101_10011_001011_0_1_011, .gatom 5 37 19 11 0 1 3),
      (0b1011011_000_101010_01100_011001_0_1_010, .gexch 42 12 25 1 2),
      (0b1011011_001_101010_01100_011001_0_1_010, .gcas 42 12 25 1 2),
      (0b1011100_1_1_1_001011_01001_101010_10_110, .gredF 1 1 1 11 9 42 2 6),
      (0b1011101_000_101010_01100_011001_0_1_010, .gredRn 42 12 25 1 2),
      (0b1011110_101_000000_01100_011001_00_10_1, .gpf 5 12 25 2 1)].all decodes = true := by decide +kernel

theorem test_decode_copies_and_elastic : [
      (0b1100000_000_01010_01100_00000000000_1, .tcopy 10 12 1),
      (0b1100001_000_01010_01100_10011_001011_1, .tgath 10 12 19 11 1),
      (0b1100010_000_01010_01100_00000000000_1, .trag 10 12 1),
      (0b1100011_000_01010_01100_00000000000_1, .tstat 10 12 1),
      (0b1100011_001_01010_01100_10011_000000_1, .tstatGal 10 12 19 1),
      (0b1100100_000_01010_01100_00000000000_1, .enew 10 12 1),
      (0b1100100_00100000_01010_00000000000_1, .efree 10 1),
      (0b1100101_1_1_0_01100_10011_10110_100101_1, .eins 1 1 12 19 22 37 1),
      (0b1100101_1_1_1_01100_10011_10110_100101_1, .eapp 1 1 12 19 22 37 1),
      (0b1100110_000_01010_01100_10011_000000_1, .edel 10 12 19 1),
      (0b1100111_000_01010_01100_10011_000000_1, .esplit 10 12 19 1),
      (0b1100111_001_01010_01100_10011_000000_1, .ecat 10 12 19 1),
      (0b1101000_000_01010_01100_10011_000000_1, .emark 10 12 19 1),
      (0b1101000_001_01010_01100_10011_000000_1, .eanch 10 12 19 1),
      (0b1101000_010_01010_01100_00000000000_1, .erank 10 12 1),
      (0b1101000_011_01010_01100_00000000000_1, .erankH 10 12 1),
      (0b1101000_10000000_01010_00000000000_1, .edrop 10 1),
      (0b1101001_000_01010_01100_00000000000_1, .elen 10 12 1),
      (0b1101001_001_01010_01100_10011_000000_1, .einfo 10 12 19 1),
      (0b1101010_101_100101_10011_001011_000_1_1, .eld 5 37 19 11 1 1),
      (0b1101011_101_100101_10011_001011_0000_1, .est 5 37 19 11 1)].all decodes = true := by decide +kernel

theorem test_decode_system : [
      (0b1110000_001000000000000000000_101_1, .fenceAcq 5 1),
      (0b1110000_010000000000000000000_101_1, .fenceRel 5 1),
      (0b1110000_011000000000000000000_101_1, .fenceAcqrel 5 1),
      (0b1110001_000_01010_0000000000000_110_1, .sbind 10 6 1),
      (0b1110001_001000000000000000000_101_1, .sbindClr 5 1),
      (0b1110010_000_01010_01100_10011_000000_1, .swr 10 12 19 1),
      (0b1110010_001_01010_01100_10011_000000_1, .srd 10 12 19 1),
      (0b1110011_000000000000000000000_101_1, .icinv 5 1),
      (0b1111111_000_0000101011010111011001, .hintImm 177625),
      (0b1111111_001_1_000001_101010_100101_011, .hintVc 1 1 42 37 3),
      (0b1111111_01000000000000000000000_10, .hintOrd 2),
      (0b1111111_011000000000000000000000_1, .hintSched 1),
      (0b1111111_100_0000101011010111011001, .hintOff 177625)].all decodes = true := by decide +kernel

/-- R19, R30, R36: words that are no instruction, by the name of the refusal. -/
theorem test_decode_refused : decode 0x16000000 = .error .absentMajor ∧ decode 0x20063100 = .ok (.sadd 3 3 2 0) ∧
    decode 0x20000040 = .error .noSuchForm ∧ decode 0x403F0000 = .error .undefinedValue ∧ decode 0xFF400000 = .error .undefinedHintKind := by decide +kernel

/-- R20 to R22, R32 and the chapters: terms that hold a value that their instruction does not define, one for each check; a word of one is
refused. -/
def illFormed : List Instr := [
  .sget 1 15 0, .sset 1 3 0, .qinit 1 16 0, .qpush 1 16 0, .qpop 1 16 0, .qtry 2 16 0, .qtry 3 1 0, .qtry 0 1 0, .qtry 30 1 0, .scmp 6 1 2 3 0,
  .sldk 0 1 0 0, .vadd 0 63 0 0 0 0, .vand 0 63 0 0 0, .vmov 0 63 0 0, .vshl 0 63 0 0 0 0, .vmovi 0 63 0 0 0, .vaddi 0 63 0 0 0, .vshiL 0 1 0 7 0,
  .vshiR 0 63 0 8 0, .vcmp 0 0 1 2 0 0, .vcmp64 0 1 1 2 6 0, .vsel 0 63 0 0 0, .vbcast 0 63 0 0 0, .vlane 0 63 0, .vsput 0 63 0 0 0,
  .vzipI8 0 63 0 0 0, .vwiden 0 1 0 3 0, .vnarrow 0 1 0 7 0, .vnarrow 0 62 0 16 0, .vclz 0 63 0 0 0, .vrnenc 0 63 0 0, .vfadd 0 1 0 0 3 0,
  .vfma 0 62 0 0 0 0, .vfmin 0 63 0 0 0 0, .vfcmp 0 1 0 0 5 0, .vfcmpt 0 1 0 0 0 3 0, .vfcvt 0 1 0 6 0, .vsfu 0 1 0 7 0, .vfabs 0 1 0 3 0,
  .kand 0 0 1 2 0, .kmovMask 0 0 1 0, .kmovFromScalar 0 0 1 0, .vshfl 0 63 0 0 0 0 0, .vshfli 0 63 0 0 0, .xred 0 1 1 6 0 0, .xred 0 1 1 0 7 0,
  .xred 0 1 1 3 4 0, .xscan 0 63 1 0 0 0 0, .xmaxi 0 1 1 7 0, .cmrgPut 1 62 0, .cmrgGet 1 1 63 0, .mma 0 0 0 62 1 0, .mmaZ 0 0 0 1 63 0,
  .mmas 0 0 0 62 1 0, .mmasZ 0 0 0 1 62 0, .accMov 1 1 0, .accoutI32 0 62 0, .accoutF32 0 0 0 62 0 0 0, .accoutF32 0 0 0 1 3 0 0, .accin 0 62 0 0,
  .ldl 0 63 1 0 0 0 0 0, .ldl 0 1 1 3 1 1 0 0, .ldl 0 1 1 0 0 1 0 0, .stl 0 1 1 3 1 1 0 0, .ldfrag 0 1 1 0 0 0 0, .ldfrag 0 62 1 1 0 0 0,
  .stfrag 0 62 1 0 0 0, .stfrag 0 1 1 0 1 0, .catom 0 62 1 1 0 0, .catomExch 62 1 1 0 0, .catomCas 63 1 1 0 0, .gld 0 63 1 0 0 0, .gld 0 1 1 0 9 0,
  .gldF6p 0 1 0 0 0, .gldF6p 0 1 31 0 0, .gstF6p 0 1 31 0 0, .gatom 0 62 1 1 0 0 0, .gexch 62 1 1 0 0, .gcas 63 1 1 0 0, .gpf 0 1 0 3 0,
  .eins 0 0 1 1 1 5 0, .eapp 0 0 1 1 1 5 0, .eld 0 63 1 1 0 0, .hintVc 0 1 62 1 0, .hintVc 0 1 1 63 0, .hintVc 0 0 1 1 5, .hintOrd 0]

theorem test_ill_formed : illFormed.all (fun i => !i.wf && (match encode i with
    | some w => match decode w with
      | .ok _ => false
      | .error _ => true
    | none => true)) = true := by decide +kernel

/-! ### Results that the chapters work out -/

/-- Lane 0 of v20 and a flag register after an instruction on v10 and v11, and on v20 where it is read. -/
def onLane (x y z : Word) (i : Instr) : Word := vAfter (exec i (stateOf (cx 16 (g := fun g => { g with
  vregs := [(64 * 10, x), (64 * 11, y), (64 * 20, z)] })))) 20 0

/-- The table of R178. -/
theorem test_saturating_add : onLane 0x649CFF 0x649C01 0 (.vadd 0 20 10 11 0 0) = 0xC83800 ∧ onLane 0x649CFF 0x649C01 0 (.vaddSat 0 20 10 11 0 0) = 0x7F8000 ∧
    onLane 0x649CFF 0x649C01 0 (.vaddSat 0 20 10 11 2 0) = 0xC8FFFF := by decide +kernel

/-- The example of R189. -/
theorem test_residue_words : onLane 96 0 0 (.vrnenc 0 20 10 0) = 0x00606060 ∧ onLane 0x0020202000202020 0 0 (.vrndec 0 20 10 0) = 0x0000002000000020 := by
  decide +kernel

/-- The example of R191: with the addend -1, the fused result is -2^-46, where a product and a sum give 0. -/
theorem test_fused : onLane 0x3F800001 0x3F7FFFFE 0xBF800000 (.vfma 0 20 10 11 0 0) = 0xA8800000 ∧
    onLane 0x3F800001 0x3F7FFFFE 0 (.vfmul 0 20 10 11 0 0) = 0x3F800000 := by decide +kernel

/-- R169: division by zero and of -2^63 by -1; s1 holds -1, s2 7, s3 -2^63 and s0 0. -/
theorem test_division : sAfter (exec (.sdiv 6 2 0 0) (stateOf (cx 16))) 6 = 0xFFFFFFFFFFFFFFFF ∧
    sAfter (exec (.sdiv 6 3 1 0) (stateOf (cx 16))) 6 = 0x8000000000000000 ∧ sAfter (exec (.sremn 6 2 0 0) (stateOf (cx 16))) 6 = 7 := by decide +kernel

/-- R168: the order of the operands of a difference and of a comparison. -/
theorem test_operand_order : sAfter (exec (.ssub 6 2 5 0) (stateOf (cx 16))) 6 = 4 ∧ sAfter (exec (.scmp 2 6 3 2 0) (stateOf (cx 16))) 6 = 1 ∧
    sAfter (exec (.scmp 4 6 3 2 0) (stateOf (cx 16))) 6 = 0 := by decide +kernel

/-- R170: `sandi s7, s7, -16` clears bits 3:0 and keeps the rest. -/
theorem test_immediate_mask : sAfter (exec (.sandi 6 2 0x3FF0 0) (stateOf (cx 16))) 6 = 0 ∧
    sAfter (exec (.sandi 6 1 0x3FF0 0) (stateOf (cx 16))) 6 = 0xFFFFFFFFFFFFFFF0 := by decide +kernel

/-- R208: the sum of 0 to 15 is 120. -/
theorem test_reduction : sAfter (exec (.xred 0 6 10 0 0 0) (stateOf (cx 16 (g := fun g => { g with
    vregs := (List.range 16).map fun l => (64 * 10 + l, BitVec.ofNat 64 l) })))) 6 = 120 := by decide +kernel

/-- The walk that chapter 04 works out: VA 0x123456789A and the leaf 0x0050004023450027. -/
def walkExample : State := walking (Memory.store (Memory.store (Memory.store [] 0x10000 (toBytes 0x20001 8)) (0x20000 + 8 * 0x91) (toBytes 0x30001 8))
  (0x30000 + 8 * 0x1456) (toBytes 0x0050004023450027 8))

theorem test_walk : (match walkExample.walk 0 0x123456789A kLoad false with
      | .ok x => decide (x.pa 0x123456789A = 0x402345789A)
      | .error _ => false) = true ∧ (match walkExample.walk 0 0x123456789A 0 false with
      | .ok _ => false
      | .error f => decide (f.cls = 10)) = true ∧ walkExample.homeDie 0x402345789A = some 2 ∧ l2Slice 0x402345789A = 126 ∧ l2Set 0 3 0x402345789A = 169 ∧
    l2Set 2 3 0x402345789A = 425 ∧ 0x402345789A % 256 = 154 := by decide +kernel

/-- Chapter 13: through a slot of F8A with MODE 1 and SCALE 0.5, the pair (3.0, 1000.0) is stored as 0x4C and 0x7E. -/
theorem test_narrowed_store : (narrowPair 0x447A000040400000 0x3F00000000000013).1 = [0x4C, 0x7E] := by decide +kernel

/-- The table of R164, its last two rows, and R99: rows of 32 bytes lie 64 bytes apart. -/
theorem test_conversion_and_pitch : crt 130 8 142 = 8387080 ∧ crt 194 9 80 = -8373751 ∧ crt 127 128 129 = -128 ∧ rowPitch 32 = 64 := by decide +kernel

/-- R328: the entry of token 5 with logits at 0x01006000; chapter 21: the records of expert 1 at p = 4 and of expert 0's fill at p = 5. -/
theorem test_routing_words : gateToken 0x0005000001006000 = 5 ∧ gateAddr 0x0005000001006000 = 0x01006000 ∧ gateKind 0x0005000001006000 = 0 ∧
    gateSess 0x0005000001006000 = 0 ∧ routingRecord 5 1 1 0x3E4CCCCD 4 = toBytes 0x000000043E4CCCCD0001000100000005 16 ∧
    routingRecord 0xFFFFFFFF 0 0xFFFF 0 5 = toBytes 0x0000000500000000FFFF0000FFFFFFFF 16 := by decide +kernel

/-- R366, R367: the capability list that a reset writes, byte by byte: ID, VERSION, LEN and NEXT of each entry, then its payload. -/
theorem test_capability_list : (match exec .packageReset State.reset with
    | .next t => decide (Memory.bytes t.mem t.board.capsPa 24 =
        [1, 0, 1, 0, 24, 0, 0, 0] ++ toBytes (t.board.caps.toNat + 24) 8 ++ [0, 0x94, 4, 8, 0, 1, 0, 0]) &&
        decide (Memory.bytes t.mem (t.board.capsPa + 56) 24 = [3, 0, 1, 0, 24, 0, 0, 0] ++ toBytes (t.board.caps.toNat + 80) 8 ++ [0, 0, 0x29, 0, 0, 0, 0, 0])
    | _ => false) = true := by decide +kernel

/-- A Belvedere core that runs replacement firmware: `addi x1, x0, 5`, `c.addi x1, 1`, `csrrs x5, gpop, x0`. -/
def firmware : State := { belvState with dies := [(0, { belvState.die 0 with belv := { (belvState.die 0).belv with
  vendor := false
  scratch := Memory.store (Memory.store (Memory.store [] 0 (toBytes 0x00500093 4)) 4 (toBytes 0x0085 2)) 6 (toBytes 0xCC0022F3 4) } })] }

def runFirmware (n : Nat) : State := (List.range n).foldl (fun s _ => match riscvStep 0 s with | .next t => t | _ => s) firmware

theorem test_firmware : (let b := ((runFirmware 3).die 0).belv
    ZMap.get b.x 1 = 6 ∧ ZMap.get b.x 5 = 0x904 ∧ b.pc = 10 ∧ ((runFirmware 3).die 0).gate = []) := by decide +kernel

/-- R158: a gang in which an earlier instruction has set NVSTORE, before any `sget` of flags. -/
def raised : Ctx := cx 16 (g := fun g => g.raise 0x20)

def flagsAfter (o : Out) : Word := match o with
  | .next t => ((t.gang? 0 0).map Gang.flags).getD 0
  | _ => 0xBAD

/-- The table of R158: `sset flags, s0` does not lose NVSTORE; once an `sget` of flags has returned it, it does. -/
theorem test_flags_not_lost : flagsAfter (exec (.sset 0 7 0) (stateOf raised)) = 0x20 ∧
    sAfter (exec (.sget 6 7 0) (stateOf raised)) 6 = 0x20 ∧
    flagsAfter (match exec (.sget 6 7 0) (stateOf raised) with
      | .next t => exec (.sset 0 7 0) t
      | o => o) = 0 := by decide +kernel

end Sys2Proof.Tests
end

section
/-! PROOFS. The board: its events, its resets and power-on, the Kiosk and measurements (R15, R366, R367, R379, R380, R382 to R385). -/

namespace Sys2Proof.Machine

/-! ### Maps and memory -/

/-- A map made from a list of keys holds the value of each. -/
theorem SMap.get?_map_key {α : Type} (l : List Nat) (f : Nat → α) (k : Nat) :
    SMap.get? (l.map fun i => (i, f i)) k = if k ∈ l then some (f k) else none := by
  induction l with
  | nil => rfl
  | cons i l ih =>
    simp only [List.map_cons, SMap.get?, ih, List.mem_cons]
    by_cases h : i = k
    · simp [h]
    · simp [h, Ne.symm h]

/-- A fold that writes each key of a list once, from what stood under it. -/
theorem SMap.get?_foldl_set {α : Type} (f : Nat → Option α → α) (l : List Nat) (hl : l.Nodup) (m : SMap α) (k : Nat) :
    SMap.get? (l.foldl (fun m i => SMap.set m i (f i (SMap.get? m i))) m) k =
      if k ∈ l then some (f k (SMap.get? m k)) else SMap.get? m k := by
  induction l generalizing m with
  | nil => rfl
  | cons i l ih =>
    obtain ⟨hi, hl⟩ := List.nodup_cons.1 hl
    rw [List.foldl_cons, ih hl, SMap.get?_set]
    by_cases h : i = k
    · subst h; simp [hi]
    · simp [h, Ne.symm h]

/-- A store leaves the bytes below it and past its end. -/
theorem Memory.get_store_outside (bs : List Byte) (m : Memory) (a k : Nat) (h : k < a ∨ a + bs.length ≤ k) :
    ZMap.get (Memory.store m a bs) k = ZMap.get m k := by
  induction bs generalizing m a with
  | nil => rfl
  | cons b bs ih =>
    rw [List.length_cons] at h
    rw [Memory.store, ih _ _ (by omega), ZMap.get_set_ne _ _ _ _ (by omega)]

/-- Bytes that have been stored read back. -/
theorem Memory.bytes_store (bs : List Byte) (m : Memory) (a : Nat) :
    Memory.bytes (Memory.store m a bs) a bs.length = bs := by
  induction bs generalizing m a with
  | nil => rfl
  | cons b bs ih =>
    have head : ZMap.get (Memory.store (ZMap.set m a b) (a + 1) bs) a = b := by
      rw [Memory.get_store_outside _ _ _ _ (.inl (Nat.lt_succ_self a)), ZMap.get_set_self]
    rw [List.length_cons, Memory.store, Memory.bytes, head, ih]

@[simp] theorem toBytes_length (x n : Nat) : (toBytes x n).length = n := by
  induction n generalizing x with
  | zero => rfl
  | succ n ih => simp [toBytes, ih]

/-! ### The capability list (R366, R367) -/

@[simp] theorem capsEntry_length (id : Nat) (next : Word) (payload : List Byte) :
    (capsEntry id next payload).length = 16 + payload.length := by
  simp [capsEntry]; omega

@[simp] theorem capsList_length (base : Word) (emulated : BitVec 128) : (capsList base emulated).length = 104 := by
  simp [capsList]

theorem bytes_capsMemory (pa : Nat) (base : Word) (emulated : BitVec 128) :
    Memory.bytes (capsMemory pa base emulated) pa 104 = capsList base emulated := by
  have h := Memory.bytes_store (capsList base emulated) [] pa
  rwa [capsList_length] at h

theorem get_capsMemory_outside (pa : Nat) (base : Word) (emulated : BitVec 128) (b : Nat) (h : b < pa ∨ pa + 104 ≤ b) :
    ZMap.get (capsMemory pa base emulated) b = 0 :=
  Memory.get_store_outside _ _ _ _ (by rwa [capsList_length])

/-! ### The Flowstone record (R384) -/

/-- Logging an event changes the record alone. -/
theorem State.event_flow (s : State) (type die vf cls detail addr aux : Nat) :
    ∃ f, s.event type die vf cls detail addr aux = { s with flow := f } := by
  unfold State.event State.log
  split
  · exact ⟨_, rfl⟩
  · exact ⟨_, rfl⟩

/-- A frozen record counts what it loses, up to its greatest count. -/
theorem State.event_of_frozen (s : State) (type die vf cls detail addr aux : Nat) (h : s.flow.frozen = true) :
    s.event type die vf cls detail addr aux = { s with flow := { s.flow with
      lost := if s.flow.lost.toNat = 65535 then s.flow.lost else s.flow.lost + 1 } } := by
  have hmax : s.flow.lost.toNat = 65535 ↔ s.flow.lost = 0xFFFF := (BitVec.toNat_inj (y := (0xFFFF : BitVec 16)))
  unfold State.event State.log
  rw [if_pos h]
  by_cases hl : s.flow.lost = 0xFFFF
  · rw [if_pos hl, if_pos (hmax.2 hl), hl]
  · rw [if_neg hl, if_neg (mt hmax.1 hl)]

/-- An event of type 12 or 13 takes the next slot with the cycle of its die, and freezes the record. -/
theorem State.event_freezes (s : State) (type die vf cls detail addr aux : Nat) (h : s.flow.frozen = false)
    (ht : type = 12 ∨ type = 13) :
    s.event type die vf cls detail addr aux = { s with flow := { s.flow with
      events := SMap.set s.flow.events s.flow.next.toNat ⟨(s.die die).cycle, die, type, vf, cls, detail, addr, aux⟩
      next := s.flow.next + 1
      frozen := true } } := by
  have hf : (type == 12 || type == 13) = true := by simpa using ht
  unfold State.event State.log
  rw [if_neg (by simp [h]), hf]

/-! ### Rails and packages (R379, R380) -/

theorem bit_or_twoPow {w : Nat} (x : BitVec w) (k n : Nat) (hk : k < w) :
    bit (x ||| BitVec.ofNat w (2 ^ k)) n = (bit x n || decide (n = k)) := by
  simp only [bit, BitVec.getLsbD_or, BitVec.getLsbD_ofNat, Nat.testBit_two_pow]
  by_cases h : n = k
  · subst h; simp [hk]
  · simp [h, Ne.symm h]

theorem exec_railDown {rail : Nat} {s : State} (hr : rail < 16) (hup : bit s.board.railsDown rail = false) :
    exec (.railDown rail) s =
      .next (({ s with board := { s.board with railsDown := s.board.railsDown ||| BitVec.ofNat 16 (2 ^ rail) } }).event 10 (rail / 4) 255
        0 rail 0 0) :=
  if_neg (by simp [hup, hr])

/-- The board on which a package has been declared failed and the host interrupted. -/
def Board.declareFailed (b : Board) (pkg : Nat) : Board :=
  { b with
    failed := b.failed ||| BitVec.ofNat 64 (2 ^ pkg)
    hostIrq := b.hostIrq + 1 }

theorem exec_packageDeclaredFailed {pkg : Nat} {s : State} (hp : pkg ≠ s.board.pkg) (hd : bit s.board.domain pkg = true)
    (hf : bit s.board.failed pkg = false) :
    exec (.packageDeclaredFailed pkg) s = .next (({ s with board := s.board.declareFailed pkg } : State).event 11 0 255 0 pkg 0 0) :=
  if_neg (by simp [hp, hd, hf])

/-- Declaring a package of the domain failed reaches the board and the record alone, and its memory is absent from then on. -/
theorem packageDeclaredFailed_spec {pkg : Nat} {s : State} (hp : pkg ≠ s.board.pkg) (hd : bit s.board.domain pkg = true)
    (hf : bit s.board.failed pkg = false) :
    ∃ f, let t : State := { s with board := s.board.declareFailed pkg, flow := f }
      exec (.packageDeclaredFailed pkg) s = .next t ∧ bit t.board.failed pkg = true ∧
      (∀ n, n ≠ pkg → bit t.board.failed n = bit s.board.failed n) ∧ ∀ a, a / 2 ^ 46 % 64 = pkg → t.absent a = true := by
  have hlt : pkg < 64 := BitVec.lt_of_getLsbD hd
  have hbit (n : Nat) : bit (s.board.declareFailed pkg).failed n = (bit s.board.failed n || decide (n = pkg)) :=
    bit_or_twoPow _ _ _ hlt
  obtain ⟨f, he⟩ := ({ s with board := s.board.declareFailed pkg } : State).event_flow 11 0 255 0 pkg 0 0
  refine ⟨f, (exec_packageDeclaredFailed hp hd hf).trans (congrArg _ he), ?_, fun n hn => ?_, fun a ha => ?_⟩
  · simp [hbit]
  · simp [hbit, hn]
  · have hpa : paPkg a = pkg := ha
    have hfailed : bit (s.board.declareFailed pkg).failed pkg = true := by simp [hbit]
    have hpkg : pkg ≠ (s.board.declareFailed pkg).pkg := hp
    simp [State.absent, hpa, hfailed, hpkg]

/-! ### The Kiosk's cap and report (R15, R385) -/

/-- The frequency of an island under a cap: the lower of what it was and the free reading. -/
def cappedFreq (tick i : Nat) (old : Option Nat) : Nat :=
  let f := (Config.reading i tick).toNat
  (old.map fun o => min o f).getD f

theorem cappedFreq_le (tick i f : Nat) : cappedFreq tick i (some f) ≤ f := Nat.min_le_left ..

/-- The frequencies of the islands after a cap. -/
def cappedFreqs (s : State) : SMap Nat :=
  (List.range islands).foldl (fun m i => SMap.set m i (cappedFreq s.tick i (SMap.get? m i))) s.board.freq

theorem exec_kioskPowerCap (watts : Nat) (s : State) :
    exec (.kioskPowerCap watts) s = .next { s with board := { s.board with cap := some watts, freq := cappedFreqs s } } := rfl

theorem get?_cappedFreqs (s : State) (n : Nat) (hn : n < 36) :
    SMap.get? (cappedFreqs s) n = some (cappedFreq s.tick n (SMap.get? s.board.freq n)) := by
  rw [cappedFreqs, SMap.get?_foldl_set _ _ List.nodup_range, if_pos (List.mem_range.2 hn)]

/-- A cap lowers the frequency of an island or leaves it. -/
theorem exists_cappedFreq_le (s : State) (n : Nat) (hn : n < 36) :
    ∃ g, SMap.get? (cappedFreqs s) n = some g ∧ ∀ f, SMap.get? s.board.freq n = some f → g ≤ f :=
  ⟨_, get?_cappedFreqs s n hn, fun f hf => by rw [hf]; exact cappedFreq_le _ _ f⟩

/-- The temperature and the power of each island as the Kiosk measures them: the head of its report. -/
def kioskMeasured (tick : Nat) : List Word :=
  (List.range islands).flatMap fun i => [Config.reading (100 + i) tick, Config.reading (200 + i) tick]

theorem kioskMeasured_length (tick : Nat) : (kioskMeasured tick).length = 72 := by
  simp [kioskMeasured, List.length_flatMap, islands]

theorem exec_kioskReport (s : State) :
    exec .kioskReport s = .next { s with board := { s.board with
      report := kioskMeasured s.tick ++ (List.range 36).map (fun i => BitVec.ofNat 64 ((SMap.get? s.board.freq i).getD 0)) ++
        [if s.board.held then 1 else 0, s.flow.ctl] ++
        s.flow.events.flatMap fun p => [p.2.word 0, p.2.word 1, p.2.word 2, p.2.word 3] } } := rfl

/-! ### A package that is held in reset (R382, R385) -/

/-- While a package is held in reset, the outside world alone moves. -/
theorem moves_of_held {s : State} (hh : s.board.held = true) (hi : s.inputs ≠ []) : s.moves = [.input] := by
  simp [State.moves, hh, hi]

/-- A held package passes over an input that does not reach it. -/
theorem step_of_held {i : Instr} {is : List Instr} {s : State} (hh : s.board.held = true) (ht : s.turn = none)
    (hi : s.inputs = i :: is) (hr : reachesHeld i = false) : step s = andAdvance (.next { s with inputs := is }) := by
  have hnext : s.nextMove = some .input := by rw [State.nextMove, moves_of_held hh (by simp [hi])]; rfl
  have hpass : s.passesOver i = true := by simp [State.passesOver, hh, hr]
  simp only [step, ht, hnext, makeMove, takeInput, hi, hpass, if_true]

/-! ### What a reset leaves (R326, R366, R367, R382 to R385) -/

theorem Board.belv_of_held {b : Board} (h : b.held = true) : b.belv = Belvedere.reset := by
  simp [Board.belv, h]

theorem Board.belv_of_noImage {b : Board} (h : SMap.get? b.images 1 = none) : b.belv = Belvedere.reset := by
  simp [Board.belv, Board.image, h]

theorem Board.belv_of_image {b : Board} {x : Image} (hh : b.held = false) (h : SMap.get? b.images 1 = some x) :
    b.belv = { Belvedere.reset with
      scratch := Memory.store [] 0 (x.bytes.take 262144)
      vendor := Config.vendorFirmware x.bytes } := by
  simp [Board.belv, Board.image, h, hh]

section
variable (s : State) (b : Board) (em : BitVec 128)

@[simp] theorem resetWith_mem : (s.resetWith b em).mem = capsMemory b.capsPa b.caps em := by simp only [State.resetWith]
@[simp] theorem resetWith_board : (s.resetWith b em).board = b := by simp only [State.resetWith]
@[simp] theorem resetWith_flow : (s.resetWith b em).flow = s.flow := by simp only [State.resetWith]
@[simp] theorem resetWith_emulated : (s.resetWith b em).emulated = em := by simp only [State.resetWith]
end

theorem die_resetWith (s : State) (b : Board) (em : BitVec 128) (d : Nat) :
    (s.resetWith b em).die d = if d < 4 then { Die.reset with belv := b.belv } else Die.reset := by
  simp only [State.resetWith, State.die, SMap.getD, SMap.get?_map_key, List.mem_range]
  split
  · rfl
  · rfl

theorem get?_islandClocks (n : Nat) (hn : n < 36) : SMap.get? islandClocks n = some 2800 := by
  rw [islandClocks, SMap.get?_map_key, if_pos (List.mem_range.2 hn)]

/-- A board as a reset leaves it: no package failed, no rail down, no cap, and every island at its clock. -/
structure Board.Fresh (b : Board) : Prop where
  failed : b.failed = 0
  railsDown : b.railsDown = 0
  cap : b.cap = none
  freq : b.freq = islandClocks

theorem Board.kept_fresh (b : Board) : b.kept.Fresh := ⟨rfl, rfl, rfl, rfl⟩

/-- No work is left, every register has its reset value, and each die has its verified firmware. -/
def State.Cleared (t : State) : Prop :=
  t.teams = [] ∧ t.grids = [] ∧ t.icinvs = [] ∧ t.turn = none ∧
  (∀ d, 4 ≤ d → t.die d = Die.reset) ∧ (∀ d, d < 4 → t.die d = { Die.reset with belv := t.board.belv }) ∧
  (∀ n, n < 36 → SMap.get? t.board.freq n = some 2800) ∧ (∀ c, t.core c = Core.reset) ∧ (∀ v, t.vf v = Vf.reset) ∧
  t.board.failed = 0 ∧ t.board.railsDown = 0 ∧ t.board.cap = none

/-- Memory holds the capability list of the board and the marked opcodes, and nothing else. -/
def State.CapsListed (t : State) : Prop :=
  Memory.bytes t.mem t.board.capsPa 104 = capsList t.board.caps t.emulated ∧
  ∀ b, b < t.board.capsPa ∨ t.board.capsPa + 104 ≤ b → ZMap.get t.mem b = 0

theorem cleared_resetWith (s : State) {b : Board} (em : BitVec 128) (hb : b.Fresh) : (s.resetWith b em).Cleared := by
  obtain ⟨hfailed, hrails, hcap, hfreq⟩ := hb
  refine ⟨rfl, rfl, rfl, rfl, fun d hd => ?_, fun d hd => ?_, fun n hn => ?_, fun _ => rfl, fun _ => rfl, hfailed, hrails, hcap⟩
  · rw [die_resetWith, if_neg (Nat.not_lt.2 hd)]
  · rw [die_resetWith, if_pos hd]; rfl
  · exact (congrArg (SMap.get? · n) hfreq).trans (get?_islandClocks n hn)

theorem capsListed_resetWith (s : State) (b : Board) (em : BitVec 128) : (s.resetWith b em).CapsListed :=
  ⟨by rw [resetWith_mem, resetWith_board, resetWith_emulated]; exact bytes_capsMemory ..,
    by rw [resetWith_mem, resetWith_board]; exact get_capsMemory_outside _ _ _⟩

/-- The record and memory are no part of what a reset clears. -/
theorem State.Cleared.setFlowMem {t : State} (h : t.Cleared) (f : Flowstone) (m : Memory) :
    ({ t with flow := f, mem := m } : State).Cleared := h

theorem exec_reset {i : Instr} (s : State) (hi : i ∈ [Instr.packageReset, .kioskResetRequest]) : exec i s = .next s.resetPackage := by
  rcases List.mem_pair.1 hi with rfl | rfl
  · rfl
  · rfl

/-- A reset by the board or at the Kiosk's request: the record, the flash and the marked opcodes stay. -/
theorem reset_spec {i : Instr} (s : State) (hi : i ∈ [Instr.packageReset, .kioskResetRequest]) :
    ∃ t, exec i s = .next t ∧ t.Cleared ∧ t.CapsListed ∧ t.emulated = s.emulated ∧ t.flow = s.flow ∧
      t.board.images = s.board.images ∧ t.board.held = s.board.held :=
  ⟨_, exec_reset s hi, cleared_resetWith _ _ ⟨rfl, rfl, rfl, rfl⟩, capsListed_resetWith .., resetWith_emulated ..,
    resetWith_flow .., rfl, rfl⟩

/-- A loss of power erases memory and the record, and holds the package; the flash stays. -/
theorem powerLoss_spec (s : State) :
    ∃ t, exec .powerLoss s = .next t ∧ t.Cleared ∧ t.mem = [] ∧ t.flow = ⟨[], false, 0, 0⟩ ∧
      t.board.images = s.board.images ∧ t.board.held = true := by
  have hc := cleared_resetWith s (b := { s.board.kept with held := true }) 0 ⟨rfl, rfl, rfl, rfl⟩
  exact ⟨_, rfl, hc.setFlowMem .reset [], rfl, rfl, rfl, rfl⟩

/-! ### Power-on (R39, R382) -/

/-- The controller's counter of an image. -/
def Board.counter (b : Board) (n : Nat) : Nat := ((SMap.get? b.images n).map Image.counter).getD 0

theorem imageOk_iff (c : Nat) (x : List Byte × List Byte × Nat) :
    imageOk c x = true ↔ Config.verify x.2.1 (Config.sha3 x.1) = true ∧ c ≤ x.2.2 := by
  simp [imageOk]

/-- The flash after images have been written to it in turn. -/
def Board.loadAll (b : Board) (l : List (Nat × List Byte × List Byte × Nat)) : Board := l.foldl (fun b p => b.load p.1 p.2) b

theorem Board.loadAll_eq (l : List (Nat × List Byte × List Byte × Nat)) (b : Board) :
    b.loadAll l = { b with images := (b.loadAll l).images } := by
  induction l generalizing b with
  | nil => rfl
  | cons p l ih => exact ih (b.load p.1 p.2)

theorem Board.get?_images_load_self {b : Board} {n : Nat} {x : List Byte × List Byte × Nat} (h : imageOk (b.counter n) x = true) :
    SMap.get? (b.load n x).images n = some ⟨x.1, x.2.2⟩ := by
  have hle : b.counter n ≤ x.2.2 := ((imageOk_iff _ _).1 h).2
  have hmax : max (b.counter n) x.2.2 = x.2.2 := Nat.max_eq_right hle
  unfold Board.counter at h hmax
  simp only [Board.load, SMap.get?_set_self, h, if_true, hmax]

theorem Board.get?_images_load_ne (b : Board) {n m : Nat} (x : List Byte × List Byte × Nat) (h : n ≠ m) :
    SMap.get? (b.load n x).images m = SMap.get? b.images m := by
  simp [Board.load, SMap.get?_set, h]

theorem Board.get?_images_loadAll_of_notMem (l : List (Nat × List Byte × List Byte × Nat)) (b : Board) (m : Nat)
    (h : m ∉ l.map Prod.fst) : SMap.get? (b.loadAll l).images m = SMap.get? b.images m := by
  induction l generalizing b with
  | nil => rfl
  | cons p l ih =>
    rw [List.map_cons, List.mem_cons, not_or] at h
    obtain ⟨hp, hl⟩ := h
    exact (ih (b.load p.1 p.2) hl).trans (b.get?_images_load_ne p.2 (Ne.symm hp))

/-- Where every image verifies, the flash holds each of them, and its counter has risen to its version. -/
theorem Board.get?_images_loadAll (l : List (Nat × List Byte × List Byte × Nat)) (b : Board) (hl : (l.map Prod.fst).Nodup)
    (hok : ∀ p ∈ l, imageOk (b.counter p.1) p.2 = true) (p : Nat × List Byte × List Byte × Nat) (hp : p ∈ l) :
    SMap.get? (b.loadAll l).images p.1 = some ⟨p.2.1, p.2.2.2⟩ := by
  induction l generalizing b with
  | nil => simp at hp
  | cons q l ih =>
    obtain ⟨hq, hl⟩ := List.nodup_cons.1 hl
    rcases List.mem_cons.1 hp with rfl | hp
    · exact (Board.get?_images_loadAll_of_notMem l _ _ hq).trans (Board.get?_images_load_self (hok p List.mem_cons_self))
    · refine ih (b.load q.1 q.2) hl (fun r hr => ?_) hp
      have hne : q.1 ≠ r.1 := fun e => hq (e ▸ List.mem_map_of_mem hr)
      have hcount : (b.load q.1 q.2).counter r.1 = b.counter r.1 := by
        rw [Board.counter, b.get?_images_load_ne q.2 hne, Board.counter]
      rw [hcount]
      exact hok r (List.mem_cons_of_mem _ hr)

theorem numbered_keys (l : List (List Byte × List Byte × Nat)) : (numbered l).map Prod.fst = List.range l.length := by
  rw [numbered, List.map_fst_zip (by simp)]

theorem mem_numbered {l : List (List Byte × List Byte × Nat)} {n : Nat} {x : List Byte × List Byte × Nat} (h : l[n]? = some x) :
    (n, x) ∈ numbered l := by
  obtain ⟨hn, hx⟩ := List.getElem?_eq_some_iff.1 h
  refine List.mem_iff_getElem.2 ⟨n, by simpa [numbered] using hn, ?_⟩
  simp [numbered, hx]

/-- A bit of a sum of powers of two with rising exponents is set for the exponents alone. -/
theorem testBit_foldl_twoPow (l : List Nat) (hl : l.SortedLT) (n : Nat) :
    (l.foldl (fun a i => a + 2 ^ i) 0).testBit n = true ↔ n ∈ l := by
  have hsum : l.foldl (fun a i => a + 2 ^ i) 0 = (l.map fun i => 2 ^ i).sum := by
    rw [List.sum_eq_foldl, List.foldl_map]
  rw [hsum, ← Nat.mem_bitIndices, Nat.bitIndices_sum_map_two_pow hl]

theorem definedMajor_of_bit_absentMajors {n : Nat} (h : bit absentMajors n = true) : definedMajor n = false := by
  have hsorted : ((List.range 128).filter fun mo => !(definedMajor mo)).SortedLT :=
    List.Pairwise.sortedLT (List.pairwise_lt_range.filter _)
  rw [bit, absentMajors, BitVec.getLsbD_ofNat, Bool.and_eq_true, testBit_foldl_twoPow _ hsorted] at h
  simpa using (List.mem_filter.1 h.2).2

/-- A major opcode that the table lacks decodes to nothing. The 128 words are decoded one by one: a word that holds a variable opcode
does not unfold. -/
theorem decode_of_not_definedMajor :
    ∀ n, n < 128 → definedMajor n = false → decode (BitVec.ofNat 32 (n * 2 ^ 25)) = .error .absentMajor := by
  decide +kernel

/-- The firmware marks as emulated no major opcode that the table has. -/
theorem decode_of_bit_marks {b : Board} {n : Nat} (hn : n < 128) (h : bit b.marks n = true) :
    decode (BitVec.ofNat 32 (n * 2 ^ 25)) = .error .absentMajor := by
  rw [Board.marks, bit, BitVec.getLsbD_and, Bool.and_eq_true] at h
  exact decode_of_not_definedMajor n hn (definedMajor_of_bit_absentMajors h.2)

/-- The images of a power-on all verify against their counters. -/
def Board.accepts (b : Board) (images : List (List Byte × List Byte × Nat)) : Prop :=
  ∀ p ∈ numbered images, imageOk (b.counter p.1) p.2 = true

theorem Board.accepts_four (x : Board) (a b c d : List Byte × List Byte × Nat) :
    x.accepts [a, b, c, d] ↔ imageOk (x.counter 0) a = true ∧ imageOk (x.counter 1) b = true ∧ imageOk (x.counter 2) c = true ∧
      imageOk (x.counter 3) d = true := by
  simp [Board.accepts, numbered, List.range, List.range.loop]

theorem exec_powerOn_accepted {images : List (List Byte × List Byte × Nat)} {s : State} (hh : s.board.held = true)
    (hl : images.length = 4) (hok : s.board.accepts images) :
    exec (.powerOn images) s = .next (s.resetWith { (s.board.kept.loadAll (numbered images)).configured with
      held := false
      key := Config.identityKey s.tick } (s.board.kept.loadAll (numbered images)).marks) := by
  have hgood : ((numbered images).all fun p => imageOk (s.board.counter p.1) p.2) = true := List.all_eq_true.2 hok
  unfold Board.counter at hgood
  change execPowerOn images s = _
  simp only [execPowerOn, hh, hl, hgood, Board.loadAll]
  rfl

theorem exec_powerOn_refused {images : List (List Byte × List Byte × Nat)} {s : State} (hh : s.board.held = true)
    (hl : images.length = 4) (hok : ¬ s.board.accepts images) :
    exec (.powerOn images) s = .next (s.resetWith { s.board.kept.loadAll (numbered images) with held := true } s.emulated) := by
  have hgood : ((numbered images).all fun p => imageOk (s.board.counter p.1) p.2) = false :=
    Bool.eq_false_iff.2 fun h => hok (List.all_eq_true.1 h)
  unfold Board.counter at hgood
  change execPowerOn images s = _
  simp only [execPowerOn, hh, hl, hgood, Board.loadAll]
  rfl

theorem Board.loadAll_fresh {b : Board} (h : b.Fresh) (l : List (Nat × List Byte × List Byte × Nat)) : (b.loadAll l).Fresh := by
  obtain ⟨hfailed, hrails, hcap, hfreq⟩ := h
  rw [Board.loadAll_eq]
  exact ⟨hfailed, hrails, hcap, hfreq⟩

theorem Board.configured_fresh {b : Board} (h : b.Fresh) : b.configured.Fresh :=
  ⟨h.failed, h.railsDown, h.cap, h.freq⟩

/-- Power on a held package: it is released where every image verifies, with the images in flash. -/
theorem powerOn_spec (images : List (List Byte × List Byte × Nat)) (s : State) (hh : s.board.held = true) (hl : images.length = 4) :
    ∃ t, exec (.powerOn images) s = .next t ∧ t.Cleared ∧ t.CapsListed ∧ t.flow = s.flow ∧
      (t.board.held = false ↔ s.board.accepts images) ∧
      (s.board.accepts images → ∀ n, n < 128 → bit t.emulated n = true → decode (BitVec.ofNat 32 (n * 2 ^ 25)) = .error .absentMajor) ∧
      (s.board.accepts images → ∀ n x, images[n]? = some x → SMap.get? t.board.images n = some ⟨x.1, x.2.2⟩) := by
  have hfresh := Board.loadAll_fresh s.board.kept_fresh (numbered images)
  have hkeys : ((numbered images).map Prod.fst).Nodup := numbered_keys images ▸ List.nodup_range
  by_cases hok : s.board.accepts images
  · have hconf := Board.configured_fresh hfresh
    refine ⟨_, exec_powerOn_accepted hh hl hok, cleared_resetWith _ _ ⟨hconf.failed, hconf.railsDown, hconf.cap, hconf.freq⟩,
      capsListed_resetWith .., resetWith_flow .., ⟨fun _ => hok, fun _ => rfl⟩, fun _ n => decode_of_bit_marks, fun _ n x hx => ?_⟩
    exact Board.get?_images_loadAll _ s.board.kept hkeys hok _ (mem_numbered hx)
  · refine ⟨_, exec_powerOn_refused hh hl hok, cleared_resetWith _ _ ⟨hfresh.failed, hfresh.railsDown, hfresh.cap, hfresh.freq⟩,
      capsListed_resetWith .., resetWith_flow .., ⟨fun h => Bool.noConfusion h, fun h => absurd h hok⟩, fun h => absurd h hok,
      fun h => absurd h hok⟩

/-! ### Measurements (R383) -/

theorem exec_spdmGetMeasurements {index : Nat} {s : State} {bs : List Byte} (h : s.measuredBytes index = some bs) :
    exec (.spdmGetMeasurements index) s = .next { s with board := { s.board with
      measured := toBytes (Config.sha3 bs).toNat 32 ++ Config.sign s.board.key (Config.sha3 bs) } } := by
  change execSpdmGetMeasurements index s = _
  rw [execSpdmGetMeasurements, h]

theorem measuredBytes_image {index : Nat} (s : State) (h1 : 1 ≤ index) (h4 : index ≤ 4) :
    s.measuredBytes index = some (((SMap.get? s.board.images (index - 1)).map Image.bytes).getD []) :=
  if_pos ⟨h1, h4⟩

/-- The measurement of a locked or running function covers the fields that are not open (assumption 60). -/
theorem measuredBytes_block {index : Nat} (s : State) (h1 : 16 ≤ index) (h2 : index < 32)
    (hs : (s.vf (index - 16)).state = 1 ∨ (s.vf (index - 16)).state = 2) :
    s.measuredBytes index = some ((blockFields.filter fun f => !(openFields.contains f.1)).flatMap fun f =>
      Memory.bytes (s.vf (index - 16)).block f.1 f.2) := by
  rw [State.measuredBytes, if_neg (by omega), if_pos ⟨h1, h2, hs⟩]

/-! ### The statement -/

/-- Settles O55, by the lemma above about each step. Resets and power-on go through `State.Cleared` and `State.CapsListed`, which say
what the statement's `cleared` and `listed` say, with the firmware by `Board.belv` and the list by `capsList`. -/
theorem boardAndResets : Obligations.BoardAndResets := by
  unfold Obligations.BoardAndResets
  refine ⟨fun rail pkg die detail pa watts s => ⟨fun hr hup => ⟨_, exec_railDown hr hup, rfl⟩, fun hp hd hf => ?_, ⟨?_, ?_⟩, ?_, ?_⟩,
    fun i is s hh ht hi hr => step_of_held hh ht hi hr, ?_, fun index s => ⟨fun h1 h4 => ?_, fun h1 h2 hs => ?_⟩⟩
  · obtain ⟨f, hexec, hfailed, hothers, habsent⟩ := packageDeclaredFailed_spec hp hd hf
    exact ⟨_, hexec, hfailed, hothers, rfl, rfl, rfl, rfl, rfl, rfl, habsent⟩
  · exact ⟨fun h => congrArg _ (s.event_freezes 13 die 255 0 0 pa 0 h (.inr rfl)),
      fun h => congrArg _ (s.event_of_frozen 13 die 255 0 0 pa 0 h)⟩
  · exact ⟨fun h => congrArg _ (s.event_freezes 12 die 255 0 detail 0 0 h (.inl rfl)),
      fun h => congrArg _ (s.event_of_frozen 12 die 255 0 detail 0 0 h)⟩
  · refine ⟨_, exec_kioskPowerCap watts s, rfl, ?_, rfl, rfl⟩
    dsimp only
    exact exists_cappedFreq_le s
  · exact ⟨_, _, exec_kioskReport s, rfl, rfl, kioskMeasured_length _, rfl⟩
  · intro s cleared listed
    have hcleared (t : State) (ht : t.Cleared) : cleared t := by
      obtain ⟨hteams, hgrids, hicinvs, hturn, hother, hdies, hrest⟩ := ht
      refine ⟨hteams, hgrids, hicinvs, hturn, hother, fun d hd => ?_, hrest⟩
      rw [hdies d hd]
      cases hh : t.board.held with
      | true => simp [Board.belv_of_held hh]
      | false =>
        cases hx : SMap.get? t.board.images 1 with
        | none => simp [Board.belv_of_noImage hx]
        | some x => simp [Board.belv_of_image hh hx]
    have hlisted (t : State) (ht : t.CapsListed) : listed t := by
      obtain ⟨hlist, hzero⟩ := ht
      refine ⟨hlist.trans ?_, hzero⟩
      simp only [capsList, capsEntry, List.append_assoc, List.length_append, toBytes_length, Nat.reduceAdd]
    refine ⟨fun i hi => ?_, ?_, fun a b c d hh => ?_⟩
    · obtain ⟨t, hexec, hc, hl, hkept⟩ := reset_spec s hi
      exact ⟨t, hexec, hcleared t hc, hlisted t hl, hkept⟩
    · obtain ⟨t, hexec, hc, hkept⟩ := powerLoss_spec s
      exact ⟨t, hexec, hcleared t hc, hkept⟩
    · intro count ok all
      have hall : s.board.accepts [a, b, c, d] ↔ all := by
        simp only [Board.accepts_four, imageOk_iff]
        exact Iff.rfl
      obtain ⟨t, hexec, hc, hl, hflow, hheld, hmarks, hflash⟩ := powerOn_spec [a, b, c, d] s hh rfl
      exact ⟨t, hexec, hcleared t hc, hlisted t hl, hflow, hheld.trans hall, fun h => hmarks (hall.2 h), fun h => hflash (hall.2 h)⟩
  · exact exec_spdmGetMeasurements (measuredBytes_image s h1 h4)
  · exact exec_spdmGetMeasurements (measuredBytes_block s h1 h2 hs)

end Sys2Proof.Machine
end

section
/-! PROOFS. The encodings (R17, R19 to R22, R36): a word is read where it was written, and a decoded word is written as it was. -/

namespace Sys2Proof.Machine

/-! ### Fields of a word that is put together -/

/-- Bits hi:lo of a number. -/
def bitsOf (n hi lo : Nat) : Nat := n / 2 ^ lo % 2 ^ (hi + 1 - lo)

theorem bitsOf_mod {hi a : Nat} (h : hi < a) (n lo : Nat) : bitsOf (n % 2 ^ a) hi lo = bitsOf n hi lo := by
  unfold bitsOf
  rcases Nat.lt_or_ge hi lo with hl | hl
  · rw [Nat.sub_eq_zero_of_le hl, Nat.pow_zero, Nat.mod_one, Nat.mod_one]
  · obtain ⟨b, rfl⟩ := Nat.exists_eq_add_of_le (Nat.le_of_lt (Nat.lt_of_le_of_lt hl h))
    rw [Nat.pow_add, Nat.mod_mul_right_div_self, Nat.mod_mod_of_dvd _ (Nat.pow_dvd_pow 2 (by omega))]

theorem fld_ofNat {hi : Nat} (h : hi < 32) (n lo : Nat) : fld (BitVec.ofNat 32 n) hi lo = bitsOf n hi lo := bitsOf_mod h n lo

theorem fbv_ofNat {hi : Nat} (h : hi < 32) (k n lo : Nat) :
    fbv k (BitVec.ofNat 32 n) hi lo = BitVec.ofNat k (bitsOf n hi lo) := by
  rw [fbv, fld_ofNat h]

/-- A field leaves every bit below it. -/
theorem bitsOf_plus_below {k l hi : Nat} (h : hi < l) (m : Nat) (x : BitVec k) (lo : Nat) :
    bitsOf (plus m x l) hi lo = bitsOf m hi lo := by
  rw [← bitsOf_mod h, plus, Nat.add_mul_mod_self_right, bitsOf_mod h]

/-- A field is read where it was put, if the place was free. -/
theorem bitsOf_plus_self {k l hi m : Nat} (h : bitsOf m hi l = 0) (hk : hi + 1 = l + k) (x : BitVec k) :
    bitsOf (plus m x l) hi l = x.toNat := by
  unfold bitsOf plus at *
  rw [Nat.add_mul_div_right _ _ (Nat.two_pow_pos l), Nat.add_mod, h, Nat.zero_add, Nat.mod_mod, hk, Nat.add_sub_cancel_left,
    Nat.mod_eq_of_lt x.isLt]

theorem plus_div {k l m : Nat} (h : m / 2 ^ l % 2 ^ k = 0) (x : BitVec k) : plus m x l / 2 ^ (l + k) = m / 2 ^ (l + k) := by
  have hm := Nat.div_add_mod (m / 2 ^ l) (2 ^ k)
  rw [h, Nat.add_zero] at hm
  rw [plus, Nat.pow_add, ← Nat.div_div_eq_div_mul, ← Nat.div_div_eq_div_mul, Nat.add_mul_div_right _ _ (Nat.two_pow_pos l), ← hm,
    Nat.mul_add_div (Nat.two_pow_pos k), Nat.div_eq_of_lt x.isLt, Nat.mul_div_cancel_left _ (Nat.two_pow_pos k), Nat.add_zero]

/-- A field that is put into a free place leaves every bit above it. -/
theorem bitsOf_plus_above {k l lo m : Nat} (h : bitsOf m (l + k - 1) l = 0) (hl : l + k ≤ lo) (hk : 0 < k) (x : BitVec k)
    (hi : Nat) : bitsOf (plus m x l) hi lo = bitsOf m hi lo := by
  rw [bitsOf, Nat.sub_add_cancel (by omega), Nat.add_sub_cancel_left] at h
  obtain ⟨b, rfl⟩ := Nat.exists_eq_add_of_le hl
  rw [bitsOf, bitsOf, Nat.pow_add, ← Nat.div_div_eq_div_mul, plus_div h, Nat.div_div_eq_div_mul]

/-- Two adjacent fields hold a value together when each holds its part of it. -/
theorem bitsOf_eq_iff (hi mid lo : Nat) (h : lo < mid ∧ mid ≤ hi) (n v : Nat) :
    bitsOf n hi lo = v ↔ bitsOf n hi mid = v / 2 ^ (mid - lo) ∧ bitsOf n (mid - 1) lo = v % 2 ^ (mid - lo) := by
  obtain ⟨hlo, hhi⟩ := h
  obtain ⟨b, rfl⟩ := Nat.exists_eq_add_of_le (Nat.le_of_lt hlo)
  obtain ⟨a, ha⟩ := Nat.exists_eq_add_of_le (Nat.le_add_right_of_le (k := 1) hhi)
  have hwhole : hi + 1 - lo = b + a := by omega
  have hupper : hi + 1 - (lo + b) = a := by omega
  have hlower : lo + b - 1 + 1 - lo = b := by omega
  have hlt : n / 2 ^ lo % 2 ^ b < 2 ^ b := Nat.mod_lt _ (Nat.two_pow_pos b)
  unfold bitsOf
  rw [hwhole, hupper, hlower, Nat.add_sub_cancel_left, Nat.pow_add 2 lo, ← Nat.div_div_eq_div_mul, Nat.pow_add, Nat.mod_mul]
  constructor
  · rintro rfl
    rw [Nat.add_mul_div_left _ _ (Nat.two_pow_pos b), Nat.div_eq_of_lt hlt, Nat.zero_add, Nat.add_mul_mod_self_left, Nat.mod_eq_of_lt hlt]
    exact ⟨rfl, rfl⟩
  · rintro ⟨hd, hm⟩
    rw [hd, hm, Nat.mod_add_div]

/-! ### The rows of the opcode map (R36) -/

/-- The forms of the major opcodes 0x00 to 0x0F. The rows below are those of the next sixteen majors each. -/
def row0 (column : Nat) (w : IWord) : Except DecodeError Instr :=
  match column with
  | 0 => decode00 w | 1 => decode01 w | 2 => decode02 w | 3 => decode03 w | 4 => decode04 w | 5 => decode05 w | 6 => decode06 w
  | 7 => decode07 w | 8 => decode08 w | 9 => decode09 w | 10 => decode0A w | 12 => decode0C w | 13 => decode0D w
  | 14 => decode0E w | _ => .error .absentMajor

def row1 (column : Nat) (w : IWord) : Except DecodeError Instr :=
  match column with
  | 0 => decode10 w | 1 => decode11 w | 2 => decode12 w | 3 => decode13 w | 4 => decode14 w | 5 => decode15 w | 6 => decode16 w
  | 7 => decode17 w | 8 => decode18 w | 9 => decode19 w | 10 => decode1A w | 11 => decode1B w | _ => .error .absentMajor

def row2 (column : Nat) (w : IWord) : Except DecodeError Instr :=
  match column with
  | 0 => decode20 w | 1 => decode21 w | 2 => decode22 w | 3 => decode23 w | 4 => decode24 w | 5 => decode25 w | 6 => decode26 w
  | 7 => decode27 w | 8 => decode28 w | 9 => decode29 w | 10 => decode2A w | 11 => decode2B w | 12 => decode2C w
  | 13 => decode2D w | 14 => decode2E w | 15 => decode2F w | _ => .error .absentMajor

def row3 (column : Nat) (w : IWord) : Except DecodeError Instr :=
  match column with
  | 0 => decode30 w | 1 => decode31 w | 2 => decode32 w | 3 => decode33 w | 4 => decode34 w | 5 => decode35 w | 6 => decode36 w
  | 7 => decode37 w | 8 => decode38 w | 9 => decode39 w | 10 => decode3A w | _ => .error .absentMajor

def row4 (column : Nat) (w : IWord) : Except DecodeError Instr :=
  match column with
  | 0 => decode40 w | 1 => decode41 w | 2 => decode42 w | 3 => decode43 w | 4 => decode44 w | 5 => decode45 w | 6 => decode46 w
  | 7 => decode47 w | 8 => decode48 w | 9 => decode49 w | 10 => decode4A w | 11 => decode4B w | 12 => decode4C w
  | 13 => decode4D w | _ => .error .absentMajor

def row5 (column : Nat) (w : IWord) : Except DecodeError Instr :=
  match column with
  | 0 => decode50 w | 1 => decode51 w | 2 => decode52 w | 3 => decode53 w | 4 => decode54 w | 8 => decode58 w | 9 => decode59 w
  | 10 => decode5A w | 11 => decode5B w | 12 => decode5C w | 13 => decode5D w | 14 => decode5E w | _ => .error .absentMajor

def row6 (column : Nat) (w : IWord) : Except DecodeError Instr :=
  match column with
  | 0 => decode60 w | 1 => decode61 w | 2 => decode62 w | 3 => decode63 w | 4 => decode64 w | 5 => decode65 w | 6 => decode66 w
  | 7 => decode67 w | 8 => decode68 w | 9 => decode69 w | 10 => decode6A w | 11 => decode6B w | _ => .error .absentMajor

def row7 (column : Nat) (w : IWord) : Except DecodeError Instr :=
  match column with
  | 0 => decode70 w | 1 => decode71 w | 2 => decode72 w | 3 => decode73 w | 15 => decode7F w | _ => .error .absentMajor

/-- The forms of a major opcode, by row and column of the map. -/
def mapRow (major : Nat) (w : IWord) : Except DecodeError Instr :=
  match major / 16 with
  | 0 => row0 (major % 16) w
  | 1 => row1 (major % 16) w
  | 2 => row2 (major % 16) w
  | 3 => row3 (major % 16) w
  | 4 => row4 (major % 16) w
  | 5 => row5 (major % 16) w
  | 6 => row6 (major % 16) w
  | 7 => row7 (major % 16) w
  | _ => .error .absentMajor

theorem decodeForm_eq_mapRow (w : IWord) : decodeForm w = mapRow (fld w 31 25) w := by
  have hlt : fld w 31 25 < 128 := Nat.mod_lt _ (by decide)
  unfold decodeForm
  generalize fld w 31 25 = major at hlt ⊢
  interval_cases major <;> rfl

/-! ### Reading a word that was written

Each proof below takes the instructions of some rows one by one: their constructors stand in the order of the map, and a row of no word of
these is set aside. It reads the major opcode, then the conditions of the forms, then the fields, by the lemmas on `bitsOf`; a condition
on bits that more than one field holds is taken apart at the fields' border. -/

/-- Words of control and of scalar instructions: rows 0 and 1 of the map. -/
theorem decodeForm_encodeNat_scalar {i : Instr} {n : Nat} (hi : (0 ≤ i.ctorIdx ∧ i.ctorIdx < 69 : Bool) = true)
    (hwf : fieldsOk i = true) (h : encodeNat i = some n) : decodeForm (BitVec.ofNat 32 n) = .ok i := by
  cases i
  all_goals cases hi
  all_goals cases h
  all_goals rw [decodeForm_eq_mapRow, fld_ofNat (by decide)]
  all_goals simp +decide only [bitsOf_plus_below, bitsOf_plus_above]
  all_goals simp only [bitsOf, Nat.reducePow, Nat.reduceDiv, Nat.reduceMod, Nat.reduceAdd, Nat.reduceSub, mapRow, row0, row1]
  all_goals simp +decide only [↓reduceIte, and_true, false_and, and_false, fld_ofNat, fbv_ofNat, bitsOf_plus_below,
    bitsOf_plus_above, bitsOf_plus_self, BitVec.ofNat_toNat, BitVec.setWidth_eq,
    decode00, decode01, decode02, decode03, decode04, decode05, decode06, decode08, decode09, decode0A, decode0C, decode0D,
    decode0E, decode10, decode11, decode12, decode13, decode14, decode15, decode16, decode17, decode18, decode19, decode1A, decode1B,
    bitsOf_eq_iff 24 22 19 (by decide), bitsOf_eq_iff 24 22 17 (by decide), bitsOf_eq_iff 24 22 1 (by decide),
    bitsOf_eq_iff 24 22 0 (by decide)]

/-- Words of vector and of mask instructions: rows 2 and 3 of the map. -/
theorem decodeForm_encodeNat_vector {i : Instr} {n : Nat} (hi : (69 ≤ i.ctorIdx ∧ i.ctorIdx < 133 : Bool) = true)
    (hwf : fieldsOk i = true) (h : encodeNat i = some n) : decodeForm (BitVec.ofNat 32 n) = .ok i := by
  cases i
  all_goals cases hi
  all_goals cases h
  all_goals rw [decodeForm_eq_mapRow, fld_ofNat (by decide)]
  all_goals simp +decide only [bitsOf_plus_below, bitsOf_plus_above]
  all_goals simp only [bitsOf, Nat.reducePow, Nat.reduceDiv, Nat.reduceMod, Nat.reduceAdd, Nat.reduceSub, mapRow, row2, row3]
  all_goals simp +decide only [↓reduceIte, and_true, and_false, fld_ofNat, fbv_ofNat, bitsOf_plus_below,
    bitsOf_plus_above, bitsOf_plus_self, BitVec.ofNat_toNat, BitVec.setWidth_eq,
    decode20, decode21, decode22, decode23, decode24, decode25, decode26, decode27, decode28, decode29, decode2A, decode2B, decode2C,
    decode2D, decode2E, decode2F, decode30, decode31, decode32, decode33, decode34, decode35, decode36, decode37, decode38, decode39,
    decode3A, bitsOf_eq_iff 15 3 1 (by decide), bitsOf_eq_iff 9 4 1 (by decide)]

/-- Words of cross-lane and matrix instructions, of memory accesses, copies, arrays, scopes and hints: rows 4 to 7 of the map. -/
theorem decodeForm_encodeNat_memory {i : Instr} {n : Nat} (hi : (133 ≤ i.ctorIdx ∧ i.ctorIdx < 213 : Bool) = true)
    (hwf : fieldsOk i = true) (h : encodeNat i = some n) : decodeForm (BitVec.ofNat 32 n) = .ok i := by
  cases i
  all_goals cases hi
  all_goals cases h
  all_goals rw [decodeForm_eq_mapRow, fld_ofNat (by decide)]
  all_goals simp +decide only [bitsOf_plus_below, bitsOf_plus_above]
  all_goals simp only [bitsOf, Nat.reducePow, Nat.reduceDiv, Nat.reduceMod, Nat.reduceAdd, Nat.reduceSub, mapRow, row4, row5, row6, row7]
  case gld.refl.refl k t b o f c =>
    have hf : f.toNat ≠ 7 := by
      simp only [fieldsOk, Bool.and_eq_true, decide_eq_true_eq] at hwf
      omega
    simp +decide only [↓reduceIte, fld_ofNat, fbv_ofNat, bitsOf_plus_below, bitsOf_plus_above, bitsOf_plus_self, BitVec.ofNat_toNat,
      BitVec.setWidth_eq, decode58, hf]
  all_goals simp +decide only [↓reduceIte, and_true, false_and, and_false, fld_ofNat, fbv_ofNat, bitsOf_plus_below,
    bitsOf_plus_above, bitsOf_plus_self, BitVec.ofNat_toNat, BitVec.setWidth_eq,
    decode40, decode41, decode42, decode43, decode44, decode45, decode46, decode47, decode48, decode49, decode4A, decode4B, decode4C,
    decode4D, decode50, decode51, decode52, decode53, decode54, decode58, decode59, decode5A, decode5B, decode5C, decode5D, decode5E,
    decode60, decode61, decode62, decode63, decode64, decode65, decode66, decode67, decode68, decode69, decode6A, decode6B, decode70,
    decode71, decode72, decode73, decode7F, bitsOf_eq_iff 24 22 17 (by decide), bitsOf_eq_iff 24 22 4 (by decide),
    bitsOf_eq_iff 24 22 2 (by decide), bitsOf_eq_iff 24 22 1 (by decide), bitsOf_eq_iff 15 3 1 (by decide),
    bitsOf_eq_iff 9 2 1 (by decide), bitsOf_eq_iff 4 3 1 (by decide), bitsOf_eq_iff 4 4 3 (by decide)]

/-- No row of the table but those of the opcode map has a word. -/
theorem ctorIdx_lt_of_encodeNat {i : Instr} {n : Nat} (h : encodeNat i = some n) : i.ctorIdx < 213 := by
  cases i
  all_goals cases h
  all_goals exact of_decide_eq_true rfl

theorem decodeForm_encodeNat {i : Instr} {n : Nat} (hwf : fieldsOk i = true) (h : encodeNat i = some n) :
    decodeForm (BitVec.ofNat 32 n) = .ok i := by
  have hlt := ctorIdx_lt_of_encodeNat h
  rcases Nat.lt_or_ge i.ctorIdx 69 with h1 | h1
  · exact decodeForm_encodeNat_scalar (by simp [h1]) hwf h
  rcases Nat.lt_or_ge i.ctorIdx 133 with h2 | h2
  · exact decodeForm_encodeNat_vector (by simp [h1, h2]) hwf h
  · exact decodeForm_encodeNat_memory (by simp [h2, hlt]) hwf h

/-! ### Writing a word that was read -/

/-- The part of a word below bit `k`: a field is the difference of two of these, so that the fields of a word add up to it. -/
def lowBits (w : IWord) (k : Nat) : Nat := w.toNat % 2 ^ k

theorem lowBits_zero (w : IWord) : lowBits w 0 = 0 := Nat.mod_one _

theorem lowBits_all (w : IWord) : lowBits w 32 = w.toNat := Nat.mod_eq_of_lt w.isLt

theorem lowBits_succ {hi lo : Nat} (h : lo ≤ hi) (w : IWord) : fld w hi lo * 2 ^ lo + lowBits w lo = lowBits w (hi + 1) := by
  obtain ⟨b, hb⟩ := Nat.exists_eq_add_of_le (Nat.le_add_right_of_le (k := 1) h)
  rw [lowBits, lowBits, fld, hb, Nat.add_sub_cancel_left, Nat.pow_add, Nat.mod_mul, Nat.mul_comm, Nat.add_comm]

theorem fld_eq_iff {hi lo : Nat} (h : lo ≤ hi) (w : IWord) (v : Nat) :
    fld w hi lo = v ↔ v * 2 ^ lo + lowBits w lo = lowBits w (hi + 1) := by
  rw [← lowBits_succ h, Nat.add_right_cancel_iff, Nat.mul_left_inj (Nat.two_pow_pos lo).ne', eq_comm]

theorem cast_plus_fbv {k hi lo : Nat} (h : lo ≤ hi) (hk : hi + 1 - lo = k) (m : Nat) (w : IWord) :
    ((plus m (fbv k w hi lo) lo : Nat) : Int) = (m : Int) + (lowBits w (hi + 1) - lowBits w lo) := by
  have hlt : fld w hi lo < 2 ^ k := hk ▸ Nat.mod_lt _ (Nat.two_pow_pos _)
  rw [plus, fbv, BitVec.toNat_ofNat, Nat.mod_eq_of_lt hlt, ← lowBits_succ h]
  push_cast
  ring

/-- What a decoder answers for a word has that word. -/
def Encodes (w : IWord) (r : Except DecodeError Instr) : Prop := ∀ i, r = .ok i → encodeNat i = some w.toNat

theorem encodes_error (w : IWord) (e : DecodeError) : Encodes w (.error e) ↔ True := iff_true_intro fun _ h => nomatch h

theorem encodes_ok (w : IWord) (i : Instr) : Encodes w (.ok i) ↔ encodeNat i = some w.toNat :=
  ⟨fun h => h i rfl, by rintro h _ ⟨⟩; exact h⟩

theorem Encodes.ite {w : IWord} {p : Prop} [Decidable p] {a b : Except DecodeError Instr} (ha : p → Encodes w a) (hb : Encodes w b) :
    Encodes w (if p then a else b) := by
  split
  · exact ha ‹_›
  · exact hb

theorem some_eq_some_toNat (n : Nat) (w : IWord) : some n = some w.toNat ↔ (n : Int) = lowBits w 32 := by
  rw [lowBits_all, Option.some.injEq, Int.natCast_inj]

/-- By the major opcode and then by the forms: the opcode, the form's condition and its fields add up to the word. -/
theorem encodes_decodeForm (w : IWord) : Encodes w (decodeForm w) := by
  unfold decodeForm
  split
  all_goals rename_i hmajor
  rotate_right
  · exact (encodes_error w _).2 trivial
  all_goals simp +decide only [fld_eq_iff, Nat.reduceAdd] at hmajor
  all_goals simp only [
    decode00, decode01, decode02, decode03, decode04, decode05, decode06, decode07, decode08, decode09, decode0A, decode0C, decode0D,
    decode0E, decode10, decode11, decode12, decode13, decode14, decode15, decode16, decode17, decode18, decode19, decode1A, decode1B,
    decode20, decode21, decode22, decode23, decode24, decode25, decode26, decode27, decode28, decode29, decode2A, decode2B, decode2C,
    decode2D, decode2E, decode2F, decode30, decode31, decode32, decode33, decode34, decode35, decode36, decode37, decode38, decode39,
    decode3A, decode40, decode41, decode42, decode43, decode44, decode45, decode46, decode47, decode48, decode49, decode4A, decode4B,
    decode4C, decode4D, decode50, decode51, decode52, decode53, decode54, decode58, decode59, decode5A, decode5B, decode5C, decode5D,
    decode5E, decode60, decode61, decode62, decode63, decode64, decode65, decode66, decode67, decode68, decode69, decode6A, decode6B,
    decode70, decode71, decode72, decode73, decode7F]
  all_goals repeat' apply Encodes.ite
  all_goals simp +decide only [encodes_error, encodes_ok, implies_true, encodeNat, some_eq_some_toNat, fld_eq_iff, cast_plus_fbv,
    Nat.cast_ofNat, lowBits_zero, Nat.reduceAdd]
  all_goals omega

/-! ### The statements -/

theorem decode_eq_ok_iff (w : IWord) (i : Instr) : decode w = .ok i ↔ decodeForm w = .ok i ∧ i.wf = true := by
  unfold decode
  cases decodeForm w with
  | error e => simp
  | ok j =>
    by_cases hj : j.wf = true
    · simp only [hj, if_true, Except.ok.injEq, iff_self_and]
      rintro rfl
      exact hj
    · simp only [hj, if_false, reduceCtorEq, Except.ok.injEq, false_iff]
      rintro ⟨rfl, hwf⟩
      exact hj hwf

theorem encode_eq_some_iff (i : Instr) (w : IWord) : encode i = some w ↔ ∃ n, encodeNat i = some n ∧ BitVec.ofNat 32 n = w :=
  Option.map_eq_some_iff

/-- Settles O57: a word that is put together is read field by field, and the fields of a word that is read add up to it. -/
theorem encodingRoundTrip : Obligations.EncodingRoundTrip := by
  unfold Obligations.EncodingRoundTrip
  refine ⟨fun i w hwf he => ?_, fun w i hd => ?_⟩
  · obtain ⟨n, hn, rfl⟩ := (encode_eq_some_iff i w).1 he
    exact (decode_eq_ok_iff _ _).2 ⟨decodeForm_encodeNat hwf hn, hwf⟩
  · obtain ⟨hform, hwf⟩ := (decode_eq_ok_iff w i).1 hd
    exact ⟨hwf, (encode_eq_some_iff i w).2 ⟨w.toNat, encodes_decodeForm w i hform, BitVec.ofNat_toNat 32 w |>.trans (BitVec.setWidth_eq w)⟩⟩

/-- Settles O58: each of the words is the one that its instruction is written as, and so is read as that instruction. -/
theorem decodedWords : Obligations.DecodedWords := by
  have hread {i : Instr} {w : IWord} (hwf : i.wf = true) (he : encode i = some w) : decode w = .ok i := encodingRoundTrip.1 i w hwf he
  unfold Obligations.DecodedWords
  refine ⟨hread ?_ ?_, hread ?_ ?_, hread ?_ ?_, hread ?_ ?_, hread ?_ ?_, hread ?_ ?_, hread ?_ ?_, hread ?_ ?_, hread ?_ ?_,
    hread ?_ ?_, hread ?_ ?_⟩
  all_goals rfl

end Sys2Proof.Machine
end

section
/-! PROOFS. Control: hint words, branches and jumps (R20, R29 to R35, R279, R286, R287). -/

namespace Sys2Proof.Machine

/-! ### Fragments -/

theorem Gang.get?_of_frag? {g : Gang} {n : Nat} {f : Fragment} (h : g.frag? n = some f) : SMap.get? g.entries n = some (.frag f) := by
  simp only [Gang.frag?] at h
  split at h
  · cases h; assumption
  · cases h

/-- A change of the issuing fragment. -/
theorem gang?_modFrag {u : State} {c : Ctx} {g : Gang} {f : Fragment} (hu : u.gang? c.ref.team c.ref.gang = some g)
    (hf : g.frag? c.ref.frag = some f) (m : Fragment → Fragment) :
    (u.modFrag c.ref m).gang? c.ref.team c.ref.gang = some (g.setFrag c.ref.frag (m f)) := by
  simp only [State.modFrag, State.gang?_modGang, and_self, if_true, hu, Option.map_some, hf]

theorem Ctx.Kept.modFrag {c : Ctx} {s u : State} {l : Loose} (h : c.Kept s u l) (m : Fragment → Fragment) :
    c.Kept s (u.modFrag c.ref m) l := h.modGang _

/-! ### Hint words -/

/-- A hint word is put before the hints that the fragment holds, and the turn stays with it. -/
theorem takeHint_spec {s : State} {c : Ctx} (hc : s.ctx? = some c) (i : Instr) (h : Hint) :
    ∃ t x, takeHint i h s = .next t ∧ t.turn = some c.ref ∧ t.gang? c.ref.team c.ref.gang = some x ∧ c.Kept s t {} ∧
      x.noTable = c.gang.noTable ∧
      x.frag? c.ref.frag = some { c.frag with hints := (if fieldsOk i then h else .bad) :: c.frag.hints } ∧
      ∀ m, m ≠ c.ref.frag → SMap.get? x.entries m = SMap.get? c.gang.entries m := by
  obtain ⟨-, hgang, hfrag, -⟩ := ctx?_spec hc
  have he : takeHint i h s = .next (({ s with turn := some c.ref }).modFrag c.ref fun f =>
      { f with hints := (if fieldsOk i then h else .bad) :: f.hints }) := by simp only [takeHint, hc]
  refine ⟨_, _, he, rfl, gang?_modFrag (u := { s with turn := some c.ref }) hgang hfrag _,
    ((Ctx.Kept.refl hc {}).turn _).modFrag _, rfl, ?_, fun m hm => ?_⟩
  · rw [Gang.frag?_setFrag, if_pos rfl]
  · rw [Gang.setFrag, SMap.get?_set, if_neg (Ne.symm hm)]

/-- Settles O17: each hint instruction is `takeHint` of its payload. -/
theorem hintWords : Obligations.HintWords := by
  unfold Obligations.HintWords
  intro p f v r g n o w s c hc
  exact ⟨takeHint_spec hc _ _, takeHint_spec hc _ _, takeHint_spec hc _ _, takeHint_spec hc _ _, takeHint_spec hc _ _⟩

/-! ### Displacements -/

theorem sext_toNat {n : Nat} (hn : 0 < n) (x : BitVec n) : sext x.toNat n = x.toInt := by
  have hpow : 2 ^ n = 2 * 2 ^ (n - 1) := by rw [← Nat.pow_succ', Nat.succ_eq_add_one, Nat.sub_add_cancel hn]
  rw [sext, Nat.mod_eq_of_lt x.isLt, BitVec.toInt_eq_toNat_cond, hpow]
  by_cases h : x.toNat < 2 ^ (n - 1)
  · rw [if_pos h, if_pos (by omega)]
  · rw [if_neg h, if_neg (by omega)]

/-- The signed value of a field that a bit vector holds. -/
theorem sext_eq_toInt {n : Nat} (hn : 0 < n) {m : Nat} {x : BitVec n} (h : x.toNat = m) : sext m n = x.toInt := h ▸ sext_toNat hn x

theorem toNat_append_eq {m n : Nat} (x : BitVec m) (y : BitVec n) : (x ++ y).toNat = x.toNat * 2 ^ n + y.toNat := by
  rw [BitVec.toNat_append, ← Nat.shiftLeft_add_eq_or_of_lt y.isLt, Nat.shiftLeft_eq]

theorem immS_none {n : Nat} (hn : 0 < n) (d : BitVec n) {hs : List Hint} (h : immHints hs = []) : immS d hs = d.toInt := by
  simp only [immS, immExt, h, List.foldl_nil]
  exact sext_toNat hn d

theorem immS_one {n : Nat} (d : BitVec n) {hs : List Hint} {p : BitVec 22} (h : immHints hs = [p]) :
    immS d hs = (p ++ d).toInt := by
  simp only [immS, immExt, h, List.foldl_cons, List.foldl_nil]
  rw [Nat.add_comm n]
  exact sext_eq_toInt (by omega) (toNat_append_eq p d)

theorem immS_two {n : Nat} (d : BitVec n) {hs : List Hint} {p q : BitVec 22} (h : immHints hs = [p, q]) :
    immS d hs = (q ++ p ++ d).toInt := by
  simp only [immS, immExt, h, List.foldl_cons, List.foldl_nil]
  have hw : n + 22 + 22 = 22 + 22 + n := by omega
  rw [hw]
  refine sext_eq_toInt (by omega) ?_
  rw [toNat_append_eq, toNat_append_eq, Nat.add_mul, Nat.mul_assoc, ← Nat.pow_add, Nat.add_comm 22 n, Nat.add_assoc]

/-- The limits of R29 leave at most two immediate hints. -/
theorem immHints_length_le {u : Use} {hs : List Hint} (h : u.hintsOk hs = true) : (immHints hs).length ≤ 2 := by
  have hlen : (immHints hs).length = (hs.filter fun x => x.kind == 0).length := by
    clear h
    induction hs with
    | nil => rfl
    | cons x hs ih => cases x <;> simp_all [immHints, Hint.kind]
  simp only [Use.hintsOk, hintLimits, Bool.and_eq_true, List.all_eq_true, decide_eq_true_eq] at h
  have := h.1.1.2 0 (by decide)
  rw [hlen]
  simpa using this

/-- A unit that passes the checks of R37 has valid fields, and hints that its target accepts. -/
theorem gate_go_valid {i : Instr} {c : Ctx} (hill : isIll i = false) (h : gate i c = .go) :
    fieldsOk i = true ∧ (use i).hintsOk c.hints = true := by
  simp only [gate, hill, Bool.false_eq_true, if_false] at h
  split at h
  · cases h
  · next hok =>
    simp only [Bool.not_eq_true', Bool.not_eq_false, Bool.and_eq_true] at hok
    exact hok.1

/-- The immediate hints of a unit that runs: none, one or two. -/
theorem Runs.immHints_cases {i : Instr} {s : State} {c : Ctx} (hr : Runs i s c) (hill : isIll i = false) :
    immHints c.hints = [] ∨ (∃ p, immHints c.hints = [p]) ∨ ∃ p q, immHints c.hints = [p, q] := by
  have hlen := immHints_length_le (gate_go_valid hill hr.gate).2
  generalize immHints c.hints = ps at hlen ⊢
  rcases ps with _ | ⟨p, _ | ⟨q, _ | ⟨r, l⟩⟩⟩
  · exact .inl rfl
  · exact .inr (.inl ⟨p, rfl⟩)
  · exact .inr (.inr ⟨p, q, rfl⟩)
  · simp at hlen

/-! ### Jumps -/

/-- The fusing of a taken branch (R285) may give the fragment the lanes of another, and changes no more than the split table. -/
theorem maybeFuse_spec {s u : State} {c : Ctx} {g : Gang} {l : Loose} {pc : Word} (hu : u.gang? c.ref.team c.ref.gang = some g)
    (hk : c.Kept s u l) : ∃ h, (c.maybeFuse u pc).gang? c.ref.team c.ref.gang = some h ∧ h.noTable = g.noTable ∧
      c.Kept s (c.maybeFuse u pc) l ∧ (c.maybeFuse u pc).turn = u.turn ∧ (c.GoesOn g pc → c.GoesOn h pc) := by
  unfold Ctx.maybeFuse
  split
  · exact ⟨g, hu, rfl, hk, rfl, id⟩
  refine ⟨_, gang?_modG hu _, ?_, hk.modGang _, rfl, ?_⟩
  · dsimp only
    split
    · rfl
    · split
      · rfl
      · split <;> rfl
  · rintro ⟨f, hf, hpc, hwait, hhints, hjoin⟩
    simp only [hf]
    split
    · exact ⟨f, hf, hpc, hwait, hhints, hjoin⟩
    · split
      · exact ⟨f, hf, hpc, hwait, hhints, hjoin⟩
      · next p _ _ _ =>
        refine ⟨{ f with active := f.active ||| p.2.active }, ?_, hpc, hwait, hhints, hjoin⟩
        simp only [Gang.frag?, SMap.get?_set_self]

/-- The filling of a loop buffer changes no gang, and nothing that a program reads. -/
theorem maybeLoop_spec {s u : State} {c : Ctx} {l : Loose} (pc : Word) (hk : c.Kept s u l) :
    (∀ t g, (c.maybeLoop u pc).gang? t g = u.gang? t g) ∧ c.Kept s (c.maybeLoop u pc) l ∧ (c.maybeLoop u pc).turn = u.turn := by
  unfold Ctx.maybeLoop
  split
  · split
    · exact ⟨fun _ _ => rfl, hk, rfl⟩
    · exact ⟨fun _ _ => rfl, hk.modQuad _ _ _ fun _ => rfl, rfl⟩
  · exact ⟨fun _ _ => rfl, hk, rfl⟩

/-- A unit whose meaning answers with an address completes there. -/
theorem unit_goto {i : Instr} {s u : State} {c : Ctx} {g : Gang} {l : Loose} {w : Writes} {body : Ctx → State → Res} {pc : Word}
    (hr : Runs i s c) (hb : body c (c.counted s) = .goto u pc) (hu : u.gang? c.ref.team c.ref.gang = some g)
    (he : g.entries = c.gang.entries) (hk : c.Kept s u l) (hd : w.Done c.w c.gang g) :
    ∃ t h, perform i body s = .next t ∧ t.gang? c.ref.team c.ref.gang = some h ∧ w.Done c.w c.gang h ∧ c.Kept s t l ∧ t.turn = none ∧
      (c.Free → c.GoesOn h pc) := by
  obtain ⟨h, hgang, hregs, hkept, hturn, hgoes⟩ := retire_spec hr.ctx hu he hk false pc none
  obtain ⟨lgang, lkept, lturn⟩ := maybeLoop_spec pc hkept
  obtain ⟨x, fgang, fregs, fkept, fturn, fgoes⟩ := maybeFuse_spec (pc := pc) ((lgang _ _).trans hgang) lkept
  refine ⟨_, x, ?_, (schedule_gang? ..).trans fgang, hd.congr (fregs.trans hregs), fkept.schedule i,
    (schedule_turn ..).trans (fturn.trans (lturn.trans hturn)), fun hf => fgoes (hgoes hf).1⟩
  exact (perform_go body hr.ctx hr.gate).trans (by rw [hb]; simp only [Ctx.finish, Ctx.complete, hr.budget, if_true])

/-- A jump that writes no register. -/
theorem jumpsTo {i : Instr} {s : State} {c : Ctx} {body : Ctx → State → Res} {pc : Word} (hr : Runs i s c)
    (he : exec i s = perform i body s) (hb : body c (c.counted s) = .goto (c.counted s) pc) : JumpsTo i s c {} pc := by
  obtain ⟨t, h, h1, h2, h3, h4, h5, h6⟩ := unit_goto (l := {}) hr hb (gang?_counted hr.ctx) (by simp) (Ctx.Kept.counted hr.ctx _)
    (done_count _ _)
  exact ⟨t, h, he.trans h1, h2, h3, h4, h5, h6, trivial⟩

/-- A jump that writes a scalar register. -/
theorem jumpsTo_setS {i : Instr} {s : State} {c : Ctx} {body : Ctx → State → Res} {d : BitVec 5} {x pc : Word} (hr : Runs i s c)
    (he : exec i s = perform i body s) (hb : body c (c.counted s) = .goto (c.setS (c.counted s) d x) pc) :
    JumpsTo i s c (.scalar d x) pc := by
  obtain ⟨t, h, h1, h2, h3, h4, h5, h6⟩ := unit_goto (w := .scalar d x) (l := {}) hr hb (gang?_modG (gang?_counted hr.ctx) _) (by simp)
    ((Ctx.Kept.counted hr.ctx _).modGang _) ((done_count _ _).setS rfl _ _)
  exact ⟨t, h, he.trans h1, h2, h3, h4, h5, h6, trivial⟩

/-- A unit that does nothing but complete. -/
theorem completes_counted {i : Instr} {s : State} {c : Ctx} {body : Ctx → State → Res} (hr : Runs i s c)
    (he : exec i s = perform i body s) (hb : body c (c.counted s) = .next (c.counted s)) : Completes i s c {} := by
  obtain ⟨t, h, h1, h2, h3, h4, h5, h6⟩ := unit_next (l := {}) hr hb (gang?_counted hr.ctx) (by simp) (Ctx.Kept.counted hr.ctx _)
    (done_count _ _)
  exact ⟨t, h, he.trans h1, h2, h3, h4, h5, h6, trivial⟩

/-- R279, R286: a branch on a condition. -/
theorem branch_jumps {n : Nat} {i : Instr} {d : BitVec n} {cond : Ctx → Bool} {s : State} {c : Ctx} {p : Prop} (hr : Runs i s c)
    (he : exec i s = branchOp i d cond s) (hp : cond c = true ↔ p) :
    (p → JumpsTo i s c {} (c.target d)) ∧ (¬ p → JumpsTo i s c {} c.after) :=
  ⟨fun h => jumpsTo hr he (if_pos (hp.2 h)), fun h => completes_counted hr he (if_neg (mt hp.1 h))⟩

/-! ### Conditions -/

theorem and_eq_zero_iff (m k : Mask) : m &&& k = 0 ↔ ∀ l ∈ lanesOf m, bit k l = false := by
  constructor
  · intro h l hl
    have := congrArg (fun x => bit x l) h
    simpa [bit, (mem_lanesOf m l).1 hl, show m.getLsbD l = true from (mem_lanesOf m l).1 hl] using this
  · intro h
    refine BitVec.eq_of_getLsbD_eq fun l hl => ?_
    have := h l
    rw [mem_lanesOf] at this
    simp only [bit] at this
    cases hm : m.getLsbD l <;> simp_all

theorem and_ne_zero_iff (m k : Mask) : m &&& k ≠ 0 ↔ ∃ l ∈ lanesOf m, bit k l = true := by
  rw [Ne, and_eq_zero_iff]
  push Not
  simp only [Bool.not_eq_false]

theorem and_not_eq_zero_iff (m k : Mask) : m &&& ~~~k = 0 ↔ ∀ l ∈ lanesOf m, bit k l = true := by
  rw [and_eq_zero_iff]
  refine forall₂_congr fun l hl => ?_
  simp [bit, lanesOf_lt m l hl]

theorem bit63_iff (x : Word) : bit x 63 = true ↔ x.toInt < 0 := by
  have h := BitVec.msb_eq_getLsbD_last x
  rw [BitVec.msb_eq_toInt] at h
  rw [bit, ← h, decide_eq_true_eq]

theorem slice_low_eq_zero {x : Word} (h : x.toNat % 4 = 0) : slice x 1 0 = 0 := by
  rw [slice, Nat.shiftRight_zero]
  exact h

/-- R287: a jump to an address that a scalar register holds. -/
theorem jumpTo_aligned {t : State} {x : Word} (h : x.toNat % 4 = 0) : jumpTo t x = .goto t x :=
  if_neg (not_not_intro (slice_low_eq_zero h))

/-- Settles O12: each branch is `branchOp` of its condition, and the calls and jumps answer with their address. -/
theorem branches : Obligations.Branches := by
  unfold Obligations.Branches
  refine ⟨fun k a d e s c => ?_, fun a cb s c => ⟨fun hr h => ?_, fun hr h => ?_, fun hr h => ?_⟩⟩
  · intro from_ disp dispS goes
    have hdisp {i : Instr} (hr : Runs i s c) (hill : isIll i = false) : c.target d = from_ + BitVec.ofInt 64 (4 * disp) := by
      rcases hr.immHints_cases hill with h | ⟨p, h⟩ | ⟨p, q, h⟩
      · simp only [disp, h, Ctx.target, immS_none (by decide) d h]; rfl
      · simp only [disp, h, Ctx.target, immS_one d h]; rfl
      · simp only [disp, h, Ctx.target, immS_two d h]; rfl
    have hdispS {i : Instr} (hr : Runs i s c) (hill : isIll i = false) : c.target e = from_ + BitVec.ofInt 64 (4 * dispS) := by
      rcases hr.immHints_cases hill with h | ⟨p, h⟩ | ⟨p, q, h⟩
      · simp only [dispS, h, Ctx.target, immS_none (by decide) e h]; rfl
      · simp only [dispS, h, Ctx.target, immS_one e h]; rfl
      · simp only [dispS, h, Ctx.target, immS_two e h]; rfl
    refine ⟨fun hr => ?_, fun hr => ?_, fun hr => ?_, fun hr => ?_, fun hr => ?_, fun hr => ?_, fun hr => ?_, fun hr => ?_, fun hr => ?_⟩
    · rw [← hdisp hr rfl]
      exact branch_jumps hr rfl (iff_true_intro rfl)
    · rw [← hdisp hr rfl]
      exact branch_jumps hr rfl (decide_eq_true_iff.trans (and_ne_zero_iff _ _))
    · rw [← hdisp hr rfl]
      exact branch_jumps hr rfl (decide_eq_true_iff.trans (and_not_eq_zero_iff _ _))
    · rw [← hdisp hr rfl]
      exact branch_jumps hr rfl (decide_eq_true_iff.trans (and_eq_zero_iff _ _))
    · rw [← hdispS hr rfl]
      exact branch_jumps hr rfl decide_eq_true_iff
    · rw [← hdispS hr rfl]
      exact branch_jumps hr rfl decide_eq_true_iff
    · rw [← hdispS hr rfl]
      exact branch_jumps hr rfl (bit63_iff _)
    · rw [← hdispS hr rfl]
      exact branch_jumps hr rfl (by rw [← not_lt, ← bit63_iff, Bool.not_eq_true', Bool.not_eq_true])
    · rw [← hdisp hr rfl]
      exact ⟨fun _ => jumpsTo_setS (body := fun c t => .goto (c.setS t 31 c.next) (c.target d)) hr rfl rfl, fun h => absurd trivial h⟩
  · exact jumpsTo (body := fun c t => jumpTo t (c.s a)) hr rfl (jumpTo_aligned h)
  · exact jumpsTo_setS (body := fun c t => jumpTo (c.setS t 31 c.next) (c.s a)) hr rfl (jumpTo_aligned h)
  · exact jumpsTo (body := fun c t => jumpTo t (c.s 31)) hr rfl (jumpTo_aligned h)

end Sys2Proof.Machine
end

section
/-! PROOFS. Chains and latches (R24 to R26, R174). -/

namespace Sys2Proof.Machine

/-- Retiring a unit of a fragment that stands under no join leaves the fragment with its latches and its chain position, at `pc`. -/
theorem retire_frag {s u : State} {c : Ctx} {g : Gang} (hc : s.ctx? = some c) (hu : u.gang? c.ref.team c.ref.gang = some g)
    (he : g.entries = c.gang.entries) (hfree : c.Free) (ch : Bool) (pc : Word) (v : Option (BitVec 6 × List (Nat × Word))) :
    ∃ h, (c.retire u ch pc v none).gang? c.ref.team c.ref.gang = some h ∧
      h.frag? c.ref.frag = some { (g.withResult v).latchFrag c.frag ch v with pc := pc, hints := [], wait := none } := by
  obtain ⟨-, -, hfrag, -⟩ := ctx?_spec hc
  obtain ⟨hjoin, hwf⟩ := hfree
  have hf : g.frag? c.ref.frag = some c.frag := by rw [Gang.frag?, he]; exact hfrag
  let f : Fragment := { (g.withResult v).latchFrag c.frag ch v with pc := pc, hints := [], wait := none }
  let g1 := (g.withResult v).setFrag c.ref.frag f
  have hg : (c.retire u ch pc v none).gang? c.ref.team c.ref.gang = some ((g1.arrive c.ref.frag).settle settleFuel) := by
    have hu' : ({ u with turn := none } : State).gang? c.ref.team c.ref.gang = some g := hu
    simp only [Ctx.retire, State.gang?_modGang, and_self, if_true, hu', Option.map_some, hf]
    rfl
  have hf1 : g1.frag? c.ref.frag = some f := by rw [Gang.frag?_setFrag, if_pos rfl]
  have hj : f.join = none := (latchFrag_join ..).trans hjoin
  have ha : g1.arrive c.ref.frag = g1 := by simp only [Gang.arrive, hf1, hj]
  have hw : SMap.wf g1.entries = true := SMap.wf_set _ _ _ (by rw [Gang.withResult_entries, he]; exact hwf)
  rw [ha] at hg
  exact ⟨_, hg, (Gang.settle_keeps settleFuel g1 c.ref.frag f hf1 rfl hw).1⟩

/-- The issuing fragment after a unit whose meaning answers with a vector result. -/
theorem unit_vec_frag {i : Instr} {s u : State} {c : Ctx} {g : Gang} {body : Ctx → State → Res} {d : BitVec 6}
    {vals : List (Nat × Word)} (hr : Runs i s c) (hfree : c.Free) (hb : body c (c.counted s) = .vec u d vals)
    (hu : u.gang? c.ref.team c.ref.gang = some g) (he : g.entries = c.gang.entries) :
    ∃ t h, perform i body s = .next t ∧ t.gang? c.ref.team c.ref.gang = some h ∧ h.frag? c.ref.frag =
      some { (g.withResult (some (d, vals))).latchFrag c.frag ((use i).chain == some 1) (some (d, vals)) with
        pc := c.next, hints := [], wait := none } := by
  obtain ⟨h, hgang, hfrag⟩ := retire_frag hr.ctx hu he hfree ((use i).chain == some 1) c.next (some (d, vals))
  refine ⟨_, h, ?_, (schedule_gang? c _ i _ _).trans hgang, hfrag⟩
  exact (perform_go body hr.ctx hr.gate).trans (by rw [hb]; simp only [Ctx.finish, Ctx.complete, hr.budget, if_true])

/-! ### Latches -/

/-- A word that each listed index is given. -/
theorem ZMap.get_setEach {w : Nat} (f : Nat → BitVec w) (ls : List Nat) (m : ZMap w) (l : Nat) :
    ZMap.get (ls.foldl (fun m l => ZMap.set m l (f l)) m) l = if l ∈ ls then f l else ZMap.get m l := by
  induction ls generalizing m with
  | nil => simp
  | cons i ls ih =>
    rw [List.foldl_cons, ih, ZMap.get_set]
    by_cases hl : l ∈ ls
    · simp [hl]
    · by_cases hi : i = l
      · simp [hi]
      · simp [hl, hi, Ne.symm hi]

theorem find?_map_pair {α : Type} (f : Nat → α) (ls : List Nat) (l : Nat) :
    (ls.map fun i => (i, f i)).find? (fun p => p.1 == l) = if l ∈ ls then some (l, f l) else none := by
  induction ls with
  | nil => rfl
  | cons i ls ih =>
    rw [List.map_cons, List.find?_cons, ih]
    by_cases hi : i = l
    · simp [hi]
    · rw [beq_eq_false_iff_ne.2 hi]
      simp [Ne.symm hi]

theorem latchFrag_end {g : Gang} {f : Fragment} {ch : Bool} (h : ch = false ∨ 8 ≤ f.pos)
    (v : Option (BitVec 6 × List (Nat × Word))) : g.latchFrag f ch v = f.endChain :=
  if_pos (by rcases h with h | h <;> simp [h])

/-- The word that a lane's latch 0 receives: the result, or the destination's word where the lane took no part. -/
def latchWord (g : Gang) (d : BitVec 6) (ls : List Nat) (f : Nat → Word) (l : Nat) : Word :=
  if l ∈ ls then f l else if d = 62 then 0 else g.v d.toNat l

theorem latchFrag_chain {g : Gang} {f : Fragment} (hpos : f.pos < 8) {d : BitVec 6} (hd : d ≠ 63) (ls : List Nat)
    (hls : ∀ l ∈ ls, l < 64) (x : Nat → Word) :
    let v := some (d, ls.map fun l => (l, x l))
    let f' := (g.withResult v).latchFrag f true v
    f'.pos = f.pos + 1 ∧ f'.v0 = true ∧ f'.v1 = f.v0 ∧ f'.l1 = f.l0 ∧
      ∀ l ∈ lanesOf (wholeSlices f.active), ZMap.get f'.l0 l = latchWord g d ls x l := by
  intro v f'
  have hf' : f' = { f with
      pos := f.pos + 1, l1 := f.l0, v1 := f.v0, v0 := true
      l0 := (lanesOf (wholeSlices f.active)).foldl (fun m l => ZMap.set m l
        (if d.toNat < 62 then (g.withResult v).v d.toNat l else (((ls.map fun l => (l, x l)).find? fun p => p.1 == l).map Prod.snd).getD 0)) [] } :=
    if_neg (by simp [hpos])
  rw [hf']
  refine ⟨rfl, rfl, rfl, rfl, fun l hl => ?_⟩
  rw [ZMap.get_setEach, if_pos hl, latchWord]
  split
  · next hd62 =>
    have hne : d ≠ 62 := by rintro rfl; exact absurd hd62 (by decide)
    rw [if_neg hne, Gang.withResult, if_pos hd62, Gang.v_setVs _ _ _ _ _ _ hls (lanesOf_lt _ _ hl)]
    simp
  · next hd62 =>
    have h62 : d = 62 := by
      have hlt := d.isLt
      refine BitVec.eq_of_toNat_eq ?_
      have : d.toNat ≠ 63 := fun h => hd (BitVec.eq_of_toNat_eq h)
      show d.toNat = 62
      omega
    rw [if_pos h62, find?_map_pair]
    split <;> rfl

/-- Settles O22: `vand` answers with its vector result, and the fragment that retires latches it. -/
theorem chainsAndLatches : Obligations.ChainsAndLatches := by
  unfold Obligations.ChainsAndLatches
  intro k d a b cb s c hr hfree
  obtain ⟨t, h, hexec, hgang, hfrag⟩ := unit_vec_frag hr hfree
    (body := fun c t => .vec t d ((c.lanes k).map fun l => (l, c.v a l &&& c.v b l))) rfl (gang?_counted hr.ctx) (by simp)
  have hd : d ≠ 63 := by
    rintro rfl
    exact absurd (gate_go_valid rfl hr.gate).1 (by simp [fieldsOk, dstOk])
  have hv (l : Nat) : c.gang.count.v d.toNat l = c.gang.v d.toNat l := by simp [Gang.v]
  refine ⟨t, h, _, hexec, hgang, hfrag, fun hcb hpos => ?_, fun hend => ?_⟩
  · subst hcb
    obtain ⟨h1, h2, h3, h4, h5⟩ := latchFrag_chain (g := c.gang.count) (f := c.frag) hpos hd (c.lanes k)
      (fun l hl => lanesOf_lt _ _ hl) fun l => c.v a l &&& c.v b l
    refine ⟨h1, h2, h3, h4, fun l hl => ⟨fun hin => ?_, fun hout => ?_⟩⟩
    · exact (h5 l hl).trans (if_pos hin)
    · exact (h5 l hl).trans ((if_neg hout).trans (by rw [hv]))
  · rw [latchFrag_end (hend.imp_left fun h => by rw [h]; rfl)]
    exact ⟨rfl, rfl, rfl⟩

end Sys2Proof.Machine
end

section
/-! PROOFS. What the operations of the caches move: the L1 and the FIFO of one core, the L2, Cavern, remote partition and counts of the
dies, and bytes of memory that were written before (R43, R44, R241, R261, R262, R266). -/

namespace Sys2Proof.Machine

/-! ### Lines with written bytes in a set -/

/-- Every written byte of a line is of a set of addresses. -/
def Line.WrittenIn (P : Nat → Prop) (l : Line) : Prop := ∀ b, l.num = b / 256 → bit l.dirty (b % 256) = true → P b

/-- The bytes at some offsets of a line are of a set of addresses. -/
def OffsetsIn (P : Nat → Prop) (num : Nat) (bs : List (Nat × Byte)) : Prop := ∀ p ∈ bs, P (num * 256 + p.1)

/-- Every written byte that a core's L1 or a die's remote partition holds is of a set of addresses. -/
def State.WrittenIn (s : State) (core : Nat) (P : Nat → Prop) : Prop := ∀ b, s.written core b → P b

theorem State.writtenIn_iff (s : State) (core : Nat) (P : Nat → Prop) :
    s.WrittenIn core P ↔ (∀ l ∈ (s.core core).l1, l.WrittenIn P) ∧ ∀ d, ∀ l ∈ (s.die d).remote, l.WrittenIn P := by
  constructor
  · intro h
    exact ⟨fun l hl b hn hb => h b ⟨l, .inl hl, hn, hb⟩, fun d l hl b hn hb => h b ⟨l, .inr ⟨d, hl⟩, hn, hb⟩⟩
  · rintro ⟨h1, h2⟩ b ⟨l, hl | ⟨d, hl⟩, hn, hb⟩
    · exact h1 l hl b hn hb
    · exact h2 d l hl b hn hb

theorem Line.WrittenIn.of_dirty_le {P : Nat → Prop} {l m : Line} (h : l.WrittenIn P) (hn : m.num = l.num)
    (hd : ∀ o, bit m.dirty o = true → bit l.dirty o = true) : m.WrittenIn P := fun b hb hm => h b (hn ▸ hb) (hd _ hm)

theorem Line.writtenIn_empty (P : Nat → Prop) (vf num : Nat) (leaf : Word) (set : Nat) : (Line.empty vf num leaf set).WrittenIn P := by
  intro b _ hb
  simp [Line.empty, bit] at hb

theorem Line.WrittenIn.write {P : Nat → Prop} {l : Line} (h : l.WrittenIn P) {o : Nat} (ho : P (l.num * 256 + o)) (x : Byte) :
    (l.write o x).WrittenIn P := by
  intro b hn hb
  have hn : l.num = b / 256 := hn
  simp only [Line.write, bit, BitVec.getLsbD_or, Bool.or_eq_true, BitVec.getLsbD_ofNat, Nat.testBit_two_pow, Bool.and_eq_true,
    decide_eq_true_eq] at hb
  rcases hb with hb | ⟨-, hb⟩
  · exact h b hn hb
  · rw [hn, hb, Nat.div_add_mod' b 256] at ho
    exact ho

theorem Line.WrittenIn.writeAll {P : Nat → Prop} {bs : List (Nat × Byte)} {l : Line} (h : l.WrittenIn P)
    (hb : OffsetsIn P l.num bs) : (bs.foldl (fun l q => l.write q.1 q.2) l).WrittenIn P := by
  induction bs generalizing l with
  | nil => exact h
  | cons q bs ih => exact ih (h.write (hb q List.mem_cons_self) _) fun p hp => hb p (List.mem_cons_of_mem _ hp)

theorem Line.WrittenIn.refresh {P : Nat → Prop} {l : Line} (h : l.WrittenIn P) (o : Nat) (x : Byte) : (l.refresh o x).WrittenIn P := by
  simp only [Line.refresh]
  split
  · refine h.of_dirty_le rfl fun k hk => ?_
    simp only [bit, BitVec.getLsbD_and, Bool.and_eq_true] at hk
    exact hk.1
  · exact h

theorem Line.WrittenIn.refreshAll {P : Nat → Prop} {bs : List (Nat × Byte)} {l : Line} (h : l.WrittenIn P) :
    (bs.foldl (fun l q => l.refresh q.1 q.2) l).WrittenIn P := by
  induction bs generalizing l with
  | nil => exact h
  | cons q bs ih => exact ih (h.refresh _ _)

theorem Line.WrittenIn.fill {P : Nat → Prop} {l : Line} (h : l.WrittenIn P) (sec : Nat) (get : Nat → Byte) :
    (l.fill sec get).WrittenIn P := by
  simp only [Line.fill]
  split
  · exact h
  · exact h.of_dirty_le rfl fun _ => id

theorem Line.WrittenIn.fillMask {P : Nat → Prop} {l : Line} (h : l.WrittenIn P) (secs : BitVec 4) (get : Nat → Byte) :
    (l.fillMask secs get).WrittenIn P := by
  have key (ns : List Nat) (l : Line) (h : l.WrittenIn P) :
      (ns.foldl (fun l n => if bit secs n then l.fill n get else l) l).WrittenIn P := by
    induction ns generalizing l with
    | nil => exact h
    | cons n ns ih =>
      refine ih _ ?_
      dsimp only
      split
      · exact h.fill _ _
      · exact h
  exact key _ l h

theorem Line.WrittenIn.clean {P : Nat → Prop} {l : Line} : l.clean.WrittenIn P := by
  intro b _ hb
  simp [Line.clean, bit] at hb

theorem Line.WrittenIn.giveUp {P : Nat → Prop} {l : Line} (h : l.WrittenIn P) (sec : Nat) : (l.giveUp sec).WrittenIn P := by
  refine h.of_dirty_le rfl fun o ho => ?_
  simp only [Line.giveUp, Line.dropSector, bit, BitVec.getLsbD_and, Bool.and_eq_true] at ho
  exact ho.1

/-- The written bytes of a line, by their offsets. -/
theorem Line.WrittenIn.dirtyBytes {P : Nat → Prop} {l : Line} (h : l.WrittenIn P) : OffsetsIn P l.num l.dirtyBytes := by
  intro p hp
  simp only [Line.dirtyBytes, List.mem_map, List.mem_filter, List.mem_range] at hp
  obtain ⟨o, ⟨ho, hb⟩, rfl⟩ := hp
  refine h _ (by omega) ?_
  rwa [Nat.mul_add_mod_self_right, Nat.mod_eq_of_lt ho]

/-! ### Lists of lines -/

theorem mem_putLine {ls : List Line} {x l : Line} (h : l ∈ putLine ls x) : l = x ∨ l ∈ ls := by
  simp only [putLine] at h
  split at h
  · obtain ⟨m, hm, rfl⟩ := List.mem_map.1 h
    split
    · exact .inl rfl
    · exact .inr hm
  · rcases List.mem_append.1 h with h | h
    · exact .inr h
    · exact .inl (List.mem_singleton.1 h)

theorem forall_putLine {P : Nat → Prop} {ls : List Line} {x : Line} (h : ∀ l ∈ ls, l.WrittenIn P) (hx : x.WrittenIn P) :
    ∀ l ∈ putLine ls x, l.WrittenIn P := fun l hl => (mem_putLine hl).elim (fun e => e ▸ hx) (h l)

theorem getLine_mem {ls : List Line} {vf num : Nat} {l : Line} (h : getLine ls vf num = some l) : l ∈ ls := List.mem_of_find?_eq_some h

theorem forall_discardLines {P : Nat → Prop} {ls : List Line} (h : ∀ l ∈ ls, l.WrittenIn P) : ∀ l ∈ discardLines ls, l.WrittenIn P := by
  intro l hl
  obtain ⟨m, hm, rfl⟩ := List.mem_map.1 (List.mem_of_mem_filter hl)
  exact (h m hm).of_dirty_le rfl fun _ => id

theorem choose_mem {α : Type} {l : List α} {n : Nat} {x : α} (h : choose l n = some x) : x ∈ l := by
  unfold choose at h
  split at h
  · cases h
  · cases h
    exact List.mem_singleton.2 rfl
  · next y ys _ =>
    cases he : (y :: ys)[Config.pick n % (y :: ys).length]? with
    | none =>
      rw [he] at h
      cases h
      exact List.mem_cons_self
    | some z =>
      rw [he] at h
      cases h
      exact List.mem_of_getElem? he

theorem evictFirst_mem {α : Type} {evp : α → Nat} {ls : List α} {x : α} (h : x ∈ evictFirst evp ls) : x ∈ ls := by
  simp only [evictFirst] at h
  split at h
  · exact List.mem_of_mem_filter h
  · split at h
    · exact List.mem_of_mem_filter h
    · exact h

/-! ### Moves -/

/-- A core without what a cache operation moves. -/
def Core.still (x : Core) : Core := { x with l1 := [], fifo := [] }

/-- A die without what a cache operation moves. -/
def Die.still (x : Die) : Die := { x with l2 := [], cavern := [], remote := [], rcgCount := [] }

/-- An operation of the caches, by a unit of a core, in a state whose written bytes are of a set of addresses: it changes no other byte of
memory, makes no other byte written, and moves nothing but lines with their counts. -/
structure State.Moves (core : Nat) (P : Nat → Prop) (s t : State) : Prop where
  step : s.CacheStep t
  cores : ∀ n, (t.core n).still = (s.core n).still
  dies : ∀ d, (t.die d).still = (s.die d).still
  mem : ∀ b, ¬ P b → ZMap.get t.mem b = ZMap.get s.mem b
  within : t.WrittenIn core P

section
variable {core : Nat} {P : Nat → Prop} {s t u : State}

theorem State.Moves.refl (h : s.WrittenIn core P) : s.Moves core P s :=
  ⟨.refl s, fun _ => rfl, fun _ => rfl, fun _ _ => rfl, h⟩

theorem State.Moves.trans (h : s.Moves core P t) (k : t.Moves core P u) : s.Moves core P u :=
  ⟨h.step.trans k.step, fun n => (k.cores n).trans (h.cores n), fun d => (k.dies d).trans (h.dies d),
    fun b hb => (k.mem b hb).trans (h.mem b hb), k.within⟩

theorem State.Moves.foldl {α : Type} {f : State → α → State} {l : List α} (hs : s.WrittenIn core P)
    (h : ∀ (s : State), ∀ a ∈ l, s.WrittenIn core P → s.Moves core P (f s a)) : s.Moves core P (l.foldl f s) := by
  induction l generalizing s with
  | nil => exact .refl hs
  | cons a l ih =>
    have h1 := h s a List.mem_cons_self hs
    exact h1.trans (ih h1.within fun s b hb => h s b (List.mem_cons_of_mem _ hb))

theorem State.Moves.modDie (hs : s.WrittenIn core P) (d : Nat) (f : Die → Die) (hf : ∀ x, (f x).still = x.still)
    (hr : ∀ l ∈ (f (s.die d)).remote, l.WrittenIn P) : s.Moves core P (s.modDie d f) := by
  obtain ⟨h1, h2⟩ := (s.writtenIn_iff core P).1 hs
  refine ⟨.modDie s d f, fun _ => rfl, fun e => ?_, fun _ _ => rfl, (State.writtenIn_iff ..).2 ⟨h1, fun e => ?_⟩⟩
  · rw [State.die_modDie]
    split
    · next he => rw [hf, he]
    · rfl
  · rw [State.die_modDie]
    split
    · exact hr
    · exact h2 e

/-- A change of a die that leaves its remote partition. -/
theorem State.Moves.modHome (hs : s.WrittenIn core P) (d : Nat) (f : Die → Die) (hf : ∀ x, (f x).still = x.still)
    (hr : ∀ x, (f x).remote = x.remote) : s.Moves core P (s.modDie d f) :=
  .modDie hs d f hf (by rw [hr]; exact ((s.writtenIn_iff core P).1 hs).2 d)

theorem State.Moves.modCore (hs : s.WrittenIn core P) (f : Core → Core) (hf : ∀ x, (f x).still = x.still)
    (hl : ∀ l ∈ (f (s.core core)).l1, l.WrittenIn P) : s.Moves core P (s.modCore core f) := by
  obtain ⟨h1, h2⟩ := (s.writtenIn_iff core P).1 hs
  refine ⟨.modCore s core f, fun n => ?_, fun _ => rfl, fun _ _ => rfl, (State.writtenIn_iff ..).2 ⟨?_, h2⟩⟩
  · rw [State.core_modCore]
    split
    · next he => rw [hf, he]
    · rfl
  · rw [State.core_modCore, if_pos rfl]
    exact hl

theorem State.Moves.setMem (hs : s.WrittenIn core P) (m : Memory) (hw : Memory.wf s.mem = true → Memory.wf m = true)
    (hm : ∀ b, ¬ P b → ZMap.get m b = ZMap.get s.mem b) : s.Moves core P { s with mem := m } :=
  ⟨.setMem s m hw, fun _ => rfl, fun _ => rfl, hm, hs⟩

/-! ### The home slices -/

theorem State.Moves.event (hs : s.WrittenIn core P) (ty die vf cls detail addr aux : Nat) :
    s.Moves core P (s.event ty die vf cls detail addr aux) := by
  have he : ∃ x, s.event ty die vf cls detail addr aux = { s with flow := x } := by
    unfold State.event State.log
    split <;> exact ⟨_, rfl⟩
  obtain ⟨x, hx⟩ := he
  rw [hx]
  exact ⟨hx ▸ s.event_step .., fun _ => rfl, fun _ => rfl, fun _ _ => rfl, hs⟩

theorem State.Moves.countRcg (hs : s.WrittenIn core P) (die g : Nat) : s.Moves core P (s.countRcg die g) := by
  unfold State.countRcg
  split
  · exact .refl hs
  · exact .modHome hs _ _ (fun _ => rfl) fun _ => rfl

theorem State.Moves.cavernPut (hs : s.WrittenIn core P) (die num : Nat) (secs : BitVec 4) (mask : BitVec 256) (evp rcg : Nat) :
    s.Moves core P (s.cavernPut die num secs mask evp rcg) := by
  unfold State.cavernPut
  split
  · exact .refl hs
  · refine .modHome hs _ _ (fun x => ?_) fun x => ?_
    all_goals
      dsimp only
      split
      · rfl
      · split <;> rfl

theorem State.Moves.reachCavern (hs : s.WrittenIn core P) (die num : Nat) (secs : BitVec 4) (mask : BitVec 256) (leaf : Word) :
    s.Moves core P (s.reachCavern die num secs mask leaf) := by
  have h := State.Moves.countRcg hs die (pteRcg leaf)
  unfold State.reachCavern
  dsimp only
  split
  · exact h
  · exact h.trans (.cavernPut h.within ..)

theorem State.Moves.evictHome (hs : s.WrittenIn core P) (die : Nat) (x : Held) : s.Moves core P (s.evictHome die x) := by
  unfold State.evictHome
  dsimp only
  have h := State.Moves.modHome hs die (fun d => { d with l2 := d.l2.filter fun y => !(x.is y) }) (fun _ => rfl) fun _ => rfl
  split
  · exact h
  · have h' := h.trans (.countRcg h.within die x.rcg.toNat)
    exact h'.trans (.cavernPut h'.within ..)

theorem State.Moves.homeTouch (hs : s.WrittenIn core P) (vf num : Nat) (secs : BitVec 4) (mask : BitVec 256) (leaf : Word) :
    s.Moves core P (s.homeTouch vf num secs mask leaf) := by
  unfold State.homeTouch
  split
  · exact .refl hs
  · next h _ =>
    split
    · exact .refl hs
    · split
      · exact .reachCavern hs ..
      · extract_lets d x mates held missing out
        have hev : s.Moves core P (match out with | none => s | some v => s.evictHome h v) := by
          cases out with
          | none => exact .refl hs
          | some v => exact .evictHome hs h v
        have hput := hev.trans (.modHome hev.within h (fun d => { d with l2 := touchHeld d.l2 x }) (fun _ => rfl) fun _ => rfl)
        split
        · exact hput.trans (.reachCavern hput.within ..)
        · exact hput

theorem ZMap.get_setOffsets {w : Nat} (base b : Nat) (bs : List (Nat × BitVec w)) (m : ZMap w) (h : ∀ p ∈ bs, base + p.1 ≠ b) :
    ZMap.get (bs.foldl (fun m p => ZMap.set m (base + p.1) p.2) m) b = ZMap.get m b := by
  induction bs generalizing m with
  | nil => rfl
  | cons p bs ih =>
    rw [List.foldl_cons, ih _ fun q hq => h q (List.mem_cons_of_mem _ hq), ZMap.get_set_ne _ _ _ _ (h p List.mem_cons_self)]

theorem State.Moves.homeBytes (hs : s.WrittenIn core P) {vf num : Nat} {leaf : Word} {bs : List (Nat × Byte)}
    (hb : OffsetsIn P num bs) : s.Moves core P (s.homeBytes vf num leaf bs) := by
  unfold State.homeBytes
  split
  · exact .refl hs
  · split
    · exact .event hs ..
    · have h := State.Moves.setMem hs (bs.foldl (fun m p => ZMap.set m (num * 256 + p.1) p.2) s.mem)
        (Memory.wf_setAll bs (num * 256) s.mem)
        fun b hPb => ZMap.get_setOffsets _ _ bs s.mem fun p hp e => hPb (e ▸ hb p hp)
      exact h.trans (.homeTouch h.within ..)

/-! ### The remote partitions and the L1 -/

theorem State.Moves.evictRemote (hs : s.WrittenIn core P) (die : Nat) {l : Line} (hl : l.WrittenIn P) :
    s.Moves core P (s.evictRemote die l) := by
  have h := State.Moves.homeBytes hs (vf := l.vf) (leaf := l.leaf) hl.dirtyBytes
  refine h.trans (.modDie h.within _ _ (fun _ => rfl) fun m hm => ?_)
  exact ((State.writtenIn_iff ..).1 h.within).2 die m (List.mem_of_mem_filter hm)

theorem State.Moves.remoteRoom (hs : s.WrittenIn core P) (die vf num : Nat) : s.Moves core P (s.remoteRoom die vf num) := by
  unfold State.remoteRoom
  dsimp only
  split
  · exact .refl hs
  · split
    · next l hl =>
      have hmem := List.mem_of_mem_filter (evictFirst_mem (choose_mem hl))
      exact .evictRemote hs die (((s.writtenIn_iff core P).1 hs).2 die l hmem)
    · exact .refl hs

/-- The line of a number in a set of a remote partition, or an empty one. -/
theorem State.WrittenIn.remoteOf (hs : s.WrittenIn core P) (die vf num : Nat) (leaf : Word) :
    (s.remoteOf die vf num leaf).WrittenIn P ∧ (s.remoteOf die vf num leaf).num = num := by
  unfold State.remoteOf
  cases h : s.remoteLine die vf num with
  | none => exact ⟨Line.writtenIn_empty P vf num leaf _, rfl⟩
  | some l =>
    refine ⟨((s.writtenIn_iff core P).1 hs).2 die l (List.mem_of_find?_eq_some h), ?_⟩
    have := List.find?_some h
    simp only [Bool.and_eq_true, decide_eq_true_eq] at this
    exact this.1

theorem State.Moves.putRemote (hs : s.WrittenIn core P) (die : Nat) {l : Line} (hl : l.WrittenIn P) :
    s.Moves core P (s.modDie die fun d => { d with remote := putLine d.remote l }) :=
  .modDie hs die _ (fun _ => rfl) (forall_putLine (((s.writtenIn_iff core P).1 hs).2 die) hl)

theorem State.Moves.fillRemote (hs : s.WrittenIn core P) (die vf num : Nat) (secs : BitVec 4) (leaf : Word) :
    s.Moves core P (s.fillRemote die vf num secs leaf) := by
  unfold State.fillRemote
  split
  · dsimp only
    have hroom := State.Moves.remoteRoom hs die vf num
    split
    · exact hroom
    · obtain ⟨hline, -⟩ := hroom.within.remoteOf die vf num leaf
      have hfill := Line.WrittenIn.fillMask (l := { (s.remoteRoom die vf num).remoteOf die vf num leaf with leaf := leaf })
        (hline.of_dirty_le rfl fun _ => id) (secs &&& ~~~((s.remoteRoom die vf num).remoteOf die vf num leaf).valid)
        fun o => (s.remoteRoom die vf num).dieByte die (num * 256 + o)
      have hput := hroom.trans (.putRemote hroom.within die hfill)
      exact hput.trans (.homeTouch hput.within ..)
  · exact .homeTouch hs ..

theorem Die.refresh_still (d : Die) (num : Nat) (bs : List (Nat × Byte)) : (d.refresh num bs).still = d.still := rfl

theorem Die.forall_refresh {d : Die} (h : ∀ l ∈ d.remote, l.WrittenIn P) (num : Nat) (bs : List (Nat × Byte)) :
    ∀ l ∈ (d.refresh num bs).remote, l.WrittenIn P := by
  intro l hl
  obtain ⟨m, hm, rfl⟩ := List.mem_map.1 hl
  split
  · exact (h m hm).refreshAll
  · exact h m hm

theorem State.Moves.l2Write (hs : s.WrittenIn core P) (die vf : Nat) {num : Nat} (leaf : Word) {bs : List (Nat × Byte)}
    (hb : OffsetsIn P num bs) : s.Moves core P (s.l2Write die vf num leaf bs) := by
  unfold State.l2Write
  split
  · exact .refl hs
  · next p ps =>
    split
    · dsimp only
      have hroom := State.Moves.remoteRoom hs die vf num
      obtain ⟨hline, hnum⟩ := hroom.within.remoteOf die vf num leaf
      refine hroom.trans (.modDie hroom.within die _ (fun _ => rfl) (forall_putLine ?_ ?_))
      · exact Die.forall_refresh (((State.writtenIn_iff ..).1 hroom.within).2 die) _ _
      · have hwritten := hline.writeAll (bs := p :: ps) (by rw [hnum]; exact hb)
        exact Line.WrittenIn.of_dirty_le hwritten rfl fun _ h => h
    · have h := State.Moves.homeBytes hs (vf := vf) (leaf := leaf) hb
      exact h.trans (.modDie h.within die _ (fun _ => rfl) (Die.forall_refresh (((State.writtenIn_iff ..).1 h.within).2 die) _ _))

theorem State.Moves.drainLine (hs : s.WrittenIn core P) {l : Line} (hl : l.WrittenIn P) : s.Moves core P (s.drainLine core l) := by
  have h := State.Moves.modCore hs
    (fun c => { c with l1 := putLine c.l1 l.clean, fifo := c.fifo.filter fun k => k != fifoKey l.vf l.num }) (fun _ => rfl)
    (forall_putLine ((s.writtenIn_iff core P).1 hs).1 Line.WrittenIn.clean)
  exact h.trans (.l2Write h.within _ _ _ hl.dirtyBytes)

theorem State.Moves.drainL1 (hs : s.WrittenIn core P) : s.Moves core P (s.drainL1 core) := by
  refine .foldl hs fun s k _ hs => ?_
  split
  · next l hl => exact .drainLine hs (((s.writtenIn_iff core P).1 hs).1 l (getLine_mem hl))
  · exact .refl hs

theorem State.Moves.drainRemote (hs : s.WrittenIn core P) (die : Nat) : s.Moves core P (s.drainRemote die) := by
  have hlines := ((s.writtenIn_iff core P).1 hs).2 die
  refine .foldl hs fun s l hl hs => ?_
  split
  · exact .refl hs
  · have h := State.Moves.homeBytes hs (vf := l.vf) (leaf := l.leaf) (hlines l hl).dirtyBytes
    exact h.trans (.putRemote h.within die Line.WrittenIn.clean)

/-- A release's drain (R255, R261, R266). -/
theorem State.Moves.drainAt (hs : s.WrittenIn core P) (level : Nat) (dies : List Nat) : s.Moves core P (s.drainAt core level dies) := by
  unfold State.drainAt
  split
  · exact .refl hs
  · dsimp only
    have h := State.Moves.drainL1 hs
    split
    · exact h
    · exact h.trans (.foldl h.within fun s d _ hs => .drainRemote hs d)

/-- An acquire's discard (R255, R262). -/
theorem State.Moves.discardAt (hs : s.WrittenIn core P) (level : Nat) (dies : List Nat) :
    s.Moves core P (s.discardAt core level dies) := by
  unfold State.discardAt
  split
  · exact .refl hs
  · dsimp only
    have h := State.Moves.modCore hs (fun c => { c with l1 := discardLines c.l1 }) (fun _ => rfl)
      (forall_discardLines ((s.writtenIn_iff core P).1 hs).1)
    split
    · exact h
    · exact h.trans (.foldl h.within fun s d _ hs => .modDie hs d _ (fun _ => rfl)
        (forall_discardLines (((s.writtenIn_iff core P).1 hs).2 d)))

/-! ### Stores and atomics at the home slices -/

theorem mem_liveLines {ls : List Line} {l : Line} (h : l ∈ liveLines ls) : l ∈ ls := List.mem_of_mem_filter h

theorem Line.WrittenIn.dirtyIn {l : Line} (h : l.WrittenIn P) (sec : Nat) : OffsetsIn P l.num (l.dirtyIn sec) :=
  fun p hp => h.dirtyBytes p (List.mem_of_mem_filter hp)

theorem State.Moves.giveUpL1 (hs : s.WrittenIn core P) (sec : Nat) {l : Line} (hl : l.WrittenIn P) :
    s.Moves core P (s.giveUpL1 core sec l) := by
  have h := State.Moves.homeBytes hs (vf := l.vf) (leaf := l.leaf) (hl.dirtyIn sec)
  refine h.trans (.modCore h.within _ (fun _ => rfl) fun m hm => ?_)
  exact forall_putLine ((State.writtenIn_iff ..).1 h.within).1 (hl.giveUp sec) m (mem_liveLines hm)

theorem State.Moves.giveUpRemote (hs : s.WrittenIn core P) (die sec : Nat) {l : Line} (hl : l.WrittenIn P) :
    s.Moves core P (s.giveUpRemote die sec l) := by
  have h := State.Moves.homeBytes hs (vf := l.vf) (leaf := l.leaf) (hl.dirtyIn sec)
  refine h.trans (.modDie h.within die _ (fun _ => rfl) fun m hm => ?_)
  exact forall_putLine (((State.writtenIn_iff ..).1 h.within).2 die) (hl.giveUp sec) m (mem_liveLines hm)

theorem State.Moves.giveUpDie (hs : s.WrittenIn core P) (die a : Nat) : s.Moves core P (s.giveUpDie die a) := by
  have hlines := ((s.writtenIn_iff core P).1 hs).2 die
  exact .foldl hs fun s l hl hs => .giveUpRemote hs die _ (hlines l (List.mem_of_mem_filter hl))

theorem Core.mem_linesOf {x : Core} {vf num : Nat} {l : Line} (h : l ∈ x.linesOf vf num) : l ∈ x.l1 := by
  rcases List.mem_append.1 h with h | h
  · exact List.mem_of_mem_filter h
  · exact List.mem_of_mem_filter h

/-- Before an atomic the copies on its path are given up (R241). -/
theorem State.Moves.beforeAtomic (hs : s.WrittenIn core P) (vf pa n : Nat) : s.Moves core P (s.beforeAtomic core vf pa n) := by
  refine .foldl hs fun s a _ hs => ?_
  have h := State.Moves.giveUpDie hs (core / 64) a
  have hlines := ((State.writtenIn_iff ..).1 h.within).1
  exact h.trans (.foldl h.within fun s l hl hs => .giveUpL1 hs _ (hlines l (Core.mem_linesOf hl)))

/-- An atomic changes bytes at its address alone (R240). -/
theorem State.Moves.atomicAt (hs : s.WrittenIn core P) (vf pa n : Nat) (leaf : Word) (f : Nat → Option Nat)
    (hP : ∀ b, pa ≤ b → b < pa + n → P b) : s.Moves core P (s.atomicAt vf pa n leaf f).1 := by
  unfold State.atomicAt
  dsimp only
  split
  · next v _ =>
    have h := State.Moves.setMem hs (Memory.store s.mem pa (toBytes v n)) (Memory.wf_store _ _ _) fun b hb => by
      refine Memory.get_store_outside _ _ _ _ ?_
      rw [toBytes_length]
      by_contra hcon
      exact hb (hP b (by omega) (by omega))
    exact h.trans (.homeTouch h.within ..)
  · exact .homeTouch hs ..

theorem Core.refresh_still (x : Core) (vf num : Nat) (bs : List (Nat × Byte)) : (x.refresh vf num bs).still = x.still := by
  unfold Core.refresh
  split <;> rfl

theorem Core.forall_refresh {x : Core} (h : ∀ l ∈ x.l1, l.WrittenIn P) (vf num : Nat) (bs : List (Nat × Byte)) :
    ∀ l ∈ (x.refresh vf num bs).l1, l.WrittenIn P := by
  unfold Core.refresh
  split
  · exact h
  · next l hl => exact forall_putLine h (h l (getLine_mem hl)).refreshAll

/-- A store performed at the home slices (R46, R267). -/
theorem State.Moves.storeThrough (hs : s.WrittenIn core P) (vf pa : Nat) (leaf : Word) (bs : List Byte)
    (hP : ∀ p ∈ spread pa bs, OffsetsIn P p.1 p.2) : s.Moves core P (s.storeThrough core vf pa leaf bs) := by
  refine .foldl hs fun s p hp hs => ?_
  have h1 := State.Moves.modCore hs (fun c => c.refresh vf p.1 p.2) (fun x => x.refresh_still ..)
    (Core.forall_refresh ((s.writtenIn_iff core P).1 hs).1 _ _ _)
  have h2 := h1.trans (.modDie h1.within (core / 64) (fun d => d.refresh p.1 p.2) (fun _ => rfl)
    (Die.forall_refresh (((State.writtenIn_iff ..).1 h1.within).2 (core / 64)) _ _))
  exact h2.trans (.homeBytes h2.within (hP p hp))

end

end Sys2Proof.Machine
end

section
/-! PROOFS. Fault records (R343 to R352): the page of a record, its write at the home slice, and the end of a team by WATCHDOG. -/

namespace Sys2Proof.Machine

/-! ### Kept over a move of the caches -/

/-- What may change by a move of the caches. -/
structure Loose.Caches (l : Loose) : Prop where
  state : ∀ (x : State) (m : Memory) (f : Flowstone), l.state { x with mem := m, flow := f } = l.state x
  core : ∀ x : Core, l.core x.still = l.core x
  die : ∀ x : Die, l.die x.still = l.die x

theorem memLoose_caches : memLoose.Caches := ⟨fun _ _ _ => rfl, fun _ => rfl, fun _ => rfl⟩
theorem recordLoose_caches : recordLoose.Caches := ⟨fun _ _ _ => rfl, fun _ => rfl, fun _ => rfl⟩

/-- A move of the caches, as far as the state outside them goes. -/
theorem State.CacheStep.bare {s t : State} (h : s.CacheStep t) : t.bare = { s.bare with mem := t.mem, flow := t.flow } := by
  simp only [State.bare, h.grids, h.icinvs, h.emulated, h.board, h.hostResult, h.hostError, h.cur, h.inputs, h.tick]

theorem State.CacheStep.team? {s t : State} (h : s.CacheStep t) (n : Nat) : t.team? n = s.team? n := by
  rw [State.team?, h.teams, State.team?]

theorem State.CacheStep.gang? {s t : State} (h : s.CacheStep t) (n g : Nat) : t.gang? n g = s.gang? n g := by
  rw [State.gang?, h.team?, State.gang?]

theorem State.CacheStep.vf {s t : State} (h : s.CacheStep t) (v : Nat) : t.vf v = s.vf v := by
  rw [State.vf, h.vfs, State.vf]

section
variable {c : Ctx} {s t u : State} {l : Loose}

theorem Ctx.Kept.moves {core : Nat} {P : Nat → Prop} (h : c.Kept s t l) (hm : t.Moves core P u) (hl : l.Caches) : c.Kept s u l := by
  have hcore (n : Nat) : l.core { u.core n with quads := [] } = l.core { t.core n with quads := [] } := by
    have := congrArg (fun x : Core => { x with quads := [] }) (hm.cores n)
    exact (hl.core { u.core n with quads := [] }).symm.trans ((congrArg l.core this).trans (hl.core { t.core n with quads := [] }))
  have hquad (n q : Nat) : (u.core n).quad q = (t.core n).quad q := by
    have := congrArg (fun x : Core => x.quad q) (hm.cores n)
    exact this
  refine ⟨?_, fun n => (hcore n).trans (h.cores n), fun n q => ?_, fun d => ?_, fun v => ?_, fun m hne => ?_, fun g hne => ?_, ?_⟩
  · rw [hm.step.bare, hl.state]
    exact h.rest
  · rw [hquad]
    exact h.quads n q
  · exact ((hl.die (u.die d)).symm.trans ((congrArg l.die (hm.dies d)).trans (hl.die (t.die d)))).trans (h.dies d)
  · rw [hm.step.vf]
    exact h.vfs v
  · rw [hm.step.team?]
    exact h.teams m hne
  · rw [hm.step.gang?]
    exact h.gangs g hne
  · rw [hm.step.team?]
    exact h.shell

/-- A change of the issuing team that leaves its gangs. -/
theorem Ctx.Kept.modTeam (h : c.Kept s t l) (f : Team → Team) (hg : ∀ x, (f x).gangs = x.gangs)
    (hf : ∀ x : Team, l.team (f x).shell = l.team x.shell) : c.Kept s (t.modTeam c.ref.team f) l := by
  refine ⟨h.rest, h.cores, h.quads, h.dies, h.vfs, fun m hm => ?_, fun g hne => ?_, ?_⟩
  · rw [State.team?_modTeam, if_neg hm.symm]
    exact h.teams m hm
  · rw [State.gang?_modTeam _ _ _ _ _ hg]
    exact h.gangs g hne
  · rw [State.team?_modTeam, if_pos rfl, ← h.shell]
    cases t.team? c.ref.team with
    | none => rfl
    | some x => exact congrArg some (hf x)

/-- A write of memory. -/
theorem Ctx.Kept.setMem (h : c.Kept s t l) (hl : l.Caches) (m : Memory) : c.Kept s { t with mem := m } l :=
  ⟨(hl.state t.bare m t.bare.flow).trans h.rest, h.cores, h.quads, h.dies, h.vfs, h.teams, h.gangs, h.shell⟩

end

/-! ### The page of a device access -/

theorem checkLeaf_ok {x y : Xlat} {level va kind : Nat} {priv regs : Bool} (h : checkLeaf x level va kind priv regs = .ok y) : y = x := by
  unfold checkLeaf at h
  dsimp only at h
  split at h
  · cases h
  · split at h
    · cases h
    · split at h
      · cases h; rfl
      · cases h

/-- A page that holds an address, aligned to 64 KiB. -/
def Xlat.Holds (x : Xlat) (va : Nat) : Prop := x.base % 65536 = 0 ∧ x.base ≤ va ∧ va < x.base + x.size

theorem Xlat.holds_of_size {x : Xlat} {va k : Nat} (hk : 16 ≤ k) (hb : x.base = va - va % 2 ^ k) (hs : x.size = 2 ^ k) : x.Holds va := by
  obtain ⟨j, rfl⟩ := Nat.exists_eq_add_of_le hk
  have hlt := Nat.mod_lt va (Nat.two_pow_pos (16 + j))
  have hbase : x.base = 65536 * (2 ^ j * (va / 2 ^ (16 + j))) := by
    rw [hb, ← Nat.mul_assoc, show 65536 * 2 ^ j = 2 ^ (16 + j) by rw [Nat.pow_add]]
    have := Nat.div_add_mod va (2 ^ (16 + j))
    omega
  refine ⟨by omega, by omega, by omega⟩

theorem State.t1Page_holds (s : State) (table idx va : Nat) : (s.t1Page table idx va).Holds va := by
  unfold State.t1Page
  dsimp only
  split
  · exact Xlat.holds_of_size (k := 21) (by decide) rfl rfl
  · exact Xlat.holds_of_size (k := 16) (by decide) rfl rfl

/-- A walk that succeeds gives the page that holds the address. -/
theorem State.walk_holds {s : State} {vf va kind : Nat} {priv regs : Bool} {x : Xlat} (h : s.walk vf va kind priv regs = .ok x) :
    x.Holds va := by
  unfold State.walk at h
  extract_lets fail noEntry entry a3 e3 t2 i2 e2 first ea eb t1 i1 at h
  split at h
  · cases h
  · split at h
    · cases h
    · split at h
      · cases h
      · split at h
        · split at h
          · rw [checkLeaf_ok h]
            exact Xlat.holds_of_size (k := 30) (by decide) rfl rfl
          · cases h
        · split at h
          · cases h
          · split at h
            · cases h
            · rw [checkLeaf_ok h]
              exact s.t1Page_holds ..

theorem pageNumbers_single {a n : Nat} (hn : 0 < n) (hpage : (a + n - 1) / 2 ^ 16 = a / 2 ^ 16) : pageNumbers [⟨a, n, 0⟩] = [a / 2 ^ 16] := by
  have h0 : n ≠ 0 := Nat.pos_iff_ne_zero.1 hn
  simp only [pageNumbers, List.flatMap_cons, List.flatMap_nil, List.append_nil, if_neg h0, hpage]
  simp [sortNats, insertNat]

theorem findXlat_single {x : Xlat} {va : Nat} (h : x.Holds va) : findXlat [x] va = x := by
  obtain ⟨-, hlo, hhi⟩ := h
  simp [findXlat, hlo, hhi]

/-- A device access within a page of 64 KiB that succeeds has walked that page, which lies in a package that is there. -/
theorem devPages_single {s : State} {vf kind a n : Nat} {priv regs : Bool} {x : Xlat} (hn : 0 < n)
    (hpage : (a + n - 1) / 2 ^ 16 = a / 2 ^ 16) (h : s.devPages vf kind priv a n regs = .ok [x]) :
    x.Holds a ∧ s.absent (x.pa a) = false := by
  have hmax : max a (a / 2 ^ 16 * 2 ^ 16) = a := Nat.max_eq_left (Nat.div_mul_le_self ..)
  unfold State.devPages at h
  rw [if_neg hn.ne'] at h
  split at h
  · cases h
  · split at h
    · cases h
    · rw [pageNumbers_single hn hpage] at h
      simp only [List.map_cons, List.map_nil, hmax] at h
      cases hw : s.walk vf a kind priv regs with
      | error f => simp [hw] at h
      | ok y =>
        have hy := State.walk_holds hw
        simp only [hw, List.filterMap_cons, List.filterMap_nil, List.isEmpty_nil, Bool.not_true, Bool.false_eq_true, if_false,
          List.filter_cons, List.filter_nil, findXlat_single hy] at h
        split at h
        · cases h
        · next hab =>
          cases h
          refine ⟨hy, ?_⟩
          by_contra hcon
          simp [hcon] at hab

/-! ### Bytes stored -/

theorem Memory.foldl_set_eq_store (bs : List Byte) (m : Memory) (a k : Nat) :
    ((List.range' k bs.length).zip bs).foldl (fun m p => ZMap.set m (a + p.1) p.2) m = Memory.store m (a + k) bs := by
  induction bs generalizing m k with
  | nil => rfl
  | cons b bs ih =>
    rw [List.length_cons, List.range'_succ, List.zip_cons_cons, List.foldl_cons, ih]
    rfl

theorem Memory.getD_bytes (m : Memory) (a n i : Nat) (h : i < n) : (Memory.bytes m a n).getD i 0 = ZMap.get m (a + i) := by
  induction n generalizing a i with
  | zero => omega
  | succ n ih =>
    cases i with
    | zero => rfl
    | succ i =>
      rw [Memory.bytes, List.getD_cons_succ, ih _ _ (by omega)]
      congr 1
      omega

theorem Memory.get_store_inside (bs : List Byte) (m : Memory) (a i : Nat) (h : i < bs.length) :
    ZMap.get (Memory.store m a bs) (a + i) = bs.getD i 0 := by
  rw [← Memory.getD_bytes _ _ bs.length _ h, Memory.bytes_store]

theorem get_setAD (m : Memory) (ptes : List Nat) (kind b : Nat) (h : b ∉ ptes) : ZMap.get (setAD m ptes kind) b = ZMap.get m b := by
  unfold setAD
  induction ptes generalizing m with
  | nil => rfl
  | cons p ptes ih =>
    obtain ⟨hne, hnot⟩ : b ≠ p ∧ b ∉ ptes := by simpa using h
    rw [List.foldl_cons, ih _ hnot, ZMap.get_set_ne _ _ _ _ hne.symm]

theorem linePieces_single {va n : Nat} (hn : 0 < n) (h : va % 256 + n ≤ 256) : linePieces va n = [(va, n)] := by
  have hlines : (va + n - 1) / 256 - va / 256 + 1 = 1 := by omega
  simp only [linePieces, if_neg hn.ne', hlines, List.range_one, List.map_cons, List.map_nil, Nat.add_zero]
  rw [Nat.max_eq_left (by omega), Nat.min_eq_left (by omega), Nat.add_sub_cancel_left]

/-- A store at the home slice within one line of a package that is there. -/
theorem storeThrough_mem {s : State} (core vf : Nat) {pa : Nat} (leaf : Word) {bs : List Byte} (h : pa % 256 + bs.length ≤ 256)
    (hab : s.absent pa = false) : (s.storeThrough core vf pa leaf bs).mem = Memory.store s.mem pa bs := by
  have habline : s.absent (pa / 256 * 256) = false := by
    rw [← hab, State.absent, State.absent, show paPkg (pa / 256 * 256) = paPkg pa by unfold paPkg; omega]
  unfold State.storeThrough
  rw [spread, if_pos h, List.foldl_cons, List.foldl_nil, State.homeBytes_mem]
  rw [if_neg (by exact (Bool.eq_false_iff).1 habline)]
  rw [List.foldl_map, List.range_eq_range']
  have hpa : pa / 256 * 256 + pa % 256 = pa := Nat.div_add_mod' pa 256
  have := Memory.foldl_set_eq_store bs s.mem (pa / 256 * 256 + pa % 256) 0
  simp only [Nat.add_assoc, Nat.add_zero] at this
  rw [hpa] at this
  exact this

/-! ### Records -/

theorem devPages_congr {s t : State} (hm : t.mem = s.mem) (hv : t.vfs = s.vfs) (hb : t.board = s.board) (vf kind : Nat) (priv : Bool)
    (va n : Nat) (regs : Bool) : t.devPages vf kind priv va n regs = s.devPages vf kind priv va n regs := by
  have hpte : t.pte = s.pte := funext fun a => by rw [State.pte, hm, State.pte]
  have habsent : t.absent = s.absent := funext fun a => by rw [State.absent, hb, State.absent]
  have hvf : t.vf = s.vf := funext fun v => by rw [State.vf, hv, State.vf]
  have hpage : t.t1Page = s.t1Page := by
    funext table idx va
    simp only [State.t1Page, hpte]
  have hwalk (vf va kind : Nat) (priv regs : Bool) : t.walk vf va kind priv regs = s.walk vf va kind priv regs := by
    simp only [State.walk, hpte, habsent, hvf, hpage]
  simp only [State.devPages, hwalk, habsent]

section
variable {c : Ctx} {s t : State} {n : Nat} {x : Xlat}

theorem Ctx.CanRecord.addr (h : c.CanRecord s n x) (hn : n < 64) :
    (c.team.recordAddr n).toNat = c.team.fbase.toNat + 64 * n ∧ (c.team.recordAddr n).toNat % 64 = 0 := by
  have hroom := h.room
  have hal := h.aligned
  have haddr : (c.team.recordAddr n).toNat = c.team.fbase.toNat + 64 * n := by
    rw [Team.recordAddr, BitVec.toNat_add, BitVec.toNat_ofNat, Nat.mod_eq_of_lt (show 64 * n < 2 ^ 64 by omega), Nat.mod_eq_of_lt (by omega)]
  exact ⟨haddr, by omega⟩

/-- The page of a record holds it at an address of its own that a line's quarter holds whole. -/
theorem Ctx.CanRecord.page (h : c.CanRecord s n x) (hn : n < 64) :
    x.Holds (c.team.recordAddr n).toNat ∧ s.absent (x.pa (c.team.recordAddr n).toNat) = false ∧
      x.pa (c.team.recordAddr n).toNat % 64 = 0 := by
  obtain ⟨-, hmod⟩ := h.addr hn
  obtain ⟨hholds, hab⟩ := devPages_single (by decide) (by omega) h.pages
  obtain ⟨hbase, hlo, hhi⟩ := hholds
  refine ⟨⟨hbase, hlo, hhi⟩, hab, ?_⟩
  rw [Xlat.pa]
  omega

/-- The bytes of a record are written at its page (R345). -/
theorem devWrite_record (h : c.CanRecord s n x) (hn : n < 64) (hm : t.mem = s.mem) (hv : t.vfs = s.vfs) (hb : t.board = s.board)
    (core : Nat) {bs : List Byte} (hlen : bs.length = 64) :
    let a := (c.team.recordAddr n).toNat
    t.devWrite core c.vf true a bs = some ((t.useWalks kStore [x]).storeThrough core c.vf (x.pa a) x.leaf bs) ∧
      ((t.useWalks kStore [x]).storeThrough core c.vf (x.pa a) x.leaf bs).mem = Memory.store (setAD s.mem x.ptes kStore) (x.pa a) bs := by
  intro a
  obtain ⟨hholds, hab, hmod⟩ : x.Holds a ∧ s.absent (x.pa a) = false ∧ x.pa a % 64 = 0 := h.page hn
  obtain ⟨-, hamod⟩ : _ ∧ a % 64 = 0 := h.addr hn
  constructor
  · rw [State.devWrite, hlen, devPages_congr hm hv hb, h.pages, linePieces_single (by decide) (by omega)]
    simp only [List.foldl_cons, List.foldl_nil, findXlat_single hholds, Nat.sub_self, List.drop_zero]
    rw [List.take_of_length_le hlen.le]
  · rw [storeThrough_mem core c.vf x.leaf (by omega) (by rw [State.absent, show (t.useWalks kStore [x]).board = s.board from hb]; exact hab)]
    simp only [State.useWalks, List.foldl_cons, List.foldl_nil, hm]

/-- A staging area gives way at the place of a record, and keeps its other bytes. -/
theorem staging_drop (g : Staging) (a k b : Nat) :
    if a ≤ b ∧ b < a + k then b ∉ (g.drop a k).addrs else
      (b ∈ (g.drop a k).addrs ↔ b ∈ g.addrs) ∧ ZMap.get (g.drop a k).bytes b = ZMap.get g.bytes b := by
  have hmem : b ∈ (g.drop a k).addrs ↔ b ∈ g.addrs ∧ (b < a ∨ a + k ≤ b) := by
    simp only [Staging.drop, List.mem_filter, decide_eq_true_eq]
  split
  · rw [hmem]
    rintro ⟨-, hout⟩
    omega
  · refine ⟨hmem.trans (and_iff_left (by omega)), ?_⟩
    simp only [Staging.drop]
    generalize g.bytes = m
    have key (ns : List Nat) (hns : ∀ i ∈ ns, a + i ≠ b) (m : ZMap 8) :
        ZMap.get (ns.foldl (fun m i => ZMap.set m (a + i) 0) m) b = ZMap.get m b := by
      induction ns generalizing m with
      | nil => rfl
      | cons i ns ih =>
        rw [List.foldl_cons, ih fun j hj => hns j (List.mem_cons_of_mem _ hj), ZMap.get_set_ne _ _ _ _ (hns i List.mem_cons_self)]
    refine key _ (fun i hi => ?_) m
    have := List.mem_range.1 hi
    omega

/-- A record is written (R345, R348): its bytes stand at its page, the team's staged bytes give way to it, and nothing else changes
outside the gang than what such a write may move. -/
theorem writeRecord_spec (h : c.CanRecord s n x) (hn : n < 64) (hm : t.mem = s.mem) (hv : t.vfs = s.vfs) (hb : t.board = s.board)
    {y : Team} (hy : t.team? c.ref.team = some y) (hshell : y.shell = c.team.shell) (core cls : Nat) {bytes : BitVec 32 → List Byte}
    (hlen : ∀ q, (bytes q).length = 64) :
    ∃ u z, t.writeRecord c.ref.team n core cls bytes = (u, true) ∧ u.team? c.ref.team = some z ∧ z.stopped = c.team.stopped ∧
      (c.Kept s t recordLoose → c.Kept s u recordLoose) ∧ c.Recorded s u n x (bytes (c.team.seq + 1)) ∧ u.turn = t.turn ∧
      (∀ g, u.gang? c.ref.team g = t.gang? c.ref.team g) ∧ u.vfs = t.vfs := by
  have hfield {α : Type} (f : Team → α) (hf : ∀ x : Team, f x.shell = f x) : f y = f c.team := by rw [← hf y, hshell, hf]
  have hblock : y.faultBlock = c.team.faultBlock := hfield Team.faultBlock fun _ => rfl
  have hfbase : y.recordAddr n = c.team.recordAddr n := hfield (fun z => z.recordAddr n) fun _ => rfl
  have hvf : y.vf = c.vf := hfield Team.vf fun _ => rfl
  have hseq : y.seq = c.team.seq := hfield Team.seq fun _ => rfl
  have hstag : y.staging = c.team.staging := hfield Team.staging fun _ => rfl
  have hstop : y.stopped = c.team.stopped := hfield Team.stopped fun _ => rfl
  have hsome : c.team.faultBlock.isNone = false := by
    cases hfb : c.team.faultBlock with
    | none => exact absurd hfb h.block
    | some _ => rfl
  set a := (c.team.recordAddr n).toNat with ha
  let t1 := t.modTeam c.ref.team fun t => { t with seq := c.team.seq + 1 }
  have hty1 : t1.team? c.ref.team = some { y with seq := c.team.seq + 1 } := by
    simp only [t1, State.team?_modTeam, if_true, hy, Option.map_some]
  obtain ⟨hwrite, hmem⟩ := devWrite_record (t := t1) h hn hm hv hb core (hlen (c.team.seq + 1))
  have hmoves := State.Moves.storeThrough (s := t1.useWalks kStore [x]) (core := core) (P := fun _ => True) (fun _ _ => trivial) c.vf
    (x.pa a) x.leaf (bytes (c.team.seq + 1)) fun _ _ _ _ => trivial
  set u1 := (t1.useWalks kStore [x]).storeThrough core c.vf (x.pa a) x.leaf (bytes (c.team.seq + 1)) with hu1
  have hu1y : u1.team? c.ref.team = some { y with seq := c.team.seq + 1 } := (hmoves.step.team? _).trans hty1
  let u := u1.modTeam c.ref.team fun t => { t with staging := t.staging.drop (t.recordAddr n).toNat 64 }
  have huy : u.team? c.ref.team = some { y with seq := c.team.seq + 1, staging := y.staging.drop a 64 } := by
    simp only [u, State.team?_modTeam, if_true, hu1y, Option.map_some]
    rw [ha, ← hfbase]
    rfl
  have hexec : t.writeRecord c.ref.team n core cls bytes = (u, true) := by
    have hw : t1.devWrite core y.vf true (y.recordAddr n).toNat (bytes (c.team.seq + 1)) = some u1 := by rw [hvf, hfbase]; exact hwrite
    simp only [State.writeRecord, hy, hblock, hsome, hseq, hfbase, Bool.false_eq_true, if_false]
    rw [hfbase] at hw
    rw [hw]
  refine ⟨u, _, hexec, huy, hstop, fun hk => ?_, ⟨fun i hi => ?_, fun b hout hpte => ?_, fun z hz b => ?_⟩, hmoves.step.turn, fun g => ?_,
    hmoves.step.vfs⟩
  · have h1 := hk.modTeam (fun t => { t with seq := c.team.seq + 1 }) (fun _ => rfl) fun _ => rfl
    have h2 : c.Kept s (t1.useWalks kStore [x]) recordLoose := h1.setMem recordLoose_caches _
    exact (h2.moves hmoves recordLoose_caches).modTeam _ (fun _ => rfl) fun _ => rfl
  · rw [show u.mem = u1.mem from rfl, hmem]
    exact Memory.get_store_inside _ _ _ _ (by rw [hlen]; exact hi)
  · rw [show u.mem = u1.mem from rfl, hmem, Memory.get_store_outside _ _ _ _ (by rw [hlen]; exact hout), get_setAD _ _ _ _ hpte]
  · rw [huy] at hz
    cases hz
    rw [← hstag]
    exact staging_drop y.staging a 64 b
  · have hgang : (t1.useWalks kStore [x]).gang? c.ref.team g = t.gang? c.ref.team g :=
      State.gang?_modTeam t _ _ _ (fun t => { t with seq := c.team.seq + 1 }) fun _ => rfl
    have hlast : u.gang? c.ref.team g = u1.gang? c.ref.team g :=
      State.gang?_modTeam u1 _ _ _ (fun t => { t with staging := t.staging.drop (t.recordAddr n).toNat 64 }) fun _ => rfl
    exact hlast.trans ((hmoves.step.gang? _ _).trans hgang)

@[simp] theorem recordBytes_length (fi : FaultInfo) (word : IWord) (iaddr : Word) (active : Mask) (seq : BitVec 32) (gang : Nat)
    (dbl restart serial : Bool) (resume : Word) :
    (recordBytes fi word iaddr active seq gang dbl restart serial resume).length = 64 := by
  simp [recordBytes]

/-- A change of the issuing fragment leaves the rest of its team. -/
theorem team?_modFrag_shell {y : Team} (hy : t.team? c.ref.team = some y) (m : Fragment → Fragment) :
    ∃ z, (t.modFrag c.ref m).team? c.ref.team = some z ∧ z.shell = y.shell := by
  rw [State.modFrag, State.team?_modGang, if_pos rfl, hy]
  exact ⟨_, rfl, rfl⟩

/-- A WATCHDOG outside a handler ends the team, with the fault in record 2g (R348). -/
theorem takeTrap_watchdog {fi : FaultInfo} (hc : s.ctx? = some c) (h : c.CanRecord s (2 * c.ref.gang) x) (hh : c.gang.handler = none)
    (hcls : fi.cls = 16) (word : IWord) :
    ∃ z, (s.takeTrap c.ref fi word none).team? c.ref.team = some z ∧ z.stopped = some (.fault 16) ∧
      c.Kept s (s.takeTrap c.ref fi word none) recordLoose ∧
      c.Recorded s (s.takeTrap c.ref fi word none) (2 * c.ref.gang) x
        (recordBytes fi word c.frag.pc c.active (c.team.seq + 1) c.ref.gang false true false c.frag.pc) := by
  obtain ⟨hteam, hgang, hfrag, -, -, -, hstopped⟩ := ctx?_spec hc
  let s1 := ({ s with turn := none }).modFrag c.ref fun f => { f with hints := [], wait := none }
  obtain ⟨y, hy, hshell⟩ := team?_modFrag_shell (t := { s with turn := none }) hteam fun f => { f with hints := [], wait := none }
  have hgang32 := h.gang
  obtain ⟨u, z, hwrite, hz, hzstop, hkept, ⟨hbytes, hmem, hstag⟩, -⟩ := writeRecord_spec (t := s1) h (by omega) rfl rfl rfl hy hshell
    c.core fi.cls (bytes := fun seq => recordBytes fi word c.frag.pc c.active seq c.ref.gang false true false c.frag.pc)
    fun _ => recordBytes_length ..
  have hexec : s.takeTrap c.ref fi word none = u.stopTeam c.ref.team (.fault 16) := by
    simp only [State.takeTrap, hteam, hgang, hfrag, hh, Option.isNone_none, Option.getD_none]
    simp only [s1, Ctx.core, Ctx.active] at hwrite
    simp only [hwrite, Bool.not_true, Bool.false_eq_true, if_false]
    rw [if_pos (.inl hcls), hcls]
  rw [hexec]
  have huz : (u.stopTeam c.ref.team (.fault 16)).team? c.ref.team = some { z with stopped := some (.fault 16) } := by
    simp only [State.stopTeam, State.team?_modTeam, if_true, hz, Option.map_some, hzstop, hstopped, StopCause.after]
  refine ⟨_, huz, rfl, ?_, hbytes, hmem, fun w hw b => ?_⟩
  · exact (hkept (((Ctx.Kept.refl hc _).turn none).modFrag _)).modTeam _ (fun _ => rfl) fun _ => rfl
  · rw [huz] at hw
    cases hw
    exact hstag z hz b

end

end Sys2Proof.Machine
end

section
/-! PROOFS. The checks that precede an instruction (R21, R23, R26, R37, R40, R295). -/

namespace Sys2Proof.Machine

theorem perform_trap {i : Instr} {s : State} {c : Ctx} {fi : FaultInfo} (body : Ctx → State → Res) (hc : s.ctx? = some c)
    (hg : gate i c = .trap fi) : perform i body s = .next (c.faulted i fi s) := by
  simp only [perform, hc, hg]
  rfl

/-- The checks of R37 that concern the word and its hints. -/
def validUnit (i : Instr) (hs : List Hint) : Bool := fieldsOk i && (use i).hintsOk hs && valuesOk i hs

theorem gate_undef {i : Instr} {c : Ctx} (hill : isIll i = false) (h : validUnit i c.hints = false) :
    gate i c = .trap { cls := 1, scope := (use i).scope } := by
  rw [validUnit] at h
  simp only [gate, hill, h, Bool.false_eq_true, if_false, Bool.not_false, if_true]

theorem gate_priv {i : Instr} {c : Ctx} (hill : isIll i = false) (h : validUnit i c.hints = true) (hb : c.blocked i = false)
    (hp : privilegedUse i c = true) : gate i c = .trap { cls := 3, scope := (use i).scope } := by
  rw [validUnit] at h
  simp only [gate, hill, h, hb, hp, Bool.false_eq_true, if_false, Bool.not_true, if_true]

/-- A unit names a vector register past the allotment (R23). -/
def Ctx.regRange (c : Ctx) (i : Instr) : Prop := ∃ n ∈ (use i).named c.w c.hints, c.team.kernel.vregs ≤ n

/-- A unit reads a latch that is not valid (R26). -/
def Ctx.badLatch (c : Ctx) (i : Instr) : Prop :=
  ((use i).readsLatch 62 c.hints = true ∧ c.frag.v0 = false) ∨ ((use i).readsLatch 63 c.hints = true ∧ c.frag.v1 = false)

/-- The checks of its registers, of a unit that waits for nothing and needs no privilege (R23, R26). -/
theorem gate_registers {i : Instr} {c : Ctx} (hill : isIll i = false) (h : validUnit i c.hints = true) (hb : c.blocked i = false)
    (hp : privilegedUse i c = false) :
    (c.regRange i → gate i c = .trap { cls := 4, scope := (use i).scope }) ∧
    (¬ c.regRange i → c.badLatch i → gate i c = .trap { cls := 5, scope := (use i).scope }) ∧
    (¬ c.regRange i → ¬ c.badLatch i → gate i c = .go) := by
  rw [validUnit] at h
  have hrange : ((use i).named c.w c.hints).any (fun n => decide (c.team.kernel.vregs ≤ n)) = true ↔ c.regRange i := by
    simp only [Ctx.regRange, List.any_eq_true, decide_eq_true_eq]
  have hlatch : (((use i).readsLatch 62 c.hints && !c.frag.v0) || ((use i).readsLatch 63 c.hints && !c.frag.v1)) = true ↔ c.badLatch i := by
    simp only [Ctx.badLatch, Bool.or_eq_true, Bool.and_eq_true, Bool.not_eq_true']
  simp only [gate, hill, h, hb, hp, Bool.false_eq_true, if_false, Bool.not_true]
  refine ⟨fun hr => if_pos (hrange.2 hr), fun hr hl => ?_, fun hr hl => ?_⟩
  · rw [if_neg (mt hrange.1 hr), if_pos (hlatch.2 hl)]
  · rw [if_neg (mt hrange.1 hr), if_neg (mt hlatch.1 hl)]

/-- A unit of a gang that awaits no result waits for none. -/
theorem blocked_eq_false {i : Instr} {c : Ctx} (haw : c.gang.awaits c.frag.handler = []) (hrtu : c.gang.inRtu = false) :
    c.blocked i = false := by
  simp [Ctx.blocked, haw, hrtu]

section
variable {k : BitVec 3} {d a b : BitVec 6} {cb : BitVec 1} {s : State} {c : Ctx}

theorem use_vand : use (.vand k d a b cb) = Use.vvv d a b cb := rfl

theorem validUnit_vand : validUnit (.vand k d a b cb) [] = true ↔ d ≠ 63 := by
  have hfields : validUnit (.vand k d a b cb) [] = (dstOk d && true && true) := rfl
  rw [hfields, Bool.and_true, Bool.and_true, dstOk, bne_iff_ne, ne_eq, ne_eq, ← BitVec.toNat_inj]
  rfl

theorem blocked_vand : c.blocked (.vand k d a b cb) = false := rfl

theorem named_vand (w n : Nat) :
    n ∈ (use (.vand k d a b cb)).named w [] ↔ n < 62 ∧ (n = d.toNat ∨ n = a.toNat ∨ n = b.toNat) := by
  rw [use_vand]
  simp only [Use.vvv, Use.named, List.flatMap_nil, List.append_nil, List.mem_filter, List.mem_map, List.mem_append, List.mem_cons,
    List.not_mem_nil, or_false, decide_eq_true_eq]
  constructor
  · rintro ⟨⟨v, (rfl | rfl) | rfl, rfl⟩, h⟩
    · exact ⟨h, .inr (.inl rfl)⟩
    · exact ⟨h, .inr (.inr rfl)⟩
    · exact ⟨h, .inl rfl⟩
  · rintro ⟨h, rfl | rfl | rfl⟩
    · exact ⟨⟨d, .inr rfl, rfl⟩, h⟩
    · exact ⟨⟨a, .inl (.inl rfl), rfl⟩, h⟩
    · exact ⟨⟨b, .inl (.inr rfl), rfl⟩, h⟩

theorem readsLatch_vand (n : Nat) : (use (.vand k d a b cb)).readsLatch n [] = true ↔ a.toNat = n ∨ b.toNat = n := by
  rw [use_vand]
  simp [Use.vvv, Use.readsLatch]

/-- A vector register that the instruction names is not there (R23). -/
def Ctx.high (c : Ctx) (v : BitVec 6) : Prop := v.toNat < 62 ∧ c.team.kernel.vregs ≤ v.toNat

/-- A latch that the instruction names is not valid (R26). -/
def Ctx.staleLatch (c : Ctx) (v : BitVec 6) : Prop := (v = 62 ∧ c.frag.v0 = false) ∨ (v = 63 ∧ c.frag.v1 = false)

/-- R21, R23, R26: the checks of a vector instruction without hints, in their order. -/
theorem gate_vand (hh : c.hints = []) :
    (d = 63 → gate (.vand k d a b cb) c = .trap { cls := 1 }) ∧
    (d ≠ 63 → c.high d ∨ c.high a ∨ c.high b → gate (.vand k d a b cb) c = .trap { cls := 4 }) ∧
    (d ≠ 63 → ¬ (c.high d ∨ c.high a ∨ c.high b) → c.staleLatch a ∨ c.staleLatch b → gate (.vand k d a b cb) c = .trap { cls := 5 }) ∧
    (d ≠ 63 → ¬ (c.high d ∨ c.high a ∨ c.high b) → ¬ (c.staleLatch a ∨ c.staleLatch b) → gate (.vand k d a b cb) c = .go) := by
  have hhigh : c.regRange (.vand k d a b cb) ↔ c.high d ∨ c.high a ∨ c.high b := by
    simp only [Ctx.regRange, hh, named_vand, Ctx.high]
    constructor
    · rintro ⟨n, ⟨hn, rfl | rfl | rfl⟩, hv⟩
      · exact .inl ⟨hn, hv⟩
      · exact .inr (.inl ⟨hn, hv⟩)
      · exact .inr (.inr ⟨hn, hv⟩)
    · rintro (⟨hn, hv⟩ | ⟨hn, hv⟩ | ⟨hn, hv⟩)
      · exact ⟨_, ⟨hn, .inl rfl⟩, hv⟩
      · exact ⟨_, ⟨hn, .inr (.inl rfl)⟩, hv⟩
      · exact ⟨_, ⟨hn, .inr (.inr rfl)⟩, hv⟩
  have hstale : c.badLatch (.vand k d a b cb) ↔ c.staleLatch a ∨ c.staleLatch b := by
    have h62 (v : BitVec 6) : v.toNat = 62 ↔ v = 62 := BitVec.toNat_inj (y := 62)
    have h63 (v : BitVec 6) : v.toNat = 63 ↔ v = 63 := BitVec.toNat_inj (y := 63)
    simp only [Ctx.badLatch, hh, readsLatch_vand, Ctx.staleLatch, h62, h63]
    tauto
  have hregs (hd : d ≠ 63) := gate_registers (i := .vand k d a b cb) (c := c) rfl (by rw [hh]; exact validUnit_vand.2 hd) blocked_vand rfl
  rw [hhigh, hstale] at hregs
  refine ⟨fun hd => gate_undef rfl ?_, fun hd h => ?_, fun hd h hs => ?_, fun hd h hs => ?_⟩
  · rw [hh, ← Bool.not_eq_true, validUnit_vand]
    exact not_not_intro hd
  · exact (hregs hd).1 h
  · exact (hregs hd).2.1 h hs
  · exact (hregs hd).2.2 h hs

end

/-! ### The watchdog -/

/-- A unit that has been performed over its gang's budget faults with WATCHDOG instead (R295). -/
theorem perform_watchdog {i : Instr} {s u : State} {c : Ctx} {body : Ctx → State → Res} (hc : s.ctx? = some c) (hg : gate i c = .go)
    (hb : body c (c.counted s) = .next u) (hw : c.gang.mayCount = false) : perform i body s = .next (c.faulted i { cls := 16 } s) := by
  rw [perform_go body hc hg, hb]
  simp only [Ctx.finish, Ctx.complete, hw, Bool.false_eq_true, if_false]
  rfl

theorem mayCount_eq_false {g : Gang} (hh : g.handler = none) (hw : g.wbudget ≤ g.wcount) : g.mayCount = false := by
  simp only [Gang.mayCount, Gang.uncounted, hh, Bool.false_or, decide_eq_false_iff_not]
  omega

/-- A decoded word's meaning is that of its row. -/
theorem unit_eq_exec {i : Instr} {n : Nat} (h : encodeNat i = some n) : unit i = exec i := by
  cases i
  all_goals cases h
  all_goals rfl

/-- What is fetched to be performed was decoded from a word. -/
theorem fetchUnit_run {s t : State} {r : Ref} {i : Instr} (h : s.fetchUnit r = .run i t) : ∃ w, decode w = .ok i := by
  unfold State.fetchUnit at h
  dsimp only at h
  split at h
  · cases h
  · cases h
  · split at h
    · cases h
    · split at h
      · cases h
      · cases h
      · cases h
      · next w _ =>
        split at h
        · next j hj =>
          cases h
          exact ⟨w, hj⟩
        · cases h
        · split at h
          · cases h
          · cases h

theorem unit_of_fetchUnit {s t : State} {r : Ref} {i : Instr} (h : s.fetchUnit r = .run i t) : unit i t = exec i t := by
  obtain ⟨w, hw⟩ := fetchUnit_run h
  exact congrFun (unit_eq_exec (encodes_decodeForm w i ((decode_eq_ok_iff w i).1 hw).1)) t

section
variable {team gang frag : Nat} {s t : State} {i : Instr} {c : Ctx}

/-- The watchdog's step is not there for a unit that may count, or that does not end in its fault (R295). -/
theorem exec_watchdog_disabled (hf : s.fetchUnit ⟨team, gang, frag⟩ = .run i t) (hc : t.ctx? = some c)
    (h : c.gang.mayCount = true ∨ exec i t ≠ .next (c.faulted i { cls := 16 } t)) :
    exec (.watchdog team gang frag) s = .fault .notEnabled := by
  change execWatchdog team gang frag s = _
  simp only [execWatchdog, hf, hc, unit_of_fetchUnit hf]
  cases he : exec i t with
  | next v =>
    refine if_pos ?_
    rcases h with h | h
    · rw [h, Bool.true_or]
    · rw [he] at h
      have hne : v ≠ c.faulted i { cls := 16 } t := fun e => h (by rw [e])
      exact Bool.or_eq_true_iff.2 (.inr (decide_eq_true hne))
  | fault f => rfl
  | refused r => rfl

/-- The watchdog's step is that of a unit whose budget has run out (R295). -/
theorem exec_watchdog_faults (hf : s.fetchUnit ⟨team, gang, frag⟩ = .run i t) (hc : t.ctx? = some c) (hw : c.gang.mayCount = false)
    (he : exec i t = .next (c.faulted i { cls := 16 } t)) : exec (.watchdog team gang frag) s = exec i t := by
  change execWatchdog team gang frag s = _
  simp only [execWatchdog, hf, hc, unit_of_fetchUnit hf, he, hw, Bool.false_or]
  exact if_neg fun h => absurd rfl (of_decide_eq_true h)

end

/-- A unit's record of a fault has the fault's class (R346). -/
theorem withScope_cls (c : Ctx) (s : State) (i : Instr) (fi : FaultInfo) : (c.withScope s i fi).cls = fi.cls := by
  unfold Ctx.withScope
  split
  · rfl
  · split <;> rfl

/-- A turn taken leaves the teams and memory. -/
theorem takeTurn_kept (c : Ctx) (s : State) : (c.takeTurn s).teams = s.teams ∧ (c.takeTurn s).mem = s.mem := by
  unfold Ctx.takeTurn State.takeTurn
  split
  · exact ⟨rfl, rfl⟩
  · exact ⟨rfl, rfl⟩

theorem team?_takeTurn (c : Ctx) (s : State) (n : Nat) : (c.takeTurn s).team? n = s.team? n := by
  rw [State.team?, (takeTurn_kept c s).1, State.team?]

theorem Ctx.Recorded.takeTurn {c : Ctx} {s t : State} {n : Nat} {x : Xlat} {bs : List Byte} (h : c.Recorded s t n x bs) :
    c.Recorded s (c.takeTurn t) n x bs := by
  unfold Ctx.Recorded at *
  rw [(takeTurn_kept c t).2, team?_takeTurn]
  exact h

/-- Settles O21: the checks of `vand`, `sset`, `rte` and `swr` in the order of `gate`, and the watchdog by the unit that it stands for. -/
theorem unitChecks : Obligations.UnitChecks := by
  unfold Obligations.UnitChecks
  refine ⟨fun k d a b cb s c hc hh => ?_, fun a b d cb n s c hc hh haw hrtu => ⟨fun hhandler hn => ?_, fun hhandler => ?_, fun hab => ?_⟩,
    fun d a b cb s c hc hg hhandler hw => ?_, fun team gang frag d a b cb s t c x hf hc hg hhandler hw hrec => ?_,
    fun team gang frag s t i c hf hc => ⟨fun h => ?_, fun _ h => ?_, fun hw he => ?_⟩⟩
  · obtain ⟨hundef, hrange, hlatch, hgo⟩ := gate_vand (k := k) (d := d) (a := a) (b := b) (cb := cb) hh
    have hexec : exec (.vand k d a b cb) s =
        perform (.vand k d a b cb) (fun c t => .vec t d ((c.lanes k).map fun l => (l, c.v a l &&& c.v b l))) s := rfl
    exact ⟨fun hd => hexec.trans (perform_trap _ hc (hundef hd)), fun hd h => hexec.trans (perform_trap _ hc (hrange hd h)),
      fun hd h hs => hexec.trans (perform_trap _ hc (hlatch hd h hs)), fun hd h hs hcount => ⟨hc, hgo hd h hs, hcount⟩⟩
  · change execSset a n cb s = _
    refine perform_trap _ hc (gate_priv rfl ?_ (blocked_eq_false haw hrtu) ?_)
    · rw [hh]
      rcases hn with rfl | rfl <;> rfl
    · change ((n.toNat == 13 || n.toNat == 14) && !c.gang.handler.isSome) = true
      rw [hhandler]
      rcases hn with rfl | rfl <;> rfl
  · change execRte s = _
    refine perform_trap _ hc (gate_priv rfl (by rw [hh]; rfl) (blocked_eq_false haw hrtu) ?_)
    change (!c.gang.handler.isSome) = true
    rw [hhandler]
    rfl
  · change execSwr d a b cb s = _
    refine perform_trap _ hc (gate_priv rfl (by rw [hh]; rfl) (blocked_eq_false haw hrtu) ?_)
    change (c.s a == 0 || c.s a == 7) = true
    simpa using hab
  · exact perform_watchdog (body := fun c t => .next (c.setS t d (c.s a + c.s b))) hc hg rfl (mayCount_eq_false hhandler hw)
  · have hcount := mayCount_eq_false hhandler hw
    have hexec : exec (.sadd d a b cb) t = .next (c.faulted (.sadd d a b cb) { cls := 16 } t) :=
      perform_watchdog (body := fun c t => .next (c.setS t d (c.s a + c.s b))) hc hg rfl hcount
    obtain ⟨z, hz, hstop, hkept, hrecorded⟩ := takeTrap_watchdog hc hrec hhandler (withScope_cls c t (.sadd d a b cb) { cls := 16 })
      (wordOf (.sadd d a b cb))
    refine ⟨_, z, (exec_watchdog_faults hf hc hcount hexec).trans hexec, (team?_takeTurn ..).trans hz, hstop, hkept.takeTurn .., hrecorded.takeTurn⟩
  · exact exec_watchdog_disabled hf hc (.inl h)
  · exact exec_watchdog_disabled hf hc (.inr h)
  · exact exec_watchdog_faults hf hc hw he

end Sys2Proof.Machine
end

section
/-! PROOFS. Units that access memory (R33, R60, R235, R240, R261, R262): what retiring leaves, translations that are used, releases and
acquires of an ordering hint, and results that are listed by lane. -/

namespace Sys2Proof.Machine

/-! ### The state after a unit -/

/-- Two states differ in the gang that issues, quadrants and the turn alone. -/
structure Ctx.SameBut (c : Ctx) (u t : State) : Prop where
  kept : ∀ (s : State) (l : Loose), c.Kept s u l → c.Kept s t l
  mem : t.mem = u.mem
  shells : ∀ n, (t.team? n).map Team.shell = (u.team? n).map Team.shell

theorem schedule_mem (c : Ctx) (u : State) (i : Instr) : (c.schedule u i).mem = u.mem ∧ (c.schedule u i).teams = u.teams := by
  obtain ⟨hteams, hmem⟩ := takeTurn_kept c u
  unfold Ctx.schedule
  dsimp only
  split
  · exact ⟨hmem, hteams⟩
  · exact ⟨hmem, hteams⟩

theorem retire_sameBut (c : Ctx) (u : State) (i : Instr) (ch : Bool) (pc : Word) (v : Option (BitVec 6 × List (Nat × Word)))
    (w : Option Wait) : c.SameBut u (c.schedule (c.retire u ch pc v w) i) := by
  obtain ⟨hmem, hteams⟩ := schedule_mem c (c.retire u ch pc v w) i
  refine ⟨fun s l hk => ((hk.turn none).modGang _).schedule i, hmem, fun n => ?_⟩
  rw [State.team?, hteams]
  change ((c.retire u ch pc v w).team? n).map Team.shell = _
  unfold Ctx.retire
  rw [State.team?_modGang]
  change (if c.ref.team = n then (u.team? n).map _ else u.team? n).map Team.shell = _
  split
  · cases u.team? n <;> rfl
  · rfl

/-- A unit whose meaning answers with a state: the state after it. -/
theorem perform_next {i : Instr} {s u : State} {c : Ctx} {body : Ctx → State → Res} (hr : Runs i s c)
    (hb : body c (c.counted s) = .next u) :
    perform i body s = .next (c.schedule (c.retire u ((use i).chain == some 1) c.next none none) i) :=
  (perform_go body hr.ctx hr.gate).trans (by rw [hb]; simp only [Ctx.finish, Ctx.complete, hr.budget, if_true])

/-- A unit whose meaning answers with a vector result: the state after it. -/
theorem perform_vec {i : Instr} {s u : State} {c : Ctx} {body : Ctx → State → Res} {d : BitVec 6} {vals : List (Nat × Word)}
    (hr : Runs i s c) (hb : body c (c.counted s) = .vec u d vals) :
    perform i body s = .next (c.schedule (c.retire u ((use i).chain == some 1) c.next (some (d, vals)) none) i) :=
  (perform_go body hr.ctx hr.gate).trans (by rw [hb]; simp only [Ctx.finish, Ctx.complete, hr.budget, if_true])

/-- A unit whose meaning answers with a state completes, with whatever holds of that state and of those that differ from it by the
retiring alone. -/
theorem completes_next {i : Instr} {s u : State} {c : Ctx} {g : Gang} {l : Loose} {w : Writes} {body : Ctx → State → Res}
    {more : State → Gang → Prop} (hr : Runs i s c) (he : exec i s = perform i body s) (hb : body c (c.counted s) = .next u)
    (hu : u.gang? c.ref.team c.ref.gang = some g) (hg : g.entries = c.gang.entries) (hk : c.Kept s u l) (hd : w.Done c.w c.gang g)
    (hm : ∀ t h, c.SameBut u t → more t h) : CompletesAt i s c c.after w l more := by
  obtain ⟨t, h, h1, h2, h3, h4, h5, h6⟩ := unit_next hr hb hu hg hk hd
  have ht := (perform_next hr hb).symm.trans h1
  cases ht
  exact ⟨_, h, he.trans h1, h2, h3, h4, h5, h6, hm _ h (retire_sameBut ..)⟩

/-- The same of a unit whose meaning answers with a vector result. -/
theorem completes_vec {i : Instr} {s u : State} {c : Ctx} {g : Gang} {l : Loose} {w : Writes} {body : Ctx → State → Res} {d : BitVec 6}
    {vals : List (Nat × Word)} {more : State → Gang → Prop} (hr : Runs i s c) (he : exec i s = perform i body s)
    (hb : body c (c.counted s) = .vec u d vals) (hu : u.gang? c.ref.team c.ref.gang = some g) (hg : g.entries = c.gang.entries)
    (hk : c.Kept s u l) (hd : w.Done c.w c.gang (g.withResult (some (d, vals)))) (hm : ∀ t h, c.SameBut u t → more t h) :
    CompletesAt i s c c.after w l more := by
  obtain ⟨t, h, h1, h2, h3, h4, h5, h6⟩ := unit_vec hr hb hu hg hk hd
  have ht := (perform_vec hr hb).symm.trans h1
  cases ht
  exact ⟨_, h, he.trans h1, h2, h3, h4, h5, h6, hm _ h (retire_sameBut ..)⟩

/-! ### Results by lane -/

theorem find?_of_mem_nodup {α : Type} {qs : List (Nat × α)} (hn : (qs.map Prod.fst).Nodup) {q : Nat × α} (hq : q ∈ qs) :
    qs.find? (fun p => p.1 == q.1) = some q := by
  induction qs with
  | nil => cases hq
  | cons p qs ih =>
    obtain ⟨hp, hn⟩ := List.nodup_cons.1 hn
    rcases List.mem_cons.1 hq with rfl | hq
    · simp
    · have hne : p.1 ≠ q.1 := fun e => hp (e ▸ List.mem_map_of_mem hq)
      rw [List.find?_cons, beq_eq_false_iff_ne.2 hne]
      exact ih hn hq

/-- A vector result that is listed by lane. -/
theorem Writes.Done.setPairs {w : Writes} {n : Nat} {g h : Gang} (hd : w.Done n g h) (hv : w.v = fun _ _ => none) (d : BitVec 6)
    (qs : List (Nat × Word)) (hn : (qs.map Prod.fst).Nodup) (hl : ∀ q ∈ qs, q.1 < 64) :
    Writes.Done { w with v := fun r l => if r = d.toNat then (qs.find? fun q => q.1 == l).map Prod.snd else none } n g
      (h.withResult (some (d, qs))) := by
  let f (l : Nat) : Word := ((qs.find? fun q => q.1 == l).map Prod.snd).getD 0
  have hqs : qs = (qs.map Prod.fst).map fun l => (l, f l) := by
    rw [List.map_map]
    refine (List.map_id qs).symm.trans (List.map_congr_left fun q hq => ?_)
    have hf : f q.1 = q.2 := by
      simp only [f]
      rw [find?_of_mem_nodup hn hq]
      rfl
    exact Prod.ext rfl hf.symm
  have hwrite : (fun r l => if r = d.toNat then (qs.find? fun q => q.1 == l).map Prod.snd else none) = vecWrite d (qs.map Prod.fst) f := by
    funext r l
    simp only [vecWrite]
    by_cases hr : r = d.toNat
    · rw [if_pos hr]
      by_cases hmem : l ∈ qs.map Prod.fst
      · rw [if_pos ⟨hr, hmem⟩]
        obtain ⟨q, hq, rfl⟩ := List.mem_map.1 hmem
        simp only [f]
        rw [find?_of_mem_nodup hn hq]
        rfl
      · rw [if_neg fun e => hmem e.2, List.find?_eq_none.2 fun q hq e => hmem (List.mem_map.2 ⟨q, hq, beq_iff_eq.1 e⟩)]
        rfl
    · rw [if_neg hr, if_neg fun e => hr e.1]
  rw [hwrite]
  have := hd.setVs hv d (qs.map Prod.fst) f fun l hl' => by
    obtain ⟨q, hq, rfl⟩ := List.mem_map.1 hl'
    exact hl q hq
  rw [← hqs] at this
  exact this

theorem lanesOf_nodup (m : Mask) : (lanesOf m).Nodup := List.Nodup.filter _ List.nodup_range

/-- The gang with another count of unacknowledged accesses (R267). -/
theorem Writes.Done.setUnacked {w : Writes} {n : Nat} {g h : Gang} (hd : w.Done n g h) (hm : w.more = id) (k : Nat) :
    Writes.Done { w with more := fun g => { g with unacked := k } } n g { h with unacked := k } := by
  refine ⟨hd.scalars, hd.vectors, hd.masks, hd.flags, hd.unread, hd.count, ?_⟩
  have hrest := hd.rest
  rw [hm] at hrest
  exact congrArg (fun g : Gang => { g with unacked := k }) hrest

/-! ### Translations -/

section
variable {c : Ctx} {s t u : State} {l : Loose}

theorem Ctx.Kept.modDie (h : c.Kept s t l) (d : Nat) (f : Die → Die) (hf : ∀ x, l.die (f x) = l.die x) : c.Kept s (t.modDie d f) l := by
  refine ⟨h.rest, h.cores, h.quads, fun e => ?_, h.vfs, h.teams, h.gangs, h.shell⟩
  rw [State.die_modDie]
  split
  · next e => rw [hf, e]; exact h.dies _
  · exact h.dies e

theorem Ctx.Kept.modCore (h : c.Kept s t l) (n : Nat) (f : Core → Core)
    (hf : ∀ x, l.core { f x with quads := [] } = l.core { x with quads := [] }) (hq : ∀ x, (f x).quads = x.quads) : c.Kept s (t.modCore n f) l := by
  refine ⟨h.rest, fun m => ?_, fun m q => ?_, h.dies, h.vfs, h.teams, h.gangs, h.shell⟩
  · rw [State.core_modCore]
    split
    · next e => rw [hf, e]; exact h.cores _
    · exact h.cores m
  · have hquad : ((t.modCore n f).core m).quad q = (t.core m).quad q := by
      rw [State.core_modCore]
      split
      · next e => rw [Core.quad, hq, e]; rfl
      · rfl
    rw [hquad]
    exact h.quads m q

/-- What may change by the use of translations. -/
structure Loose.Translations (l : Loose) : Prop where
  caches : l.Caches
  core : ∀ (x : Core) (y : List Tlb), l.core { x with tlb := y } = l.core x
  die : ∀ (x : Die) (y : List Tlb), l.die { x with tlb := y } = l.die x

theorem memLoose_translations : memLoose.Translations := ⟨memLoose_caches, fun _ _ => rfl, fun _ _ => rfl⟩

/-- Translations that are used set bits of their table entries, and no byte becomes written (R60, R61). -/
structure State.Translates (xs : List Xlat) (s t : State) : Prop where
  teams : t.teams = s.teams
  vfs : t.vfs = s.vfs
  board : t.board = s.board
  turn : t.turn = s.turn
  cur : t.cur = s.cur
  grids : t.grids = s.grids
  tick : t.tick = s.tick
  mem : ∀ b, (∀ x ∈ xs, b ∉ x.ptes) → ZMap.get t.mem b = ZMap.get s.mem b
  core : ∀ n, { t.core n with tlb := [] } = { s.core n with tlb := [] }
  remote : ∀ d, (t.die d).remote = (s.die d).remote
  kept : ∀ (c : Ctx) (r : State) (l : Loose), l.Translations → c.Kept r s l → c.Kept r t l

theorem State.Translates.refl (s : State) (xs : List Xlat) : s.Translates xs s :=
  ⟨rfl, rfl, rfl, rfl, rfl, rfl, rfl, fun _ _ => rfl, fun _ => rfl, fun _ => rfl, fun _ _ _ _ h => h⟩

theorem State.Translates.cons {x : Xlat} {xs : List Xlat} (h : s.Translates [x] t) (k : t.Translates xs u) :
    s.Translates (x :: xs) u := by
  refine ⟨k.teams.trans h.teams, k.vfs.trans h.vfs, k.board.trans h.board, k.turn.trans h.turn, k.cur.trans h.cur,
    k.grids.trans h.grids, k.tick.trans h.tick, fun b hb => ?_, fun n => (k.core n).trans (h.core n),
    fun d => (k.remote d).trans (h.remote d), fun c r l hl hk => k.kept c r l hl (h.kept c r l hl hk)⟩
  obtain ⟨hx, hxs⟩ := List.forall_mem_cons.1 hb
  exact (k.mem b hxs).trans (h.mem b fun y hy => List.mem_singleton.1 hy ▸ hx)

theorem State.core_modDie (s : State) (d n : Nat) (f : Die → Die) : (s.modDie d f).core n = s.core n := rfl

/-- One page's bits are set and its translation is installed. -/
theorem State.installs_translates (s : State) (core vf kind : Nat) (x : Xlat) (leaf : Word) :
    s.Translates [x] ((State.modCore { s with mem := setAD s.mem x.ptes kind } core fun c =>
      { c with tlb := tlbPut c.tlb 64 vf { x with leaf := leaf } }).modDie (core / 64) fun d =>
      { d with tlb := tlbPut d.tlb 8192 vf { x with leaf := leaf } }) := by
  refine ⟨rfl, rfl, rfl, rfl, rfl, rfl, rfl, fun b hb => get_setAD _ _ _ _ (hb x List.mem_cons_self), fun n => ?_,
    fun d => ?_, fun c r l hl hk => ?_⟩
  · rw [State.core_modDie, State.core_modCore]
    split
    · next e => rw [← e]; rfl
    · rfl
  · rw [State.die_modDie]
    split
    · next e => rw [← e]; rfl
    · rfl
  · refine Ctx.Kept.modDie (Ctx.Kept.modCore (hk.setMem hl.caches _) _ _ (fun y => ?_) fun y => ?_) _ _ fun y => hl.die y _
    · exact hl.core { y with quads := [] } _
    · rfl

theorem State.useXlats_translates (core vf kind : Nat) (xs : List Xlat) (s : State) : s.Translates xs (s.useXlats core vf kind xs) := by
  unfold State.useXlats
  induction xs generalizing s with
  | nil => exact .refl s []
  | cons x xs ih =>
    rw [List.foldl_cons]
    refine .cons ?_ (ih _)
    by_cases hx : x.ptes.isEmpty = true
    · rw [if_pos hx]
      exact .refl s _
    · rw [if_neg hx]
      exact s.installs_translates ..

theorem State.Translates.writtenIn {xs : List Xlat} {core : Nat} {P : Nat → Prop} (h : s.Translates xs t) (hs : s.WrittenIn core P) :
    t.WrittenIn core P := by
  obtain ⟨h1, h2⟩ := (s.writtenIn_iff core P).1 hs
  refine (t.writtenIn_iff core P).2 ⟨?_, fun d => ?_⟩
  · have hl1 : (t.core core).l1 = (s.core core).l1 := by
      have := congrArg Core.l1 (h.core core)
      exact this
    rw [hl1]
    exact h1
  · rw [h.remote]
    exact h2 d

theorem State.Translates.gang? {xs : List Xlat} (h : s.Translates xs t) (n g : Nat) : t.gang? n g = s.gang? n g := by
  rw [State.gang?, State.team?, h.teams, State.gang?, State.team?]

/-- The checks of a global access that pass have used the translations of its pages (R60, R235). -/
theorem reach_ok {kind sz : Nat} {as : List Nat} {xs : List Xlat} (h : c.reach s kind sz as = .ok (t, xs)) :
    t = s.useXlats c.core c.vf kind xs := by
  unfold Ctx.reach at h
  split at h
  · cases h
  · split at h
    · cases h
    · dsimp only at h
      split at h
      · cases h
      · split at h
        · cases h
        · cases h
          rfl

theorem reachAtomic_ok {sz : Nat} {as : List Nat} {xs : List Xlat} (h : c.reachAtomic s sz as = .ok (t, xs)) : s.Translates xs t := by
  unfold Ctx.reachAtomic at h
  split at h
  · split at h
    · split at h
      · cases h
      · cases h
    · cases h
  · cases h
  · next v ys hreach =>
    split at h
    · cases h
    · cases h
      rw [reach_ok hreach]
      exact State.useXlats_translates ..

end

end Sys2Proof.Machine
end

section
/-! PROOFS. The operations of the caches read no team (R43, R44, R241, R261). -/

namespace Sys2Proof.Machine

/-- A state with other teams. -/
def State.withTeams (s : State) (T : SMap Team) : State := { s with teams := T }

section
variable (s : State) (T : SMap Team)

@[simp] theorem State.core_withTeams (n : Nat) : (s.withTeams T).core n = s.core n := rfl
@[simp] theorem State.die_withTeams (d : Nat) : (s.withTeams T).die d = s.die d := rfl
@[simp] theorem State.mem_withTeams : (s.withTeams T).mem = s.mem := rfl
@[simp] theorem State.tick_withTeams : (s.withTeams T).tick = s.tick := rfl
@[simp] theorem State.lineSet_withTeams (d vf num : Nat) : (s.withTeams T).lineSet d vf num = s.lineSet d vf num := rfl
@[simp] theorem State.homeDie_withTeams (pa : Nat) : (s.withTeams T).homeDie pa = s.homeDie pa := rfl
@[simp] theorem State.absent_withTeams (pa : Nat) : (s.withTeams T).absent pa = s.absent pa := rfl
@[simp] theorem State.remoteLine_withTeams (d vf num : Nat) : (s.withTeams T).remoteLine d vf num = s.remoteLine d vf num := rfl
@[simp] theorem State.remoteOf_withTeams (d vf num : Nat) (leaf : Word) :
    (s.withTeams T).remoteOf d vf num leaf = s.remoteOf d vf num leaf := rfl
@[simp] theorem State.remoteHeld_withTeams (d pa : Nat) (leaf : Word) :
    (s.withTeams T).remoteHeld d pa leaf = s.remoteHeld d pa leaf := rfl
@[simp] theorem State.modDie_withTeams (d : Nat) (f : Die → Die) : (s.withTeams T).modDie d f = (s.modDie d f).withTeams T := rfl
@[simp] theorem State.modCore_withTeams (n : Nat) (f : Core → Core) :
    (s.withTeams T).modCore n f = (s.modCore n f).withTeams T := rfl

/-- Operations that read no team, one after the other. -/
theorem foldl_withTeams {α : Type} {f : State → α → State} (hf : ∀ s a, f (s.withTeams T) a = (f s a).withTeams T) (l : List α) :
    l.foldl f (s.withTeams T) = (l.foldl f s).withTeams T := by
  induction l generalizing s with
  | nil => rfl
  | cons a l ih => rw [List.foldl_cons, hf, ih, List.foldl_cons]

@[simp] theorem State.event_withTeams (ty die vf cls detail addr aux : Nat) :
    (s.withTeams T).event ty die vf cls detail addr aux = (s.event ty die vf cls detail addr aux).withTeams T := by
  have hflow : (s.withTeams T).flow = s.flow := rfl
  unfold State.event State.log
  rw [hflow]
  split <;> rfl

@[simp] theorem State.countRcg_withTeams (die g : Nat) : (s.withTeams T).countRcg die g = (s.countRcg die g).withTeams T := by
  unfold State.countRcg
  split <;> rfl

@[simp] theorem State.cavernPut_withTeams (die num : Nat) (secs : BitVec 4) (mask : BitVec 256) (evp rcg : Nat) :
    (s.withTeams T).cavernPut die num secs mask evp rcg = (s.cavernPut die num secs mask evp rcg).withTeams T := by
  unfold State.cavernPut
  split <;> rfl

@[simp] theorem State.reachCavern_withTeams (die num : Nat) (secs : BitVec 4) (mask : BitVec 256) (leaf : Word) :
    (s.withTeams T).reachCavern die num secs mask leaf = (s.reachCavern die num secs mask leaf).withTeams T := by
  unfold State.reachCavern
  dsimp only
  rw [State.countRcg_withTeams, State.cavernPut_withTeams]
  split <;> rfl

@[simp] theorem State.evictHome_withTeams (die : Nat) (h : Held) : (s.withTeams T).evictHome die h = (s.evictHome die h).withTeams T := by
  unfold State.evictHome
  dsimp only
  rw [State.modDie_withTeams, State.countRcg_withTeams, State.cavernPut_withTeams]
  split <;> rfl

@[simp] theorem State.homeTouch_withTeams (vf num : Nat) (secs : BitVec 4) (mask : BitVec 256) (leaf : Word) :
    (s.withTeams T).homeTouch vf num secs mask leaf = (s.homeTouch vf num secs mask leaf).withTeams T := by
  unfold State.homeTouch
  rw [State.homeDie_withTeams]
  split
  · rfl
  · next h _ =>
    rw [State.reachCavern_withTeams, State.die_withTeams, State.lineSet_withTeams, State.tick_withTeams]
    split
    · rfl
    · split
      · rfl
      · extract_lets d x mates held missing out s1 s2 s3 s4
        have hev : s1 = s3.withTeams T := by
          clear_value out
          cases out with
          | none => rfl
          | some v => exact s.evictHome_withTeams T h v
        have hput : s2 = s4.withTeams T := congrArg (State.modDie · h _) hev
        rw [hput, State.reachCavern_withTeams]
        split <;> rfl

@[simp] theorem State.homeBytes_withTeams (vf num : Nat) (leaf : Word) (bs : List (Nat × Byte)) :
    (s.withTeams T).homeBytes vf num leaf bs = (s.homeBytes vf num leaf bs).withTeams T := by
  unfold State.homeBytes
  rw [State.absent_withTeams, State.event_withTeams]
  split
  · rfl
  · split
    · rfl
    · exact State.homeTouch_withTeams { s with mem := _ } T vf num 0 _ leaf

@[simp] theorem State.evictRemote_withTeams (die : Nat) (l : Line) :
    (s.withTeams T).evictRemote die l = (s.evictRemote die l).withTeams T := by
  simp only [State.evictRemote, State.homeBytes_withTeams, State.modDie_withTeams]

@[simp] theorem State.remoteRoom_withTeams (die vf num : Nat) :
    (s.withTeams T).remoteRoom die vf num = (s.remoteRoom die vf num).withTeams T := by
  unfold State.remoteRoom
  dsimp only
  rw [State.die_withTeams, State.lineSet_withTeams, State.remoteLine_withTeams, State.tick_withTeams]
  split
  · rfl
  · split
    · exact s.evictRemote_withTeams T die _
    · rfl

@[simp] theorem State.l2Write_withTeams (die vf num : Nat) (leaf : Word) (bs : List (Nat × Byte)) :
    (s.withTeams T).l2Write die vf num leaf bs = (s.l2Write die vf num leaf bs).withTeams T := by
  cases bs with
  | nil => rfl
  | cons p bs =>
    simp only [State.l2Write, State.remoteHeld_withTeams, State.remoteRoom_withTeams, State.remoteOf_withTeams,
      State.modDie_withTeams, State.homeBytes_withTeams]
    split <;> rfl

@[simp] theorem State.drainLine_withTeams (core : Nat) (l : Line) :
    (s.withTeams T).drainLine core l = (s.drainLine core l).withTeams T := by
  simp only [State.drainLine, State.modCore_withTeams, State.l2Write_withTeams]

@[simp] theorem State.drainL1_withTeams (core : Nat) : (s.withTeams T).drainL1 core = (s.drainL1 core).withTeams T := by
  refine foldl_withTeams s T (fun s k => ?_) _
  rw [State.core_withTeams]
  split
  · exact s.drainLine_withTeams T core _
  · rfl

@[simp] theorem State.drainRemote_withTeams (die : Nat) : (s.withTeams T).drainRemote die = (s.drainRemote die).withTeams T := by
  refine foldl_withTeams s T (fun s l => ?_) _
  rw [State.homeBytes_withTeams, State.modDie_withTeams]
  split <;> rfl

@[simp] theorem State.drainAt_withTeams (core level : Nat) (dies : List Nat) :
    (s.withTeams T).drainAt core level dies = (s.drainAt core level dies).withTeams T := by
  unfold State.drainAt
  dsimp only
  rw [State.drainL1_withTeams, foldl_withTeams _ T fun s d => s.drainRemote_withTeams T d]
  split
  · rfl
  · split <;> rfl

@[simp] theorem State.giveUpL1_withTeams (core sec : Nat) (l : Line) :
    (s.withTeams T).giveUpL1 core sec l = (s.giveUpL1 core sec l).withTeams T := by
  simp only [State.giveUpL1, State.homeBytes_withTeams, State.modCore_withTeams]

@[simp] theorem State.giveUpRemote_withTeams (die sec : Nat) (l : Line) :
    (s.withTeams T).giveUpRemote die sec l = (s.giveUpRemote die sec l).withTeams T := by
  simp only [State.giveUpRemote, State.homeBytes_withTeams, State.modDie_withTeams]

@[simp] theorem State.giveUpDie_withTeams (die a : Nat) : (s.withTeams T).giveUpDie die a = (s.giveUpDie die a).withTeams T :=
  foldl_withTeams s T (fun s l => s.giveUpRemote_withTeams T die _ l) _

@[simp] theorem State.beforeAtomic_withTeams (core vf pa n : Nat) :
    (s.withTeams T).beforeAtomic core vf pa n = (s.beforeAtomic core vf pa n).withTeams T := by
  refine foldl_withTeams s T (fun s a => ?_) _
  rw [State.giveUpDie_withTeams]
  dsimp only
  rw [State.core_withTeams]
  exact foldl_withTeams _ T (fun s l => s.giveUpL1_withTeams T core _ l) _

theorem State.atomicAt_withTeams (vf pa n : Nat) (leaf : Word) (f : Nat → Option Nat) :
    (s.withTeams T).atomicAt vf pa n leaf f = ((s.atomicAt vf pa n leaf f).1.withTeams T, (s.atomicAt vf pa n leaf f).2) := by
  unfold State.atomicAt
  dsimp only
  rw [State.mem_withTeams]
  split
  · exact congrArg (·, _) (State.homeTouch_withTeams { s with mem := _ } T vf _ _ _ leaf)
  · exact congrArg (·, _) (State.homeTouch_withTeams s T vf _ _ _ leaf)

end

end Sys2Proof.Machine
end

section
/-! PROOFS. Atomics and reductions of a team that is not staged, at the home slices (R33, R240 to R247, R261, R262, R267). -/

namespace Sys2Proof.Machine

/-! ### States within a unit -/

/-- A state that a unit's meaning has come to: nothing outside its gang has changed but what is loose, its gang is as given, no byte
of memory outside a set has changed, and none outside it is written. -/
structure Ctx.Accesses (c : Ctx) (s : State) (l : Loose) (P : Nat → Prop) (g : Gang) (t : State) : Prop where
  kept : c.Kept s t l
  gang : t.gang? c.ref.team c.ref.gang = some g
  mem : ∀ b, ¬ P b → ZMap.get t.mem b = ZMap.get s.mem b
  within : t.WrittenIn c.core P

section
variable {c : Ctx} {s t u : State} {l : Loose} {P : Nat → Prop} {g : Gang}

theorem Ctx.Accesses.counted (hc : s.ctx? = some c) (l : Loose) (hP : s.WrittenIn c.core P) :
    c.Accesses s l P c.gang.count (c.counted s) :=
  ⟨.counted hc l, gang?_counted hc, fun _ _ => rfl, hP⟩

theorem Ctx.Accesses.moves (h : c.Accesses s l P g t) (hl : l.Caches) (hm : t.Moves c.core P u) : c.Accesses s l P g u :=
  ⟨h.kept.moves hm hl, (hm.step.gang? ..).trans h.gang, fun b hb => (hm.mem b hb).trans (h.mem b hb), hm.within⟩

theorem Ctx.Accesses.translates {xs : List Xlat} (h : c.Accesses s l P g t) (hl : l.Translations) (ht : t.Translates xs u)
    (hx : ∀ x ∈ xs, ∀ b ∈ x.ptes, P b) : c.Accesses s l P g u :=
  ⟨ht.kept c s l hl h.kept, (ht.gang? ..).trans h.gang, fun b hb => (ht.mem b fun x hxs hbx => hb (hx x hxs b hbx)).trans (h.mem b hb),
    ht.writtenIn h.within⟩

theorem Ctx.Accesses.modG (h : c.Accesses s l P g t) (f : Gang → Gang) : c.Accesses s l P (f g) (c.modG t f) :=
  ⟨h.kept.modGang f, gang?_modG h.gang f, h.mem, h.within⟩

/-- Where the issuing team is as it was, the state keeps itself. -/
theorem Ctx.Accesses.keptSelf (h : c.Accesses s memLoose P g t) : c.Kept t t {} :=
  ⟨rfl, fun _ => rfl, fun _ _ => rfl, fun _ => rfl, fun _ => rfl, fun _ _ => rfl, fun _ _ => rfl, h.kept.shell⟩

/-- What a unit has kept of memory. -/
theorem Ctx.Accesses.memKept {xs : List Xlat} {stored : Nat → Prop} (h : c.Accesses s l P g t)
    (hP : ∀ b, P b → stored b ∨ (∃ x ∈ xs, b ∈ x.ptes) ∨ s.written c.core b) {v : State} (hv : v.mem = t.mem) :
    c.MemKept s v xs stored := by
  intro b hstored hptes hwritten
  rw [hv]
  refine h.mem b fun hb => ?_
  rcases hP b hb with h | ⟨x, hx, hbx⟩ | h
  · exact hstored h
  · exact hptes x hx hbx
  · exact hwritten h

/-! ### Ordering hints -/

/-- The unacknowledged accesses that the release of an ordering hint leaves (R33, R267). -/
def Ctx.ordCount (c : Ctx) (l : Latched) (n : Nat) : Nat := if hintOrd c.hints < 2 then n else if l.level = 0 then n else 0

theorem Ctx.Accesses.ordRelease (h : c.Accesses s l P g t) (hl : hintOrd c.hints = 0 ∨ l.Caches) (p : BitVec 3) :
    c.Accesses s l P { g with unacked := c.ordCount (t.latch c.vf c.core p.toNat) g.unacked } (c.ordRelease t p) := by
  unfold Ctx.ordRelease Ctx.ordCount
  by_cases hord : hintOrd c.hints ≥ 2
  · rw [if_pos hord, if_neg (Nat.not_lt.2 hord)]
    have hcaches : l.Caches := hl.resolve_left (by omega)
    have hdrain := h.moves hcaches (State.Moves.drainAt h.within (t.latch c.vf c.core p.toNat).level (t.latch c.vf c.core p.toNat).dies)
    have hmod := hdrain.modG fun x => if (t.latch c.vf c.core p.toNat).level = 0 then x else { x with unacked := 0 }
    have hgang : { g with unacked := if (t.latch c.vf c.core p.toNat).level = 0 then g.unacked else 0 } =
        if (t.latch c.vf c.core p.toNat).level = 0 then g else { g with unacked := 0 } := by split <;> rfl
    rw [hgang]
    exact hmod
  · rw [if_neg hord, if_pos (Nat.not_le.1 hord)]
    exact h

theorem Ctx.Accesses.ordAcquire (h : c.Accesses s l P g t) (hl : hintOrd c.hints = 0 ∨ l.Caches) (lt : Latched) :
    c.Accesses s l P g (c.ordAcquire t lt) := by
  unfold Ctx.ordAcquire
  split
  · next hord => exact h.moves (hl.resolve_left (by omega)) (State.Moves.discardAt h.within ..)
  · exact h

/-! ### Atomics -/

/-- One lane of an atomic. -/
def Ctx.atomicLane (c : Ctx) (xs : List Xlat) (sz : Nat) (f : Nat → Nat → Option Nat) (t : State) (p : Nat × Nat) : State × Nat :=
  (t.beforeAtomic c.core c.vf ((findXlat xs p.2).pa p.2) sz).atomicAt c.vf ((findXlat xs p.2).pa p.2) sz (findXlat xs p.2).leaf (f p.1)

/-- One lane of an atomic, with its word before added to those of the lanes below. -/
def Ctx.atomicStep (c : Ctx) (xs : List Xlat) (sz : Nat) (f : Nat → Nat → Option Nat) (r : State × List (Nat × Nat)) (p : Nat × Nat) :
    State × List (Nat × Nat) := ((c.atomicLane xs sz f r.1 p).1, r.2 ++ [(p.1, (c.atomicLane xs sz f r.1 p).2)])

theorem atomicAll_eq (c : Ctx) (t : State) (xs : List Xlat) (sz : Nat) (as : List (Nat × Nat)) (f : Nat → Nat → Option Nat) :
    c.atomicAll t xs sz as f = as.foldl (c.atomicStep xs sz f) (t, []) := rfl

/-- The bytes at the home slice that the lanes of an atomic touch. -/
def atomicBytes (xs : List Xlat) (sz : Nat) (as : List (Nat × Nat)) (a : Nat) : Prop :=
  ∃ x ∈ as, (findXlat xs x.2).pa x.2 ≤ a ∧ a < (findXlat xs x.2).pa x.2 + sz

theorem atomicLane_moves {core : Nat} (c : Ctx) (hcore : c.core = core) (xs : List Xlat) (sz : Nat) (f : Nat → Nat → Option Nat)
    (p : Nat × Nat) (ht : t.WrittenIn core P) (hP : ∀ b, atomicBytes xs sz [p] b → P b) :
    t.Moves core P (c.atomicLane xs sz f t p).1 := by
  subst hcore
  have hbefore := State.Moves.beforeAtomic ht c.vf ((findXlat xs p.2).pa p.2) sz
  refine hbefore.trans (.atomicAt hbefore.within _ _ _ _ _ fun b hlo hhi => hP b ⟨p, List.mem_cons_self, hlo, hhi⟩)

/-- The lanes of an atomic move the caches, change the bytes at their addresses, and give a word for each lane in order. -/
theorem atomicAll_moves (c : Ctx) (xs : List Xlat) (sz : Nat) (as : List (Nat × Nat)) (f : Nat → Nat → Option Nat)
    (ht : t.WrittenIn c.core P) (hP : ∀ b, atomicBytes xs sz as b → P b) :
    t.Moves c.core P (c.atomicAll t xs sz as f).1 ∧ (c.atomicAll t xs sz as f).2.map Prod.fst = as.map Prod.fst := by
  rw [atomicAll_eq]
  have key (as : List (Nat × Nat)) (t : State) (olds : List (Nat × Nat)) (ht : t.WrittenIn c.core P)
      (hP : ∀ b, atomicBytes xs sz as b → P b) :
      let r := as.foldl (c.atomicStep xs sz f) (t, olds)
      t.Moves c.core P r.1 ∧ r.2.map Prod.fst = olds.map Prod.fst ++ as.map Prod.fst := by
    induction as generalizing t olds with
    | nil => exact ⟨.refl ht, by simp⟩
    | cons p as ih =>
      have hfirst := atomicLane_moves c rfl xs sz f p ht fun b ⟨x, hx, hb⟩ =>
        hP b ⟨x, List.mem_singleton.1 hx ▸ List.mem_cons_self, hb⟩
      obtain ⟨hrest, holds⟩ := ih (c.atomicLane xs sz f t p).1 (olds ++ [(p.1, (c.atomicLane xs sz f t p).2)]) hfirst.within
        fun b ⟨x, hx, hb⟩ => hP b ⟨x, List.mem_cons_of_mem _ hx, hb⟩
      exact ⟨hfirst.trans hrest, holds.trans (by simp)⟩
  exact key as t [] ht hP

/-! ### Units that perform an atomic -/

theorem stale_fbyte {p : BitVec 3} (h : c.stale u p = none) (fbyte : Word) : c.stale u p fbyte = none := by
  unfold Ctx.stale at h ⊢
  split at h
  · rfl
  · dsimp only at h ⊢
    split at h
    · next hg => exact if_pos hg
    · cases h

/-- The lanes of a format-A unit with their addresses. -/
def Ctx.lanePairs (c : Ctx) (b : BitVec 5) (v : BitVec 6) (sz : Nat) : List (Nat × Nat) :=
  (lanesOf c.active).map fun l => (l, c.laneAddress b (some v) sz l)

theorem Ctx.lanePairs_fst (c : Ctx) (b : BitVec 5) (v : BitVec 6) (sz : Nat) :
    (c.lanePairs b v sz).map Prod.fst = lanesOf c.active := by
  rw [Ctx.lanePairs, List.map_map]
  exact List.map_id _

/-- The bytes that an atomic may change: those it stores to, those of the table entries, and those written before. -/
def Ctx.atomicReach (c : Ctx) (s : State) (xs : List Xlat) (sz : Nat) (as : List (Nat × Nat)) (b : Nat) : Prop :=
  atomicBytes xs sz as b ∨ (∃ x ∈ xs, b ∈ x.ptes) ∨ s.written c.core b

/-- The state in which the lanes of an atomic have been performed, with the gang's flags raised before. -/
theorem Ctx.Accesses.atomicAll {xs : List Xlat} {sz : Nat} {as : List (Nat × Nat)} (h : c.Accesses s l (c.atomicReach s xs sz as) g t)
    (hl : l.Caches) (p : BitVec 3) (f : Nat → Nat → Option Nat) :
    c.Accesses s l (c.atomicReach s xs sz as) { g with unacked := c.ordCount (t.latch c.vf c.core p.toNat) g.unacked }
      (c.atomicAll (c.ordRelease t p) xs sz as f).1 := by
  have hrel := h.ordRelease (.inr hl) p
  exact hrel.moves hl (atomicAll_moves c xs sz as f hrel.within fun _ => .inl).1

theorem Ctx.Accesses.reachAtomic {xs : List Xlat} {sz sz' : Nat} {as : List (Nat × Nat)} {ps : List Nat} {w : State}
    (hc : s.ctx? = some c) (hl : l.Translations) (hx : c.reachAtomic (c.counted s) sz' ps = .ok (w, xs)) :
    c.Accesses s l (c.atomicReach s xs sz as) c.gang.count w :=
  (Ctx.Accesses.counted hc l fun _ h => .inr (.inr h)).translates hl (reachAtomic_ok hx) fun x hx _ hb => .inr (.inl ⟨x, hx, hb⟩)

/-- What `Obligations.GlobalAtomics` says of the memory and the rest of the state after an atomic. -/
def Ctx.AtomicDone (c : Ctx) (s w : State) (xs : List Xlat) (p : BitVec 3) (sz acks : Nat) (as : List (Nat × Nat))
    (fn : Nat → Nat → Option Nat) (n : Nat) (t : State) : Prop :=
  c.Kept (c.ordAcquire (c.atomicAll (c.ordRelease w p) xs sz as fn).1 (w.latch c.vf c.core p.toNat)) t {} ∧
    n = (if hintOrd c.hints < 2 then c.gang.unacked else if (w.latch c.vf c.core p.toNat).level = 0 then c.gang.unacked else 0) + acks ∧
    c.MemKept s t xs (atomicBytes xs sz as)

theorem count_unacked (g : Gang) : g.count.unacked = g.unacked := by
  obtain ⟨n, hn⟩ := Gang.count_regs g
  rw [hn]

theorem globalAtomic_completes {i : Instr} {d : BitVec 6} {b : BitVec 5} {v : BitVec 6} {sz : Nat} {p : BitVec 3}
    {f : Ctx → Nat → Nat → Option Nat} {ret : Option (Nat → Word)} {w : State} {xs : List Xlat}
    (he : exec i s = globalAtomic i d b v sz p f ret s) (hr : Runs i s c) (hstale : c.stale (c.counted s) p = none)
    (hst : c.team.staged = false) (hrel : c.gang.releases = [])
    (hx : c.reachAtomic (c.counted s) sz ((c.lanePairs b v sz).map Prod.snd) = .ok (w, xs)) :
    let run := c.atomicAll (c.ordRelease w p) xs sz (c.lanePairs b v sz) (f c)
    ∃ n, CompletesAt i s c c.after
      { v := fun r l => match ret with
          | some g => if r = d.toNat then (run.2.find? fun x => x.1 == l).map fun x => g x.2 else none
          | none => none
        more := fun g => { g with unacked := n } } memLoose fun t _ => c.AtomicDone s w xs p sz 0 (c.lanePairs b v sz) (f c) n t := by
  intro run
  have hx' : c.reachAtomic (c.counted s) sz (((lanesOf c.active).map fun l => (l, c.ad b (some v) sz l)).map Prod.snd) = .ok (w, xs) := hx
  have hw := Ctx.Accesses.reachAtomic (sz := sz) (as := c.lanePairs b v sz) hr.ctx memLoose_translations hx
  have hu := (hw.atomicAll memLoose_caches p (f c)).ordAcquire (.inr memLoose_caches) (w.latch c.vf c.core p.toNat)
  have holds := (atomicAll_moves (P := c.atomicReach s xs sz (c.lanePairs b v sz)) c xs sz (c.lanePairs b v sz) (f c)
    (hw.ordRelease (.inr memLoose_caches) p).within fun _ => .inl).2
  rw [Ctx.lanePairs_fst] at holds
  rw [count_unacked] at hu
  refine ⟨c.ordCount (w.latch c.vf c.core p.toNat) c.gang.unacked, ?_⟩
  have hdone (t : State) (h : Gang) (ht : c.SameBut (c.ordAcquire run.1 (w.latch c.vf c.core p.toNat)) t) :
      c.AtomicDone s w xs p sz 0 (c.lanePairs b v sz) (f c) (c.ordCount (w.latch c.vf c.core p.toNat) c.gang.unacked) t :=
    ⟨ht.kept _ _ hu.keptSelf, rfl, hu.memKept (fun _ h => h) ht.mem⟩
  have hcount := (done_count c.w c.gang).setUnacked rfl (c.ordCount (w.latch c.vf c.core p.toNat) c.gang.unacked)
  cases ret with
  | none =>
    refine completes_next hr he ?_ hu.gang (Gang.entries_count _) hu.kept hcount hdone
    simp only [stale_fbyte hstale, hst, Ctx.ordered, hrel, hx', Bool.false_eq_true, if_false, List.isEmpty_nil, if_true]
    rfl
  | some ret =>
    have hpairs := hcount.setPairs rfl d (run.2.map fun q => (q.1, ret q.2))
      (by rw [List.map_map]; exact holds ▸ lanesOf_nodup _)
      (by
        intro q hq
        obtain ⟨q, hold, rfl⟩ := List.mem_map.1 hq
        exact lanesOf_lt c.active _ (holds ▸ List.mem_map_of_mem hold))
    have hfind (l : Nat) : ((run.2.map fun q => (q.1, ret q.2)).find? fun q => q.1 == l).map Prod.snd =
        (run.2.find? fun x => x.1 == l).map fun x => ret x.2 := by
      rw [List.find?_map, Option.map_map]
      rfl
    simp only [hfind] at hpairs
    refine completes_vec hr he ?_ hu.gang (Gang.entries_count _) hu.kept hpairs hdone
    simp only [stale_fbyte hstale, hst, Ctx.ordered, hrel, hx', Bool.false_eq_true, if_false, List.isEmpty_nil, if_true]
    rfl

/-! ### Reductions -/

theorem atomicAll_withTeams (c : Ctx) (t : State) (T : SMap Team) (xs : List Xlat) (sz : Nat) (as : List (Nat × Nat))
    (f : Nat → Nat → Option Nat) : (c.atomicAll (t.withTeams T) xs sz as f).1 = (c.atomicAll t xs sz as f).1.withTeams T := by
  have hlane (t : State) (p : Nat × Nat) : c.atomicLane xs sz f (t.withTeams T) p =
      ((c.atomicLane xs sz f t p).1.withTeams T, (c.atomicLane xs sz f t p).2) := by
    unfold Ctx.atomicLane
    rw [State.beforeAtomic_withTeams, State.atomicAt_withTeams]
  have key (as : List (Nat × Nat)) (t : State) (olds : List (Nat × Nat)) :
      (as.foldl (c.atomicStep xs sz f) (t.withTeams T, olds)).1 = (as.foldl (c.atomicStep xs sz f) (t, olds)).1.withTeams T := by
    induction as generalizing t olds with
    | nil => rfl
    | cons p as ih =>
      have hstep : c.atomicStep xs sz f (t.withTeams T, olds) p =
          ((c.atomicLane xs sz f t p).1.withTeams T, olds ++ [(p.1, (c.atomicLane xs sz f t p).2)]) := by
        unfold Ctx.atomicStep
        rw [hlane]
      rw [List.foldl_cons, hstep]
      exact ih ..
  exact key as t []

theorem ordRelease_withTeams (c : Ctx) (t : State) (T : SMap Team) (p : BitVec 3) :
    c.ordRelease (t.withTeams T) p = (c.ordRelease t p).withTeams (c.ordRelease (t.withTeams T) p).teams := by
  unfold Ctx.ordRelease
  split
  · unfold State.gangRelease State.releaseNow
    rw [State.drainAt_withTeams]
    rfl
  · rfl

/-- A unit comes to states that differ in its own gang. -/
theorem Ctx.Accesses.keptTeams {T : SMap Team} {g' : Gang} (h : c.Accesses s memLoose P g t)
    (k : c.Accesses s memLoose P g' (t.withTeams T)) : c.Kept t (t.withTeams T) {} :=
  ⟨rfl, fun _ => rfl, fun _ _ => rfl, fun _ => rfl, fun _ => rfl, fun m hm => (k.kept.teams m hm).trans (h.kept.teams m hm).symm,
    fun n hn => (k.kept.gangs n hn).trans (h.kept.gangs n hn).symm, k.kept.shell⟩

/-- A unit that passes its checks has valid fields and hints (R37). -/
theorem Runs.valid {i : Instr} (hr : Runs i s c) (hill : isIll i = false) : validUnit i c.hints = true := by
  by_contra h
  have := (gate_undef hill (Bool.not_eq_true _ ▸ h)).symm.trans hr.gate
  cases this

/-- The ordering hint of a unit that accepts a release alone (R33) asks for no acquire. -/
theorem ordAcquire_reduction {i : Instr} (hr : Runs i s c) (hill : isIll i = false) (hord : (use i).ord = 1) (lt : Latched) :
    c.ordAcquire t lt = t := by
  have hv := hr.valid hill
  simp only [validUnit, Use.hintsOk, Bool.and_eq_true] at hv
  obtain ⟨⟨-, ⟨-, hacc⟩, -⟩, -⟩ := hv
  have heven : hintOrd c.hints % 2 = 0 := by
    unfold hintOrd
    cases hf : c.hints.findSome? fun h => match h with | .ord o => some o.toNat | _ => none with
    | none => rfl
    | some n =>
      obtain ⟨x, hx, hn⟩ := List.exists_of_findSome?_eq_some hf
      have ha := List.all_eq_true.1 hacc x hx
      cases x with
      | ord o =>
        cases hn
        simp only [Use.accepts, hord, Nat.reduceBEq, Bool.true_and, Bool.false_or, beq_iff_eq] at ha
        rw [ha]
        rfl
      | _ => cases hn
  rw [Ctx.ordAcquire, heven]
  rfl

/-- A reduction, whose lanes count as unacknowledged accesses (R267). -/
theorem reduction_completes {i : Instr} {body : Ctx → State → Res} {b : BitVec 5} {v : BitVec 6} {sz fl acks : Nat} {p : BitVec 3}
    {fn : Nat → Nat → Option Nat} {w w1 : State} {xs : List Xlat} {g1 : Gang} (he : exec i s = perform i body s) (hr : Runs i s c)
    (hill : isIll i = false) (hord : (use i).ord = 1)
    (hx : c.reachAtomic (c.counted s) sz ((c.lanePairs b v sz).map Prod.snd) = .ok (w, xs))
    (hw1 : c.Accesses s memLoose (c.atomicReach s xs sz (c.lanePairs b v sz)) g1 w1) (hT : w1 = w.withTeams w1.teams)
    (hd : Writes.Done { flags := fl } c.w c.gang g1) (hg1 : g1.unacked = c.gang.unacked) (hent : g1.entries = c.gang.entries)
    (hb : body c (c.counted s) = .next (c.unacked (c.atomicAll (c.ordRelease w1 p) xs sz (c.lanePairs b v sz) fn).1 acks)) :
    ∃ n, CompletesAt i s c c.after { flags := fl, more := fun g => { g with unacked := n } } memLoose fun t _ =>
      c.AtomicDone s w xs p sz acks (c.lanePairs b v sz) fn n t := by
  have hw := (Ctx.Accesses.reachAtomic (sz := sz) (as := c.lanePairs b v sz) hr.ctx memLoose_translations hx).atomicAll memLoose_caches p fn
  have hu := hw1.atomicAll memLoose_caches p fn
  have hsame : (c.atomicAll (c.ordRelease w1 p) xs sz (c.lanePairs b v sz) fn).1 =
      (c.atomicAll (c.ordRelease w p) xs sz (c.lanePairs b v sz) fn).1.withTeams (c.ordRelease w1 p).teams := by
    rw [hT, ordRelease_withTeams, atomicAll_withTeams]
    rfl
  have hlatch : w1.latch c.vf c.core p.toNat = w.latch c.vf c.core p.toNat := by rw [hT]; rfl
  rw [hlatch, hg1] at hu
  have hfin := hu.modG fun g => { g with unacked := g.unacked + acks }
  refine ⟨c.ordCount (w.latch c.vf c.core p.toNat) c.gang.unacked + acks, ?_⟩
  refine completes_next hr he hb hfin.gang hent hfin.kept (hd.setUnacked rfl _) fun t h ht => ⟨?_, rfl, ?_⟩
  · rw [ordAcquire_reduction hr hill hord]
    refine ht.kept _ _ (Ctx.Kept.modGang ?_ _)
    rw [hsame] at hu ⊢
    exact hw.keptTeams hu
  · exact hfin.memKept (fun _ h => h) ht.mem

end

end Sys2Proof.Machine
end

section
/-! PROOFS. The f32 reduction (R5, R156, R245): its operations as the statement of the atomics writes them. -/

namespace Sys2Proof.Machine

/-- A bit set. -/
theorem or_two_pow (x n : Nat) : x ||| 2 ^ n = if x.testBit n then x else x + 2 ^ n := by
  have hlow : x % 2 ^ n < 2 ^ n := Nat.mod_lt _ (Nat.two_pow_pos n)
  have hsum : 2 ^ n + x % 2 ^ n = 2 ^ n ||| x % 2 ^ n := by
    have := Nat.two_pow_add_eq_or_of_lt hlow 1
    rwa [Nat.mul_one] at this
  have hpow : 2 ^ (n + 1) = 2 ^ n + 2 ^ n := by rw [Nat.pow_succ]; omega
  have hhigh (b : Nat) (hb : b < 2 ^ (n + 1)) := Nat.two_pow_add_eq_or_of_lt hb (x / 2 ^ (n + 1))
  have hdecomp := Nat.div_add_mod x (2 ^ (n + 1))
  have hmod : x % 2 ^ (n + 1) = x % 2 ^ n + 2 ^ n * (x / 2 ^ n % 2) := Nat.mod_pow_succ
  rw [Nat.testBit_eq_decide_div_mod_eq]
  by_cases hbit : x / 2 ^ n % 2 = 1
  · rw [decide_eq_true hbit, if_pos rfl]
    rw [hbit, Nat.mul_one, Nat.add_comm (x % 2 ^ n)] at hmod
    rw [hmod, hhigh _ (by omega), hsum] at hdecomp
    rw [← hdecomp, Nat.or_assoc, Nat.or_comm (2 ^ n ||| x % 2 ^ n), ← Nat.or_assoc (2 ^ n), Nat.or_self]
  · rw [decide_eq_false hbit, if_neg Bool.false_ne_true]
    rw [show x / 2 ^ n % 2 = 0 by omega, Nat.mul_zero, Nat.add_zero (x % 2 ^ n)] at hmod
    rw [hmod] at hdecomp
    have hx := hhigh (x % 2 ^ n) (by omega)
    have hset := hhigh (2 ^ n + x % 2 ^ n) (by omega)
    calc x ||| 2 ^ n = (2 ^ (n + 1) * (x / 2 ^ (n + 1)) ||| x % 2 ^ n) ||| 2 ^ n := by rw [← hx, hdecomp]
      _ = 2 ^ (n + 1) * (x / 2 ^ (n + 1)) ||| (2 ^ n + x % 2 ^ n) := by rw [hsum, Nat.or_assoc, Nat.or_comm (2 ^ n)]
      _ = x + 2 ^ n := by rw [← hset]; omega

theorem quiet_f32 (x : Nat) : quiet f32 x = x ||| 0x400000 := (or_two_pow x 22).symm

theorem fneg_f32 (x : Nat) : fneg f32 x = decide (x / 2 ^ 31 % 2 = 1) := Nat.testBit_eq_decide_div_mod_eq

/-- A zero of the sign of an encoding. -/
theorem withSign_fneg_zero (x : Nat) : withSign f32 (fneg f32 x) 0 = x / 2 ^ 31 % 2 * 2 ^ 31 := by
  rw [fneg_f32, withSign]
  change (if _ then 2 ^ 31 + 0 else 0) = _
  split
  · next h => rw [of_decide_eq_true h, Nat.one_mul, Nat.add_zero]
  · next h =>
    have : x / 2 ^ 31 % 2 = 0 := by
      have := of_decide_eq_false (Bool.not_eq_true _ ▸ h)
      omega
    rw [this, Nat.zero_mul]

theorem fneg_ne_iff (x y : Nat) : (fneg f32 x != fneg f32 y) = true ↔ x / 2 ^ 31 % 2 ≠ y / 2 ^ 31 % 2 := by
  rw [bne_iff_ne, fneg_f32, fneg_f32, ne_eq, decide_eq_decide]
  omega

/-! ### Overflow of a sum -/

/-- An overflow of a rounded operation is an infinity that no finite magnitude gives, and the largest finite magnitude stands one
below it (R156, R245). -/
def OverflowsAs (r : FRes) : Prop :=
  (r.2.testBit 2 = true → isInf f32 r.1 = true ∧ withSign f32 (fneg f32 r.1) 0x7F7FFFFF = r.1 - 0x7F800000 + 0x7F7FFFFF) ∧
    (r.2.testBit 2 = false → isInf f32 r.1 = false)

theorem isInf_f32 (x : Nat) : isInf f32 x = decide (x % 2 ^ 31 = 0x7F800000) := by
  change (true && (x % 2 ^ 31 == 0x7F800000)) = _
  rw [Bool.true_and]
  rfl

theorem finishMag_overflows (neg : Bool) (mag : Nat) (ix tiny : Bool) : OverflowsAs (finishMag f32 .plain neg mag ix tiny) := by
  have hmax : f32.maxFin = 0x7F7FFFFF := rfl
  unfold finishMag
  rw [hmax]
  split
  · next h =>
    have hflag : (fOF + fNX).testBit 2 = true := by decide
    refine ⟨fun _ => ?_, fun h => (Bool.false_ne_true (h.symm.trans hflag)).elim⟩
    cases neg
    · exact ⟨by decide, by decide⟩
    · exact ⟨by decide, by decide⟩
  · next h =>
    have hflush : (FMode.plain.fz && decide (mag < 2 ^ f32.f)) = false := rfl
    rw [hflush, if_neg Bool.false_ne_true]
    have hflag : ((if ix then fNX else 0) + (if ix && tiny then fUF else 0)).testBit 2 = false := by
      revert ix tiny
      decide
    refine ⟨fun h => (Bool.false_ne_true (hflag.symm.trans h)).elim, fun _ => ?_⟩
    rw [isInf_f32, withSign, decide_eq_false_iff_not]
    change (if neg = true then 2 ^ 31 + mag else mag) % 2 ^ 31 ≠ 0x7F800000
    split <;> omega

theorem addFin_overflows (s1 : Bool) (n1 d1 : Nat) (s2 : Bool) (n2 d2 : Nat) :
    OverflowsAs (addFin f32 .plain s1 n1 d1 s2 n2 d2) := by
  unfold addFin
  split
  · have hflag : Nat.testBit 0 2 = false := by decide
    refine ⟨fun h => (Bool.false_ne_true (hflag.symm.trans h)).elim, fun _ => ?_⟩
    generalize (if s1 = s2 then s1 else _) = neg
    cases neg <;> decide
  · exact finishMag_overflows ..

/-- The value of an encoding that is no NaN is infinite or finite as the encoding is. -/
theorem fval_f32 {x : Nat} (h : isNan f32 x = false) :
    (isInf f32 x = true ∧ ∃ s, fval f32 x = .inf s) ∨ (isInf f32 x = false ∧ ∃ s n d, fval f32 x = .fin s n d) := by
  unfold fval
  rw [h, if_neg Bool.false_ne_true]
  cases hinf : isInf f32 x with
  | true => exact .inl ⟨rfl, _, if_pos rfl⟩
  | false =>
    refine .inr ⟨rfl, ?_⟩
    rw [if_neg Bool.false_ne_true]
    dsimp only
    split
    · exact ⟨_, _, _, rfl⟩
    · split
      · exact ⟨_, _, _, rfl⟩
      · exact ⟨_, _, _, rfl⟩

/-- A sum of which no operand is a NaN sets OF where it is infinite and its operands are not (R156). -/
theorem fadd_overflow {x y : Nat} (hx : isNan f32 x = false) (hy : isNan f32 y = false) :
    ((fadd f32 .plain x y).2.testBit 2 = true ↔
      isInf f32 (fadd f32 .plain x y).1 = true ∧ ¬ isInf f32 x = true ∧ ¬ isInf f32 y = true) ∧
    ((fadd f32 .plain x y).2.testBit 2 = true →
      withSign f32 (fneg f32 (fadd f32 .plain x y).1) 0x7F7FFFFF = (fadd f32 .plain x y).1 - 0x7F800000 + 0x7F7FFFFF) := by
  have hflush (z : Nat) : flushIn f32 .plain z = z := rfl
  have hadd : fadd f32 .plain x y = match fval f32 x, fval f32 y with
      | .inf a, .inf b => if a = b then (withSign f32 a (infEnc f32), 0) else (canonNan f32, fNV)
      | .inf a, _ => (withSign f32 a (infEnc f32), 0)
      | _, .inf b => (withSign f32 b (infEnc f32), 0)
      | .fin a n d, .fin b n' d' => addFin f32 .plain a n d b n' d'
      | _, _ => (canonNan f32, 0) := by
    unfold fadd
    rw [hx, hy, hflush, hflush]
    rfl
  have hflag {r : FRes} (h0 : r.2.testBit 2 = false) (h1 : isInf f32 x = true ∨ isInf f32 y = true) :
      (r.2.testBit 2 = true ↔ isInf f32 r.1 = true ∧ ¬ isInf f32 x = true ∧ ¬ isInf f32 y = true) ∧
        (r.2.testBit 2 = true → withSign f32 (fneg f32 r.1) 0x7F7FFFFF = r.1 - 0x7F800000 + 0x7F7FFFFF) := by
    rw [h0]
    refine ⟨⟨fun h => (Bool.false_ne_true h).elim, fun h => (h1.elim h.2.1 h.2.2).elim⟩, fun h => (Bool.false_ne_true h).elim⟩
  have h0 : Nat.testBit 0 2 = false := by decide
  have hnv : fNV.testBit 2 = false := by decide
  rcases fval_f32 hx with ⟨hix, a, hva⟩ | ⟨hix, a, n, d, hva⟩
  · rcases fval_f32 hy with ⟨-, b, hvb⟩ | ⟨-, b, n', d', hvb⟩
    · rw [hadd, hva, hvb]
      dsimp only
      split
      · exact hflag h0 (.inl hix)
      · exact hflag hnv (.inl hix)
    · rw [hadd, hva, hvb]
      exact hflag h0 (.inl hix)
  · rcases fval_f32 hy with ⟨hiy, b, hvb⟩ | ⟨hiy, b, n', d', hvb⟩
    · rw [hadd, hva, hvb]
      exact hflag h0 (.inr hiy)
    · rw [hadd, hva, hvb]
      obtain ⟨hover, hfinite⟩ := addFin_overflows a n d b n' d'
      refine ⟨⟨fun h => ⟨(hover h).1, by rw [hix]; decide, by rw [hiy]; decide⟩, fun h => ?_⟩, fun h => (hover h).2⟩
      by_contra hne
      exact Bool.false_ne_true ((hfinite (Bool.not_eq_true _ ▸ hne)).symm.trans h.1)

/-! ### The operations -/

section
variable (f q m : BitVec 1) (o : BitVec 2)

/-- A subnormal operand or result flushed under F (R245). -/
def reduceFlush (y : Nat) : Nat := if f = 1 ∧ isSub f32 y then y / 2 ^ 31 % 2 * 2 ^ 31 else y

/-- The sum of a reduction (R245). -/
def reduceSum (x y : Nat) : Nat :=
  if isNan f32 x then x ||| 0x400000 else if isNan f32 y then y ||| 0x400000
  else if isInf f32 x ∧ isInf f32 y ∧ x / 2 ^ 31 % 2 ≠ y / 2 ^ 31 % 2 then 0x7FC00000
  else if m = 1 ∧ isInf f32 (fadd f32 .plain x y).1 ∧ ¬ isInf f32 x ∧ ¬ isInf f32 y
    then (fadd f32 .plain x y).1 - 0x7F800000 + 0x7F7FFFFF else (fadd f32 .plain x y).1

/-- The result of a reduction on two flushed operands (R245). -/
def reduceOp (x y : Nat) : Nat :=
  if o = 0 then reduceSum m x y else if o = 1 then totalMin 32 x y else if o = 2 then totalMax 32 x y
  else if isNan f32 x = isNan f32 y then totalMax 32 x y else if isNan f32 x then y else x

/-- The f32 reduction of an operand into a word (R245). -/
def reduceF32 (x0 y0 : Nat) : Nat :=
  let r := reduceOp m o (reduceFlush f x0) (reduceFlush f y0)
  reduceFlush f (if q = 1 ∧ isNan f32 r then 0x7FC00000 else r)

theorem reduceSum_eq (x y : Nat) :
    (if isNan f32 x then quiet f32 x
      else if isNan f32 y then quiet f32 y
      else if isInf f32 x && isInf f32 y && fneg f32 x != fneg f32 y then 0x7FC00000
      else if (fadd f32 .plain x y).2.testBit 2 && (m == 1) then withSign f32 (fneg f32 (fadd f32 .plain x y).1) 0x7F7FFFFF
      else (fadd f32 .plain x y).1) = reduceSum m x y := by
  rw [reduceSum, quiet_f32, quiet_f32]
  by_cases hx : isNan f32 x = true
  · rw [if_pos hx, if_pos hx]
  · by_cases hy : isNan f32 y = true
    · rw [if_neg hx, if_neg hx, if_pos hy, if_pos hy]
    · obtain ⟨hof, hval⟩ := fadd_overflow (Bool.not_eq_true _ ▸ hx) (Bool.not_eq_true _ ▸ hy)
      rw [if_neg hx, if_neg hx, if_neg hy, if_neg hy]
      refine if_congr ?_ rfl ?_
      · rw [Bool.and_eq_true, Bool.and_eq_true, fneg_ne_iff, and_assoc]
      · refine (if_congr (Q := m = 1 ∧ (fadd f32 .plain x y).2.testBit 2 = true) ?_ rfl rfl).trans ?_
        · rw [Bool.and_eq_true, beq_iff_eq, and_comm]
        · by_cases h : m = 1 ∧ (fadd f32 .plain x y).2.testBit 2 = true
          · rw [if_pos h, if_pos ⟨h.1, hof.1 h.2⟩]
            exact hval h.2
          · rw [if_neg h, if_neg fun h' => h ⟨h'.1, hof.2 h'.2⟩]

theorem reduceFlush_eq (x : Nat) : (if (f == 1) && isSub f32 x then withSign f32 (fneg f32 x) 0 else x) = reduceFlush f x := by
  rw [withSign_fneg_zero]
  exact if_congr (by rw [Bool.and_eq_true, beq_iff_eq]) rfl rfl

/-- A reduction that sets aside one NaN (R159). -/
theorem numOf_totalMax (x y : Nat) : numOf f32 totalMax x y =
    if isNan f32 x = isNan f32 y then totalMax 32 x y else if isNan f32 x then y else x := by
  have hbits : f32.bits = 32 := rfl
  unfold numOf
  rw [hbits]
  cases isNan f32 x
  · cases isNan f32 y <;> rfl
  · cases isNan f32 y <;> rfl

/-- The model's reduction is the statement's (R245). -/
theorem gredFn_eq (x0 y0 : Nat) : gredFn (f == 1) (q == 1) (m == 1) o.toNat x0 y0 = reduceF32 f q m o x0 y0 := by
  unfold gredFn
  simp only [reduceFlush_eq, reduceSum_eq, numOf_totalMax]
  have hop : (match o.toNat with
      | 0 => reduceSum m (reduceFlush f x0) (reduceFlush f y0)
      | 1 => totalMin 32 (reduceFlush f x0) (reduceFlush f y0)
      | 2 => totalMax 32 (reduceFlush f x0) (reduceFlush f y0)
      | _ => if isNan f32 (reduceFlush f x0) = isNan f32 (reduceFlush f y0) then totalMax 32 (reduceFlush f x0) (reduceFlush f y0)
        else if isNan f32 (reduceFlush f x0) then reduceFlush f y0 else reduceFlush f x0) =
      reduceOp m o (reduceFlush f x0) (reduceFlush f y0) := by
    have ho : o = 0 ∨ o = 1 ∨ o = 2 ∨ o = 3 := by
      revert o
      decide
    rcases ho with rfl | rfl | rfl | rfl
    all_goals rfl
  refine (congrArg (fun r => reduceFlush f (if ((q == 1) && isNan f32 r) = true then 0x7FC00000 else r)) hop).trans ?_
  rw [reduceF32]
  refine congrArg (reduceFlush f) (if_congr ?_ rfl rfl)
  rw [Bool.and_eq_true, beq_iff_eq]

end

end Sys2Proof.Machine
end

section
/-! PROOFS. Global atomics and reductions (R33, R235, R240 to R247, R267). -/

namespace Sys2Proof.Machine

/-! ### What an atomic stores -/

/-- What `gatom` and `catom` store by their code (R243). -/
def atomicCode (o : BitVec 3) (bits old x : Nat) : Nat :=
  match o.toNat with
  | 0 => (old + x) % 2 ^ bits
  | 1 => if sext old bits ≤ sext x bits then old else x
  | 2 => if sext old bits ≤ sext x bits then x else old
  | 3 => min old x
  | 4 => max old x
  | 5 => old &&& x
  | 6 => old ||| x
  | _ => old ^^^ x

theorem atomicFn_code (o : BitVec 3) (sz old v : Nat) :
    atomicFn o.toNat sz old v 0 = some (atomicCode o (8 * sz) old (v % 2 ^ (8 * sz))) := by
  have ho : o = 0 ∨ o = 1 ∨ o = 2 ∨ o = 3 ∨ o = 4 ∨ o = 5 ∨ o = 6 ∨ o = 7 := by
    revert o
    decide
  rcases ho with rfl | rfl | rfl | rfl | rfl | rfl | rfl | rfl
  all_goals rfl

section
variable {c : Ctx} {s t u : State} {l : Loose}

/-! ### Residue reductions -/

/-- The operand words of a lane of `gred.rn`, with their addresses (R247). -/
def Ctx.rnWords (c : Ctx) (d : BitVec 6) (b : BitVec 5) (v : BitVec 6) (z : BitVec 1) (sz l : Nat) : List (Nat × Nat) :=
  (if z = 1 then [0, 1] else [0]).map fun j => (c.laneAddress b (some v) sz l + 4 * j, elem (c.v d l) j 32)

theorem rnLanes_eq (c : Ctx) (d : BitVec 6) (b : BitVec 5) (v : BitVec 6) (z : BitVec 1) (sz : Nat) :
    rnLanes c d z (c.lanePairs b v sz) = (lanesOf c.active).flatMap (c.rnWords d b v z sz) := by
  rw [rnLanes, Ctx.lanePairs, List.flatMap_map]
  congr 1
  funext l
  unfold Ctx.rnWords
  split <;> rfl

/-- The flag of a malformed operand (R247). -/
def rnFlag (ws : List (Nat × Nat)) : Nat := if ws.any fun w => !(rnOk w.2) then fRNRANGE else 0

/-- Staged reductions are kept word by word, each with its term (R247, R362). -/
theorem foldl_reduce (ws : List (Nat × Nat)) (g : Staging) : ws.foldl (fun (g : Staging) w => g.reduce w.1 w.2) g =
    { g with
      writes := g.writes ++ ws.map fun w => .red w.1 (canon w.2)
      digest := ws.foldl (fun g w => g + digestTerm w.1 15 (canon w.2)) g.digest } := by
  induction ws generalizing g with
  | nil => simp
  | cons w ws ih =>
    rw [List.foldl_cons, ih]
    simp [Staging.reduce]

theorem countP_red (ws : List (Nat × Nat)) :
    (ws.map fun w => StagedWrite.red w.1 (canon w.2)).countP StagedWrite.isRed = ws.length := by
  rw [List.countP_map]
  exact List.countP_eq_length.2 fun _ _ => rfl

/-- What a reduction that a team stages may change. -/
def stagedLoose : Loose := { memLoose with team := fun x => { x with staging := ⟨[], [], [], [], 0⟩ } }

theorem stagedLoose_translations : stagedLoose.Translations :=
  ⟨⟨fun _ _ _ => rfl, fun _ => rfl, fun _ => rfl⟩, fun _ _ => rfl, fun _ _ => rfl⟩

theorem exec_gredRn (d : BitVec 6) (b : BitVec 5) (v : BitVec 6) (z : BitVec 1) (p : BitVec 3) (s : State) :
    exec (.gredRn d b v z p) s = execGredRn d b v z p s := rfl

theorem exec_gredF (f q m : BitVec 1) (d : BitVec 6) (b : BitVec 5) (v : BitVec 6) (o : BitVec 2) (p : BitVec 3) (s : State) :
    exec (.gredF f q m d b v o p) s = execGredF f q m d b v o p s := rfl

theorem exec_gatom (o : BitVec 3) (d : BitVec 6) (b : BitVec 5) (v : BitVec 6) (nr z : BitVec 1) (p : BitVec 3) (s : State) :
    exec (.gatom o d b v nr z p) s = execGatom o d b v nr z p s := rfl

theorem exec_gexch (d : BitVec 6) (b : BitVec 5) (v : BitVec 6) (z : BitVec 1) (p : BitVec 3) (s : State) :
    exec (.gexch d b v z p) s = execGexch d b v z p s := rfl

theorem exec_gcas (d : BitVec 6) (b : BitVec 5) (v : BitVec 6) (z : BitVec 1) (p : BitVec 3) (s : State) :
    exec (.gcas d b v z p) s = execGcas d b v z p s := rfl

theorem use_gredRn (d : BitVec 6) (b : BitVec 5) (v : BitVec 6) (z : BitVec 1) (p : BitVec 3) : (use (.gredRn d b v z p)).ord = 1 := rfl

theorem raise_count_unacked (g : Gang) (fl : Nat) : (g.count.raise fl).unacked = g.unacked := count_unacked g

/-- R247: residue reductions of a team that is not staged. -/
theorem gredRn_completes {d : BitVec 6} {b : BitVec 5} {v : BitVec 6} {z : BitVec 1} {p : BitVec 3} {w : State} {xs : List Xlat}
    (hr : Runs (.gredRn d b v z p) s c) (hstale : c.stale (c.counted s) p = none) (hst : c.team.staged = false)
    (hrel : c.gang.releases = [])
    (hx : c.reachAtomic (c.counted s) (size48 z) ((c.lanePairs b v (size48 z)).map Prod.snd) = .ok (w, xs)) :
    let fn := fun l old => some (rnadd (old % 2 ^ 32) (elem (c.v d l) 0 32) +
      (if z = 1 then 2 ^ 32 * rnadd (old / 2 ^ 32) (elem (c.v d l) 1 32) else 0))
    ∃ n, CompletesAt (.gredRn d b v z p) s c c.after
      { flags := rnFlag ((lanesOf c.active).flatMap (c.rnWords d b v z (size48 z))), more := fun g => { g with unacked := n } } memLoose
      fun t _ => c.AtomicDone s w xs p (size48 z) (lanesOf c.active).length (c.lanePairs b v (size48 z)) fn n t := by
  intro fn
  let fl := rnFlag ((lanesOf c.active).flatMap (c.rnWords d b v z (size48 z)))
  have hw := Ctx.Accesses.reachAtomic (sz := size48 z) (as := c.lanePairs b v (size48 z)) hr.ctx memLoose_translations hx
  have hx' : c.reachAtomic (c.counted s) (size48 z)
      (((lanesOf c.active).map fun l => (l, c.ad b (some v) (size48 z) l)).map Prod.snd) = .ok (w, xs) := hx
  have hlen : (c.lanePairs b v (size48 z)).length = (lanesOf c.active).length := by rw [Ctx.lanePairs, List.length_map]
  refine reduction_completes (w1 := c.setFlags w fl) (g1 := c.gang.count.raise fl) (exec_gredRn ..) hr rfl (use_gredRn ..) hx
    (hw.modG fun g => g.raise fl) rfl ((done_count c.w c.gang).setFlags rfl rfl fl) (raise_count_unacked ..) (Gang.entries_count _) ?_
  have hws : rnLanes c d z ((lanesOf c.active).map fun l => (l, c.ad b (some v) (size48 z) l)) =
      (lanesOf c.active).flatMap (c.rnWords d b v z (size48 z)) := rnLanes_eq ..
  simp only [stale_fbyte hstale, hst, Ctx.ordered, hrel, hx', hws, Bool.false_eq_true, if_false, List.isEmpty_nil, if_true]
  rw [← hlen]
  rfl

/-- R247, R362: residue reductions that a team stages. -/
theorem gredRn_staged {d : BitVec 6} {b : BitVec 5} {v : BitVec 6} {z : BitVec 1} {p : BitVec 3} {w : State} {xs : List Xlat}
    (hr : Runs (.gredRn d b v z p) s c) (hstale : c.stale (c.counted s) p = none) (hst : c.team.staged = true)
    (hrel : c.gang.releases = [])
    (hx : c.reachAtomic (c.counted s) (size48 z) ((lanesOf c.active).map fun l => c.laneAddress b (some v) (size48 z) l) = .ok (w, xs)) :
    let ws := (lanesOf c.active).flatMap (c.rnWords d b v z (size48 z))
    c.team.staging.addrs.length + 4 * (c.team.staging.writes.countP StagedWrite.isRed + ws.length) ≤ 4194304 →
      ∃ n, CompletesAt (.gredRn d b v z p) s c c.after { flags := rnFlag ws, more := fun g => { g with unacked := n } } stagedLoose
        fun t _ => (hintOrd c.hints < 2 → n = c.gang.unacked) ∧ c.MemKept s t xs (fun _ => False) ∧
          (t.team? c.ref.team).map Team.staging = some { c.team.staging with
            writes := c.team.staging.writes ++ ws.map fun w => .red w.1 (canon w.2)
            digest := ws.foldl (fun g w => g + digestTerm w.1 15 (canon w.2)) c.team.staging.digest } := by
  intro ws hroom
  let g : Staging := ws.foldl (fun (g : Staging) w => g.reduce w.1 w.2) c.team.staging
  have hg : g = { c.team.staging with
      writes := c.team.staging.writes ++ ws.map fun w => .red w.1 (canon w.2)
      digest := ws.foldl (fun g w => g + digestTerm w.1 15 (canon w.2)) c.team.staging.digest } := foldl_reduce ..
  have hsize : ¬ stagingRoom < (ws.foldl (fun (g : Staging) w => g.reduce w.1 w.2) c.team.staging).size := by
    rw [foldl_reduce, Staging.size, List.countP_append, countP_red]
    exact Nat.not_lt.2 hroom
  have hx' : c.reachAtomic (c.counted s) (size48 z)
      (((lanesOf c.active).map fun l => (l, c.ad b (some v) (size48 z) l)).map Prod.snd) = .ok (w, xs) := by
    rw [List.map_map]
    exact hx
  have hws : rnLanes c d z ((lanesOf c.active).map fun l => (l, c.ad b (some v) (size48 z) l)) = ws := rnLanes_eq ..
  have hcaches := stagedLoose_translations.caches
  have hw := Ctx.Accesses.reachAtomic (sz := 0) (as := []) hr.ctx stagedLoose_translations hx
  have hw' := Ctx.Accesses.reachAtomic (sz := 0) (as := []) hr.ctx memLoose_translations hx
  let u1 := c.ordRelease (c.setFlags w (rnFlag ws)) p
  have hu1 : c.Accesses s stagedLoose _ _ u1 := (hw.modG fun g => g.raise (rnFlag ws)).ordRelease (.inr hcaches) p
  have hteam : (u1.team? c.ref.team).map Team.shell = some c.team.shell :=
    ((hw'.modG fun g => g.raise (rnFlag ws)).ordRelease (.inr memLoose_caches) p).kept.shell
  let u := u1.modTeam c.ref.team fun y => { y with staging := g }
  have hukept : c.Kept s u stagedLoose := hu1.kept.modTeam _ (fun _ => rfl) fun _ => rfl
  have hugang : u.gang? c.ref.team c.ref.gang = _ := (State.gang?_modTeam u1 _ _ _ (fun y => { y with staging := g }) fun _ => rfl).trans
    hu1.gang
  have huteam : (u.team? c.ref.team).map Team.staging = some g := by
    obtain ⟨y, hy, -⟩ := Option.map_eq_some_iff.1 hteam
    rw [State.team?_modTeam, if_pos rfl, hy]
    rfl
  refine ⟨_, completes_next (u := u) hr (exec_gredRn ..) ?_ hugang (Gang.entries_count _) hukept
    (((done_count c.w c.gang).setFlags rfl rfl (rnFlag ws)).setUnacked rfl _) fun t h ht => ⟨fun hord => ?_, ?_, ?_⟩⟩
  · simp only [stale_fbyte hstale, hst, Ctx.ordered, hrel, hx', hws, List.isEmpty_nil, if_true, if_neg hsize]
    rfl
  · rw [Ctx.ordCount, if_pos hord]
    exact raise_count_unacked ..
  · refine hu1.memKept (fun b hb => ?_) ht.mem
    rcases hb with ⟨x, hx, -⟩ | hb
    · cases hx
    · exact .inr hb
  · have hshell := ht.shells c.ref.team
    have hstaging (o : Option Team) : o.map Team.staging = (o.map Team.shell).map Team.staging := by
      cases o <;> rfl
    rw [hstaging, hshell, ← hstaging, huteam, hg]

/-! ### The f32 reduction -/

/-- R245: f32 reductions of a team that is not staged. -/
theorem gredF_completes {f q m : BitVec 1} {d : BitVec 6} {b : BitVec 5} {v : BitVec 6} {o : BitVec 2} {p : BitVec 3} {w : State}
    {xs : List Xlat} (hdet : c.team.det = false ∨ o ≠ 0) (hr : Runs (.gredF f q m d b v o p) s c)
    (hstale : c.stale (c.counted s) p = none) (hst : c.team.staged = false) (hrel : c.gang.releases = [])
    (hx : c.reachAtomic (c.counted s) 4 ((c.lanePairs b v 4).map Prod.snd) = .ok (w, xs)) :
    ∃ n, CompletesAt (.gredF f q m d b v o p) s c c.after { flags := 0, more := fun g => { g with unacked := n } } memLoose
      fun t _ => c.AtomicDone s w xs p 4 (lanesOf c.active).length (c.lanePairs b v 4)
        (fun l old => some (reduceF32 f q m o old (elem (c.v d l) 0 32))) n t := by
  have hw := Ctx.Accesses.reachAtomic (sz := 4) (as := c.lanePairs b v 4) hr.ctx memLoose_translations hx
  have hx' : c.reachAtomic (c.counted s) 4
      (((lanesOf c.active).map fun l => (l, c.ad b (some v) 4 l)).map Prod.snd) = .ok (w, xs) := hx
  have hlen : (c.lanePairs b v 4).length = (lanesOf c.active).length := by rw [Ctx.lanePairs, List.length_map]
  have hgo : (c.team.det && o == 0) = false := by
    rcases hdet with h | h
    · rw [h, Bool.false_and]
    · rw [beq_eq_false_iff_ne.2 h, Bool.and_false]
  refine reduction_completes (w1 := w) (exec_gredF ..) hr rfl rfl hx hw rfl (done_count c.w c.gang) (count_unacked _) (Gang.entries_count _) ?_
  simp only [hgo, stale_fbyte hstale, hst, Ctx.ordered, hrel, hx', Bool.false_eq_true, if_false, List.isEmpty_nil, if_true, gredFn_eq]
  rw [← hlen]
  rfl

end

/-- Settles O31: an atomic moves the caches and changes the bytes of its lanes alone; the model's reduction is the statement's by
`gredFn_eq`, whose one idea is that a sum overflows where it is infinite and its operands are finite. -/
theorem globalAtomics : Obligations.GlobalAtomics := by
  unfold Obligations.GlobalAtomics
  intro o d b v nr z f q m o2 p s c
  refine ⟨fun w xs hr hstale hst hrel hx => ?_, fun w xs hr hstale hst hrel hx => ?_, fun w xs hr hstale hst hrel hx => ?_,
    fun hdet w xs hr hstale hst hrel hx => ?_, fun w xs hr hstale hst hrel hx => ?_, fun w xs hr hstale hst hrel hx => ?_⟩
  · have h := globalAtomic_completes (f := fun c l old => atomicFn o.toNat (size48 z) old (c.v d l).toNat 0)
      (ret := if nr = 1 then none else some (atomicOld o z)) (exec_gatom ..) hr hstale hst hrel hx
    simp only [atomicFn_code] at h
    exact h
  · exact globalAtomic_completes (exec_gexch ..) hr hstale hst hrel hx
  · exact globalAtomic_completes (exec_gcas ..) hr hstale hst hrel hx
  · exact gredF_completes hdet hr hstale hst hrel hx
  · exact gredRn_completes hr hstale hst hrel hx
  · exact gredRn_staged hr hstale hst hrel hx

end Sys2Proof.Machine
end

section
/-! PROOFS. Chamber atomics (R33, R128, R243, R244). -/

namespace Sys2Proof.Machine

/-! ### Bytes -/

theorem toBytes_ofBytes (bs : List Byte) : toBytes (ofBytes bs) bs.length = bs := by
  induction bs with
  | nil => rfl
  | cons b bs ih =>
    have hdiv : (b.toNat + 256 * ofBytes bs) / 256 = ofBytes bs := by omega
    have hlow : BitVec.ofNat 8 (b.toNat + 256 * ofBytes bs) = b := by
      apply BitVec.eq_of_toNat_eq
      rw [BitVec.toNat_ofNat]
      omega
    rw [List.length_cons, ofBytes, toBytes, hdiv, hlow, ih]

theorem Memory.length_bytes (m : Memory) (a n : Nat) : (Memory.bytes m a n).length = n := by
  induction n generalizing a with
  | zero => rfl
  | succ n ih => exact congrArg (· + 1) (ih _)

/-- Two memories hold the same bytes. -/
def Memory.Same (m m' : Memory) : Prop := ∀ a, ZMap.get m a = ZMap.get m' a

theorem Memory.Same.bytes {m m' : Memory} (h : m.Same m') (a n : Nat) : Memory.bytes m a n = Memory.bytes m' a n := by
  induction n generalizing a with
  | zero => rfl
  | succ n ih => rw [Memory.bytes, Memory.bytes, h, ih]

theorem Memory.Same.store {m m' : Memory} (h : m.Same m') (a : Nat) (bs : List Byte) :
    Memory.Same (Memory.store m a bs) (Memory.store m' a bs) := by
  induction bs generalizing m m' a with
  | nil => exact h
  | cons b bs ih =>
    refine ih (fun k => ?_) (a + 1)
    rw [ZMap.get_set, ZMap.get_set, h]

/-- A store of the bytes that are there changes none. -/
theorem Memory.same_store_bytes (m : Memory) (a n : Nat) :
    Memory.Same m (Memory.store m a (toBytes (ofBytes (Memory.bytes m a n)) n)) := by
  have hold : toBytes (ofBytes (Memory.bytes m a n)) n = Memory.bytes m a n := by
    have := toBytes_ofBytes (Memory.bytes m a n)
    rwa [Memory.length_bytes] at this
  intro k
  rw [hold]
  by_cases hk : k < a ∨ a + n ≤ k
  · rw [Memory.get_store_outside _ _ _ _ (by rwa [Memory.length_bytes])]
  · obtain ⟨i, rfl⟩ := Nat.exists_eq_add_of_le (show a ≤ k by omega)
    rw [Memory.get_store_inside _ _ _ _ (by rw [Memory.length_bytes]; omega), Memory.getD_bytes _ _ _ _ (by omega)]

/-! ### Lanes -/

/-- One lane of a Chamber atomic of the statement: the Chamber and the words before (R128). -/
def chamberLane (sz : Nat) (ad : Nat → Nat) (f : Nat → Nat → Nat) (ret : Nat → Word) (r : Memory × List (Nat × Word)) (l : Nat) :
    Memory × List (Nat × Word) :=
  let old := ofBytes (Memory.bytes r.1 (ad l) sz)
  (Memory.store r.1 (ad l) (toBytes (f l old) sz), r.2 ++ [(l, ret old)])

theorem chamberLane_lanes (sz : Nat) (ad : Nat → Nat) (f : Nat → Nat → Nat) (ret : Nat → Word) (ls : List Nat)
    (r : Memory × List (Nat × Word)) : (ls.foldl (chamberLane sz ad f ret) r).2.map Prod.fst = r.2.map Prod.fst ++ ls := by
  induction ls generalizing r with
  | nil => simp
  | cons l ls ih =>
    rw [List.foldl_cons, ih]
    simp [chamberLane]

/-- One lane of a Chamber atomic of the model. -/
def Ctx.chamberStep (c : Ctx) (sz : Nat) (ad : Nat → Nat) (f : Nat → Nat → Option Nat) (ret : Nat → Word)
    (r : State × List (Nat × Word)) (l : Nat) : State × List (Nat × Word) :=
  let old := ofBytes (c.localBytes r.1 1 l (ad l) sz)
  (match f l old with
    | some x => c.localStore r.1 1 l (ad l) (toBytes x sz)
    | none => r.1, r.2 ++ [(l, ret old)])

section
variable {c : Ctx} {s t u : State} {l : Loose} {P : Nat → Prop} {g : Gang}

/-- The issuing team's Chamber holds the bytes of a memory. -/
def Ctx.ChamberIs (c : Ctx) (t : State) (m : Memory) : Prop := ∃ y, t.team? c.ref.team = some y ∧ y.chamber.Same m

theorem Ctx.ChamberIs.bytes {m : Memory} (h : c.ChamberIs t m) (l a n : Nat) : c.localBytes t 1 l a n = Memory.bytes m a n := by
  obtain ⟨y, hy, hm⟩ := h
  exact (show c.localBytes t 1 l a n = Memory.bytes y.chamber a n by simp only [Ctx.localBytes, hy]).trans (hm.bytes a n)

theorem Ctx.ChamberIs.store {m : Memory} (h : c.ChamberIs t m) (l a : Nat) (bs : List Byte) :
    c.ChamberIs (c.localStore t 1 l a bs) (Memory.store m a bs) := by
  obtain ⟨y, hy, hm⟩ := h
  refine ⟨{ y with chamber := Memory.store y.chamber a bs }, ?_, hm.store a bs⟩
  simp only [Ctx.localStore, State.team?_modTeam, if_true, hy, Option.map_some]

theorem Ctx.Accesses.localStore (h : c.Accesses s l P g t) (hl : ∀ (x : Team) m, l.team { x with chamber := m } = l.team x) (n a : Nat)
    (bs : List Byte) : c.Accesses s l P g (c.localStore t 1 n a bs) :=
  ⟨h.kept.modTeam _ (fun _ => rfl) fun x => hl x.shell _,
    (State.gang?_modTeam t _ _ _ (fun x => { x with chamber := Memory.store x.chamber a bs }) fun _ => rfl).trans h.gang, h.mem, h.within⟩

/-- The lanes of a Chamber atomic, taken by the model and by the statement. -/
theorem chamberStep_run {sz : Nat} {ad : Nat → Nat} {f : Nat → Nat → Option Nat} {fn : Nat → Nat → Nat} {ret : Nat → Word}
    (hl : ∀ (x : Team) m, l.team { x with chamber := m } = l.team x) (hf : ∀ l old, (f l old).getD old = fn l old) (ls : List Nat)
    {m : Memory} (olds : List (Nat × Word)) (h : c.Accesses s l P g t) (hm : c.ChamberIs t m) :
    let r := ls.foldl (c.chamberStep sz ad f ret) (t, olds)
    let r' := ls.foldl (chamberLane sz ad fn ret) (m, olds)
    c.Accesses s l P g r.1 ∧ c.ChamberIs r.1 r'.1 ∧ r.2 = r'.2 := by
  induction ls generalizing t m olds with
  | nil => exact ⟨h, hm, rfl⟩
  | cons n ls ih =>
    have hold : c.localBytes t 1 n (ad n) sz = Memory.bytes m (ad n) sz := hm.bytes ..
    have hfn := hf n (ofBytes (Memory.bytes m (ad n) sz))
    have hstep : ∃ t1, c.chamberStep sz ad f ret (t, olds) n = (t1, (chamberLane sz ad fn ret (m, olds) n).2) ∧
        c.Accesses s l P g t1 ∧ c.ChamberIs t1 (chamberLane sz ad fn ret (m, olds) n).1 := by
      simp only [Ctx.chamberStep, chamberLane, hold]
      cases hx : f n (ofBytes (Memory.bytes m (ad n) sz)) with
      | some x =>
        rw [hx] at hfn
        exact ⟨_, rfl, h.localStore hl .., hfn ▸ hm.store ..⟩
      | none =>
        rw [hx] at hfn
        obtain ⟨y, hy, hsame⟩ := hm
        refine ⟨_, rfl, h, y, hy, fun a => (hsame a).trans ?_⟩
        rw [← hfn]
        exact m.same_store_bytes (ad n) sz a
    obtain ⟨t1, hr, h1, hm1⟩ := hstep
    rw [List.foldl_cons, List.foldl_cons, hr]
    exact ih _ h1 hm1

/-- The Chamber that a Chamber atomic leaves, and the words before by lane (R128). -/
def Ctx.chamberRun (c : Ctx) (sz : Nat) (ad : Nat → Nat) (fn : Nat → Nat → Nat) (ret : Nat → Word) : Memory × List (Nat × Word) :=
  (lanesOf c.active).foldl (chamberLane sz ad fn ret) (c.team.chamber, [])

/-- What a Chamber atomic with an ordering hint may change. -/
def orderedChamber : Loose := { memLoose with team := fun x => { x with chamber := [] } }

/-- What a Chamber atomic without an ordering hint may change. -/
def plainChamber : Loose := { team := fun x => { x with chamber := [] } }

theorem chamberAtomic_completes {i : Instr} {d : BitVec 6} {b : BitVec 5} {v : BitVec 6} {sz : Nat} {p : BitVec 3}
    {f : Ctx → Nat → Nat → Option Nat} {fn : Nat → Nat → Nat} {ret : Nat → Word}
    (he : exec i s = chamberAtomic i d b v sz p f ret s) (hf : ∀ l old, (f c l old).getD old = fn l old) (hr : Runs i s c)
    (hstale : c.stale (c.counted s) p = none)
    (hcheck : c.localCheck (c.counted s) 1 sz sz ((lanesOf c.active).map (c.laneAddress b (some v) sz)) = none)
    (howner : c.ownerFault (c.counted s) 1 ((lanesOf c.active).map (c.laneAddress b (some v) sz)) = none)
    (hrel : c.gang.releases = []) {run : Memory × List (Nat × Word)}
    (hrun : c.chamberRun sz (c.laneAddress b (some v) sz) fn ret = run) : ∃ n, CompletesAt i s c c.after
      { v := fun r l => if r = d.toNat then (run.2.find? fun q => q.1 == l).map Prod.snd else none
        more := fun g => { g with unacked := n } } (if hintOrd c.hints = 0 then plainChamber else orderedChamber) fun t _ =>
          (∀ x a, t.team? c.ref.team = some x → ZMap.get x.chamber a = ZMap.get run.1 a) ∧
          (hintOrd c.hints < 2 → n = c.gang.unacked) ∧ c.MemKept s t [] fun _ => False := by
  subst hrun
  set run := c.chamberRun sz (c.laneAddress b (some v) sz) fn ret
  set l := if hintOrd c.hints = 0 then plainChamber else orderedChamber with hl
  have hcaches : hintOrd c.hints = 0 ∨ l.Caches := by
    rw [hl]
    by_cases h0 : hintOrd c.hints = 0
    · exact .inl h0
    · rw [if_neg h0]
      exact .inr ⟨fun _ _ _ => rfl, fun _ => rfl, fun _ => rfl⟩
  have hteam (x : Team) (m : Memory) : l.team { x with chamber := m } = l.team x := by
    rw [hl]
    split <;> rfl
  let lt := (c.counted s).latch c.vf c.core p.toNat
  have hcount := (Ctx.Accesses.counted hr.ctx l (P := s.written c.core) fun _ h => h).ordRelease hcaches p
  have hplain := (Ctx.Accesses.counted hr.ctx memLoose (P := s.written c.core) fun _ h => h).ordRelease (.inr memLoose_caches) p
  have hchamber : c.ChamberIs (c.ordRelease (c.counted s) p) c.team.chamber := by
    obtain ⟨y, hy, hshell⟩ := Option.map_eq_some_iff.1 hplain.kept.shell
    have hshell : y.shell = c.team.shell := hshell
    have hsame : y.chamber = c.team.chamber := by
      have := congrArg Team.chamber hshell
      exact this
    exact ⟨y, hy, fun a => by rw [hsame]⟩
  obtain ⟨hacc, hrun, holds⟩ := chamberStep_run (sz := sz) (ad := c.laneAddress b (some v) sz) (ret := ret) hteam hf (lanesOf c.active) []
    hcount hchamber
  set r := (lanesOf c.active).foldl (c.chamberStep sz (c.laneAddress b (some v) sz) (f c) ret) (c.ordRelease (c.counted s) p, []) with hrdef
  have hu := hacc.ordAcquire hcaches lt
  have hteams : (c.ordAcquire r.1 lt).teams = r.1.teams := by
    unfold Ctx.ordAcquire
    split
    · exact (State.Moves.discardAt (P := fun _ => True) (fun _ _ => trivial) lt.level lt.dies).step.teams
    · rfl
  have hlanes : run.2.map Prod.fst = lanesOf c.active := chamberLane_lanes ..
  have hdone := ((done_count c.w c.gang).setUnacked rfl (c.ordCount lt c.gang.count.unacked)).setPairs rfl d run.2
    (hlanes ▸ lanesOf_nodup _) fun q hq => lanesOf_lt c.active _ (hlanes ▸ List.mem_map_of_mem hq)
  refine ⟨_, completes_vec hr he ?_ hu.gang (Gang.entries_count _) hu.kept hdone fun t h ht => ⟨fun x a hx => ?_, fun hord => ?_, ?_⟩⟩
  · have hcheck' : c.localCheck (c.counted s) 1 sz sz (((lanesOf c.active).map fun l => (l, c.ad b (some v) sz l)).map Prod.snd) = none := by
      rw [List.map_map]
      exact hcheck
    have howner' : c.ownerFault (c.counted s) 1 (((lanesOf c.active).map fun l => (l, c.ad b (some v) sz l)).map Prod.snd) = none := by
      rw [List.map_map]
      exact howner
    simp only [stale_fbyte hstale, hcheck', howner', Ctx.ordered, hrel, List.isEmpty_nil, if_true, List.foldl_map]
    exact congrArg (Res.vec (c.ordAcquire r.1 lt) d) holds
  · obtain ⟨y, hy, hsame⟩ := hrun
    have hshell := ht.shells c.ref.team
    rw [hx, State.team?, hteams, ← State.team?, hy] at hshell
    have hsame' : x.shell = y.shell := Option.some.inj hshell
    have hchamber : x.chamber = y.chamber := by
      have := congrArg Team.chamber hsame'
      exact this
    rw [hchamber]
    exact hsame a
  · rw [Ctx.ordCount, if_pos hord]
    exact count_unacked _
  · exact hu.memKept (fun _ h => .inr (.inr h)) ht.mem

end

theorem exec_catom (o : BitVec 3) (d : BitVec 6) (b : BitVec 5) (v : BitVec 6) (z : BitVec 1) (p : BitVec 3) (s : State) :
    exec (.catom o d b v z p) s = execCatom o d b v z p s := rfl

theorem exec_catomExch (d : BitVec 6) (b : BitVec 5) (v : BitVec 6) (z : BitVec 1) (p : BitVec 3) (s : State) :
    exec (.catomExch d b v z p) s = execCatomExch d b v z p s := rfl

theorem exec_catomCas (d : BitVec 6) (b : BitVec 5) (v : BitVec 6) (z : BitVec 1) (p : BitVec 3) (s : State) :
    exec (.catomCas d b v z p) s = execCatomCas d b v z p s := rfl

/-- Settles O28, by induction on the active lanes: the model's Chamber and the statement's hold the same bytes after each. -/
theorem chamberAtomics : Obligations.ChamberAtomics := by
  unfold Obligations.ChamberAtomics
  intro o d b v z p s c
  refine ⟨fun hr hstale hcheck howner hrel => ?_, fun hr hstale hcheck howner hrel => ?_, fun hr hstale hcheck howner hrel => ?_⟩
  · have hf (l old : Nat) : (atomicFn o.toNat (size48 z) old (c.v d l).toNat 0).getD old =
        atomicCode o (8 * size48 z) old ((c.v d l).toNat % 2 ^ (8 * size48 z)) := by rw [atomicFn_code]; rfl
    exact chamberAtomic_completes (exec_catom ..) hf hr hstale hcheck howner hrel rfl
  · have hf (l old : Nat) : (atomicFn 8 (size48 z) old (c.v d l).toNat 0).getD old = (c.v d l).toNat % 2 ^ (8 * size48 z) := rfl
    exact chamberAtomic_completes (exec_catomExch ..) hf hr hstale hcheck howner hrel rfl
  · have hf (l old : Nat) : (atomicFn 9 (size48 z) old (c.vc l).toNat (c.v d l).toNat).getD old =
        if old = (c.v d l).toNat % 2 ^ (8 * size48 z) then (c.vc l).toNat % 2 ^ (8 * size48 z) else old := by
      rw [show atomicFn 9 (size48 z) old (c.vc l).toNat (c.v d l).toNat =
        if old = (c.v d l).toNat % 2 ^ (8 * size48 z) then some ((c.vc l).toNat % 2 ^ (8 * size48 z)) else none from rfl]
      split <;> rfl
    exact chamberAtomic_completes (exec_catomCas ..) hf hr hstale hcheck howner hrel rfl

end Sys2Proof.Machine
end

section
/-! PROOFS. Instruction fetch where no level but the home slice holds the line (R9, R43, R59, R270, R298). -/

namespace Sys2Proof.Machine

/-! ### Filled sectors -/

/-- A line of which no byte is written, whose valid sectors hold given bytes. -/
def Line.Holds (l : Line) (get : Nat → Byte) : Prop := l.dirty = 0 ∧ ∀ o, bit l.valid (o / 64) = true → ZMap.get l.data o = get o

theorem Line.holds_empty (vf num : Nat) (leaf : Word) (set : Nat) (get : Nat → Byte) : (Line.empty vf num leaf set).Holds get :=
  ⟨rfl, fun o h => by simp [Line.empty, bit] at h⟩

theorem bit_or_two_pow {w : Nat} (v : BitVec w) (n m : Nat) (hn : n < w) :
    bit (v ||| BitVec.ofNat w (2 ^ n)) m = (bit v m || decide (n = m)) := by
  simp only [bit, BitVec.getLsbD_or, BitVec.getLsbD_ofNat, Nat.testBit_two_pow]
  by_cases h : n = m
  · subst h
    simp [hn]
  · simp [h]

/-- A sector that is filled holds its bytes, and is valid (R43). -/
theorem Line.Holds.fill {l : Line} {get : Nat → Byte} (h : l.Holds get) {n : Nat} (hn : n < 4) :
    (l.fill n get).Holds get ∧ ∀ m, bit (l.fill n get).valid m = (bit l.valid m || decide (n = m)) := by
  obtain ⟨hd, hv⟩ := h
  unfold Line.fill
  split
  · next hvalid =>
    refine ⟨⟨hd, hv⟩, fun m => ?_⟩
    by_cases hm : n = m
    · subst hm
      rw [hvalid, Bool.true_or]
    · rw [decide_eq_false hm, Bool.or_false]
  · have hbits (m : Nat) : bit (l.valid ||| BitVec.ofNat 4 (2 ^ n)) m = (bit l.valid m || decide (n = m)) := bit_or_two_pow _ _ _ hn
    refine ⟨⟨hd, fun o ho => ?_⟩, hbits⟩
    have hclean (o : Nat) : bit l.dirty o = false := by rw [hd]; simp [bit]
    dsimp only at ho ⊢
    simp only [hclean, Bool.false_eq_true, if_false]
    rw [ZMap.get_setEach]
    split
    · rfl
    · next hout =>
      refine hv o ?_
      have hne : n ≠ o / 64 := fun e => hout (List.mem_map.2 ⟨o % 64, List.mem_range.2 (by omega), by omega⟩)
      rwa [hbits, decide_eq_false hne, Bool.or_false] at ho

/-- The sectors of a mask that are filled (R43). -/
theorem Line.Holds.fillMask {l : Line} {get : Nat → Byte} (h : l.Holds get) (secs : BitVec 4) :
    (l.fillMask secs get).Holds get ∧ ∀ m, bit secs m = true → bit (l.fillMask secs get).valid m = true := by
  have key (ns : List Nat) (hns : ∀ n ∈ ns, n < 4) (l : Line) (h : l.Holds get) :
      let r := ns.foldl (fun l n => if bit secs n then l.fill n get else l) l
      r.Holds get ∧ ∀ m, (bit l.valid m = true ∨ m ∈ ns ∧ bit secs m = true) → bit r.valid m = true := by
    induction ns generalizing l with
    | nil => exact ⟨h, fun m hm => hm.resolve_right fun h => by cases h.1⟩
    | cons n ns ih =>
      obtain ⟨hn, hns⟩ := List.forall_mem_cons.1 hns
      obtain ⟨hfill, hvalid⟩ := h.fill hn
      dsimp only
      rw [List.foldl_cons]
      by_cases hsec : bit secs n = true
      · rw [if_pos hsec]
        obtain ⟨hr, hm⟩ := ih hns _ hfill
        refine ⟨hr, fun m hcase => hm m ?_⟩
        rw [hvalid]
        rcases hcase with h | ⟨h, hs⟩
        · exact .inl (by rw [h, Bool.true_or])
        · rcases List.mem_cons.1 h with rfl | h
          · exact .inl (by simp)
          · exact .inr ⟨h, hs⟩
      · rw [if_neg hsec]
        obtain ⟨hr, hm⟩ := ih hns l h
        refine ⟨hr, fun m hcase => hm m ?_⟩
        rcases hcase with h | ⟨h, hs⟩
        · exact .inl h
        · rcases List.mem_cons.1 h with rfl | h
          · exact absurd hs hsec
          · exact .inr ⟨h, hs⟩
  obtain ⟨hr, hm⟩ := key (List.range 4) (fun n => List.mem_range.1) l h
  refine ⟨hr, fun m hs => hm m (.inr ⟨List.mem_range.2 ?_, hs⟩)⟩
  by_contra hge
  rw [bit, BitVec.getLsbD_of_ge _ _ (by omega)] at hs
  cases hs

/-! ### What an access of a home slice leaves -/

/-- Memory, the cores and the remote partitions are as they were. -/
structure State.HomeOnly (s t : State) : Prop where
  mem : t.mem = s.mem
  cores : t.cores = s.cores
  remote : ∀ d, (t.die d).remote = (s.die d).remote

section
variable {s t u : State}

theorem State.HomeOnly.refl (s : State) : s.HomeOnly s := ⟨rfl, rfl, fun _ => rfl⟩

theorem State.HomeOnly.trans (h : s.HomeOnly t) (k : t.HomeOnly u) : s.HomeOnly u :=
  ⟨k.mem.trans h.mem, k.cores.trans h.cores, fun d => (k.remote d).trans (h.remote d)⟩

theorem State.HomeOnly.modDie (s : State) (d : Nat) (f : Die → Die) (hf : ∀ x, (f x).remote = x.remote) : s.HomeOnly (s.modDie d f) := by
  refine ⟨rfl, rfl, fun e => ?_⟩
  rw [State.die_modDie]
  split
  · next h => rw [hf, h]
  · rfl

theorem State.countRcg_homeOnly (s : State) (die g : Nat) : s.HomeOnly (s.countRcg die g) := by
  unfold State.countRcg
  split
  · exact .refl s
  · exact .modDie s _ _ fun _ => rfl

theorem State.cavernPut_homeOnly (s : State) (die num : Nat) (secs : BitVec 4) (mask : BitVec 256) (evp rcg : Nat) :
    s.HomeOnly (s.cavernPut die num secs mask evp rcg) := by
  unfold State.cavernPut
  split
  · exact .refl s
  · refine .modDie s _ _ fun x => ?_
    dsimp only
    split
    · rfl
    · split <;> rfl

theorem State.reachCavern_homeOnly (s : State) (die num : Nat) (secs : BitVec 4) (mask : BitVec 256) (leaf : Word) :
    s.HomeOnly (s.reachCavern die num secs mask leaf) := by
  have h := s.countRcg_homeOnly die (pteRcg leaf)
  unfold State.reachCavern
  dsimp only
  split
  · exact h
  · exact h.trans (State.cavernPut_homeOnly ..)

theorem State.evictHome_homeOnly (s : State) (die : Nat) (x : Held) : s.HomeOnly (s.evictHome die x) := by
  have h := State.HomeOnly.modDie s die (fun d => { d with l2 := d.l2.filter fun y => !(x.is y) }) fun _ => rfl
  unfold State.evictHome
  dsimp only
  split
  · exact h
  · exact (h.trans (State.countRcg_homeOnly ..)).trans (State.cavernPut_homeOnly ..)

theorem State.homeTouch_homeOnly (s : State) (vf num : Nat) (secs : BitVec 4) (mask : BitVec 256) (leaf : Word) :
    s.HomeOnly (s.homeTouch vf num secs mask leaf) := by
  unfold State.homeTouch
  split
  · exact .refl s
  · next h _ =>
    split
    · exact .refl s
    · split
      · exact s.reachCavern_homeOnly ..
      · extract_lets d x mates held missing out
        have hev : s.HomeOnly (match out with | none => s | some v => s.evictHome h v) := by
          cases out with
          | none => exact .refl s
          | some v => exact s.evictHome_homeOnly h v
        have hput := hev.trans (.modDie _ h (fun d => { d with l2 := touchHeld d.l2 x }) fun _ => rfl)
        split
        · exact hput.trans (State.reachCavern_homeOnly ..)
        · exact hput

/-! ### Lines that no other level holds -/

/-- A die's remote partition holds no line of a number. -/
def State.NoCopy (s : State) (die num : Nat) : Prop := ∀ l ∈ (s.die die).remote, l.num ≠ num

theorem div_line {num o : Nat} (ho : o < 256) : (num * 256 + o) / 256 = num := by omega

theorem mod_line {num o : Nat} (ho : o < 256) : (num * 256 + o) % 256 = o := by omega

theorem State.NoCopy.dieByte {die num : Nat} (h : s.NoCopy die num) {o : Nat} (ho : o < 256) :
    s.dieByte die (num * 256 + o) = ZMap.get s.mem (num * 256 + o) := by
  have hnone : ((s.die die).remote.find? fun l => decide (l.num = (num * 256 + o) / 256) && bit l.dirty ((num * 256 + o) % 256)) = none := by
    rw [List.find?_eq_none]
    intro l hl
    rw [div_line ho, decide_eq_false (h l hl)]
    exact Bool.false_ne_true
  unfold State.dieByte
  rw [hnone]

theorem State.NoCopy.remoteLine {die num : Nat} (h : s.NoCopy die num) (vf : Nat) : s.remoteLine die vf num = none := by
  unfold State.remoteLine
  rw [List.find?_eq_none]
  intro l hl
  rw [decide_eq_false (h l hl)]
  exact Bool.false_ne_true

theorem State.NoCopy.l2Byte {die num : Nat} (h : s.NoCopy die num) (vf : Nat) {o : Nat} (ho : o < 256) :
    s.l2Byte die vf (num * 256 + o) = ZMap.get s.mem (num * 256 + o) := by
  unfold State.l2Byte
  rw [div_line ho, h.remoteLine, h.dieByte ho]
  rfl

/-- Bytes that reach the home slice are of their line, and of no other (R44). -/
theorem State.homeBytes_away (s : State) {vf num n : Nat} {leaf : Word} {bs : List (Nat × Byte)} (hn : num ≠ n)
    (hbs : ∀ p ∈ bs, p.1 < 256) : (∀ d, ((s.homeBytes vf num leaf bs).die d).remote = (s.die d).remote) ∧
      ∀ o, o < 256 → ZMap.get (s.homeBytes vf num leaf bs).mem (n * 256 + o) = ZMap.get s.mem (n * 256 + o) := by
  unfold State.homeBytes
  split
  · exact ⟨fun _ => rfl, fun _ _ => rfl⟩
  · split
    · unfold State.event State.log
      split
      · exact ⟨fun _ => rfl, fun _ _ => rfl⟩
      · exact ⟨fun _ => rfl, fun _ _ => rfl⟩
    · have htouch := State.homeTouch_homeOnly { s with mem := bs.foldl (fun m p => ZMap.set m (num * 256 + p.1) p.2) s.mem } vf num 0
        (bs.foldl (fun (m : BitVec 256) p => m ||| byteMask p.1 1) 0) leaf
      refine ⟨htouch.remote, fun o ho => ?_⟩
      rw [htouch.mem]
      refine ZMap.get_setOffsets _ _ bs s.mem fun p hp e => ?_
      have := hbs p hp
      omega

/-- Room is made by lines of other numbers (R50). -/
theorem State.NoCopy.remoteRoom {die num : Nat} (h : s.NoCopy die num) (vf : Nat) :
    (s.remoteRoom die vf num).NoCopy die num ∧
      ∀ o, o < 256 → ZMap.get (s.remoteRoom die vf num).mem (num * 256 + o) = ZMap.get s.mem (num * 256 + o) := by
  have hsame : s.NoCopy die num ∧ ∀ o, o < 256 → ZMap.get s.mem (num * 256 + o) = ZMap.get s.mem (num * 256 + o) := ⟨h, fun _ _ => rfl⟩
  unfold State.remoteRoom
  dsimp only
  split
  · exact hsame
  · split
    · next l hl =>
      have hnum : l.num ≠ num := h l (List.mem_of_mem_filter (evictFirst_mem (choose_mem hl)))
      obtain ⟨hremote, hmem⟩ := s.homeBytes_away (vf := l.vf) (leaf := l.leaf) (bs := l.dirtyBytes) hnum fun p hp => by
        obtain ⟨o, ho, rfl⟩ := List.mem_map.1 hp
        exact List.mem_range.1 (List.mem_of_mem_filter ho)
      refine ⟨fun m hm => h m ?_, hmem⟩
      rw [State.evictRemote, State.die_modDie, if_pos rfl] at hm
      rw [← hremote]
      exact List.mem_of_mem_filter hm
    · exact hsame

theorem Line.fill_place (l : Line) (n : Nat) (get : Nat → Byte) :
    (l.fill n get).vf = l.vf ∧ (l.fill n get).num = l.num ∧ (l.fill n get).set = l.set := by
  unfold Line.fill
  split
  · exact ⟨rfl, rfl, rfl⟩
  · exact ⟨rfl, rfl, rfl⟩

theorem Line.fillMask_place (l : Line) (secs : BitVec 4) (get : Nat → Byte) :
    (l.fillMask secs get).num = l.num ∧ (l.fillMask secs get).set = l.set := by
  have key (ns : List Nat) (l : Line) : (ns.foldl (fun l n => if bit secs n then l.fill n get else l) l).num = l.num ∧
      (ns.foldl (fun l n => if bit secs n then l.fill n get else l) l).set = l.set := by
    induction ns generalizing l with
    | nil => exact ⟨rfl, rfl⟩
    | cons n ns ih =>
      obtain ⟨h1, h2⟩ := ih (if bit secs n then l.fill n get else l)
      obtain ⟨-, hnum, hset⟩ := l.fill_place n get
      rw [List.foldl_cons, h1, h2]
      split
      · exact ⟨hnum, hset⟩
      · exact ⟨rfl, rfl⟩
  exact key _ l

/-- A line that is put where none of its number stands is the youngest. -/
theorem putLine_eq_append {ls : List Line} {x : Line} (h : ∀ l ∈ ls, l.num ≠ x.num) : putLine ls x = ls ++ [x] := by
  unfold putLine
  rw [if_neg]
  rw [List.any_eq_true]
  rintro ⟨l, hl, hx⟩
  simp only [Line.is, Bool.and_eq_true, decide_eq_true_eq] at hx
  exact h l hl hx.1.2

/-- A line that is put in a die's remote partition gives its bytes to a function of its set (R43, R50). -/
theorem State.NoCopy.l2Byte_putLine {die num vf o : Nat} {secs : BitVec 4} {leaf : Word} {l : Line} {x : Byte} (h : s.NoCopy die num)
    (hnum : l.num = num) (hset : l.set = s.lineSet die vf num) (hbyte : l.byte? o = some x) (ho : o < 256) :
    ((s.modDie die fun d => { d with remote := putLine d.remote l }).homeTouch vf num secs 0 leaf).l2Byte die vf (num * 256 + o) = x := by
  set s1 := s.modDie die fun d => { d with remote := putLine d.remote l } with hs1
  have hmoves := State.Moves.homeTouch (core := 0) (P := fun _ => True) (s := s1) (fun _ _ => trivial) vf num secs 0 leaf
  have hput : (s1.die die).remote = (s.die die).remote ++ [l] := by
    rw [hs1, State.die_modDie, if_pos rfl]
    exact putLine_eq_append fun m hm => hnum ▸ h m hm
  have htbits : (s1.die die).tbits = (s.die die).tbits := by
    rw [hs1, State.die_modDie, if_pos rfl]
    rfl
  have hset' : (s1.homeTouch vf num secs 0 leaf).lineSet die vf num = s.lineSet die vf num := by
    have htouch := congrArg Die.tbits (hmoves.dies die)
    unfold State.lineSet
    rw [hmoves.step.vf, ← htbits]
    exact congrArg (fun b => l2Set b ((s.vf vf).pix) (num * 256)) htouch
  have hline : (s1.homeTouch vf num secs 0 leaf).remoteLine die vf num = some l := by
    unfold State.remoteLine
    rw [(s1.homeTouch_homeOnly ..).remote, hput, hset', List.find?_append, List.find?_eq_none.2]
    · simp [hnum, hset]
    · intro m hm
      rw [decide_eq_false (h m hm)]
      exact Bool.false_ne_true
  unfold State.l2Byte
  rw [div_line ho, mod_line ho, hline, Option.bind_some, hbyte, Option.getD_some]

/-- The sectors that fill from the home slice give a function its bytes (R43, R50, R53). -/
theorem State.NoCopy.fillRemote {die num : Nat} (h : s.NoCopy die num) (vf : Nat) {secs : BitVec 4} (leaf : Word) {o : Nat} (ho : o < 256)
    (hsec : bit secs (o / 64) = true) :
    (s.fillRemote die vf num secs leaf).l2Byte die vf (num * 256 + o) = ZMap.get s.mem (num * 256 + o) := by
  unfold State.fillRemote
  split
  · obtain ⟨hroom, hmem⟩ := h.remoteRoom vf
    set s1 := s.remoteRoom die vf num
    have hof : s1.remoteOf die vf num leaf = .empty vf num leaf (s1.lineSet die vf num) := by
      unfold State.remoteOf
      rw [hroom.remoteLine]
      rfl
    have hmiss : secs &&& ~~~(Line.empty vf num leaf (s1.lineSet die vf num)).valid = secs := by
      change secs &&& ~~~(0#4) = secs
      rw [BitVec.not_zero, BitVec.and_allOnes]
    have hne : secs ≠ 0 := by
      rintro rfl
      simp [bit] at hsec
    dsimp only
    rw [hof, hmiss, if_neg hne]
    have hholds := Line.holds_empty vf num leaf (s1.lineSet die vf num) fun o => s1.dieByte die (num * 256 + o)
    obtain ⟨⟨-, hdata⟩, hvalid⟩ := hholds.fillMask secs
    have hplace := (Line.empty vf num leaf (s1.lineSet die vf num)).fillMask_place secs fun o => s1.dieByte die (num * 256 + o)
    refine hroom.l2Byte_putLine hplace.1 hplace.2 ?_ ho
    have hv := hvalid _ hsec
    have hd := (hdata o hv).trans ((hroom.dieByte ho).trans (hmem o ho))
    unfold Line.byte?
    exact (if_pos (by rw [Bool.or_eq_true]; exact .inl hv)).trans (congrArg some hd)
  · have hno : (s.homeTouch vf num secs 0 leaf).NoCopy die num := fun l hl => h l ((s.homeTouch_homeOnly ..).remote die ▸ hl)
    rw [hno.l2Byte vf ho, (s.homeTouch_homeOnly ..).mem]

/-! ### The instruction cache -/

theorem bytes_congr {m m' : Memory} {a a' n : Nat} (h : ∀ i, i < n → ZMap.get m (a + i) = ZMap.get m' (a' + i)) :
    Memory.bytes m a n = Memory.bytes m' a' n := by
  induction n generalizing a a' with
  | zero => rfl
  | succ n ih =>
    have hrest := ih (a := a + 1) (a' := a' + 1) fun i hi => by
      have := h (i + 1) (by omega)
      rwa [Nat.add_assoc, Nat.add_assoc, Nat.add_comm 1 i]
    have hfirst : ZMap.get m a = ZMap.get m' a' := h 0 (Nat.succ_pos n)
    rw [Memory.bytes, Memory.bytes, hrest, hfirst]

/-- The sector of an aligned word. -/
theorem bit_sectorMask {off k : Nat} (hoff : off < 256) (h4 : off % 4 = 0) (hk : k < 4) : bit (sectorMask off 1) ((off + k) / 64) = true := by
  have hq : (off + k) / 64 = off / 64 := by omega
  have hpow : 2 ^ (off / 64 + 1) - 2 ^ (off / 64) = 2 ^ (off / 64) := by rw [Nat.pow_succ]; omega
  rw [hq, sectorMask, if_neg (by decide), Nat.add_sub_cancel, hpow, bit, BitVec.getLsbD_ofNat, Nat.testBit_two_pow_self]
  simp only [Bool.and_true, decide_eq_true_eq]
  omega

theorem lineOf_eq_empty {ls : List Line} {vf num : Nat} {leaf : Word} (h : ∀ l ∈ ls, l.num ≠ num) :
    lineOf ls vf num leaf = .empty vf num leaf := by
  have hnone : getLine ls vf num = none := by
    refine List.find?_eq_none.2 fun l hl => ?_
    rw [decide_eq_false (h l hl), Bool.and_false]
    exact Bool.false_ne_true
  rw [lineOf, hnone]
  rfl

theorem lineOf_putLine {ls : List Line} {vf num : Nat} {leaf : Word} {x : Line} (h : ∀ l ∈ ls, l.num ≠ num) (hvf : x.vf = vf)
    (hnum : x.num = num) : lineOf (putLine ls x) vf num leaf = x := by
  have hnone : ls.find? (fun l => decide (l.vf = vf) && decide (l.num = num)) = none := by
    refine List.find?_eq_none.2 fun l hl => ?_
    rw [decide_eq_false (h l hl), Bool.and_false]
    exact Bool.false_ne_true
  rw [lineOf, getLine, putLine_eq_append (hnum ▸ h), List.find?_append, hnone]
  simp [hvf, hnum]

/-- A word that no cache holds fills from the home slice (R9, R270). -/
theorem fillICache_word {core vf pa : Nat} {leaf : Word} (h4 : pa % 4 = 0) (hic : ∀ l ∈ (s.core core).icache, l.num ≠ pa / 256)
    (hno : s.NoCopy (core / 64) (pa / 256)) :
    Memory.bytes (lineOf ((s.fillICache core vf pa leaf).core core).icache vf (pa / 256) leaf).data (pa % 256) 4 =
      Memory.bytes s.mem pa 4 ∧
    ∃ f, s.fillICache core vf pa leaf = (s.fillRemote (core / 64) vf (pa / 256) (sectorMask (pa % 256) 1) leaf).modCore core f := by
  have hfill := State.Moves.fillRemote (core := core) (P := fun _ => True) (s := s) (fun _ _ => trivial) (core / 64) vf (pa / 256)
    (sectorMask (pa % 256) 1) leaf
  have hbyte (o : Nat) (ho : o < 256) (hs : bit (sectorMask (pa % 256) 1) (o / 64) = true) :=
    hno.fillRemote vf (secs := sectorMask (pa % 256) 1) leaf ho hs
  have hempty : bit (Line.empty vf (pa / 256) leaf).valid (pa % 256 / 64) = false := by simp [Line.empty, bit]
  unfold State.fillICache
  dsimp only
  rw [lineOf_eq_empty hic, hempty, if_neg Bool.false_ne_true]
  set s1 := s.fillRemote (core / 64) vf (pa / 256) (sectorMask (pa % 256) 1) leaf
  set x := (Line.empty vf (pa / 256) leaf).fill (pa % 256 / 64) fun o => s1.l2Byte (core / 64) vf (pa / 256 * 256 + o) with hx
  have hic1 : (s1.core core).icache = (s.core core).icache := by
    have := congrArg Core.icache (hfill.cores core)
    exact this
  refine ⟨?_, _, rfl⟩
  have hplace := (Line.empty vf (pa / 256) leaf).fill_place (pa % 256 / 64) fun o => s1.l2Byte (core / 64) vf (pa / 256 * 256 + o)
  have hvf : x.vf = vf := hplace.1
  have hnum : x.num = pa / 256 := hplace.2.1
  rw [State.core_modCore, if_pos rfl]
  dsimp only
  rw [hic1, lineOf_putLine _ hvf hnum]
  · obtain ⟨⟨-, hdata⟩, hvalid⟩ := (Line.holds_empty vf (pa / 256) leaf 0
      fun o => s1.l2Byte (core / 64) vf (pa / 256 * 256 + o)).fill (show pa % 256 / 64 < 4 by omega)
    refine bytes_congr fun i hi => ?_
    have hsame : pa / 256 * 256 + (pa % 256 + i) = pa + i := by omega
    rw [← hsame, ← hbyte (pa % 256 + i) (by omega) (bit_sectorMask (by omega) (by omega) hi)]
    refine hdata _ ?_
    rw [hvalid, decide_eq_true (show pa % 256 / 64 = (pa % 256 + i) / 64 by omega), Bool.or_true]
  · intro l hl
    split at hl
    · exact hic l hl
    · split at hl
      · exact hic l (List.mem_of_mem_filter hl)
      · exact hic l hl

end

end Sys2Proof.Machine
end

section
/-! PROOFS. A step of a fragment in hand, and the passing of time (R14, R29, R37, R59, R145, R270, R298, R312). -/

namespace Sys2Proof.Machine

/-! ### Marks -/

/-- A byte as it was, or with some bits set. -/
def MarkedBy (v x y : Byte) : Prop := y = x ∨ y = x ||| v

theorem MarkedBy.trans {v x y z : Byte} (h : MarkedBy v x y) (k : MarkedBy v y z) : MarkedBy v x z := by
  rcases h with rfl | rfl
  · exact k
  · rcases k with rfl | rfl
    · exact .inr rfl
    · exact .inr (by rw [BitVec.or_assoc, BitVec.or_self])

/-- The walks of a fetch set accessed bits alone (R60). -/
theorem setAD_marks (m : Memory) (ptes : List Nat) (b : Nat) : MarkedBy 0x20 (ZMap.get m b) (ZMap.get (setAD m ptes kFetch) b) := by
  unfold setAD
  induction ptes generalizing m with
  | nil => exact .inl rfl
  | cons p ptes ih =>
    rw [List.foldl_cons]
    refine MarkedBy.trans ?_ (ih _)
    rw [ZMap.get_set]
    split
    · next h => exact .inr (by rw [h]; rfl)
    · exact .inl rfl

theorem useXlats_marks (s : State) (core vf : Nat) (xs : List Xlat) (b : Nat) :
    MarkedBy 0x20 (ZMap.get s.mem b) (ZMap.get (s.useXlats core vf kFetch xs).mem b) := by
  unfold State.useXlats
  induction xs generalizing s with
  | nil => exact .inl rfl
  | cons x xs ih =>
    rw [List.foldl_cons]
    refine MarkedBy.trans ?_ (ih _)
    by_cases hx : x.ptes.isEmpty = true
    · rw [if_pos hx]
      exact .inl rfl
    · rw [if_neg hx]
      exact setAD_marks s.mem x.ptes b

/-! ### Fetch -/

section
variable {s : State} {c : Ctx} {xs : List Xlat} {a : Nat}

/-- Bytes that no table entry holds stay as they were (R60). -/
theorem State.Translates.bytes {t : State} {n : Nat} (h : s.Translates xs t) (hn : ∀ x ∈ xs, ∀ k, k < n → a + k ∉ x.ptes) :
    Memory.bytes t.mem a n = Memory.bytes s.mem a n := bytes_congr fun i hi => h.mem _ fun x hx => hn x hx i hi

theorem State.modCore_modQuad_step (s : State) (core q : Nat) (f : Core → Core) (g : Quad → Quad) :
    s.CacheStep ((s.modCore core f).modQuad core q g) := (State.CacheStep.modCore s core f).trans (.modCore _ core _)

theorem State.mem_modCore_modQuad (s : State) (core q : Nat) (f : Core → Core) (g : Quad → Quad) :
    ((s.modCore core f).modQuad core q g).mem = s.mem := rfl

/-- R59, R270, R298: a word that translates, and that neither the loop buffer, the instruction cache nor the remote partition holds, is
fetched from the home slice. -/
theorem fetch_word (hcanon : canonical a = true) (htr : s.translate c.core c.vf kFetch c.priv [⟨a, 4, 0⟩] = .ok xs)
    (hloop : ((s.core c.core).quad c.gang.quad).loopWord c.vf a = none) (habs : s.absent ((findXlat xs a).pa a) = false)
    (h4 : (findXlat xs a).pa a % 4 = 0) (hptes : ∀ x ∈ xs, ∀ k, k < 4 → (findXlat xs a).pa a + k ∉ x.ptes)
    (hic : ∀ l ∈ (s.core c.core).icache, l.num ≠ (findXlat xs a).pa a / 256)
    (hno : s.NoCopy c.die ((findXlat xs a).pa a / 256)) :
    ∃ t, c.fetch s a = .word t (BitVec.ofNat 32 (ofBytes (Memory.bytes s.mem ((findXlat xs a).pa a) 4))) ∧ t.teams = s.teams ∧
      t.cur = s.cur ∧ t.turn = s.turn ∧ t.vfs = s.vfs ∧ t.grids = s.grids ∧ t.tick = s.tick ∧ c.MemMarked s t := by
  generalize hx : findXlat xs a = x at habs h4 hptes hic hno ⊢
  have huse := State.useXlats_translates c.core c.vf kFetch xs s
  have hmarks := useXlats_marks s c.core c.vf xs
  generalize hs1 : s.useXlats c.core c.vf kFetch xs = s1 at huse hmarks
  have hcore : ∀ {α : Type} (f : Core → α), (∀ y : Core, f { y with tlb := [] } = f y) → f (s1.core c.core) = f (s.core c.core) :=
    fun f hf => (hf _).symm.trans ((congrArg f (huse.core c.core)).trans (hf _))
  have habs1 : s1.absent (x.pa a) = false := by
    rw [State.absent, huse.board]
    exact habs
  have hloop1 : ((s1.core c.core).quad c.gang.quad).loopWord c.vf a = none :=
    (hcore (fun y => (y.quad c.gang.quad).loopWord c.vf a) fun _ => rfl).trans hloop
  have hic1 : ∀ l ∈ (s1.core c.core).icache, l.num ≠ x.pa a / 256 := hcore Core.icache (fun _ => rfl) ▸ hic
  have hno1 : s1.NoCopy (c.core / 64) (x.pa a / 256) := fun l hl => hno l (huse.remote _ ▸ hl)
  have hbytes : Memory.bytes s1.mem (x.pa a) 4 = Memory.bytes s.mem (x.pa a) 4 :=
    huse.bytes hptes
  obtain ⟨hword, f, hfill⟩ := fillICache_word (vf := c.vf) (leaf := x.leaf) h4 hic1 hno1
  have hself : s.WrittenIn c.core (s.written c.core) := fun _ h => h
  have hmoves := State.Moves.fillRemote (huse.writtenIn hself) (c.core / 64) c.vf (x.pa a / 256)
    (sectorMask (x.pa a % 256) 1) x.leaf
  rw [hbytes] at hword
  generalize hs2 : s1.fillRemote (c.core / 64) c.vf (x.pa a / 256) (sectorMask (x.pa a % 256) 1) x.leaf = s2 at hfill hmoves
  have hstep := hmoves.step.trans (s2.modCore_modQuad_step c.core c.gang.quad f
    fun q => q.keepWord c.vf a (BitVec.ofNat 32 (ofBytes (Memory.bytes s.mem (x.pa a) 4))))
  refine ⟨_, ?_, hstep.teams.trans huse.teams, hstep.cur.trans huse.cur, hstep.turn.trans huse.turn, hstep.vfs.trans huse.vfs,
    hstep.grids.trans huse.grids, hstep.tick.trans huse.tick, fun b hb => ?_⟩
  · simp only [Ctx.fetch, hcanon, Bool.not_true, Bool.false_eq_true, if_false, htr, hs1, hx, habs1, hloop1, hword]
    rw [hfill]
  · rw [State.mem_modCore_modQuad, hmoves.mem b hb]
    exact (hmarks b).elim .inl fun h => .inr (.inl h)

/-! ### The fragment in hand -/

/-- A change that leaves the value of a listed key. -/
theorem SMap.modify_eq_self {α : Type} {m : SMap α} {k : Nat} {x : α} {f : α → α} (hm : SMap.wf m = true) (hx : SMap.get? m k = some x)
    (hf : f x = x) : SMap.modify m k f = m := by
  refine (List.map_congr_left fun p hp => ?_).trans (List.map_id m)
  obtain ⟨j, y⟩ := p
  dsimp only
  split
  · next h =>
    subst h
    have hy : y = x := Option.some.inj ((SMap.get?_of_mem m hm _ hp).symm.trans hx)
    rw [hy, hf]
    rfl
  · rfl

theorem SMap.mem_of_get? {α : Type} {m : SMap α} {k : Nat} {x : α} (h : SMap.get? m k = some x) : (k, x) ∈ m := by
  induction m with
  | nil => cases h
  | cons p m ih =>
    obtain ⟨j, y⟩ := p
    rw [SMap.get?] at h
    split at h
    · next hj =>
      cases h
      rw [hj]
      exact List.mem_cons_self
    · exact List.mem_cons_of_mem _ (ih h)

/-- A value set that stands there. -/
theorem SMap.set_eq_self {α : Type} {m : SMap α} {k : Nat} {x : α} (hm : SMap.wf m = true) (hx : SMap.get? m k = some x) :
    SMap.set m k x = m := by
  induction m with
  | nil => cases hx
  | cons p m ih =>
    obtain ⟨j, y⟩ := p
    obtain ⟨hrest, hlt⟩ := (SMap.wf_cons j y m).1 hm
    rw [SMap.get?] at hx
    rw [SMap.set]
    by_cases hj : j = k
    · rw [if_pos hj] at hx
      cases hx
      rw [if_pos hj.symm, hj]
    · rw [if_neg hj] at hx
      have hkey : j < k := hlt _ (SMap.mem_of_get? hx)
      rw [if_neg (Ne.symm hj), if_neg (Nat.lt_asymm hkey), ih hrest hx]

/-- A fragment that is left as it is leaves the state. -/
theorem modFrag_eq_self {f : Fragment → Fragment} (hc : s.ctx? = some c) (hteams : SMap.wf s.teams = true)
    (hgangs : SMap.wf c.team.gangs = true) (hentries : SMap.wf c.gang.entries = true) (hf : f c.frag = c.frag) :
    s.modFrag c.ref f = s := by
  obtain ⟨hteam, hgang, hfrag, -⟩ := ctx?_spec hc
  have hgangs' : SMap.get? c.team.gangs c.ref.gang = some c.gang := by
    rw [State.gang?, hteam] at hgang
    exact hgang
  have hset : c.gang.setFrag c.ref.frag c.frag = c.gang := by
    rw [Gang.setFrag, SMap.set_eq_self hentries (Gang.get?_of_frag? hfrag)]
  unfold State.modFrag State.modGang State.modTeam
  rw [SMap.modify_eq_self hteams hteam]
  rw [SMap.modify_eq_self hgangs hgangs']
  rw [hfrag]
  dsimp only
  rw [hf, hset]

/-- A fragment in hand that waits for nothing runs the instruction that its word decodes to (R29, R37). -/
theorem fetchUnit_of_word {s0 t : State} {r : Ref} {w : IWord} {i : Instr} (h0 : { s with cur := r, turn := none } = s0)
    (hc : s0.ctx? = some c) (hteams : SMap.wf s0.teams = true) (hgangs : SMap.wf c.team.gangs = true)
    (hentries : SMap.wf c.gang.entries = true) (hf : c.fetch s0 c.at.toNat = .word t w) (hd : decode w = .ok i) :
    s.fetchUnit r = .run i t := by
  obtain ⟨-, hgang, hfrag, hwait, hcur, -⟩ := ctx?_spec hc
  have hr : c.ref = r := hcur.trans (by rw [← h0])
  have hself (f : Fragment → Fragment) (hf : f c.frag = c.frag) : s0.modFrag r f = s0 := hr ▸ modFrag_eq_self hc hteams hgangs hentries hf
  have hwaitOf : s0.waitOf r = none := by
    rw [hr] at hgang hfrag
    rw [State.waitOf, hgang, Option.bind_some, hfrag, Option.bind_some, hwait]
  unfold State.fetchUnit
  simp only [h0, hwaitOf]
  rw [hself _ (by rw [hwait])]
  simp only [hc, hf, hd]

end

/-! ### Time -/

/-- The budgets of teams alone count down (R312). -/
theorem advance_teams (t : State) :
    (∀ n, (t.advance.team? n).map (fun x => { x with budget := none }) = (t.team? n).map fun x => { x with budget := none }) ∧
    ∀ n x y, t.team? n = some x → t.advance.team? n = some y → (x.budget = none → y.budget = none) ∧
      ∀ b, x.budget = some b → ∃ e, y.budget = some e ∧ e ≤ b := by
  have hteam (n : Nat) : t.advance.team? n =
      (t.team? n).map fun x => { x with budget := x.budget.map fun b => b - Config.stepNs (x.core / 64) t.tick } :=
    SMap.get?_mapVals t.teams n fun _ x => { x with budget := x.budget.map fun b => b - Config.stepNs (x.core / 64) t.tick }
  refine ⟨fun n => ?_, fun n x y hx hy => ?_⟩
  · rw [hteam, Option.map_map]
    rfl
  · rw [hteam, hx, Option.map_some] at hy
    cases hy
    refine ⟨fun h => by rw [h]; rfl, fun b hb => ⟨b - Config.stepNs (x.core / 64) t.tick, by rw [hb]; rfl, Nat.sub_le ..⟩⟩

/-- A die after a cycle (R14, R145). -/
def Die.passed (x : Die) (d tick : Nat) : Die :=
  { x with
    cycle := x.cycle + 1 + Config.stepCycles d tick
    ref := x.ref + Config.stepNs d tick
    tasks := SMap.mapVals x.tasks fun _ t => { t with budget := t.budget.map fun n => n - Config.stepNs t.home tick } }

theorem die_advance (t : State) (d : Nat) : t.advance.die d = if d < 4 then (t.die d).passed d t.tick else t.die d := by
  have hfold := SMap.get?_foldl_set (fun d (x : Option Die) => (x.getD Die.reset).passed d t.tick) (List.range 4) List.nodup_range t.dies d
  have hdie : t.advance.die d = (SMap.get? ((List.range 4).foldl (fun m i => SMap.set m i (((SMap.get? m i).getD Die.reset).passed i t.tick))
    t.dies) d).getD Die.reset := rfl
  rw [hdie, hfold]
  by_cases hd : d < 4
  · rw [if_pos (List.mem_range.2 hd), if_pos hd]
    rfl
  · rw [if_neg fun h => hd (List.mem_range.1 h), if_neg hd]
    rfl

/-- The counters of a die rise, and the budgets of its tasks count down. -/
theorem advance_die (t : State) (d : Nat) :
    { t.advance.die d with cycle := 0, ref := 0, tasks := [] } = { t.die d with cycle := 0, ref := 0, tasks := [] } ∧
      (d < 4 → (t.die d).cycle < (t.advance.die d).cycle) ∧ (t.die d).ref ≤ (t.advance.die d).ref := by
  rw [die_advance]
  by_cases hd : d < 4
  · rw [if_pos hd]
    exact ⟨rfl, fun _ => Nat.lt_of_lt_of_le (Nat.lt_succ_self _) (Nat.le_add_right ..), Nat.le_add_right ..⟩
  · rw [if_neg hd]
    exact ⟨rfl, fun h => absurd h hd, Nat.le_refl _⟩

/-- Settles O56: the fetch reads the home slice, as no other level holds the line, and changes no team; time passes on dies 0 to 3. -/
theorem stepRunsDecodedInstruction : Obligations.StepRunsDecodedInstruction := by
  unfold Obligations.StepRunsDecodedInstruction
  refine ⟨fun s r c i xs hturn hc hteams hgangs hentries => ?_, fun t => ?_⟩
  · intro a pa hloop hcanon htr habs h4 hptes hic hrem hdecode
    have hcanonical : canonical a = true := by
      have hlt := c.at.isLt
      rw [canonical, Bool.or_eq_true, decide_eq_true_iff, decide_eq_true_iff]
      omega
    obtain ⟨t, hfetch, hteams', hcur', hturn', hvfs, hgrids, htick, hmarked⟩ :=
      fetch_word (s := { s with cur := r, turn := none }) hcanonical htr hloop habs h4 hptes hic hrem
    have hrun := fetchUnit_of_word rfl hc hteams hgangs hentries hfetch hdecode
    refine ⟨t, ?_, ?_, hturn', hteams', hvfs, hgrids, htick, hmarked⟩
    · unfold step
      rw [hturn]
      dsimp only
      unfold issue
      rw [hrun]
    · rw [State.ctx?, State.team?, hteams', hcur']
      exact hc
  · obtain ⟨hteam, hbudget⟩ := advance_teams t
    refine ⟨t.advance, rfl, rfl, rfl, rfl, rfl, rfl, rfl, rfl, rfl, rfl, hteam, hbudget, fun d => ?_⟩
    exact advance_die t d

end Sys2Proof.Machine
end

section
/-! PROOFS. The refutation of O43: an element store in a package whose number no physical address holds (R41, R82, R376). -/

namespace Sys2Proof.Machine

/-! ### A package number above 63

The model does not bound the package's number, and a physical address has six bits of it: of package 64, a slab's address names package 0,
which is absent where the domain does not hold it, and its stores are dropped. -/

/-- An array of four elements of 8 bytes in slab 3. -/
def farArray : EArray := ⟨1, 0, 0, 0, 1, 0, [(3, 4)], [], [], []⟩

/-- A fragment of 16 lanes. -/
def farFragment : Fragment := .start 0x100 (fullMask 16) none false

/-- A gang of 16 lanes: its s4 is the array's handle, and its vector registers are zero. -/
def farGang : Gang := { Gang.start { loadKernel with width := 16 } 0x100 0 0 0 16 with
  sregs := [(4, 0x40000)]
  entries := [(0, .frag farFragment)] }

/-- The gang's team. -/
def farTeam : Team := { Team.start (.grid 1) 0 { loadKernel with width := 16 } 0 with gangs := [(0, farGang)] }

/-- The context of the gang's fragment. -/
def farCtx : Ctx := ⟨⟨0, 0, 0⟩, farTeam, farGang, farFragment⟩

/-- A context with a pool of 16 slabs at 0x200000 of die 0 that holds the array, and no dirty bitmap. -/
def farVf : Vf := { (Vf.reset.setCfg 192 8 0x200000).setCfg 200 8 16 with
  arrays := [(0, farArray)]
  arrGen := [(0, 1)]
  slabs := [(0, [3])] }

/-- Package 64 of an empty domain: the first byte of the array is 9, and no cache holds a line. -/
def farState : State := { State.reset with
  board := { State.reset.board with pkg := 64, domain := 0 }
  mem := [(64 * 2 ^ 46 + 0x203000, 9)]
  teams := [(0, farTeam)]
  cur := ⟨0, 0, 0⟩
  turn := some ⟨0, 0, 0⟩
  vfs := [(0, farVf)] }

/-- The store of zero to rank 0 by every lane. -/
abbrev farStore : Instr := .est 0 13 4 13 0

theorem farStore_runs : Runs farStore farState farCtx where
  ctx := by decide +kernel
  gate := by decide +kernel
  budget := by decide +kernel

/-- No cache holds a line. -/
theorem farState_no_line (l : Line) : ¬ (l ∈ (farState.core 0).l1 ∨ ∃ d, l ∈ (farState.die d).remote) := by
  rintro (hl | ⟨d, hd⟩)
  · cases (by decide +kernel : (farState.core 0).l1 = []) ▸ hl
  · cases (rfl : (farState.die d).remote = []) ▸ hd

theorem farArray_sound : ArraySound farState 0 0 farArray where
  size := by decide
  pool := by decide +kernel
  own := by decide
  leaves := by decide +kernel
  clean k b _ _ _ := ⟨fun ⟨l, hl, _⟩ => farState_no_line l hl,
    fun n h => absurd (by decide +kernel : (farState.vf 0).cfg 288 8 = 0) h⟩

/-- The checks of the store pass. -/
theorem farStore_access : farCtx.eaAccess (farCtx.counted farState) true 0 13 4 13 false = .ok farArray := by
  rfl

/-- Whether the array's first element holds zero after a step. -/
def firstElementCleared : Out → Bool
  | .next t => (elements t 0 farArray).head? == some (List.replicate 8 0)
  | _ => false

theorem farStore_dropped : firstElementCleared (exec farStore farState) = false := by
  decide +kernel

theorem farStore_replaces : ((farCtx.lanes 0).foldl (fun es l => es.set (farCtx.v 13 l).toNat (toBytes (farCtx.v 13 l).toNat 8))
    (elements farState 0 farArray)).head? = some (List.replicate 8 0) := by
  decide +kernel

/-- Refutes O43: in package 64 of a domain without package 0 the stores of `est` go to addresses of package 0 and are dropped, so that they
do not replace the array's elements. -/
theorem not_elasticAccess : ¬ Obligations.ElasticAccess := by
  unfold Obligations.ElasticAccess
  rintro ⟨haccess, -⟩
  obtain ⟨-, -, -, hstore, -⟩ := haccess 0 13 4 13 0 0 farState farCtx farArray
  obtain ⟨t, -, hexec, -, -, -, -, -, -, happart⟩ := hstore farStore_runs rfl farStore_access
  have hrlb : ∀ e ∈ (farState.core farCtx.core).rlb, ¬ (e.vf = farCtx.vf ∧ e.handle = farCtx.s 4) := by decide +kernel
  obtain ⟨-, helements⟩ := happart ⟨farArray_sound, hrlb, fun l _ hl _ => absurd hl (farState_no_line l)⟩
  have hcleared : firstElementCleared (exec farStore farState) = true := by
    rw [hexec, firstElementCleared, beq_iff_eq, ← farStore_replaces]
    exact congrArg List.head? helements
  exact Bool.false_ne_true (farStore_dropped.symm.trans hcleared)

end Sys2Proof.Machine
end

section
/-! PROOFS. What the shared steps of an array operation can do (R78, R79, R82, R83, R381): slabs that are written and marked, lookaside
entries that are dropped, and the release and acquire at the bound scope. -/

namespace Sys2Proof.Machine

/-! ### Slabs -/

/-- A change of every value that leaves the default as it is. -/
theorem SMap.getD_mapVals {α : Type} (m : SMap α) (k : Nat) (f : Nat → α → α) (d : α) (hd : f k d = d) :
    SMap.getD (SMap.mapVals m f) k d = f k (SMap.getD m k d) := by
  rw [SMap.getD, SMap.get?_mapVals, SMap.getD]
  cases SMap.get? m k with
  | none => exact hd.symm
  | some x => rfl

/-- The remote lines of a die without those of a slab that hold no written byte. -/
def dropSlabLines (addr : Nat) (ls : List Line) : List Line :=
  ls.filterMap fun l =>
    if addr / 256 ≤ l.num ∧ l.num < addr / 256 + 16 then (if l.dirty = 0 then none else some l.discard) else some l

theorem mem_dropSlabLines {addr : Nat} {ls : List Line} {l : Line} (h : l ∈ dropSlabLines addr ls) : ∃ m ∈ ls, l = m ∨ l = m.discard := by
  obtain ⟨m, hm, he⟩ := List.mem_filterMap.1 h
  refine ⟨m, hm, ?_⟩
  split at he
  · split at he
    · cases he
    · exact .inr (Option.some.inj he).symm
  · exact .inl (Option.some.inj he).symm

theorem State.die_dropSlab (s : State) (addr d : Nat) :
    (s.dropSlab addr).die d = { s.die d with remote := dropSlabLines addr (s.die d).remote } :=
  SMap.getD_mapVals s.dies d (fun _ x => { x with remote := dropSlabLines addr x.remote }) Die.reset rfl

section
variable {core vf die : Nat} {P : Nat → Prop} {s t u : State}

theorem State.Moves.dropSlab (hs : s.WrittenIn core P) (addr : Nat) : s.Moves core P (s.dropSlab addr) := by
  obtain ⟨h1, h2⟩ := (s.writtenIn_iff core P).1 hs
  refine ⟨⟨rfl, rfl, rfl, rfl, rfl, rfl, rfl, rfl, rfl, rfl, rfl, rfl, id⟩, fun _ => rfl, fun d => ?_, fun _ _ => rfl,
    (State.writtenIn_iff ..).2 ⟨h1, fun d l hl => ?_⟩⟩
  · rw [State.die_dropSlab]
    rfl
  · rw [State.die_dropSlab] at hl
    obtain ⟨m, hm, rfl | rfl⟩ := mem_dropSlabLines hl
    · exact h2 d l hm
    · exact (h2 d m hm).of_dirty_le rfl fun _ => id

/-- The byte of the bitmap of R381 that holds a slab's bit. -/
def State.bitmapByte (s : State) (vf die n : Nat) : Nat := (s.vf vf).cfg 288 8 + (s.vf vf).slabBit die n / 8

theorem State.Moves.markSlab (hs : s.WrittenIn core P) (n : Nat) (hP : (s.vf vf).cfg 288 8 ≠ 0 → P (s.bitmapByte vf die n)) :
    s.Moves core P (s.markSlab vf die n) := by
  unfold State.markSlab
  dsimp only
  split
  · exact .refl hs
  · next hbase =>
    split
    · refine .setMem hs _ (fun hw => ZMap.wf_set _ _ _ hw) fun b hb => ZMap.get_set_ne _ _ _ _ fun e => hb (e ▸ hP hbase)
    · exact .event hs ..

/-- Where a slab's elements are written: 4 KiB from its address, or as many bytes as they take. -/
theorem State.Moves.writeLeaf (hs : s.WrittenIn core P) (x : Nat × List (List Byte) × Bool)
    (hP : x.2.2 = true → ∀ b, s.slabAddr vf die x.1 ≤ b → b < s.slabAddr vf die x.1 + x.2.1.flatten.length → P b)
    (hmark : (s.vf vf).cfg 288 8 ≠ 0 → P (s.bitmapByte vf die x.1)) : s.Moves core P (s.writeLeaf vf die x) := by
  unfold State.writeLeaf
  dsimp only
  split
  · next hw =>
    have hstore : s.Moves core P { s with mem := Memory.store s.mem (s.slabAddr vf die x.1) (x.2.1.flatMap id) } := by
      refine .setMem hs _ (Memory.wf_store _ _ _) fun b hb => Memory.get_store_outside _ _ _ _ ?_
      rw [List.flatMap_id]
      by_contra h
      exact hb (hP hw b (by omega) (by omega))
    have hdrop := hstore.trans (.dropSlab hstore.within (s.slabAddr vf die x.1))
    exact hdrop.trans (.markSlab hdrop.within x.1 hmark)
  · exact .dropSlab hs _

/-- What the place of slabs and of the bitmap rests on. -/
structure State.SamePools (s t : State) (vf : Nat) : Prop where
  board : t.board = s.board
  block : (t.vf vf).block = (s.vf vf).block

theorem State.CacheStep.samePools (h : s.CacheStep t) (vf : Nat) : s.SamePools t vf := ⟨h.board, by rw [h.vf]⟩

theorem State.SamePools.slabPool (h : s.SamePools t vf) (d : Nat) : (t.vf vf).slabPool d = (s.vf vf).slabPool d := by
  simp only [Vf.slabPool, Vf.cfg, h.block]

theorem State.SamePools.slabAddr (h : s.SamePools t vf) (d n : Nat) : t.slabAddr vf d n = s.slabAddr vf d n := by
  simp only [State.slabAddr, h.board, h.slabPool]

theorem State.SamePools.cfg (h : s.SamePools t vf) (o n : Nat) : (t.vf vf).cfg o n = (s.vf vf).cfg o n := by
  simp only [Vf.cfg, h.block]

theorem State.SamePools.slabBit (h : s.SamePools t vf) (d n : Nat) : (t.vf vf).slabBit d n = (s.vf vf).slabBit d n := by
  simp only [Vf.slabBit, h.slabPool]

theorem State.SamePools.bitmapByte (h : s.SamePools t vf) (d n : Nat) : t.bitmapByte vf d n = s.bitmapByte vf d n := by
  simp only [State.bitmapByte, h.cfg, h.slabBit]

/-- Leaves are written in turn. -/
def State.writeLeaves (s : State) (vf die : Nat) (leaves : List (Nat × List (List Byte) × Bool)) : State :=
  leaves.foldl (fun s x => s.writeLeaf vf die x) s

/-- Slabs are marked in turn. -/
def State.markSlabs (s : State) (vf die : Nat) (nodes : List Nat) : State := nodes.foldl (fun s n => s.markSlab vf die n) s

/-- The leaves and nodes of an array as its change writes and marks them. -/
def State.storeTree (s : State) (vf die : Nat) (leaves : List (Nat × List (List Byte) × Bool)) (nodes : List Nat) : State :=
  (s.writeLeaves vf die leaves).markSlabs vf die nodes

theorem State.writeLeaves_cons (s : State) (vf die : Nat) (x : Nat × List (List Byte) × Bool) (xs : List (Nat × List (List Byte) × Bool)) :
    s.writeLeaves vf die (x :: xs) = (s.writeLeaf vf die x).writeLeaves vf die xs := by
  rw [State.writeLeaves, List.foldl_cons, State.writeLeaves]

theorem State.markSlabs_cons (s : State) (vf die n : Nat) (ns : List Nat) :
    s.markSlabs vf die (n :: ns) = (s.markSlab vf die n).markSlabs vf die ns := by
  rw [State.markSlabs, List.foldl_cons, State.markSlabs]

theorem State.Moves.writeLeaves (hs : s.WrittenIn core P) (leaves : List (Nat × List (List Byte) × Bool))
    (hP : ∀ x ∈ leaves, x.2.2 = true → ∀ b, s.slabAddr vf die x.1 ≤ b → b < s.slabAddr vf die x.1 + x.2.1.flatten.length → P b)
    (hmark : ∀ n, (s.vf vf).cfg 288 8 ≠ 0 → P (s.bitmapByte vf die n)) : s.Moves core P (s.writeLeaves vf die leaves) := by
  induction leaves generalizing s with
  | nil => exact .refl hs
  | cons x xs ih =>
    have h1 := State.Moves.writeLeaf hs x (hP x List.mem_cons_self) (hmark x.1)
    have hp := h1.step.samePools vf
    rw [State.writeLeaves_cons]
    refine h1.trans (ih h1.within (fun y hy hw b hlo hhi => ?_) fun n hn => ?_)
    · rw [hp.slabAddr] at hlo hhi
      exact hP y (List.mem_cons_of_mem _ hy) hw b hlo hhi
    · rw [hp.bitmapByte]
      exact hmark n (hp.cfg 288 8 ▸ hn)

theorem State.Moves.markSlabs (hs : s.WrittenIn core P) (nodes : List Nat)
    (hmark : ∀ n, (s.vf vf).cfg 288 8 ≠ 0 → P (s.bitmapByte vf die n)) : s.Moves core P (s.markSlabs vf die nodes) := by
  induction nodes generalizing s with
  | nil => exact .refl hs
  | cons n ns ih =>
    have h1 := State.Moves.markSlab (vf := vf) (die := die) hs n (hmark n)
    have hp := h1.step.samePools vf
    rw [State.markSlabs_cons]
    refine h1.trans (ih h1.within fun k hk => ?_)
    rw [hp.bitmapByte]
    exact hmark k (hp.cfg 288 8 ▸ hk)

theorem State.Moves.storeTree (hs : s.WrittenIn core P) (leaves : List (Nat × List (List Byte) × Bool)) (nodes : List Nat)
    (hP : ∀ x ∈ leaves, x.2.2 = true → ∀ b, s.slabAddr vf die x.1 ≤ b → b < s.slabAddr vf die x.1 + x.2.1.flatten.length → P b)
    (hmark : ∀ n, (s.vf vf).cfg 288 8 ≠ 0 → P (s.bitmapByte vf die n)) : s.Moves core P (s.storeTree vf die leaves nodes) := by
  have h1 := State.Moves.writeLeaves hs leaves hP hmark
  have hp := h1.step.samePools vf
  refine h1.trans (.markSlabs h1.within nodes fun k hk => ?_)
  rw [hp.bitmapByte]
  exact hmark k (hp.cfg 288 8 ▸ hk)

/-- No lookaside buffer changes where the caches alone move. -/
theorem State.Moves.rlb (h : s.Moves core P t) (n : Nat) : (t.core n).rlb = (s.core n).rlb := by
  change (t.core n).still.rlb = (s.core n).still.rlb
  rw [h.cores n]

end

/-! ### Lookaside buffers -/

/-- A core but for its lookaside buffer. -/
theorem State.core_dropRlb (s : State) (vf : Nat) (h : Word) (cores : BitVec 256) (n : Nat) :
    ∃ rs, (s.dropRlb vf h cores).core n = { s.core n with rlb := rs } := by
  have hcore := SMap.getD_mapVals s.cores n (fun n x => if bit (cores ||| ((s.array? vf h).map fun x => s.arrayCores vf x.2).getD 0) n then
    { x with rlb := x.rlb.filter fun e => !(decide (e.vf = vf) && decide (e.handle = h)) } else x) Core.reset (by split <;> rfl)
  by_cases hb : bit (cores ||| ((s.array? vf h).map fun x => s.arrayCores vf x.2).getD 0) n
  · exact ⟨_, hcore.trans (if_pos hb)⟩
  · exact ⟨_, hcore.trans (if_neg hb)⟩

theorem arrayLoose_caches : arrayLoose.Caches := ⟨fun _ _ _ => rfl, fun _ => rfl, fun _ => rfl⟩

section
variable {c : Ctx} {s t u : State} {l : Loose} {P : Nat → Prop} {g : Gang}

theorem Ctx.Kept.modVf (h : c.Kept s t l) (v : Nat) (f : Vf → Vf) (hf : ∀ x, l.vf (f x) = l.vf x) : c.Kept s (t.modVf v f) l := by
  refine ⟨h.rest, h.cores, h.quads, h.dies, fun w => ?_, h.teams, h.gangs, h.shell⟩
  rw [State.vf_modVf]
  split
  · next e => rw [hf, e]; exact h.vfs _
  · exact h.vfs w

theorem Ctx.Accesses.modVf (h : c.Accesses s l P g t) (v : Nat) (f : Vf → Vf) (hf : ∀ x, l.vf (f x) = l.vf x) :
    c.Accesses s l P g (t.modVf v f) := ⟨h.kept.modVf v f hf, h.gang, h.mem, h.within⟩

theorem Ctx.Accesses.dropRlb (h : c.Accesses s arrayLoose P g t) (vf : Nat) (hd : Word) (cores : BitVec 256) :
    c.Accesses s arrayLoose P g (t.dropRlb vf hd cores) := by
  have hcore := t.core_dropRlb vf hd cores
  refine ⟨⟨h.kept.rest, fun n => ?_, fun n q => ?_, h.kept.dies, h.kept.vfs, h.kept.teams, h.kept.gangs, h.kept.shell⟩, h.gang, h.mem, ?_⟩
  · obtain ⟨rs, hrs⟩ := hcore n
    rw [hrs]
    exact h.kept.cores n
  · obtain ⟨rs, hrs⟩ := hcore n
    rw [hrs]
    exact h.kept.quads n q
  · obtain ⟨h1, h2⟩ := (t.writtenIn_iff c.core P).1 h.within
    refine (State.writtenIn_iff ..).2 ⟨?_, h2⟩
    obtain ⟨rs, hrs⟩ := hcore c.core
    rw [hrs]
    exact h1

/-- The unacknowledged accesses that a release at the bound scope leaves (R83, R267). -/
def Gang.ordered (g : Gang) (st : Bool) (l : Latched) : Gang := { g with unacked := if st = true ∧ l.level ≠ 0 then 0 else g.unacked }

theorem Gang.ordered_true (g : Gang) (l : Latched) : g.ordered true l = if l.level = 0 then g else { g with unacked := 0 } := by
  unfold Gang.ordered
  split
  · next h => rw [if_neg h.2]
  · next h => rw [if_pos (by simpa using h)]

/-- The release and acquire of an operation move the caches and change the count of unacknowledged accesses alone. -/
theorem Ctx.Accesses.eaOrder (h : c.Accesses s l P g t) (hl : l.Caches) (la : Latched) (st : Bool) :
    c.Accesses s l P (g.ordered st la) (c.eaOrder la st t) := by
  unfold Ctx.eaOrder
  cases st with
  | false =>
    have hsame : g.ordered false la = g := rfl
    rw [hsame]
    exact h.moves hl (.discardAt h.within ..)
  | true =>
    have hdrain := h.moves hl (State.Moves.drainAt h.within la.level la.dies)
    have hmod := hdrain.modG fun x => if la.level = 0 then x else { x with unacked := 0 }
    rw [Gang.ordered_true]
    exact hmod.moves hl (.discardAt hmod.within ..)

theorem eaOrder_vfs (c : Ctx) (la : Latched) (st : Bool) (t : State) : (c.eaOrder la st t).vfs = t.vfs := by
  have hany (t : State) : t.WrittenIn c.core fun _ => True := fun _ _ => trivial
  unfold Ctx.eaOrder
  refine (State.Moves.discardAt (hany _) la.level la.dies).step.vfs.trans ?_
  cases st with
  | false => rfl
  | true => exact (State.Moves.drainAt (hany t) la.level la.dies).step.vfs

theorem eaOrder_rlb (c : Ctx) (la : Latched) (st : Bool) (t : State) (n : Nat) : ((c.eaOrder la st t).core n).rlb = (t.core n).rlb := by
  have hany (t : State) : t.WrittenIn c.core fun _ => True := fun _ _ => trivial
  unfold Ctx.eaOrder
  refine ((State.Moves.discardAt (hany _) la.level la.dies).rlb n).trans ?_
  cases st with
  | false => rfl
  | true => exact (State.Moves.drainAt (hany t) la.level la.dies).rlb n

theorem eaOrder_vf (c : Ctx) (la : Latched) (st : Bool) (t : State) (v : Nat) : (c.eaOrder la st t).vf v = t.vf v := by
  rw [State.vf, eaOrder_vfs, State.vf]

end

end Sys2Proof.Machine
end

section
/-! PROOFS. An operation of the Rank Tree Unit of the own die: its completion, its checks, and the bytes that it may reach (R71, R83, R84). -/

namespace Sys2Proof.Machine

/-! ### Checks -/

section
variable {ε α β : Type}

theorem Except.ok_bind (x : α) (f : α → Except ε β) : (Except.ok x >>= f) = f x := rfl

theorem Except.bind_eq_ok {m : Except ε α} {f : α → Except ε β} {y : β} : (m >>= f) = .ok y ↔ ∃ x, m = .ok x ∧ f x = .ok y := by
  cases m with
  | error e => exact ⟨fun h => (by cases h), fun ⟨_, h, _⟩ => (by cases h)⟩
  | ok x => exact ⟨fun h => ⟨x, rfl, h⟩, fun ⟨_, h, k⟩ => (by cases h; exact k)⟩

end

section
variable {c : Ctx} {t : State} {l : Latched} {h r : Word}

theorem require_eq_ok {b : Bool} {fi : FaultInfo} {x : Unit} : require b fi = .ok x ↔ b = true := by
  cases b <;> simp [require]

theorem eaStaged_eq_ok {x : Unit} : c.eaStaged h r = .ok x ↔ c.team.staged = false := by
  unfold Ctx.eaStaged
  cases c.team.staged <;> simp

theorem eaArray_eq_ok {x : Nat × EArray} : c.eaArray t h r = .ok x ↔ t.array? c.vf h = some x := by
  unfold Ctx.eaArray
  cases t.array? c.vf h <;> simp

theorem eaScope_eq_ok {x : Unit} : c.eaScope l h r = .ok x ↔ bit l.cores c.core = true := by
  unfold Ctx.eaScope
  cases bit l.cores c.core <;> simp

theorem eaAnchor_eq_ok {tok : Word} {i id : Nat} : c.eaAnchor t tok i h r = .ok id ↔ t.anchor? c.vf tok = some (id, .live i) := by
  unfold Ctx.eaAnchor
  split
  · next k j heq =>
    rw [heq]
    split
    · next hij => subst hij; simp
    · next hij => simp; exact fun _ => Ne.symm hij
  · next hno =>
    simp only [reduceCtorEq, false_iff]
    exact fun he => hno id i he

end

/-! ### Operations that change a tree -/

section
variable {c : Ctx} {t v : State} {l m : Latched} {sd sa sb : BitVec 5} {x : BitVec 6} {i : Nat} {a : EArray}

/-- The leaves and levels of an array after an insertion. -/
def Ctx.insertion (c : Ctx) (t : State) (a : EArray) (data : Bool) (x : BitVec 6) (n r : Nat) : List (Part (List Byte)) × List (List Nat) :=
  a.inserted (t.leafParts c.vf a) (t.leafLimit a) r ((List.range n).map (c.newElement a.esize data x))

/-- The state after an insertion that has passed its checks, but for its release and acquire. -/
def Ctx.insertedState (c : Ctx) (l : Latched) (t : State) (h : Word) (i : Nat) (a : EArray) (p : Nat × Nat) (ids : List Nat) (n : Nat)
    (q : List (Part (List Byte)) × List (List Nat)) : State :=
  ((t.modVf c.vf fun v => ids.foldl (fun v id => v.allocRun i id 1) v).reshape c.vf i (a.enter p ids n) a.slabs q.1 q.2).dropRlb c.vf h l.cores

/-- The place that an insertion names, where it names one (R73, R84). -/
def Ctx.eaPlace (c : Ctx) (t : State) (app : Bool) (sb : BitVec 5) (i : Nat) (a : EArray) (h rk : Word) : Except FaultInfo (Nat × Nat) :=
  if app then (do let id ← c.eaAnchor t (c.s sb) i h rk; return a.placeBefore id)
  else (do require (decide ((c.s sb).toNat ≤ a.len)) (eaFault cERANK 1 h rk); return a.place (c.s sb).toNat)

/-- An insertion at a place. -/
def Ctx.eaInsertAt (c : Ctx) (l : Latched) (t : State) (anc data : Bool) (sd : BitVec 5) (x : BitVec 6) (h rk : Word) (i : Nat) (a : EArray)
    (p : Nat × Nat) : Except FaultInfo State := do
  let n := (c.s sd).toNat
  require (decide (n + a.len ≤ maxElems) && !(data && decide (c.w < n))) (eaFault cERANK 2 h rk)
  require (!anc || decide (a.anchors.length < maxAnchors)) (eaFault cEQUOTA 3 h rk)
  if n = 0 then return c.setS (c.eaOrder l true t) sd (if anc then 0 else BitVec.ofNat 64 p.2)
  let run := if anc then (t.vf c.vf).findRun t.tick 1 else some 0
  require run.isSome (eaFault cEQUOTA 3 h rk)
  let q := c.insertion t a data x n p.2
  match t.slabCheck c.vf a.die (leafNeed q.1 + (nodeSlabs q.2 - a.nodes.length)) with
  | some r => throw (eaFault cEQUOTA r h rk)
  | none =>
    let w := c.insertedState l t h i a p (if anc then [run.getD 0] else []) n q
    return c.setS (c.eaOrder l true w) sd (if anc then (w.vf c.vf).token (run.getD 0) else BitVec.ofNat 64 p.2)

theorem eaInsert_eq (c : Ctx) (l : Latched) (t : State) (app anc data : Bool) (sd sa sb : BitVec 5) (x : BitVec 6) :
    eaInsert c l t app anc data sd sa sb x = (do
      let h := c.s sa
      let rk : Word := if app then 0 else c.s sb
      c.eaStaged h rk
      let (i, a) ← c.eaArray t h rk
      c.eaScope l h rk
      let p ← c.eaPlace t app sb i a h rk
      c.eaInsertAt l t anc data sd x h rk i a p) := by
  cases app
  · rfl
  · rfl

/-- The checks of R84 and R89, in their order, on an insertion. -/
structure Ctx.MayInsert (c : Ctx) (l : Latched) (t : State) (app anc data : Bool) (sd sa sb : BitVec 5) (i : Nat) (a : EArray) (p : Nat × Nat) :
    Prop where
  staged : c.team.staged = false
  array : t.array? c.vf (c.s sa) = some (i, a)
  scope : bit l.cores c.core = true
  place : if app = true then ∃ id, t.anchor? c.vf (c.s sb) = some (id, .live i) ∧ a.placeBefore id = p
    else (c.s sb).toNat ≤ a.len ∧ a.place (c.s sb).toNat = p
  room : (c.s sd).toNat + a.len ≤ maxElems
  data : data = true → (c.s sd).toNat ≤ c.w
  anchors : anc = true → a.anchors.length < maxAnchors

theorem eaPlace_eq_ok {app : Bool} {h rk : Word} {p : Nat × Nat} : c.eaPlace t app sb i a h rk = .ok p ↔
    if app = true then ∃ id, t.anchor? c.vf (c.s sb) = some (id, .live i) ∧ a.placeBefore id = p
    else (c.s sb).toNat ≤ a.len ∧ a.place (c.s sb).toNat = p := by
  cases app <;> simp [Ctx.eaPlace, Except.bind_eq_ok, eaAnchor_eq_ok, require_eq_ok, pure, Except.pure]

/-- An insertion that has passed its checks and comes to a state. -/
def Ctx.Inserts (c : Ctx) (l : Latched) (t : State) (anc data : Bool) (sd sa : BitVec 5) (x : BitVec 6) (i : Nat) (a : EArray) (p : Nat × Nat)
    (v : State) : Prop :=
  ((c.s sd).toNat = 0 ∧ c.setS (c.eaOrder l true t) sd (if anc then 0 else BitVec.ofNat 64 p.2) = v) ∨
  ((c.s sd).toNat ≠ 0 ∧ ∃ id, (if anc then (t.vf c.vf).findRun t.tick 1 else some 0) = some id ∧
    let q := c.insertion t a data x (c.s sd).toNat p.2
    t.slabCheck c.vf a.die (leafNeed q.1 + (nodeSlabs q.2 - a.nodes.length)) = none ∧
    let w := c.insertedState l t (c.s sa) i a p (if anc then [id] else []) (c.s sd).toNat q
    c.setS (c.eaOrder l true w) sd (if anc then (w.vf c.vf).token id else BitVec.ofNat 64 p.2) = v)

theorem eaInsertAt_eq_ok {anc data : Bool} {rk : Word} {p : Nat × Nat} : c.eaInsertAt l t anc data sd x (c.s sa) rk i a p = .ok v ↔
    (c.s sd).toNat + a.len ≤ maxElems ∧ (data = true → (c.s sd).toNat ≤ c.w) ∧ (anc = true → a.anchors.length < maxAnchors) ∧
      c.Inserts l t anc data sd sa x i a p v := by
  have hdata : (decide ((c.s sd).toNat + a.len ≤ maxElems) && !(data && decide (c.w < (c.s sd).toNat))) = true ↔
      (c.s sd).toNat + a.len ≤ maxElems ∧ (data = true → (c.s sd).toNat ≤ c.w) := by
    cases data <;> simp
  have hanc : (!anc || decide (a.anchors.length < maxAnchors)) = true ↔ (anc = true → a.anchors.length < maxAnchors) := by
    cases anc <;> simp
  simp only [Ctx.eaInsertAt, Ctx.Inserts, Except.bind_eq_ok, require_eq_ok, exists_const, hdata, hanc, and_assoc]
  refine and_congr_right fun _ => and_congr_right fun _ => and_congr_right fun _ => ?_
  by_cases hn : (c.s sd).toNat = 0
  · simp [hn, pure, Except.pure]
  · rw [if_neg hn]
    simp only [hn, false_and, false_or, not_false_eq_true, true_and, Except.bind_eq_ok, require_eq_ok, exists_const, ne_eq,
      Option.isSome_iff_exists]
    rw [← exists_and_right]
    refine exists_congr fun id => and_congr_right fun hid => ?_
    rw [hid]
    cases t.slabCheck c.vf a.die (leafNeed (c.insertion t a data x (c.s sd).toNat p.2).1 +
        (nodeSlabs (c.insertion t a data x (c.s sd).toNat p.2).2 - a.nodes.length)) with
    | none => simp [pure, Except.pure]
    | some r => simp [throw, throwThe, MonadExceptOf.throw]

theorem eaInsert_eq_ok {app anc data : Bool} : eaInsert c l t app anc data sd sa sb x = .ok v ↔
    ∃ i a p, c.MayInsert l t app anc data sd sa sb i a p ∧ c.Inserts l t anc data sd sa x i a p v := by
  rw [eaInsert_eq]
  simp only [Except.bind_eq_ok, eaArray_eq_ok, eaScope_eq_ok, eaStaged_eq_ok, eaPlace_eq_ok, Prod.exists, exists_const, eaInsertAt_eq_ok]
  constructor
  · rintro ⟨hst, i, a, harr, hsc, p1, p2, hp, hroom, hdata, hanc, h⟩
    exact ⟨i, a, p1, p2, ⟨hst, harr, hsc, hp, hroom, hdata, hanc⟩, h⟩
  · rintro ⟨i, a, p1, p2, ⟨hst, harr, hsc, hp, hroom, hdata, hanc⟩, h⟩
    exact ⟨hst, i, a, harr, hsc, p1, p2, hp, hroom, hdata, hanc, h⟩

/-- The array as a deletion of n elements at a rank leaves its anchors (R74, R90). -/
def EArray.leave (a : EArray) (r n : Nat) : EArray :=
  let dead := (a.anchors.filter fun x => decide (r < x.2) && decide (x.2 < r + n)).map Prod.fst
  { a with anchors := (a.anchors.filter fun x => !(dead.contains x.1)).map fun x => (x.1, if x.2 ≤ r then x.2 else x.2 - n)
           version := a.version + 1 }

/-- The anchors that a deletion of n elements at a rank kills. -/
def EArray.dying (a : EArray) (r n : Nat) : List Nat := (a.anchors.filter fun x => decide (r < x.2) && decide (x.2 < r + n)).map Prod.fst

/-- The state after a deletion that has passed its checks, but for its release and acquire. -/
def Ctx.deletedState (c : Ctx) (l : Latched) (t : State) (h : Word) (i : Nat) (a : EArray) (r n : Nat)
    (q : List (Part (List Byte)) × List (List Nat)) : State :=
  ((t.modVf c.vf fun v => { v with anchors := (a.dying r n).foldl (fun m id => SMap.set m id (.dead (some i))) v.anchors }).reshape
    c.vf i (a.leave r n) a.slabs q.1 q.2).dropRlb c.vf h l.cores

/-- A deletion that has passed its checks and comes to a state. -/
def Ctx.Deletes (c : Ctx) (l : Latched) (t : State) (sd sa sb : BitVec 5) (i : Nat) (a : EArray) (v : State) : Prop :=
  ((c.s sd).toNat = 0 ∧ c.setS (c.eaOrder l true t) sd (BitVec.ofNat 64 a.len) = v) ∨
  ((c.s sd).toNat ≠ 0 ∧ c.setS (c.eaOrder l true (c.deletedState l t (c.s sa) i a (c.s sb).toNat (c.s sd).toNat
    (a.deleted (t.leafParts c.vf a) (t.leafLimit a) (c.s sb).toNat (c.s sd).toNat))) sd (BitVec.ofNat 64 (a.len - (c.s sd).toNat)) = v)

theorem eaDelete_eq_ok : eaDelete c l t sd sa sb = .ok v ↔ c.team.staged = false ∧ ∃ i a, t.array? c.vf (c.s sa) = some (i, a) ∧
    bit l.cores c.core = true ∧ (c.s sb).toNat + (c.s sd).toNat ≤ a.len ∧ c.Deletes l t sd sa sb i a v := by
  simp only [eaDelete, Except.bind_eq_ok, eaArray_eq_ok, eaScope_eq_ok, eaStaged_eq_ok, require_eq_ok, decide_eq_true_eq, Prod.exists, exists_const,
    pure, Except.pure, Ctx.Deletes]
  refine and_congr_right fun _ => exists_congr fun i => exists_congr fun a => and_congr_right fun _ => and_congr_right fun _ =>
    and_congr_right fun _ => ?_
  by_cases hn : (c.s sd).toNat = 0
  · simp [hn]
  · rw [if_neg hn]
    simp only [hn, false_and, false_or, not_false_eq_true, true_and, ne_eq, Except.ok.injEq]
    rfl

/-- The levels above the leaves of a part of an array. -/
def EArray.above (a : EArray) (ps : List (Part (List Byte))) : List (List Nat) := upToRoot (shrinkLevels a.levels (ps.map Part.parent))

/-- The array as a split leaves its anchors, with some of its nodes (R76, R91). -/
def EArray.lower (a : EArray) (r k : Nat) : EArray :=
  { a with anchors := a.anchors.filter fun x => decide (x.2 < r), version := a.version + 1, nodes := a.nodes.take k }

/-- The array that a split makes, without its leaves, with the rest of the nodes (R76, R91). -/
def EArray.upper (a : EArray) (r k gen : Nat) : EArray :=
  { a with gen, version := 0, leaves := [], levels := [], nodes := a.nodes.drop k,
           anchors := (a.anchors.filter fun x => decide (r ≤ x.2)).map fun p => (p.1, p.2 - r) }

/-- The state after a split that has passed its checks, but for its release and acquire. -/
def Ctx.splitState (c : Ctx) (l : Latched) (t : State) (h : Word) (i : Nat) (a : EArray) (r j gen : Nat) (xs ys : List (Part (List Byte))) : State :=
  let k := nodeSlabs (a.above xs)
  let kept := ys.filterMap Part.slab ++ (a.upper r k gen).nodes
  let t := t.modVf c.vf fun v => { v with
    anchors := (a.anchors.filter fun x => decide (r ≤ x.2)).foldl (fun m p => SMap.set m p.1 (.live j)) v.anchors }
  let t := (t.reshape c.vf j (a.upper r k gen) kept ys (a.above ys)).reshape c.vf i (a.lower r k) (a.slabs.filter fun n => !(kept.contains n)) xs (a.above xs)
  if r = a.len then t else t.dropRlb c.vf h l.cores

/-- The parts of an array below a rank and from it, balanced. -/
def Ctx.halves (c : Ctx) (t : State) (a : EArray) (r : Nat) : List (Part (List Byte)) × List (Part (List Byte)) :=
  (balanced (t.leafLimit a) (splitParts (t.leafParts c.vf a) r).1, balanced (t.leafLimit a) (splitParts (t.leafParts c.vf a) r).2)

theorem eaSplit_eq_ok : eaSplit c l t sd sa sb = .ok v ↔ c.team.staged = false ∧ ∃ i a, t.array? c.vf (c.s sa) = some (i, a) ∧
    bit l.cores c.core = true ∧ (c.s sb).toNat ≤ a.len ∧
    let xs := (c.halves t a (c.s sb).toNat).1
    let ys := (c.halves t a (c.s sb).toNat).2
    t.slabCheck c.vf a.die (leafNeed ys + (nodeSlabs (a.above ys) - (a.nodes.length - nodeSlabs (a.above xs)))) = none ∧
    (t.vf c.vf).arrays.length < maxArrays ∧
    let j := ((t.vf c.vf).newIndex t.tick).1
    let gen := ((t.vf c.vf).newIndex t.tick).2
    c.setS (c.eaOrder l true (c.splitState l t (c.s sa) i a (c.s sb).toNat j gen xs ys)) sd ((a.upper (c.s sb).toNat 0 gen).handle j) = v := by
  simp only [eaSplit, Except.bind_eq_ok, eaArray_eq_ok, eaScope_eq_ok, eaStaged_eq_ok, require_eq_ok, decide_eq_true_eq, Prod.exists, exists_const]
  refine and_congr_right fun _ => exists_congr fun i => exists_congr fun a => and_congr_right fun _ => and_congr_right fun _ =>
    and_congr_right fun _ => ?_
  change (match t.slabCheck c.vf a.die (leafNeed (c.halves t a (c.s sb).toNat).2 + (nodeSlabs (a.above (c.halves t a (c.s sb).toNat).2) -
    (a.nodes.length - nodeSlabs (a.above (c.halves t a (c.s sb).toNat).1)))) with | some _ => _ | none => _) = _ ↔ _
  cases t.slabCheck c.vf a.die (leafNeed (c.halves t a (c.s sb).toNat).2 + (nodeSlabs (a.above (c.halves t a (c.s sb).toNat).2) -
      (a.nodes.length - nodeSlabs (a.above (c.halves t a (c.s sb).toNat).1)))) with
  | some q => simp [throw, throwThe, MonadExceptOf.throw, bind, Except.bind]
  | none =>
    simp only [true_and, Except.bind_eq_ok, require_eq_ok, exists_const, decide_eq_true_eq, pure, Except.pure]
    rw [Except.ok.injEq]
    rfl

/-- The leaves of two arrays joined, under their new parents, balanced. -/
def Ctx.joined (c : Ctx) (t : State) (x y : EArray) : List (Part (List Byte)) :=
  let parts := joinParts (t.leafParts c.vf x) (t.leafParts c.vf y)
  balanced (t.leafLimit x) (((List.range parts.length).zip parts).map fun p =>
    { p.2 with parent := parentOf ((x.catLevels y).head?.getD []) p.1 })

/-- The levels above the leaves of two arrays joined. -/
def EArray.joinedLevels (x y : EArray) (ps : List (Part (List Byte))) : List (List Nat) :=
  upToRoot (shrinkLevels (x.catLevels y) (ps.map Part.parent))

/-- The first array as a join leaves its anchors and nodes (R77, R91). -/
def EArray.cat (x y : EArray) : EArray :=
  { x with anchors := x.anchors ++ y.anchors.map (fun p => (p.1, p.2 + x.len)), nodes := x.nodes ++ y.nodes, version := x.version + 1 }

/-- The second array as a join leaves it: empty. -/
def EArray.emptied (y : EArray) : EArray := { y with leaves := [], levels := [], nodes := [], anchors := [], version := y.version + 1 }

/-- The state after a join that has passed its checks, but for its release and acquire. -/
def Ctx.joinedState (c : Ctx) (l m : Latched) (t : State) (h k : Word) (i j : Nat) (x y : EArray) (ps : List (Part (List Byte))) : State :=
  let t := t.modVf c.vf fun v => { v.setArray j y.emptied with anchors := y.anchors.foldl (fun m p => SMap.set m p.1 (.live i)) v.anchors }
  let t := t.reshape c.vf i (x.cat y) (x.slabs ++ y.slabs) ps (x.joinedLevels y ps)
  if y.leaves.isEmpty then t else (t.dropRlb c.vf h l.cores).dropRlb c.vf k m.cores

/-- The checks of R84 and R91, in their order, on a join. -/
structure Ctx.MayJoin (c : Ctx) (l m : Latched) (t : State) (sa sb : BitVec 5) (i j : Nat) (x y : EArray) : Prop where
  staged : c.team.staged = false
  first : t.array? c.vf (c.s sa) = some (i, x)
  second : t.array? c.vf (c.s sb) = some (j, y)
  scope : bit l.cores c.core = true
  scope' : bit m.cores c.core = true
  alike : x.size = y.size ∧ x.die = y.die ∧ x.scope = y.scope ∧ i ≠ j
  room : x.len + y.len ≤ maxElems
  slabs : t.slabCheck c.vf x.die (nodeSlabs (x.joinedLevels y (c.joined t x y)) - (x.nodes ++ y.nodes).length) = none
  anchors : x.anchors.length + y.anchors.length ≤ maxAnchors

theorem eaCat_eq_ok : eaCat c l m t sd sa sb = .ok v ↔ ∃ i j x y, c.MayJoin l m t sa sb i j x y ∧
    c.setS (c.eaOrder l true (c.joinedState l m t (c.s sa) (c.s sb) i j x y (c.joined t x y))) sd (BitVec.ofNat 64 (x.len + y.len)) = v := by
  have key (i j : Nat) (x y : EArray) (r : Except FaultInfo State) :
      (match t.slabCheck c.vf x.die (nodeSlabs (x.joinedLevels y (c.joined t x y)) - (x.nodes ++ y.nodes).length) with
        | some q => (do throw (eaFault cEQUOTA q (c.s sa) 0); r)
        | none => (do pure (); r)) = .ok v ↔
      t.slabCheck c.vf x.die (nodeSlabs (x.joinedLevels y (c.joined t x y)) - (x.nodes ++ y.nodes).length) = none ∧ r = .ok v := by
    cases t.slabCheck c.vf x.die (nodeSlabs (x.joinedLevels y (c.joined t x y)) - (x.nodes ++ y.nodes).length) with
    | some q => simp [throw, throwThe, MonadExceptOf.throw, bind, Except.bind]
    | none => simp
  simp only [eaCat, Except.bind_eq_ok, eaArray_eq_ok, eaScope_eq_ok, eaStaged_eq_ok, require_eq_ok, decide_eq_true_eq, Prod.exists, exists_const,
    Bool.and_eq_true, beq_iff_eq, bne_iff_ne]
  constructor
  · rintro ⟨hst, i, x, hx, j, y, hy, hsc, hsc', ⟨⟨⟨hsize, hdie⟩, hscope⟩, hij⟩, hroom, h⟩
    obtain ⟨hslab, h⟩ := (key i j x y _).1 h
    simp only [Except.bind_eq_ok, require_eq_ok, decide_eq_true_eq, exists_const, pure, Except.pure] at h
    obtain ⟨hanc, h⟩ := h
    exact ⟨i, j, x, y, ⟨hst, hx, hy, hsc, hsc', ⟨hsize, hdie, hscope, hij⟩, hroom, hslab, hanc⟩, Except.ok.inj h⟩
  · rintro ⟨i, j, x, y, ⟨hst, hx, hy, hsc, hsc', ⟨hsize, hdie, hscope, hij⟩, hroom, hslab, hanc⟩, h⟩
    refine ⟨hst, i, x, hx, j, y, hy, hsc, hsc', ⟨⟨⟨hsize, hdie⟩, hscope⟩, hij⟩, hroom, (key i j x y _).2 ⟨hslab, ?_⟩⟩
    simp only [Except.bind_eq_ok, require_eq_ok, decide_eq_true_eq, exists_const, pure, Except.pure]
    exact ⟨hanc, congrArg Except.ok h⟩
end
end Sys2Proof.Machine
end

section
/-! PROOFS. The completion of an operation of the own die's Rank Tree Unit, and what it may change (R71, R81, R83, R381). -/

namespace Sys2Proof.Machine

/-! ### Completion -/

section
variable {c : Ctx} {s t u : State} {l : Loose} {g h : Gang} {P : Nat → Prop}

/-- Where a unit may change nothing of its team's shell, the state that it has come to keeps itself. -/
theorem Ctx.Kept.self (hk : c.Kept s t l) (hl : ∀ x, l.team x = x) : c.Kept t t {} := by
  refine ⟨rfl, fun _ => rfl, fun _ _ => rfl, fun _ => rfl, fun _ => rfl, fun _ _ => rfl, fun _ _ => rfl, ?_⟩
  have hshell := hk.shell
  simp only [hl] at hshell
  exact hshell

/-- A state has the tables of arrays and the lookaside buffers of another. -/
structure State.Follows (t u : State) : Prop where
  vf : ∀ v, u.vf v = t.vf v
  rlb : ∀ n, (u.core n).rlb = (t.core n).rlb

theorem State.Follows.refl (t : State) : t.Follows t := ⟨fun _ => rfl, fun _ => rfl⟩

theorem State.Follows.trans {v : State} (h : t.Follows u) (k : u.Follows v) : t.Follows v :=
  ⟨fun w => (k.vf w).trans (h.vf w), fun n => (k.rlb n).trans (h.rlb n)⟩

theorem Ctx.SameBut.follows (hs : c.SameBut t u) (hk : c.Kept t t {}) : t.Follows u := by
  have ht := hs.kept t {} hk
  exact ⟨ht.vfs, fun n => by simpa using congrArg Core.rlb (ht.cores n)⟩

theorem eaOrder_follows (c : Ctx) (la : Latched) (st : Bool) (t : State) : t.Follows (c.eaOrder la st t) :=
  ⟨eaOrder_vf c la st t, eaOrder_rlb c la st t⟩

theorem setS_follows (c : Ctx) (t : State) (d : BitVec 5) (x : Word) : t.Follows (c.setS t d x) := ⟨fun _ => rfl, fun _ => rfl⟩

theorem State.Moves.follows {core : Nat} (h : t.Moves core P u) : t.Follows u := ⟨h.step.vf, h.rlb⟩

/-- The gang with the count of unacknowledged accesses that a release leaves. -/
theorem Writes.Done.ordered {n : Nat} (hd : Writes.Done {} n g h) (st : Bool) (la : Latched) :
    Writes.Done { more := fun g => g.ordered st la } n g (h.ordered st la) :=
  ⟨hd.scalars, hd.vectors, hd.masks, hd.flags, hd.unread, hd.count, congrArg (fun g : Gang => g.ordered st la) hd.rest⟩

/-- An operation of the own die's unit that passes its checks completes at once (R71), with its release and acquire (R83). -/
theorem rtu_completes {ins : Instr} {v : State} {b : Bound} {w : Writes} {more : State → Gang → Prop} (hr : Runs ins s c)
    (he : exec ins s = rtuIssue ins s) (hb : (eaTarget ins c (c.counted s)).getD ⟨c.die, 0, c.core⟩ = b) (hhome : b.home = c.die)
    (hrel : eaStructural ins = true → c.gang.releases = [])
    (hop : eaPerform ins c (c.latchArray (c.counted s) b) (c.latchSecond (c.counted s) ins) (c.counted s) = .ok v)
    (ha : c.Accesses s l P g v) (hg : g.entries = c.gang.entries) (hd : w.Done c.w c.gang g) (hm : ∀ t h, c.SameBut v t → more t h) :
    CompletesAt ins s c c.after w l more := by
  refine completes_next hr he ?_ ha.gang hg ha.kept hd hm
  dsimp only
  rw [hb, if_neg, if_pos hhome, eaAnswer, hop]
  rw [Bool.and_eq_true, Bool.not_eq_true', not_and]
  intro hs
  rw [hrel hs]
  exact Bool.noConfusion

/-- The result of an operation in a scalar register. -/
theorem rtu_gives {ins : Instr} {t1 : State} {b : Bound} {st : Bool} {sd : BitVec 5} {x : Word} {more : State → Prop} (hr : Runs ins s c)
    (he : exec ins s = rtuIssue ins s) (hb : (eaTarget ins c (c.counted s)).getD ⟨c.die, 0, c.core⟩ = b) (hhome : b.home = c.die)
    (hrel : eaStructural ins = true → c.gang.releases = [])
    (hop : eaPerform ins c (c.latchArray (c.counted s) b) (c.latchSecond (c.counted s) ins) (c.counted s) =
      .ok (c.setS (c.eaOrder (c.latchArray (c.counted s) b) st t1) sd x))
    (ha : c.Accesses s arrayLoose P c.gang.count t1)
    (hm : ∀ t, t1.Follows t → (∀ b, ¬ P b → ZMap.get t.mem b = ZMap.get s.mem b) → more t) :
    CompletesAt ins s c c.after { Writes.scalar sd x with more := fun g =>
      { g with unacked := if st = true ∧ (c.latchArray (c.counted s) b).level ≠ 0 then 0 else g.unacked } } arrayLoose fun t _ => more t := by
  have horder := (ha.eaOrder arrayLoose_caches (c.latchArray (c.counted s) b) st).modG fun g => g.setS sd.toNat x
  have hdone := ((done_count c.w c.gang).ordered st (c.latchArray (c.counted s) b)).setS rfl sd.toNat x
  refine rtu_completes hr he hb hhome hrel hop horder (by simp [Gang.setS, Gang.ordered]; split <;> simp) hdone fun t h hs => ?_
  have hsame := hs.follows (horder.kept.self fun _ => rfl)
  refine hm t (((eaOrder_follows c _ st t1).trans (setS_follows c _ sd x)).trans hsame) fun b hb => ?_
  rw [hs.mem]
  exact horder.mem b hb

/-- An operation without a result. -/
theorem rtu_ends {ins : Instr} {t1 : State} {b : Bound} {st : Bool} {more : State → Prop} (hr : Runs ins s c)
    (he : exec ins s = rtuIssue ins s) (hb : (eaTarget ins c (c.counted s)).getD ⟨c.die, 0, c.core⟩ = b) (hhome : b.home = c.die)
    (hrel : eaStructural ins = true → c.gang.releases = [])
    (hop : eaPerform ins c (c.latchArray (c.counted s) b) (c.latchSecond (c.counted s) ins) (c.counted s) =
      .ok (c.eaOrder (c.latchArray (c.counted s) b) st t1))
    (ha : c.Accesses s arrayLoose P c.gang.count t1)
    (hm : ∀ t, t1.Follows t → (∀ b, ¬ P b → ZMap.get t.mem b = ZMap.get s.mem b) → more t) :
    CompletesAt ins s c c.after { more := fun g =>
      { g with unacked := if st = true ∧ (c.latchArray (c.counted s) b).level ≠ 0 then 0 else g.unacked } } arrayLoose fun t _ => more t := by
  have horder := ha.eaOrder arrayLoose_caches (c.latchArray (c.counted s) b) st
  have hdone := (done_count c.w c.gang).ordered st (c.latchArray (c.counted s) b)
  refine rtu_completes hr he hb hhome hrel hop horder (by simp [Gang.ordered]) hdone fun t h hs => ?_
  refine hm t ((eaOrder_follows c _ st t1).trans (hs.follows (horder.kept.self fun _ => rfl))) fun b hb => ?_
  rw [hs.mem]
  exact horder.mem b hb

end

/-! ### What an operation may reach -/

/-- The bytes that an operation on arrays of a die may change (R68, R381): where the leaves of the context's arrays fit their slabs, those
written before, those of its slabs, and those of the bitmap. -/
def Ctx.arrayReach (c : Ctx) (s : State) (die b : Nat) : Prop :=
  (∀ k y, SMap.get? (s.vf c.vf).arrays k = some y → y.size ≤ 4 ∧ ∀ p ∈ y.leaves, p.2 * y.esize ≤ 4096) →
    s.written c.core b ∨ (∃ n, s.hasSlab c.vf die n ∧ s.slabAddr c.vf die n ≤ b ∧ b < s.slabAddr c.vf die n + 4096) ∨
      ((s.vf c.vf).cfg 288 8 ≠ 0 ∧ ∃ n, b = s.bitmapByte c.vf die n)

section
variable {c : Ctx} {s t u : State} {die : Nat}

theorem Ctx.writtenIn_arrayReach (c : Ctx) (s : State) (die : Nat) : s.WrittenIn c.core (c.arrayReach s die) := fun _ hb _ => .inl hb

theorem Ctx.Accesses.arrayStart (hc : s.ctx? = some c) (die : Nat) :
    c.Accesses s arrayLoose (c.arrayReach s die) c.gang.count (c.counted s) := .counted hc arrayLoose (c.writtenIn_arrayReach s die)

/-- Only the listed arrays and anchors of a context change. -/
structure Ctx.OnlyTables (c : Ctx) (s t : State) (is ids : List Nat) : Prop where
  arrays : ∀ v k, ¬ (v = c.vf ∧ k ∈ is) → SMap.get? (t.vf v).arrays k = SMap.get? (s.vf v).arrays k
  anchors : ∀ v k, ¬ (v = c.vf ∧ k ∈ ids) → SMap.get? (t.vf v).anchors k = SMap.get? (s.vf v).anchors k

theorem Ctx.OnlyTables.onlyArrays {is ids : List Nat} (h : c.OnlyTables s t is ids) (hf : t.Follows u)
    (hm : ∀ b, ¬ c.arrayReach s die b → ZMap.get u.mem b = ZMap.get s.mem b) : c.OnlyArrays s u die is ids := by
  refine ⟨fun v k hk => ?_, fun v k hk => ?_, fun hfit b hw hslab hbit => hm b fun hb => ?_⟩
  · rw [hf.vf]
    exact h.arrays v k hk
  · rw [hf.vf]
    exact h.anchors v k hk
  · rcases hb hfit with h | ⟨n, hn, hlo, hhi⟩ | ⟨hbase, n, hn⟩
    · exact hw h
    · exact hslab n hn ⟨hlo, hhi⟩
    · exact hbit n hbase hn

/-- A state whose context alone differs, by its tables. -/
theorem Ctx.OnlyTables.of_vf {is ids : List Nat} (ho : ∀ v, v ≠ c.vf → t.vf v = s.vf v)
    (ha : ∀ k, k ∉ is → SMap.get? (t.vf c.vf).arrays k = SMap.get? (s.vf c.vf).arrays k)
    (hn : ∀ k, k ∉ ids → SMap.get? (t.vf c.vf).anchors k = SMap.get? (s.vf c.vf).anchors k) : c.OnlyTables s t is ids := by
  constructor
  · intro v k hk
    by_cases hv : v = c.vf
    · subst hv
      exact ha k fun hmem => hk ⟨rfl, hmem⟩
    · rw [ho v hv]
  · intro v k hk
    by_cases hv : v = c.vf
    · subst hv
      exact hn k fun hmem => hk ⟨rfl, hmem⟩
    · rw [ho v hv]

end

end Sys2Proof.Machine
end

section
/-! PROOFS. The leaves of an array under change: what they hold in rank order, how much, in which slabs, and which of them need no write
(R68, R90, R91, R371). -/

namespace Sys2Proof.Machine

/-- The elements of some leaves in rank order. -/
def contents (ps : List (Part (List Byte))) : List (List Byte) := ps.flatMap Part.items

@[simp] theorem contents_nil : contents [] = [] := rfl
@[simp] theorem contents_cons (p : Part (List Byte)) (ps : List (Part (List Byte))) : contents (p :: ps) = p.items ++ contents ps := rfl
@[simp] theorem contents_append (ps qs : List (Part (List Byte))) : contents (ps ++ qs) = contents ps ++ contents qs :=
  List.flatMap_append

/-- A leaf under change: elements of e bytes, at most K of them, and, where it has a slab that the operation does not write, elements that
the slab holds. -/
structure PartOk (e K : Nat) (H : Nat → List (List Byte) → Prop) (p : Part (List Byte)) : Prop where
  sizes : ∀ x ∈ p.items, x.length = e
  room : p.items.length ≤ K
  stands : p.written = false → ∀ n, p.slab = some n → H n p.items

/-- A slab that holds elements holds the first of them. -/
def PrefixClosed (H : Nat → List (List Byte) → Prop) : Prop := ∀ n k xs, H n xs → H n (xs.take k)

section
variable {e K cap : Nat} {H : Nat → List (List Byte) → Prop} {ps qs : List (Part (List Byte))}

/-! ### Merges and divisions -/

/-- A merge or a division of two neighbours. -/
inductive Rebalances (cap : Nat) : List (Part (List Byte)) → List (Part (List Byte)) → Prop
  | merge (pre rest : List (Part (List Byte))) (x y : Part (List Byte)) (h : (x.items ++ y.items).length ≤ cap) :
    Rebalances cap (pre ++ x :: y :: rest) (pre ++ { x with items := x.items ++ y.items, changed := true, written := true } :: rest)
  | divide (pre rest : List (Part (List Byte))) (x y : Part (List Byte)) (h : Nat) (hh : h = ((x.items ++ y.items).length + 1) / 2) :
    Rebalances cap (pre ++ x :: y :: rest)
      (pre ++ { x with items := (x.items ++ y.items).take h, changed := false, written := x.written || decide (x.items.length < h) }
        :: { y with items := (x.items ++ y.items).drop h, changed := false, written := y.written || decide (x.items.length ≠ h) } :: rest)

theorem rebalances_of_step (h : rebalanceStep cap ps = some qs) : Rebalances cap ps qs := by
  unfold rebalanceStep at h
  split at h
  · cases h
  · split at h
    · cases h
    · next j _ =>
      dsimp only at h
      generalize (if j + 1 < ps.length then j else j - 1) = k at h
      split at h
      · next x y rest hdrop =>
        have hps : ps.take k ++ x :: y :: rest = ps := hdrop ▸ List.take_append_drop k ps
        split at h
        · next hcap =>
          cases h
          have := Rebalances.merge (cap := cap) (ps.take k) rest x y hcap
          rwa [hps] at this
        · cases h
          have := Rebalances.divide (cap := cap) (ps.take k) rest x y _ rfl
          rwa [hps] at this
      · cases h

theorem Rebalances.contents (h : Rebalances cap ps qs) : contents qs = contents ps := by
  cases h with
  | merge pre rest x y h => simp
  | divide pre rest x y h hh =>
    simp only [contents_append, contents_cons]
    rw [← List.append_assoc (List.take ..), List.take_append_drop, List.append_assoc]

theorem Rebalances.slabs (h : Rebalances cap ps qs) : (qs.map Part.slab).Sublist (ps.map Part.slab) := by
  cases h with
  | merge pre rest x y h => simp
  | divide pre rest x y h hh => simp

theorem Rebalances.ok (h : Rebalances cap ps qs) (hH : PrefixClosed H) (hcap : cap ≤ K) (hok : ∀ p ∈ ps, PartOk e K H p) :
    ∀ p ∈ qs, PartOk e K H p := by
  cases h with
  | merge pre rest x y h =>
    have hx := hok x (by simp)
    have hy := hok y (by simp)
    intro p hp
    rcases List.mem_append.1 hp with hp | hp
    · exact hok p (by simp [hp])
    rcases List.mem_cons.1 hp with rfl | hp
    · exact ⟨fun z hz => (List.mem_append.1 hz).elim (hx.sizes z) (hy.sizes z), h.trans hcap, fun hw => by cases hw⟩
    · exact hok p (by simp [hp])
  | divide pre rest x y h hh =>
    have hx := hok x (by simp)
    have hy := hok y (by simp)
    have hlen := List.length_append (as := x.items) (bs := y.items)
    have hrx := hx.room
    have hry := hy.room
    have hall (z : List Byte) (hz : z ∈ x.items ++ y.items) : z.length = e := (List.mem_append.1 hz).elim (hx.sizes z) (hy.sizes z)
    intro p hp
    rcases List.mem_append.1 hp with hp | hp
    · exact hok p (by simp [hp])
    rcases List.mem_cons.1 hp with rfl | hp
    · refine ⟨fun z hz => hall z (List.mem_of_mem_take hz), ?_, fun hw n hn => ?_⟩
      · dsimp only
        rw [List.length_take]
        omega
      · obtain ⟨hw, hlt⟩ := Bool.or_eq_false_iff.1 hw
        have hle : h ≤ x.items.length := Nat.le_of_not_lt (of_decide_eq_false hlt)
        dsimp only at hn ⊢
        rw [List.take_append_of_le_length hle]
        exact hH n h _ (hx.stands hw n hn)
    rcases List.mem_cons.1 hp with rfl | hp
    · refine ⟨fun z hz => hall z (List.mem_of_mem_drop hz), ?_, fun hw n hn => ?_⟩
      · dsimp only
        rw [List.length_drop]
        omega
      · obtain ⟨hw, hne⟩ := Bool.or_eq_false_iff.1 hw
        have heq : x.items.length = h := not_not.1 (of_decide_eq_false hne)
        dsimp only at hn ⊢
        rw [← heq, List.drop_left]
        exact hy.stands hw n hn
    · exact hok p (by simp [hp])

/-- What merges and divisions keep. -/
structure Rebalanced (e K : Nat) (H : Nat → List (List Byte) → Prop) (ps qs : List (Part (List Byte))) : Prop where
  contents : contents qs = contents ps
  slabs : (qs.map Part.slab).Sublist (ps.map Part.slab)
  ok : (∀ p ∈ ps, PartOk e K H p) → ∀ p ∈ qs, PartOk e K H p

theorem rebalanced_rebalance (hH : PrefixClosed H) (hcap : cap ≤ K) (k : Nat) (ps : List (Part (List Byte))) :
    Rebalanced e K H ps (rebalance cap k ps) := by
  induction k generalizing ps with
  | zero => exact ⟨rfl, .refl _, id⟩
  | succ k ih =>
    rw [rebalance]
    split
    · next qs hqs =>
      have hstep := rebalances_of_step hqs
      obtain ⟨h1, h2, h3⟩ := ih qs
      exact ⟨h1.trans hstep.contents, h2.trans hstep.slabs, fun hok => h3 (hstep.ok hH hcap hok)⟩
    · exact ⟨rfl, .refl _, id⟩

theorem rebalanced_balanced (hH : PrefixClosed H) (hcap : cap ≤ K) (ps : List (Part (List Byte))) :
    Rebalanced e K H ps (balanced cap ps) := rebalanced_rebalance hH hcap _ ps

/-! ### Slab numbers -/

theorem filterMap_slab_eq (ps : List (Part (List Byte))) : ps.filterMap Part.slab = (ps.map Part.slab).filterMap id := by
  rw [List.filterMap_map]
  rfl

theorem Rebalanced.slabNumbers (h : Rebalanced e K H ps qs) : (qs.filterMap Part.slab).Sublist (ps.filterMap Part.slab) := by
  rw [filterMap_slab_eq, filterMap_slab_eq]
  exact h.slabs.filterMap _

/-- Every leaf has a slab. -/
def AllPlaced (ps : List (Part (List Byte))) : Prop := none ∉ ps.map Part.slab

theorem Rebalanced.placed (h : Rebalanced e K H ps qs) (hp : AllPlaced ps) : AllPlaced qs := fun hn => hp (h.slabs.subset hn)

theorem leafNeed_eq_zero (h : AllPlaced ps) : leafNeed ps = 0 := by
  rw [leafNeed, List.countP_eq_zero]
  intro p hp hn
  exact h (List.mem_map.2 ⟨p, hp, Option.isNone_iff_eq_none.1 hn⟩)

/-! ### Cuts -/

theorem flatten_cuts {α : Type} (ns : List Nat) (l : List α) (h : l.length ≤ ns.sum) : (cuts ns l).flatten = l := by
  induction ns generalizing l with
  | nil =>
    rw [List.sum_nil, Nat.le_zero, List.length_eq_zero_iff] at h
    rw [h]
    rfl
  | cons n ns ih =>
    rw [List.sum_cons] at h
    rw [cuts, List.flatten_cons, ih _ (by rw [List.length_drop]; omega), List.take_append_drop]

theorem mem_cuts {α : Type} {ns : List Nat} {l p : List α} {m : Nat} (hm : ∀ n ∈ ns, n ≤ m) (h : p ∈ cuts ns l) :
    p.length ≤ m ∧ ∀ x ∈ p, x ∈ l := by
  induction ns generalizing l with
  | nil => cases h
  | cons n ns ih =>
    rw [cuts] at h
    rcases List.mem_cons.1 h with rfl | h
    · have := hm n List.mem_cons_self
      exact ⟨by rw [List.length_take]; omega, fun x => List.mem_of_mem_take⟩
    · obtain ⟨h1, h2⟩ := ih (fun k hk => hm k (List.mem_cons_of_mem _ hk)) h
      exact ⟨h1, fun x hx => List.mem_of_mem_drop (h2 x hx)⟩

theorem cuts_cons_take {α : Type} {ns : List Nat} {l p : List α} {ls : List (List α)} (h : cuts ns l = p :: ls) : ∃ n, p = l.take n := by
  cases ns with
  | nil => cases h
  | cons n ns =>
    rw [cuts] at h
    cases h
    exact ⟨n, rfl⟩

theorem sum_evenly (m q : Nat) (hq : 0 < q) : (evenly m q).sum = m := by
  have key (k r : Nat) : ((List.range k).map fun j => m / q + if j < r then 1 else 0).sum = k * (m / q) + min k r := by
    induction k with
    | zero => simp
    | succ k ih =>
      rw [List.range_succ, List.map_append, List.sum_append, ih, List.map_singleton, List.sum_singleton, Nat.succ_mul]
      split <;> omega
  rw [evenly, key, Nat.min_eq_right (Nat.le_of_lt (Nat.mod_lt m hq)), Nat.div_add_mod]

theorem mem_evenly {m q limit n : Nat} (h : m ≤ q * limit) (hn : n ∈ evenly m q) : n ≤ limit := by
  obtain ⟨j, hj, rfl⟩ := List.mem_map.1 hn
  have hq : 0 < q := Nat.lt_of_le_of_lt (Nat.zero_le j) (List.mem_range.1 hj)
  have hdiv : m / q ≤ limit := Nat.div_le_of_le_mul h
  split
  · next hlt =>
    have hmod := Nat.div_add_mod m q
    by_contra hgt
    have heq : m / q = limit := by omega
    rw [heq] at hmod
    omega
  · exact hdiv

/-- The counts of the pieces of an insertion. -/
def pieceCounts (m limit : Nat) : List Nat := if m ≤ limit then [m] else evenly m ((m + limit - 1) / limit)

theorem sum_pieceCounts (m : Nat) {limit : Nat} (hl : 0 < limit) : (pieceCounts m limit).sum = m := by
  unfold pieceCounts
  split
  · simp
  · exact sum_evenly m _ (Nat.div_pos (by omega) hl)

theorem mem_pieceCounts {m limit n : Nat} (hl : 0 < limit) (hn : n ∈ pieceCounts m limit) : n ≤ limit := by
  unfold pieceCounts at hn
  split at hn
  · next h =>
    rw [List.mem_singleton.1 hn]
    exact h
  · refine mem_evenly ?_ hn
    have hmod := Nat.div_add_mod (m + limit - 1) limit
    have hlt := Nat.mod_lt (m + limit - 1) hl
    rw [Nat.mul_comm] at hmod
    omega

end

end Sys2Proof.Machine
end

section
/-! PROOFS. The leaves after an insertion, a deletion, a split and a join (R68, R89 to R91, R371). -/

namespace Sys2Proof.Machine

section
variable {e K limit : Nat} {H : Nat → List (List Byte) → Prop} {ps qs : List (Part (List Byte))}

theorem range_zip_cons {α : Type} (x : α) (l : List α) :
    (List.range (x :: l).length).zip (x :: l) = (0, x) :: ((List.range l.length).zip l).map fun p => (p.1 + 1, p.2) := by
  rw [List.length_cons, List.range_succ_eq_map, List.zip_cons_cons, List.zip_map_left]
  rfl

theorem range_zip_map {α β : Type} (l : List α) (f : α → β) : ((List.range l.length).zip l).map (fun p => f p.2) = l.map f := by
  have := List.map_snd_zip (l₁ := List.range l.length) (l₂ := l) (by simp)
  calc
    _ = (((List.range l.length).zip l).map Prod.snd).map f := by rw [List.map_map]; rfl
    _ = l.map f := by rw [this]

/-! ### Insertion -/

/-- The elements of a leaf after an insertion in it. -/
def insertedItems (x : Part (List Byte)) (d : Nat) (es : List (List Byte)) : List (List Byte) := x.items.take d ++ es ++ x.items.drop d

/-- The leaves into which a leaf divides. -/
def pieceParts (x : Part (List Byte)) (d : Nat) (pieces : List (List (List Byte))) : List (Part (List Byte)) :=
  ((List.range pieces.length).zip pieces).map fun p =>
    { x with changed := true, slab := if p.1 = 0 then x.slab else none, items := p.2
             written := decide (p.1 ≠ 0) || decide (d < p.2.length) }

theorem pieceParts_cons (x : Part (List Byte)) (d : Nat) (p : List (List Byte)) (pieces : List (List (List Byte))) :
    pieceParts x d (p :: pieces) = { x with changed := true, items := p, written := decide (d < p.length) } ::
      pieces.map fun q => { x with changed := true, slab := none, items := q, written := true } := by
  unfold pieceParts
  rw [range_zip_cons, List.map_cons, List.map_map]
  refine congrArg₂ List.cons rfl ?_
  exact range_zip_map pieces fun q => { x with changed := true, slab := none, items := q, written := true }

theorem contents_pieceParts (x : Part (List Byte)) (d : Nat) (pieces : List (List (List Byte))) :
    contents (pieceParts x d pieces) = pieces.flatten := by
  cases pieces with
  | nil => rfl
  | cons p pieces =>
    rw [pieceParts_cons, contents_cons, List.flatten_cons, contents, List.flatMap_map]
    exact congrArg (p ++ ·) List.flatMap_id

theorem slabs_pieceParts (x : Part (List Byte)) (d : Nat) (pieces : List (List (List Byte))) :
    ((pieceParts x d pieces).filterMap Part.slab).Sublist x.slab.toList := by
  cases pieces with
  | nil => exact List.nil_sublist _
  | cons p pieces =>
    have hrest : (pieces.map fun q => { x with changed := true, slab := none, items := q, written := true }).filterMap Part.slab = [] :=
      List.filterMap_eq_nil_iff.2 (by simp)
    rw [pieceParts_cons, List.filterMap_cons, hrest]
    dsimp only
    cases x.slab with
    | none => exact List.Sublist.refl _
    | some n => exact List.Sublist.refl _

/-- The leaf at which an insertion stands. -/
def insertLeaf (a : EArray) (ps : List (Part (List Byte))) (r : Nat) : Part (List Byte) :=
  (ps[(leafFor a.leaves r).1]?).getD ⟨0, true, none, [], true⟩

theorem inserted_fst (a : EArray) (ps : List (Part (List Byte))) (limit r : Nat) (es : List (List Byte)) :
    (a.inserted ps limit r es).1 = ps.take (leafFor a.leaves r).1 ++
      pieceParts (insertLeaf a ps r) (r - (leafFor a.leaves r).2)
        (cuts (pieceCounts (insertedItems (insertLeaf a ps r) (r - (leafFor a.leaves r).2) es).length limit)
          (insertedItems (insertLeaf a ps r) (r - (leafFor a.leaves r).2) es)) ++
      ps.drop ((leafFor a.leaves r).1 + 1) := rfl

/-- The leaf that an insertion goes into holds the elements around its rank (R371). -/
theorem leafFor_spec (ls : List (Nat × Nat)) (ps : List (Part (List Byte))) (r : Nat)
    (hps : ps.map (fun p => p.items.length) = ls.map Prod.snd) (hne : ls ≠ []) :
    ∃ x, ps[(leafFor ls r).1]? = some x ∧ (r ≤ (contents ps).length → r - (leafFor ls r).2 ≤ x.items.length ∧
      (contents ps).take r = contents (ps.take (leafFor ls r).1) ++ x.items.take (r - (leafFor ls r).2) ∧
      (contents ps).drop r = x.items.drop (r - (leafFor ls r).2) ++ contents (ps.drop ((leafFor ls r).1 + 1))) := by
  induction ls generalizing ps r with
  | nil => exact absurd rfl hne
  | cons l ls ih =>
    obtain ⟨slab, n⟩ := l
    cases ps with
    | nil => cases hps
    | cons p ps =>
      simp only [List.map_cons, List.cons.injEq] at hps
      obtain ⟨hp, hps⟩ := hps
      rw [leafFor]
      by_cases hr : r ≤ n
      · rw [if_pos hr]
        refine ⟨p, rfl, fun _ => ⟨by dsimp only; omega, ?_, ?_⟩⟩
        · rw [contents_cons, List.take_append_of_le_length (by omega)]
          rfl
        · rw [contents_cons, List.drop_append_of_le_length (by omega)]
          rfl
      · rw [if_neg hr]
        by_cases hls : ls.isEmpty = true
        · rw [if_pos hls]
          have hnil := List.isEmpty_iff.1 hls
          subst hnil
          have hps' := List.map_eq_nil_iff.1 hps
          subst hps'
          refine ⟨p, rfl, fun h => ?_⟩
          rw [contents_cons, contents_nil, List.append_nil] at h
          omega
        · rw [if_neg hls]
          obtain ⟨x, hx, hspec⟩ := ih ps (r - n) hps fun h => hls (List.isEmpty_iff.2 h)
          refine ⟨x, hx, fun h => ?_⟩
          rw [contents_cons, List.length_append] at h
          obtain ⟨h1, h2, h3⟩ := hspec (by omega)
          have hsub : r - ((leafFor ls (r - n)).2 + n) = r - n - (leafFor ls (r - n)).2 := by omega
          dsimp only
          rw [hsub]
          refine ⟨h1, ?_, ?_⟩
          · rw [contents_cons, List.take_append, List.take_of_length_le (by omega), hp, h2, List.take_succ_cons, contents_cons,
              List.append_assoc]
          · rw [contents_cons, List.drop_append, List.drop_of_length_le (by omega), hp, h3, List.drop_succ_cons, List.nil_append]

/-- The elements around the rank of an insertion, in an array without leaves too. -/
theorem insertLeaf_spec (a : EArray) (ps : List (Part (List Byte))) (r : Nat)
    (hps : ps.map (fun p => p.items.length) = a.leaves.map Prod.snd) (hr : r ≤ (contents ps).length) :
    r - (leafFor a.leaves r).2 ≤ (insertLeaf a ps r).items.length ∧
      (contents ps).take r = contents (ps.take (leafFor a.leaves r).1) ++ (insertLeaf a ps r).items.take (r - (leafFor a.leaves r).2) ∧
      (contents ps).drop r = (insertLeaf a ps r).items.drop (r - (leafFor a.leaves r).2) ++
        contents (ps.drop ((leafFor a.leaves r).1 + 1)) := by
  by_cases hne : a.leaves = []
  · rw [hne, List.map_nil] at hps
    have hnil := List.map_eq_nil_iff.1 hps
    subst hnil
    rw [contents_nil, List.length_nil, Nat.le_zero] at hr
    subst hr
    simp [insertLeaf]
  · obtain ⟨x, hx, hspec⟩ := leafFor_spec a.leaves ps r hps hne
    rw [insertLeaf, hx]
    exact hspec hr

theorem contents_inserted (a : EArray) (hlimit : 0 < limit) (r : Nat) (es : List (List Byte))
    (hps : ps.map (fun p => p.items.length) = a.leaves.map Prod.snd) (hr : r ≤ (contents ps).length) :
    contents (a.inserted ps limit r es).1 = (contents ps).take r ++ es ++ (contents ps).drop r := by
  obtain ⟨-, htake, hdrop⟩ := insertLeaf_spec a ps r hps hr
  rw [inserted_fst, contents_append, contents_append, contents_pieceParts, flatten_cuts _ _ (sum_pieceCounts _ hlimit).ge, insertedItems,
    htake, hdrop]
  simp only [List.append_assoc]

theorem insertLeaf_ok (a : EArray) (r : Nat) (hok : ∀ p ∈ ps, PartOk e K H p) : PartOk e K H (insertLeaf a ps r) := by
  unfold insertLeaf
  cases hx : ps[(leafFor a.leaves r).1]? with
  | none => exact ⟨fun _ h => (by cases h), Nat.zero_le _, fun h => (by cases h)⟩
  | some x => exact hok x (List.mem_of_getElem? hx)

/-- An insertion's leaves; of a rank past the elements, no slab is known to hold the first piece. -/
theorem inserted_ok (a : EArray) (hlimit : 0 < limit) (hK : limit ≤ K) (r : Nat) (es : List (List Byte)) (hes : ∀ x ∈ es, x.length = e)
    (hps : ps.map (fun p => p.items.length) = a.leaves.map Prod.snd) (hH : PrefixClosed H)
    (hr : r ≤ (contents ps).length ∨ ∀ n xs, H n xs) (hnew : ∀ p ∈ ps, p.written = false) (hok : ∀ p ∈ ps, PartOk e K H p) :
    ∀ p ∈ (a.inserted ps limit r es).1, PartOk e K H p := by
  have hx := insertLeaf_ok a r hok
  have hsizes (z : List Byte) (hz : z ∈ insertedItems (insertLeaf a ps r) (r - (leafFor a.leaves r).2) es) : z.length = e := by
    rcases List.mem_append.1 hz with hz | hz
    · rcases List.mem_append.1 hz with hz | hz
      · exact hx.sizes z (List.mem_of_mem_take hz)
      · exact hes z hz
    · exact hx.sizes z (List.mem_of_mem_drop hz)
  rw [inserted_fst]
  intro p hp
  rcases List.mem_append.1 hp with hp | hp
  · rcases List.mem_append.1 hp with hp | hp
    · exact hok p (List.mem_of_mem_take hp)
    · generalize hcuts : cuts _ _ = pieces at hp
      have hpiece (q : List (List Byte)) (hq : q ∈ pieces) : (∀ x ∈ q, x.length = e) ∧ q.length ≤ K := by
        rw [← hcuts] at hq
        obtain ⟨hlen, hmem⟩ := mem_cuts (fun n hn => mem_pieceCounts hlimit hn) hq
        exact ⟨fun z hz => hsizes z (hmem z hz), hlen.trans hK⟩
      cases pieces with
      | nil => cases hp
      | cons q pieces =>
        rw [pieceParts_cons] at hp
        rcases List.mem_cons.1 hp with rfl | hp
        · obtain ⟨h1, h2⟩ := hpiece q List.mem_cons_self
          refine ⟨h1, h2, fun hw n hn => ?_⟩
          rcases hr with hr | hall
          · obtain ⟨hd, -, -⟩ := insertLeaf_spec a ps r hps hr
            have hle : q.length ≤ r - (leafFor a.leaves r).2 := Nat.le_of_not_lt (of_decide_eq_false hw)
            obtain ⟨k, hk⟩ := cuts_cons_take hcuts
            have hpre : q = (insertLeaf a ps r).items.take q.length := by
              have hq := List.prefix_iff_eq_take.1 (hk ▸ List.take_prefix k _)
              rw [insertedItems, List.append_assoc, List.take_append_of_le_length (by rw [List.length_take]; omega), List.take_take,
                Nat.min_eq_left hle] at hq
              exact hq
            have hstands : H n (insertLeaf a ps r).items := by
              unfold insertLeaf at hn ⊢
              cases hx : ps[(leafFor a.leaves r).1]? with
              | none =>
                rw [hx] at hn
                cases hn
              | some x =>
                rw [hx] at hn
                exact (hok x (List.mem_of_getElem? hx)).stands (hnew x (List.mem_of_getElem? hx)) n hn
            have hfirst := hH n q.length _ hstands
            rw [← hpre] at hfirst
            exact hfirst
          · exact hall n q
        · obtain ⟨q', hq', rfl⟩ := List.mem_map.1 hp
          obtain ⟨h1, h2⟩ := hpiece q' (List.mem_cons_of_mem _ hq')
          exact ⟨h1, h2, fun h => by cases h⟩
  · exact hok p (List.mem_of_mem_drop hp)

theorem slabs_inserted (a : EArray) (r : Nat) (es : List (List Byte)) :
    ((a.inserted ps limit r es).1.filterMap Part.slab).Sublist (ps.filterMap Part.slab) := by
  rw [inserted_fst, List.filterMap_append, List.filterMap_append]
  have hpieces := slabs_pieceParts (insertLeaf a ps r) (r - (leafFor a.leaves r).2)
    (cuts (pieceCounts (insertedItems (insertLeaf a ps r) (r - (leafFor a.leaves r).2) es).length limit)
          (insertedItems (insertLeaf a ps r) (r - (leafFor a.leaves r).2) es))
  have hsplit : (ps.take (leafFor a.leaves r).1).filterMap Part.slab ++ (insertLeaf a ps r).slab.toList ++
      (ps.drop ((leafFor a.leaves r).1 + 1)).filterMap Part.slab = ps.filterMap Part.slab := by
    unfold insertLeaf
    generalize (leafFor a.leaves r).1 = k
    cases hx : ps[k]? with
    | none =>
      have hlen := List.getElem?_eq_none_iff.1 hx
      rw [List.take_of_length_le hlen, List.drop_of_length_le (by omega)]
      simp
    | some x =>
      obtain ⟨hlt, rfl⟩ := List.getElem?_eq_some_iff.1 hx
      have hps : ps.take k ++ ps[k] :: ps.drop (k + 1) = ps := by simp
      conv_rhs => rw [← hps]
      rw [List.filterMap_append, List.filterMap_cons, Option.getD_some]
      cases ps[k].slab with
      | none => simp
      | some n => simp
  rw [← hsplit]
  exact (List.Sublist.append_left hpieces _).append_right _

/-! ### Deletion -/

/-- What a deletion leaves of a leaf with the given number of elements before it. -/
def leftOver (r n lo : Nat) (p : Part (List Byte)) : Part (List Byte) :=
  { p with
    items := p.items.take (r - lo) ++ p.items.drop (r + n - lo)
    changed := decide ((p.items.take (r - lo) ++ p.items.drop (r + n - lo)).length ≠ p.items.length)
    written := decide ((p.items.take (r - lo) ++ p.items.drop (r + n - lo)).length ≠ p.items.length) && decide (r + n < lo + p.items.length) }

/-- What a deletion leaves of each leaf. -/
def leftOvers (r n : Nat) : Nat → List (Part (List Byte)) → List (Part (List Byte))
  | _, [] => []
  | lo, p :: ps => leftOver r n lo p :: leftOvers r n (lo + p.items.length) ps

/-- The step of a deletion over the leaves. -/
def deleteStep (r n : Nat) (acc : Nat × List (Part (List Byte))) (p : Part (List Byte)) : Nat × List (Part (List Byte)) :=
  (acc.1 + p.items.length, acc.2 ++ [leftOver r n acc.1 p])

theorem foldl_deleteStep (r n lo : Nat) (out ps : List (Part (List Byte))) :
    (ps.foldl (deleteStep r n) (lo, out)).2 = out ++ leftOvers r n lo ps := by
  induction ps generalizing lo out with
  | nil => simp [leftOvers]
  | cons p ps ih => rw [List.foldl_cons, deleteStep, ih, leftOvers, List.append_assoc]; rfl

theorem deleted_fst (a : EArray) (ps : List (Part (List Byte))) (limit r n : Nat) :
    (a.deleted ps limit r n).1 = balanced limit ((leftOvers r n 0 ps).filter fun p => !p.items.isEmpty) := by
  have hfold := foldl_deleteStep r n 0 [] ps
  rw [List.nil_append] at hfold
  rw [← hfold]
  rfl

theorem contents_filter (ps : List (Part (List Byte))) : contents (ps.filter fun p => !p.items.isEmpty) = contents ps := by
  induction ps with
  | nil => rfl
  | cons p ps ih =>
    rw [List.filter_cons]
    cases hp : p.items with
    | nil => simp [hp, ih]
    | cons x xs => simp [hp, ih]

theorem contents_leftOvers (r n lo : Nat) (ps : List (Part (List Byte))) :
    contents (leftOvers r n lo ps) = (contents ps).take (r - lo) ++ (contents ps).drop (r + n - lo) := by
  induction ps generalizing lo with
  | nil => simp [leftOvers]
  | cons p ps ih =>
    rw [leftOvers, contents_cons, contents_cons, ih, List.take_append, List.drop_append, Nat.sub_sub, Nat.sub_sub]
    change (p.items.take (r - lo) ++ p.items.drop (r + n - lo)) ++ _ = _
    by_cases h : r - lo ≤ p.items.length
    · have hz : r - (lo + p.items.length) = 0 := by omega
      simp [hz]
    · have hd : p.items.drop (r + n - lo) = [] := List.drop_of_length_le (by omega)
      simp [hd]

/-- A deletion leaves a leaf that it does not write its first elements. -/
theorem leftOver_prefix {r n lo : Nat} {p : Part (List Byte)} (hw : (leftOver r n lo p).written = false) :
    ∃ k, (leftOver r n lo p).items = p.items.take k := by
  have hsub : (p.items.take (r - lo) ++ p.items.drop (r + n - lo)).Sublist p.items := by
    have hdrop : (p.items.drop (r + n - lo)).Sublist (p.items.drop (r - lo)) := List.drop_sublist_drop_left _ (by omega)
    have happ := List.Sublist.append_left hdrop (p.items.take (r - lo))
    rwa [List.take_append_drop] at happ
  by_cases hlen : (p.items.take (r - lo) ++ p.items.drop (r + n - lo)).length = p.items.length
  · refine ⟨p.items.length, ?_⟩
    rw [List.take_length]
    exact hsub.eq_of_length hlen
  · refine ⟨r - lo, ?_⟩
    have hpast : ¬ r + n < lo + p.items.length := by
      intro hlt
      simp only [leftOver, decide_eq_true hlen, decide_eq_true hlt] at hw
      cases hw
    change p.items.take (r - lo) ++ p.items.drop (r + n - lo) = _
    rw [List.drop_of_length_le (by omega), List.append_nil]

theorem leftOver_ok {r n lo : Nat} {p : Part (List Byte)} (hH : PrefixClosed H) (hp : PartOk e K H p) (hnew : p.written = false) :
    PartOk e K H (leftOver r n lo p) := by
  refine ⟨fun z hz => ?_, ?_, fun hw m hm => ?_⟩
  · rcases List.mem_append.1 hz with hz | hz
    · exact hp.sizes z (List.mem_of_mem_take hz)
    · exact hp.sizes z (List.mem_of_mem_drop hz)
  · have hroom := hp.room
    change (p.items.take (r - lo) ++ p.items.drop (r + n - lo)).length ≤ K
    rw [List.length_append, List.length_take, List.length_drop]
    omega
  · obtain ⟨k, hk⟩ := leftOver_prefix hw
    rw [hk]
    exact hH m k _ (hp.stands hnew m hm)

theorem slabs_leftOvers (r n lo : Nat) (ps : List (Part (List Byte))) : (leftOvers r n lo ps).map Part.slab = ps.map Part.slab := by
  induction ps generalizing lo with
  | nil => rfl
  | cons p ps ih => rw [leftOvers, List.map_cons, ih]; rfl

theorem mem_leftOvers {r n lo : Nat} {ps : List (Part (List Byte))} {q : Part (List Byte)} (h : q ∈ leftOvers r n lo ps) :
    ∃ k, ∃ p ∈ ps, q = leftOver r n k p := by
  induction ps generalizing lo with
  | nil => cases h
  | cons p ps ih =>
    rcases List.mem_cons.1 h with rfl | h
    · exact ⟨lo, p, List.mem_cons_self, rfl⟩
    · obtain ⟨k, p', hp', rfl⟩ := ih h
      exact ⟨k, p', List.mem_cons_of_mem _ hp', rfl⟩

theorem contents_deleted (a : EArray) (limit r n : Nat) (ps : List (Part (List Byte))) :
    contents (a.deleted ps limit r n).1 = (contents ps).take r ++ (contents ps).drop (r + n) := by
  rw [deleted_fst, (rebalanced_balanced (e := 0) (K := limit) (H := fun _ _ => True) (fun _ _ _ _ => trivial) (le_refl limit) _).contents,
    contents_filter, contents_leftOvers]
  rfl

theorem deleted_ok (a : EArray) (hK : limit ≤ K) (r n : Nat) (hH : PrefixClosed H) (hnew : ∀ p ∈ ps, p.written = false)
    (hok : ∀ p ∈ ps, PartOk e K H p) : ∀ p ∈ (a.deleted ps limit r n).1, PartOk e K H p := by
  rw [deleted_fst]
  refine (rebalanced_balanced hH hK _).ok fun q hq => ?_
  obtain ⟨k, p, hp, rfl⟩ := mem_leftOvers (List.mem_of_mem_filter hq)
  exact leftOver_ok hH (hok p hp) (hnew p hp)

theorem slabs_deleted (a : EArray) (limit r n : Nat) (ps : List (Part (List Byte))) :
    ((a.deleted ps limit r n).1.map Part.slab).Sublist (ps.map Part.slab) := by
  rw [deleted_fst]
  refine (rebalanced_balanced (e := 0) (K := limit) (H := fun _ _ => True) (fun _ _ _ _ => trivial) (le_refl limit) _).slabs.trans ?_
  rw [← slabs_leftOvers r n 0 ps]
  exact List.filter_sublist.map _

/-! ### Splitting -/

theorem contents_splitParts (ps : List (Part (List Byte))) (r : Nat) :
    contents (splitParts ps r).1 = (contents ps).take r ∧ contents (splitParts ps r).2 = (contents ps).drop r := by
  induction ps generalizing r with
  | nil => simp [splitParts]
  | cons p ps ih =>
    rw [splitParts]
    split
    · next h => subst h; simp
    · split
      · next h =>
        obtain ⟨h1, h2⟩ := ih (r - p.items.length)
        dsimp only
        rw [contents_cons, contents_cons, h1, h2, List.take_append, List.drop_append, List.take_of_length_le h, List.drop_of_length_le h,
          List.nil_append]
        exact ⟨rfl, rfl⟩
      · next h =>
        rw [contents_cons, contents_cons, contents_cons, contents_nil, List.append_nil, List.take_append_of_le_length (by omega),
          List.drop_append_of_le_length (by omega)]
        exact ⟨rfl, rfl⟩

theorem splitParts_ok (r : Nat) (hH : PrefixClosed H) (hok : ∀ p ∈ ps, PartOk e K H p) :
    (∀ p ∈ (splitParts ps r).1, PartOk e K H p) ∧ ∀ p ∈ (splitParts ps r).2, PartOk e K H p := by
  induction ps generalizing r with
  | nil => exact ⟨fun p hp => (by cases hp), fun p hp => (by cases hp)⟩
  | cons p ps ih =>
    have hp := hok p List.mem_cons_self
    have hps (q : Part (List Byte)) (hq : q ∈ ps) := hok q (List.mem_cons_of_mem _ hq)
    rw [splitParts]
    split
    · exact ⟨fun p hp => (by cases hp), hok⟩
    · split
      · obtain ⟨h1, h2⟩ := ih (r - p.items.length) hps
        exact ⟨fun q hq => (List.mem_cons.1 hq).elim (fun e => e ▸ hp) (h1 q), h2⟩
      · have hroom := hp.room
        refine ⟨fun q hq => ?_, fun q hq => ?_⟩
        · rw [List.mem_singleton.1 hq]
          refine ⟨fun z hz => hp.sizes z (List.mem_of_mem_take hz), ?_, fun hw n hn => hH n r _ (hp.stands hw n hn)⟩
          exact (List.length_take_le' _ _).trans hroom
        · rcases List.mem_cons.1 hq with rfl | hq
          · refine ⟨fun z hz => hp.sizes z (List.mem_of_mem_drop hz), ?_, fun hw => by cases hw⟩
            exact (List.length_drop ▸ Nat.sub_le _ _ : (p.items.drop r).length ≤ p.items.length).trans hroom
          · exact hps q hq

theorem slabs_splitParts (ps : List (Part (List Byte))) (r : Nat) :
    (splitParts ps r).1.filterMap Part.slab ++ (splitParts ps r).2.filterMap Part.slab = ps.filterMap Part.slab := by
  induction ps generalizing r with
  | nil => rfl
  | cons p ps ih =>
    rw [splitParts]
    split
    · rfl
    · split
      · have := ih (r - p.items.length)
        dsimp only
        rw [List.filterMap_cons, List.filterMap_cons, ← this]
        cases p.slab <;> rfl
      · rw [List.filterMap_cons, List.filterMap_cons, List.filterMap_cons]
        cases p.slab <;> rfl

theorem placed_splitParts (r : Nat) (h : AllPlaced ps) : AllPlaced (splitParts ps r).1 := by
  induction ps generalizing r with
  | nil => exact h
  | cons p ps ih =>
    have hcons : none ≠ p.slab ∧ AllPlaced ps := by
      simpa [AllPlaced, List.map_cons, List.mem_cons, not_or] using h
    rw [splitParts]
    split
    · exact fun hn => nomatch hn
    · split
      · intro hn
        exact (List.mem_cons.1 hn).elim hcons.1 (ih _ hcons.2)
      · intro hn
        exact (List.mem_singleton.1 hn ▸ hcons.1) rfl

/-! ### Joining -/

/-- A list of leaves whose marks alone differ. -/
def SameLeaves (ps qs : List (Part (List Byte))) : Prop :=
  ps.map (fun p => (p.slab, p.items, p.written)) = qs.map fun p => (p.slab, p.items, p.written)

theorem SameLeaves.contents (h : SameLeaves ps qs) : contents ps = contents qs := by
  have := congrArg (fun l => l.flatMap fun x : Option Nat × List (List Byte) × Bool => x.2.1) h
  simp only [List.flatMap_map] at this
  exact this

theorem SameLeaves.slabs (h : SameLeaves ps qs) : ps.map Part.slab = qs.map Part.slab := by
  have := congrArg (fun l => l.map fun x : Option Nat × List (List Byte) × Bool => x.1) h
  simp only [List.map_map] at this
  exact this

theorem SameLeaves.ok (h : SameLeaves ps qs) (hok : ∀ p ∈ qs, PartOk e K H p) : ∀ p ∈ ps, PartOk e K H p := by
  intro p hp
  have hmem : (p.slab, p.items, p.written) ∈ qs.map fun p => (p.slab, p.items, p.written) := h ▸ List.mem_map_of_mem hp
  obtain ⟨q, hq, he⟩ := List.mem_map.1 hmem
  obtain ⟨h1, h2⟩ := Prod.mk.inj he
  obtain ⟨h2, h3⟩ := Prod.mk.inj h2
  obtain ⟨hs, hr, hst⟩ := hok q hq
  exact ⟨h2 ▸ hs, h2 ▸ hr, fun hw n hn => h2 ▸ hst (h3.trans hw) n (h1.trans hn)⟩

theorem sameLeaves_markLast (ps : List (Part (List Byte))) : SameLeaves (markLast ps) ps := by
  induction ps with
  | nil => rfl
  | cons p ps ih =>
    cases ps with
    | nil => rfl
    | cons q ps => exact congrArg (List.cons _) ih

theorem sameLeaves_markFirst (ps : List (Part (List Byte))) : SameLeaves (markFirst ps) ps := by
  cases ps with
  | nil => rfl
  | cons p ps => rfl

theorem sameLeaves_joinParts (ps qs : List (Part (List Byte))) : SameLeaves (joinParts ps qs) (ps ++ qs) := by
  unfold joinParts
  split
  · next h =>
    rw [List.isEmpty_iff.1 h, List.append_nil]
    rfl
  · unfold SameLeaves
    rw [List.map_append, List.map_append, sameLeaves_markLast ps, sameLeaves_markFirst qs]

/-- Leaves that go to other parents. -/
theorem sameLeaves_parents (f : Nat → Nat) (ps : List (Part (List Byte))) :
    SameLeaves (((List.range ps.length).zip ps).map fun p => { p.2 with parent := f p.1 }) ps := by
  unfold SameLeaves
  rw [List.map_map]
  exact range_zip_map ps fun p => (p.slab, p.items, p.written)

end

end Sys2Proof.Machine
end

section
/-! PROOFS. The leaves of an array as they stand in its slabs, free slab numbers, and the slabs of a changed tree (R68, R85, R86). -/

namespace Sys2Proof.Machine

/-! ### Leaves in their slabs -/

theorem EArray.len_eq (a : EArray) : a.len = (a.leaves.map Prod.snd).sum := List.sum_eq_foldl.symm

section
variable {s t : State} {vf die e K limit : Nat} {a : EArray}

/-- A slab holds elements from its first byte. -/
def State.holds (s : State) (vf die n : Nat) (xs : List (List Byte)) : Prop :=
  Memory.bytes s.mem (s.slabAddr vf die n) xs.flatten.length = xs.flatten

theorem Memory.bytes_append (m : Memory) (a k n : Nat) : Memory.bytes m a (k + n) = Memory.bytes m a k ++ Memory.bytes m (a + k) n := by
  induction k generalizing a with
  | zero => simp [Memory.bytes]
  | succ k ih =>
    have h1 : k + 1 + n = (k + n) + 1 := by omega
    have h2 : a + (k + 1) = a + 1 + k := by omega
    rw [h1, Memory.bytes, ih, Memory.bytes, h2, List.cons_append]

theorem State.holds_prefixClosed (s : State) (vf die : Nat) : PrefixClosed (s.holds vf die) := by
  intro n k xs h
  unfold State.holds at h ⊢
  have hsplit : xs.flatten = (xs.take k).flatten ++ (xs.drop k).flatten := by rw [← List.flatten_append, List.take_append_drop]
  rw [hsplit, List.length_append, Memory.bytes_append] at h
  exact (List.append_inj h (Memory.length_bytes ..)).1

/-- The elements of a leaf. -/
def State.leafItems (s : State) (vf : Nat) (a : EArray) (q : Nat × Nat) : List (List Byte) :=
  (List.range q.2).map fun i => Memory.bytes s.mem (s.slabAddr vf a.die q.1 + a.esize * i) a.esize

theorem flatten_map_bytes (m : Memory) (base e n : Nat) :
    ((List.range n).map fun i => Memory.bytes m (base + e * i) e).flatten = Memory.bytes m base (e * n) := by
  induction n with
  | zero => rfl
  | succ n ih =>
    rw [List.range_succ, List.map_append, List.flatten_append, ih, Nat.mul_succ, Memory.bytes_append]
    simp

theorem leafParts_map (s : State) (vf : Nat) (a : EArray) : (s.leafParts vf a).map (fun p => (p.slab, p.items, p.written)) =
    a.leaves.map fun q => (some q.1, s.leafItems vf a q, false) := by
  unfold State.leafParts
  rw [List.map_map]
  exact range_zip_map a.leaves fun q => (some q.1, s.leafItems vf a q, false)

theorem mem_leafParts {p : Part (List Byte)} (h : p ∈ s.leafParts vf a) :
    ∃ q ∈ a.leaves, p.slab = some q.1 ∧ p.items = s.leafItems vf a q ∧ p.written = false := by
  have hmem : (p.slab, p.items, p.written) ∈ a.leaves.map fun q => (some q.1, s.leafItems vf a q, false) :=
    leafParts_map s vf a ▸ List.mem_map_of_mem h
  obtain ⟨q, hq, he⟩ := List.mem_map.1 hmem
  obtain ⟨h1, h2⟩ := Prod.mk.inj he
  obtain ⟨h2, h3⟩ := Prod.mk.inj h2
  exact ⟨q, hq, h1.symm, h2.symm, h3.symm⟩

theorem leafParts_new (s : State) (vf : Nat) (a : EArray) : ∀ p ∈ s.leafParts vf a, p.written = false := fun _ hp =>
  let ⟨_, _, _, _, h⟩ := mem_leafParts hp
  h

theorem contents_leafParts (s : State) (vf : Nat) (a : EArray) : contents (s.leafParts vf a) = elements s vf a := by
  have := congrArg (fun l => l.flatMap fun x : Option Nat × List (List Byte) × Bool => x.2.1) (leafParts_map s vf a)
  simp only [List.flatMap_map] at this
  exact this

theorem leafParts_slabs (s : State) (vf : Nat) (a : EArray) : (s.leafParts vf a).map Part.slab = a.leaves.map fun q => some q.1 := by
  have := congrArg (fun l => l.map fun x : Option Nat × List (List Byte) × Bool => x.1) (leafParts_map s vf a)
  simp only [List.map_map] at this
  exact this

theorem leafParts_numbers (s : State) (vf : Nat) (a : EArray) : (s.leafParts vf a).filterMap Part.slab = a.leaves.map Prod.fst := by
  rw [filterMap_slab_eq, leafParts_slabs, List.filterMap_map]
  exact congrFun (List.filterMap_eq_map (f := Prod.fst)) a.leaves

theorem leafParts_placed (s : State) (vf : Nat) (a : EArray) : AllPlaced (s.leafParts vf a) := by
  rw [AllPlaced, leafParts_slabs]
  simp

theorem leafParts_lengths (s : State) (vf : Nat) (a : EArray) :
    (s.leafParts vf a).map (fun p => p.items.length) = a.leaves.map Prod.snd := by
  have := congrArg (fun l => l.map fun x : Option Nat × List (List Byte) × Bool => x.2.1.length) (leafParts_map s vf a)
  simp only [List.map_map] at this
  refine this.trans (List.map_congr_left fun q _ => ?_)
  simp [State.leafItems]

theorem length_elements (s : State) (vf : Nat) (a : EArray) : (elements s vf a).length = a.len := by
  rw [← contents_leafParts, contents, List.length_flatMap, EArray.len_eq, leafParts_lengths]

theorem leafParts_isEmpty (s : State) (vf : Nat) (a : EArray) : (s.leafParts vf a).isEmpty = a.leaves.isEmpty := by
  have := congrArg List.length (leafParts_slabs s vf a)
  rw [List.length_map, List.length_map] at this
  rw [Bool.eq_iff_iff, List.isEmpty_iff_length_eq_zero, List.isEmpty_iff_length_eq_zero, this]

/-- The leaves of an array that fit their slabs. -/
theorem leafParts_ok (s : State) (vf : Nat) (hfit : ∀ q ∈ a.leaves, q.2 * a.esize ≤ 4096) :
    ∀ p ∈ s.leafParts vf a, PartOk a.esize (4096 / a.esize) (s.holds vf a.die) p := by
  intro p hp
  obtain ⟨q, hq, hslab, hitems, -⟩ := mem_leafParts hp
  have hpos : 0 < a.esize := Nat.mul_pos (by decide) (Nat.two_pow_pos a.size)
  refine ⟨fun z hz => ?_, ?_, fun _ n hn => ?_⟩
  · rw [hitems] at hz
    obtain ⟨i, -, rfl⟩ := List.mem_map.1 hz
    exact Memory.length_bytes ..
  · rw [hitems, State.leafItems, List.length_map, List.length_range]
    exact (Nat.le_div_iff_mul_le hpos).2 (hfit q hq)
  · rw [hslab] at hn
    cases hn
    rw [hitems, State.holds, State.leafItems, flatten_map_bytes, Memory.length_bytes]

theorem leafLimit_bounds (s : State) (hsize : a.size ≤ 4) : 0 < s.leafLimit a ∧ s.leafLimit a ≤ 4096 / a.esize := by
  have hle : a.esize ≤ 64 := by
    have : 2 ^ a.size ≤ 2 ^ 4 := Nat.pow_le_pow_right (by decide) hsize
    unfold EArray.esize
    omega
  have hpos : 0 < a.esize := Nat.mul_pos (by decide) (Nat.two_pow_pos a.size)
  have hroom : 0 < 4096 / a.esize := Nat.div_pos (by omega) hpos
  unfold State.leafLimit
  dsimp only
  split
  · exact ⟨hroom, le_refl _⟩
  · omega

theorem length_newElement (c : Ctx) (n : Nat) (data : Bool) (x : BitVec 6) (j : Nat) : (c.newElement n data x j).length = n := by
  unfold Ctx.newElement
  rw [List.length_append, toBytes_length, List.length_replicate]
  omega

/-! ### Free slab numbers -/

theorem le_nthFree (k : Nat) (us : List Nat) : k ≤ nthFree k us := by
  induction us generalizing k with
  | nil => exact le_refl k
  | cons u us ih =>
    rw [nthFree]
    split
    · exact (Nat.le_succ k).trans (ih _)
    · exact le_refl k

theorem nthFree_le (k : Nat) (us : List Nat) : nthFree k us ≤ k + us.length := by
  induction us generalizing k with
  | nil => exact le_refl k
  | cons u us ih =>
    rw [nthFree, List.length_cons]
    split
    · exact (ih _).trans (by omega)
    · omega

theorem nthFree_not_mem (k : Nat) {us : List Nat} (h : us.Pairwise (· < ·)) : nthFree k us ∉ us := by
  induction us generalizing k with
  | nil => exact List.not_mem_nil
  | cons u us ih =>
    obtain ⟨hu, hus⟩ := List.pairwise_cons.1 h
    rw [nthFree]
    split
    · next hle =>
      have := le_nthFree (k + 1) us
      exact fun hm => (List.mem_cons.1 hm).elim (fun e => by omega) (ih _ hus)
    · next hlt => exact fun hm => (List.mem_cons.1 hm).elim (fun e => by omega) fun hm => by have := hu _ hm; omega

theorem mem_insertNat {x y : Nat} {l : List Nat} : y ∈ insertNat x l ↔ y = x ∨ y ∈ l := by
  induction l with
  | nil => simp [insertNat]
  | cons z l ih =>
    rw [insertNat]
    split
    · simp
    · split
      · next h => subst h; simp
      · rw [List.mem_cons, ih, List.mem_cons]
        exact or_left_comm

theorem insertNat_sorted {x : Nat} {l : List Nat} (h : l.Pairwise (· < ·)) : (insertNat x l).Pairwise (· < ·) := by
  induction l with
  | nil => exact List.pairwise_singleton ..
  | cons z l ih =>
    obtain ⟨hz, hl⟩ := List.pairwise_cons.1 h
    rw [insertNat]
    split
    · next hlt => exact List.pairwise_cons.2 ⟨fun y hy => (List.mem_cons.1 hy).elim (fun e => e ▸ hlt) fun hy => hlt.trans (hz y hy), h⟩
    · split
      · exact h
      · refine List.pairwise_cons.2 ⟨fun y hy => ?_, ih hl⟩
        rcases mem_insertNat.1 hy with rfl | hy
        · omega
        · exact hz y hy

theorem length_insertNat (x : Nat) (l : List Nat) : (insertNat x l).length ≤ l.length + 1 := by
  induction l with
  | nil => exact le_refl _
  | cons z l ih =>
    rw [insertNat]
    split
    · exact le_refl _
    · split
      · exact Nat.le_succ _
      · exact Nat.succ_le_succ ih

/-- A sorted list has the numbers of the list, each once. -/
theorem sortNats_spec (l : List Nat) : (sortNats l).Pairwise (· < ·) ∧ (∀ x, x ∈ sortNats l ↔ x ∈ l) ∧ (sortNats l).length ≤ l.length := by
  have key (l acc : List Nat) (h : acc.Pairwise (· < ·)) : (l.foldl (fun a x => insertNat x a) acc).Pairwise (· < ·) ∧
      (∀ x, x ∈ l.foldl (fun a x => insertNat x a) acc ↔ x ∈ l ∨ x ∈ acc) ∧
      (l.foldl (fun a x => insertNat x a) acc).length ≤ l.length + acc.length := by
    induction l generalizing acc with
    | nil => exact ⟨h, by simp, by simp⟩
    | cons y l ih =>
      obtain ⟨h1, h2, h3⟩ := ih (insertNat y acc) (insertNat_sorted h)
      refine ⟨h1, fun x => ?_, ?_⟩
      · rw [List.foldl_cons, h2, mem_insertNat, List.mem_cons]
        exact or_left_comm.trans or_assoc.symm
      · have := length_insertNat y acc
        rw [List.foldl_cons, List.length_cons]
        omega
  obtain ⟨h1, h2, h3⟩ := key l [] List.Pairwise.nil
  exact ⟨h1, fun x => (h2 x).trans (or_iff_left List.not_mem_nil), h3⟩

/-- A free name of a room that is not full. -/
theorem freshName_spec (n room : Nat) {used : List Nat} (hs : used.Pairwise (· < ·)) (hlt : used.length < room) :
    freshName n room used ∉ used ∧ freshName n room used < room := by
  refine ⟨nthFree_not_mem _ hs, ?_⟩
  have hle := nthFree_le (Config.fresh n % (room - used.length)) used
  have hmod := Nat.mod_lt (Config.fresh n) (show 0 < room - used.length by omega)
  unfold freshName
  omega

/-- Free slabs of a pool that has room for them (R85, R86). -/
theorem freeSlabs_spec (tick room : Nat) (used : List Nat) (n : Nat) (h : used.length + n ≤ room) :
    (freeSlabs tick room used n).length = n ∧ (freeSlabs tick room used n).Nodup ∧
      ∀ x ∈ freeSlabs tick room used n, x < room ∧ x ∉ used := by
  induction n generalizing tick used with
  | zero => exact ⟨rfl, List.nodup_nil, fun x hx => nomatch hx⟩
  | succ n ih =>
    obtain ⟨hsort, hmem, hlen⟩ := sortNats_spec used
    obtain ⟨hnew, hroom⟩ := freshName_spec tick room hsort (by omega)
    rw [hmem] at hnew
    obtain ⟨h1, h2, h3⟩ := ih (tick + 1) (freshName tick room (sortNats used) :: used) (by rw [List.length_cons]; omega)
    refine ⟨congrArg Nat.succ h1, List.nodup_cons.2 ⟨fun hx => (h3 _ hx).2 List.mem_cons_self, h2⟩, fun x hx => ?_⟩
    rcases List.mem_cons.1 hx with rfl | hx
    · exact ⟨hroom, hnew⟩
    · exact ⟨(h3 x hx).1, fun hu => (h3 x hx).2 (List.mem_cons_of_mem _ hu)⟩

theorem length_freeSlabs (tick room : Nat) (used : List Nat) (n : Nat) : (freeSlabs tick room used n).length = n := by
  induction n generalizing tick used with
  | zero => rfl
  | succ n ih => exact congrArg Nat.succ (ih ..)

/-- Slabs that pass the check are there in the pool (R86). -/
theorem slabCheck_room {need : Nat} (h : s.slabCheck vf die need = none) (hn : 0 < need) :
    ((s.vf vf).usedSlabs die).length + need ≤ ((s.vf vf).slabPool die).2 := by
  unfold State.slabCheck at h
  dsimp only at h
  rw [if_neg (by omega)] at h
  split at h
  · cases h
  · split at h
    · cases h
    · omega

/-! ### Slabs for the leaves -/

variable {ps : List (Part (List Byte))} {fresh : List Nat}

theorem giveSlabs_placed {p : Part (List Byte)} {n : Nat} (hn : p.slab = some n) :
    giveSlabs (p :: ps) fresh = (n, p.items, p.written) :: giveSlabs ps fresh := by
  cases p
  cases hn
  cases fresh <;> rfl

theorem giveSlabs_fresh {p : Part (List Byte)} (hn : p.slab = none) :
    ∃ n fr, giveSlabs (p :: ps) fresh = (n, p.items, true) :: giveSlabs ps fr ∧ ∀ m fr', fresh = m :: fr' → n = m ∧ fr = fr' := by
  cases p
  cases hn
  cases fresh with
  | nil => exact ⟨0, [], rfl, fun _ _ h => by cases h⟩
  | cons m fr => exact ⟨m, fr, rfl, fun _ _ h => by cases h; exact ⟨rfl, rfl⟩⟩

theorem giveSlabs_items (ps : List (Part (List Byte))) (fresh : List Nat) :
    (giveSlabs ps fresh).map (fun x => x.2.1) = ps.map Part.items := by
  induction ps generalizing fresh with
  | nil => rfl
  | cons p ps ih =>
    cases hn : p.slab with
    | some n => rw [giveSlabs_placed hn, List.map_cons, List.map_cons, ih]
    | none =>
      obtain ⟨n, fr, he, -⟩ := giveSlabs_fresh (ps := ps) (fresh := fresh) hn
      rw [he, List.map_cons, List.map_cons, ih]

/-- The slabs of the leaves are those that they had and, for the others, new ones. -/
theorem giveSlabs_perm (ps : List (Part (List Byte))) (fresh : List Nat) (h : leafNeed ps ≤ fresh.length) :
    ((giveSlabs ps fresh).map Prod.fst).Perm (ps.filterMap Part.slab ++ fresh.take (leafNeed ps)) := by
  induction ps generalizing fresh with
  | nil => simp [giveSlabs, leafNeed]
  | cons p ps ih =>
    unfold leafNeed at h ⊢
    rw [List.countP_cons] at h ⊢
    cases hn : p.slab with
    | some n =>
      rw [hn] at h
      rw [giveSlabs_placed hn, List.map_cons, List.filterMap_cons, hn]
      exact (ih fresh h).cons n
    | none =>
      rw [hn] at h
      obtain ⟨n, fr, he, hfresh⟩ := giveSlabs_fresh (ps := ps) (fresh := fresh) hn
      cases fresh with
      | nil => exact absurd h (Nat.not_succ_le_zero _)
      | cons m fr' =>
        obtain ⟨rfl, rfl⟩ := hfresh m fr' rfl
        rw [he, List.map_cons, List.filterMap_cons, hn]
        exact ((ih fr (Nat.le_of_succ_le_succ h)).cons n).trans List.perm_middle.symm

/-- A leaf that is not written has the slab and the elements that it had. -/
theorem mem_giveSlabs {x : Nat × List (List Byte) × Bool} (h : x ∈ giveSlabs ps fresh) :
    ∃ p ∈ ps, p.items = x.2.1 ∧ (x.2.2 = false → p.slab = some x.1 ∧ p.written = false) := by
  induction ps generalizing fresh with
  | nil => cases h
  | cons p ps ih =>
    have hrest (fr : List Nat) (h : x ∈ giveSlabs ps fr) :
        ∃ q ∈ p :: ps, q.items = x.2.1 ∧ (x.2.2 = false → q.slab = some x.1 ∧ q.written = false) := by
      obtain ⟨q, hq, hx⟩ := ih h
      exact ⟨q, List.mem_cons_of_mem _ hq, hx⟩
    cases hn : p.slab with
    | some n =>
      rw [giveSlabs_placed hn] at h
      rcases List.mem_cons.1 h with rfl | h
      · exact ⟨p, List.mem_cons_self, rfl, fun hw => ⟨hn, hw⟩⟩
      · exact hrest _ h
    | none =>
      obtain ⟨n, fr, he, -⟩ := giveSlabs_fresh (ps := ps) (fresh := fresh) hn
      rw [he] at h
      rcases List.mem_cons.1 h with rfl | h
      · exact ⟨p, List.mem_cons_self, rfl, fun hw => by cases hw⟩
      · exact hrest _ h

end

end Sys2Proof.Machine
end

section
/-! PROOFS. The change of an array's tree: which tables it changes, which bytes it may reach, and what its slabs hold after it
(R68, R85, R381). -/

namespace Sys2Proof.Machine

/-! ### The tables -/

section
variable {s t u : State} {vf : Nat} {a : EArray} {ps : List (Part (List Byte))} {levels : List (List Nat)}

/-- The leaves that an array takes, with their slabs. -/
def State.treeLeaves (s : State) (vf : Nat) (a : EArray) (ps : List (Part (List Byte))) (levels : List (List Nat)) :
    List (Nat × List (List Byte) × Bool) :=
  giveSlabs ps (freeSlabs s.tick ((s.vf vf).slabPool a.die).2 ((s.vf vf).usedSlabs a.die) (leafNeed ps + (nodeSlabs levels - a.nodes.length)))

/-- The slabs of the nodes that an array takes. -/
def State.treeNodes (s : State) (vf : Nat) (a : EArray) (ps : List (Part (List Byte))) (levels : List (List Nat)) : List Nat :=
  a.nodes.take (nodeSlabs levels) ++
    (freeSlabs s.tick ((s.vf vf).slabPool a.die).2 ((s.vf vf).usedSlabs a.die) (leafNeed ps + (nodeSlabs levels - a.nodes.length))).drop (leafNeed ps)

/-- The array with its new leaves and levels. -/
def State.grown (s : State) (vf : Nat) (a : EArray) (ps : List (Part (List Byte))) (levels : List (List Nat)) : EArray :=
  { a with leaves := (s.treeLeaves vf a ps levels).map fun x => (x.1, x.2.1.length), levels := levels, nodes := s.treeNodes vf a ps levels }

theorem reshape_eq (s : State) (vf idx : Nat) (a : EArray) (own : List Nat) (ps : List (Part (List Byte))) (levels : List (List Nat)) :
    ∃ m, s.reshape vf idx a own ps levels = (s.storeTree vf a.die (s.treeLeaves vf a ps levels) (s.treeNodes vf a ps levels)).modVf vf
      fun v => { v.setArray idx (s.grown vf a ps levels) with slabs := SMap.set v.slabs a.die m } := ⟨_, rfl⟩

theorem storeTree_step (s : State) (vf die : Nat) (leaves : List (Nat × List (List Byte) × Bool)) (nodes : List Nat) :
    s.Moves 0 (fun _ => True) (s.storeTree vf die leaves nodes) :=
  .storeTree (fun _ _ => trivial) leaves nodes (fun _ _ _ _ _ _ => trivial) fun _ _ => trivial

theorem storeTree_samePools (s : State) (vf die : Nat) (leaves : List (Nat × List (List Byte) × Bool)) (nodes : List Nat) :
    s.SamePools (s.storeTree vf die leaves nodes) vf := (storeTree_step s vf die leaves nodes).step.samePools vf

theorem State.SamePools.trans {v : State} (h : s.SamePools t vf) (k : t.SamePools v vf) : s.SamePools v vf :=
  ⟨k.board.trans h.board, k.block.trans h.block⟩

theorem State.SamePools.symm (h : s.SamePools t vf) : t.SamePools s vf := ⟨h.board.symm, h.block.symm⟩

theorem State.samePools_modVf (s : State) (vf : Nat) (f : Vf → Vf) (hf : ∀ v, (f v).block = v.block) : s.SamePools (s.modVf vf f) vf :=
  ⟨rfl, by rw [State.vf_modVf, if_pos rfl, hf]⟩

/-- The change of a tree lists the array and sets the slabs in use. -/
theorem reshape_vf (s : State) (vf idx : Nat) (a : EArray) (own : List Nat) (ps : List (Part (List Byte))) (levels : List (List Nat)) :
    ∃ m, ∀ w, (s.reshape vf idx a own ps levels).vf w = if vf = w then
      { (s.vf vf).setArray idx (s.grown vf a ps levels) with slabs := SMap.set (s.vf vf).slabs a.die m } else s.vf w := by
  obtain ⟨m, hm⟩ := reshape_eq s vf idx a own ps levels
  refine ⟨m, fun w => ?_⟩
  rw [hm, State.vf_modVf]
  simp only [(storeTree_step s vf a.die _ _).step.vf]

theorem reshape_samePools (s : State) (vf idx : Nat) (a : EArray) (own : List Nat) (ps : List (Part (List Byte))) (levels : List (List Nat)) :
    s.SamePools (s.reshape vf idx a own ps levels) vf := by
  obtain ⟨m, hm⟩ := reshape_eq s vf idx a own ps levels
  rw [hm]
  exact (storeTree_samePools ..).trans (State.samePools_modVf _ _ _ fun _ => rfl)

theorem reshape_rlb (s : State) (vf idx : Nat) (a : EArray) (own : List Nat) (ps : List (Part (List Byte))) (levels : List (List Nat)) (n : Nat) :
    ((s.reshape vf idx a own ps levels).core n).rlb = (s.core n).rlb := by
  obtain ⟨m, hm⟩ := reshape_eq s vf idx a own ps levels
  rw [hm]
  exact (storeTree_step s vf a.die _ _).rlb n

theorem reshape_other (s : State) {vf w : Nat} (hw : w ≠ vf) (idx : Nat) (a : EArray) (own : List Nat) (ps : List (Part (List Byte)))
    (levels : List (List Nat)) : (s.reshape vf idx a own ps levels).vf w = s.vf w := by
  obtain ⟨m, hm⟩ := reshape_vf s vf idx a own ps levels
  rw [hm, if_neg hw.symm]

theorem reshape_arrays (s : State) (vf idx : Nat) (a : EArray) (own : List Nat) (ps : List (Part (List Byte))) (levels : List (List Nat)) (k : Nat) :
    SMap.get? ((s.reshape vf idx a own ps levels).vf vf).arrays k =
      if idx = k then some (s.grown vf a ps levels) else SMap.get? (s.vf vf).arrays k := by
  obtain ⟨m, hm⟩ := reshape_vf s vf idx a own ps levels
  rw [hm, if_pos rfl]
  exact SMap.get?_set ..

theorem reshape_anchors (s : State) (vf idx : Nat) (a : EArray) (own : List Nat) (ps : List (Part (List Byte))) (levels : List (List Nat)) :
    ((s.reshape vf idx a own ps levels).vf vf).anchors = (s.vf vf).anchors ∧
      ((s.reshape vf idx a own ps levels).vf vf).anchorGen = (s.vf vf).anchorGen := by
  obtain ⟨m, hm⟩ := reshape_vf s vf idx a own ps levels
  rw [hm, if_pos rfl]
  exact ⟨rfl, rfl⟩

/-! ### The bytes that it may reach -/

/-- The slabs of the leaves: those that they had and, where the pool has room for the new ones, slabs of the pool (R85, R86). -/
theorem mem_treeLeaves {x : Nat × List (List Byte) × Bool} (hx : x ∈ s.treeLeaves vf a ps levels)
    (hroom : 0 < leafNeed ps → ((s.vf vf).usedSlabs a.die).length + (leafNeed ps + (nodeSlabs levels - a.nodes.length)) ≤
      ((s.vf vf).slabPool a.die).2) :
    x.1 ∈ ps.filterMap Part.slab ∨ x.1 < ((s.vf vf).slabPool a.die).2 ∧ x.1 ∉ (s.vf vf).usedSlabs a.die := by
  have hperm := giveSlabs_perm ps (freeSlabs s.tick ((s.vf vf).slabPool a.die).2 ((s.vf vf).usedSlabs a.die)
    (leafNeed ps + (nodeSlabs levels - a.nodes.length))) (by rw [length_freeSlabs]; omega)
  rcases List.mem_append.1 (hperm.subset (List.mem_map_of_mem hx)) with h | h
  · exact .inl h
  · rcases Nat.eq_zero_or_pos (leafNeed ps) with hz | hz
    · rw [hz, List.take_zero] at h
      cases h
    · obtain ⟨-, -, hfree⟩ := freeSlabs_spec s.tick _ _ _ (hroom hz)
      exact .inr (hfree _ (List.mem_of_mem_take h))

theorem treeLeaves_nodup (hps : (ps.filterMap Part.slab).Nodup)
    (hused : 0 < leafNeed ps → ∀ n ∈ ps.filterMap Part.slab, n ∈ (s.vf vf).usedSlabs a.die)
    (hroom : 0 < leafNeed ps → ((s.vf vf).usedSlabs a.die).length + (leafNeed ps + (nodeSlabs levels - a.nodes.length)) ≤
      ((s.vf vf).slabPool a.die).2) : ((s.treeLeaves vf a ps levels).map Prod.fst).Nodup := by
  have hperm := giveSlabs_perm ps (freeSlabs s.tick ((s.vf vf).slabPool a.die).2 ((s.vf vf).usedSlabs a.die)
    (leafNeed ps + (nodeSlabs levels - a.nodes.length))) (by rw [length_freeSlabs]; omega)
  refine hperm.nodup_iff.2 ?_
  rcases Nat.eq_zero_or_pos (leafNeed ps) with hz | hz
  · rw [hz, List.take_zero, List.append_nil]
    exact hps
  · obtain ⟨-, hnodup, hfree⟩ := freeSlabs_spec s.tick _ _ _ (hroom hz)
    refine List.nodup_append.2 ⟨hps, hnodup.sublist (List.take_sublist ..), fun n hn m hm e => ?_⟩
    exact (hfree _ (List.mem_of_mem_take hm)).2 (e ▸ hused hz n hn)

theorem flatten_length {e : Nat} {xs : List (List Byte)} (h : ∀ x ∈ xs, x.length = e) : xs.flatten.length = xs.length * e := by
  rw [List.length_flatten, List.map_congr_left h, List.map_const', List.sum_replicate, smul_eq_mul]

/-- Elements that are not more than a slab has room for. -/
theorem PartOk.bytes {e : Nat} {H : Nat → List (List Byte) → Prop} {p : Part (List Byte)} (hp : PartOk e (4096 / e) H p) :
    p.items.flatten.length ≤ 4096 := by
  rw [flatten_length hp.sizes]
  exact (Nat.mul_le_mul_right e hp.room).trans (Nat.div_mul_le_self 4096 e)

/-- The change of a tree reaches the slabs of the context and the bitmap alone. -/
theorem Ctx.Accesses.reshape {c : Ctx} {g : Gang} {die : Nat} (h : c.Accesses s arrayLoose (c.arrayReach s die) g t)
    (hpools : s.SamePools t c.vf) (hdie : a.die = die) (idx : Nat) (own : List Nat)
    (hroom : 0 < leafNeed ps → ((t.vf c.vf).usedSlabs a.die).length + (leafNeed ps + (nodeSlabs levels - a.nodes.length)) ≤
      ((t.vf c.vf).slabPool a.die).2)
    (hslabs : ∀ n ∈ ps.filterMap Part.slab, s.hasSlab c.vf die n)
    (hok : (∀ k y, SMap.get? (s.vf c.vf).arrays k = some y → y.size ≤ 4 ∧ ∀ p ∈ y.leaves, p.2 * y.esize ≤ 4096) →
      ∀ p ∈ ps, p.items.flatten.length ≤ 4096) :
    c.Accesses s arrayLoose (c.arrayReach s die) g (t.reshape c.vf idx a own ps levels) := by
  obtain ⟨m, hm⟩ := reshape_eq t c.vf idx a own ps levels
  rw [hm]
  refine (h.moves arrayLoose_caches (.storeTree h.within _ _ (fun x hx _ b hlo hhi hfit => ?_) fun n hbase _ => ?_)).modVf _ _ fun _ => rfl
  · obtain ⟨p, hp, hitems, -⟩ := mem_giveSlabs hx
    have hlen := hok hfit p hp
    rw [hitems] at hlen
    rw [hpools.slabAddr, hdie] at hlo hhi
    refine .inr (.inl ⟨x.1, ?_, hlo, by omega⟩)
    rcases mem_treeLeaves hx hroom with hn | ⟨hn, -⟩
    · exact hslabs _ hn
    · rw [hpools.slabPool, hdie] at hn
      exact .inl hn
  · rw [hpools.cfg] at hbase
    exact .inr (.inr ⟨hbase, n, by rw [hpools.bitmapByte, hdie]⟩)

end

/-! ### What the slabs hold after it -/

section
variable {s t : State} {vf die : Nat}

/-- No byte of the bitmap lies in a slab of the pool. -/
def State.CleanPool (s : State) (vf die : Nat) : Prop :=
  ∀ k b, k < ((s.vf vf).slabPool die).2 → s.slabAddr vf die k ≤ b → b < s.slabAddr vf die k + 4096 → (s.vf vf).cfg 288 8 ≠ 0 →
    ∀ n, b ≠ s.bitmapByte vf die n

theorem State.SamePools.cleanPool (h : s.SamePools t vf) (hc : s.CleanPool vf die) : t.CleanPool vf die := by
  intro k b hk hlo hhi hbase n
  rw [h.slabPool] at hk
  rw [h.slabAddr] at hlo hhi
  rw [h.cfg] at hbase
  rw [h.bitmapByte]
  exact hc k b hk hlo hhi hbase n

theorem State.SamePools.inPool (h : s.SamePools t vf) {n : Nat} (hn : n < ((s.vf vf).slabPool die).2) : n < ((t.vf vf).slabPool die).2 := by
  rw [h.slabPool]
  exact hn

/-- The bytes of a slab are as they were. -/
def State.SameSlab (s t : State) (vf die n : Nat) : Prop :=
  ∀ i, i < 4096 → ZMap.get t.mem (s.slabAddr vf die n + i) = ZMap.get s.mem (s.slabAddr vf die n + i)

theorem State.SameSlab.holds {n : Nat} {xs : List (List Byte)} (h : s.SameSlab t vf die n) (hp : s.SamePools t vf)
    (hlen : xs.flatten.length ≤ 4096) (hs : s.holds vf die n xs) : t.holds vf die n xs := by
  unfold State.holds at hs ⊢
  rw [hp.slabAddr]
  exact (bytes_congr fun i hi => h i (by omega)).trans hs

theorem State.SameSlab.trans {u : State} {n : Nat} (h : s.SameSlab t vf die n) (hp : s.SamePools t vf) (k : t.SameSlab u vf die n) :
    s.SameSlab u vf die n := fun i hi => by
  have := k i hi
  rw [hp.slabAddr] at this
  exact this.trans (h i hi)

/-- Two slabs of a pool that a die's memory has room for lie apart (R68). -/
theorem slabAddr_apart (s : State) (vf die : Nat) {n m : Nat} (hn : n < 2 ^ 25) (hm : m < 2 ^ 25) (hne : n ≠ m) :
    s.slabAddr vf die n + 4096 ≤ s.slabAddr vf die m ∨ s.slabAddr vf die m + 4096 ≤ s.slabAddr vf die n := by
  unfold State.slabAddr
  omega

theorem get_markSlab {n b : Nat} (h : (s.vf vf).cfg 288 8 ≠ 0 → b ≠ s.bitmapByte vf die n) :
    ZMap.get (s.markSlab vf die n).mem b = ZMap.get s.mem b := by
  unfold State.markSlab
  dsimp only
  split
  · rfl
  · next hbase =>
    split
    · exact ZMap.get_set_ne _ _ _ _ fun e => h hbase e.symm
    · rw [State.event_mem]

theorem markSlab_samePools (s : State) (vf die n : Nat) : s.SamePools (s.markSlab vf die n) vf :=
  (State.Moves.markSlab (core := 0) (P := fun _ => True) (die := die) (fun _ _ => trivial) n fun _ => trivial).step.samePools vf

theorem writeLeaf_samePools (s : State) (vf die : Nat) (x : Nat × List (List Byte) × Bool) : s.SamePools (s.writeLeaf vf die x) vf :=
  (State.Moves.writeLeaf (core := 0) (P := fun _ => True) (fun _ _ => trivial) x (fun _ _ _ _ => trivial) fun _ => trivial).step.samePools vf

theorem writeLeaves_samePools (s : State) (vf die : Nat) (leaves : List (Nat × List (List Byte) × Bool)) :
    s.SamePools (s.writeLeaves vf die leaves) vf :=
  (State.Moves.writeLeaves (core := 0) (P := fun _ => True) (fun _ _ => trivial) leaves (fun _ _ _ _ _ _ => trivial)
    fun _ _ => trivial).step.samePools vf

theorem markSlabs_samePools (s : State) (vf die : Nat) (nodes : List Nat) : s.SamePools (s.markSlabs vf die nodes) vf :=
  (State.Moves.markSlabs (core := 0) (P := fun _ => True) (die := die) (fun _ _ => trivial) nodes fun _ _ => trivial).step.samePools vf

/-- Memory after a leaf has been written, but for the bitmap. -/
theorem get_writeLeaf {x : Nat × List (List Byte) × Bool} {b : Nat} (h : (s.vf vf).cfg 288 8 ≠ 0 → b ≠ s.bitmapByte vf die x.1) :
    ZMap.get (s.writeLeaf vf die x).mem b =
      if x.2.2 = true then ZMap.get (Memory.store s.mem (s.slabAddr vf die x.1) x.2.1.flatten) b else ZMap.get s.mem b := by
  unfold State.writeLeaf
  dsimp only
  split
  · rw [List.flatMap_id]
    exact get_markSlab h
  · rfl

/-- A leaf that is written, or whose slab holds it, stands in its slab. -/
theorem holds_writeLeaf {x : Nat × List (List Byte) × Bool} (hc : s.CleanPool vf die) (hx : x.1 < ((s.vf vf).slabPool die).2)
    (hlen : x.2.1.flatten.length ≤ 4096) (h : x.2.2 = false → s.holds vf die x.1 x.2.1) :
    (s.writeLeaf vf die x).holds vf die x.1 x.2.1 := by
  unfold State.holds
  rw [(writeLeaf_samePools s vf die x).slabAddr]
  have hbit (i : Nat) (hi : i < x.2.1.flatten.length) : (s.vf vf).cfg 288 8 ≠ 0 → s.slabAddr vf die x.1 + i ≠ s.bitmapByte vf die x.1 :=
    fun hbase => hc x.1 _ hx (by omega) (by omega) hbase x.1
  by_cases hw : x.2.2 = true
  · have hstored := Memory.bytes_store x.2.1.flatten s.mem (s.slabAddr vf die x.1)
    exact (bytes_congr fun i hi => by rw [get_writeLeaf (hbit i hi), if_pos hw]).trans hstored
  · exact (bytes_congr fun i hi => by rw [get_writeLeaf (hbit i hi), if_neg hw]).trans (h (Bool.not_eq_true _ ▸ hw))

theorem sameSlab_writeLeaf {x : Nat × List (List Byte) × Bool} (hc : s.CleanPool vf die) (hpool : ((s.vf vf).slabPool die).2 ≤ 2 ^ 25)
    (hx : x.1 < ((s.vf vf).slabPool die).2) (hlen : x.2.1.flatten.length ≤ 4096) {n : Nat} (hn : n < ((s.vf vf).slabPool die).2)
    (hne : n ≠ x.1) : s.SameSlab (s.writeLeaf vf die x) vf die n := by
  intro i hi
  rw [get_writeLeaf fun hbase => hc n _ hn (by omega) (by omega) hbase x.1]
  split
  · refine Memory.get_store_outside _ _ _ _ ?_
    have := slabAddr_apart s vf die (Nat.lt_of_lt_of_le hn hpool) (Nat.lt_of_lt_of_le hx hpool) hne
    omega
  · rfl

/-- Leaves to write whose slabs are of the pool, and have room for them. -/
structure LeavesFit (s : State) (vf die : Nat) (leaves : List (Nat × List (List Byte) × Bool)) : Prop where
  pool : ((s.vf vf).slabPool die).2 ≤ 2 ^ 25
  clean : s.CleanPool vf die
  slabs : ∀ x ∈ leaves, x.1 < ((s.vf vf).slabPool die).2
  room : ∀ x ∈ leaves, x.2.1.flatten.length ≤ 4096

theorem LeavesFit.tail {x : Nat × List (List Byte) × Bool} {xs : List (Nat × List (List Byte) × Bool)} (h : LeavesFit s vf die (x :: xs)) :
    LeavesFit (s.writeLeaf vf die x) vf die xs := by
  have hp := writeLeaf_samePools s vf die x
  obtain ⟨h1, h2, h3, h4⟩ := h
  refine ⟨?_, hp.cleanPool h2, fun y hy => hp.inPool (h3 y (List.mem_cons_of_mem _ hy)), fun y hy => h4 y (List.mem_cons_of_mem _ hy)⟩
  rw [hp.slabPool]
  exact h1

theorem sameSlab_writeLeaves {leaves : List (Nat × List (List Byte) × Bool)} (h : LeavesFit s vf die leaves) {n : Nat}
    (hn : n < ((s.vf vf).slabPool die).2) (hne : n ∉ leaves.map Prod.fst) :
    s.SameSlab (s.writeLeaves vf die leaves) vf die n := by
  induction leaves generalizing s with
  | nil => exact fun _ _ => rfl
  | cons x xs ih =>
    have hp := writeLeaf_samePools s vf die x
    obtain ⟨hx, hxs⟩ := not_or.1 (List.mem_cons.not.1 hne)
    have h1 := sameSlab_writeLeaf h.clean h.pool (h.slabs x List.mem_cons_self) (h.room x List.mem_cons_self) hn hx
    rw [State.writeLeaves_cons]
    exact h1.trans hp (ih h.tail (hp.inPool hn) hxs)

theorem holds_writeLeaves {leaves : List (Nat × List (List Byte) × Bool)} (h : LeavesFit s vf die leaves) (hnodup : (leaves.map Prod.fst).Nodup)
    (hold : ∀ x ∈ leaves, x.2.2 = false → s.holds vf die x.1 x.2.1) :
    ∀ x ∈ leaves, (s.writeLeaves vf die leaves).holds vf die x.1 x.2.1 := by
  induction leaves generalizing s with
  | nil => exact fun x hx => nomatch hx
  | cons x xs ih =>
    have hp := writeLeaf_samePools s vf die x
    obtain ⟨hx, hxs⟩ := List.nodup_cons.1 hnodup
    intro y hy
    rcases List.mem_cons.1 hy with rfl | hy
    · have hy1 := h.slabs y List.mem_cons_self
      have h1 := holds_writeLeaf h.clean hy1 (h.room y List.mem_cons_self) (hold y List.mem_cons_self)
      have hsame := sameSlab_writeLeaves h.tail (hp.inPool hy1) hx
      rw [State.writeLeaves_cons]
      exact hsame.holds (writeLeaves_samePools ..) (h.room y List.mem_cons_self) h1
    · rw [State.writeLeaves_cons]
      refine ih h.tail hxs (fun z hz hw => ?_) y hy
      have hne : z.1 ≠ x.1 := fun e => hx (e ▸ List.mem_map_of_mem hz)
      have hzm := List.mem_cons_of_mem x hz
      exact (sameSlab_writeLeaf h.clean h.pool (h.slabs x List.mem_cons_self) (h.room x List.mem_cons_self) (h.slabs z hzm) hne).holds hp
        (h.room z hzm) (hold z hzm hw)

theorem sameSlab_markSlabs (hc : s.CleanPool vf die) (nodes : List Nat) {n : Nat} (hn : n < ((s.vf vf).slabPool die).2) :
    s.SameSlab (s.markSlabs vf die nodes) vf die n := by
  induction nodes generalizing s with
  | nil => exact fun _ _ => rfl
  | cons m ms ih =>
    have hp := markSlab_samePools s vf die m
    have h1 : s.SameSlab (s.markSlab vf die m) vf die n := fun i hi =>
      get_markSlab fun hbase => hc n _ hn (by omega) (by omega) hbase m
    rw [State.markSlabs_cons]
    exact h1.trans hp (ih (hp.cleanPool hc) (hp.inPool hn))

/-- What the slabs of the pool hold after leaves have been written and nodes marked. -/
theorem storeTree_slabs {leaves : List (Nat × List (List Byte) × Bool)} (h : LeavesFit s vf die leaves) (nodes : List Nat) :
    (∀ n, n < ((s.vf vf).slabPool die).2 → n ∉ leaves.map Prod.fst → s.SameSlab (s.storeTree vf die leaves nodes) vf die n) ∧
    ((leaves.map Prod.fst).Nodup → (∀ x ∈ leaves, x.2.2 = false → s.holds vf die x.1 x.2.1) →
      ∀ x ∈ leaves, (s.storeTree vf die leaves nodes).holds vf die x.1 x.2.1) := by
  have hp := writeLeaves_samePools s vf die leaves
  have hmark {n : Nat} (hn : n < ((s.vf vf).slabPool die).2) :=
    sameSlab_markSlabs (hp.cleanPool h.clean) nodes (n := n) (hp.inPool hn)
  refine ⟨fun n hn hne => (sameSlab_writeLeaves h hn hne).trans hp (hmark hn), fun hnodup hold x hx => ?_⟩
  exact (hmark (h.slabs x hx)).holds (markSlabs_samePools ..) (h.room x hx) (holds_writeLeaves h hnodup hold x hx)

end

end Sys2Proof.Machine
end

section
/-! PROOFS. Operations that read an array, make anchors at a rank, and make or end an array (R69, R70, R87, R88, R92, R93). -/

namespace Sys2Proof.Machine

section
variable {c : Ctx} {s t u : State} {l m : Latched} {sd sa sb : BitVec 5} {i : Nat} {a : EArray}

/-! ### What a handle and a token name -/

theorem array?_spec {vf : Nat} {h : Word} (harr : s.array? vf h = some (i, a)) : SMap.get? (s.vf vf).arrays i = some a := by
  unfold State.array? at harr
  split at harr
  · cases harr
  · split at harr
    · cases harr
    · next x hx =>
      split at harr
      · cases harr
        exact hx
      · cases harr

theorem counted_vf (c : Ctx) (s : State) (v : Nat) : (c.counted s).vf v = s.vf v := rfl

theorem counted_array? (c : Ctx) (s : State) (vf : Nat) (h : Word) : (c.counted s).array? vf h = s.array? vf h := rfl

theorem counted_anchor? (c : Ctx) (s : State) (vf : Nat) (h : Word) : (c.counted s).anchor? vf h = s.anchor? vf h := rfl

theorem eaStaged_ok {h r : Word} (hst : c.team.staged = false) : c.eaStaged h r = .ok () := eaStaged_eq_ok.2 hst

theorem eaScope_ok {h r : Word} (hsc : bit l.cores c.core = true) : c.eaScope l h r = .ok () := eaScope_eq_ok.2 hsc

theorem require_ok {p : Prop} [Decidable p] {fi : FaultInfo} (h : p) : require (decide p) fi = .ok () := require_eq_ok.2 (decide_eq_true h)

/-! ### Operations that read -/

theorem eaLen_ok (harr : t.array? c.vf (c.s sa) = some (i, a)) (hsc : bit l.cores c.core = true) :
    eaLen c l t sd sa = .ok (c.setS (c.eaOrder l false t) sd (BitVec.ofNat 64 a.len)) := by
  simp only [eaLen, eaArray_eq_ok.2 harr, eaScope_ok hsc, Except.ok_bind]
  rfl

theorem eaInfo_ok (harr : t.array? c.vf (c.s sa) = some (i, a)) (hsc : bit l.cores c.core = true) (hr : (c.s sb).toNat ≤ 7) :
    eaInfo c l t sd sa sb = .ok (c.setS (c.eaOrder l false t) sd (BitVec.ofNat 64 ((t.vf c.vf).arrayItem i a (c.s sb).toNat))) := by
  simp only [eaInfo, eaArray_eq_ok.2 harr, eaScope_ok hsc, require_ok hr, Except.ok_bind]
  rfl

/-- The live anchor that a token names stands in its array. -/
theorem eaRank_ok {id : Nat} {holder : Bool} (hanc : t.anchor? c.vf (c.s sa) = some (id, .live i))
    (harr : SMap.get? (t.vf c.vf).arrays i = some a) (hsc : bit l.cores c.core = true) :
    eaRank c l t holder sd sa =
      .ok (c.setS (c.eaOrder l false t) sd (if holder then a.handle i else BitVec.ofNat 64 (a.placeBefore id).2)) := by
  simp only [eaRank, hanc, State.arrayOf, harr, Option.bind_some, Option.map_some, eaScope_ok hsc, require, beq_self_eq_true, if_true,
    Except.ok_bind]
  rfl

/-! ### Anchors at a rank -/

theorem eaMark_ok {n start : Nat} (hst : c.team.staged = false) (harr : t.array? c.vf (c.s sa) = some (i, a)) (hsc : bit l.cores c.core = true)
    (hr : (c.s sb).toNat ≤ a.len) (hn : 0 < n) (hmax : n ≤ maxAnchors) (hroom : a.anchors.length + n ≤ maxAnchors)
    (hrun : (t.vf c.vf).findRun t.tick n = some start) :
    let w := t.modVf c.vf fun v => (v.allocRun i start n).setArray i (a.enter (a.place (c.s sb).toNat) ((List.range n).map fun k => start + k) 0)
    eaMark c l t n sd sa sb = .ok (c.setS (c.eaOrder l true w) sd ((w.vf c.vf).token start)) := by
  intro w
  simp only [eaMark, eaStaged_ok hst, eaArray_eq_ok.2 harr, eaScope_ok hsc, require_ok hr,
    require_ok hmax, require_ok hroom, Except.ok_bind, if_neg (Nat.pos_iff_ne_zero.1 hn), hrun]
  rfl

theorem eaMark_none {n : Nat} (hst : c.team.staged = false) (harr : t.array? c.vf (c.s sa) = some (i, a)) (hsc : bit l.cores c.core = true)
    (hr : (c.s sb).toNat ≤ a.len) (hn : n = 0) : eaMark c l t n sd sa sb = .ok (c.setS (c.eaOrder l true t) sd 0) := by
  subst hn
  simp only [eaMark, eaStaged_ok hst, eaArray_eq_ok.2 harr, eaScope_ok hsc, require_ok hr, Except.ok_bind]
  rfl

/-! ### Arrays that are made and ended -/

/-- The array that `enew` makes. -/
def EArray.made (gen die scope core size : Nat) : EArray := ⟨gen, die, scope, core, size, 0, [], [], [], []⟩

theorem slice_eq (x : Word) (hi lo : Nat) : slice x hi lo = x.toNat / 2 ^ lo % 2 ^ (hi + 1 - lo) := by
  rw [slice, Nat.shiftRight_eq_div_pow]

theorem bit_eq (x : Word) (k : Nat) : bit x k = decide (x.toNat / 2 ^ k % 2 = 1) := by
  rw [bit, ← BitVec.testBit_toNat, Nat.testBit_eq_decide_div_mod_eq]

/-- The home die that the word of `enew` names, where it is the issuing gang's (R87). -/
theorem enew_home (hdie : (c.s sa).toNat / 2 ^ 8 % 2 = 1 → (c.s sa).toNat / 2 ^ 9 = c.die) (hw : (c.s sa).toNat < 2 ^ 11) :
    (if bit (c.s sa) 8 then slice (c.s sa) 10 9 else c.die) = c.die := by
  rw [bit_eq, slice_eq]
  split
  · next h =>
    have := hdie (of_decide_eq_true h)
    omega
  · rfl

/-- The scope and the element size in the word of `enew` (R87). -/
theorem enew_fields (x : Word) : slice x 6 4 = x.toNat / 2 ^ 4 % 8 ∧ slice x 2 0 = x.toNat % 8 := by
  rw [slice_eq, slice_eq, Nat.pow_zero, Nat.div_one]
  exact ⟨rfl, rfl⟩

theorem eaNew_ok (hst : c.team.staged = false) (hsc : bit l.cores c.core = true) (hw : (c.s sa).toNat < 2 ^ 11)
    (h7 : (c.s sa).toNat / 2 ^ 7 % 2 = 0) (h3 : (c.s sa).toNat / 2 ^ 3 % 2 = 0) (hsize : (c.s sa).toNat % 8 ≤ 4)
    (hdie : (c.s sa).toNat / 2 ^ 8 % 2 = 1 → (c.s sa).toNat / 2 ^ 9 = c.die) (hroom : (t.vf c.vf).arrays.length < maxArrays) :
    let j := ((t.vf c.vf).newIndex t.tick).1
    let z := EArray.made ((t.vf c.vf).newIndex t.tick).2 c.die ((c.s sa).toNat / 2 ^ 4 % 8) c.core ((c.s sa).toNat % 8)
    eaNew c l t sd sa = .ok (c.setS (c.eaOrder l true (t.modVf c.vf fun v => v.setArray j z)) sd (z.handle j)) := by
  intro j z
  have hattr : (slice (c.s sa) 63 11 == 0 && !(bit (c.s sa) 7) && !(bit (c.s sa) 3) && decide ((c.s sa).toNat % 8 ≤ 4)) = true := by
    rw [slice_eq, bit_eq, bit_eq]
    simp only [Bool.and_eq_true, beq_iff_eq, Bool.not_eq_true', decide_eq_false_iff_not, decide_eq_true_eq]
    omega
  obtain ⟨hscope, hsz⟩ := enew_fields (c.s sa)
  simp only [eaNew, eaStaged_ok hst, eaScope_ok hsc, require_eq_ok (x := ()).2 hattr, require_ok hroom, Except.ok_bind,
    enew_home hdie hw, hscope, hsz]
  rfl

/-- The keys of a table rise. -/
theorem SMap.wf_keys {α : Type} {m : SMap α} (h : SMap.wf m = true) : (m.map Prod.fst).Pairwise (· < ·) := by
  induction m with
  | nil => exact List.Pairwise.nil
  | cons p m ih =>
    obtain ⟨hm, hlt⟩ := (SMap.wf_cons p.1 p.2 m).1 h
    refine List.pairwise_cons.2 ⟨fun k hk => ?_, ih hm⟩
    obtain ⟨q, hq, rfl⟩ := List.mem_map.1 hk
    exact hlt q hq

theorem SMap.get?_eq_none {α : Type} {m : SMap α} {k : Nat} (h : k ∉ m.map Prod.fst) : SMap.get? m k = none := by
  cases hx : SMap.get? m k with
  | none => rfl
  | some x => exact absurd (List.mem_map_of_mem (f := Prod.fst) (SMap.mem_of_get? hx)) h

/-- A new array has an index that no array has (R69). -/
theorem newIndex_spec {v : Vf} (tick : Nat) (hwf : SMap.wf v.arrays = true) (hroom : v.arrays.length < maxArrays) :
    SMap.get? v.arrays (v.newIndex tick).1 = none ∧ (v.newIndex tick).1 < maxArrays := by
  obtain ⟨hnew, hlt⟩ := freshName_spec tick maxArrays (SMap.wf_keys hwf) (by rw [List.length_map]; exact hroom)
  exact ⟨SMap.get?_eq_none hnew, hlt⟩

/-- The array ends, its anchors die, and its slabs return (R85, R88). -/
def Vf.endArray (v : Vf) (i : Nat) (a : EArray) : Vf :=
  { v with
    arrays := SMap.erase v.arrays i
    anchors := SMap.mapVals v.anchors fun _ x => if x = .live i ∨ x = .dead (some i) then .dead none else x
    slabs := SMap.set v.slabs a.die ((v.usedSlabs a.die).filter fun n => !(a.slabs.contains n)) }

theorem eaFree_ok (hst : c.team.staged = false) (harr : t.array? c.vf (c.s sa) = some (i, a)) (hsc : bit l.cores c.core = true) :
    eaFree c l t sa = .ok (c.eaOrder l true ((t.dropRlb c.vf (c.s sa) l.cores).modVf c.vf fun v => v.endArray i a)) := by
  simp only [eaFree, eaStaged_ok hst, eaArray_eq_ok.2 harr, eaScope_ok hsc, Except.ok_bind]
  rfl

/-- An anchor's ID is released, by the array that holds it too (R92). -/
def Vf.dropAnchor (v : Vf) (id : Nat) (x : AnchorState) : Vf :=
  { v with
    anchors := SMap.erase v.anchors id
    arrays := match x with
      | .live i => SMap.modify v.arrays i fun a => { a with anchors := a.anchors.filter fun p => p.1 != id, version := a.version + 1 }
      | .dead _ => v.arrays }

theorem dropAnchor_arrays (v : Vf) (id i k : Nat) : SMap.get? (v.dropAnchor id (.live i)).arrays k = if i = k then
    (SMap.get? v.arrays k).map fun a => { a with anchors := a.anchors.filter fun p => p.1 != id, version := a.version + 1 }
    else SMap.get? v.arrays k := by
  dsimp only [Vf.dropAnchor]
  rw [SMap.get?_modify]

theorem eaDrop_live {id : Nat} (hst : c.team.staged = false) (hanc : t.anchor? c.vf (c.s sa) = some (id, .live i))
    (harr : SMap.get? (t.vf c.vf).arrays i = some a) (hsc : bit l.cores c.core = true) :
    eaDrop c l t sa = .ok (c.eaOrder l true (t.modVf c.vf fun v => v.dropAnchor id (.live i))) := by
  simp only [eaDrop, hanc, State.arrayOf, harr, Option.bind_some, Option.map_some, eaStaged_ok hst, eaScope_ok hsc, Except.ok_bind]
  rfl

theorem eaDrop_dead {id : Nat} (hst : c.team.staged = false) (hanc : t.anchor? c.vf (c.s sa) = some (id, .dead none)) :
    eaDrop c l t sa = .ok (t.modVf c.vf fun v => v.dropAnchor id (.dead none)) := by
  simp only [eaDrop, hanc, State.arrayOf, Option.bind_some, Option.map_none, eaStaged_ok hst, Except.ok_bind]
  rfl

/-! ### Runs of anchors -/

/-- The anchors of a run (R70): its IDs are live, and every other stands as it did. -/
theorem allocRun_anchors (v : Vf) (arr start n k : Nat) :
    SMap.get? (v.allocRun arr start n).anchors k = if start ≤ k ∧ k < start + n then some (.live arr) else SMap.get? v.anchors k := by
  induction n with
  | zero => rw [Vf.allocRun, if_neg (by omega)]
  | succ n ih =>
    rw [Vf.allocRun]
    dsimp only
    rw [SMap.get?_set, ih]
    by_cases hk : start + n = k
    · rw [if_pos hk, if_pos (by omega)]
    · rw [if_neg hk]
      exact if_congr (by omega) rfl rfl

/-- The reuse count of a run's first ID. -/
theorem allocRun_first (v : Vf) (arr start n : Nat) (hn : 0 < n) :
    SMap.getD (v.allocRun arr start n).anchorGen start 0 = SMap.getD v.anchorGen start 0 + 1 := by
  induction n with
  | zero => exact absurd hn (Nat.lt_irrefl 0)
  | succ n ih =>
    rw [Vf.allocRun]
    dsimp only
    rw [SMap.getD_set]
    rcases Nat.eq_zero_or_pos n with rfl | hpos
    · rw [if_pos (Nat.add_zero start)]
      rfl
    · rw [if_neg (by omega), ih hpos]

theorem allocRun_rest (v : Vf) (arr start n : Nat) : (v.allocRun arr start n).arrays = v.arrays ∧ (v.allocRun arr start n).slabs = v.slabs ∧
    (v.allocRun arr start n).block = v.block ∧ (v.allocRun arr start n).arrGen = v.arrGen := by
  induction n with
  | zero => exact ⟨rfl, rfl, rfl, rfl⟩
  | succ n ih => exact ih

/-- A run changes the tables of anchors alone. -/
theorem allocRun_loose (v : Vf) (arr start n : Nat) : arrayLoose.vf (v.allocRun arr start n) = arrayLoose.vf v := by
  induction n with
  | zero => rfl
  | succ n ih => exact ih

theorem token_allocRun (v : Vf) (arr start n : Nat) (hn : 0 < n) :
    (v.allocRun arr start n).token start = BitVec.ofNat 64 ((SMap.getD v.anchorGen start 0 + 1).toNat * 2 ^ 28 + start) := by
  rw [Vf.token, allocRun_first v arr start n hn]

end

end Sys2Proof.Machine
end

section
/-! PROOFS. The operations of the own die's unit that change no tree (R71, R83, R87, R88, R92, R93). -/

namespace Sys2Proof.Machine

/-- An operation on an array of the own die may go on (R71, R80, R83, R84): the core is in its bound scope, and a structural one is of a
team that is not staged and of a gang without pending releases. -/
def Ctx.MayAct (c : Ctx) (s : State) (ins : Instr) (st : Bool) (y : EArray) : Prop :=
  Runs ins s c ∧ y.die = c.die ∧ bit (c.latchArray (c.counted s) y.bound).cores c.core = true ∧
    (st = true → c.team.staged = false ∧ c.gang.releases = [])

/-- An operation completes with its registers, its release and acquire under a latched scope, and what it does to the tables. -/
def Ctx.Gives (c : Ctx) (s : State) (ins : Instr) (l : Latched) (st : Bool) (w : Writes) (more : State → Prop) : Prop :=
  CompletesAt ins s c c.after { w with more := fun g => { g with unacked := if st = true ∧ l.level ≠ 0 then 0 else g.unacked } } arrayLoose
    fun t _ => more t

/-- No table changes. -/
def Ctx.QuietArrays (c : Ctx) (s : State) (die : Nat) (t : State) : Prop := c.OnlyArrays s t die [] [] ∧ ∀ v, t.vf v = s.vf v

section
variable {c : Ctx} {s t t1 : State} {ins : Instr} {st : Bool} {y : EArray} {i : Nat} {d a b : BitVec 5} {x : BitVec 6} {cb : BitVec 1}
  {sd : BitVec 5} {v : Word} {more : State → Prop}

theorem Ctx.MayAct.runs (h : c.MayAct s ins st y) : Runs ins s c := h.1

theorem Ctx.MayAct.home (h : c.MayAct s ins st y) : y.die = c.die := h.2.1

theorem Ctx.MayAct.scope (h : c.MayAct s ins st y) : bit (c.latchArray (c.counted s) y.bound).cores c.core = true := h.2.2.1

theorem Ctx.MayAct.unstaged (h : c.MayAct s ins true y) : c.team.staged = false := (h.2.2.2 rfl).1

theorem Ctx.MayAct.gives (hm : c.MayAct s ins st y) (he : exec ins s = rtuIssue ins s) (hs : eaStructural ins = st)
    (ht : eaTarget ins c (c.counted s) = some y.bound)
    (hop : eaPerform ins c (c.latchArray (c.counted s) y.bound) (c.latchSecond (c.counted s) ins) (c.counted s) =
      .ok (c.setS (c.eaOrder (c.latchArray (c.counted s) y.bound) st t1) sd v))
    (ha : c.Accesses s arrayLoose (c.arrayReach s y.die) c.gang.count t1)
    (hmore : ∀ t, t1.Follows t → (∀ b, ¬ c.arrayReach s y.die b → ZMap.get t.mem b = ZMap.get s.mem b) → more t) :
    c.Gives s ins (c.latchArray (c.counted s) y.bound) st (.scalar sd v) more := by
  obtain ⟨hr, hdie, -, hidle⟩ := hm
  exact rtu_gives hr he (by rw [ht]; rfl) hdie (fun h => (hidle (hs.symm.trans h)).2) hop ha hmore

theorem Ctx.MayAct.ends (hm : c.MayAct s ins st y) (he : exec ins s = rtuIssue ins s) (hs : eaStructural ins = st)
    (ht : eaTarget ins c (c.counted s) = some y.bound)
    (hop : eaPerform ins c (c.latchArray (c.counted s) y.bound) (c.latchSecond (c.counted s) ins) (c.counted s) =
      .ok (c.eaOrder (c.latchArray (c.counted s) y.bound) st t1))
    (ha : c.Accesses s arrayLoose (c.arrayReach s y.die) c.gang.count t1)
    (hmore : ∀ t, t1.Follows t → (∀ b, ¬ c.arrayReach s y.die b → ZMap.get t.mem b = ZMap.get s.mem b) → more t) :
    c.Gives s ins (c.latchArray (c.counted s) y.bound) st {} more := by
  obtain ⟨hr, hdie, -, hidle⟩ := hm
  exact rtu_ends hr he (by rw [ht]; rfl) hdie (fun h => (hidle (hs.symm.trans h)).2) hop ha hmore

theorem onlyTables_counted (c : Ctx) (s : State) : c.OnlyTables s (c.counted s) [] [] := ⟨fun _ _ _ => rfl, fun _ _ _ => rfl⟩

theorem quiet_of_counted {die : Nat} (hf : (c.counted s).Follows t)
    (hmem : ∀ b, ¬ c.arrayReach s die b → ZMap.get t.mem b = ZMap.get s.mem b) : c.QuietArrays s die t :=
  ⟨(onlyTables_counted c s).onlyArrays hf hmem, hf.vf⟩

/-! ### Reading -/

/-- An operation that changes no table. -/
theorem Ctx.MayAct.givesQuiet (hm : c.MayAct s ins st y) (he : exec ins s = rtuIssue ins s) (hs : eaStructural ins = st)
    (ht : eaTarget ins c (c.counted s) = some y.bound)
    (hop : eaPerform ins c (c.latchArray (c.counted s) y.bound) (c.latchSecond (c.counted s) ins) (c.counted s) =
      .ok (c.setS (c.eaOrder (c.latchArray (c.counted s) y.bound) st (c.counted s)) sd v)) :
    c.Gives s ins (c.latchArray (c.counted s) y.bound) st (.scalar sd v) (c.QuietArrays s y.die) :=
  hm.gives he hs ht hop (.arrayStart hm.runs.ctx y.die) fun _ => quiet_of_counted

theorem byHandle_target (harr : s.array? c.vf (c.s a) = some (i, y)) :
    ((c.counted s).array? c.vf (c.s a)).map (fun x => x.2.bound) = some y.bound := by
  rw [counted_array?, harr]
  rfl

theorem elen_gives (hm : c.MayAct s (.elen d a cb) false y) (harr : s.array? c.vf (c.s a) = some (i, y)) :
    c.Gives s (.elen d a cb) (c.latchArray (c.counted s) y.bound) false (.scalar d (BitVec.ofNat 64 (y.leaves.map Prod.snd).sum))
      (c.QuietArrays s y.die) := by
  rw [← EArray.len_eq]
  exact hm.givesQuiet rfl rfl (byHandle_target harr) (eaLen_ok harr hm.scope)

theorem arrayItem_eq (v : Vf) (i : Nat) (y : EArray) (r : Nat) : v.arrayItem i y r = match r with
    | 0 => 4 * 2 ^ y.size
    | 1 => y.version.toNat
    | 2 => v.anchors.countP fun p => p.2 == .live i || p.2 == .dead (some i)
    | 3 => y.scope
    | 4 => y.die
    | 5 => (y.leaves.map Prod.fst ++ y.nodes).length
    | 6 => (v.slabs.map fun p => p.2.length).sum
    | _ => v.slabq := by
  match r with
  | 0 | 1 | 2 | 3 | 4 | 5 => rfl
  | 6 => exact List.sum_eq_foldl.symm
  | _ + 7 => rfl

theorem einfo_gives (hm : c.MayAct s (.einfo d a b cb) false y) (harr : s.array? c.vf (c.s a) = some (i, y)) (hr : (c.s b).toNat ≤ 7) :
    c.Gives s (.einfo d a b cb) (c.latchArray (c.counted s) y.bound) false
      (.scalar d (BitVec.ofNat 64 ((s.vf c.vf).arrayItem i y (c.s b).toNat))) (c.QuietArrays s y.die) :=
  hm.givesQuiet rfl rfl (byHandle_target harr) (eaInfo_ok harr hm.scope hr)

/-! ### The end of an array -/

theorem modVf_other (t : State) {vf w : Nat} (f : Vf → Vf) (hw : w ≠ vf) : (t.modVf vf f).vf w = t.vf w := by
  rw [State.vf_modVf, if_neg hw.symm]

theorem modVf_self (t : State) (vf : Nat) (f : Vf → Vf) : (t.modVf vf f).vf vf = f (t.vf vf) := by
  rw [State.vf_modVf, if_pos rfl]

theorem efree_gives (hm : c.MayAct s (.efree a cb) true y) (harr : s.array? c.vf (c.s a) = some (i, y)) :
    c.Gives s (.efree a cb) (c.latchArray (c.counted s) y.bound) true {} fun t => SMap.get? (t.vf c.vf).arrays i = none ∧
      (∀ k, SMap.get? (s.vf c.vf).anchors k = some (.live i) → SMap.get? (t.vf c.vf).anchors k = some (.dead none)) ∧
      (∀ k ∈ y.leaves.map Prod.fst ++ y.nodes, k ∉ (t.vf c.vf).usedSlabs y.die) ∧
      ∀ k, k ≠ i → SMap.get? (t.vf c.vf).arrays k = SMap.get? (s.vf c.vf).arrays k := by
  refine hm.ends rfl rfl (byHandle_target harr) (eaFree_ok hm.unstaged harr hm.scope)
    (((Ctx.Accesses.arrayStart hm.runs.ctx y.die).dropRlb ..).modVf _ _ fun _ => rfl) fun t hf _ => ?_
  have hvf : t.vf c.vf = (s.vf c.vf).endArray i y := (hf.vf c.vf).trans (modVf_self ..)
  rw [hvf]
  refine ⟨?_, fun k hk => ?_, fun k hk => ?_, fun k hk => ?_⟩
  · exact (SMap.get?_erase ..).trans (if_pos rfl)
  · simp only [Vf.endArray, SMap.get?_mapVals, hk, Option.map_some, true_or, if_true]
  · have hused : ((s.vf c.vf).endArray i y).usedSlabs y.die = ((s.vf c.vf).usedSlabs y.die).filter fun n => !(y.slabs.contains n) :=
      (SMap.getD_set ..).trans (if_pos rfl)
    rw [hused, List.mem_filter, not_and, Bool.not_eq_true', Bool.not_eq_false]
    exact fun _ => List.contains_iff_mem.2 hk
  · exact (SMap.get?_erase ..).trans (if_neg hk.symm)

/-! ### Anchors -/

theorem eaMark_gives {k start : Nat} (hm : c.MayAct s ins true y) (he : exec ins s = rtuIssue ins s) (hs : eaStructural ins = true)
    (ht : eaTarget ins c (c.counted s) = some y.bound) (hperform : ∀ l m t, eaPerform ins c l m t = eaMark c l t k sd a b)
    (harr : s.array? c.vf (c.s a) = some (i, y)) (hk : 0 < k) (hmax : k ≤ 4096) (hr : (c.s b).toNat ≤ y.len)
    (hroom : y.anchors.length + k ≤ 4096) (hrun : (s.vf c.vf).findRun s.tick k = some start) :
    c.Gives s ins (c.latchArray (c.counted s) y.bound) true
      (.scalar sd (BitVec.ofNat 64 ((SMap.getD (s.vf c.vf).anchorGen start 0 + 1).toNat * 2 ^ 28 + start))) fun t =>
        c.OnlyArrays s t y.die [i] ((List.range k).map fun j => start + j) ∧
          (∀ j, j < k → SMap.get? (t.vf c.vf).anchors (start + j) = some (.live i)) ∧
          SMap.get? (t.vf c.vf).arrays i = some (y.enter (y.place (c.s b).toNat) ((List.range k).map fun j => start + j) 0) := by
  have hop := eaMark_ok (t := c.counted s) (sd := sd) hm.unstaged harr hm.scope hr hk hmax hroom hrun
  have htoken : (((c.counted s).modVf c.vf fun v => (v.allocRun i start k).setArray i
      (y.enter (y.place (c.s b).toNat) ((List.range k).map fun j => start + j) 0)).vf c.vf).token start =
      BitVec.ofNat 64 ((SMap.getD (s.vf c.vf).anchorGen start 0 + 1).toNat * 2 ^ 28 + start) := by
    rw [modVf_self]
    exact token_allocRun (s.vf c.vf) i start k hk
  dsimp only at hop
  rw [htoken] at hop
  refine hm.gives he hs ht ((hperform ..).trans hop) ((Ctx.Accesses.arrayStart hm.runs.ctx y.die).modVf _ _ fun v => allocRun_loose v i start k)
    fun t hf hmem => ?_
  have hanchors := allocRun_anchors (s.vf c.vf) i start k
  have htables : c.OnlyTables s ((c.counted s).modVf c.vf fun v => (v.allocRun i start k).setArray i
      (y.enter (y.place (c.s b).toNat) ((List.range k).map fun j => start + j) 0)) [i] ((List.range k).map fun j => start + j) := by
    refine .of_vf (fun v hv => modVf_other _ _ hv) (fun j hj => ?_) fun j hj => ?_
    · rw [modVf_self]
      exact (SMap.get?_set ..).trans ((if_neg fun e => hj (List.mem_singleton.2 e.symm)).trans
        (congrArg (SMap.get? · j) (allocRun_rest (s.vf c.vf) i start k).1))
    · rw [modVf_self]
      exact (hanchors j).trans (if_neg fun h => hj (List.mem_map.2 ⟨j - start, List.mem_range.2 (by omega), by omega⟩))
  refine ⟨htables.onlyArrays hf hmem, fun j hj => ?_, ?_⟩
  · rw [hf.vf, modVf_self]
    exact (hanchors (start + j)).trans (if_pos (by omega))
  · rw [hf.vf, modVf_self]
    exact (SMap.get?_set ..).trans (if_pos rfl)

/-! ### Insertions and deletions of nothing -/

theorem edel_none_gives (hm : c.MayAct s (.edel d a b cb) true y) (harr : s.array? c.vf (c.s a) = some (i, y)) (hn : (c.s d).toNat = 0)
    (hr : (c.s b).toNat ≤ y.len) : c.Gives s (.edel d a b cb) (c.latchArray (c.counted s) y.bound) true (.scalar d (BitVec.ofNat 64 y.len))
      (c.QuietArrays s y.die) :=
  hm.givesQuiet rfl rfl (byHandle_target harr)
    (eaDelete_eq_ok.2 ⟨hm.unstaged, i, y, harr, hm.scope, by omega, .inl ⟨hn, rfl⟩⟩)

theorem emark_none_gives (hm : c.MayAct s (.emark d a b cb) true y) (harr : s.array? c.vf (c.s a) = some (i, y)) (hn : (c.s d).toNat = 0)
    (hr : (c.s b).toNat ≤ y.len) : c.Gives s (.emark d a b cb) (c.latchArray (c.counted s) y.bound) true (.scalar d (BitVec.ofNat 64 0))
      (c.QuietArrays s y.die) :=
  hm.givesQuiet rfl rfl (byHandle_target harr) (eaMark_none hm.unstaged harr hm.scope hr hn)

theorem eins_none_gives {an da : BitVec 1} (hm : c.MayAct s (.eins an da d a b x cb) true y) (harr : s.array? c.vf (c.s a) = some (i, y))
    (hn : (c.s d).toNat = 0) (hr : (c.s b).toNat ≤ y.len) (hanchors : y.anchors.length < 4096) (hlen : y.len ≤ 2 ^ 40) :
    c.Gives s (.eins an da d a b x cb) (c.latchArray (c.counted s) y.bound) true
      (.scalar d (BitVec.ofNat 64 (if an = 0 then (c.s b).toNat else 0))) (c.QuietArrays s y.die) := by
  have hresult : BitVec.ofNat 64 (if an = 0 then (c.s b).toNat else 0) =
      if (an == 1) = true then 0 else BitVec.ofNat 64 (y.place (c.s b).toNat).2 := by
    rcases (by decide : ∀ an : BitVec 1, an = 0 ∨ an = 1) an with rfl | rfl
    · rfl
    · rfl
  rw [hresult]
  refine hm.givesQuiet rfl rfl (byHandle_target harr) (eaInsert_eq_ok.2 ⟨i, y, y.place (c.s b).toNat, ?_, .inl ⟨hn, rfl⟩⟩)
  exact ⟨hm.unstaged, harr, hm.scope, ⟨hr, rfl⟩, by rw [hn, Nat.zero_add]; exact hlen, fun _ => by omega, fun _ => hanchors⟩

end

end Sys2Proof.Machine
end

section
/-! PROOFS. Insertion and deletion: the anchors, the version and the bytes that they may reach (R73, R74, R84, R86, R89, R90). -/

namespace Sys2Proof.Machine

section
variable {c : Ctx} {s t : State} {ins : Instr} {y z : EArray} {i : Nat} {is ids : List Nat} {d a b : BitVec 5} {x : BitVec 6}
  {ps : List (Part (List Byte))} {levels : List (List Nat)}

/-! ### The tables of a tree's change -/

theorem Ctx.OnlyTables.start (c : Ctx) (s : State) (is ids : List Nat) : c.OnlyTables s (c.counted s) is ids :=
  ⟨fun _ _ _ => rfl, fun _ _ _ => rfl⟩

theorem Ctx.OnlyTables.modVf (h : c.OnlyTables s t is ids) (f : Vf → Vf)
    (ha : ∀ k, k ∉ is → SMap.get? (f (t.vf c.vf)).arrays k = SMap.get? (t.vf c.vf).arrays k)
    (hn : ∀ k, k ∉ ids → SMap.get? (f (t.vf c.vf)).anchors k = SMap.get? (t.vf c.vf).anchors k) :
    c.OnlyTables s (t.modVf c.vf f) is ids := by
  refine ⟨fun v k hk => (?_ : _ = SMap.get? (t.vf v).arrays k).trans (h.arrays v k hk),
    fun v k hk => (?_ : _ = SMap.get? (t.vf v).anchors k).trans (h.anchors v k hk)⟩
  · by_cases hv : v = c.vf
    · subst hv
      rw [modVf_self]
      exact ha k fun hmem => hk ⟨rfl, hmem⟩
    · rw [modVf_other _ _ hv]
  · by_cases hv : v = c.vf
    · subst hv
      rw [modVf_self]
      exact hn k fun hmem => hk ⟨rfl, hmem⟩
    · rw [modVf_other _ _ hv]

theorem Ctx.OnlyTables.reshape (h : c.OnlyTables s t is ids) {idx : Nat} (hi : idx ∈ is) (z : EArray) (own : List Nat)
    (ps : List (Part (List Byte))) (levels : List (List Nat)) : c.OnlyTables s (t.reshape c.vf idx z own ps levels) is ids := by
  refine ⟨fun v k hk => (?_ : _ = SMap.get? (t.vf v).arrays k).trans (h.arrays v k hk),
    fun v k hk => (?_ : _ = SMap.get? (t.vf v).anchors k).trans (h.anchors v k hk)⟩
  · by_cases hv : v = c.vf
    · subst hv
      rw [reshape_arrays, if_neg (show ¬ idx = k from fun e => hk ⟨rfl, e ▸ hi⟩)]
    · rw [reshape_other _ hv]
  · by_cases hv : v = c.vf
    · subst hv
      rw [(reshape_anchors ..).1]
    · rw [reshape_other _ hv]

theorem Ctx.OnlyTables.dropRlb (h : c.OnlyTables s t is ids) (vf : Nat) (hd : Word) (cores : BitVec 256) :
    c.OnlyTables s (t.dropRlb vf hd cores) is ids := ⟨h.arrays, h.anchors⟩

theorem get?_foldl_setKeys {α β : Type} (f : β → Nat) (v : α) (l : List β) (m : SMap α) (k : Nat) :
    SMap.get? (l.foldl (fun m p => SMap.set m (f p) v) m) k = if k ∈ l.map f then some v else SMap.get? m k := by
  induction l generalizing m with
  | nil => rfl
  | cons p l ih =>
    rw [List.foldl_cons, ih, SMap.get?_set, List.map_cons]
    by_cases hk : k ∈ l.map f
    · rw [if_pos hk, if_pos (List.mem_cons_of_mem _ hk)]
    · rw [if_neg hk]
      refine if_congr ?_ rfl rfl
      rw [List.mem_cons, or_iff_left hk]
      exact eq_comm

/-! ### Its bytes -/

theorem leaf_hasSlab {vf die n : Nat} (harr : SMap.get? (s.vf vf).arrays i = some y) (hdie : y.die = die) (hn : n ∈ y.leaves.map Prod.fst) :
    s.hasSlab vf die n := .inr (.inr ⟨i, y, harr, hdie, hn⟩)

/-- A change of the tables of arrays and anchors. -/
structure TablesOnly (f : Vf → Vf) : Prop where
  loose : ∀ v, arrayLoose.vf (f v) = arrayLoose.vf v
  slabs : ∀ v, (f v).slabs = v.slabs

theorem TablesOnly.block {f : Vf → Vf} (hf : TablesOnly f) (v : Vf) : (f v).block = v.block := by
  change (arrayLoose.vf (f v)).block = (arrayLoose.vf v).block
  rw [hf.loose]

theorem TablesOnly.samePools {f : Vf → Vf} (hf : TablesOnly f) (c : Ctx) (s : State) : s.SamePools ((c.counted s).modVf c.vf f) c.vf :=
  ⟨rfl, by rw [modVf_self]; exact hf.block _⟩

/-- The tree of an array changes after a change of tables. -/
theorem accesses_treeChange {f : Vf → Vf} {die : Nat} (hc : s.ctx? = some c) (hf : TablesOnly f) (hdie : z.die = die) (idx : Nat) (own : List Nat)
    (hroom : 0 < leafNeed ps → ((s.vf c.vf).usedSlabs die).length + (leafNeed ps + (nodeSlabs levels - z.nodes.length)) ≤
      ((s.vf c.vf).slabPool die).2)
    (hslabs : ∀ n ∈ ps.filterMap Part.slab, s.hasSlab c.vf die n)
    (hok : (∀ k y, SMap.get? (s.vf c.vf).arrays k = some y → y.size ≤ 4 ∧ ∀ p ∈ y.leaves, p.2 * y.esize ≤ 4096) →
      ∀ p ∈ ps, p.items.flatten.length ≤ 4096) :
    c.Accesses s arrayLoose (c.arrayReach s die) c.gang.count (((c.counted s).modVf c.vf f).reshape c.vf idx z own ps levels) := by
  have hpools := hf.samePools c s
  refine ((Ctx.Accesses.arrayStart hc die).modVf c.vf f hf.loose).reshape hpools hdie idx own (fun hneed => ?_) hslabs hok
  have hused : (((c.counted s).modVf c.vf f).vf c.vf).usedSlabs z.die = (s.vf c.vf).usedSlabs die := by
    rw [modVf_self, Vf.usedSlabs, hf.slabs, hdie]
    rfl
  rw [hused, hpools.slabPool, hdie]
  exact hroom hneed

/-! ### Insertion -/

theorem foldl_allocRun (v : Vf) (i : Nat) (ids : List Nat) :
    arrayLoose.vf (ids.foldl (fun v id => v.allocRun i id 1) v) = arrayLoose.vf v ∧ (ids.foldl (fun v id => v.allocRun i id 1) v).slabs = v.slabs ∧
      (ids.foldl (fun v id => v.allocRun i id 1) v).arrays = v.arrays := by
  induction ids generalizing v with
  | nil => exact ⟨rfl, rfl, rfl⟩
  | cons id ids ih =>
    obtain ⟨h1, h2, h3⟩ := ih (v.allocRun i id 1)
    obtain ⟨ha, hs, -, -⟩ := allocRun_rest v i id 1
    exact ⟨h1.trans (allocRun_loose v i id 1), h2.trans hs, h3.trans ha⟩

theorem tablesOnly_allocRun (i : Nat) (ids : List Nat) : TablesOnly fun v => ids.foldl (fun v id => v.allocRun i id 1) v :=
  ⟨fun v => (foldl_allocRun v i ids).1, fun v => (foldl_allocRun v i ids).2.1⟩

/-- The bytes of an insertion's leaves. -/
theorem insertion_bytes (data : Bool) (x : BitVec 6) (n r : Nat) (hfit : y.size ≤ 4 ∧ ∀ p ∈ y.leaves, p.2 * y.esize ≤ 4096) :
    ∀ p ∈ (c.insertion t y data x n r).1, p.items.flatten.length ≤ 4096 := by
  obtain ⟨hsize, hleaves⟩ := hfit
  obtain ⟨hpos, hlimit⟩ := leafLimit_bounds t hsize
  have hold (p) (hp : p ∈ t.leafParts c.vf y) : PartOk y.esize (4096 / y.esize) (fun _ _ => True) p :=
    have h := leafParts_ok t c.vf hleaves p hp
    ⟨h.sizes, h.room, fun _ _ _ => trivial⟩
  intro p hp
  refine (inserted_ok y hpos hlimit r _ (fun z hz => ?_) (leafParts_lengths ..) (fun _ _ _ _ => trivial) (.inr fun _ _ => trivial)
    (leafParts_new t c.vf y) hold p hp).bytes
  obtain ⟨j, -, rfl⟩ := List.mem_map.1 hz
  exact length_newElement ..

/-- The leaves of an insertion keep their slabs. -/
theorem insertion_slabs {data : Bool} {n r k : Nat} (h : k ∈ (c.insertion t y data x n r).1.filterMap Part.slab) : k ∈ y.leaves.map Prod.fst :=
  leafParts_numbers t c.vf y ▸ (slabs_inserted y r _).subset h

theorem accesses_inserted {l : Latched} {data : Bool} {p : Nat × Nat} {n : Nat} (hc : s.ctx? = some c) (hd : Word)
    (harr : SMap.get? (s.vf c.vf).arrays i = some y)
    (hcheck : (c.counted s).slabCheck c.vf y.die (leafNeed (c.insertion (c.counted s) y data x n p.2).1 +
      (nodeSlabs (c.insertion (c.counted s) y data x n p.2).2 - y.nodes.length)) = none) :
    c.Accesses s arrayLoose (c.arrayReach s y.die) c.gang.count
      (c.insertedState l (c.counted s) hd i y p ids n (c.insertion (c.counted s) y data x n p.2)) := by
  unfold Ctx.insertedState
  refine Ctx.Accesses.dropRlb (accesses_treeChange (z := y.enter p ids n) (die := y.die) hc (tablesOnly_allocRun i ids) rfl i y.slabs
    (fun hneed => ?_) (fun n hn => ?_)
    fun hfit => ?_) c.vf hd l.cores
  · exact slabCheck_room hcheck (by omega)
  · exact leaf_hasSlab harr rfl (insertion_slabs hn)
  · exact insertion_bytes data x _ _ (hfit i y harr)

/-- An insertion of elements gives its anchors their places and the array a new version (R73, R89). -/
theorem insertion_gives {app anc data : Bool} {p : Nat × Nat} {id : Nat} (hm : c.MayAct s ins true y) (he : exec ins s = rtuIssue ins s)
    (hs : eaStructural ins = true) (ht : eaTarget ins c (c.counted s) = some y.bound)
    (hperform : ∀ l m t, eaPerform ins c l m t = eaInsert c l t app anc data d a b x)
    (hmay : c.MayInsert (c.latchArray (c.counted s) y.bound) (c.counted s) app anc data d a b i y p) (hn : 0 < (c.s d).toNat)
    (hid : (if anc then (s.vf c.vf).findRun s.tick 1 else some 0) = some id)
    (hcheck : (c.counted s).slabCheck c.vf y.die (leafNeed (c.insertion (c.counted s) y data x (c.s d).toNat p.2).1 +
      (nodeSlabs (c.insertion (c.counted s) y data x (c.s d).toNat p.2).2 - y.nodes.length)) = none) :
    c.Gives s ins (c.latchArray (c.counted s) y.bound) true
      (.scalar d (BitVec.ofNat 64 (if anc then (SMap.getD (s.vf c.vf).anchorGen id 0 + 1).toNat * 2 ^ 28 + id else p.2))) fun t =>
        c.OnlyArrays s t y.die [i] (if anc then [id] else []) ∧ (anc = true → SMap.get? (t.vf c.vf).anchors id = some (.live i)) ∧
          ∃ z, SMap.get? (t.vf c.vf).arrays i = some z ∧
            (z.gen = y.gen ∧ z.die = y.die ∧ z.scope = y.scope ∧ z.size = y.size ∧ z.creator = y.creator) ∧ z.version = y.version + 1 ∧
            z.anchors = (y.enter p (if anc then [id] else []) (c.s d).toNat).anchors := by
  have harr : SMap.get? (s.vf c.vf).arrays i = some y := array?_spec hmay.array
  have hop := eaInsert_eq_ok.2 ⟨i, y, p, hmay, .inr ⟨Nat.pos_iff_ne_zero.1 hn, id, hid, hcheck, rfl⟩⟩
  generalize hids : (if anc then [id] else []) = ids at hop ⊢
  generalize hq : c.insertion (c.counted s) y data x (c.s d).toNat p.2 = q at hop hcheck
  have hanchorGen : ((c.insertedState (c.latchArray (c.counted s) y.bound) (c.counted s) (c.s a) i y p ids (c.s d).toNat q).vf c.vf).anchorGen =
      (ids.foldl (fun v id => v.allocRun i id 1) (s.vf c.vf)).anchorGen :=
    (reshape_anchors ..).2.trans (congrArg Vf.anchorGen (modVf_self ..))
  have htoken : (if anc then ((c.insertedState (c.latchArray (c.counted s) y.bound) (c.counted s) (c.s a) i y p ids (c.s d).toNat q).vf c.vf).token id
      else BitVec.ofNat 64 p.2) =
      BitVec.ofNat 64 (if anc then (SMap.getD (s.vf c.vf).anchorGen id 0 + 1).toNat * 2 ^ 28 + id else p.2) := by
    cases anc with
    | false => rfl
    | true =>
      subst hids
      rw [if_pos rfl] at hanchorGen
      rw [if_pos rfl, if_pos rfl, Vf.token, if_pos rfl, hanchorGen]
      exact token_allocRun (s.vf c.vf) i id 1 Nat.one_pos
  rw [htoken] at hop
  have hacc := accesses_inserted (l := c.latchArray (c.counted s) y.bound) (ids := ids) hm.runs.ctx (c.s a) harr (hq.symm ▸ hcheck)
  rw [hq] at hacc
  refine hm.gives he hs ht ((hperform ..).trans hop) hacc fun t hf hmem => ⟨?_, fun hanc => ?_, ?_⟩
  · refine Ctx.OnlyTables.onlyArrays (t := c.insertedState _ _ (c.s a) i y p ids (c.s d).toNat q) ?_ hf hmem
    refine ((((Ctx.OnlyTables.start c s [i] ids).modVf _ (fun k _ => ?_) fun k hk => ?_).reshape List.mem_cons_self ..).dropRlb ..)
    · exact congrArg (SMap.get? · k) (foldl_allocRun (s.vf c.vf) i ids).2.2
    · cases anc with
      | false => subst hids; rfl
      | true =>
        subst hids
        exact (allocRun_anchors (s.vf c.vf) i id 1 k).trans (if_neg fun h => hk (List.mem_singleton.2 (by omega)))
  · subst hanc
    subst hids
    rw [hf.vf]
    refine (congrArg (SMap.get? · id) (reshape_anchors ..).1).trans ?_
    rw [modVf_self]
    exact (allocRun_anchors (s.vf c.vf) i id 1 id).trans (if_pos ⟨le_refl _, Nat.lt_succ_self _⟩)
  · rw [hf.vf]
    exact ⟨_, (reshape_arrays ..).trans (if_pos rfl), ⟨rfl, rfl, rfl, rfl, rfl⟩, rfl, rfl⟩

/-! ### Deletion -/

theorem tablesOnly_anchors (g : Vf → SMap AnchorState) : TablesOnly fun v => { v with anchors := g v } := ⟨fun _ => rfl, fun _ => rfl⟩

theorem leafParts_deleted_need (t : State) (vf : Nat) (y : EArray) (limit r n : Nat) : leafNeed (y.deleted (t.leafParts vf y) limit r n).1 = 0 :=
  leafNeed_eq_zero fun h => leafParts_placed t vf y ((slabs_deleted y limit r n _).subset h)

theorem deletion_slabs {limit r n k : Nat} {vf : Nat} (h : k ∈ (y.deleted (t.leafParts vf y) limit r n).1.filterMap Part.slab) :
    k ∈ y.leaves.map Prod.fst := by
  rw [← leafParts_numbers t vf y, filterMap_slab_eq]
  rw [filterMap_slab_eq] at h
  exact ((slabs_deleted y limit r n _).filterMap id).subset h

theorem deletion_bytes (vf r n : Nat) (hfit : y.size ≤ 4 ∧ ∀ p ∈ y.leaves, p.2 * y.esize ≤ 4096) :
    ∀ p ∈ (y.deleted (t.leafParts vf y) (t.leafLimit y) r n).1, p.items.flatten.length ≤ 4096 := fun p hp =>
  (deleted_ok y (leafLimit_bounds t hfit.1).2 r n (t.holds_prefixClosed vf y.die) (leafParts_new t vf y) (leafParts_ok t vf hfit.2) p hp).bytes

theorem accesses_deleted {l : Latched} {r n : Nat} (hc : s.ctx? = some c) (hd : Word) (harr : SMap.get? (s.vf c.vf).arrays i = some y) :
    c.Accesses s arrayLoose (c.arrayReach s y.die) c.gang.count (c.deletedState l (c.counted s) hd i y r n
      (y.deleted ((c.counted s).leafParts c.vf y) ((c.counted s).leafLimit y) r n)) := by
  unfold Ctx.deletedState
  refine Ctx.Accesses.dropRlb (accesses_treeChange (z := y.leave r n) (die := y.die) hc (tablesOnly_anchors _) rfl i y.slabs
    (fun hneed => ?_) (fun n hn => ?_)
    fun hfit => ?_) c.vf hd l.cores
  · rw [leafParts_deleted_need] at hneed
    exact absurd hneed (Nat.lt_irrefl 0)
  · exact leaf_hasSlab harr rfl (deletion_slabs hn)
  · exact deletion_bytes c.vf _ _ (hfit i y harr)

/-- A deletion of elements kills the anchors within, and gives the others their places and the array a new version (R74, R90). -/
theorem edel_gives {cb : BitVec 1} (hm : c.MayAct s (.edel d a b cb) true y) (harr : s.array? c.vf (c.s a) = some (i, y))
    (hn : 0 < (c.s d).toNat) (hr : (c.s b).toNat + (c.s d).toNat ≤ y.len) :
    c.Gives s (.edel d a b cb) (c.latchArray (c.counted s) y.bound) true (.scalar d (BitVec.ofNat 64 (y.len - (c.s d).toNat))) fun t =>
      c.OnlyArrays s t y.die [i] (y.dying (c.s b).toNat (c.s d).toNat) ∧
        (∀ k ∈ y.dying (c.s b).toNat (c.s d).toNat, SMap.get? (t.vf c.vf).anchors k = some (.dead (some i))) ∧
        ∃ z, SMap.get? (t.vf c.vf).arrays i = some z ∧
          (z.gen = y.gen ∧ z.die = y.die ∧ z.scope = y.scope ∧ z.size = y.size ∧ z.creator = y.creator) ∧ z.version = y.version + 1 ∧
          z.anchors = (y.leave (c.s b).toNat (c.s d).toNat).anchors := by
  have hop := (eaDelete_eq_ok (t := c.counted s)).2 ⟨hm.unstaged, i, y, harr, hm.scope, hr, .inr ⟨Nat.pos_iff_ne_zero.1 hn, rfl⟩⟩
  have harr' := array?_spec harr
  generalize hdead : y.dying (c.s b).toNat (c.s d).toNat = dead
  have hanchors (k : Nat) := get?_foldl_setKeys id (AnchorState.dead (some i)) dead (s.vf c.vf).anchors k
  simp only [List.map_id, id_eq] at hanchors
  refine hm.gives rfl rfl (byHandle_target harr) hop (accesses_deleted hm.runs.ctx (c.s a) harr') fun t hf hmem => ⟨?_, fun k hk => ?_, ?_⟩
  · refine Ctx.OnlyTables.onlyArrays (t := c.deletedState _ _ (c.s a) i y _ _ _) ?_ hf hmem
    refine ((((Ctx.OnlyTables.start c s [i] dead).modVf _ (fun k _ => rfl) fun k hk => ?_).reshape List.mem_cons_self ..).dropRlb ..)
    rw [hdead]
    exact (hanchors k).trans (if_neg hk)
  · rw [hf.vf]
    refine (congrArg (SMap.get? · k) (reshape_anchors ..).1).trans ?_
    rw [modVf_self, hdead]
    exact (hanchors k).trans (if_pos hk)
  · rw [hf.vf]
    exact ⟨_, (reshape_arrays ..).trans (if_pos rfl), ⟨rfl, rfl, rfl, rfl, rfl⟩, rfl, rfl⟩

end

end Sys2Proof.Machine
end

section
/-! PROOFS. Splitting and joining: the anchors, the versions and the bytes that they may reach (R76, R77, R86, R91). -/

namespace Sys2Proof.Machine

section
variable {c : Ctx} {s t : State} {y z : EArray} {i j : Nat} {d a b : BitVec 5} {cb : BitVec 1}
  {H : Nat → List (List Byte) → Prop}

/-! ### The halves of an array -/

theorem halves_ok (t : State) (r : Nat) (hfit : y.size ≤ 4 ∧ ∀ p ∈ y.leaves, p.2 * y.esize ≤ 4096) :
    (∀ p ∈ (c.halves t y r).1, PartOk y.esize (4096 / y.esize) (t.holds c.vf y.die) p) ∧
      ∀ p ∈ (c.halves t y r).2, PartOk y.esize (4096 / y.esize) (t.holds c.vf y.die) p := by
  have hH := t.holds_prefixClosed c.vf y.die
  have hlimit := (leafLimit_bounds t hfit.1).2
  obtain ⟨h1, h2⟩ := splitParts_ok r hH (leafParts_ok t c.vf hfit.2)
  exact ⟨(rebalanced_balanced hH hlimit _).ok h1, (rebalanced_balanced hH hlimit _).ok h2⟩

/-- The slabs of the halves, together, are slabs of the array. -/
theorem halves_slabs (c : Ctx) (t : State) (y : EArray) (r : Nat) :
    ((c.halves t y r).1.filterMap Part.slab ++ (c.halves t y r).2.filterMap Part.slab).Sublist (y.leaves.map Prod.fst) := by
  rw [← leafParts_numbers t c.vf y, ← slabs_splitParts (t.leafParts c.vf y) r]
  have hb (ps : List (Part (List Byte))) :=
    (rebalanced_balanced (e := 0) (H := fun _ _ => True) (cap := t.leafLimit y) (fun _ _ _ _ => trivial) (le_refl _) ps).slabNumbers
  exact (hb _).append (hb _)

theorem halves_need (c : Ctx) (t : State) (y : EArray) (r : Nat) : leafNeed (c.halves t y r).1 = 0 :=
  leafNeed_eq_zero ((rebalanced_balanced (e := 0) (H := fun _ _ => True) (cap := t.leafLimit y) (fun _ _ _ _ => trivial) (le_refl _) _).placed
    (placed_splitParts r (leafParts_placed t c.vf y)))

/-! ### Splitting -/

/-- The anchors at a rank and above it, which go to the new array. -/
def EArray.moved (y : EArray) (r : Nat) : List (Nat × Nat) := y.anchors.filter fun x => decide (r ≤ x.2)

/-- The state in which a split's trees stand, its lookaside entries not yet dropped. -/
def Ctx.splitTrees (c : Ctx) (t : State) (i : Nat) (y : EArray) (r j gen : Nat) (xs ys : List (Part (List Byte))) : State :=
  (((t.modVf c.vf fun v => { v with anchors := (y.moved r).foldl (fun m p => SMap.set m p.1 (.live j)) v.anchors }).reshape c.vf j
    (y.upper r (nodeSlabs (y.above xs)) gen) (ys.filterMap Part.slab ++ (y.upper r (nodeSlabs (y.above xs)) gen).nodes) ys (y.above ys)).reshape
    c.vf i (y.lower r (nodeSlabs (y.above xs)))
    (y.slabs.filter fun n => !((ys.filterMap Part.slab ++ (y.upper r (nodeSlabs (y.above xs)) gen).nodes).contains n)) xs (y.above xs))

theorem splitState_eq (l : Latched) (t : State) (h : Word) (i : Nat) (y : EArray) (r j gen : Nat) (xs ys : List (Part (List Byte))) :
    c.splitState l t h i y r j gen xs ys =
      if r = y.len then c.splitTrees t i y r j gen xs ys else (c.splitTrees t i y r j gen xs ys).dropRlb c.vf h l.cores := rfl

theorem accesses_splitTrees {r gen : Nat} (hc : s.ctx? = some c) (harr : SMap.get? (s.vf c.vf).arrays i = some y)
    (hcheck : (c.counted s).slabCheck c.vf y.die (leafNeed (c.halves (c.counted s) y r).2 + (nodeSlabs (y.above (c.halves (c.counted s) y r).2) -
      (y.nodes.length - nodeSlabs (y.above (c.halves (c.counted s) y r).1)))) = none) :
    c.Accesses s arrayLoose (c.arrayReach s y.die) c.gang.count
      (c.splitTrees (c.counted s) i y r j gen (c.halves (c.counted s) y r).1 (c.halves (c.counted s) y r).2) := by
  have hslabs := halves_slabs c (c.counted s) y r
  have hfirst := accesses_treeChange (z := y.upper r (nodeSlabs (y.above (c.halves (c.counted s) y r).1)) gen) (die := y.die)
    (ps := (c.halves (c.counted s) y r).2) (levels := y.above (c.halves (c.counted s) y r).2) hc
    (tablesOnly_anchors fun v => (y.moved r).foldl (fun m p => SMap.set m p.1 (.live j)) v.anchors) rfl j
    ((c.halves (c.counted s) y r).2.filterMap Part.slab ++ (y.upper r (nodeSlabs (y.above (c.halves (c.counted s) y r).1)) gen).nodes)
    (fun hneed => ?_) (fun n hn => leaf_hasSlab harr rfl (hslabs.subset (List.mem_append_right _ hn)))
    fun hfit p hp => ((halves_ok (c.counted s) r (hfit i y harr)).2 p hp).bytes
  · refine hfirst.reshape (a := y.lower r (nodeSlabs (y.above (c.halves (c.counted s) y r).1)))
      (levels := y.above (c.halves (c.counted s) y r).1)
      ((TablesOnly.samePools (tablesOnly_anchors _) c s).trans (reshape_samePools ..)) rfl i _ (fun hneed => ?_)
      (fun n hn => leaf_hasSlab harr rfl (hslabs.subset (List.mem_append_left _ hn)))
      fun hfit p hp => ((halves_ok (c.counted s) r (hfit i y harr)).1 p hp).bytes
    rw [halves_need] at hneed
    exact absurd hneed (Nat.lt_irrefl 0)
  · have hnodes : (y.upper r (nodeSlabs (y.above (c.halves (c.counted s) y r).1)) gen).nodes.length =
        y.nodes.length - nodeSlabs (y.above (c.halves (c.counted s) y r).1) := List.length_drop
    rw [hnodes]
    exact slabCheck_room hcheck (by omega)

/-- A split leaves the anchors below its rank, and gives those from it to a new array (R76, R91). -/
theorem esplit_gives (hm : c.MayAct s (.esplit d a b cb) true y) (harr : s.array? c.vf (c.s a) = some (i, y)) (hr : (c.s b).toNat ≤ y.len)
    (hcheck : (c.counted s).slabCheck c.vf y.die (leafNeed (c.halves (c.counted s) y (c.s b).toNat).2 +
      (nodeSlabs (y.above (c.halves (c.counted s) y (c.s b).toNat).2) -
        (y.nodes.length - nodeSlabs (y.above (c.halves (c.counted s) y (c.s b).toNat).1)))) = none)
    (hroom : (s.vf c.vf).arrays.length < 65536) (hj : ((s.vf c.vf).newIndex s.tick).1 = j) (hfree : SMap.get? (s.vf c.vf).arrays j = none) :
    c.Gives s (.esplit d a b cb) (c.latchArray (c.counted s) y.bound) true
      (.scalar d (BitVec.ofNat 64 ((SMap.getD (s.vf c.vf).arrGen j 0 % 255 + 1) * 2 ^ 18 + y.die * 2 ^ 16 + j))) fun t =>
        c.OnlyArrays s t y.die [i, j] ((y.moved (c.s b).toNat).map Prod.fst) ∧
        ((c.s b).toNat = y.len → ∀ k, (t.core k).rlb = (s.core k).rlb) ∧
        (∃ z, SMap.get? (t.vf c.vf).arrays i = some z ∧
          (z.gen = y.gen ∧ z.die = y.die ∧ z.scope = y.scope ∧ z.size = y.size ∧ z.creator = y.creator) ∧ z.version = y.version + 1 ∧
          z.anchors = y.anchors.filter fun e => decide (e.2 < (c.s b).toNat)) ∧
        ∃ z, SMap.get? (t.vf c.vf).arrays j = some z ∧ z.gen = SMap.getD (s.vf c.vf).arrGen j 0 % 255 + 1 ∧ z.die = y.die ∧
          z.scope = y.scope ∧ z.size = y.size ∧ z.version = 0 ∧ z.anchors = (y.moved (c.s b).toNat).map fun e => (e.1, e.2 - (c.s b).toNat) := by
  have harr' := array?_spec harr
  have hop := (eaSplit_eq_ok (t := c.counted s) (l := c.latchArray (c.counted s) y.bound) (sd := d)).2
    ⟨hm.unstaged, i, y, harr, hm.scope, hr, hcheck, hroom, rfl⟩
  have hindex : ((c.counted s).vf c.vf).newIndex (c.counted s).tick = (j, SMap.getD (s.vf c.vf).arrGen j 0 % 255 + 1) := by
    rw [← hj]
    rfl
  rw [hindex] at hop
  dsimp only at hop
  generalize hgen : SMap.getD (s.vf c.vf).arrGen j 0 % 255 + 1 = gen at hop ⊢
  generalize hr' : (c.s b).toNat = r at *
  have hij : i ≠ j := fun e => by rw [e, hfree] at harr'; cases harr'
  have htrees := accesses_splitTrees (j := j) (gen := gen) hm.runs.ctx harr' hcheck
  generalize hxs : (c.halves (c.counted s) y r).1 = xs at *
  generalize hys : (c.halves (c.counted s) y r).2 = ys at *
  have htables : c.OnlyTables s (c.splitTrees (c.counted s) i y r j gen xs ys) [i, j] ((y.moved r).map Prod.fst) := by
    refine (((Ctx.OnlyTables.start c s _ _).modVf _ (fun k _ => rfl) fun k hk => ?_).reshape (List.mem_cons_of_mem _ List.mem_cons_self) ..).reshape
      List.mem_cons_self ..
    exact (get?_foldl_setKeys Prod.fst (AnchorState.live j) (y.moved r) (s.vf c.vf).anchors k).trans (if_neg hk)
  have hsplit := splitState_eq (c := c) (c.latchArray (c.counted s) y.bound) (c.counted s) (c.s a) i y r j gen xs ys
  have hvf (v : Nat) : (c.splitState (c.latchArray (c.counted s) y.bound) (c.counted s) (c.s a) i y r j gen xs ys).vf v =
      (c.splitTrees (c.counted s) i y r j gen xs ys).vf v := by
    rw [hsplit]
    split <;> rfl
  have hacc : c.Accesses s arrayLoose (c.arrayReach s y.die) c.gang.count
      (c.splitState (c.latchArray (c.counted s) y.bound) (c.counted s) (c.s a) i y r j gen xs ys) := by
    rw [hsplit]
    split
    · exact htrees
    · exact htrees.dropRlb ..
  refine hm.gives rfl rfl (byHandle_target harr) hop hacc fun t hf hmem => ⟨?_, fun hlen k => ?_, ?_, ?_⟩
  · refine Ctx.OnlyTables.onlyArrays (t := c.splitState (c.latchArray (c.counted s) y.bound) (c.counted s) (c.s a) i y r j gen xs ys)
      ⟨fun v k hk => ?_, fun v k hk => ?_⟩ hf hmem
    · rw [hvf]
      exact htables.arrays v k hk
    · rw [hvf]
      exact htables.anchors v k hk
  · rw [hf.rlb, hsplit, if_pos hlen]
    exact (reshape_rlb ..).trans (reshape_rlb ..)
  · rw [hf.vf, hvf]
    exact ⟨_, (reshape_arrays ..).trans (if_pos rfl), ⟨rfl, rfl, rfl, rfl, rfl⟩, rfl, rfl⟩
  · rw [hf.vf, hvf]
    exact ⟨_, (reshape_arrays ..).trans ((if_neg hij).trans ((reshape_arrays ..).trans (if_pos rfl))), rfl, rfl, rfl, rfl, rfl, rfl⟩

/-! ### Joining -/

theorem joined_rebalanced (c : Ctx) (t : State) (y z : EArray) {e K : Nat} (hH : PrefixClosed H) (hlimit : t.leafLimit y ≤ K) :
    Rebalanced e K H (t.leafParts c.vf y ++ t.leafParts c.vf z) (c.joined t y z) := by
  have hsame := (sameLeaves_parents (parentOf ((y.catLevels z).head?.getD []))
    (joinParts (t.leafParts c.vf y) (t.leafParts c.vf z))).trans (sameLeaves_joinParts (t.leafParts c.vf y) (t.leafParts c.vf z))
  obtain ⟨h1, h2, h3⟩ := rebalanced_balanced (e := e) hH hlimit (((List.range (joinParts (t.leafParts c.vf y) (t.leafParts c.vf z)).length).zip
    (joinParts (t.leafParts c.vf y) (t.leafParts c.vf z))).map fun p =>
      { p.2 with parent := parentOf ((y.catLevels z).head?.getD []) p.1 })
  exact ⟨h1.trans (SameLeaves.contents hsame), SameLeaves.slabs hsame ▸ h2, fun hok => h3 (SameLeaves.ok hsame hok)⟩

theorem joined_slabs (c : Ctx) (t : State) (y z : EArray) :
    ((c.joined t y z).filterMap Part.slab).Sublist (y.leaves.map Prod.fst ++ z.leaves.map Prod.fst) := by
  have h := (joined_rebalanced (H := fun _ _ => True) (e := 0) c t y z (fun _ _ _ _ => trivial) (le_refl _)).slabNumbers
  rwa [List.filterMap_append, leafParts_numbers, leafParts_numbers] at h

theorem joined_need (c : Ctx) (t : State) (y z : EArray) : leafNeed (c.joined t y z) = 0 := by
  refine leafNeed_eq_zero ((joined_rebalanced (H := fun _ _ => True) (e := 0) c t y z (fun _ _ _ _ => trivial) (le_refl _)).placed ?_)
  rw [AllPlaced, List.map_append, List.mem_append]
  exact fun h => h.elim (leafParts_placed t c.vf y) (leafParts_placed t c.vf z)

theorem joined_ok (c : Ctx) (t : State) (hsize : z.size = y.size) (hdie : z.die = y.die)
    (hy : y.size ≤ 4 ∧ ∀ p ∈ y.leaves, p.2 * y.esize ≤ 4096) (hz : ∀ p ∈ z.leaves, p.2 * z.esize ≤ 4096) :
    ∀ p ∈ c.joined t y z, PartOk y.esize (4096 / y.esize) (t.holds c.vf y.die) p := by
  have he : z.esize = y.esize := by rw [EArray.esize, hsize, EArray.esize]
  refine (joined_rebalanced c t y z (t.holds_prefixClosed c.vf y.die) (leafLimit_bounds t hy.1).2).ok fun p hp => ?_
  rcases List.mem_append.1 hp with hp | hp
  · exact leafParts_ok t c.vf hy.2 p hp
  · have := leafParts_ok t c.vf hz p hp
    rwa [he, hdie] at this

/-- The anchors of the second array go to the first, which takes its tables' place. -/
def joinTables (i j : Nat) (z : EArray) (v : Vf) : Vf :=
  { v.setArray j z.emptied with anchors := z.anchors.foldl (fun m p => SMap.set m p.1 (.live i)) v.anchors }

theorem tablesOnly_join (i j : Nat) (z : EArray) : TablesOnly (joinTables i j z) := ⟨fun _ => rfl, fun _ => rfl⟩

/-- The state in which a join's tree stands, its lookaside entries not yet dropped. -/
def Ctx.joinedTree (c : Ctx) (t : State) (i j : Nat) (y z : EArray) (ps : List (Part (List Byte))) : State :=
  (t.modVf c.vf (joinTables i j z)).reshape c.vf i (y.cat z) (y.slabs ++ z.slabs) ps (y.joinedLevels z ps)

theorem joinedState_eq (l m : Latched) (t : State) (h k : Word) (i j : Nat) (y z : EArray) (ps : List (Part (List Byte))) :
    c.joinedState l m t h k i j y z ps = if z.leaves.isEmpty then c.joinedTree t i j y z ps else
      ((c.joinedTree t i j y z ps).dropRlb c.vf h l.cores).dropRlb c.vf k m.cores := rfl

theorem accesses_joinedTree (hc : s.ctx? = some c) (hy : SMap.get? (s.vf c.vf).arrays i = some y) (hz : SMap.get? (s.vf c.vf).arrays j = some z)
    (hsize : z.size = y.size) (hdie : z.die = y.die) : c.Accesses s arrayLoose (c.arrayReach s y.die) c.gang.count
      (c.joinedTree (c.counted s) i j y z (c.joined (c.counted s) y z)) := by
  refine accesses_treeChange (z := y.cat z) (die := y.die) hc (tablesOnly_join i j z) rfl i (y.slabs ++ z.slabs) (fun hneed => ?_)
    (fun n hn => ?_) fun hfit p hp => ?_
  · rw [joined_need] at hneed
    exact absurd hneed (Nat.lt_irrefl 0)
  · rcases List.mem_append.1 ((joined_slabs c (c.counted s) y z).subset hn) with h | h
    · exact leaf_hasSlab hy rfl h
    · exact leaf_hasSlab hz hdie h
  · exact (joined_ok c (c.counted s) hsize hdie (hfit i y hy) (hfit j z hz).2 p hp).bytes

/-- A join gives the anchors of the second array their places in the first, and leaves the second empty (R77, R91). -/
theorem ecat_gives (hm : c.MayAct s (.ecat d a b cb) true y)
    (hmay : c.MayJoin (c.latchArray (c.counted s) y.bound) (c.latchArray (c.counted s) z.bound) (c.counted s) a b i j y z) :
    c.Gives s (.ecat d a b cb) (c.latchArray (c.counted s) y.bound) true (.scalar d (BitVec.ofNat 64 (y.len + z.len))) fun t =>
      c.OnlyArrays s t y.die [i, j] (z.anchors.map Prod.fst) ∧ (z.leaves = [] → ∀ k, (t.core k).rlb = (s.core k).rlb) ∧
      (∃ e, SMap.get? (t.vf c.vf).arrays j = some e ∧ e.leaves = [] ∧ e.anchors = [] ∧ e.version = z.version + 1) ∧
      ∃ e, SMap.get? (t.vf c.vf).arrays i = some e ∧
        (e.gen = y.gen ∧ e.die = y.die ∧ e.scope = y.scope ∧ e.size = y.size ∧ e.creator = y.creator) ∧ e.version = y.version + 1 ∧
        e.anchors = y.anchors ++ z.anchors.map fun p => (p.1, p.2 + y.len) := by
  obtain ⟨hsize, hdie, -, hij⟩ := hmay.alike
  have hop := (eaCat_eq_ok (sd := d)).2 ⟨i, j, y, z, hmay, rfl⟩
  have hsecond : c.latchSecond (c.counted s) (.ecat d a b cb) = c.latchArray (c.counted s) z.bound := by
    rw [Ctx.latchSecond, hmay.second]
    rfl
  have htree := accesses_joinedTree hm.runs.ctx (array?_spec hmay.first) (array?_spec hmay.second) hsize.symm hdie.symm
  generalize c.joined (c.counted s) y z = ps at hop htree
  generalize c.latchArray (c.counted s) z.bound = m at hop hsecond
  have htables : c.OnlyTables s (c.joinedTree (c.counted s) i j y z ps) [i, j] (z.anchors.map Prod.fst) := by
    refine ((Ctx.OnlyTables.start c s _ _).modVf _ (fun k hk => ?_) fun k hk => ?_).reshape List.mem_cons_self ..
    · exact (SMap.get?_set ..).trans (if_neg fun e => hk (by simp [e]))
    · exact (get?_foldl_setKeys Prod.fst (AnchorState.live i) z.anchors (s.vf c.vf).anchors k).trans (if_neg hk)
  have hjoin := joinedState_eq (c := c) (c.latchArray (c.counted s) y.bound) m (c.counted s) (c.s a) (c.s b) i j y z ps
  have hvf (v : Nat) : (c.joinedState (c.latchArray (c.counted s) y.bound) m (c.counted s) (c.s a) (c.s b) i j y z ps).vf v =
      (c.joinedTree (c.counted s) i j y z ps).vf v := by
    rw [hjoin]
    split <;> rfl
  have hacc : c.Accesses s arrayLoose (c.arrayReach s y.die) c.gang.count
      (c.joinedState (c.latchArray (c.counted s) y.bound) m (c.counted s) (c.s a) (c.s b) i j y z ps) := by
    rw [hjoin]
    split
    · exact htree
    · exact (htree.dropRlb ..).dropRlb ..
  refine hm.gives rfl rfl (byHandle_target hmay.first) (by rw [hsecond]; exact hop) hacc fun t hf hmem => ⟨?_, fun hempty k => ?_, ?_, ?_⟩
  · refine Ctx.OnlyTables.onlyArrays
      (t := c.joinedState (c.latchArray (c.counted s) y.bound) m (c.counted s) (c.s a) (c.s b) i j y z ps)
      ⟨fun v k hk => ?_, fun v k hk => ?_⟩ hf hmem
    · rw [hvf]
      exact htables.arrays v k hk
    · rw [hvf]
      exact htables.anchors v k hk
  · rw [hf.rlb, hjoin, hempty]
    exact reshape_rlb ..
  · rw [hf.vf, hvf]
    refine ⟨z.emptied, (reshape_arrays ..).trans ((if_neg hij).trans ?_), rfl, rfl, rfl⟩
    rw [modVf_self]
    exact SMap.get?_set_self ..
  · rw [hf.vf, hvf]
    exact ⟨_, (reshape_arrays ..).trans (if_pos rfl), ⟨rfl, rfl, rfl, rfl, rfl⟩, rfl, rfl⟩

end

end Sys2Proof.Machine
end

section
/-! PROOFS. Operations on arrays of the own die: O41. -/

namespace Sys2Proof.Machine

section
variable {c : Ctx} {s : State} {y : EArray} {i id q : Nat} {d a b : BitVec 5} {cb : BitVec 1}

/-! ### Arrays that are made, and anchors by their tokens -/

theorem enew_gives (hr : Runs (.enew d a cb) s c) (hst : c.team.staged = false) (hrel : c.gang.releases = []) (hw : (c.s a).toNat < 2 ^ 11)
    (h7 : (c.s a).toNat / 2 ^ 7 % 2 = 0) (h3 : (c.s a).toNat / 2 ^ 3 % 2 = 0) (hsize : (c.s a).toNat % 8 ≤ 4)
    (hdie : (c.s a).toNat / 2 ^ 8 % 2 = 1 → (c.s a).toNat / 2 ^ 9 = c.die) (hroom : (s.vf c.vf).arrays.length < 65536)
    (hsc : bit (c.latchArray (c.counted s) ⟨c.die, (c.s a).toNat / 2 ^ 4 % 8, c.core⟩).cores c.core = true)
    (hi : ((s.vf c.vf).newIndex s.tick).1 = i) :
    c.Gives s (.enew d a cb) (c.latchArray (c.counted s) ⟨c.die, (c.s a).toNat / 2 ^ 4 % 8, c.core⟩) true
      (.scalar d (BitVec.ofNat 64 ((SMap.getD (s.vf c.vf).arrGen i 0 % 255 + 1) * 2 ^ 18 + c.die * 2 ^ 16 + i))) fun t =>
        c.OnlyArrays s t c.die [i] [] ∧ SMap.get? (t.vf c.vf).arrays i =
          some (.made (SMap.getD (s.vf c.vf).arrGen i 0 % 255 + 1) c.die ((c.s a).toNat / 2 ^ 4 % 8) c.core ((c.s a).toNat % 8)) := by
  have hop := eaNew_ok (t := c.counted s) (sd := d) hst hsc hw h7 h3 hsize hdie hroom
  have hindex : ((c.counted s).vf c.vf).newIndex (c.counted s).tick = (i, SMap.getD (s.vf c.vf).arrGen i 0 % 255 + 1) := by
    rw [← hi]
    rfl
  rw [hindex] at hop
  have htarget : (eaTarget (.enew d a cb) c (c.counted s)).getD ⟨c.die, 0, c.core⟩ = ⟨c.die, (c.s a).toNat / 2 ^ 4 % 8, c.core⟩ := by
    simp only [eaTarget, enew_home hdie hw, (enew_fields (c.s a)).1]
    rfl
  refine rtu_gives hr rfl htarget rfl (fun _ => hrel) hop ((Ctx.Accesses.arrayStart hr.ctx c.die).modVf _ _ fun _ => rfl)
    fun t hf hmem => ⟨Ctx.OnlyTables.onlyArrays ((Ctx.OnlyTables.start c s [i] []).modVf _ (fun k hk => ?_) fun _ _ => rfl) hf hmem, ?_⟩
  · exact (SMap.get?_set ..).trans (if_neg fun e => hk (List.mem_singleton.2 e.symm))
  · rw [hf.vf, modVf_self]
    exact SMap.get?_set_self ..

theorem byToken_target (hanc : s.anchor? c.vf (c.s a) = some (id, .live i)) (harr : SMap.get? (s.vf c.vf).arrays i = some y) :
    (((c.counted s).anchor? c.vf (c.s a)).bind fun x => (c.counted s).arrayOf c.vf x.2).map (fun y => y.2.bound) = some y.bound := by
  rw [counted_anchor?, hanc, Option.bind_some, State.arrayOf, counted_vf, harr]
  rfl

/-- `erank` and `erank.h` of a live anchor. -/
theorem erank_gives {ins : Instr} {holder : Bool} (hm : c.MayAct s ins false y) (he : exec ins s = rtuIssue ins s)
    (hs : eaStructural ins = false) (ht : eaTarget ins c (c.counted s) = some y.bound)
    (hperform : ∀ l m t, eaPerform ins c l m t = eaRank c l t holder d a) (hanc : s.anchor? c.vf (c.s a) = some (id, .live i))
    (harr : SMap.get? (s.vf c.vf).arrays i = some y) (hq : (y.anchors.find? fun e => e.1 == id) = some (id, q)) :
    c.Gives s ins (c.latchArray (c.counted s) y.bound) false (.scalar d (if holder then y.handle i else BitVec.ofNat 64 q))
      fun t => ∀ v, t.vf v = s.vf v := by
  have hop := eaRank_ok (t := c.counted s) (sd := d) (holder := holder) hanc harr hm.scope
  have hplace : (y.placeBefore id).2 = q := by rw [EArray.placeBefore, hq]; rfl
  rw [hplace] at hop
  exact hm.gives he hs ht ((hperform ..).trans hop) (.arrayStart hm.runs.ctx y.die) fun t hf _ => hf.vf

theorem edrop_live_gives (hm : c.MayAct s (.edrop a cb) true y) (hanc : s.anchor? c.vf (c.s a) = some (id, .live i))
    (harr : SMap.get? (s.vf c.vf).arrays i = some y) :
    c.Gives s (.edrop a cb) (c.latchArray (c.counted s) y.bound) true {} fun t =>
      SMap.get? (t.vf c.vf).anchors id = none ∧ c.OnlyArrays s t c.die [i] [id] ∧
      SMap.get? (t.vf c.vf).arrays i = some { y with anchors := (y.anchors.filter fun e => e.1 != id), version := y.version + 1 } := by
  have hdie := hm.home
  rw [← hdie]
  refine hm.ends rfl rfl (byToken_target hanc harr) (eaDrop_live hm.unstaged hanc harr hm.scope)
    ((Ctx.Accesses.arrayStart hm.runs.ctx y.die).modVf _ _ fun _ => rfl)
    fun t hf hmem => ⟨?_, Ctx.OnlyTables.onlyArrays ((Ctx.OnlyTables.start c s [i] [id]).modVf _ (fun k hk => ?_) fun k hk => ?_) hf hmem, ?_⟩
  · rw [hf.vf, modVf_self]
    exact (SMap.get?_erase ..).trans (if_pos rfl)
  · exact (dropAnchor_arrays ..).trans (if_neg fun e => hk (List.mem_singleton.2 e.symm))
  · exact (SMap.get?_erase ..).trans (if_neg fun e => hk (List.mem_singleton.2 e.symm))
  · rw [hf.vf, modVf_self]
    refine (dropAnchor_arrays ..).trans ((if_pos rfl).trans ?_)
    rw [counted_vf, harr]
    rfl

/-- The release of a dead anchor that no array held. -/
theorem edrop_dead_completes (hr : Runs (.edrop a cb) s c) (hst : c.team.staged = false) (hrel : c.gang.releases = [])
    (hanc : s.anchor? c.vf (c.s a) = some (id, .dead none)) :
    CompletesAt (.edrop a cb) s c c.after {} { vf := fun x => { x with anchors := [] } } fun t _ =>
      SMap.get? (t.vf c.vf).anchors id = none ∧ c.OnlyArrays s t c.die [] [id] := by
  have htarget : (eaTarget (.edrop a cb) c (c.counted s)).getD ⟨c.die, 0, c.core⟩ = ⟨c.die, 0, c.core⟩ := by
    simp only [eaTarget, counted_anchor?, hanc, Option.bind_some, State.arrayOf]
    rfl
  have hacc : c.Accesses s { vf := fun x => { x with anchors := [] } } (c.arrayReach s c.die) c.gang.count
      ((c.counted s).modVf c.vf fun v => v.dropAnchor id (.dead none)) :=
    (Ctx.Accesses.counted hr.ctx _ (c.writtenIn_arrayReach s c.die)).modVf _ _ fun _ => rfl
  refine rtu_completes hr rfl htarget rfl (fun _ => hrel) (eaDrop_dead hst hanc) hacc (Gang.entries_count _) (done_count ..) fun t _ hs => ?_
  have hf := hs.follows (hacc.kept.self fun _ => rfl)
  refine ⟨?_, Ctx.OnlyTables.onlyArrays ((Ctx.OnlyTables.start c s [] [id]).modVf _ (fun _ _ => rfl) fun k hk => ?_) hf fun b hb => ?_⟩
  · rw [hf.vf, modVf_self]
    exact (SMap.get?_erase ..).trans (if_pos rfl)
  · exact (SMap.get?_erase ..).trans (if_neg fun e => hk (List.mem_singleton.2 e.symm))
  · rw [hs.mem]
    exact hacc.mem b hb

/-! ### The places of anchors -/

theorem dying_eq (y : EArray) (r n : Nat) :
    y.dying r n = (y.anchors.filter fun e => decide (r < e.2 ∧ e.2 < r + n)).map Prod.fst := by
  simp only [EArray.dying, Bool.decide_and]

/-- The anchors around a place before an anchor (R73). -/
theorem enter_placeBefore (y : EArray) (id n : Nat) : (y.enter (y.placeBefore id) [] n).anchors =
    (y.anchors.takeWhile fun e => decide (e.1 ≠ id)) ++ (y.anchors.dropWhile fun e => decide (e.1 ≠ id)).map fun e => (e.1, e.2 + n) := by
  have htake : y.anchors.take (y.anchors.takeWhile fun e => decide (e.1 ≠ id)).length = y.anchors.takeWhile fun e => decide (e.1 ≠ id) :=
    (List.prefix_iff_eq_take.1 (List.takeWhile_prefix _)).symm
  have hdrop : y.anchors.drop (y.anchors.takeWhile fun e => decide (e.1 ≠ id)).length = y.anchors.dropWhile fun e => decide (e.1 ≠ id) := by
    have hsplit := congrArg (List.drop (y.anchors.takeWhile fun e => decide (e.1 ≠ id)).length)
      (List.takeWhile_append_dropWhile (p := fun e => decide (e.1 ≠ id)) (l := y.anchors))
    rw [List.drop_left] at hsplit
    exact hsplit.symm
  simp only [EArray.enter, EArray.placeBefore, htake, hdrop, List.map_nil, List.append_nil]

/-! ### The forms of insertion -/

/-- A place before an anchor, which has a rank. -/
theorem placeBefore_rank (hq : (y.anchors.find? fun e => e.1 == id) = some (id, q)) : (y.placeBefore id).2 = q := by
  rw [EArray.placeBefore, hq]
  rfl

theorem Ctx.Gives.imp {ins : Instr} {l : Latched} {st : Bool} {w : Writes} {P Q : State → Prop} (h : c.Gives s ins l st w P)
    (hpq : ∀ t, P t → Q t) : c.Gives s ins l st w Q := by
  obtain ⟨t, h, he, hg, hw, hk, hturn, hgo, ht⟩ := h
  exact ⟨t, h, he, hg, hw, hk, hturn, hgo, hpq t ht⟩

theorem eaPerform_eins (an da : BitVec 1) (x : BitVec 6) {anc : Bool} (h : (an == 1) = anc) (l m : Latched) (t : State) :
    eaPerform (.eins an da d a b x cb) c l m t = eaInsert c l t false anc (da == 1) d a b x := by
  subst h
  rfl

/-- `eins` of elements at a rank. -/
theorem eins_gives {x : BitVec 6} {an da : BitVec 1} (hm : c.MayAct s (.eins an da d a b x cb) true y)
    (harr : s.array? c.vf (c.s a) = some (i, y)) (hn : 0 < (c.s d).toNat) (hr : (c.s b).toNat ≤ y.len) (hmax : (c.s d).toNat + y.len ≤ 2 ^ 40)
    (hdata : da = 1 → (c.s d).toNat ≤ c.w)
    (hcheck : (c.counted s).slabCheck c.vf y.die (leafNeed (c.insertion (c.counted s) y (da == 1) x (c.s d).toNat (c.s b).toNat).1 +
      (nodeSlabs (c.insertion (c.counted s) y (da == 1) x (c.s d).toNat (c.s b).toNat).2 - y.nodes.length)) = none)
    (hid : an = 1 → y.anchors.length < 4096 ∧ (s.vf c.vf).findRun s.tick 1 = some id) :
    c.Gives s (.eins an da d a b x cb) (c.latchArray (c.counted s) y.bound) true
      (.scalar d (BitVec.ofNat 64 (if an = 1 then (SMap.getD (s.vf c.vf).anchorGen id 0 + 1).toNat * 2 ^ 28 + id else (c.s b).toNat))) fun t =>
        c.OnlyArrays s t y.die [i] (if an = 1 then [id] else []) ∧ ∃ z, SMap.get? (t.vf c.vf).arrays i = some z ∧
          (z.gen = y.gen ∧ z.die = y.die ∧ z.scope = y.scope ∧ z.size = y.size ∧ z.creator = y.creator) ∧ z.version = y.version + 1 ∧
          z.anchors = (y.enter (y.place (c.s b).toNat) (if an = 1 then [id] else []) (c.s d).toNat).anchors := by
  have hplace : if false = true then ∃ k, (c.counted s).anchor? c.vf (c.s b) = some (k, .live i) ∧ y.placeBefore k = y.place (c.s b).toNat
    else (c.s b).toNat ≤ y.len ∧ y.place (c.s b).toNat = y.place (c.s b).toNat := ⟨hr, rfl⟩
  have hmay : c.MayInsert (c.latchArray (c.counted s) y.bound) (c.counted s) false (an == 1) (da == 1) d a b i y (y.place (c.s b).toNat) :=
    ⟨hm.unstaged, harr, hm.scope, hplace, hmax, fun h => hdata (beq_iff_eq.1 h), fun h => (hid (beq_iff_eq.1 h)).1⟩
  by_cases han : an = 1
  · have hanc : (an == 1) = true := beq_iff_eq.2 han
    rw [hanc] at hmay
    have h := insertion_gives hm rfl rfl (byHandle_target harr) (eaPerform_eins an da x hanc) hmay hn
      ((if_pos rfl).trans (hid han).2) hcheck
    rw [if_pos han, if_pos han]
    exact h.imp fun t ht => ⟨ht.1, ht.2.2⟩
  · have hanc : (an == 1) = false := beq_eq_false_iff_ne.2 han
    rw [hanc] at hmay
    have h := insertion_gives (id := 0) hm rfl rfl (byHandle_target harr) (eaPerform_eins an da x hanc) hmay hn rfl hcheck
    rw [if_neg han, if_neg han]
    exact h.imp fun t ht => ⟨ht.1, ht.2.2⟩

theorem mayInsert_before {x : BitVec 6} {an da : BitVec 1} (hm : c.MayAct s (.eapp an da d a b x cb) true y)
    (harr : s.array? c.vf (c.s a) = some (i, y)) (hmax : (c.s d).toNat + y.len ≤ 2 ^ 40) (hdata : da = 1 → (c.s d).toNat ≤ c.w)
    (hanc : s.anchor? c.vf (c.s b) = some (id, .live i)) {anc : Bool} (hroom : anc = true → y.anchors.length < 4096) :
    c.MayInsert (c.latchArray (c.counted s) y.bound) (c.counted s) true anc (da == 1) d a b i y (y.placeBefore id) :=
  ⟨hm.unstaged, harr, hm.scope, ⟨id, hanc, rfl⟩, hmax, fun h => hdata (beq_iff_eq.1 h), hroom⟩

end

end Sys2Proof.Machine
end

section
/-! PROOFS. O41, assembled. -/

namespace Sys2Proof.Machine

/-- The leaves of two arrays joined, by the second array's leaves. -/
theorem joined_eq (c : Ctx) (t : State) (y z : EArray) :
    let parts := if z.leaves = [] then t.leafParts c.vf y else markLast (t.leafParts c.vf y) ++ markFirst (t.leafParts c.vf z)
    c.joined t y z = balanced (t.leafLimit y) (((List.range parts.length).zip parts).map fun p =>
      { p.2 with parent := parentOf ((y.catLevels z).head?.getD []) p.1 }) := by
  have hparts : joinParts (t.leafParts c.vf y) (t.leafParts c.vf z) =
      if z.leaves = [] then t.leafParts c.vf y else markLast (t.leafParts c.vf y) ++ markFirst (t.leafParts c.vf z) := by
    rw [joinParts, leafParts_isEmpty]
    exact if_congr List.isEmpty_iff rfl rfl
  rw [Ctx.joined, hparts]

/-- Settles O41: each operation passes its checks, performs its rule on the tables, and completes. -/
theorem elasticOperations : Obligations.ElasticOperations := by
  unfold Obligations.ElasticOperations
  refine ⟨fun d a b x an da cb s c i y => ?_, fun d a b x da cb s c => ?_⟩
  · intro u may gives res n r len new same quiet token shifted inserted harr
    have hlen : len = y.len := y.len_eq.symm
    refine ⟨fun hm => ?_, fun hm hr => ?_, fun hm => ?_, fun ins hins hm hn hr hanc hmax => ?_, fun hm hn hr hmax hdata hcheck id hid => ?_,
      fun id q hm hn hmax hdata hanc hq hcheck => ?_, fun hm hn hr => ?_, fun ins k st hins hm hk hmax hr hroom hrun => ?_,
      fun ps hm hr hps hcheck hroom hwf => ?_, fun j z hm hz hsc hsize hdie hscope hij hmax hcheck hroom => ?_⟩
    · exact elen_gives hm harr
    · have h := einfo_gives hm harr hr
      rw [arrayItem_eq] at h
      exact h
    · exact efree_gives hm harr
    · rw [hlen] at hr hmax ⊢
      simp only [List.mem_cons, List.not_mem_nil, or_false] at hins
      rcases hins with rfl | rfl | rfl
      · have h := eins_none_gives hm harr hn hr (hanc rfl) hmax
        rw [if_neg (fun h => by cases h), if_congr (and_iff_right rfl) rfl rfl]
        exact h
      · rw [if_pos rfl]
        exact edel_none_gives hm harr hn hr
      · rw [if_neg (fun h => by cases h), if_neg (fun h => by cases h.1)]
        exact emark_none_gives hm harr hn hr
    · rw [hlen] at hr hmax
      exact eins_gives hm harr hn hr hmax hdata hcheck hid
    · rw [hlen] at hmax
      have h := insertion_gives (anc := false) (id := 0) hm rfl rfl (byHandle_target harr) (fun _ _ _ => rfl)
        (mayInsert_before hm harr hmax hdata hanc fun h => by cases h) hn rfl (by rw [placeBefore_rank hq]; exact hcheck)
      rw [if_neg Bool.false_ne_true, placeBefore_rank hq] at h
      refine Ctx.Gives.imp h fun t ⟨htables, _, z, hz, hsame, hversion, hanchors⟩ => ⟨htables, z, hz, hsame, hversion, ?_⟩
      exact hanchors.trans (enter_placeBefore y id n)
    · rw [hlen] at hr ⊢
      have h := edel_gives hm harr hn hr
      rw [dying_eq] at h
      refine Ctx.Gives.imp h fun t ⟨htables, hdead, z, hz, hsame, hversion, hanchors⟩ => ⟨htables, z, hz, hsame, hversion, hdead, ?_⟩
      rw [← dying_eq]
      exact hanchors
    · rw [hlen] at hr
      have hgives : c.Gives s ins (c.latchArray (c.counted s) y.bound) true
          (.scalar d (BitVec.ofNat 64 ((SMap.getD (s.vf c.vf).anchorGen st 0 + 1).toNat * 2 ^ 28 + st))) fun t =>
            c.OnlyArrays s t y.die [i] ((List.range k).map fun j => st + j) ∧
              (∀ j, j < k → SMap.get? (t.vf c.vf).anchors (st + j) = some (.live i)) ∧
              SMap.get? (t.vf c.vf).arrays i = some (y.enter (y.place (c.s b).toNat) ((List.range k).map fun j => st + j) 0) := by
        rcases hins with ⟨rfl, rfl⟩ | ⟨rfl, rfl⟩
        · exact eaMark_gives hm rfl rfl (byHandle_target harr) (fun _ _ _ => rfl) harr hk hmax hr hroom hrun
        · exact eaMark_gives hm rfl rfl (byHandle_target harr) (fun _ _ _ => rfl) harr hk hmax hr hroom hrun
      exact hgives.imp fun t ⟨htables, hlive, hz⟩ => ⟨htables, hlive, _, hz, ⟨rfl, rfl, rfl, rfl, rfl⟩, rfl, rfl, rfl⟩
    · subst hps
      rw [hlen] at hr ⊢
      obtain ⟨hfree, -⟩ := newIndex_spec s.tick hwf hroom
      exact ⟨_, hfree, esplit_gives hm harr hr hcheck hroom rfl hfree⟩
    · rw [← z.len_eq, hlen] at hmax ⊢
      have hact : c.MayAct s (.ecat d a b cb) true y := hm
      refine ecat_gives hact ⟨hact.unstaged, harr, hz, hact.scope, hsc, ⟨hsize.symm, hdie.symm, hscope.symm, hij⟩, hmax, ?_, hroom⟩
      rw [EArray.joinedLevels, joined_eq]
      exact hcheck
  · intro u w gives
    refine ⟨fun hr hst hrel hw h7 h3 hsize hdie hroom hwf hsc => ?_, fun id i y q hanc harr hdie hq hsc => ⟨fun hr => ?_, fun hr => ?_,
      fun hr hst hrel => ?_⟩, fun id hanc hr hst hrel => edrop_dead_completes hr hst hrel hanc,
      fun i y id q new harr hdie hanc hq hroom hrun hr hst hrel hn hmax hdata hcheck hsc => ?_⟩
    · obtain ⟨hfree, hlt⟩ := newIndex_spec s.tick hwf hroom
      exact ⟨_, hfree, hlt, enew_gives hr hst hrel hw h7 h3 hsize hdie hroom hsc rfl⟩
    · exact erank_gives (holder := false) ⟨hr, hdie, hsc, fun h => by cases h⟩ rfl rfl (byToken_target hanc harr) (fun _ _ _ => rfl) hanc harr hq
    · exact erank_gives (holder := true) ⟨hr, hdie, hsc, fun h => by cases h⟩ rfl rfl (byToken_target hanc harr) (fun _ _ _ => rfl) hanc harr hq
    · exact edrop_live_gives ⟨hr, hdie, hsc, fun _ => ⟨hst, hrel⟩⟩ hanc harr
    · have hm : c.MayAct s (.eapp 1 da d a b x cb) true y := ⟨hr, hdie, hsc, fun _ => ⟨hst, hrel⟩⟩
      have h := insertion_gives (anc := true) hm rfl rfl (byHandle_target harr) (fun _ _ _ => rfl)
        (mayInsert_before hm harr hmax hdata hanc fun _ => hroom) hn hrun (by rw [placeBefore_rank hq]; exact hcheck)
      rw [hdie] at h
      exact h.imp fun t ⟨htables, hlive, _⟩ => ⟨htables, hlive rfl⟩

end Sys2Proof.Machine
end

section
/-! PROOFS. The elements of an array after the change of its tree (R68), and what keeps the slabs of its pool (R381). -/

namespace Sys2Proof.Machine

section
variable {s t u : State} {vf die idx core : Nat} {a y : EArray} {own : List Nat} {ps : List (Part (List Byte))} {levels : List (List Nat)}
  {P : Nat → Prop}

/-! ### What keeps the slabs of a pool -/

/-- The slabs of a pool stand where they stood, and hold their bytes. -/
structure State.KeepsSlabs (s t : State) (vf die : Nat) : Prop where
  pools : s.SamePools t vf
  slabs : ∀ n, n < ((s.vf vf).slabPool die).2 → s.SameSlab t vf die n

theorem State.KeepsSlabs.trans (h : s.KeepsSlabs t vf die) (k : t.KeepsSlabs u vf die) : s.KeepsSlabs u vf die :=
  ⟨h.pools.trans k.pools, fun n hn => (h.slabs n hn).trans h.pools (k.slabs n (h.pools.inPool hn))⟩

/-- A state that differs from another in neither memory nor what its pools rest on. -/
theorem State.KeepsSlabs.of_mem (hp : s.SamePools t vf) (hm : t.mem = s.mem) : s.KeepsSlabs t vf die :=
  ⟨hp, fun _ _ _ _ => by rw [hm]⟩

/-- A byte that lies in no slab of the pool. -/
def State.OutsidePool (s : State) (vf die b : Nat) : Prop :=
  ∀ n, n < ((s.vf vf).slabPool die).2 → ¬ (s.slabAddr vf die n ≤ b ∧ b < s.slabAddr vf die n + 4096)

theorem State.SamePools.outsidePool (h : s.SamePools t vf) : t.OutsidePool vf die = s.OutsidePool vf die := by
  unfold State.OutsidePool
  simp only [h.slabPool, h.slabAddr]

theorem State.KeepsSlabs.of_outside (hp : s.SamePools t vf) (hm : ∀ b, ¬ s.OutsidePool vf die b → ZMap.get t.mem b = ZMap.get s.mem b) :
    s.KeepsSlabs t vf die :=
  ⟨hp, fun n hn i hi => hm _ fun h => h n hn ⟨Nat.le_add_right .., by omega⟩⟩

theorem ArraySound.written (h : ArraySound s vf core y) : s.WrittenIn core (s.OutsidePool vf y.die) :=
  fun b hb n hn ⟨hlo, hhi⟩ => (h.clean n b hn hlo hhi).1 hb

theorem ArraySound.cleanPool (h : ArraySound s vf core y) : s.CleanPool vf y.die :=
  fun k b hk hlo hhi hbase n => (h.clean k b hk hlo hhi).2 n hbase

/-! ### Written bytes -/

/-- Where memory alone changes, the written bytes stay. -/
theorem writtenIn_setMem (h : s.WrittenIn core P) (m : Memory) : ({ s with mem := m } : State).WrittenIn core P := h

theorem writtenIn_modGang (h : s.WrittenIn core P) (n g : Nat) (f : Gang → Gang) : (s.modGang n g f).WrittenIn core P := h

theorem writtenIn_markSlab (h : s.WrittenIn core P) (n : Nat) : (s.markSlab vf die n).WrittenIn core P := by
  unfold State.markSlab
  dsimp only
  split
  · exact h
  · split
    · exact writtenIn_setMem h _
    · exact (State.Moves.event h ..).within

theorem writtenIn_writeLeaf (h : s.WrittenIn core P) (x : Nat × List (List Byte) × Bool) : (s.writeLeaf vf die x).WrittenIn core P := by
  unfold State.writeLeaf
  dsimp only
  split
  · exact writtenIn_markSlab (State.Moves.dropSlab (writtenIn_setMem h _) _).within x.1
  · exact (State.Moves.dropSlab h _).within

theorem writtenIn_storeTree (h : s.WrittenIn core P) (leaves : List (Nat × List (List Byte) × Bool)) (nodes : List Nat) :
    (s.storeTree vf die leaves nodes).WrittenIn core P := by
  have hleaves : (s.writeLeaves vf die leaves).WrittenIn core P := by
    induction leaves generalizing s with
    | nil => exact h
    | cons x xs ih =>
      rw [State.writeLeaves_cons]
      exact ih (writtenIn_writeLeaf h x)
  unfold State.storeTree
  generalize s.writeLeaves vf die leaves = t at hleaves
  induction nodes generalizing t with
  | nil => exact hleaves
  | cons n ns ih =>
    rw [State.markSlabs_cons]
    exact ih _ (writtenIn_markSlab hleaves n)

theorem writtenIn_reshape (h : s.WrittenIn core P) : (s.reshape vf idx a own ps levels).WrittenIn core P := by
  obtain ⟨m, hm⟩ := reshape_eq s vf idx a own ps levels
  rw [hm]
  exact writtenIn_storeTree (vf := vf) (die := a.die) h (s.treeLeaves vf a ps levels) (s.treeNodes vf a ps levels)

theorem writtenIn_dropRlb (h : s.WrittenIn core P) (hd : Word) (cores : BitVec 256) : (s.dropRlb vf hd cores).WrittenIn core P := by
  obtain ⟨h1, h2⟩ := (s.writtenIn_iff core P).1 h
  refine (State.writtenIn_iff ..).2 ⟨?_, h2⟩
  obtain ⟨rs, hrs⟩ := s.core_dropRlb vf hd cores core
  rw [hrs]
  exact h1

/-- The release and acquire of an operation write back only what was written. -/
theorem eaOrder_mem {c : Ctx} {b : Nat} (h : s.WrittenIn c.core P) (l : Latched) (st : Bool) (hb : ¬ P b) :
    ZMap.get (c.eaOrder l st s).mem b = ZMap.get s.mem b := by
  unfold Ctx.eaOrder
  cases st with
  | false => exact (State.Moves.discardAt h l.level l.dies).mem b hb
  | true =>
    have hdrain := State.Moves.drainAt h l.level l.dies
    exact ((State.Moves.discardAt (writtenIn_modGang hdrain.within _ _ _) l.level l.dies).mem b hb).trans (hdrain.mem b hb)

theorem eaOrder_board (c : Ctx) (l : Latched) (st : Bool) (t : State) : (c.eaOrder l st t).board = t.board := by
  have hany (t : State) : t.WrittenIn c.core fun _ => True := fun _ _ => trivial
  unfold Ctx.eaOrder
  refine (State.Moves.discardAt (hany _) l.level l.dies).step.board.trans ?_
  cases st with
  | false => rfl
  | true => exact (State.Moves.drainAt (hany t) l.level l.dies).step.board

/-- What follows the change of trees keeps the slabs: lookaside entries are dropped, written bytes go home, and the result is written. -/
theorem keepsSlabs_order {c : Ctx} (h : s.WrittenIn c.core (s.OutsidePool vf die)) (l : Latched) (st : Bool) (d : BitVec 5) (x : Word) :
    s.KeepsSlabs (c.setS (c.eaOrder l st s) d x) vf die :=
  .of_outside ⟨eaOrder_board c l st s, congrArg Vf.block (eaOrder_vf c l st s vf)⟩ fun _ hb => eaOrder_mem h l st hb

/-! ### The elements of an array by its slabs -/

theorem State.KeepsSlabs.elements (h : s.KeepsSlabs t vf y.die)
    (hy : ∀ p ∈ y.leaves, p.2 * y.esize ≤ 4096 ∧ p.1 < ((s.vf vf).slabPool y.die).2) : elements t vf y = elements s vf y := by
  unfold Machine.elements
  refine List.flatMap_congr fun p hp => List.map_congr_left fun i hi => ?_
  obtain ⟨hfit, hpool⟩ := hy p hp
  have hi := List.mem_range.1 hi
  have hend : y.esize * i + y.esize ≤ 4096 := by
    rw [← Nat.mul_succ, Nat.mul_comm]
    exact (Nat.mul_le_mul_right _ hi).trans hfit
  rw [h.pools.slabAddr]
  refine bytes_congr fun k hk => ?_
  rw [Nat.add_assoc]
  exact h.slabs p.1 hpool (y.esize * i + k) (by omega)

/-- A slab that holds some elements gives them. -/
theorem leafItems_of_holds {n : Nat} {xs : List (List Byte)} (hsizes : ∀ x ∈ xs, x.length = a.esize) (h : s.holds vf a.die n xs) :
    s.leafItems vf a (n, xs.length) = xs := by
  refine List.eq_iff_flatten_eq.2 ⟨?_, ?_⟩
  · rw [State.leafItems, flatten_map_bytes, Nat.mul_comm, ← flatten_length hsizes]
    exact h
  · have hlens : xs.map List.length = List.replicate xs.length a.esize := by
      rw [List.map_congr_left hsizes, List.map_const']
    rw [hlens, State.leafItems, List.map_map]
    refine (List.map_congr_left fun i _ => Memory.length_bytes ..).trans ?_
    rw [List.map_const', List.length_range]

theorem elements_grown (hsizes : ∀ p ∈ ps, ∀ x ∈ p.items, x.length = a.esize)
    (h : ∀ x ∈ s.treeLeaves vf a ps levels, t.holds vf a.die x.1 x.2.1) : elements t vf (s.grown vf a ps levels) = contents ps := by
  have hitems (x) (hx : x ∈ s.treeLeaves vf a ps levels) : t.leafItems vf a (x.1, x.2.1.length) = x.2.1 := by
    obtain ⟨p, hp, he, -⟩ := mem_giveSlabs hx
    exact leafItems_of_holds (he ▸ hsizes p hp) (h x hx)
  calc elements t vf (s.grown vf a ps levels)
      = (s.treeLeaves vf a ps levels).flatMap fun x => t.leafItems vf a (x.1, x.2.1.length) := List.flatMap_map ..
    _ = (s.treeLeaves vf a ps levels).flatMap fun x => x.2.1 := List.flatMap_congr hitems
    _ = contents ps := by
      have := congrArg List.flatten (giveSlabs_items ps (freeSlabs s.tick ((s.vf vf).slabPool a.die).2 ((s.vf vf).usedSlabs a.die)
        (leafNeed ps + (nodeSlabs levels - a.nodes.length))))
      rwa [← List.flatMap_def, ← List.flatMap_def] at this

/-! ### The change of a tree -/

/-- What the change of a tree rests on: the leaves stand where they are not written, their slabs are their own, and the pool has room for
the others. -/
structure State.MayGrow (s : State) (vf : Nat) (a : EArray) (ps : List (Part (List Byte))) (levels : List (List Nat)) : Prop where
  pool : ((s.vf vf).slabPool a.die).2 ≤ 2 ^ 25
  clean : s.CleanPool vf a.die
  ok : ∀ p ∈ ps, PartOk a.esize (4096 / a.esize) (s.holds vf a.die) p
  own : (ps.filterMap Part.slab).Nodup
  slabs : ∀ n ∈ ps.filterMap Part.slab, n < ((s.vf vf).slabPool a.die).2
  used : 0 < leafNeed ps → ∀ n ∈ ps.filterMap Part.slab, n ∈ (s.vf vf).usedSlabs a.die
  room : 0 < leafNeed ps → ((s.vf vf).usedSlabs a.die).length + (leafNeed ps + (nodeSlabs levels - a.nodes.length)) ≤
    ((s.vf vf).slabPool a.die).2

theorem State.MayGrow.leavesFit (h : s.MayGrow vf a ps levels) : LeavesFit s vf a.die (s.treeLeaves vf a ps levels) := by
  refine ⟨h.pool, h.clean, fun x hx => ?_, fun x hx => ?_⟩
  · rcases mem_treeLeaves hx h.room with hn | ⟨hn, -⟩
    · exact h.slabs _ hn
    · exact hn
  · obtain ⟨p, hp, he, -⟩ := mem_giveSlabs hx
    exact he ▸ (h.ok p hp).bytes

theorem reshape_mem (s : State) (vf idx : Nat) (a : EArray) (own : List Nat) (ps : List (Part (List Byte))) (levels : List (List Nat)) :
    (s.reshape vf idx a own ps levels).mem = (s.storeTree vf a.die (s.treeLeaves vf a ps levels) (s.treeNodes vf a ps levels)).mem := by
  obtain ⟨m, hm⟩ := reshape_eq s vf idx a own ps levels
  rw [hm]
  rfl

/-- After the change of a tree its leaves stand in their slabs. -/
theorem State.MayGrow.holds (h : s.MayGrow vf a ps levels) (idx : Nat) (own : List Nat) :
    ∀ x ∈ s.treeLeaves vf a ps levels, (s.reshape vf idx a own ps levels).holds vf a.die x.1 x.2.1 := by
  intro x hx
  have hstored := (storeTree_slabs h.leavesFit (s.treeNodes vf a ps levels)).2 (treeLeaves_nodup h.own h.used h.room) (fun z hz hw => ?_) x hx
  · unfold State.holds at hstored ⊢
    rw [(storeTree_samePools ..).slabAddr] at hstored
    rw [(reshape_samePools ..).slabAddr, reshape_mem]
    exact hstored
  · obtain ⟨p, hp, he, hplain⟩ := mem_giveSlabs hz
    obtain ⟨hslab, hnew⟩ := hplain hw
    exact he ▸ (h.ok p hp).stands hnew _ hslab

/-- Slabs of the pool that the tree does not take stay as they are. -/
theorem State.MayGrow.sameSlab (h : s.MayGrow vf a ps levels) (idx : Nat) (own : List Nat) {n : Nat}
    (hn : n < ((s.vf vf).slabPool a.die).2) (hne : n ∉ (s.treeLeaves vf a ps levels).map Prod.fst) :
    s.SameSlab (s.reshape vf idx a own ps levels) vf a.die n := fun i hi => by
  rw [reshape_mem]
  exact (storeTree_slabs h.leavesFit (s.treeNodes vf a ps levels)).1 n hn hne i hi

theorem State.MayGrow.elements (h : s.MayGrow vf a ps levels) (idx : Nat) (own : List Nat) :
    elements (s.reshape vf idx a own ps levels) vf (s.grown vf a ps levels) = contents ps :=
  elements_grown (fun p hp => (h.ok p hp).sizes) (h.holds idx own)

/-- The leaves of the changed array fit their slabs, which are of the pool. -/
theorem State.MayGrow.fits (h : s.MayGrow vf a ps levels) : ∀ p ∈ (s.grown vf a ps levels).leaves,
    p.2 * (s.grown vf a ps levels).esize ≤ 4096 ∧ p.1 < ((s.vf vf).slabPool a.die).2 := by
  intro q hq
  obtain ⟨x, hx, rfl⟩ := List.mem_map.1 hq
  refine ⟨?_, h.leavesFit.slabs x hx⟩
  obtain ⟨p, hp, he, -⟩ := mem_giveSlabs hx
  have hroom := (h.ok p hp).room
  rw [he] at hroom
  exact (Nat.mul_le_mul_right _ hroom).trans (Nat.div_mul_le_self 4096 _)

end

end Sys2Proof.Machine
end

section
/-! PROOFS. What comes of an array operation whose next state is known (R71, R343, R345): it was performed, or no table has changed. -/

namespace Sys2Proof.Machine

section
variable {c : Ctx} {s t u : State} {ins : Instr}

/-! ### Faults and waits change no table -/

theorem devWrite_vfs {core vf va : Nat} {priv : Bool} {bs : List Byte} (h : s.devWrite core vf priv va bs = some t) : t.vfs = s.vfs := by
  unfold State.devWrite at h
  split at h
  · cases h
  · next xs _ =>
    have hstep := State.CacheStep.foldl (f := fun (s : State) (p : Nat × Nat) => s.storeThrough core vf ((findXlat xs p.1).pa p.1)
      (findXlat xs p.1).leaf ((bs.drop (p.1 - va)).take p.2)) (fun s p => s.storeThrough_step ..) (linePieces va bs.length) (s.useWalks kStore xs)
    rw [← Option.some.inj h]
    exact hstep.vfs

theorem writeRecord_vfs (s : State) (tm n core cls : Nat) (bytes : BitVec 32 → List Byte) :
    (s.writeRecord tm n core cls bytes).1.vfs = s.vfs := by
  unfold State.writeRecord
  split
  · rfl
  · next x _ =>
    dsimp only
    split
    · next u hw =>
      refine (?_ : u.vfs = s.vfs)
      split at hw
      · cases hw
      · have hvfs := devWrite_vfs hw
        exact hvfs
    · exact (State.event_step ..).vfs

theorem takeTrap_vfs (s : State) (r : Ref) (fi : FaultInfo) (word : IWord) (resume : Option Word) : (s.takeTrap r fi word resume).vfs = s.vfs := by
  unfold State.takeTrap
  split
  · next x g _ _ =>
    split
    · rfl
    · next f _ =>
      dsimp only
      split
      · next h _ =>
        split
        · rfl
        · split
          · split
            · exact writeRecord_vfs ..
            · split
              · exact writeRecord_vfs ..
              · exact writeRecord_vfs ..
          · exact writeRecord_vfs ..
      · split
        · exact writeRecord_vfs ..
        · generalize (if fi.cls = cCOMPAT then _ else _ : Word) = entry
          split
          · exact writeRecord_vfs ..
          · exact writeRecord_vfs ..
  · rfl

theorem takeTurn_vfs (c : Ctx) (s : State) : (c.takeTurn s).vfs = s.vfs ∧ (c.takeTurn s).board = s.board := by
  unfold Ctx.takeTurn State.takeTurn
  split
  · exact ⟨rfl, rfl⟩
  · exact ⟨rfl, rfl⟩

/-! ### An operation that was performed -/

/-- Memory, the tables of contexts and the board are the same. -/
structure State.SameTrees (s t : State) : Prop where
  mem : t.mem = s.mem
  vfs : t.vfs = s.vfs
  board : t.board = s.board

theorem retired_sameTrees (c : Ctx) (s : State) (i : Instr) (ch : Bool) (pc : Word) : s.SameTrees (c.schedule (c.retire s ch pc none none) i) := by
  obtain ⟨hvfs, hboard⟩ := takeTurn_vfs c (c.retire s ch pc none none)
  refine ⟨(schedule_mem ..).1, ?_, ?_⟩
  · unfold Ctx.schedule
    dsimp only
    split
    · exact hvfs
    · exact hvfs
  · unfold Ctx.schedule
    dsimp only
    split
    · exact hboard
    · exact hboard

/-- An operation of the own die's unit whose next state is known was performed, or no table has changed. -/
theorem rtu_outcome {b : Bound} (hr : Runs ins s c) (he : exec ins s = rtuIssue ins s)
    (hb : (eaTarget ins c (c.counted s)).getD ⟨c.die, 0, c.core⟩ = b) (hhome : b.home = c.die) (hex : exec ins s = .next t) :
    t.vfs = s.vfs ∨ ∃ v, eaPerform ins c (c.latchArray (c.counted s) b) (c.latchSecond (c.counted s) ins) (c.counted s) = .ok v ∧
      v.SameTrees t := by
  have hfault (fi : FaultInfo) : (c.takeTurn (c.fault ins fi s)).vfs = s.vfs := (takeTurn_vfs ..).1.trans (takeTrap_vfs ..)
  have hgo := (he.symm.trans hex).symm.trans (perform_go _ hr.ctx hr.gate)
  dsimp only at hgo
  rw [hb] at hgo
  cases hp : eaPerform ins c (c.latchArray (c.counted s) b) (c.latchSecond (c.counted s) ins) (c.counted s) with
  | error fi =>
    left
    simp only [hp, eaAnswer, if_pos hhome, ite_self] at hgo
    cases hgo
    exact hfault fi
  | ok v =>
    simp only [hp, eaAnswer, if_pos hhome] at hgo
    split at hgo
    · left
      cases hgo
      rfl
    · right
      refine ⟨v, rfl, ?_⟩
      simp only [Ctx.finish, Ctx.complete, hr.budget, if_true] at hgo
      cases hgo
      exact retired_sameTrees ..

/-- An operation after which an array has another version was performed. -/
theorem performed_of_version {i : Nat} {y z : EArray} (hr : Runs ins s c) (he : exec ins s = rtuIssue ins s)
    (hb : eaTarget ins c (c.counted s) = some y.bound) (hdie : y.die = c.die) (hex : exec ins s = .next t)
    (hy : SMap.get? (s.vf c.vf).arrays i = some y) (hz : SMap.get? (t.vf c.vf).arrays i = some z) (hver : z.version = y.version + 1) :
    ∃ v, eaPerform ins c (c.latchArray (c.counted s) y.bound) (c.latchSecond (c.counted s) ins) (c.counted s) = .ok v ∧ v.SameTrees t := by
  refine (rtu_outcome hr he (b := y.bound) (by rw [hb]; rfl) hdie hex).resolve_left fun hsame => ?_
  rw [State.vf, hsame, ← State.vf, hy] at hz
  cases hz
  exact absurd hver (by simp)

end

end Sys2Proof.Machine
end

section
/-! PROOFS. O42: the elements in rank order after an insertion, a deletion, a split and a join. -/

namespace Sys2Proof.Machine

section
variable {c : Ctx} {s s0 t w : State} {y z a : EArray} {i j vf die : Nat} {ps : List (Part (List Byte))} {levels : List (List Nat)}
  {own : List Nat} {l : Latched} {st : Bool} {d : BitVec 5} {x : Word} {f : Vf → Vf}

/-! ### From the tree's change to the next state -/

theorem State.SameTrees.keepsSlabs (h : s.SameTrees t) (vf die : Nat) : s.KeepsSlabs t vf die :=
  .of_mem ⟨h.board, by rw [State.vf, h.vfs, ← State.vf]⟩ h.mem

theorem State.SameTrees.vf_eq (h : s.SameTrees t) (v : Nat) : t.vf v = s.vf v := by rw [State.vf, h.vfs, ← State.vf]

/-- The state after an operation keeps the slabs of the trees that it has changed. -/
theorem keepsSlabs_performed (hw : w.WrittenIn c.core (s.OutsidePool c.vf die)) (hp : s.SamePools w c.vf)
    (h : (c.setS (c.eaOrder l st w) d x).SameTrees t) : w.KeepsSlabs t c.vf die := by
  rw [← hp.outsidePool] at hw
  exact (keepsSlabs_order hw l st d x).trans (h.keepsSlabs c.vf die)

theorem vf_performed (h : (c.setS (c.eaOrder l st w) d x).SameTrees t) (v : Nat) : t.vf v = w.vf v := (h.vf_eq v).trans (eaOrder_vf c l st w v)

/-- A state in which lookaside entries alone have been dropped. -/
structure State.Drops (core : Nat) (s t : State) : Prop where
  trees : s.SameTrees t
  within : ∀ P, s.WrittenIn core P → t.WrittenIn core P

theorem State.Drops.refl (core : Nat) (s : State) : s.Drops core s := ⟨⟨rfl, rfl, rfl⟩, fun _ h => h⟩

theorem State.Drops.dropRlb {core : Nat} (h : s.Drops core t) (vf : Nat) (hd : Word) (cores : BitVec 256) :
    s.Drops core (t.dropRlb vf hd cores) :=
  ⟨⟨h.trees.mem, h.trees.vfs, h.trees.board⟩, fun P hw => writtenIn_dropRlb (h.within P hw) hd cores⟩

/-- The state after an operation, lookaside entries dropped, keeps the slabs of the trees that it has changed. -/
theorem keepsSlabs_dropped {u : State} (hw : w.WrittenIn c.core (s.OutsidePool c.vf die)) (hp : s.SamePools w c.vf) (hd : w.Drops c.core u)
    (h : (c.setS (c.eaOrder l st u) d x).SameTrees t) : w.KeepsSlabs t c.vf die := by
  have hk := hd.trees.keepsSlabs c.vf die
  exact hk.trans (keepsSlabs_performed (hd.within _ hw) (hp.trans hk.pools) h)

theorem vf_dropped {u : State} (hd : w.Drops c.core u) (h : (c.setS (c.eaOrder l st u) d x).SameTrees t) (v : Nat) : t.vf v = w.vf v :=
  (vf_performed h v).trans (hd.trees.vf_eq v)

/-- An operation that has changed no tree has given no array a new version. -/
theorem unchanged_version (hy : SMap.get? (s.vf c.vf).arrays i = some y) (hz : SMap.get? (t.vf c.vf).arrays i = some z)
    (h : (c.setS (c.eaOrder l st (c.counted s)) d x).SameTrees t) : z.version ≠ y.version + 1 := by
  rw [vf_performed h, counted_vf, hy] at hz
  cases hz
  simp

/-- The elements of a changed array in a state that keeps its slabs. -/
theorem State.MayGrow.elements_kept (h : s0.MayGrow vf a ps levels) (hk : (s0.reshape vf i a own ps levels).KeepsSlabs t vf a.die) :
    Machine.elements t vf (s0.grown vf a ps levels) = contents ps := by
  refine (State.KeepsSlabs.elements (y := s0.grown vf a ps levels) hk fun p hp => ?_).trans (h.elements i own)
  rw [(reshape_samePools ..).slabPool]
  exact h.fits p hp

/-- The state before the change of an array's tree: the tables of anchors and arrays may have changed already. -/
theorem ArraySound.mayGrow (h : ArraySound s c.vf c.core y) (hf : TablesOnly f) (hdie : a.die = y.die) (hsize : a.size = y.size)
    (hok : ∀ p ∈ ps, PartOk y.esize (4096 / y.esize) (s.holds c.vf y.die) p) (hown : (ps.filterMap Part.slab).Nodup)
    (hslabs : ∀ n ∈ ps.filterMap Part.slab, n < ((s.vf c.vf).slabPool y.die).2 ∧ n ∈ (s.vf c.vf).usedSlabs y.die)
    (hroom : 0 < leafNeed ps → ((s.vf c.vf).usedSlabs y.die).length + (leafNeed ps + (nodeSlabs levels - a.nodes.length)) ≤
      ((s.vf c.vf).slabPool y.die).2) : ((c.counted s).modVf c.vf f).MayGrow c.vf a ps levels := by
  have hp := hf.samePools c s
  have he : a.esize = y.esize := by rw [EArray.esize, hsize, EArray.esize]
  have hused : (((c.counted s).modVf c.vf f).vf c.vf).usedSlabs y.die = (s.vf c.vf).usedSlabs y.die := by
    rw [modVf_self, Vf.usedSlabs, hf.slabs]
    rfl
  have hpool := hp.slabPool y.die
  have hholds : ((c.counted s).modVf c.vf f).holds c.vf y.die = s.holds c.vf y.die := by
    funext n xs
    unfold State.holds
    rw [hp.slabAddr]
    rfl
  rw [← hdie] at hused hpool hholds hok hslabs hroom
  have hclean := hp.cleanPool h.cleanPool
  have hbound := h.pool
  rw [← hdie] at hclean hbound
  refine ⟨?_, hclean, ?_, hown, fun n hn => ?_, fun _ n hn => ?_, ?_⟩
  · rw [hpool]
    exact hbound
  · rw [hholds, he]
    exact hok
  · rw [hpool]
    exact (hslabs n hn).1
  · rw [hused]
    exact (hslabs n hn).2
  · rw [hused, hpool]
    exact hroom

/-- The leaves of a sound array. -/
theorem ArraySound.parts (h : ArraySound s c.vf c.core y) : ∀ p ∈ s.leafParts c.vf y, PartOk y.esize (4096 / y.esize) (s.holds c.vf y.die) p :=
  leafParts_ok s c.vf fun q hq => (h.leaves q hq).2.1

theorem ArraySound.slab (h : ArraySound s c.vf c.core y) {n : Nat} (hn : n ∈ y.leaves.map Prod.fst) :
    n < ((s.vf c.vf).slabPool y.die).2 ∧ n ∈ (s.vf c.vf).usedSlabs y.die := by
  obtain ⟨p, hp, rfl⟩ := List.mem_map.1 hn
  exact (h.leaves p hp).2.2

theorem ArraySound.fit (h : ArraySound s c.vf c.core y) : y.size ≤ 4 ∧ ∀ p ∈ y.leaves, p.2 * y.esize ≤ 4096 :=
  ⟨h.size, fun p hp => (h.leaves p hp).2.1⟩

/-- The elements of an array whose tree has changed once. -/
theorem elements_changed {u : State} (hs : ArraySound s c.vf c.core y) (hf : TablesOnly f) (hdie : a.die = y.die)
    (hgrow : ((c.counted s).modVf c.vf f).MayGrow c.vf a ps levels)
    (hd : (((c.counted s).modVf c.vf f).reshape c.vf i a own ps levels).Drops c.core u)
    (h : (c.setS (c.eaOrder l st u) d x).SameTrees t) (hz : SMap.get? (t.vf c.vf).arrays i = some z) : elements t c.vf z = contents ps := by
  have hp := (hf.samePools c s).trans (reshape_samePools ((c.counted s).modVf c.vf f) c.vf i a own ps levels)
  have hw : (((c.counted s).modVf c.vf f).reshape c.vf i a own ps levels).WrittenIn c.core (s.OutsidePool c.vf a.die) := by
    rw [hdie]
    exact writtenIn_reshape hs.written
  rw [vf_dropped hd h] at hz
  have hgrown := (reshape_arrays ((c.counted s).modVf c.vf f) c.vf i a own ps levels i).trans (if_pos rfl)
  cases hgrown.symm.trans hz
  exact hgrow.elements_kept (keepsSlabs_dropped hw hp hd h)

/-! ### Insertion -/

theorem insertion_ok (hs : ArraySound s c.vf c.core y) (data : Bool) (x : BitVec 6) (n : Nat) {r : Nat} (hr : r ≤ y.len) :
    ∀ p ∈ (c.insertion (c.counted s) y data x n r).1, PartOk y.esize (4096 / y.esize) (s.holds c.vf y.die) p := by
  obtain ⟨hpos, hlimit⟩ := leafLimit_bounds (c.counted s) hs.size
  refine inserted_ok y hpos hlimit r _ (fun e he => ?_) (leafParts_lengths ..) (s.holds_prefixClosed c.vf y.die)
    (.inl ?_) (leafParts_new (c.counted s) c.vf y) hs.parts
  · obtain ⟨j, -, rfl⟩ := List.mem_map.1 he
    exact length_newElement ..
  · rw [contents_leafParts, length_elements]
    exact hr

theorem insertion_contents (hs : ArraySound s c.vf c.core y) (data : Bool) (x : BitVec 6) (n : Nat) {r : Nat} (hr : r ≤ y.len) :
    contents (c.insertion (c.counted s) y data x n r).1 = (elements s c.vf y).take r ++ (List.range n).map (c.newElement y.esize data x) ++
      (elements s c.vf y).drop r := by
  have hlen : r ≤ (contents ((c.counted s).leafParts c.vf y)).length := by
    rw [contents_leafParts, length_elements]
    exact hr
  have h := contents_inserted y (leafLimit_bounds (c.counted s) hs.size).1 r ((List.range n).map (c.newElement y.esize data x))
    (leafParts_lengths (c.counted s) c.vf y) hlen
  rw [contents_leafParts] at h
  exact h

/-- New elements stand at their rank, before those that had it. -/
theorem elements_inserted {anc data : Bool} {sa : BitVec 5} {v : BitVec 6} {p : Nat × Nat} (hs : ArraySound s c.vf c.core y) (hp : p.2 ≤ y.len)
    (hy : SMap.get? (s.vf c.vf).arrays i = some y) (hz : SMap.get? (t.vf c.vf).arrays i = some z) (hver : z.version = y.version + 1)
    {u : State} (h : c.Inserts l (c.counted s) anc data d sa v i y p u) (hu : u.SameTrees t) :
    elements t c.vf z = (elements s c.vf y).take p.2 ++ (List.range (c.s d).toNat).map (c.newElement y.esize data v) ++
      (elements s c.vf y).drop p.2 := by
  rcases h with ⟨-, rfl⟩ | ⟨-, id, -, hcheck, rfl⟩
  · exact absurd hver (unchanged_version hy hz hu)
  · rw [← insertion_contents hs data v (c.s d).toNat hp]
    have hslabs := slabs_inserted (limit := (c.counted s).leafLimit y) y p.2 ((List.range (c.s d).toNat).map (c.newElement y.esize data v))
      (ps := (c.counted s).leafParts c.vf y)
    rw [leafParts_numbers] at hslabs
    unfold Ctx.insertedState at hu
    refine elements_changed (a := y.enter p (if anc then [id] else []) (c.s d).toNat) hs (tablesOnly_allocRun i (if anc then [id] else []))
      rfl ?_ ((State.Drops.refl ..).dropRlb ..) hu hz
    exact hs.mayGrow (tablesOnly_allocRun i _) rfl rfl (insertion_ok hs data v _ hp) (hs.own.sublist hslabs) (fun n hn => hs.slab (hslabs.subset hn))
      fun hneed => slabCheck_room hcheck (by omega)

/-! ### Deletion -/

/-- The elements of the deleted ranks are gone. -/
theorem elements_deleted {sa sb : BitVec 5} (hs : ArraySound s c.vf c.core y) (hy : SMap.get? (s.vf c.vf).arrays i = some y)
    (hz : SMap.get? (t.vf c.vf).arrays i = some z) (hver : z.version = y.version + 1) {u : State}
    (h : c.Deletes l (c.counted s) d sa sb i y u) (hu : u.SameTrees t) :
    elements t c.vf z = (elements s c.vf y).take (c.s sb).toNat ++ (elements s c.vf y).drop ((c.s sb).toNat + (c.s d).toNat) := by
  rcases h with ⟨-, rfl⟩ | ⟨-, rfl⟩
  · exact absurd hver (unchanged_version hy hz hu)
  · have hcontents := contents_deleted y ((c.counted s).leafLimit y) (c.s sb).toNat (c.s d).toNat ((c.counted s).leafParts c.vf y)
    rw [contents_leafParts] at hcontents
    unfold Ctx.deletedState at hu
    refine (elements_changed (a := y.leave (c.s sb).toNat (c.s d).toNat) hs (tablesOnly_anchors _) rfl ?_ ((State.Drops.refl ..).dropRlb ..)
      hu hz).trans hcontents
    have hslabs := slabs_deleted y ((c.counted s).leafLimit y) (c.s sb).toNat (c.s d).toNat ((c.counted s).leafParts c.vf y)
    have hsub := hslabs.filterMap id
    rw [← filterMap_slab_eq, ← filterMap_slab_eq, leafParts_numbers] at hsub
    refine hs.mayGrow (tablesOnly_anchors _) rfl rfl ?_ (hs.own.sublist hsub) (fun n hn => hs.slab (hsub.subset hn)) fun hneed => ?_
    · exact deleted_ok y (leafLimit_bounds (c.counted s) hs.size).2 _ _ (s.holds_prefixClosed c.vf y.die) (leafParts_new (c.counted s) c.vf y) hs.parts
    · rw [leafParts_deleted_need] at hneed
      exact absurd hneed (Nat.lt_irrefl 0)

end

end Sys2Proof.Machine
end

section
/-! PROOFS. O42: the elements in rank order after a split and a join, and the operations by their words. -/

namespace Sys2Proof.Machine

section
variable {c : Ctx} {s t : State} {y z : EArray} {i j : Nat} {l m : Latched} {st : Bool} {a d : BitVec 5} {x : Word} {ps : List (Part (List Byte))}
  {levels : List (List Nat)}

/-! ### Splitting -/

theorem PartOk.imp {e K : Nat} {G H : Nat → List (List Byte) → Prop} {p : Part (List Byte)} (hp : PartOk e K G p)
    (h : ∀ n, p.slab = some n → G n p.items → H n p.items) : PartOk e K H p :=
  ⟨hp.sizes, hp.room, fun hw n hn => h n hn (hp.stands hw n hn)⟩

/-- Leaves that all have slabs take no others. -/
theorem mem_treeLeaves_placed {vf : Nat} {a : EArray} {k : Nat × List (List Byte) × Bool} (hneed : leafNeed ps = 0)
    (hk : k ∈ s.treeLeaves vf a ps levels) : k.1 ∈ ps.filterMap Part.slab := by
  have hperm := giveSlabs_perm ps (freeSlabs s.tick ((s.vf vf).slabPool a.die).2 ((s.vf vf).usedSlabs a.die)
    (leafNeed ps + (nodeSlabs levels - a.nodes.length))) (by rw [length_freeSlabs]; omega)
  rw [hneed, List.take_zero, List.append_nil] at hperm
  exact hperm.subset (hneed ▸ List.mem_map_of_mem hk)

/-- The parts of a sound array in two arrays: what is known of them before either has its tree. -/
structure Parted (c : Ctx) (s : State) (y a b : EArray) (xs ys : List (Part (List Byte))) (lb : List (List Nat)) : Prop where
  sound : ArraySound s c.vf c.core y
  die : a.die = y.die
  die' : b.die = y.die
  size : a.size = y.size
  size' : b.size = y.size
  ok : ∀ p ∈ xs, PartOk y.esize (4096 / y.esize) (s.holds c.vf y.die) p
  ok' : ∀ p ∈ ys, PartOk y.esize (4096 / y.esize) (s.holds c.vf y.die) p
  slabs : (xs.filterMap Part.slab ++ ys.filterMap Part.slab).Sublist (y.leaves.map Prod.fst)
  placed : leafNeed xs = 0
  room : 0 < leafNeed ys → ((s.vf c.vf).usedSlabs y.die).length + (leafNeed ys + (nodeSlabs lb - b.nodes.length)) ≤
    ((s.vf c.vf).slabPool y.die).2

section
variable {a b : EArray} {xs ys : List (Part (List Byte))} {la lb : List (List Nat)} {f : Vf → Vf} {own own' : List Nat}

theorem Parted.first (h : Parted c s y a b xs ys lb) (hf : TablesOnly f) : ((c.counted s).modVf c.vf f).MayGrow c.vf b ys lb := by
  have hsub := (List.sublist_append_right _ _).trans h.slabs
  exact h.sound.mayGrow hf h.die' h.size' h.ok' (h.sound.own.sublist hsub) (fun n hn => h.sound.slab (hsub.subset hn)) h.room

/-- The first tree takes no slab of the other's leaves. -/
theorem Parted.apart (h : Parted c s y a b xs ys lb) (hf : TablesOnly f) {n : Nat} (hn : n ∈ xs.filterMap Part.slab) :
    n ∉ (((c.counted s).modVf c.vf f).treeLeaves c.vf b ys lb).map Prod.fst := by
  intro hmem
  obtain ⟨k, hk, rfl⟩ := List.mem_map.1 hmem
  rcases mem_treeLeaves hk (h.first hf).room with hys | ⟨-, hfree⟩
  · exact List.nodup_append.1 (h.sound.own.sublist h.slabs) |>.2.2 _ hn _ hys rfl
  · have hused : (((c.counted s).modVf c.vf f).vf c.vf).usedSlabs b.die = (s.vf c.vf).usedSlabs y.die := by
      rw [modVf_self, Vf.usedSlabs, hf.slabs, h.die']
      rfl
    rw [hused] at hfree
    exact hfree (h.sound.slab (h.slabs.subset (List.mem_append_left _ hn))).2

theorem Parted.second (h : Parted c s y a b xs ys lb) (hf : TablesOnly f) (j : Nat) (own : List Nat) (la : List (List Nat)) :
    (((c.counted s).modVf c.vf f).reshape c.vf j b own ys lb).MayGrow c.vf a xs la := by
  have hstart := hf.samePools c s
  have hp := hstart.trans (reshape_samePools ((c.counted s).modVf c.vf f) c.vf j b own ys lb)
  have hsub := (List.sublist_append_left _ _).trans h.slabs
  have hpool := hp.slabPool y.die
  have he : a.esize = y.esize := by rw [EArray.esize, h.size, EArray.esize]
  have hclean := hp.cleanPool h.sound.cleanPool
  have hin (n : Nat) (hn : n ∈ xs.filterMap Part.slab) := (h.sound.slab (hsub.subset hn)).1
  have hnone : ¬ 0 < leafNeed xs := by
    rw [h.placed]
    exact Nat.lt_irrefl 0
  rw [← h.die] at hpool hclean
  refine ⟨?_, hclean, fun p hmem => ?_, h.sound.own.sublist hsub, fun n hn => ?_, fun hneed => absurd hneed hnone, fun hneed => absurd hneed hnone⟩
  · rw [hpool, h.die]
    exact h.sound.pool
  · have hok := h.ok p hmem
    rw [he, h.die]
    refine hok.imp fun n hn hold => ?_
    have hmem := List.mem_filterMap.2 ⟨p, hmem, hn⟩
    have hlt := hin n hmem
    rw [← hstart.slabPool, ← h.die'] at hlt
    have hsame := (h.first hf).sameSlab j own hlt (h.apart hf hmem)
    rw [h.die'] at hsame
    refine State.SameSlab.holds ?_ hp hok.bytes hold
    intro k hk
    have hk' := hsame k hk
    rw [hstart.slabAddr] at hk'
    exact hk'
  · rw [hpool, h.die]
    exact hin n hn

/-- The elements of both arrays, their trees changed one after the other. -/
theorem Parted.elements {w : State} (h : Parted c s y a b xs ys lb) (hf : TablesOnly f)
    (hd : ((((c.counted s).modVf c.vf f).reshape c.vf j b own ys lb).reshape c.vf i a own' xs la).Drops c.core w)
    (ht : (c.setS (c.eaOrder l st w) d x).SameTrees t) :
    elements t c.vf ((((c.counted s).modVf c.vf f).reshape c.vf j b own ys lb).grown c.vf a xs la) = contents xs ∧
    elements t c.vf (((c.counted s).modVf c.vf f).grown c.vf b ys lb) = contents ys := by
  have hfirst := h.first hf
  have hsecond := h.second hf j own la
  have hstart := hf.samePools c s
  have hmid := reshape_samePools ((c.counted s).modVf c.vf f) c.vf j b own ys lb
  have hlast := reshape_samePools (((c.counted s).modVf c.vf f).reshape c.vf j b own ys lb) c.vf i a own' xs la
  have hk : ((((c.counted s).modVf c.vf f).reshape c.vf j b own ys lb).reshape c.vf i a own' xs la).KeepsSlabs t c.vf y.die :=
    keepsSlabs_dropped (writtenIn_reshape (writtenIn_reshape h.sound.written)) ((hstart.trans hmid).trans hlast) hd ht
  refine ⟨hsecond.elements_kept (h.die ▸ hk), elements_grown (fun p hp => (hfirst.ok p hp).sizes) fun k hk1 => ?_⟩
  have hin := hfirst.leavesFit.slabs k hk1
  have hroom := hfirst.leavesFit.room k hk1
  have hother : k.1 ∉ ((((c.counted s).modVf c.vf f).reshape c.vf j b own ys lb).treeLeaves c.vf a xs la).map Prod.fst := by
    intro hmem
    obtain ⟨q, hq, he⟩ := List.mem_map.1 hmem
    exact h.apart hf (he ▸ mem_treeLeaves_placed h.placed hq) (List.mem_map_of_mem hk1)
  have hmidpool : k.1 < (((((c.counted s).modVf c.vf f).reshape c.vf j b own ys lb).vf c.vf).slabPool a.die).2 := by
    rw [hmid.slabPool, h.die, ← h.die']
    exact hin
  have hsame := hsecond.sameSlab i own' hmidpool hother
  rw [h.die, ← h.die'] at hsame
  have hheld := hsame.holds hlast hroom (hfirst.holds j own k hk1)
  rw [← h.die'] at hk
  exact (hk.slabs k.1 (hlast.inPool (hmid.inPool hin))).holds hk.pools hroom hheld

end

/-- The halves of a sound array, for the array that keeps the lower and the one that takes the upper. -/
theorem parted_halves {r gen : Nat} (hs : ArraySound s c.vf c.core y)
    (hcheck : (c.counted s).slabCheck c.vf y.die (leafNeed (c.halves (c.counted s) y r).2 + (nodeSlabs (y.above (c.halves (c.counted s) y r).2) -
      (y.nodes.length - nodeSlabs (y.above (c.halves (c.counted s) y r).1)))) = none) :
    Parted c s y (y.lower r (nodeSlabs (y.above (c.halves (c.counted s) y r).1))) (y.upper r (nodeSlabs (y.above (c.halves (c.counted s) y r).1)) gen)
      (c.halves (c.counted s) y r).1 (c.halves (c.counted s) y r).2 (y.above (c.halves (c.counted s) y r).2) := by
  obtain ⟨hxs, hys⟩ := halves_ok (c := c) (c.counted s) r hs.fit
  refine ⟨hs, rfl, rfl, rfl, rfl, hxs, hys, halves_slabs c (c.counted s) y r, halves_need c (c.counted s) y r, fun hneed => ?_⟩
  have hnodes : (y.upper r (nodeSlabs (y.above (c.halves (c.counted s) y r).1)) gen).nodes.length =
      y.nodes.length - nodeSlabs (y.above (c.halves (c.counted s) y r).1) := List.length_drop
  rw [hnodes]
  exact slabCheck_room hcheck (by omega)

theorem contents_halves (c : Ctx) (s : State) (y : EArray) (r : Nat) : contents (c.halves (c.counted s) y r).1 = (elements s c.vf y).take r ∧
    contents (c.halves (c.counted s) y r).2 = (elements s c.vf y).drop r := by
  obtain ⟨h1, h2⟩ := contents_splitParts ((c.counted s).leafParts c.vf y) r
  rw [contents_leafParts] at h1 h2
  have hb (ps : List (Part (List Byte))) := (rebalanced_balanced (e := 0) (H := fun _ _ => True) (cap := (c.counted s).leafLimit y)
    (fun _ _ _ _ => trivial) (le_refl _) ps).contents
  exact ⟨(hb _).trans h1, (hb _).trans h2⟩

theorem drops_splitState (hd : Word) (r gen : Nat) (xs ys : List (Part (List Byte))) :
    (c.splitTrees s i y r j gen xs ys).Drops c.core (c.splitState l s hd i y r j gen xs ys) := by
  rw [splitState_eq]
  split
  · exact .refl ..
  · exact (State.Drops.refl ..).dropRlb ..

/-- A split leaves the elements below the rank, and the new array has those from it. -/
theorem elements_split {r gen : Nat} (hs : ArraySound s c.vf c.core y)
    (hcheck : (c.counted s).slabCheck c.vf y.die (leafNeed (c.halves (c.counted s) y r).2 + (nodeSlabs (y.above (c.halves (c.counted s) y r).2) -
      (y.nodes.length - nodeSlabs (y.above (c.halves (c.counted s) y r).1)))) = none)
    (ht : (c.setS (c.eaOrder l st (c.splitState l (c.counted s) (c.s a) i y r j gen (c.halves (c.counted s) y r).1
      (c.halves (c.counted s) y r).2)) d x).SameTrees t) (hz : SMap.get? (t.vf c.vf).arrays i = some z) :
    elements t c.vf z = (elements s c.vf y).take r ∧ ∀ k e, SMap.get? (s.vf c.vf).arrays k = none → SMap.get? (t.vf c.vf).arrays k = some e →
      k ≠ i → elements t c.vf e = (elements s c.vf y).drop r := by
  obtain ⟨hx, hy⟩ := contents_halves c s y r
  have hparted := parted_halves (gen := gen) hs hcheck
  have hd := drops_splitState (c := c) (s := c.counted s) (i := i) (j := j) (y := y) (l := l) (c.s a) r gen (c.halves (c.counted s) y r).1
    (c.halves (c.counted s) y r).2
  rw [← hx, ← hy]
  generalize (c.halves (c.counted s) y r).1 = xs at *
  generalize (c.halves (c.counted s) y r).2 = ys at *
  have hvf := vf_dropped hd ht
  obtain ⟨hlow, hhigh⟩ := hparted.elements (tablesOnly_anchors _) hd ht
  refine ⟨?_, fun k e hnone he hk => ?_⟩
  · rw [hvf] at hz
    cases ((reshape_arrays ..).trans (if_pos rfl)).symm.trans hz
    exact hlow
  · rw [hvf] at he
    have hother := ((reshape_arrays ..).trans ((if_neg hk.symm).trans (reshape_arrays ..))).symm.trans he
    rw [modVf_self] at hother
    by_cases hjk : j = k
    · rw [if_pos hjk] at hother
      cases hother
      exact hhigh
    · rw [if_neg hjk] at hother
      exact absurd (hnone.symm.trans hother) (by simp)

/-! ### Joining -/

theorem drops_joinedState (hd hd' : Word) (ps : List (Part (List Byte))) :
    (c.joinedTree s i j y z ps).Drops c.core (c.joinedState l m s hd hd' i j y z ps) := by
  rw [joinedState_eq]
  split
  · exact .refl ..
  · exact ((State.Drops.refl ..).dropRlb ..).dropRlb ..

/-- A join appends the elements of the second array. -/
theorem elements_joined {e : EArray} {hd hd' : Word} (hs : ArraySound s c.vf c.core y) (he : ArraySound s c.vf c.core e)
    (hsize : e.size = y.size) (hdie : e.die = y.die) (hapart : ∀ p ∈ y.leaves, ∀ q ∈ e.leaves, p.1 ≠ q.1)
    (ht : (c.setS (c.eaOrder l st (c.joinedState l m (c.counted s) hd hd' i j y e (c.joined (c.counted s) y e))) d x).SameTrees t)
    (hz : SMap.get? (t.vf c.vf).arrays i = some z) : elements t c.vf z = elements s c.vf y ++ elements s c.vf e := by
  have hcontents := (joined_rebalanced (e := 0) c (c.counted s) y e (H := fun _ _ => True) (fun _ _ _ _ => trivial) (le_refl _)).contents
  rw [contents_append, contents_leafParts, contents_leafParts] at hcontents
  have hslabs := joined_slabs c (c.counted s) y e
  have hown : (y.leaves.map Prod.fst ++ e.leaves.map Prod.fst).Nodup := by
    refine List.nodup_append.2 ⟨hs.own, he.own, fun n hn m hm => ?_⟩
    obtain ⟨p, hp, rfl⟩ := List.mem_map.1 hn
    obtain ⟨q, hq, rfl⟩ := List.mem_map.1 hm
    exact hapart p hp q hq
  refine (elements_changed (a := y.cat e) hs (tablesOnly_join i j e) rfl ?_ (drops_joinedState hd hd' _) ht hz).trans hcontents
  refine hs.mayGrow (tablesOnly_join i j e) rfl rfl (joined_ok c (c.counted s) hsize hdie hs.fit he.fit.2) (hown.sublist hslabs) (fun n hn => ?_)
    fun hneed => ?_
  · rcases List.mem_append.1 (hslabs.subset hn) with h | h
    · exact hs.slab h
    · exact hdie ▸ he.slab h
  · rw [joined_need] at hneed
    exact absurd hneed (Nat.lt_irrefl 0)

end

end Sys2Proof.Machine
end

section
/-! PROOFS. O42, assembled. -/

namespace Sys2Proof.Machine

section
variable {c : Ctx} {s t : State} {y z : EArray} {i : Nat} {d a b : BitVec 5} {x : BitVec 6} {cb : BitVec 1}

/-- The elements that an insertion makes (R89). -/
theorem newElements_eq (c : Ctx) (y : EArray) (da : BitVec 1) (x : BitVec 6) (n : Nat) : (List.range n).map (c.newElement y.esize (da == 1) x) =
    (List.range n).map fun j => toBytes (if da = 1 ∧ bit c.active j then (c.v x j).toNat else 0) (min y.esize 8) ++
      List.replicate (y.esize - 8) 0 := by
  refine List.map_congr_left fun j _ => ?_
  have hdata : (da == 1 && bit c.active j) = true ↔ da = 1 ∧ bit c.active j = true := by rw [Bool.and_eq_true, beq_iff_eq]
  have hpad : y.esize - min y.esize 8 = y.esize - 8 := by omega
  simp only [Ctx.newElement, hpad]
  rw [if_congr hdata rfl rfl]

/-- The place that an insertion of an array names, and what it inserts there. -/
theorem eaInsert_inserts {l : Latched} {app anc data : Bool} {v : State} (harr : s.array? c.vf (c.s a) = some (i, y))
    (h : eaInsert c l (c.counted s) app anc data d a b x = .ok v) :
    ∃ p, c.MayInsert l (c.counted s) app anc data d a b i y p ∧ c.Inserts l (c.counted s) anc data d a x i y p v := by
  obtain ⟨k, e, p, hmay, hins⟩ := eaInsert_eq_ok.1 h
  cases harr.symm.trans hmay.array
  exact ⟨p, hmay, hins⟩

end

/-- Settles O42: the operation was performed, since the version is new; its leaves hold the elements by the rule on its parts, and stand
in their slabs after the change of the tree, which nothing later in the unit reaches. -/
theorem elasticContents : Obligations.ElasticContents := by
  unfold Obligations.ElasticContents
  intro d a b x an da cb s t c i y z n r es items changes harr hdie hs hz hver
  have hy := array?_spec harr
  have hlen : es.length = y.len := length_elements s c.vf y
  have performed {ins : Instr} (h : changes ins) (he : exec ins s = rtuIssue ins s) (ht : eaTarget ins c (c.counted s) = some y.bound) :=
    performed_of_version h.1 he ht hdie h.2 hy hz hver
  refine ⟨fun h => ?_, fun id q h hanc hq hqlen => ?_, fun h => ?_, fun h hwf => ?_, fun j e h he hes hapart => ?_⟩
  · obtain ⟨v, hv, hsame⟩ := performed h rfl (byHandle_target harr)
    obtain ⟨p, hmay, hins⟩ := eaInsert_inserts harr hv
    obtain ⟨hr, rfl⟩ := hmay.place
    have hres := elements_inserted hs hr hy hz hver hins hsame
    rw [newElements_eq] at hres
    exact hres
  · obtain ⟨v, hv, hsame⟩ := performed h rfl (byHandle_target harr)
    obtain ⟨p, hmay, hins⟩ := eaInsert_inserts harr hv
    obtain ⟨k, hk, rfl⟩ := hmay.place
    rw [counted_anchor?] at hk
    cases hanc.symm.trans hk
    have hrank := placeBefore_rank hq
    have hres := elements_inserted hs (by rw [hrank, ← hlen]; exact hqlen) hy hz hver hins hsame
    rw [newElements_eq, hrank] at hres
    exact hres
  · obtain ⟨v, hv, hsame⟩ := performed h rfl (byHandle_target harr)
    obtain ⟨-, k, e, hk, -, -, hdel⟩ := eaDelete_eq_ok.1 hv
    cases harr.symm.trans hk
    exact elements_deleted hs hy hz hver hdel hsame
  · obtain ⟨v, hv, hsame⟩ := performed h rfl (byHandle_target harr)
    obtain ⟨-, k, e, hk, -, -, hcheck, -, rfl⟩ := eaSplit_eq_ok.1 hv
    cases harr.symm.trans hk
    obtain ⟨hlow, hhigh⟩ := elements_split hs hcheck hsame hz
    refine ⟨hlow, fun j e hj he => hhigh j e hj he fun hji => ?_⟩
    rw [hji, hy] at hj
    cases hj
  · obtain ⟨v, hv, hsame⟩ := performed h rfl (byHandle_target harr)
    obtain ⟨k, j', y', e', hmay, rfl⟩ := eaCat_eq_ok.1 hv
    cases harr.symm.trans hmay.first
    cases he.symm.trans hmay.second
    obtain ⟨hsize, hdies, -, -⟩ := hmay.alike
    exact elements_joined hs hes hsize.symm hdies.symm hapart hsame hz

end Sys2Proof.Machine
end
